-- ==== Sys2Proof/Word.lean ====
section
/-! DEFINITION. The machine's word types (00 R6, R7; 01 R8, R9) and the type of sparse tables. -/

namespace Sys2Proof

abbrev Byte := BitVec 8
/-- A 32-bit register or instruction word. -/
abbrev Word := BitVec 32
/-- A 64-bit scalar register, a pair of vector registers, an address before it is checked. -/
abbrev Dword := BitVec 64
/-- A program counter (R8: 48 bits). -/
abbrev Pc := BitVec 48

/-- A sparse table: keys strictly rising, no entry equal to what an absent key reads as
(the operations are in `Sys2Proof.Machine.Assoc`). -/
abbrev AMap (β : Type) := List (Nat × β)

end Sys2Proof
end

