-- ==== Sys2Proof/Config.lean ====
section
/-! DEFINITION. What one implementation fixes or the manual leaves open: constants with no body, of which
nothing can be proved but that they are functions of their argument. -/

namespace Sys2Proof.Config

/-- Which of the moves that are due comes next (assumption 1). -/
opaque pick : Nat → Nat

/-- How many cycles pass before a move (assumption 1). -/
opaque tick : Nat → Nat

/-- A value the manual leaves unpredictable (assumption 9). -/
opaque free : Nat → Dword

/-- A yes or no the manual leaves unpredictable (assumption 9). -/
opaque coin : Nat → Bool

/-- Whether an agent that is not a gang uses the old translation of a page that has changed (assumption 26). -/
opaque stale : Nat → Nat → Bool

/-- Which entry of a group that differs translates an address (assumption 26). -/
opaque entry : Nat → Nat → Nat

/-- Why a gang that could have issued did not: it was not selected, its pipe was busy, or a bank was (assumption 86). -/
opaque stall : Nat → Nat → Nat

/-- The Ed448 signatures and key of R421 and R422, 114 and 57 bytes, as functions of their inputs (assumption 10). -/
opaque verify : List Byte → List Byte → Bool
opaque sign : List Byte → BitVec 912
opaque deviceKey : BitVec 456

end Sys2Proof.Config
end

