-- ==== Sys2Proof/Syntax.lean ====
section
/-! DEFINITION. The instructions and the device's own steps: one constructor per row of the opcode table. -/

namespace Sys2Proof

/-- R55: the fourteen types of the T field. -/
inductive Ty where
  | i32 | n32 | i64 | n64 | f32 | f64 | f16 | bf16 | i16 | n16 | i8 | n8 | b32 | b64
  deriving DecidableEq, Repr

/-- R59: what a 9-bit operand code names. -/
inductive Opnd where
  | v (n : Fin 256)     -- vector register
  | s (n : Fin 64)      -- scalar register
  | p (n : Fin 8)       -- predicate register
  | w (n : Fin 2)       -- wide accumulator
  | t (n : Fin 6)       -- accumulator tile t0 to t5
  | ic (k : Fin 64)     -- integer constant of value k − 32 (R60)
  | fc (k : Fin 16)     -- float constant (R61)
  | imm                 -- the instruction's immediate (R62)
  deriving DecidableEq, Repr

/-- R49, R62, R63: what follows word0. -/
inductive Ext where
  | none
  | imm32 (w : Word)
  | ext64 (lo hi : Word)
  deriving DecidableEq, Repr

/-- The fields every instruction has (R50): guard, negate, stop, hold and the words after word0.
Where an opcode's own arguments stand in IMM32 or in the field word, `ext` holds nothing of them. -/
structure Hd where
  g : Fin 8
  neg : Bool
  stop : Bool
  hold : Fin 4
  ext : Ext
  deriving DecidableEq, Repr

/-- R30. -/
inductive Rm where
  | rne | rtz | rdn | rup
  deriving DecidableEq, Repr

/-- R57: the seven scopes (R272). -/
inductive Scope where
  | fib | gang | crew | clu | die | dev | sys
  deriving DecidableEq, Repr

/-- R57, R107: the four address spaces. -/
inductive Space where
  | glob | priv | scratch | peer
  deriving DecidableEq, Repr

/-- R57, R292: weak, strong, or with fences (acquire on a load, release on a store, both on an atomic). -/
inductive Strength where
  | weak | strong | sync
  deriving DecidableEq, Repr

/-- R92: the integer comparisons; R120 adds `un` and `ord`. -/
inductive Cmp where
  | eq | ne | lt | le | gt | ge | un | ord
  deriving DecidableEq, Repr

/-- R92: the operations of `plog`. -/
inductive Plog where
  | and | or | xor | andn | orn | nand | nor | xnor
  deriving DecidableEq, Repr

/-- R205, R294: the combining operations; `exch` is of `atom` alone. -/
inductive Red where
  | add | min | max | and | or | xor | exch
  deriving DecidableEq, Repr

/-- R206. -/
inductive Shfl where
  | idx | up | down | xor
  deriving DecidableEq, Repr

/-- R143. -/
inductive WMov where
  | copy | neg | add | sub
  deriving DecidableEq, Repr

/-- R128: the formats of `cvt`. -/
inductive Fmt where
  | ty (t : Ty) | f8e4 | f8e5
  deriving DecidableEq, Repr

/-- R195: what `spawn` orders. -/
inductive Order where
  | none | clu | dev
  deriving DecidableEq, Repr

/-- One source (R86). -/
structure Int2 where
  t : Ty
  sat : Bool
  d : Opnd
  a : Opnd
  deriving DecidableEq, Repr

/-- Two sources (R86). -/
structure Int3 where
  t : Ty
  sat : Bool
  d : Opnd
  a : Opnd
  b : Opnd
  deriving DecidableEq, Repr

/-- Three sources (R86). -/
structure Int4 where
  t : Ty
  sat : Bool
  d : Opnd
  a : Opnd
  b : Opnd
  c : Opnd
  deriving DecidableEq, Repr

/-- R90: `bfe` and `bfi`, with the immediate length. -/
structure Bits where
  t : Ty
  d : Opnd
  a : Opnd
  b : Opnd
  len : Fin 512
  deriving DecidableEq, Repr

/-- R92, R120. -/
structure CmpOps where
  t : Ty
  cmp : Cmp
  d : Opnd
  a : Opnd
  b : Opnd
  deriving DecidableEq, Repr

/-- R113: floating forms of one, two and three sources. -/
structure Fl2 where
  t : Ty
  rm : Rm
  pk : Bool
  d : Opnd
  a : Opnd
  deriving DecidableEq, Repr

structure Fl3 where
  t : Ty
  rm : Rm
  pk : Bool
  d : Opnd
  a : Opnd
  b : Opnd
  deriving DecidableEq, Repr

structure Fl4 where
  t : Ty
  rm : Rm
  pk : Bool
  d : Opnd
  a : Opnd
  b : Opnd
  c : Opnd
  deriving DecidableEq, Repr

/-- R128. -/
structure Cvt where
  dst : Fmt
  src : Fmt
  rm : Rm
  sat : Bool
  d : Opnd
  a : Opnd
  deriving DecidableEq, Repr

/-- R139: `wmul2`, `wmul3` (whose third factor is `c`). -/
structure WMul where
  t : Ty
  neg : Bool
  d : Fin 2
  a : Opnd
  b : Opnd
  deriving DecidableEq, Repr

/-- R146: `wld` and `wst`. -/
structure WMem where
  space : Space
  w : Fin 2
  a : Opnd
  b : Opnd
  c : Opnd
  deriving DecidableEq, Repr

/-- R102: `ld` and `st`; `two` is count 2. -/
structure Mem where
  t : Ty
  scope : Scope
  str : Strength
  space : Space
  two : Bool
  d : Opnd
  a : Opnd
  b : Opnd
  deriving DecidableEq, Repr

/-- R291: `atom` and `cas` (whose operation is not used). -/
structure Atom where
  t : Ty
  scope : Scope
  str : Strength
  space : Space
  op : Red
  d : Opnd
  a : Opnd
  b : Opnd
  c : Opnd
  deriving DecidableEq, Repr

/-- R298. -/
structure RedOps where
  t : Ty
  scope : Scope
  rel : Bool
  op : Red
  d : Opnd
  a : Opnd
  b : Opnd
  deriving DecidableEq, Repr

/-- R305: `ldesc`, `sdesc`. -/
structure Desc where
  space : Space
  d : Opnd
  a : Opnd
  b : Opnd
  deriving DecidableEq, Repr

/-- R195: `spawn`; `wcode` is the width code. -/
structure Spawn where
  wcode : Fin 4
  order : Order
  d : Opnd
  a : Opnd
  b : Opnd
  deriving DecidableEq, Repr

/-- R205, R374: an operation, with its rounding for a float sum or its saturation for an integer sum. -/
structure Comb where
  t : Ty
  op : Red
  rm : Rm
  sat : Bool
  d : Opnd
  a : Opnd
  deriving DecidableEq, Repr

/-- R347: `mld`, `mst`: slabs `f` to `f + n1`. -/
structure TileMem where
  t : Ty
  scratch : Bool
  tile : Fin 8
  a : Opnd
  b : Opnd
  f : Fin 8
  n1 : Fin 8
  deriving DecidableEq, Repr

/-- R347, R356: `mma`. -/
structure Mma where
  z : Bool
  tile : Fin 8
  q : Fin 64
  a : Opnd
  b : Opnd
  c : Opnd
  deriving DecidableEq, Repr

/-- R430: a window: base, size, and whether it may be read and written. -/
structure Window where
  base : Nat
  size : Nat
  r : Bool
  w : Bool
  deriving DecidableEq, Repr

/-- R430: a connection that Zalner opens for a context: its windows, and a posted receive ring (base and size). -/
structure ConnCfg where
  id : Nat
  windows : List Window
  ring : Option (Nat × Nat)
  deriving DecidableEq, Repr

/-- R423: what Zalner sets when it creates a context. -/
structure CtxCfg where
  id : Nat
  tables : List (Nat × Dword)         -- translation-table entries that Zalner writes: physical address and entry
  root : Nat
  partition : BitVec 48
  heap : Option (Dword × Nat)         -- base and slabs; none: not set
  arena : Option (Nat × Nat)          -- base and size
  overflow : List (Nat × Nat × Nat)   -- core, base, size in bytes
  saveArea : Option (Nat × Nat)       -- base and size
  engines : List Nat                  -- cores whose matrix engine the context is given (R345)
  system : BitVec 16                  -- system-scope incumbents (R433)
  modules : List Nat                  -- the group of modules (R433)
  log : Option (Nat × Nat)            -- replay log base and size (R449)
  safemaps : List (Dword × Dword)     -- kernel section's text base and its .safemap base (R435)
  conns : List ConnCfg                -- R430
  weight : Nat                        -- R426: of the context's process in the run tree
  threads : List (Nat × Nat)          -- R426: its control-core threads, number and weight
  deriving DecidableEq, Repr

/-- R434: what makes Zalner report a fault of a job. -/
inductive Failure where
  | link (src dst : Nat) | portDown (port : Fin 2) | moduleSilent (m : Nat)
  deriving DecidableEq, Repr

/-- R434: a job and its failure. -/
structure Failed where
  job : Nat
  why : Failure
  deriving DecidableEq, Repr

/-- R420: a measurement, in milliwatts: of the module, and of some islands. -/
structure PowerSample where
  module : Nat
  draws : List (Nat × Nat)
  deriving DecidableEq, Repr

/-- R393: the masters that can be frozen. -/
inductive Master where
  | gang (g : Nat)
  | copyEngine (core ctx : Nat)
  | stream (core slot : Nat)
  | conn (c : Nat)
  deriving DecidableEq, Repr

/-- R404: what an urgent context may claim: register rows and lane slots by the gang whose they are, for the manual counts them and
gives them no places (assumption 75); a scratchpad range; the matrix engine. -/
inductive Claim where
  | rows (gang : Nat) | scratch (base size : Nat) | wide (gang : Nat) | prop (gang : Nat) | matrix
  deriving DecidableEq, Repr

/-- R421: one firmware stage as it stands in flash. -/
structure Stage where
  bytes : List Byte
  sig : List Byte
  version : Word
  deriving DecidableEq, Repr

/-- R430: what a connection is asked for that RoCE support refuses. -/
inductive Refusable where
  | rdmaAtomic | datagram | extended
  deriving DecidableEq, Repr

/-- One constructor per row of the opcode table. Instructions carry `Hd`; the device's own steps
carry the numbers of the objects they concern, or what arrives from outside. -/
inductive Instr where
  -- control
  | nop (h : Hd)
  | br (h : Hd) (off : Word)
  | brx (h : Hd) (a : Opnd)
  | callLabel (h : Hd) (d : Opnd) (off : Word)
  | callRegister (h : Hd) (d a : Opnd)
  | ret (h : Hd) (a : Opnd)
  | exit (h : Hd)
  | trap (h : Hd) (a : Opnd)
  | tret (h : Hd)
  | getsr (h : Hd) (wide : Bool) (d : Opnd) (idx : Fin 64)
  | setsr (h : Hd) (wide : Bool) (a : Opnd) (idx : Fin 64)
  | setsrKey (h : Hd) (wide : Bool) (a : Opnd)
  | setsrPerf (h : Hd) (wide : Bool) (a : Opnd) (k : Fin 16)
  | yield (h : Hd)
  | brk (h : Hd)
  -- integer
  | add (h : Hd) (o : Int3)
  | sub (h : Hd) (o : Int3)
  | mul (h : Hd) (o : Int3)
  | mulhi (h : Hd) (o : Int3)
  | mad (h : Hd) (o : Int4)
  | div (h : Hd) (o : Int3)
  | rem (h : Hd) (o : Int3)
  | neg (h : Hd) (o : Int2)
  | abs (h : Hd) (o : Int2)
  | min (h : Hd) (o : Int3)
  | max (h : Hd) (o : Int3)
  | and (h : Hd) (o : Int3)
  | or (h : Hd) (o : Int3)
  | xor (h : Hd) (o : Int3)
  | not (h : Hd) (o : Int2)
  | shl (h : Hd) (o : Int3)
  | shr (h : Hd) (o : Int3)
  | sar (h : Hd) (o : Int3)
  | rol (h : Hd) (o : Int3)
  | ror (h : Hd) (o : Int3)
  | popc (h : Hd) (o : Int2)
  | clz (h : Hd) (o : Int2)
  | ctz (h : Hd) (o : Int2)
  | brev (h : Hd) (o : Int2)
  | bfe (h : Hd) (o : Bits)
  | bfi (h : Hd) (o : Bits)
  | sel (h : Hd) (o : Int4)
  | mov (h : Hd) (o : Int2)
  | setp (h : Hd) (o : CmpOps)
  | plog (h : Hd) (op : Plog) (d a b : Opnd)
  | addc (h : Hd) (o : Int4)
  | lea (h : Hd) (o : Int3) (scale : Fin 8)
  -- floating
  | fadd (h : Hd) (o : Fl3)
  | fsub (h : Hd) (o : Fl3)
  | fmul (h : Hd) (o : Fl3)
  | ffma (h : Hd) (o : Fl4)
  | fnfma (h : Hd) (o : Fl4)
  | fdiv (h : Hd) (o : Fl3)
  | fsqrt (h : Hd) (o : Fl2)
  | frcp (h : Hd) (o : Fl2)
  | frsq (h : Hd) (o : Fl2)
  | fmin (h : Hd) (o : Fl3)
  | fmax (h : Hd) (o : Fl3)
  | fabs (h : Hd) (o : Fl2)
  | fneg (h : Hd) (o : Fl2)
  | fsetp (h : Hd) (o : CmpOps)
  | fclass (h : Hd) (o : Fl2)
  | frnd (h : Hd) (o : Fl2)
  | fcpsgn (h : Hd) (o : Fl3)
  | fscale (h : Hd) (o : Fl3)
  | fexpo (h : Hd) (o : Fl2)
  | fmant (h : Hd) (o : Fl2)
  | f2sum (h : Hd) (o : Fl4)
  | f2prod (h : Hd) (o : Fl4)
  | fdot2 (h : Hd) (o : Fl4)
  | fpfma (h : Hd) (o : Fl4)
  | cvt (h : Hd) (o : Cvt)
  | pack (h : Hd) (o : Fl3)
  | unpk (h : Hd) (hi : Bool) (o : Fl2)
  | qnt (h : Hd) (d a b : Opnd)
  | qntIns (h : Hd) (d a b : Opnd) (j : Fin 512)
  | fexp2 (h : Hd) (o : Fl2)
  | flog2 (h : Hd) (o : Fl2)
  | rand (h : Hd) (t : Ty) (d : Opnd)
  | seed (h : Hd) (fid : Bool) (a : Opnd)
  -- wide accumulator
  | wclr (h : Hd) (d : Fin 2)
  | wclrStat (h : Hd) (d : Fin 2)
  | wadd (h : Hd) (t : Ty) (d : Fin 2) (a : Opnd)
  | wsub (h : Hd) (t : Ty) (d : Fin 2) (a : Opnd)
  | wmul2 (h : Hd) (o : WMul)
  | wmul3 (h : Hd) (o : WMul) (c : Opnd)
  | wsgn (h : Hd) (wide : Bool) (d : Opnd) (a : Fin 2) (p : Opnd)
  | wrnd (h : Hd) (wide : Bool) (rm : Rm) (d : Opnd) (a : Fin 2)
  | wmov (h : Hd) (op : WMov) (d a : Fin 2)
  | wld (h : Hd) (o : WMem)
  | wst (h : Hd) (o : WMem)
  -- memory
  | ld (h : Hd) (o : Mem)
  | st (h : Hd) (o : Mem)
  | imageStore (h : Hd) (t : Ty) (map : Fin 4) (d a b : Opnd)
  | atom (h : Hd) (o : Atom)
  | cas (h : Hd) (o : Atom)
  | red (h : Hd) (o : RedOps)
  | fenceAcq (h : Hd) (sc : Scope)
  | fenceRel (h : Hd) (sc : Scope)
  | fenceFull (h : Hd) (sc : Scope)
  | fenceComplete (g id : Nat)
  | prefL1 (h : Hd) (a b : Opnd)
  | prefL2 (h : Hd) (a b : Opnd)
  | invalL1 (h : Hd) (a b : Opnd)
  | invalAll (h : Hd)
  | invalRdc (h : Hd) (a b : Opnd)
  | flush (h : Hd) (a b : Opnd)
  | flushAll (h : Hd)
  | ldesc (h : Hd) (o : Desc)
  | sdesc (h : Hd) (o : Desc)
  | dalloc (h : Hd) (d a : Opnd)
  | dallocZ (h : Hd) (d a : Opnd)
  | magazineRefill (core ctx cls : Nat)
  | dfree (h : Hd) (a : Opnd)
  -- parallel execution
  | spawnLabel (h : Hd) (o : Spawn) (off : Word)
  | spawnRegister (h : Hd) (o : Spawn) (c : Opnd)
  | binTimerExpiry (core bin : Nat)
  | spawnGangPlacement (core : Nat)
  | overflowReturn (core ctx seg : Nat)
  | barSync (h : Hd) (a b : Opnd)
  | barArv (h : Hd) (a b : Opnd)
  | barEsync (h : Hd) (b : Opnd)
  | barEarv (h : Hd) (b : Opnd)
  | barRgn (h : Hd) (d : Opnd)
  | barrierPhaseComplete (ens : Bool) (owner idx : Nat)
  | voteAll (h : Hd) (d a : Opnd)
  | voteAny (h : Hd) (d a : Opnd)
  | voteBallot (h : Hd) (d a : Opnd)
  | voteUni (h : Hd) (wide : Bool) (d a : Opnd)
  | shfl (h : Hd) (wide : Bool) (mode : Shfl) (d a b c : Opnd)
  | gred (h : Hd) (o : Comb)
  | gscan (h : Hd) (o : Comb) (excl : Bool)
  | matchAny (h : Hd) (wide : Bool) (d a : Opnd)
  | matchAll (h : Hd) (wide : Bool) (d a c : Opnd)
  | racq (h : Hd) (k : Fin 512)
  | racqGrant (core : Nat)
  | regdeadlockDetect (core : Nat)
  | rrel (h : Hd) (k : Fin 512)
  | incu (h : Hd) (rel : Bool) (d a : Opnd) (k : Fin 512)
  | incumbentCommit (msg : Nat)
  | incumbentBroadcastArrival (core bcast : Nat)
  | systemIncumbentForward (ctx k : Nat) (key : Dword)
  | incrd (h : Hd) (d : Opnd) (k : Fin 512)
  | incrdHome (h : Hd) (acq : Bool) (d : Opnd) (k : Fin 512)
  | bnd (h : Hd) (a : Opnd) (k : Fin 512)
  | defer (h : Hd) (n : Fin 512)
  | popen (h : Hd)
  | accept (h : Hd) (d a : Opnd)
  | pclose (h : Hd)
  | launch (h : Hd) (d a : Opnd)
  | signal (h : Hd) (sc : Scope) (a b : Opnd)
  | signalAdd (h : Hd) (sc : Scope) (a b : Opnd)
  | orbitSize (h : Hd) (d : Opnd)
  | orbitStab (h : Hd) (d : Opnd)
  | orbitImg (h : Hd) (d : Opnd) (j : Fin 512)
  -- engines
  | role (h : Hd) (k : Fin 512)
  | stgw (h : Hd) (a b : Opnd) (ph : Fin 512)
  | stgwPass (g : Nat)
  | stga (h : Hd) (a b : Opnd)
  | copyG2s (h : Hd) (desc : Bool) (d a b c : Opnd)
  | copyS2g (h : Hd) (desc : Bool) (d a b c : Opnd)
  | copyAcceptance (g : Nat)
  | gath (h : Hd) (t : Ty) (d a b : Opnd)
  | scat (h : Hd) (t : Ty) (d a b : Opnd)
  | copyComplete (core id : Nat)
  | wait (h : Hd) (l s : Fin 64) (c : Fin 32) (m : Fin 8)
  | waitComplete (g : Nat)
  | sleep (h : Hd) (a : Opnd)
  | sleepWake (g : Nat)
  | subs (h : Hd) (d a : Opnd)
  | subscriptionTile (core slot : Nat)
  | subscriptionTileComplete (core slot : Nat)
  | unsub (h : Hd) (d a : Opnd)
  -- matrix engine
  | troupe (h : Hd) (a : Opnd)
  | mopf (h : Hd)
  | mopfComplete (g : Nat)
  | mma (h : Hd) (o : Mma)
  | matrixStep (core : Nat)
  | mmaComplete (core : Nat)
  | matrixFaultDelivery (g : Nat)
  | mld (h : Hd) (o : TileMem)
  | mst (h : Hd) (o : TileMem)
  | tileMoveComplete (core id : Nat)
  | mcont (h : Hd) (tile : Fin 8)
  | wbload (h : Hd) (a b c : Opnd)
  | wbloadComplete (core id : Nat)
  -- collectives
  | cgrp (h : Hd) (d a b : Opnd)
  | cgrpFree (h : Hd) (b : Opnd)
  | cag (h : Hd) (t : Ty) (d a b : Opnd)
  | crs (h : Hd) (o : Comb) (b : Opnd)
  | ca2a (h : Hd) (t : Ty) (d a b : Opnd)
  | collectivePerform (grp k : Nat)
  | cbar (h : Hd) (d a : Opnd)
  | cwait (h : Hd) (d a : Opnd)
  -- debug
  | ckpt (h : Hd) (d a : Opnd)
  | ckptHold (h : Hd) (d a : Opnd)
  | ckptResume (g : Nat)
  | perfSel (h : Hd) (d a : Opnd) (k : Fin 512)
  | perfSmp (h : Hd) (d a : Opnd)
  | stallSample (core : Nat)
  -- traps, memory system
  | takeTrap (g : Nat)
  | meshRequestArrival (id : Nat)
  | l2Lookup (die slice : Nat)
  | hbmFillComplete (line : Nat)
  | cacheFillArrival (id : Nat)
  | loadReply (id : Nat)
  | storeAcknowledgement (id : Nat)
  | l1Eviction (core line : Nat)
  | peerAccessArrival (id : Nat)
  | pageWalkComplete (id : Nat)
  -- launches, tasks
  | launchAcceptance (q : Nat)
  | ticketClaim (ctx ltag core : Nat)
  | launchCompletion (ctx ltag : Nat)
  | stealRequest (core ctx : Nat)
  | stealReply (id : Nat)
  | stealRefusalArrival (id : Nat)
  | stolenRecordsArrival (id : Nat)
  -- queues, network
  | queueFetch (q : Nat)
  | queueWake (q : Nat)
  | queueUnmap (q : Nat)
  | queueMap (q ctx : Nat) (desc : Dword) (weight : Nat)
  | rdmaWrite (conn : Nat) (va : Dword) (data : List Byte)
  | rdmaRead (conn : Nat) (va : Dword) (len : Nat)
  | rdmaSend (conn : Nat) (data : List Byte)
  | rdmaRefused (conn : Nat) (kind : Refusable)
  -- pre-emption
  | preemptRequest (ctx : Nat) (cores : List Nat) (urgent : Nat)
  | stopReleaseComplete (g : Nat)
  | storageClaimScanOut (core ctx : Nat) (claim : Claim)
  | crewRestore (crew core : Nat)
  -- system
  | powerOn (stages : List Stage)
  | attestationReport (nonce : List Byte)
  | createContext (cfg : CtxCfg)
  | tlbInvalidation (ctx : Nat) (va : Dword) (size : Nat)
  | pageRevoke (ctx : Nat) (va : Dword) (size : Nat)
  | resumeFrozenMaster (m : Master)
  | discardFrozenMaster (m : Master)
  | counterGrant (core : Nat) (ctx : Option Nat) (ring size : Nat)
  | breakpointTableWrite (ctx : Nat) (idx : Fin 8) (hdr : Dword) (ord : Word) (enable : Bool)
  | powerMeasurement (mw : PowerSample)
  | powerThrottleStep
  | setPowerCap (watts : Nat)
  | islandStateChange (i : Nat)
  | islandExitComplete (i : Nat)
  | flitRetransmit (src dst : Nat)
  | linkFailure (src dst : Nat)
  | failureRecovery (job : Failed)
  | linkRecovery (src dst : Nat)
  | ptpMessageArrival (port : Fin 2) (time : Dword)
  | destroyContext (ctx : Nat)
  | emptyReplayLog (ctx : Nat)
  deriving DecidableEq, Repr

end Sys2Proof
end

