-- ==== Sys2Proof/Machine/IntArith.lean ====
section
/-! DEFINITION. Integer and bit types, their exact operations and the narrowing of results (02 R23 to R25, 05 R86 to R94). -/

namespace Sys2Proof.Machine

/-- R23: the width in bits. -/
def tyBits : Ty → Nat
  | .i32 | .n32 | .f32 | .b32 => 32
  | .i64 | .n64 | .f64 | .b64 => 64
  | .f16 | .bf16 | .i16 | .n16 => 16
  | .i8 | .n8 => 8

def tySigned : Ty → Bool
  | .i32 | .i64 | .i16 | .i8 => true
  | _ => false

def tyFloat : Ty → Bool
  | .f32 | .f64 | .f16 | .bf16 => true
  | _ => false

def tyBit : Ty → Bool
  | .b32 | .b64 => true
  | _ => false

/-- "Int" of R86: the eight integer types. -/
def tyInt (t : Ty) : Bool := !tyFloat t && !tyBit t

/-- The register width of a type: 64-bit types take a pair (R10, R25). -/
def tyReg (t : Ty) : Nat := if tyBits t = 64 then 64 else 32

/-- R103: the element size in bytes. -/
def tyBytes (t : Ty) : Nat := tyBits t / 8

/-- The low w bits of a register image, as a natural number. -/
def low (w : Nat) (x : Dword) : Nat := x.toNat % 2 ^ w

/-- R24: a pattern of w bits read as two's complement. -/
def sgn (w : Nat) (n : Nat) : Int := if 2 ^ w ≤ 2 * n then (n : Int) - 2 ^ w else n

/-- R25: the exact integer a source of type t holds. -/
def tyVal (t : Ty) (x : Dword) : Int :=
  if tySigned t then sgn (tyBits t) (low (tyBits t) x) else (low (tyBits t) x : Int)

def tyMin (t : Ty) : Int := if tySigned t then -(2 ^ (tyBits t - 1) : Int) else 0
def tyMax (t : Ty) : Int := if tySigned t then 2 ^ (tyBits t - 1) - 1 else 2 ^ tyBits t - 1

/-- R24: with `.sat`. -/
def clamp (lo hi x : Int) : Int := if x < lo then lo else if hi < x then hi else x

/-- R24, R25: an exact result modulo 2^w, as the register image: narrow signed types sign-extended to 32 bits. -/
def tyWrap (t : Ty) (x : Int) : Dword :=
  let n := (x % (2 ^ tyBits t : Int)).toNat
  if tySigned t && decide (tyBits t < 32) then
    BitVec.ofNat 64 (low 32 (BitVec.ofInt 64 (sgn (tyBits t) n)))
  else BitVec.ofNat 64 n

/-- R85: wrap or clamp. -/
def tyFit (t : Ty) (sat : Bool) (x : Int) : Dword :=
  tyWrap t (if sat then clamp (tyMin t) (tyMax t) x else x)

/-- R87: the quotient of `div`, with its two defined corners. -/
def intQuot (t : Ty) (a b : Int) : Int :=
  if b = 0 then (if tySigned t then -1 else 2 ^ tyBits t - 1)
  else if tySigned t && decide (a = tyMin t) && decide (b = -1) then tyMin t
  else a.tdiv b

/-- R87. -/
def intRem (t : Ty) (a b : Int) : Int := a - b * intQuot t a b

/-- R88: `shl`: on the value for `.sat`, the bit types counting as unsigned. -/
def shlVal (t : Ty) (sat : Bool) (x : Dword) (k : Nat) : Dword :=
  let k' := if k < 128 then k else 128
  tyFit t sat (tyVal t x * 2 ^ k')

/-- R88: `shr`. -/
def shrVal (t : Ty) (x : Dword) (k : Nat) : Dword :=
  if tyBits t ≤ k then 0 else tyWrap t (low (tyBits t) x / 2 ^ k : Nat)

/-- R88: `sar`. -/
def sarVal (t : Ty) (x : Dword) (k : Nat) : Dword :=
  let w := tyBits t
  tyWrap t (sgn w (low w x) / 2 ^ (if k < w then k else w))

/-- R88: rotation left by k mod w. -/
def rolVal (t : Ty) (x : Dword) (k : Nat) : Dword :=
  let w := tyBits t
  let n := low w x * 2 ^ (k % w)
  tyWrap t ((n % 2 ^ w + n / 2 ^ w : Nat) : Int)

/-- R88: rotation right. -/
def rorVal (t : Ty) (x : Dword) (k : Nat) : Dword :=
  rolVal t x (tyBits t - k % tyBits t)

/-- The bits of a number, lowest first. -/
def bitsOf (w n : Nat) : List Bool := (List.range w).map n.testBit

/-- A number from its bits, lowest first. -/
def ofBits : List Bool → Nat
  | [] => 0
  | b :: bs => b.toNat + 2 * ofBits bs

/-- R89. -/
def popcVal (t : Ty) (x : Dword) : Dword :=
  BitVec.ofNat 64 ((bitsOf (tyBits t) x.toNat).countP id)
def ctzVal (t : Ty) (x : Dword) : Dword :=
  BitVec.ofNat 64 ((bitsOf (tyBits t) x.toNat).takeWhile (!·)).length
def clzVal (t : Ty) (x : Dword) : Dword :=
  BitVec.ofNat 64 ((bitsOf (tyBits t) x.toNat).reverse.takeWhile (!·)).length
def brevVal (t : Ty) (x : Dword) : Dword :=
  tyWrap t (ofBits (bitsOf (tyBits t) x.toNat).reverse : Nat)

/-- R90: `bfe`. -/
def bfeVal (t : Ty) (x : Dword) (q l : Nat) : Dword :=
  let w := tyBits t
  if w ≤ q then 0
  else
    let l' := Nat.min l (w - q)
    let n := low w x / 2 ^ q % 2 ^ l'
    tyWrap t (if tySigned t then sgn l' n else n)

/-- R90: `bfi`. -/
def bfiVal (t : Ty) (old x : Dword) (q l : Nat) : Dword :=
  let w := tyBits t
  let o := low w old
  if w ≤ q then tyWrap t (o : Nat)
  else
    let l' := Nat.min l (w - q)
    tyWrap t ((o - o / 2 ^ q % 2 ^ l' * 2 ^ q + low w x % 2 ^ l' * 2 ^ q : Nat) : Int)

/-- R92. -/
def cmpInt (c : Cmp) (a b : Int) : Bool :=
  match c with
  | .eq => a = b
  | .ne => a ≠ b
  | .lt => a < b
  | .le => a ≤ b
  | .gt => a > b
  | .ge => a ≥ b
  | .un => false
  | .ord => true

/-- R92: `plog`. -/
def plogVal (op : Plog) (a b : Bool) : Bool :=
  match op with
  | .and => a && b
  | .or => a || b
  | .xor => a != b
  | .andn => a && !b
  | .orn => a || !b
  | .nand => !(a && b)
  | .nor => !(a || b)
  | .xnor => a == b

end Sys2Proof.Machine
end

