-- ==== Sys2Proof/Machine/Uses.lean ====
section
/-! DEFINITION. The opcode entries' tables: which operands an instruction reads and writes, at what width, and
which kinds of operand each accepts (03 R59 to R64; the tables of 05, 06, 07, 10, 11, 12, 15, 17, 18, 19, 20, 24). -/

namespace Sys2Proof.Machine

/-- What an operand may be. -/
inductive Kind where
  | v | s | p | p7 | w | t | ic | zero | fc | imm
  deriving DecidableEq, Repr

def Kind.accepts : Kind → Opnd → Bool
  | .v, .v _ => true
  | .s, .s _ => true
  | .p, .p _ => true
  | .p7, .p k => k = 7
  | .w, .w _ => true
  | .t, .t _ => true
  | .ic, .ic _ => true
  | .zero, .ic k => k = 32
  | .fc, .fc _ => true
  | .imm, .imm => true
  | _, _ => false

/-- One operand of one instruction: read or written, the vector registers it takes from an aligned number on,
the scalar registers it takes, and the kinds it accepts. -/
structure Use where
  o : Opnd
  wr : Bool
  vn : Nat
  al : Nat
  sn : Nat
  wide : Bool          -- an immediate is read as 64 bits
  kinds : List Kind
  deriving DecidableEq, Repr

/-- R84: a value source. -/
def kVal : List Kind := [.v, .s, .p, .ic, .imm]
/-- R112: a floating value source. -/
def kFl : List Kind := [.v, .s, .ic, .fc, .imm]
/-- R195: an n32 or 64-bit value. -/
def kNum : List Kind := [.v, .s, .ic, .imm]
/-- R321: a uniform value. -/
def kUni : List Kind := [.s, .ic, .imm]
/-- A vector or scalar register. -/
def kReg : List Kind := [.v, .s]
def kRegP7 : List Kind := [.v, .s, .p7]

/-- R291: a value, with float constants where the type is floating. -/
def kTyp (t : Ty) : List Kind := if tyFloat t then kFl else kNum

def r32 (k : List Kind) (o : Opnd) : Use := ⟨o, false, 1, 1, 1, false, k⟩
def r64 (k : List Kind) (o : Opnd) : Use := ⟨o, false, 2, 2, 1, true, k⟩
def w32 (k : List Kind) (o : Opnd) : Use := ⟨o, true, 1, 1, 1, false, k⟩
def w64 (k : List Kind) (o : Opnd) : Use := ⟨o, true, 2, 2, 1, false, k⟩
/-- R10: a 64-bit type takes a pair. -/
def rT (t : Ty) (k : List Kind) (o : Opnd) : Use := if tyBits t = 64 then r64 k o else r32 k o
def wT (t : Ty) (k : List Kind) (o : Opnd) : Use := if tyBits t = 64 then w64 k o else w32 k o
def rP (o : Opnd) : Use := r32 [.p] o
def wP (o : Opnd) : Use := w32 [.p] o
def rW (n : Fin 2) : Use := r32 [.w] (.w n)
def wW (n : Fin 2) : Use := w32 [.w] (.w n)
/-- R102: base and offset: the offset register is 32 bits, its immediate is an i64. -/
def addrUses (a b : Opnd) : List Use := [r64 kReg a, { r32 kNum b with wide := true }]
/-- R104: count 2 takes four registers, or two scalar registers. -/
def dblUse (o : Opnd) (wr : Bool) : Use := ⟨o, wr, 4, 4, 2, true, kReg⟩

/-- R113, R126: the accumulate format of `fpfma`. -/
def widerTy (t : Ty) : Ty := if t = .f32 then .f64 else .f32

def i2 (o : Int2) : List Use := [wT o.t kReg o.d, rT o.t kVal o.a]
def i3 (o : Int3) : List Use := [wT o.t kReg o.d, rT o.t kVal o.a, rT o.t kVal o.b]
/-- R88: the count is an n32 value. -/
def ish (o : Int3) : List Use := [wT o.t kReg o.d, rT o.t kVal o.a, r32 kVal o.b]
/-- R89: the count written is an n32 value. -/
def icn (o : Int2) : List Use := [w32 kReg o.d, rT o.t kVal o.a]
def f2 (o : Fl2) : List Use := [wT o.t kReg o.d, rT o.t kFl o.a]
def f3 (o : Fl3) : List Use := [wT o.t kReg o.d, rT o.t kFl o.a, rT o.t kFl o.b]
def f4 (o : Fl4) : List Use := f3 ⟨o.t, o.rm, o.pk, o.d, o.a, o.b⟩ ++ [rT o.t kFl o.c]
def comb (o : Comb) : List Use := [wT o.t kReg o.d, rT o.t (kTyp o.t) o.a]
def setsrUses (wide : Bool) (a : Opnd) : List Use := [if wide then r64 kVal a else r32 kVal a]
/-- R291, R295: the old value may be discarded. -/
def atomUses (o : Atom) : List Use := [wT o.t kRegP7 o.d, r64 kReg o.a, rT o.t (kTyp o.t) o.b]
def tileUses (o : TileMem) : List Use := [r64 [.s] o.a, r64 kUni o.b]
def spawnUses (o : Spawn) : List Use :=
  [w64 kRegP7 o.d, ⟨o.a, false, 8, 8, 0, false, [.v, .zero]⟩]

/-- The operands of every instruction, in the order D, A, B, C. DESIGN CHOICE (assumption 77): a plain value, as A of `vote.uni`,
`shfl`, `gred`, `gscan` and `match`, is in no predicate register. DESIGN CHOICE (assumption 101): the mask, the tag and the ticket of
chapter 19 are uniform values, as its handles and transfer words are. -/
def uses : Instr → List Use
  | .brx _ a => [r64 kReg a]
  | .callLabel _ d _ => [w64 kReg d]
  | .callRegister _ d a => [w64 kReg d, r64 kReg a]
  | .ret _ a => [r64 kReg a]
  | .trap _ a => [r32 kNum a]
  | .getsr _ w d _ => [if w then w64 kReg d else w32 kReg d]
  | .setsr _ w a _ => setsrUses w a
  | .setsrKey _ w a => setsrUses w a
  | .setsrPerf _ w a _ => setsrUses w a
  | .add _ o => i3 o
  | .sub _ o => i3 o
  | .mul _ o => i3 o
  | .mulhi _ o => i3 o
  | .mad _ o => i3 ⟨o.t, o.sat, o.d, o.a, o.b⟩ ++ [rT o.t kVal o.c]
  | .div _ o => i3 o
  | .rem _ o => i3 o
  | .neg _ o => i2 o
  | .abs _ o => i2 o
  | .min _ o => i3 o
  | .max _ o => i3 o
  | .and _ o => i3 o
  | .or _ o => i3 o
  | .xor _ o => i3 o
  | .not _ o => i2 o
  | .shl _ o => ish o
  | .shr _ o => ish o
  | .sar _ o => ish o
  | .rol _ o => ish o
  | .ror _ o => ish o
  | .popc _ o => icn o
  | .clz _ o => icn o
  | .ctz _ o => icn o
  | .brev _ o => i2 o
  | .bfe _ o => [wT o.t kReg o.d, rT o.t kVal o.a, r32 kVal o.b]
  | .bfi _ o => [wT o.t kReg o.d, rT o.t kReg o.d, rT o.t kVal o.a, r32 kVal o.b]
  | .sel _ o =>
    let k := if tyFloat o.t then .fc :: kVal else kVal
    [wT o.t kReg o.d, rT o.t k o.a, rT o.t k o.b, rP o.c]
  | .mov _ o =>
    [wT o.t (.p :: kReg) o.d, rT o.t (if tyFloat o.t then .fc :: kVal else kVal) o.a]
  | .setp _ o => [wP o.d, rT o.t kVal o.a, rT o.t kVal o.b]
  | .plog _ _ d a b => [wP d, rP a, rP b]
  | .addc _ o => [wT o.t kReg o.d, rT o.t kVal o.a, rT o.t kVal o.b, rP o.c, wP o.c]
  | .lea _ o _ => [w64 kReg o.d, r64 kVal o.a, r32 kVal o.b]
  | .fadd _ o => f3 o
  | .fsub _ o => f3 o
  | .fmul _ o => f3 o
  | .ffma _ o => f4 o
  | .fnfma _ o => f4 o
  | .fdiv _ o => f3 o
  | .fsqrt _ o => f2 o
  | .frcp _ o => f2 o
  | .frsq _ o => f2 o
  | .fmin _ o => f3 o
  | .fmax _ o => f3 o
  | .fabs _ o => f2 o
  | .fneg _ o => f2 o
  | .fsetp _ o => [wP o.d, rT o.t kFl o.a, rT o.t kFl o.b]
  | .fclass _ o => [w32 kReg o.d, rT o.t kFl o.a]
  | .frnd _ o => f2 o
  | .fcpsgn _ o => f3 o
  | .fscale _ o => [wT o.t kReg o.d, rT o.t kFl o.a, r32 kNum o.b]
  | .fexpo _ o => [w32 kReg o.d, rT o.t kFl o.a]
  | .fmant _ o => f2 o
  | .f2sum _ o => f3 ⟨o.t, o.rm, o.pk, o.d, o.a, o.b⟩ ++ [wT o.t kReg o.c]
  | .f2prod _ o => f3 ⟨o.t, o.rm, o.pk, o.d, o.a, o.b⟩ ++ [wT o.t kReg o.c]
  | .fdot2 _ o => [w32 kReg o.d, r32 kFl o.a, r32 kFl o.b, r32 kFl o.c]
  | .fpfma _ o =>
    [wT (widerTy o.t) kReg o.d, rT o.t kFl o.a, rT o.t kFl o.b, rT (widerTy o.t) kFl o.c]
  | .cvt _ o =>
    let dw := match o.dst with | .ty t => wT t kReg o.d | _ => w32 kReg o.d
    let sr := match o.src with
      | .ty t => rT t (if tyFloat t then kFl else kNum) o.a
      | _ => r32 kNum o.a
    [dw, sr]
  | .pack _ o => [w32 kReg o.d, r32 kFl o.a, r32 kFl o.b]
  | .unpk _ _ o => [w32 kReg o.d, r32 kFl o.a]
  | .qnt _ d a b => [w32 kReg d, r32 kFl a, r32 kFl b]
  | .qntIns _ d a b _ => [w32 kReg d, r32 kReg d, r32 kFl a, r32 kFl b]
  | .fexp2 _ o => f2 o
  | .flog2 _ o => f2 o
  | .rand _ t d => [wT t kReg d]
  | .seed _ _ a => [r64 kNum a]
  | .wclr _ d => [wW d]
  | .wclrStat _ d => [rW d, wW d]
  | .wadd _ t d a => [rW d, wW d, rT t (kTyp t) a]
  | .wsub _ t d a => [rW d, wW d, rT t (kTyp t) a]
  | .wmul2 _ o => [rW o.d, wW o.d, rT o.t kFl o.a, rT o.t kFl o.b]
  | .wmul3 _ o c => [rW o.d, wW o.d, rT o.t kFl o.a, rT o.t kFl o.b, rT o.t kFl c]
  | .wsgn _ wd d a p => [if wd then w64 kReg d else w32 kReg d, rW a, wP p]
  | .wrnd _ wd _ d a => [if wd then w64 kReg d else w32 kReg d, rW a]
  | .wmov _ _ d a => [rW d, wW d, rW a]
  | .wld _ o => wW o.w :: addrUses o.a o.b ++ [r32 [.v, .s, .ic] o.c]
  | .wst _ o => rW o.w :: addrUses o.a o.b ++ [w32 kRegP7 o.c]
  | .ld _ o => (if o.two then dblUse o.d true else wT o.t kReg o.d) :: addrUses o.a o.b
  | .st _ o =>
    (if o.two then dblUse o.d false
      else rT o.t (if tyFloat o.t then .fc :: kVal else kVal) o.d) :: addrUses o.a o.b
  | .imageStore _ t _ d a b =>
    rT t (if tyFloat t then .fc :: kVal else kVal) d :: addrUses a b
  | .atom _ o => atomUses o
  | .cas _ o => atomUses o ++ [rT o.t (kTyp o.t) o.c]
  | .red _ o => rT o.t (kTyp o.t) o.d :: addrUses o.a o.b
  | .prefL1 _ a b => addrUses a b
  | .prefL2 _ a b => addrUses a b
  | .invalL1 _ a b => addrUses a b
  | .invalRdc _ a b => addrUses a b
  | .flush _ a b => addrUses a b
  | .ldesc _ o => w32 kReg o.d :: addrUses o.a o.b
  | .sdesc _ o => r32 kNum o.d :: addrUses o.a o.b
  | .dalloc _ d a => [w64 kReg d, r64 kNum a]
  | .dallocZ _ d a => [w64 kReg d, r64 kNum a]
  | .dfree _ a => [r64 [.v, .s, .zero] a]
  | .spawnLabel _ o _ => spawnUses o ++ [r64 [.v, .s, .ic] o.b]
  | .spawnRegister _ o c => spawnUses o ++ [r64 kNum o.b, r64 kReg c]
  | .barSync _ a b => [r32 kNum a, r32 kNum b]
  | .barArv _ a b => [r32 kNum a, r32 kNum b]
  | .barEsync _ b => [r32 kNum b]
  | .barEarv _ b => [r32 kNum b]
  | .barRgn _ d => [w32 kReg d]
  | .voteAll _ d a => [wP d, rP a]
  | .voteAny _ d a => [wP d, rP a]
  | .voteBallot _ d a => [w64 kReg d, rP a]
  | .voteUni _ wd d a => [wP d, if wd then r64 kNum a else r32 kNum a]
  | .shfl _ wd _ d a b c =>
    [if wd then w64 kReg d else w32 kReg d, if wd then r64 kNum a else r32 kNum a, r32 kNum b, wP c]
  | .gred _ o => comb o
  | .gscan _ o _ => comb o
  | .matchAny _ wd d a => [w64 kReg d, if wd then r64 kNum a else r32 kNum a]
  | .matchAll _ wd d a c => [w64 kReg d, if wd then r64 kNum a else r32 kNum a, wP c]
  | .incu _ _ d a _ => [w64 kRegP7 d, r64 kNum a]
  | .incrd _ d _ => [w64 kReg d]
  | .incrdHome _ _ d _ => [w64 kReg d]
  | .bnd _ a _ => [r64 kNum a]
  | .accept _ d a => [wP d, r32 kFl a]
  | .launch _ d a => [w32 kRegP7 d, r64 kNum a]
  | .signal _ _ a b => [r64 kReg a, r64 kNum b]
  | .signalAdd _ _ a b => [r64 kReg a, r64 kNum b]
  | .orbitSize _ d => [w32 kReg d]
  | .orbitStab _ d => [w64 kReg d]
  | .orbitImg _ d _ => [w64 kReg d]
  | .stgw _ a b _ => [r64 kUni a, r64 kUni b]
  | .stga _ a b => [r64 kUni a, r64 kUni b]
  | .copyG2s _ _ d a b c => [w64 [.s, .p7] d, r64 kUni a, r64 kUni b, r32 kUni c]
  | .copyS2g _ _ d a b c => [w64 [.s, .p7] d, r64 kUni a, r64 kUni b, r32 kUni c]
  | .gath _ _ d a b => [w64 [.s, .p7] d, r64 kUni a, r64 kReg b]
  | .scat _ _ d a b => [w64 [.s, .p7] d, r64 kUni a, r64 kReg b]
  | .sleep _ a => [r64 kUni a]
  | .subs _ d a => [w32 [.s] d, r64 kUni a]
  | .unsub _ d a => [w32 [.s, .p7] d, r32 kUni a]
  | .troupe _ a => [r32 kUni a]
  | .mma _ o => [r32 [.s] o.a, r32 kUni o.b, r32 kUni o.c,
      ⟨.s o.q, false, 0, 1, 3, false, [.s]⟩]
  | .mld _ o => tileUses o
  | .mst _ o => tileUses o
  | .wbload _ a b c => [r32 kUni a, r64 kUni b, r32 kUni c]
  | .cgrp _ d a b => [w32 [.s] d, r64 kUni a, r32 kUni b]
  | .cgrpFree _ b => [r32 kUni b]
  | .cag _ _ d a b => [w64 [.s] d, r32 kUni a, r64 kUni b]
  | .crs _ o b => [w64 [.s] o.d, r32 kUni o.a, r64 kUni b]
  | .ca2a _ _ d a b => [w64 [.s] d, r32 kUni a, r64 kUni b]
  | .cbar _ d a => [w64 [.s, .p7] d, r32 kUni a]
  | .cwait _ d a => [w64 [.s, .p7] d, r64 kUni a]
  | .ckpt _ d a => [w32 [.s, .p7] d, r32 kUni a]
  | .ckptHold _ d a => [w32 [.s, .p7] d, r32 kUni a]
  | .perfSel _ d a _ => [w32 [.s, .p7] d, r32 kUni a]
  | .perfSmp _ d a => [w32 [.s, .p7] d, r32 kUni a]
  | _ => []

/-- The common fields of an instruction; the device's own steps have none. -/
def hdOf : Instr → Option Hd
  | .nop h | .br h _ | .brx h _ | .callLabel h _ _ | .callRegister h _ _ | .ret h _ | .exit h | .trap h _
  | .tret h | .getsr h _ _ _ | .setsr h _ _ _ | .setsrKey h _ _ | .setsrPerf h _ _ _ | .yield h | .brk h
  | .add h _ | .sub h _ | .mul h _ | .mulhi h _ | .mad h _ | .div h _ | .rem h _ | .neg h _ | .abs h _
  | .min h _ | .max h _ | .and h _ | .or h _ | .xor h _ | .not h _ | .shl h _ | .shr h _ | .sar h _
  | .rol h _ | .ror h _ | .popc h _ | .clz h _ | .ctz h _ | .brev h _ | .bfe h _ | .bfi h _ | .sel h _
  | .mov h _ | .setp h _ | .plog h _ _ _ _ | .addc h _ | .lea h _ _
  | .fadd h _ | .fsub h _ | .fmul h _ | .ffma h _ | .fnfma h _ | .fdiv h _ | .fsqrt h _ | .frcp h _
  | .frsq h _ | .fmin h _ | .fmax h _ | .fabs h _ | .fneg h _ | .fsetp h _ | .fclass h _ | .frnd h _
  | .fcpsgn h _ | .fscale h _ | .fexpo h _ | .fmant h _ | .f2sum h _ | .f2prod h _ | .fdot2 h _
  | .fpfma h _ | .cvt h _ | .pack h _ | .unpk h _ _ | .qnt h _ _ _ | .qntIns h _ _ _ _ | .fexp2 h _
  | .flog2 h _ | .rand h _ _ | .seed h _ _
  | .wclr h _ | .wclrStat h _ | .wadd h _ _ _ | .wsub h _ _ _ | .wmul2 h _ | .wmul3 h _ _
  | .wsgn h _ _ _ _ | .wrnd h _ _ _ _ | .wmov h _ _ _ | .wld h _ | .wst h _
  | .ld h _ | .st h _ | .imageStore h _ _ _ _ _ | .atom h _ | .cas h _ | .red h _
  | .fenceAcq h _ | .fenceRel h _ | .fenceFull h _ | .prefL1 h _ _ | .prefL2 h _ _ | .invalL1 h _ _
  | .invalAll h | .invalRdc h _ _ | .flush h _ _ | .flushAll h | .ldesc h _ | .sdesc h _
  | .dalloc h _ _ | .dallocZ h _ _ | .dfree h _
  | .spawnLabel h _ _ | .spawnRegister h _ _ | .barSync h _ _ | .barArv h _ _ | .barEsync h _
  | .barEarv h _ | .barRgn h _ | .voteAll h _ _ | .voteAny h _ _ | .voteBallot h _ _ | .voteUni h _ _ _
  | .shfl h _ _ _ _ _ _ | .gred h _ | .gscan h _ _ | .matchAny h _ _ _ | .matchAll h _ _ _ _
  | .racq h _ | .rrel h _ | .incu h _ _ _ _ | .incrd h _ _ | .incrdHome h _ _ _ | .bnd h _ _
  | .defer h _ | .popen h | .accept h _ _ | .pclose h | .launch h _ _ | .signal h _ _ _
  | .signalAdd h _ _ _ | .orbitSize h _ | .orbitStab h _ | .orbitImg h _ _
  | .role h _ | .stgw h _ _ _ | .stga h _ _ | .copyG2s h _ _ _ _ _ | .copyS2g h _ _ _ _ _
  | .gath h _ _ _ _ | .scat h _ _ _ _ | .wait h _ _ _ _ | .sleep h _ | .subs h _ _ | .unsub h _ _
  | .troupe h _ | .mopf h | .mma h _ | .mld h _ | .mst h _ | .mcont h _ | .wbload h _ _ _
  | .cgrp h _ _ _ | .cgrpFree h _ | .cag h _ _ _ _ | .crs h _ _ | .ca2a h _ _ _ _ | .cbar h _ _
  | .cwait h _ _ | .ckpt h _ _ | .ckptHold h _ _ | .perfSel h _ _ _ | .perfSmp h _ _ => some h
  | .fenceComplete .. | .magazineRefill .. | .binTimerExpiry .. | .spawnGangPlacement ..
  | .overflowReturn .. | .barrierPhaseComplete .. | .racqGrant .. | .regdeadlockDetect ..
  | .incumbentCommit .. | .incumbentBroadcastArrival .. | .systemIncumbentForward .. | .stgwPass ..
  | .copyAcceptance .. | .copyComplete .. | .waitComplete .. | .sleepWake .. | .subscriptionTile ..
  | .mopfComplete .. | .matrixStep .. | .mmaComplete .. | .matrixFaultDelivery .. | .tileMoveComplete ..
  | .wbloadComplete .. | .collectivePerform .. | .ckptResume .. | .stallSample .. | .takeTrap ..
  | .meshRequestArrival .. | .l2Lookup .. | .hbmFillComplete .. | .cacheFillArrival .. | .loadReply ..
  | .l1Eviction .. | .peerAccessArrival .. | .pageWalkComplete .. | .launchAcceptance .. | .ticketClaim ..
  | .launchCompletion .. | .stealRequest .. | .stealReply .. | .stolenRecordsArrival .. | .queueFetch ..
  | .queueWake .. | .queueUnmap .. | .queueMap .. | .rdmaWrite .. | .rdmaRead .. | .rdmaSend ..
  | .rdmaRefused .. | .preemptRequest .. | .stopReleaseComplete .. | .storageClaimScanOut ..
  | .crewRestore .. | .powerOn .. | .attestationReport .. | .createContext .. | .tlbInvalidation ..
  | .pageRevoke .. | .resumeFrozenMaster .. | .discardFrozenMaster .. | .counterGrant ..
  | .breakpointTableWrite .. | .powerMeasurement .. | .powerThrottleStep | .setPowerCap ..
  | .islandStateChange .. | .islandExitComplete .. | .flitRetransmit .. | .linkFailure ..
  | .failureRecovery .. | .storeAcknowledgement .. | .stealRefusalArrival .. | .subscriptionTileComplete ..
  | .linkRecovery .. | .ptpMessageArrival .. | .destroyContext .. | .emptyReplayLog .. => none

/-- R80: a form whose length is fixed keeps its own words; `ext` then holds nothing, but for the immediate slot of an
`mma` with an immediate operand (R63). -/
def fixedLen : Instr → Option Nat
  | .br .. | .callLabel .. | .spawnLabel .. | .wait .. => some 96
  | .mma .. => some 128
  | .tret _ | .brk _ => some 64
  | _ => none

/-- R49, R80: the length in bits. -/
def lenBits (i : Instr) : Nat :=
  match fixedLen i, hdOf i with
  | some n, _ => n
  | none, some h => (match h.ext with | .none => 64 | .imm32 _ => 96 | .ext64 _ _ => 128)
  | none, none => 0

/-- R57, R195, R374: the types of `gred`, `gscan` and `crs`. -/
def combOk (o : Comb) : Bool :=
  (match o.op with
    | .add | .min | .max => tyInt o.t || o.t = .f32 || o.t = .f64
    | .and | .or | .xor => tyBit o.t
    | .exch => false)
  && (!o.sat || (o.op = .add && tyInt o.t))
  && (o.rm = .rne || (o.op = .add && tyFloat o.t))

/-- R294, R298. -/
def redTyOk (op : Red) (t : Ty) : Bool :=
  match op with
  | .add | .min | .max => t = .i32 || t = .n32 || t = .i64 || t = .n64 || t = .f32 || t = .f64
  | .and | .or | .xor => tyBit t
  | .exch => tyBits t = 32 || tyBits t = 64

/-- R57, R105, R291: a weak access names no scope. -/
def scopeOk (str : Strength) (sc : Scope) : Bool := str ≠ .weak || sc = .fib

/-- R100: the index of a readable system register. -/
def srReadable (k : Nat) : Bool :=
  !(k = 0x17 || (0x1E ≤ k && k ≤ 0x23) || (0x25 ≤ k && k ≤ 0x27) || (0x2C ≤ k && k ≤ 0x2F))

/-- R20, R100: the writable registers that plain `setsr` covers: FST, CTR, TPC, TVEC. -/
def srWritable (k : Nat) : Bool := k = 0x01 || k = 0x15 || k = 0x19 || k = 0x1D

def flOk (o : Fl3) (rm pk : Bool) : Bool :=
  tyFloat o.t && (rm || o.rm = .rne) && (!o.pk || (pk && tyBits o.t = 16))
def flOk2 (o : Fl2) (rm pk : Bool) : Bool := flOk ⟨o.t, o.rm, o.pk, o.d, o.a, o.a⟩ rm pk
def flOk4 (o : Fl4) (rm pk : Bool) : Bool := flOk ⟨o.t, o.rm, o.pk, o.d, o.a, o.b⟩ rm pk
def i3Ok (o : Int3) (ty : Ty → Bool) (sat : Bool) : Bool := ty o.t && (sat || !o.sat)
def i2Ok (o : Int2) (ty : Ty → Bool) (sat : Bool) : Bool := ty o.t && (sat || !o.sat)
/-- "All" of R86. -/
def tyAll (t : Ty) : Bool := !tyFloat t
def tyW (t : Ty) : Bool := t = .i32 || t = .n32 || t = .i64 || t = .n64 || t = .f32 || t = .f64
def tyF2 (t : Ty) : Bool := t = .f32 || t = .f64
def rangeOk (lo hi : Nat) (k : Nat) : Bool := lo ≤ k && k ≤ hi
def cvtFloat : Fmt → Bool
  | .ty t => tyFloat t
  | _ => true
def tileOk (o : TileMem) : Bool :=
  (o.t = .f32 || o.t = .f64 || o.t = .b64) && o.f.val + o.n1.val + 1 ≤ 6
/-- R348: t6 and t7 need the 128-bit form, whose FW is the tile's. -/
def tileForm (h : Hd) (tile : Nat) : Bool :=
  match h.ext with
  | .ext64 _ hi => hi = 0
  | _ => tile < 6

/-- R55 to R57, R64, R105 and the entries' own conditions, beyond the kinds of the operands. -/
def entryOk : Instr → Bool
  | .br _ off | .callLabel _ _ off | .spawnLabel _ _ off => off.toNat % 4 = 0
  | .getsr _ _ _ k => srReadable k
  | .setsr _ _ _ k => srWritable k
  | .add _ o | .sub _ o | .mul _ o => i3Ok o tyInt true
  | .mad _ o => tyInt o.t
  | .mulhi _ o | .div _ o | .rem _ o | .min _ o | .max _ o => i3Ok o tyInt false
  | .neg _ o | .abs _ o => i2Ok o tyInt true
  | .and _ o | .or _ o | .xor _ o | .shr _ o | .sar _ o | .rol _ o | .ror _ o => i3Ok o tyAll false
  | .shl _ o => i3Ok o tyAll true
  | .not _ o | .popc _ o | .clz _ o | .ctz _ o | .brev _ o => i2Ok o tyAll false
  | .bfe _ o | .bfi _ o => tyAll o.t && rangeOk 1 (tyBits o.t) o.len
  | .sel _ o => !o.sat
  | .mov _ o => !o.sat
  | .setp _ o => tyAll o.t && o.cmp ≠ .un && o.cmp ≠ .ord && (!tyBit o.t || o.cmp = .eq || o.cmp = .ne)
  | .addc _ o => (o.t = .n32 || o.t = .n64) && !o.sat
  | .lea _ o sc => (o.t = .i64 || o.t = .n64) && !o.sat && sc.val ≤ 4
  | .fadd _ o | .fsub _ o | .fmul _ o => flOk o true true
  | .ffma _ o | .fnfma _ o => flOk4 o true true
  | .fdiv _ o => flOk o true false
  | .fsqrt _ o | .frcp _ o | .frsq _ o | .frnd _ o => flOk2 o true false
  | .fmin _ o | .fmax _ o | .fcpsgn _ o => flOk o false true
  | .fabs _ o | .fneg _ o => flOk2 o false true
  | .fsetp _ o => tyFloat o.t
  | .fclass _ o | .fexpo _ o | .fmant _ o => flOk2 o false false
  | .fscale _ o => flOk o true false
  | .f2sum _ o | .f2prod _ o => tyF2 o.t && flOk4 o false false
  | .fdot2 _ o => tyBits o.t = 16 && flOk4 o true false
  | .fpfma _ o => o.t ≠ .f64 && flOk4 o true false
  | .cvt _ o =>
    (match o.src with | .ty t => !tyBit t | _ => true) && (match o.dst with | .ty t => !tyBit t | _ => true)
    && (!o.sat || (match o.dst with | .ty t => tyInt t | _ => true))
    && (o.rm = .rne || cvtFloat o.src || cvtFloat o.dst)
  | .pack _ o => tyBits o.t = 16 && flOk o true false
  | .unpk _ _ o => tyBits o.t = 16 && flOk2 o false false
  | .qntIns _ _ _ _ j => rangeOk 0 7 j
  | .fexp2 _ o | .flog2 _ o => o.t = .f32 && flOk2 o true false
  | .rand _ t _ => t = .n32 || t = .n64 || t = .f32 || t = .f64
  | .wadd _ t _ _ | .wsub _ t _ _ => tyW t
  | .wmul2 _ o => tyF2 o.t
  | .wmul3 _ o _ => tyF2 o.t
  | .ld _ o | .st _ o => scopeOk o.str o.scope && (!o.two || tyBits o.t = 64)
  | .atom _ o => redTyOk o.op o.t && scopeOk o.str o.scope && o.space ≠ .priv && o.c = .ic 32
  | .cas _ o => redTyOk .exch o.t && scopeOk o.str o.scope && o.space ≠ .priv && o.op = .add
  | .red _ o => o.op ≠ .exch && redTyOk o.op o.t && (o.rel || o.scope = .fib)
  | .ldesc _ o | .sdesc _ o => o.space ≠ .priv
  | .signal _ sc _ _ | .signalAdd _ sc _ _ => sc = .clu || sc = .die || sc = .dev || sc = .sys
  | .gred _ o | .gscan _ o _ | .crs _ o _ => combOk o
  | .racq _ k => rangeOk 1 3 k
  | .rrel _ k => rangeOk 0 2 k
  | .incu _ _ _ _ k | .incrd _ _ k | .incrdHome _ _ _ k | .bnd _ _ k | .perfSel _ _ _ k => rangeOk 0 15 k
  | .defer _ n => rangeOk 1 16 n
  | .orbitImg _ _ j => rangeOk 0 47 j
  | .role _ k => rangeOk 0 2 k
  | .stgw _ _ _ ph => rangeOk 0 1 ph
  | .mma _ o => o.q.val ≤ 61
  | .mld h o | .mst h o => tileOk o && tileForm h o.tile
  | .mcont h tile => tileForm h tile
  | _ => true

/-- R59, R10, R104: an operand of an accepted kind, on an aligned register where it takes several. -/
def Use.ok (u : Use) : Bool :=
  u.kinds.any (fun k => k.accepts u.o) &&
  (match u.o with
    | .v n => n.val % u.al = 0 && n.val + u.vn ≤ 256
    | .s n => n.val + u.sn ≤ 64 && (u.al ≠ 4 || n.val % 2 = 0)
    | _ => true)

/-- R58, R62: the immediate words hold nothing that no operand reads. -/
def extOk (i : Instr) (h : Hd) : Bool :=
  let imms := (uses i).filter fun u => u.o = .imm
  match fixedLen i, h.ext with
  | some 128, .imm32 _ => !imms.isEmpty
  | some _, e => e = .none && imms.isEmpty
  | none, .none => imms.isEmpty
  | none, .imm32 w => !imms.isEmpty || w = 0
  | none, .ext64 lo hi =>
    (!imms.isEmpty || lo = 0) && (hi = 0 || (imms.any (·.wide) && (match i with | .mld .. | .mst .. => false | _ => true)))

/-- The decode-class conditions that depend on the word alone (R68): such a word never takes ILLEGAL for its bits. -/
def legal (i : Instr) : Bool :=
  match hdOf i with
  | none => false
  | some h => entryOk i && (uses i).all Use.ok && extOk i h

end Sys2Proof.Machine
end

