-- ==== Sys2Proof/WellFormed.lean ====
section
/-! DEFINITION. Well-formed instructions: those whose words take no ILLEGAL for their bits alone (03 R68). -/

namespace Sys2Proof

/-- The instruction stands for words that decode accepts: its entry lists its type, fields and operand kinds,
and its immediate words hold nothing unread. The device's own steps have no words. -/
def Instr.WellFormed (i : Instr) : Prop := Machine.legal i = true

/-- Whether an instruction is well formed is decidable by running the check. -/
abbrev Instr.wellFormed (i : Instr) : Bool := Machine.legal i

end Sys2Proof
end

