-- ==== Sys2Proof/Decode.lean ====
section
/-! DEFINITION. The decoder, total on any bytes, and the encoder, both from the field layout of 03 R50 and the
entries' tables. A word is accepted only when the instruction read from it encodes to that word again, so every
unused field is zero (R58). -/

namespace Sys2Proof

/-- R50: the fields of word0 above LEN, from the lowest, and the words after word0. -/
structure Raw where
  s : Nat
  n : Nat
  g : Nat
  op : Nat
  v : Nat
  t : Nat
  d : Nat
  a : Nat
  b : Nat
  c : Nat
  hl : Nat
  m : Nat
  x : Nat
  ext : Ext
  deriving DecidableEq, Repr

/-- Why bytes are not an instruction (R51, R68). -/
inductive Reject where
  | short        -- fewer bytes than the length code asks for
  | fill         -- a fill word
  | badLen
  | illegal
  deriving DecidableEq, Repr

/-! ## Codes of the fields -/

/-- The code of `x` in a table of a field's values. -/
def codeIn {α : Type} [DecidableEq α] (l : List α) (x : α) : Nat := l.idxOf x

/-- R55. -/
def tyTable : List Ty := [.i32, .n32, .i64, .n64, .f32, .f64, .f16, .bf16, .i16, .n16, .i8, .n8, .b32, .b64]
/-- R30. -/
def rmTable : List Rm := [.rne, .rtz, .rdn, .rup]
/-- R57. -/
def scopeTable : List Scope := [.fib, .gang, .crew, .clu, .die, .dev, .sys]
def spaceTable : List Space := [.glob, .priv, .scratch, .peer]
def strTable : List Strength := [.weak, .strong, .sync]
/-- R92, R120. -/
def cmpTable : List Cmp := [.eq, .ne, .lt, .le, .gt, .ge, .un, .ord]
def plogTable : List Plog := [.and, .or, .xor, .andn, .orn, .nand, .nor, .xnor]
/-- R205, R294. -/
def redTable : List Red := [.add, .min, .max, .and, .or, .xor, .exch]
/-- R195. -/
def shflTable : List Shfl := [.idx, .up, .down, .xor]
def orderTable : List Order := [.none, .clu, .dev]
/-- R139. -/
def wmovTable : List WMov := [.copy, .neg, .add, .sub]

/-- R59: the code of an operand. -/
def opndCode : Opnd → Nat
  | .v n => n
  | .s n => 0x100 + n
  | .p n => 0x140 + n
  | .w n => 0x148 + n
  | .t n => 0x14A + n
  | .ic k => 0x180 + k
  | .fc k => 0x1C0 + k
  | .imm => 0x1FF

/-- R59: the operand of a code; none where the code is reserved. -/
def opndOf (k : Nat) : Option Opnd :=
  if h : k < 0x100 then some (.v ⟨k, h⟩)
  else if h : k - 0x100 < 64 then some (.s ⟨k - 0x100, h⟩)
  else if h : k - 0x140 < 8 then some (.p ⟨k - 0x140, h⟩)
  else if h : k - 0x148 < 2 then some (.w ⟨k - 0x148, h⟩)
  else if h : k - 0x14A < 6 then some (.t ⟨k - 0x14A, h⟩)
  else if k < 0x180 then none
  else if h : k - 0x180 < 64 then some (.ic ⟨k - 0x180, h⟩)
  else if h : k - 0x1C0 < 16 then some (.fc ⟨k - 0x1C0, h⟩)
  else if k = 0x1FF then some .imm
  else none

/-- R128: the source format code of `cvt`. -/
def fmtSrc : Fmt → Nat
  | .ty t => codeIn tyTable t
  | .f8e4 => 0x10
  | .f8e5 => 0x11

def fmtOfSrc (k : Nat) : Option Fmt :=
  if k = 0x10 then some .f8e4 else if k = 0x11 then some .f8e5 else (tyTable[k]?).map .ty

/-- R128: the destination format: V, and T where V is 0. -/
def fmtDst : Fmt → Nat × Nat
  | .ty t => (0, codeIn tyTable t)
  | .f8e4 => (1, 0)
  | .f8e5 => (2, 0)

def fmtOfDst (v t : Nat) : Option Fmt :=
  if v = 0 then (tyTable[t]?).map .ty else if v = 1 then some .f8e4 else if v = 2 then some .f8e5 else none

/-! ## From the instruction to its fields -/

/-- The fields every instruction has, the rest zero. -/
def raw (h : Hd) (op : Nat) : Raw :=
  ⟨h.stop.toNat, h.neg.toNat, h.g, op, 0, 0, 0, 0, 0, 0, h.hold, 0, 0, h.ext⟩

def ty (t : Ty) : Nat := codeIn tyTable t

/-- R63: what stands in the immediate slot of a form with a field word. -/
def slotOf : Ext → Word
  | .imm32 w => w
  | _ => 0

def rawI2 (h : Hd) (op : Nat) (o : Int2) : Raw :=
  { raw h op with t := ty o.t, m := o.sat.toNat, d := opndCode o.d, a := opndCode o.a }
def rawI3 (h : Hd) (op : Nat) (o : Int3) : Raw :=
  { raw h op with t := ty o.t, m := o.sat.toNat, d := opndCode o.d, a := opndCode o.a, b := opndCode o.b }
def rawI4 (h : Hd) (op : Nat) (o : Int4) : Raw :=
  { raw h op with t := ty o.t, m := o.sat.toNat, d := opndCode o.d, a := opndCode o.a, b := opndCode o.b
                  c := opndCode o.c }
def rawF2 (h : Hd) (op : Nat) (o : Fl2) : Raw :=
  { raw h op with t := ty o.t, m := codeIn rmTable o.rm, x := o.pk.toNat, d := opndCode o.d, a := opndCode o.a }
def rawF3 (h : Hd) (op : Nat) (o : Fl3) : Raw :=
  { raw h op with t := ty o.t, m := codeIn rmTable o.rm, x := o.pk.toNat, d := opndCode o.d, a := opndCode o.a
                  b := opndCode o.b }
def rawF4 (h : Hd) (op : Nat) (o : Fl4) : Raw :=
  { raw h op with t := ty o.t, m := codeIn rmTable o.rm, x := o.pk.toNat, d := opndCode o.d, a := opndCode o.a
                  b := opndCode o.b, c := opndCode o.c }
def rawCmp (h : Hd) (op : Nat) (o : CmpOps) : Raw :=
  { raw h op with t := ty o.t, v := codeIn cmpTable o.cmp, d := opndCode o.d, a := opndCode o.a, b := opndCode o.b }
def rawBits (h : Hd) (op : Nat) (o : Bits) : Raw :=
  { raw h op with t := ty o.t, d := opndCode o.d, a := opndCode o.a, b := opndCode o.b, c := o.len }
/-- Plain operand fields of an untyped entry. -/
def rawD (h : Hd) (op v : Nat) (d : Opnd) : Raw := { raw h op with v := v, d := opndCode d }
def rawA (h : Hd) (op v : Nat) (a : Opnd) : Raw := { raw h op with v := v, a := opndCode a }
def rawDA (h : Hd) (op v : Nat) (d a : Opnd) : Raw := { rawD h op v d with a := opndCode a }
def rawAB (h : Hd) (op v : Nat) (a b : Opnd) : Raw := { rawA h op v a with b := opndCode b }
def rawDAB (h : Hd) (op v : Nat) (d a b : Opnd) : Raw := { rawDA h op v d a with b := opndCode b }
def rawDABC (h : Hd) (op v : Nat) (d a b c : Opnd) : Raw := { rawDAB h op v d a b with c := opndCode c }
def rawSr (h : Hd) (op : Nat) (wide : Bool) (k : Nat) : Raw := { raw h op with t := if wide then 3 else 1, c := k }
/-- R144, R145, R195: a type that is only a width. -/
def t2 (w32 w64 : Ty) (wide : Bool) : Nat := ty (if wide then w64 else w32)
def rawMul (h : Hd) (op : Nat) (o : WMul) : Raw :=
  { raw h op with t := ty o.t, v := o.neg.toNat, d := 0x148 + o.d, a := opndCode o.a, b := opndCode o.b }
def rawWMem (h : Hd) (op : Nat) (o : WMem) : Raw :=
  { raw h op with v := codeIn spaceTable o.space, d := 0x148 + o.w, a := opndCode o.a, b := opndCode o.b
                  c := opndCode o.c }
def rawMem (h : Hd) (op : Nat) (o : Mem) : Raw :=
  { raw h op with t := ty o.t, v := codeIn scopeTable o.scope, m := codeIn strTable o.str
                  x := codeIn spaceTable o.space, d := opndCode o.d, a := opndCode o.a, b := opndCode o.b
                  c := o.two.toNat }
def rawAtom (h : Hd) (op : Nat) (o : Atom) (c : Nat) : Raw :=
  { raw h op with t := ty o.t, v := codeIn scopeTable o.scope, m := codeIn strTable o.str
                  x := codeIn spaceTable o.space, d := opndCode o.d, a := opndCode o.a, b := opndCode o.b, c := c }
def rawDesc (h : Hd) (op : Nat) (o : Desc) : Raw :=
  { raw h op with x := codeIn spaceTable o.space, d := opndCode o.d, a := opndCode o.a, b := opndCode o.b }
def rawSpawn (h : Hd) (x c : Nat) (o : Spawn) : Raw :=
  { raw h 0x70 with v := o.wcode, m := codeIn orderTable o.order, x := x, d := opndCode o.d, a := opndCode o.a
                    b := opndCode o.b, c := c }
/-- R57: the rounding of a float sum, or `.sat` of an integer sum. -/
def rawComb (h : Hd) (op : Nat) (o : Comb) : Raw :=
  { raw h op with t := ty o.t, v := codeIn redTable o.op, m := if tyFloatT o.t then codeIn rmTable o.rm else o.sat.toNat
                  d := opndCode o.d, a := opndCode o.a }
where tyFloatT (t : Ty) : Bool := Machine.tyFloat t
/-- R348: the tile in D, or in FW of a 128-bit form. -/
def rawTile (h : Hd) (op : Nat) (tile : Nat) : Raw :=
  match h.ext with
  | .ext64 lo _ => { raw h op with ext := .ext64 lo (BitVec.ofNat 32 tile) }
  | _ => { raw h op with d := 0x14A + tile }
def rawTileMem (h : Hd) (op : Nat) (o : TileMem) : Raw :=
  { rawTile h op o.tile with t := ty o.t, x := if o.scratch then 2 else 0, a := opndCode o.a, b := opndCode o.b
                             c := o.f + 8 * o.n1 }

/-- The fields of an instruction; the device's own steps have none, and stand here as a reserved opcode. -/
def rawOf : Instr → Raw
  | .nop h => raw h 0x00
  | .br h off => { raw h 0x01 with ext := .imm32 off }
  | .brx h a => rawA h 0x02 0 a
  | .callLabel h d off => { rawD h 0x03 0 d with ext := .imm32 off }
  | .callRegister h d a => rawDA h 0x03 1 d a
  | .ret h a => rawA h 0x04 0 a
  | .exit h => raw h 0x05
  | .trap h a => rawA h 0x06 0 a
  | .tret h => raw h 0x07
  | .getsr h w d k => { rawSr h 0x08 w k with d := opndCode d }
  | .setsr h w a k => { rawSr h 0x09 w k with a := opndCode a }
  | .setsrKey h w a => { rawSr h 0x09 w 0x14 with a := opndCode a }
  | .setsrPerf h w a k => { rawSr h 0x09 w (0x30 + k) with a := opndCode a }
  | .yield h => raw h 0x0A
  | .brk h => raw h 0x0B
  | .add h o => rawI3 h 0x10 o
  | .sub h o => rawI3 h 0x11 o
  | .mul h o => rawI3 h 0x12 o
  | .mulhi h o => rawI3 h 0x13 o
  | .mad h o => rawI4 h 0x14 o
  | .div h o => rawI3 h 0x15 o
  | .rem h o => rawI3 h 0x16 o
  | .neg h o => rawI2 h 0x17 o
  | .abs h o => rawI2 h 0x18 o
  | .min h o => rawI3 h 0x19 o
  | .max h o => rawI3 h 0x1A o
  | .and h o => rawI3 h 0x1B o
  | .or h o => rawI3 h 0x1C o
  | .xor h o => rawI3 h 0x1D o
  | .not h o => rawI2 h 0x1E o
  | .shl h o => rawI3 h 0x1F o
  | .shr h o => rawI3 h 0x20 o
  | .sar h o => rawI3 h 0x21 o
  | .rol h o => rawI3 h 0x22 o
  | .ror h o => rawI3 h 0x23 o
  | .popc h o => rawI2 h 0x24 o
  | .clz h o => rawI2 h 0x25 o
  | .ctz h o => rawI2 h 0x26 o
  | .brev h o => rawI2 h 0x27 o
  | .bfe h o => rawBits h 0x28 o
  | .bfi h o => rawBits h 0x29 o
  | .sel h o => rawI4 h 0x2A o
  | .mov h o => rawI2 h 0x2B o
  | .setp h o => rawCmp h 0x2C o
  | .plog h op d a b => rawDAB h 0x2D (codeIn plogTable op) d a b
  | .addc h o => rawI4 h 0x2E o
  | .lea h o sc => { rawI3 h 0x2F o with v := sc }
  | .fadd h o => rawF3 h 0x30 o
  | .fsub h o => rawF3 h 0x31 o
  | .fmul h o => rawF3 h 0x32 o
  | .ffma h o => rawF4 h 0x33 o
  | .fnfma h o => rawF4 h 0x34 o
  | .fdiv h o => rawF3 h 0x35 o
  | .fsqrt h o => rawF2 h 0x36 o
  | .frcp h o => rawF2 h 0x37 o
  | .frsq h o => rawF2 h 0x38 o
  | .fmin h o => rawF3 h 0x39 o
  | .fmax h o => rawF3 h 0x3A o
  | .fabs h o => rawF2 h 0x3B o
  | .fneg h o => rawF2 h 0x3C o
  | .fsetp h o => rawCmp h 0x3D o
  | .fclass h o => rawF2 h 0x3E o
  | .frnd h o => rawF2 h 0x3F o
  | .fcpsgn h o => rawF3 h 0x40 o
  | .fscale h o => rawF3 h 0x41 o
  | .fexpo h o => rawF2 h 0x42 o
  | .fmant h o => rawF2 h 0x43 o
  | .f2sum h o => rawF4 h 0x44 o
  | .f2prod h o => rawF4 h 0x45 o
  | .fdot2 h o => rawF4 h 0x46 o
  | .fpfma h o => rawF4 h 0x47 o
  | .cvt h o => { rawDA h 0x48 (fmtDst o.dst).1 o.d o.a with
      t := (fmtDst o.dst).2, c := fmtSrc o.src, m := codeIn rmTable o.rm, x := if o.sat then 2 else 0 }
  | .pack h o => rawF3 h 0x49 o
  | .unpk h hi o => { rawF2 h 0x4A o with v := hi.toNat }
  | .qnt h d a b => { rawDAB h 0x4B 0 d a b with t := ty .f32 }
  | .qntIns h d a b j => { rawDAB h 0x4B 1 d a b with t := ty .f32, c := j }
  | .fexp2 h o => rawF2 h 0x4C o
  | .flog2 h o => rawF2 h 0x4D o
  | .rand h t d => { rawD h 0x4E 0 d with t := ty t }
  | .seed h fid a => { rawA h 0x4F fid.toNat a with t := ty .n64 }
  | .wclr h d => rawD h 0x50 0 (.w d)
  | .wclrStat h d => rawD h 0x50 1 (.w d)
  | .wadd h t d a => { rawDA h 0x51 0 (.w d) a with t := ty t }
  | .wsub h t d a => { rawDA h 0x52 0 (.w d) a with t := ty t }
  | .wmul2 h o => rawMul h 0x53 o
  | .wmul3 h o c => { rawMul h 0x54 o with c := opndCode c }
  | .wsgn h wd d a p => { rawDA h 0x55 0 d (.w a) with t := t2 .i32 .i64 wd, c := opndCode p }
  | .wrnd h wd rm d a => { rawDA h 0x56 0 d (.w a) with t := t2 .f32 .f64 wd, m := codeIn rmTable rm }
  | .wmov h op d a => rawDA h 0x57 (codeIn wmovTable op) (.w d) (.w a)
  | .wld h o => rawWMem h 0x58 o
  | .wst h o => rawWMem h 0x59 o
  | .ld h o => rawMem h 0x60 o
  | .st h o => rawMem h 0x61 o
  | .imageStore h t map d a b => { rawDAB h 0x61 map d a b with t := ty t, m := 3 }
  | .atom h o => rawAtom h 0x62 o (codeIn redTable o.op)
  | .cas h o => rawAtom h 0x63 o (opndCode o.c)
  | .red h o => { rawDAB h 0x64 (codeIn scopeTable o.scope) o.d o.a o.b with
      t := ty o.t, m := if o.rel then 2 else 0, c := codeIn redTable o.op }
  | .fenceAcq h sc => { raw h 0x65 with v := codeIn scopeTable sc, c := 0 }
  | .fenceRel h sc => { raw h 0x65 with v := codeIn scopeTable sc, c := 1 }
  | .fenceFull h sc => { raw h 0x65 with v := codeIn scopeTable sc, c := 2 }
  | .prefL1 h a b => rawAB h 0x66 0 a b
  | .prefL2 h a b => { rawAB h 0x66 0 a b with c := 1 }
  | .invalL1 h a b => rawAB h 0x67 0 a b
  | .invalAll h => { raw h 0x67 with c := 1 }
  | .invalRdc h a b => { rawAB h 0x67 0 a b with c := 2 }
  | .flush h a b => rawAB h 0x68 0 a b
  | .flushAll h => { raw h 0x68 with c := 1 }
  | .ldesc h o => rawDesc h 0x69 o
  | .sdesc h o => rawDesc h 0x6A o
  | .dalloc h d a => rawDA h 0x6B 0 d a
  | .dallocZ h d a => { rawDA h 0x6B 0 d a with c := 1 }
  | .dfree h a => rawA h 0x6C 0 a
  | .spawnLabel h o off => { rawSpawn h 0 0 o with ext := .imm32 off }
  | .spawnRegister h o c => rawSpawn h 1 (opndCode c) o
  | .barSync h a b => rawAB h 0x71 0 a b
  | .barArv h a b => rawAB h 0x71 1 a b
  | .barEsync h b => { raw h 0x71 with v := 2, a := 0x1A0, b := opndCode b }
  | .barEarv h b => { raw h 0x71 with v := 3, a := 0x1A0, b := opndCode b }
  | .barRgn h d => rawD h 0x71 4 d
  | .voteAll h d a => rawDA h 0x72 0 d a
  | .voteAny h d a => rawDA h 0x72 1 d a
  | .voteBallot h d a => rawDA h 0x72 2 d a
  | .voteUni h wd d a => { rawDA h 0x72 3 d a with t := t2 .b32 .b64 wd }
  | .shfl h wd mode d a b c => { rawDABC h 0x73 (codeIn shflTable mode) d a b c with t := t2 .b32 .b64 wd }
  | .gred h o => rawComb h 0x74 o
  | .gscan h o ex => { rawComb h 0x75 o with x := ex.toNat }
  | .matchAny h wd d a => { rawDA h 0x76 0 d a with t := t2 .b32 .b64 wd }
  | .matchAll h wd d a c => { rawDA h 0x76 1 d a with t := t2 .b32 .b64 wd, c := opndCode c }
  | .racq h k => { raw h 0x77 with c := k }
  | .rrel h k => { raw h 0x78 with c := k }
  | .incu h rel d a k => { rawDA h 0x79 0 d a with m := if rel then 2 else 0, c := k }
  | .incrd h d k => { rawD h 0x7A 0 d with c := k }
  | .incrdHome h acq d k => { rawD h 0x7A 1 d with m := if acq then 2 else 0, c := k }
  | .bnd h a k => { rawA h 0x7B 0 a with c := k }
  | .defer h n => { raw h 0x7C with c := n }
  | .popen h => raw h 0x7D
  | .accept h d a => rawDA h 0x7E 0 d a
  | .pclose h => raw h 0x7F
  | .launch h d a => rawDA h 0x80 0 d a
  | .signal h sc a b => rawAB h 0x81 (codeIn scopeTable sc) a b
  | .signalAdd h sc a b => { rawAB h 0x81 (codeIn scopeTable sc) a b with x := 1 }
  | .orbitSize h d => rawD h 0x82 0 d
  | .orbitStab h d => rawD h 0x82 1 d
  | .orbitImg h d j => { rawD h 0x82 2 d with c := j }
  | .role h k => { raw h 0x83 with c := k }
  | .stgw h a b ph => { rawAB h 0x84 0 a b with c := ph }
  | .stga h a b => rawAB h 0x85 0 a b
  | .copyG2s h ds d a b c => { rawDABC h 0x90 0 d a b c with x := ds.toNat }
  | .copyS2g h ds d a b c => { rawDABC h 0x90 1 d a b c with x := ds.toNat }
  | .gath h t d a b => { rawDAB h 0x91 0 d a b with t := ty t }
  | .scat h t d a b => { rawDAB h 0x92 0 d a b with t := ty t }
  | .wait h l s c m => { raw h 0x93 with
      ext := .imm32 (BitVec.ofNat 32 (l + 2 ^ 8 * s + 2 ^ 16 * c + 2 ^ 24 * m)) }
  | .sleep h a => rawA h 0x94 0 a
  | .subs h d a => rawDA h 0x95 0 d a
  | .unsub h d a => rawDA h 0x96 0 d a
  | .troupe h a => rawA h 0x97 0 a
  | .mopf h => raw h 0x98
  | .mma h o => { raw h 0x99 with
      a := opndCode o.a, b := opndCode o.b, c := opndCode o.c
      ext := .ext64 (slotOf h.ext) (BitVec.ofNat 32 (o.tile + 8 * o.z.toNat + 16 * o.q)) }
  | .mld h o => rawTileMem h 0x9A o
  | .mst h o => rawTileMem h 0x9B o
  | .mcont h tile => rawTile h 0x9C tile
  | .wbload h a b c => { rawAB h 0x9D 0 a b with c := opndCode c }
  | .cgrp h d a b => rawDAB h 0xA0 0 d a b
  | .cgrpFree h b => { raw h 0xA0 with v := 1, b := opndCode b }
  | .cag h t d a b => { rawDAB h 0xA1 0 d a b with t := ty t }
  | .crs h o b => { rawComb h 0xA2 o with b := opndCode b }
  | .ca2a h t d a b => { rawDAB h 0xA3 0 d a b with t := ty t }
  | .cbar h d a => rawDA h 0xA4 0 d a
  | .cwait h d a => rawDA h 0xA5 0 d a
  | .ckpt h d a => rawDA h 0xA8 0 d a
  | .ckptHold h d a => rawDA h 0xA8 1 d a
  | .perfSel h d a k => { rawDA h 0xA9 0 d a with c := k }
  | .perfSmp h d a => rawDA h 0xA9 1 d a
  | _ => raw ⟨7, false, false, 0, .none⟩ 0xFF

/-! ## From the fields to the instruction -/

def hdOfRaw (r : Raw) : Hd := ⟨Fin.ofNat 8 r.g, r.n = 1, r.s = 1, Fin.ofNat 4 r.hl, r.ext⟩

def getI2 (r : Raw) : Option Int2 := do
  some ⟨← tyTable[r.t]?, r.m = 1, ← opndOf r.d, ← opndOf r.a⟩
def getI3 (r : Raw) : Option Int3 := do
  some ⟨← tyTable[r.t]?, r.m = 1, ← opndOf r.d, ← opndOf r.a, ← opndOf r.b⟩
def getI4 (r : Raw) : Option Int4 := do
  some ⟨← tyTable[r.t]?, r.m = 1, ← opndOf r.d, ← opndOf r.a, ← opndOf r.b, ← opndOf r.c⟩
def getF2 (r : Raw) : Option Fl2 := do
  some ⟨← tyTable[r.t]?, ← rmTable[r.m]?, r.x = 1, ← opndOf r.d, ← opndOf r.a⟩
def getF3 (r : Raw) : Option Fl3 := do
  some ⟨← tyTable[r.t]?, ← rmTable[r.m]?, r.x = 1, ← opndOf r.d, ← opndOf r.a, ← opndOf r.b⟩
def getF4 (r : Raw) : Option Fl4 := do
  some ⟨← tyTable[r.t]?, ← rmTable[r.m]?, r.x = 1, ← opndOf r.d, ← opndOf r.a, ← opndOf r.b, ← opndOf r.c⟩
def getCmp (r : Raw) : Option CmpOps := do
  some ⟨← tyTable[r.t]?, ← cmpTable[r.v]?, ← opndOf r.d, ← opndOf r.a, ← opndOf r.b⟩
def getBits (r : Raw) : Option Bits := do
  some ⟨← tyTable[r.t]?, ← opndOf r.d, ← opndOf r.a, ← opndOf r.b, Fin.ofNat 512 r.c⟩
def getMul (r : Raw) : Option WMul := do
  some ⟨← tyTable[r.t]?, r.v = 1, Fin.ofNat 2 (r.d - 0x148), ← opndOf r.a, ← opndOf r.b⟩
def getWMem (r : Raw) : Option WMem := do
  some ⟨← spaceTable[r.v]?, Fin.ofNat 2 (r.d - 0x148), ← opndOf r.a, ← opndOf r.b, ← opndOf r.c⟩
def getMem (r : Raw) : Option Mem := do
  some ⟨← tyTable[r.t]?, ← scopeTable[r.v]?, ← strTable[r.m]?, ← spaceTable[r.x]?, r.c = 1,
    ← opndOf r.d, ← opndOf r.a, ← opndOf r.b⟩
def getAtom (r : Raw) (op : Red) (c : Opnd) : Option Atom := do
  some ⟨← tyTable[r.t]?, ← scopeTable[r.v]?, ← strTable[r.m]?, ← spaceTable[r.x]?, op,
    ← opndOf r.d, ← opndOf r.a, ← opndOf r.b, c⟩
def getRed (r : Raw) : Option RedOps := do
  some ⟨← tyTable[r.t]?, ← scopeTable[r.v]?, r.m = 2, ← redTable[r.c]?, ← opndOf r.d, ← opndOf r.a, ← opndOf r.b⟩
def getDesc (r : Raw) : Option Desc := do
  some ⟨← spaceTable[r.x]?, ← opndOf r.d, ← opndOf r.a, ← opndOf r.b⟩
def getSpawn (r : Raw) : Option Spawn := do
  some ⟨Fin.ofNat 4 r.v, ← orderTable[r.m]?, ← opndOf r.d, ← opndOf r.a, ← opndOf r.b⟩
def getComb (r : Raw) : Option Comb := do
  let t ← tyTable[r.t]?
  if Machine.tyFloat t then
    some ⟨t, ← redTable[r.v]?, ← rmTable[r.m]?, false, ← opndOf r.d, ← opndOf r.a⟩
  else some ⟨t, ← redTable[r.v]?, .rne, r.m = 1, ← opndOf r.d, ← opndOf r.a⟩
/-- R348: the tile's number, and the common fields without it. -/
def getTile (r : Raw) : Hd × Fin 8 :=
  match r.ext with
  | .ext64 lo hi => ({ hdOfRaw r with ext := .ext64 lo 0 }, Fin.ofNat 8 hi.toNat)
  | _ => (hdOfRaw r, Fin.ofNat 8 (r.d - 0x14A))
def getTileMem (r : Raw) : Option TileMem := do
  some ⟨← tyTable[r.t]?, r.x = 2, (getTile r).2, ← opndOf r.a, ← opndOf r.b, Fin.ofNat 8 r.c, Fin.ofNat 8 (r.c / 8)⟩
/-- The word a fixed-length form of 96 bits keeps for itself. -/
def getImm (r : Raw) : Option Word :=
  match r.ext with
  | .imm32 w => some w
  | _ => none

def bare (r : Raw) : Hd := { hdOfRaw r with ext := .none }

def parseControl (r : Raw) : Option Instr :=
  let h := hdOfRaw r
  match r.op with
  | 0x00 => some (.nop h)
  | 0x01 => do some (.br (bare r) (← getImm r))
  | 0x02 => do some (.brx h (← opndOf r.a))
  | 0x03 =>
    if r.v = 0 then do some (.callLabel (bare r) (← opndOf r.d) (← getImm r))
    else do some (.callRegister h (← opndOf r.d) (← opndOf r.a))
  | 0x04 => do some (.ret h (← opndOf r.a))
  | 0x05 => some (.exit h)
  | 0x06 => do some (.trap h (← opndOf r.a))
  | 0x07 => some (.tret h)
  | 0x08 => do some (.getsr h (r.t = 3) (← opndOf r.d) (Fin.ofNat 64 r.c))
  | 0x09 =>
    if r.c = 0x14 then do some (.setsrKey h (r.t = 3) (← opndOf r.a))
    else if 0x30 ≤ r.c then do some (.setsrPerf h (r.t = 3) (← opndOf r.a) (Fin.ofNat 16 (r.c - 0x30)))
    else do some (.setsr h (r.t = 3) (← opndOf r.a) (Fin.ofNat 64 r.c))
  | 0x0A => some (.yield h)
  | 0x0B => some (.brk h)
  | _ => none

def parseInt (r : Raw) : Option Instr :=
  let h := hdOfRaw r
  match r.op with
  | 0x10 => do some (.add h (← getI3 r))
  | 0x11 => do some (.sub h (← getI3 r))
  | 0x12 => do some (.mul h (← getI3 r))
  | 0x13 => do some (.mulhi h (← getI3 r))
  | 0x14 => do some (.mad h (← getI4 r))
  | 0x15 => do some (.div h (← getI3 r))
  | 0x16 => do some (.rem h (← getI3 r))
  | 0x17 => do some (.neg h (← getI2 r))
  | 0x18 => do some (.abs h (← getI2 r))
  | 0x19 => do some (.min h (← getI3 r))
  | 0x1A => do some (.max h (← getI3 r))
  | 0x1B => do some (.and h (← getI3 r))
  | 0x1C => do some (.or h (← getI3 r))
  | 0x1D => do some (.xor h (← getI3 r))
  | 0x1E => do some (.not h (← getI2 r))
  | 0x1F => do some (.shl h (← getI3 r))
  | 0x20 => do some (.shr h (← getI3 r))
  | 0x21 => do some (.sar h (← getI3 r))
  | 0x22 => do some (.rol h (← getI3 r))
  | 0x23 => do some (.ror h (← getI3 r))
  | 0x24 => do some (.popc h (← getI2 r))
  | 0x25 => do some (.clz h (← getI2 r))
  | 0x26 => do some (.ctz h (← getI2 r))
  | 0x27 => do some (.brev h (← getI2 r))
  | 0x28 => do some (.bfe h (← getBits r))
  | 0x29 => do some (.bfi h (← getBits r))
  | 0x2A => do some (.sel h (← getI4 r))
  | 0x2B => do some (.mov h (← getI2 r))
  | 0x2C => do some (.setp h (← getCmp r))
  | 0x2D => do some (.plog h (← plogTable[r.v]?) (← opndOf r.d) (← opndOf r.a) (← opndOf r.b))
  | 0x2E => do some (.addc h (← getI4 r))
  | 0x2F => do some (.lea h (← getI3 r) (Fin.ofNat 8 r.v))
  | _ => none

def parseFloat (r : Raw) : Option Instr :=
  let h := hdOfRaw r
  match r.op with
  | 0x30 => do some (.fadd h (← getF3 r))
  | 0x31 => do some (.fsub h (← getF3 r))
  | 0x32 => do some (.fmul h (← getF3 r))
  | 0x33 => do some (.ffma h (← getF4 r))
  | 0x34 => do some (.fnfma h (← getF4 r))
  | 0x35 => do some (.fdiv h (← getF3 r))
  | 0x36 => do some (.fsqrt h (← getF2 r))
  | 0x37 => do some (.frcp h (← getF2 r))
  | 0x38 => do some (.frsq h (← getF2 r))
  | 0x39 => do some (.fmin h (← getF3 r))
  | 0x3A => do some (.fmax h (← getF3 r))
  | 0x3B => do some (.fabs h (← getF2 r))
  | 0x3C => do some (.fneg h (← getF2 r))
  | 0x3D => do some (.fsetp h (← getCmp r))
  | 0x3E => do some (.fclass h (← getF2 r))
  | 0x3F => do some (.frnd h (← getF2 r))
  | 0x40 => do some (.fcpsgn h (← getF3 r))
  | 0x41 => do some (.fscale h (← getF3 r))
  | 0x42 => do some (.fexpo h (← getF2 r))
  | 0x43 => do some (.fmant h (← getF2 r))
  | 0x44 => do some (.f2sum h (← getF4 r))
  | 0x45 => do some (.f2prod h (← getF4 r))
  | 0x46 => do some (.fdot2 h (← getF4 r))
  | 0x47 => do some (.fpfma h (← getF4 r))
  | 0x48 => do some (.cvt h ⟨← fmtOfDst r.v r.t, ← fmtOfSrc r.c, ← rmTable[r.m]?, r.x = 2, ← opndOf r.d, ← opndOf r.a⟩)
  | 0x49 => do some (.pack h (← getF3 r))
  | 0x4A => do some (.unpk h (r.v = 1) (← getF2 r))
  | 0x4B =>
    if r.v = 0 then do some (.qnt h (← opndOf r.d) (← opndOf r.a) (← opndOf r.b))
    else do some (.qntIns h (← opndOf r.d) (← opndOf r.a) (← opndOf r.b) (Fin.ofNat 512 r.c))
  | 0x4C => do some (.fexp2 h (← getF2 r))
  | 0x4D => do some (.flog2 h (← getF2 r))
  | 0x4E => do some (.rand h (← tyTable[r.t]?) (← opndOf r.d))
  | 0x4F => do some (.seed h (r.v = 1) (← opndOf r.a))
  | _ => none

/-- R139: an accumulator's number in a field; a field naming none encodes otherwise and is refused. -/
def getW (k : Nat) : Fin 2 := Fin.ofNat 2 (k - 0x148)

def parseWide (r : Raw) : Option Instr :=
  let h := hdOfRaw r
  match r.op with
  | 0x50 => if r.v = 0 then some (.wclr h (getW r.d)) else some (.wclrStat h (getW r.d))
  | 0x51 => do some (.wadd h (← tyTable[r.t]?) (getW r.d) (← opndOf r.a))
  | 0x52 => do some (.wsub h (← tyTable[r.t]?) (getW r.d) (← opndOf r.a))
  | 0x53 => do some (.wmul2 h (← getMul r))
  | 0x54 => do some (.wmul3 h (← getMul r) (← opndOf r.c))
  | 0x55 => do some (.wsgn h (r.t = ty .i64) (← opndOf r.d) (getW r.a) (← opndOf r.c))
  | 0x56 => do some (.wrnd h (r.t = ty .f64) (← rmTable[r.m]?) (← opndOf r.d) (getW r.a))
  | 0x57 => do some (.wmov h (← wmovTable[r.v]?) (getW r.d) (getW r.a))
  | 0x58 => do some (.wld h (← getWMem r))
  | 0x59 => do some (.wst h (← getWMem r))
  | _ => none

def parseMemory (r : Raw) : Option Instr :=
  let h := hdOfRaw r
  match r.op with
  | 0x60 => do some (.ld h (← getMem r))
  | 0x61 =>
    if r.m = 3 then do some (.imageStore h (← tyTable[r.t]?) (Fin.ofNat 4 r.v) (← opndOf r.d) (← opndOf r.a) (← opndOf r.b))
    else do some (.st h (← getMem r))
  | 0x62 => do some (.atom h (← getAtom r (← redTable[r.c]?) (.ic 32)))
  | 0x63 => do some (.cas h (← getAtom r .add (← opndOf r.c)))
  | 0x64 => do some (.red h (← getRed r))
  | 0x65 => do
    let sc ← scopeTable[r.v]?
    match r.c with
    | 0 => some (.fenceAcq h sc)
    | 1 => some (.fenceRel h sc)
    | _ => some (.fenceFull h sc)
  | 0x66 =>
    if r.c = 0 then do some (.prefL1 h (← opndOf r.a) (← opndOf r.b))
    else do some (.prefL2 h (← opndOf r.a) (← opndOf r.b))
  | 0x67 =>
    if r.c = 0 then do some (.invalL1 h (← opndOf r.a) (← opndOf r.b))
    else if r.c = 1 then some (.invalAll h)
    else do some (.invalRdc h (← opndOf r.a) (← opndOf r.b))
  | 0x68 => if r.c = 0 then do some (.flush h (← opndOf r.a) (← opndOf r.b)) else some (.flushAll h)
  | 0x69 => do some (.ldesc h (← getDesc r))
  | 0x6A => do some (.sdesc h (← getDesc r))
  | 0x6B =>
    if r.c = 0 then do some (.dalloc h (← opndOf r.d) (← opndOf r.a))
    else do some (.dallocZ h (← opndOf r.d) (← opndOf r.a))
  | 0x6C => do some (.dfree h (← opndOf r.a))
  | _ => none

def parseParallel (r : Raw) : Option Instr :=
  let h := hdOfRaw r
  match r.op with
  | 0x70 =>
    if r.x = 0 then do some (.spawnLabel (bare r) (← getSpawn r) (← getImm r))
    else do some (.spawnRegister h (← getSpawn r) (← opndOf r.c))
  | 0x71 =>
    match r.v with
    | 0 => do some (.barSync h (← opndOf r.a) (← opndOf r.b))
    | 1 => do some (.barArv h (← opndOf r.a) (← opndOf r.b))
    | 2 => do some (.barEsync h (← opndOf r.b))
    | 3 => do some (.barEarv h (← opndOf r.b))
    | _ => do some (.barRgn h (← opndOf r.d))
  | 0x72 =>
    match r.v with
    | 0 => do some (.voteAll h (← opndOf r.d) (← opndOf r.a))
    | 1 => do some (.voteAny h (← opndOf r.d) (← opndOf r.a))
    | 2 => do some (.voteBallot h (← opndOf r.d) (← opndOf r.a))
    | _ => do some (.voteUni h (r.t = ty .b64) (← opndOf r.d) (← opndOf r.a))
  | 0x73 => do
    some (.shfl h (r.t = ty .b64) (← shflTable[r.v]?) (← opndOf r.d) (← opndOf r.a) (← opndOf r.b) (← opndOf r.c))
  | 0x74 => do some (.gred h (← getComb r))
  | 0x75 => do some (.gscan h (← getComb r) (r.x = 1))
  | 0x76 =>
    if r.v = 0 then do some (.matchAny h (r.t = ty .b64) (← opndOf r.d) (← opndOf r.a))
    else do some (.matchAll h (r.t = ty .b64) (← opndOf r.d) (← opndOf r.a) (← opndOf r.c))
  | 0x77 => some (.racq h (Fin.ofNat 512 r.c))
  | 0x78 => some (.rrel h (Fin.ofNat 512 r.c))
  | 0x79 => do some (.incu h (r.m = 2) (← opndOf r.d) (← opndOf r.a) (Fin.ofNat 512 r.c))
  | 0x7A =>
    if r.v = 0 then do some (.incrd h (← opndOf r.d) (Fin.ofNat 512 r.c))
    else do some (.incrdHome h (r.m = 2) (← opndOf r.d) (Fin.ofNat 512 r.c))
  | 0x7B => do some (.bnd h (← opndOf r.a) (Fin.ofNat 512 r.c))
  | 0x7C => some (.defer h (Fin.ofNat 512 r.c))
  | 0x7D => some (.popen h)
  | 0x7E => do some (.accept h (← opndOf r.d) (← opndOf r.a))
  | 0x7F => some (.pclose h)
  | _ => none

def parseLaunch (r : Raw) : Option Instr :=
  let h := hdOfRaw r
  match r.op with
  | 0x80 => do some (.launch h (← opndOf r.d) (← opndOf r.a))
  | 0x81 =>
    if r.x = 0 then do some (.signal h (← scopeTable[r.v]?) (← opndOf r.a) (← opndOf r.b))
    else do some (.signalAdd h (← scopeTable[r.v]?) (← opndOf r.a) (← opndOf r.b))
  | 0x82 =>
    match r.v with
    | 0 => do some (.orbitSize h (← opndOf r.d))
    | 1 => do some (.orbitStab h (← opndOf r.d))
    | _ => do some (.orbitImg h (← opndOf r.d) (Fin.ofNat 512 r.c))
  | 0x83 => some (.role h (Fin.ofNat 512 r.c))
  | 0x84 => do some (.stgw h (← opndOf r.a) (← opndOf r.b) (Fin.ofNat 512 r.c))
  | 0x85 => do some (.stga h (← opndOf r.a) (← opndOf r.b))
  | _ => none

def parseEngines (r : Raw) : Option Instr :=
  let h := hdOfRaw r
  match r.op with
  | 0x90 =>
    if r.v = 0 then do
      some (.copyG2s h (r.x = 1) (← opndOf r.d) (← opndOf r.a) (← opndOf r.b) (← opndOf r.c))
    else do some (.copyS2g h (r.x = 1) (← opndOf r.d) (← opndOf r.a) (← opndOf r.b) (← opndOf r.c))
  | 0x91 => do some (.gath h (← tyTable[r.t]?) (← opndOf r.d) (← opndOf r.a) (← opndOf r.b))
  | 0x92 => do some (.scat h (← tyTable[r.t]?) (← opndOf r.d) (← opndOf r.a) (← opndOf r.b))
  | 0x93 => do
    let w := (← getImm r).toNat
    some (.wait (bare r) (Fin.ofNat 64 w) (Fin.ofNat 64 (w / 2 ^ 8)) (Fin.ofNat 32 (w / 2 ^ 16)) (Fin.ofNat 8 (w / 2 ^ 24)))
  | 0x94 => do some (.sleep h (← opndOf r.a))
  | 0x95 => do some (.subs h (← opndOf r.d) (← opndOf r.a))
  | 0x96 => do some (.unsub h (← opndOf r.d) (← opndOf r.a))
  | 0x97 => do some (.troupe h (← opndOf r.a))
  | 0x98 => some (.mopf h)
  | 0x99 =>
    match r.ext with
    | .ext64 lo hi => do
      let w := hi.toNat
      let e : Ext := if r.b = 0x1FF ∨ r.c = 0x1FF then .imm32 lo else .none
      some (.mma { hdOfRaw r with ext := e } ⟨w / 8 % 2 = 1, Fin.ofNat 8 w, Fin.ofNat 64 (w / 16), ← opndOf r.a, ← opndOf r.b, ← opndOf r.c⟩)
    | _ => none
  | 0x9A => do some (.mld (getTile r).1 (← getTileMem r))
  | 0x9B => do some (.mst (getTile r).1 (← getTileMem r))
  | 0x9C => some (.mcont (getTile r).1 (getTile r).2)
  | 0x9D => do some (.wbload h (← opndOf r.a) (← opndOf r.b) (← opndOf r.c))
  | _ => none

def parseRest (r : Raw) : Option Instr :=
  let h := hdOfRaw r
  match r.op with
  | 0xA0 =>
    if r.v = 0 then do some (.cgrp h (← opndOf r.d) (← opndOf r.a) (← opndOf r.b))
    else do some (.cgrpFree h (← opndOf r.b))
  | 0xA1 => do some (.cag h (← tyTable[r.t]?) (← opndOf r.d) (← opndOf r.a) (← opndOf r.b))
  | 0xA2 => do some (.crs h (← getComb r) (← opndOf r.b))
  | 0xA3 => do some (.ca2a h (← tyTable[r.t]?) (← opndOf r.d) (← opndOf r.a) (← opndOf r.b))
  | 0xA4 => do some (.cbar h (← opndOf r.d) (← opndOf r.a))
  | 0xA5 => do some (.cwait h (← opndOf r.d) (← opndOf r.a))
  | 0xA8 =>
    if r.v = 0 then do some (.ckpt h (← opndOf r.d) (← opndOf r.a))
    else do some (.ckptHold h (← opndOf r.d) (← opndOf r.a))
  | 0xA9 =>
    if r.v = 0 then do some (.perfSel h (← opndOf r.d) (← opndOf r.a) (Fin.ofNat 512 r.c))
    else do some (.perfSmp h (← opndOf r.d) (← opndOf r.a))
  | _ => none

/-- R67: the opcode map, by block. -/
def parse (r : Raw) : Option Instr :=
  if r.op < 0x10 then parseControl r
  else if r.op < 0x30 then parseInt r
  else if r.op < 0x50 then parseFloat r
  else if r.op < 0x60 then parseWide r
  else if r.op < 0x70 then parseMemory r
  else if r.op < 0x80 then parseParallel r
  else if r.op < 0x90 then parseLaunch r
  else if r.op < 0xA0 then parseEngines r
  else parseRest r

/-- R58, R68: the instruction of some fields, where it is legal and has just these fields. -/
def ofRaw (r : Raw) : Option Instr :=
  match parse r with
  | none => none
  | some i => if rawOf i = r ∧ Machine.legal i then some i else none

/-! ## Words -/

/-- A number from its fields, lowest first, each with its width. -/
def packBits : List (Nat × Nat) → Nat
  | [] => 0
  | (w, x) :: fs => x + 2 ^ w * packBits fs

/-- The fields of a number, lowest first. -/
def unpackBits : List Nat → Nat → List Nat
  | [], _ => []
  | w :: ws, n => n % 2 ^ w :: unpackBits ws (n / 2 ^ w)

/-- R51: the length code of what follows word0. -/
def lenCode : Ext → Nat
  | .none => 0
  | .imm32 _ => 1
  | .ext64 _ _ => 2

/-- R50: word0. -/
def word0 (r : Raw) : Nat :=
  packBits [(2, lenCode r.ext), (1, r.s), (1, r.n), (3, r.g), (8, r.op), (3, r.v), (4, r.t), (9, r.d), (9, r.a),
    (9, r.b), (9, r.c), (2, r.hl), (2, r.m), (2, r.x)]

/-- R50: the fields of word0. -/
def fieldsOf (w : Nat) (e : Ext) : Raw :=
  match unpackBits [2, 1, 1, 3, 8, 3, 4, 9, 9, 9, 9, 2, 2, 2] w with
  | [_, s, n, g, op, v, t, d, a, b, c, hl, m, x] => ⟨s, n, g, op, v, t, d, a, b, c, hl, m, x, e⟩
  | _ => ⟨0, 0, 0, 0, 0, 0, 0, 0, 0, 0, 0, 0, 0, e⟩

/-- R49: the words of some fields, the first at the lowest address. -/
def wordsOf (r : Raw) : List Word :=
  BitVec.ofNat 32 (word0 r) :: BitVec.ofNat 32 (word0 r / 2 ^ 32) ::
    (match r.ext with
      | .none => []
      | .imm32 w => [w]
      | .ext64 lo hi => [lo, hi])

/-- The words of an instruction; the device's own steps have none. -/
def encode (i : Instr) : List Word :=
  match Machine.hdOf i with
  | none => []
  | some _ => wordsOf (rawOf i)

/-- R6: a little-endian word. -/
def wordBytes (w : Word) : List Byte :=
  [w.extractLsb' 0 8, w.extractLsb' 8 8, w.extractLsb' 16 8, w.extractLsb' 24 8]

def encodeBytes (i : Instr) : List Byte := (encode i).flatMap wordBytes

/-- The words of a run of bytes; bytes over at the end are dropped. -/
def wordsFrom : List Byte → List Word
  | a :: b :: c :: d :: bs => (d ++ c ++ b ++ a) :: wordsFrom bs
  | _ => []

/-- R51: the fill word. -/
def fillWord : Word := 3

/-- The length in bytes that a first word asks for (R51); none for LEN = 11. -/
def lenOf (w : Word) : Option Nat :=
  match (w.toNat % 4) with
  | 0 => some 8
  | 1 => some 12
  | 2 => some 16
  | _ => none

def legalOf (o : Option Instr) : Except Reject Instr :=
  match o with
  | some i => .ok i
  | none => .error .illegal

/-- R68: what the words at a PC are: an instruction, a fill word, or the name of what is wrong. -/
def decodeWords : List Word → Except Reject Instr
  | [] => .error .short
  | w0 :: ws =>
    if w0 = fillWord then .error .fill
    else match w0.toNat % 4, ws with
    | 0, w1 :: _ => legalOf (ofRaw (fieldsOf (w0.toNat + 2 ^ 32 * w1.toNat) .none))
    | 1, w1 :: i :: _ => legalOf (ofRaw (fieldsOf (w0.toNat + 2 ^ 32 * w1.toNat) (.imm32 i)))
    | 2, w1 :: lo :: hi :: _ => legalOf (ofRaw (fieldsOf (w0.toNat + 2 ^ 32 * w1.toNat) (.ext64 lo hi)))
    | 3, _ => .error .badLen
    | _, _ => .error .short

/-- The instruction at the head of some bytes. -/
def decode (bs : List Byte) : Except Reject Instr := decodeWords (wordsFrom bs)

/-- The bytes of a number, lowest first. -/
def numBytes : Nat → Nat → List Byte
  | 0, _ => []
  | k + 1, n => BitVec.ofNat 8 n :: numBytes k (n / 256)

/-- The instruction that the decoder reads from an instruction whose bits are `w`, numbered from the least
significant bit of its first word; the bits above `nbits` are zero. -/
def decodeTableWord (nbits w : Nat) : Option Instr :=
  match decode (numBytes 16 (w % 2 ^ nbits)) with
  | .ok i => some i
  | .error _ => none

end Sys2Proof
end

