-- ==== Sys2Proof/Machine/Assoc.lean ====
section
/-! DEFINITION. Sparse tables in one canonical form: memory, registers, descriptors, and the tables of objects. -/

namespace Sys2Proof.Machine

/-- The value at key `k`; an absent key reads as `d`. -/
def find {β : Type} (d : β) (k : Nat) : AMap β → β
  | [] => d
  | (j, x) :: m => if j = k then x else if k < j then d else find d k m

/-- Write `x` at `k`; writing what an absent key reads as removes the entry. -/
def put {β : Type} [DecidableEq β] (d : β) (k : Nat) (x : β) : AMap β → AMap β
  | [] => if x = d then [] else [(k, x)]
  | (j, y) :: m =>
    if k < j then (if x = d then (j, y) :: m else (k, x) :: (j, y) :: m)
    else if j = k then (if x = d then m else (k, x) :: m)
    else (j, y) :: put d k x m

/-- The canonical form: keys strictly rising from `lo` on, no entry equal to `d`. -/
def wfFrom {β : Type} [DecidableEq β] (d : β) : Nat → AMap β → Bool
  | _, [] => true
  | lo, (k, x) :: m => decide (lo ≤ k) && decide (x ≠ d) && wfFrom d (k + 1) m

/-- The canonical form of a table whose absent keys read as `d`. -/
def wf {β : Type} [DecidableEq β] (d : β) (m : AMap β) : Bool := wfFrom d 0 m

/-- The object at key `k`, if there is one. -/
def look {β : Type} (k : Nat) : AMap β → Option β
  | [] => none
  | (j, x) :: m => if j = k then some x else look k m

/-- Place `x` at `k`, replacing what is there. -/
def ins {β : Type} (k : Nat) (x : β) : AMap β → AMap β
  | [] => [(k, x)]
  | (j, y) :: m => if k < j then (k, x) :: (j, y) :: m else if j = k then (k, x) :: m else (j, y) :: ins k x m

/-- Remove the object at `k`. -/
def del {β : Type} (k : Nat) : AMap β → AMap β
  | [] => []
  | (j, y) :: m => if j = k then m else (j, y) :: del k m

/-- Apply `f` to the object at `k`, if there is one. -/
def adj {β : Type} (k : Nat) (f : β → β) : AMap β → AMap β
  | [] => []
  | (j, y) :: m => if j = k then (j, f y) :: m else (j, y) :: adj k f m

/-- Write a run of consecutive keys. -/
def putAll {β : Type} [DecidableEq β] (d : β) : Nat → List β → AMap β → AMap β
  | _, [], m => m
  | k, x :: xs, m => putAll d (k + 1) xs (put d k x m)

/-- Read a run of `n` consecutive keys. -/
def findAll {β : Type} (d : β) (k n : Nat) (m : AMap β) : List β :=
  (List.range n).map fun i => find d (k + i) m

/-- Replace the element at position `i` of a list by `f` of it. -/
def modNth {β : Type} (f : β → β) : Nat → List β → List β
  | _, [] => []
  | 0, x :: xs => f x :: xs
  | i + 1, x :: xs => x :: modNth f i xs

end Sys2Proof.Machine
end

