-- ==== Sys2Proof/Machine/Float.lean ====
section
/-! DEFINITION. Floating formats, exact values and their one rounding (02 R26 to R35, 06 R115 to R129, 12 R240). -/

namespace Sys2Proof.Machine

/-- The five sticky flags, as bits 4:0 of FST (R19). -/
abbrev Flags := BitVec 5
def fIV : Flags := 16
def fDZ : Flags := 8
def fOF : Flags := 4
def fUF : Flags := 2
def fNX : Flags := 1

/-- R26, R34: a format: exponent bits, fraction bits, bias. -/
structure FFmt where
  eb : Nat
  fb : Nat
  bias : Nat
  deriving DecidableEq, Repr

def f64F : FFmt := ⟨11, 52, 1023⟩
def f32F : FFmt := ⟨8, 23, 127⟩
def f16F : FFmt := ⟨5, 10, 15⟩
def bf16F : FFmt := ⟨8, 7, 127⟩
def f8e4F : FFmt := ⟨4, 3, 8⟩
def f8e5F : FFmt := ⟨5, 2, 16⟩

/-- The format of a floating type; other types do not occur here. -/
def tyF : Ty → FFmt
  | .f64 => f64F
  | .f16 => f16F
  | .bf16 => bf16F
  | _ => f32F

def FFmt.bits (F : FFmt) : Nat := 1 + F.eb + F.fb

/-- R27: what an encoding stands for: a NaN, an infinity, or ±m × 2^e. -/
inductive FVal where
  | nan (signalling : Bool)
  | inf (neg : Bool)
  | fin (neg : Bool) (m : Nat) (e : Int)
  deriving DecidableEq, Repr

/-- R27. -/
def fDec (F : FFmt) (x : Dword) : FVal :=
  let n := low F.bits x
  let neg := decide (2 ^ (F.eb + F.fb) ≤ n)
  let E := n / 2 ^ F.fb % 2 ^ F.eb
  let f := n % 2 ^ F.fb
  if E = 2 ^ F.eb - 1 then
    if f = 0 then .inf neg else .nan (decide (f < 2 ^ (F.fb - 1)))
  else if E = 0 then .fin neg f (1 - (F.bias : Int) - F.fb)
  else .fin neg (f + 2 ^ F.fb) ((E : Int) - F.bias - F.fb)

/-- R34: the 8-bit formats have one NaN, 0x80, and no infinity. -/
def fDec8 (F : FFmt) (x : Dword) : FVal :=
  let n := low 8 x
  if n = 0x80 then .nan false
  else
    let neg := decide (0x80 ≤ n)
    let E := n / 2 ^ F.fb % 2 ^ F.eb
    let f := n % 2 ^ F.fb
    if E = 0 then .fin neg f (1 - (F.bias : Int) - F.fb)
    else .fin neg (f + 2 ^ F.fb) ((E : Int) - F.bias - F.fb)

/-- The number of bits of n. -/
def bitLen (n : Nat) : Nat := if n = 0 then 0 else n.log2 + 1

/-- R28: the canonical NaN. -/
def fNaN (F : FFmt) : Dword := BitVec.ofNat 64 ((2 ^ F.eb - 1) * 2 ^ F.fb + 2 ^ (F.fb - 1))
def fSign (F : FFmt) (neg : Bool) (n : Nat) : Dword :=
  BitVec.ofNat 64 (n + if neg then 2 ^ (F.eb + F.fb) else 0)
def fInf (F : FFmt) (neg : Bool) : Dword := fSign F neg ((2 ^ F.eb - 1) * 2 ^ F.fb)
def fZero (F : FFmt) (neg : Bool) : Dword := fSign F neg 0

/-- R30: ±m × 2^e rounded to a multiple of 2^q: the multiple, and whether it differs. -/
def rndAt (rm : Rm) (neg : Bool) (m : Nat) (e q : Int) : Nat × Bool :=
  if q ≤ e then (m * 2 ^ (e - q).toNat, false)
  else
    let s := (q - e).toNat
    let n := m / 2 ^ s
    let r := m % 2 ^ s
    let up := match rm with
      | .rne => decide (2 ^ s < 2 * r) || (decide (2 ^ s = 2 * r) && n % 2 == 1)
      | .rtz => false
      | .rdn => neg && r != 0
      | .rup => !neg && r != 0
    (n + up.toNat, r != 0)

/-- R30 to R32: a nonzero exact value ±m × 2^e rounded once into F, with the flags of the rounding. -/
def fRnd (F : FFmt) (rm : Rm) (neg : Bool) (m : Nat) (e : Int) : Dword × Flags :=
  let E := e + bitLen m - 1
  let emin : Int := 1 - F.bias
  let q := (if E < emin then emin else E) - F.fb
  let (n, inex) := rndAt rm neg m e q
  let code := (q - (emin - F.fb)).toNat * 2 ^ F.fb + n
  let big := (2 ^ F.eb - 1) * 2 ^ F.fb
  if big ≤ code then
    let inf := match rm with
      | .rne => true
      | .rtz => false
      | .rdn => neg
      | .rup => !neg
    (fSign F neg (if inf then big else big - 1), fOF ||| fNX)
  else
    let (nu, _) := rndAt rm neg m e (E - F.fb)
    let tiny := decide (E < emin) && decide (nu < 2 ^ (emin - (E - F.fb)).toNat)
    (fSign F neg code, (if inex then fNX else 0) ||| (if inex && tiny then fUF else 0))

/-- R35: rounding into an 8-bit format. -/
def fRnd8 (F : FFmt) (rm : Rm) (sat neg : Bool) (m : Nat) (e : Int) : Dword × Flags :=
  let E := e + bitLen m - 1
  let emin : Int := 1 - F.bias
  let q := (if E < emin then emin else E) - F.fb
  let (n, inex) := rndAt rm neg m e q
  let code := (q - (emin - F.fb)).toNat * 2 ^ F.fb + n
  let sg := if neg then 0x80 else 0
  if 0x80 ≤ code then
    if sat then (BitVec.ofNat 64 (0x7F + sg), fOF ||| fNX) else (0x80, fIV ||| fNX)
  else
    let (nu, _) := rndAt rm neg m e (E - F.fb)
    let tiny := decide (E < emin) && decide (nu < 2 ^ (emin - (E - F.fb)).toNat)
    (BitVec.ofNat 64 (if code = 0 then 0 else code + sg),
      (if inex then fNX else 0) ||| (if inex && tiny then fUF else 0))

/-- An exact result that lies strictly between m × 2^e and (m + 1) × 2^e, as a value that rounds alike. -/
def jam (exact : Bool) (m : Nat) (e : Int) : Nat × Int :=
  if exact then (m, e) else (2 * m + 1, e - 1)

/-- R33: a value of the formats or of an exact operation, rounded into F. `z` is the sign of an exact zero. -/
def fOut (F : FFmt) (rm : Rm) (x : FVal) : Dword × Flags :=
  match x with
  | .nan s => (fNaN F, if s then fIV else 0)
  | .inf n => (fInf F n, 0)
  | .fin n m e => if m = 0 then (fZero F n, 0) else fRnd F rm n m e

/-- R115: the invalid result. -/
def fInvalid (F : FFmt) : Dword × Flags := (fNaN F, fIV)

def FVal.isSnan : FVal → Bool
  | .nan s => s
  | _ => false
def FVal.isNan : FVal → Bool
  | .nan _ => true
  | _ => false
def FVal.neg? : FVal → Bool
  | .nan _ => false
  | .inf n => n
  | .fin n _ _ => n
def FVal.flip : FVal → FVal
  | .nan s => .nan s
  | .inf n => .inf !n
  | .fin n m e => .fin (!n) m e

/-- The exact integer multiple of 2^e0 that a finite value is, for e0 ≤ e. -/
def scaled (neg : Bool) (m : Nat) (e e0 : Int) : Int :=
  (if neg then -1 else 1) * ((m * 2 ^ (e - e0).toNat : Nat) : Int)

/-- R32: the exact sum of two finite values; the sign of a zero. -/
def finAdd (rm : Rm) (n1 : Bool) (m1 : Nat) (e1 : Int) (n2 : Bool) (m2 : Nat) (e2 : Int) : FVal :=
  let e := if e1 ≤ e2 then e1 else e2
  let s := scaled n1 m1 e1 e + scaled n2 m2 e2 e
  if s = 0 then .fin (if n1 = n2 then n1 else rm = .rdn) 0 0
  else .fin (decide (s < 0)) s.natAbs e

/-- R115, R116: an exact sum; the boolean is IV. -/
def fAddV (rm : Rm) (a b : FVal) : FVal × Bool :=
  let iv := a.isSnan || b.isSnan
  match a, b with
  | .nan _, _ => (.nan false, iv)
  | _, .nan _ => (.nan false, iv)
  | .inf n, .inf k => if n = k then (.inf n, false) else (.nan false, true)
  | .inf n, _ => (.inf n, false)
  | _, .inf n => (.inf n, false)
  | .fin n1 m1 e1, .fin n2 m2 e2 => (finAdd rm n1 m1 e1 n2 m2 e2, false)

/-- R115, R117: an exact product; the boolean is IV. -/
def fMulV (a b : FVal) : FVal × Bool :=
  let iv := a.isSnan || b.isSnan
  match a, b with
  | .nan _, _ => (.nan false, iv)
  | _, .nan _ => (.nan false, iv)
  | .inf n, .inf k => (.inf (n != k), false)
  | .inf n, .fin k m _ => if m = 0 then (.nan false, true) else (.inf (n != k), false)
  | .fin k m _, .inf n => if m = 0 then (.nan false, true) else (.inf (n != k), false)
  | .fin n1 m1 e1, .fin n2 m2 e2 => (.fin (n1 != n2) (m1 * m2) (e1 + e2), false)

/-- Round a value and add the IV of its forming. -/
def fFin (F : FFmt) (rm : Rm) (x : FVal × Bool) : Dword × Flags :=
  let (r, fl) := fOut F rm x.1
  (r, fl ||| if x.2 then fIV else 0)

def fAdd (F : FFmt) (rm : Rm) (a b : FVal) : Dword × Flags := fFin F rm (fAddV rm a b)
def fSub (F : FFmt) (rm : Rm) (a b : FVal) : Dword × Flags := fFin F rm (fAddV rm a b.flip)
def fMul (F : FFmt) (rm : Rm) (a b : FVal) : Dword × Flags := fFin F rm (fMulV a b)

/-- R116: a × b + c, one rounding. -/
def fFma (F : FFmt) (rm : Rm) (a b c : FVal) : Dword × Flags :=
  let p := fMulV a b
  let s := fAddV rm p.1 c
  fFin F rm (s.1, p.2 || s.2)

/-- R116, R117: c − a × b, with −(a × b) the first operand of the sum. -/
def fNfma (F : FFmt) (rm : Rm) (a b c : FVal) : Dword × Flags :=
  let p := fMulV a b
  let s := fAddV rm p.1.flip c
  fFin F rm (s.1, p.2 || s.2)

/-- R116: division, correctly rounded. -/
def fDiv (F : FFmt) (rm : Rm) (a b : FVal) : Dword × Flags :=
  let iv : Flags := if a.isSnan || b.isSnan then fIV else 0
  match a, b with
  | .nan _, _ => (fNaN F, iv)
  | _, .nan _ => (fNaN F, iv)
  | .inf _, .inf _ => fInvalid F
  | .inf n, .fin k _ _ => (fInf F (n != k), 0)
  | .fin n _ _, .inf k => (fZero F (n != k), 0)
  | .fin n1 m1 e1, .fin n2 m2 e2 =>
    if m2 = 0 then (if m1 = 0 then fInvalid F else (fInf F (n1 != n2), fDZ))
    else if m1 = 0 then (fZero F (n1 != n2), 0)
    else
      let k := bitLen m2 + F.fb + 4
      let q := m1 * 2 ^ k / m2
      let (m, e) := jam (m1 * 2 ^ k % m2 == 0) q (e1 - e2 - k)
      fRnd F rm (n1 != n2) m e

/-- The integer square root, one bit at a time from bit b − 1 down. -/
def isqrtGo (n : Nat) : Nat → Nat → Nat
  | 0, r => r
  | b + 1, r => if (r + 2 ^ b) * (r + 2 ^ b) ≤ n then isqrtGo n b (r + 2 ^ b) else isqrtGo n b r
def isqrt (n : Nat) : Nat := isqrtGo n (bitLen n / 2 + 1) 0

/-- R116: square root, correctly rounded. -/
def fSqrt (F : FFmt) (rm : Rm) (a : FVal) : Dword × Flags :=
  match a with
  | .nan s => (fNaN F, if s then fIV else 0)
  | .inf n => if n then fInvalid F else (fInf F false, 0)
  | .fin n m e =>
    if m = 0 then (fZero F n, 0)
    else if n then fInvalid F
    else
      let k := 2 * (F.fb + 4) + (e % 2).toNat
      let r := isqrt (m * 2 ^ k)
      let (m', e') := jam (r * r == m * 2 ^ k) r ((e - k) / 2)
      fRnd F rm false m' e'

/-- R116, R117: reciprocal. -/
def fRcp (F : FFmt) (rm : Rm) (a : FVal) : Dword × Flags := fDiv F rm (.fin false 1 0) a

/-- R116, R117: reciprocal square root. -/
def fRsq (F : FFmt) (rm : Rm) (a : FVal) : Dword × Flags :=
  match a with
  | .nan s => (fNaN F, if s then fIV else 0)
  | .inf n => if n then fInvalid F else (fZero F false, 0)
  | .fin n m e =>
    if m = 0 then (fInf F n, fDZ)
    else if n then fInvalid F
    else
      let m2 := m * 2 ^ (e % 2).toNat
      let j := bitLen m2 + F.fb + 6
      let r := isqrt (2 ^ (2 * j) / m2)
      let (m', e') := jam (r * r * m2 == 2 ^ (2 * j)) r (-(j : Int) - (e - e % 2) / 2)
      fRnd F rm false m' e'

/-- Compare two values that are not NaN: −1, 0 or 1, with −0 equal to +0. -/
def fCmp (a b : FVal) : Int :=
  match a, b with
  | .inf n, .inf k => if n = k then 0 else if n then -1 else 1
  | .inf n, _ => if n then -1 else 1
  | _, .inf n => if n then 1 else -1
  | .fin n1 m1 e1, .fin n2 m2 e2 =>
    let e := if e1 ≤ e2 then e1 else e2
    (scaled n1 m1 e1 e - scaled n2 m2 e2 e).sign
  | _, _ => 0

/-- R118: `fmin` (or `fmax`) of two encodings. -/
def fMinMax (F : FFmt) (mx : Bool) (x y : Dword) : Dword × Flags :=
  let a := fDec F x
  let b := fDec F y
  let fl : Flags := if a.isSnan || b.isSnan then fIV else 0
  let clean := fun z : Dword => BitVec.ofNat 64 (low F.bits z)
  if a.isNan && b.isNan then (fNaN F, fl)
  else if a.isNan then (clean y, fl)
  else if b.isNan then (clean x, fl)
  else
    let c := fCmp a b
    let xLess := if c = 0 then a.neg? else decide (c < 0)
    (clean (if xLess != mx then x else y), fl)

/-- R120: the comparison and its IV. -/
def fCompare (c : Cmp) (a b : FVal) : Bool × Bool :=
  let nan := a.isNan || b.isNan
  let snan := a.isSnan || b.isSnan
  let d := fCmp a b
  match c with
  | .eq => (!nan && d == 0, snan)
  | .ne => (nan || d != 0, snan)
  | .lt => (!nan && decide (d < 0), nan)
  | .le => (!nan && decide (d ≤ 0), nan)
  | .gt => (!nan && decide (d > 0), nan)
  | .ge => (!nan && decide (d ≥ 0), nan)
  | .un => (nan, snan)
  | .ord => (!nan, snan)

/-- R121: the number of the class bit. -/
def fClass (F : FFmt) (x : Dword) : Nat :=
  match fDec F x with
  | .nan s => if s then 0 else 1
  | .inf n => if n then 2 else 9
  | .fin n m _ =>
    if m = 0 then (if n then 5 else 6)
    else if m < 2 ^ F.fb then (if n then 4 else 7)
    else (if n then 3 else 8)

/-- R122: an integral value of the same format, never NX. -/
def fRound (F : FFmt) (rm : Rm) (x : Dword) : Dword × Flags :=
  match fDec F x with
  | .nan s => (fNaN F, if s then fIV else 0)
  | .inf n => (fInf F n, 0)
  | .fin n m e =>
    let (k, _) := rndAt rm n m e (if e < 0 then 0 else e)
    if k = 0 then (fZero F n, 0)
    else ((fRnd F .rne n k (if e < 0 then 0 else e)).1, 0)

/-- R123: `fscale`. A shift far beyond every format rounds as the nearer bound of ±100,000 does. -/
def fScale (F : FFmt) (rm : Rm) (x : Dword) (k : Int) : Dword × Flags :=
  match fDec F x with
  | .fin n m e => fOut F rm (.fin n m (e + clamp (-100000) 100000 k))
  | v => fOut F rm v

/-- R123: floor(log2 |a|) of a finite nonzero value. -/
def finExpo (m : Nat) (e : Int) : Int := e + bitLen m - 1

/-- R123: `fexpo`. -/
def fExpo (F : FFmt) (x : Dword) : Int × Flags :=
  match fDec F x with
  | .fin _ m e => if m = 0 then (-(2 ^ 31), fIV) else (finExpo m e, 0)
  | _ => (2 ^ 31 - 1, fIV)

/-- R123: `fmant`. -/
def fMant (F : FFmt) (x : Dword) : Dword × Flags :=
  match fDec F x with
  | .fin n m e => if m = 0 then (fZero F n, 0) else ((fRnd F .rne n m (e - finExpo m e)).1, 0)
  | v => fOut F .rne v

/-- R124: TwoSum: rounded sum, error, flags. -/
def fTwoSum (F : FFmt) (x y : Dword) : Dword × Dword × Flags :=
  let a := fDec F x
  let b := fDec F y
  let (s, fl) := fAdd F .rne a b
  match fDec F s, fAddV .rne a b with
  | .fin n m e, (v, _) =>
    match fAddV .rne v (.fin (!n) m e) with
    | (.fin k mm ee, _) => (s, if mm = 0 then fZero F false else (fRnd F .rne k mm ee).1, fl)
    | _ => (s, fZero F false, fl)
  | _, _ => (s, fZero F false, fl)

/-- R125: TwoProd. The residual's NX and UF are recorded when it is inexact. -/
def fTwoProd (F : FFmt) (x y : Dword) : Dword × Dword × Flags :=
  let a := fDec F x
  let b := fDec F y
  let (p, fl) := fMul F .rne a b
  match fDec F p, fMulV a b with
  | .fin n m e, (v, _) =>
    match fAddV .rne v (.fin (!n) m e) with
    | (.fin k mm ee, _) =>
      if mm = 0 then (p, fZero F false, fl)
      else
        let (r, f2) := fRnd F .rne k mm ee
        (p, r, fl ||| if f2 &&& fNX = 0 then 0 else fNX ||| fUF)
    | _ => (p, fZero F false, fl)
  | _, _ => (p, fZero F false, fl)

/-- R126: a0 × b0 + a1 × b1 + c, one rounding into f32. DESIGN CHOICE (assumption 76): where a quiet NaN stands beside two opposite
infinities, IV is set if the infinities are the two products. -/
def fDot2 (F : FFmt) (rm : Rm) (x y c : Dword) : Dword × Flags :=
  let hi := fun z : Dword => z >>> 16
  let p0 := fMulV (fDec F x) (fDec F y)
  let p1 := fMulV (fDec F (hi x)) (fDec F (hi y))
  let s := fAddV rm p0.1 p1.1
  let cv := fDec f32F c
  let r := fAddV rm s.1 cv
  let opp := match p0.1, p1.1 with
    | .inf n, .inf k => n != k
    | _, _ => false
  fFin f32F rm (r.1, p0.2 || p1.2 || opp || r.2)

/-! ### Powers of two and logarithms (R127, R240) -/

/-- The number of fraction bits of the fixed-point work: far beyond what any f32 result needs (assumption 11). -/
def expP : Nat := 256
def logP : Nat := 352
def logN : Nat := 160

/-- 2^f for f = F / 2^K, truncated to `expP` fraction bits: the bits of F from the highest down, with the roots of 2. -/
def exp2Go (f : Nat) : Nat → Nat → Nat → Nat
  | 0, _, acc => acc
  | k + 1, root, acc =>
    let root' := isqrt (root * 2 ^ expP)
    exp2Go f k root' (if f.testBit k then acc * root' / 2 ^ expP else acc)

/-- R127: `fexp2`. -/
def fExp2 (rm : Rm) (x : Dword) : Dword × Flags :=
  match fDec f32F x with
  | .nan s => (fNaN f32F, if s then fIV else 0)
  | .inf n => (if n then fZero f32F false else fInf f32F false, 0)
  | .fin n m e =>
    if m = 0 then fRnd f32F rm false 1 0
    else if 8 < finExpo m e then fRnd f32F rm false 1 (if n then -600 else 600)
    else if 0 ≤ e then fRnd f32F rm false 1 (scaled n m e 0)
    else
      let k := (-e).toNat
      let a := (if n then -1 else 1) * (m : Int)      -- the operand is a × 2^-k
      let i := a / 2 ^ k
      let f := (a % 2 ^ k).toNat
      if f = 0 then fRnd f32F rm false 1 i
      else
        let (m', e') := jam false (exp2Go f k (2 * 2 ^ expP) (2 ^ expP)) (i - expP)
        fRnd f32F rm false m' e'

/-- The first n binary digits of log2 y for y = Y / 2^logP in [1, 2). -/
def log2Go : Nat → Nat → Nat → Nat
  | 0, _, acc => acc
  | n + 1, y, acc =>
    let y2 := y * y / 2 ^ logP
    if 2 ^ (logP + 1) ≤ y2 then log2Go n (y2 / 2) (2 * acc + 1) else log2Go n y2 (2 * acc)

/-- floor(log2(m × 2^e) × 2^logN), exact only when m is a power of two. -/
def log2Fix (m : Nat) (e : Int) : Int :=
  finExpo m e * 2 ^ logN + log2Go logN (m * 2 ^ (logP - (bitLen m - 1))) 0

/-- A value strictly between t and t + 1 units of 2^e, for t ≠ −1, as a sign and a value that rounds alike. -/
def jamInt (t : Int) (e : Int) : Bool × Nat × Int :=
  if t < 0 then (true, 2 * t.natAbs - 1, e - 1) else (false, 2 * t.natAbs + 1, e - 1)

/-- R127: `flog2`. -/
def fLog2 (rm : Rm) (x : Dword) : Dword × Flags :=
  match fDec f32F x with
  | .nan s => (fNaN f32F, if s then fIV else 0)
  | .inf n => if n then fInvalid f32F else (fInf f32F false, 0)
  | .fin n m e =>
    if m = 0 then (fInf f32F true, fDZ)
    else if n then fInvalid f32F
    else if m = 2 ^ (bitLen m - 1) then
      let k := finExpo m e
      fOut f32F rm (.fin (decide (k < 0)) k.natAbs 0)
    else
      let (ng, m', e') := jamInt (log2Fix m e) (-(logN : Int))
      fRnd f32F rm ng m' e'

/-- floor(ln 2 × 2^160). -/
def ln2Fix : Nat := 1013035739299659071135698605846798551586536899366

/-- R240: LN24(u), as an f32 encoding. -/
def ln24 (u : Nat) : Dword :=
  let t := log2Fix (2 * u + 1) (-25)
  let (ng, m', e') := jamInt (t * ln2Fix) (-(logN : Int) - 160)
  (fRnd f32F .rne ng m' e').1

/-! ### Conversion (R129) -/

/-- A source format's value. -/
def fmtDec (f : Fmt) (x : Dword) : FVal :=
  match f with
  | .f8e4 => fDec8 f8e4F x
  | .f8e5 => fDec8 f8e5F x
  | .ty t =>
    if tyFloat t then fDec (tyF t) x
    else
      let v := tyVal t x
      .fin (decide (v < 0)) v.natAbs 0

/-- Into an 8-bit format (R35). -/
def fOut8 (F : FFmt) (rm : Rm) (sat : Bool) (x : FVal) : Dword × Flags :=
  match x with
  | .nan s => (0x80, if s then fIV else 0)
  | .inf n =>
    if sat then (BitVec.ofNat 64 (0x7F + if n then 0x80 else 0), fOF ||| fNX) else (0x80, fIV ||| fNX)
  | .fin n m e => if m = 0 then (0, 0) else fRnd8 F rm sat n m e

/-- Float to integer (R129). -/
def fToInt (t : Ty) (rm : Rm) (x : FVal) : Dword × Flags :=
  match x with
  | .nan _ => (0, fIV)
  | .inf n => (tyWrap t (if n then tyMin t else tyMax t), fIV)
  | .fin n m e =>
    if m = 0 then (0, 0)
    else if 70 < finExpo m e then (tyWrap t (if n then tyMin t else tyMax t), fIV)
    else
      let (k, inex) := rndAt rm n m e 0
      let q : Int := if n then -(k : Int) else k
      if q < tyMin t then (tyWrap t (tyMin t), fIV)
      else if tyMax t < q then (tyWrap t (tyMax t), fIV)
      else (tyWrap t q, if inex then fNX else 0)

/-- R129: `cvt`. -/
def cvtVal (dst src : Fmt) (rm : Rm) (sat : Bool) (x : Dword) : Dword × Flags :=
  match dst with
  | .f8e4 => fOut8 f8e4F rm sat (fmtDec src x)
  | .f8e5 => fOut8 f8e5F rm sat (fmtDec src x)
  | .ty t =>
    if tyFloat t then fOut (tyF t) rm (fmtDec src x)
    else
      match src with
      | .ty u => if tyFloat u then fToInt t rm (fmtDec src x) else (tyFit t sat (tyVal u x), 0)
      | _ => fToInt t rm (fmtDec src x)

/-! ### Quantising (R36, R131) -/

/-- R36: the level table. -/
def q4nLevels : List Int := [-128, -91, -69, -53, -40, -28, -16, -5, 5, 16, 28, 40, 53, 69, 91, 128]

/-- The code whose level is best under `better`, the earlier standing unless a later one is better. -/
def bestCode (better : Int → Nat → Int → Nat → Bool) : List (Nat × Int) → Nat × Int → Nat
  | [], c => c.1
  | x :: xs, c => bestCode better xs (if better x.2 x.1 c.2 c.1 then x else c)

/-- R131: the code of a with scale b. -/
def q4nCode (a b : FVal) : Nat × Flags :=
  match a, b with
  | .nan _, _ => (8, fIV)
  | _, .nan _ => (8, fIV)
  | _, .inf _ => (8, fIV)
  | .inf n, .fin k m _ => if m = 0 then (8, fIV) else (if n = k then 15 else 0, 0)
  | .fin n m e, .fin k mb eb =>
    if mb = 0 then (8, fIV)
    else
      -- |a − b × LV / 128|, as integers in a common unit
      let u := if e ≤ eb - 7 then e else eb - 7
      let av := scaled n m e u
      let bv := scaled k mb (eb - 7) u
      let dist := fun lv : Int => (av - bv * lv).natAbs
      let better := fun (l1 : Int) (c1 : Nat) (l2 : Int) (_ : Nat) =>
        decide (dist l1 < dist l2) || (decide (dist l1 = dist l2) && c1 % 2 == 0)
      let table := (List.range 16).zip q4nLevels
      (bestCode better table (0, -128), 0)

end Sys2Proof.Machine
end

