-- ==== Sys2Proof/Machine/State.lean ====
section
/-! DEFINITION. The state of the device, as plain data, and the state after reset. -/

namespace Sys2Proof.Machine

/-! ## Fibres -/

/-- R155: what a lane holds. A live fibre with no wait is ready. -/
inductive Life where
  | empty | live | parked | ended
  deriving DecidableEq, Repr

/-- R301, R155: the kinds of fence at which fibres wait. -/
inductive FenceKind where
  | rel | full
  deriving DecidableEq, Repr

/-- R155: what a waiting fibre waits at. -/
inductive WaitKind where
  | bar (ens : Bool) (owner idx phase : Nat)
  | racq (k : Nat)
  | stgw (addr : Nat) (ph : Bool)
  | sleep (till : Dword) (act : BitVec 64)
  | counters (l s c m : Nat)
  | rendezvous
  | cbar (grp k : Nat) (d : Opnd)
  | cwait (ticket : Dword) (d : Opnd)
  | fence (kind : FenceKind) (sc : Scope) (id : Nat)
  | mopf (id : Nat)
  | dalloc (op : Nat)
  | copy
  | subs (op : Nat) (d : Opnd)
  | unsub (slot op : Nat) (d : Opnd)
  | role (k : Nat)
  | ckptHold
  deriving DecidableEq, Repr

/-- A pending wait, with the PC its fibre has when the wait completes. -/
structure Wait where
  kind : WaitKind
  nxt : Pc
  brk : Option Word           -- the ordinal of a breakpoint it meets when it completes (R436)
  deriving DecidableEq, Repr

/-- R46: a wide accumulator: W and the status bits. -/
structure Wide where
  w : BitVec 1024
  loss : Bool
  ovf : Bool
  nan : Bool
  deriving DecidableEq, Repr

/-- R8: one lane of a gang. -/
structure Fibre where
  life : Life
  pc : Pc
  wait : Option Wait          -- its own pending wait
  gwait : Option Wait         -- a wait of the whole gang (R155)
  v : AMap Word               -- v0 to v223
  bank0 : AMap Word           -- v224 to v255, the two physical banks (R235, R236)
  bank1 : AMap Word
  p : BitVec 7                -- p0 to p6
  fst : BitVec 5              -- R19: IV DZ OF UF NX
  fid : Dword
  bound : Dword
  incsel : BitVec 4
  key : Dword
  ctr : Dword
  popen : Bool                -- PSTATE.OPEN
  psel : Bool                 -- PSTATE.SEL
  pcnt : Word
  acnt : Word
  w0 : Wide
  w1 : Wide
  li : Nat                    -- R159: the gang's issue count at its latest issue
  defer : Nat                 -- R213: issues left of an open window
  fidx : Word
  fidy : Word
  fidz : Word
  point : Option (Nat × Nat × Nat)   -- R224
  deriving DecidableEq, Repr

/-! ## Gangs -/

/-- R385: what one faulting fibre's record holds. -/
structure TrapRec where
  lane : Nat
  cause : Word                -- TCAUSE
  addr : Dword                -- TADDR
  tpc : Pc
  deriving DecidableEq, Repr

/-- R159: the escalation record: the set E, and the escalated issues made. -/
structure Esc where
  lanes : BitVec 64
  n : Nat
  deriving DecidableEq, Repr

/-- R388. -/
structure Frame where
  tmask : BitVec 64
  recs : List TrapRec
  pcs : List (Nat × Pc)       -- the PC of every lane when the trap was taken
  parked : BitVec 64          -- lanes this frame parked
  returned : BitVec 64
  age : Nat
  esc : Option Esc
  deriving DecidableEq, Repr

/-- R393: a report to Zalner. -/
structure Report where
  master : Option Master      -- none: nothing is frozen (R181)
  ctx : Nat
  cause : Word
  addr : Dword
  own : List TrapRec          -- R394: the records of the trap not taken
  deriving DecidableEq, Repr

/-- R66: one entry of the operand latch: the registers it serves from `reg` on, and the issues it still serves. -/
structure Latch where
  reg : Nat
  n : Nat
  left : Nat
  deriving DecidableEq, Repr

/-- R399: whether a gang runs, is being stopped, or is saved. -/
inductive Stop where
  | running | stopping | saved
  deriving DecidableEq, Repr

structure Gang where
  gid : Dword
  ctx : Nat
  ltag : Nat
  crew : Nat                  -- key of its crew
  num : Nat                   -- its number within the crew (R151)
  core : Nat
  slot : Nat                  -- R153
  off : Nat
  width : Nat
  fibres : List Fibre
  s : AMap Dword              -- s0 to s63
  ldcnt : Nat
  stcnt : Nat
  cpcnt : Nat
  mtcnt : Nat
  held : Nat                  -- REGHELD
  tvec : Pc
  frames : List Frame         -- top first
  pend : List TrapRec         -- faults to be taken before the next issue (R383)
  trp : BitVec 16
  role : Option Nat
  age : Nat
  esc : Option Esc
  issues : Nat
  latch : List Latch
  issuedAt : Option Dword     -- CLK of its latest issue (R444)
  lord : Word
  interval : Word             -- R446
  intervalOrd : Word          -- ordinal of the ckpt that opened it (R450)
  logged : List Nat           -- lines logged in this interval (R447)
  pb : Dword                  -- private span base (R270)
  frozen : Option Report
  stop : Stop
  walkFaults : List (Dword × Nat × Nat)   -- address, XKIND, XLEVEL found for the instruction at the PC
  mtSeen : List Nat           -- tile operations that a `wait` of the gang has covered (R330, R362)
  mtDone : List (Nat × List Nat)   -- those whose count is removed and that no `wait` has covered, with the lines written (R369)
  opRows : AMap Byte          -- the crew's scratch bytes at the latest `mopf`, by scratch address (R288)
  opDescs : AMap (BitVec 16)
  opMark : Nat                -- the place of that `mopf` in its core's record of scratch stores
  cpDone : List (Dword × List Nat)   -- finished copies not yet acquired: promise, and the lines written (R287)
  holdOps : List Nat          -- operations whose return holds the next issue (acquires, peer checks)
  deriving DecidableEq, Repr

/-! ## Crews -/

/-- R200: an arrival counted in a phase; accesses numbered below `id` belong to its release. -/
structure Arrival where
  gang : Nat
  lane : Nat
  core : Nat
  id : Nat
  deriving DecidableEq, Repr

/-- R200: the arrivals of one issue at a barrier: CLK and place of the issue, and the count that its lowest lane names. -/
structure BarIssue where
  clk : Dword
  place : Nat                 -- core, issue slot and lane offset, in the order of R200
  count : Nat
  arrivals : List Arrival
  deriving DecidableEq, Repr

/-- R200: a barrier. -/
structure Barrier where
  count : Nat
  target : Nat
  phase : Nat                 -- the number of the phase
  arrived : List Arrival      -- the arrivals counted in it
  issues : List BarIssue      -- the phase's issues, in the order of R200
  deriving DecidableEq, Repr

/-- A run of bytes that a request moves between memory and scratchpad. -/
structure CopyMove where
  va : Nat
  pa : Nat
  scratch : Nat
  n : Nat
  deriving DecidableEq, Repr

/-- R340, R342: a live subscription. -/
structure Subscription where
  crew : Nat
  seq : Nat
  mem : Dword
  stride : Dword
  count : Nat
  tbytes : Nat
  ring : Nat
  phase : Nat
  nslots : Nat
  pull : Bool
  desc : Bool
  next : Nat                  -- next tile
  moving : Bool               -- a tile is being moved
  pas : List CopyMove         -- where that tile's bytes stand
  src : List (List Byte)      -- what its source held when the move began
  part : List Nat             -- the words of it already moved
  frozen : Bool
  stopping : Bool
  deriving DecidableEq, Repr

structure Crew where
  ctx : Nat
  ltag : Nat
  index : Nat
  core : Nat
  base : Nat                  -- region in the core's scratchpad
  size : Nat
  bars : List Barrier
  barSlots : List Nat         -- the core's barrier slots that they stand in (R186)
  ngangs : Nat
  ens : Option Nat
  spawned : Bool              -- R168
  gangs : List Nat            -- keys of its gangs that have not ended
  saved : Bool                -- R402
  scanned : List Claim        -- R404: what has been scanned out
  moved : AMap Byte           -- its scratch bytes in the save area, once scanned out, by scratch address
  movedDesc : AMap (BitVec 16)
  deriving DecidableEq, Repr

/-- R199: an ensemble. -/
structure Ensemble where
  bar : Barrier
  crews : List Nat
  deriving DecidableEq, Repr

/-! ## Launches, records, incumbents -/

/-- R332. -/
structure RoleDef where
  kind : Nat
  chunks : Nat
  gangs : Nat
  entry : Dword
  deriving DecidableEq, Repr

/-- R220: one axis of an element: source axis, sign, offset. -/
structure AxisMap where
  src : Nat
  flip : Bool
  k : Nat
  deriving DecidableEq, Repr

/-- R220, R221: an element in normalised form, and its canonical word. -/
structure Element where
  x : AxisMap
  y : AxisMap
  z : AxisMap
  word : List Nat
  deriving DecidableEq, Repr

/-- R226. -/
structure ImageMap where
  base : Dword
  sx : Word
  sy : Word
  sz : Word
  esize : Nat
  neg : BitVec 3
  deriving DecidableEq, Repr

/-- R218 to R228: what a symmetry launch records. -/
structure Sym where
  elems : List Element
  maps : List ImageMap
  deriving DecidableEq, Repr

/-- R177: a launch packet. -/
structure Packet where
  hdr : Dword
  text : Dword
  arg : Dword
  seed : Dword
  gx : Nat
  gy : Nat
  gz : Nat
  priv : Nat
  clmask : BitVec 48
  ens : Nat
  relscope : Nat
  replay : Bool
  bound : Dword
  incsel : BitVec 4
  incmask : BitVec 16
  inctab : Dword
  sigaddr : Dword
  sigval : Dword
  data : Dword
  reserved : Bool             -- some reserved bit is set
  deriving DecidableEq, Repr

/-- R176: a kernel header. -/
structure Header where
  entry : Dword
  width : Nat
  cx : Nat
  cy : Nat
  cz : Nat
  regs : Nat
  barriers : Nat
  wide : Bool
  prop : Bool
  sym : Bool
  roles : Bool
  scratch : Nat
  safemap : Dword
  symdesc : Dword
  roledesc : Dword
  reserved : Bool
  deriving DecidableEq, Repr

/-- R184: a slot of the launch table. -/
structure Launch where
  uid : Nat                   -- the model's own number of the launch
  after : Option Nat          -- the launch that must complete first (R180), by its number
  pkt : Packet
  hd : Header
  roles : List RoleDef
  sym : Option Sym
  ticket : Nat                -- R187
  ncrews : Nat
  prev : Option Nat           -- the launch's previous grantee
  byLaunch : Bool             -- made by the instruction (R214)
  queue : Option Nat
  started : Bool              -- its kernel-boundary acquire has been made (R285)
  deriving DecidableEq, Repr

/-- R183. -/
structure Rec where
  args : List Word
  task : Dword
  parent : Dword
  bound : Dword
  ltag : Nat
  wcode : Fin 4
  incsel : BitVec 4
  entry : Pc
  ctx : Nat
  order : Order               -- the model's own: what its `spawn` ordered (R198)
  ord : Nat                   -- order of entry into its pool
  deriving DecidableEq, Repr

/-- R185: a bin's key. -/
structure BinKey where
  ctx : Nat
  ltag : Nat
  entry : Pc
  wcode : Fin 4
  deriving DecidableEq, Repr

/-- R185: a bin: newest record first, and the CLK at which its timer started. -/
structure Bin where
  key : BinKey
  recs : List Rec
  start : Dword
  deriving DecidableEq, Repr

/-- R190: an incumbent, at its home or as a core's copy. -/
structure Inc where
  key : Dword
  max : Bool
  f64 : Bool
  deriving DecidableEq, Repr

/-- R190, R191: what travels to a hub. -/
inductive IncAct where
  | update (keys : List (Nat × Dword))      -- lane and key, ascending
  | read (lanes : List Nat)
  deriving DecidableEq, Repr

structure IncMsg where
  id : Nat
  core : Nat
  ctx : Nat
  k : Nat
  act : IncAct
  op : Option Nat             -- the operation that awaits the reply
  deriving DecidableEq, Repr

/-- R191: a broadcast under way, with the cores it has reached. -/
structure Bcast where
  ctx : Nat
  k : Nat
  inc : Inc
  init : Bool
  time : Dword                -- commit time T
  got : List Nat
  deriving DecidableEq, Repr

/-! ## Memory system -/

/-- R265 to R269: a cached translation. -/
structure TlbEnt where
  ctx : Nat
  va : Nat
  size : Nat
  pa : Nat
  r : Bool
  w : Bool
  x : Bool
  level : Nat
  deriving DecidableEq, Repr

/-- R267: what an access needs. -/
structure Need where
  r : Bool
  w : Bool
  x : Bool
  deriving DecidableEq, Repr

/-- R269: a page walk under way for a gang of a core. -/
structure Walk where
  core : Nat
  ctx : Nat
  gang : Nat
  va : Dword
  need : Need
  deriving DecidableEq, Repr

/-- R294, R295: one fibre's atomic update. -/
structure AtomOp where
  lane : Nat
  addr : Nat
  t : Ty
  op : Option Red             -- none: compare and swap
  b : Dword
  c : Dword
  deriving DecidableEq, Repr

/-- R254: an update-only line; `ctx` is the context whose reduction opened it (R439). -/
structure UoLine where
  line : Nat
  ctx : Nat
  op : Red
  t : Ty
  els : List (Nat × Dword)
  deriving DecidableEq, Repr

/-- What a line request does at the home. -/
inductive ReqAct where
  | read (l1 rdc : Bool) (sectors : List Nat)   -- may be placed in L1, in the RDC
  | write (bytes : List (Nat × Byte))
  | atomic (ops : List AtomOp)
  | merge (u : UoLine)
  | readDesc (sectors : List Nat)
  | writeDesc (ds : List (Nat × BitVec 16))
  deriving DecidableEq, Repr

/-- What the home answers. -/
structure Answer where
  bytes : List (Nat × Byte)         -- what a load returns, or a write wrote
  fill : List (Nat × Byte)          -- what the caches are given of a load's sectors
  descs : List (Nat × BitVec 16)
  olds : List (Nat × Dword)         -- lane and old value
  seq : Nat                         -- the order in which requests were performed at their homes
  deriving DecidableEq, Repr

/-- R251, R259, R260: where a request stands. -/
inductive Stage where
  | mesh | router | queue | parked
  | filled (a : Answer)             -- a fill on its way to the caches
  | answered (a : Answer)           -- a reply on its way to the registers or counters
  deriving DecidableEq, Repr

structure Req where
  id : Nat
  op : Nat
  core : Nat
  ctx : Nat
  line : Nat
  act : ReqAct
  stage : Stage
  since : Dword                     -- CLK at which it was injected, reached the slice, or was parked (R444)
  shut : Bool                       -- a later request of its core to the line has been performed (R274)
  deriving DecidableEq, Repr

/-- How an operation's result reaches its destination. -/
inductive DstFmt where
  | ty (t : Ty)
  | dbl
  | raw32
  | raw64
  | wide (status : List (Nat × Word))
  deriving DecidableEq, Repr

/-- One fibre's part of an outstanding access: the keys of its bytes, in order. -/
structure Part where
  lane : Nat
  keys : List Nat
  deriving DecidableEq, Repr

inductive Ctr where
  | ld | st | none
  deriving DecidableEq, Repr

/-- R443, R444: the sample of an outstanding instruction: the fields fixed at issue, as the record's number, and those that its
requests find. -/
structure Smp where
  core : Nat
  base : Nat
  last : Nat
  replays : Nat
  mesh : Nat
  l2 : Nat
  rpl : Nat
  hbm : Nat
  deriving DecidableEq, Repr

/-- An outstanding instruction of a gang (R111). -/
structure MemOp where
  id : Nat
  gang : Nat
  core : Nat
  ctr : Ctr
  dst : Option (Opnd × DstFmt)
  parts : List Part
  got : List (Nat × Byte)           -- bytes that have come back, by key
  vals : List (Nat × Dword)         -- values come back by lane, for the formats that bring whole values
  left : Nat                        -- requests not yet answered
  acq : Option Scope                -- an acquire fence follows its return
  fib : BitVec 64                   -- the lanes it was issued for
  regs : List (Nat × Nat)           -- lane and vector register still to be written (64: a scalar, lane 64 + number)
  load : Bool
  lines : List (Nat × Nat)          -- virtual and physical lines a replay log takes (R447)
  deps : List Nat                   -- requests of earlier instructions it also awaits (R304)
  unit : Nat                        -- bytes of its accesses that are single-copy atomic (R108)
  bypass : Bool                     -- performed at the home, without L1 (R253)
  logv : Bool                       -- its values go to a replay log (R447)
  smp : Option Smp
  sub : Option (Nat × Opnd)         -- a `subs` that reads its descriptor: its crew, and D (R341)
  deriving DecidableEq, Repr

/-- What a peer access does at its target. -/
inductive PeerAct where
  | read
  | write (bytes : List Byte)
  | atomic (a : AtomOp)
  | readDesc
  | writeDesc (d : BitVec 16)
  deriving DecidableEq, Repr

/-- R216, R217: one fibre's peer access under way. -/
structure PeerReq where
  id : Nat
  op : Nat
  gang : Nat
  core : Nat
  crew : Nat
  ens : Option Nat                  -- the crew's ensemble
  lane : Nat
  ea : Dword
  n : Nat
  act : PeerAct
  tpc : Pc
  lost : Bool                       -- its fibre was cancelled: the operation does not await it (R315)
  deriving DecidableEq, Repr

/-! ## Cores -/

/-- A `copy` that has issued and whose global range is still to be translated (R323). -/
structure CopyPend where
  gang : Nat
  ctx : Nat
  crew : Nat
  lanes : BitVec 64                 -- the issuing group
  act : BitVec 64                   -- its active fibres
  g2s : Bool
  desc : Bool
  scratch : Nat                     -- address in the core's scratchpad
  va : Dword
  len : Nat
  d : Opnd
  deriving DecidableEq, Repr

/-- R325, R326: an accepted request of a copy engine; `src` holds what its source held when the request started, and `hits` the
bytes of its destination that others have written since, from which R327's bounds follow. -/
structure CopyReq where
  id : Nat
  gang : Nat
  ctx : Nat
  crew : Nat
  act : BitVec 64
  g2s : Bool
  desc : Bool
  moves : List CopyMove
  gath : Bool                       -- made by `gath` or `scat`
  started : Bool
  held : Bool                       -- frozen with its engine (R393)
  src : List (List Byte)
  part : List (Nat × List Byte)     -- the words already moved, with the bytes read (R327)
  hits : List Nat
  promise : Dword
  done : Bool
  dropped : Bool
  deriving DecidableEq, Repr

/-- R288, R361: one store to a scratchpad or a weight buffer: the bytes and the descriptors written. -/
structure Stored where
  bytes : List (Nat × Byte)
  descs : List (Nat × BitVec 16)
  deriving DecidableEq, Repr

/-- R364: an operation of the array, held in the fields of its continuation block. `st` is 0 while it may run. DESIGN CHOICE (assumption
100): an a_i of 2^18 or more, which R357 lets pass, is kept whole, beyond the 18 bits of ABASEi. -/
structure ContBlock where
  st : Nat
  tile : Nat
  nslab : Nat
  slab : Nat
  z : Bool
  kb : Nat
  nkb : Nat
  cause : Word
  boff : Nat
  abase : List Nat
  mask : BitVec 16
  gsa : Dword
  gsb : Dword
  seedb : Dword
  taddr : Dword
  deriving DecidableEq, Repr

/-- What the engine keeps beside an accepted operation of the array: its troupe, the crew's region, the operands as
they were fenced (R288) and as the weight buffer stood at acceptance (R361), and the tile as it stood at the start. -/
structure MmaSide where
  members : List Nat                -- gang keys, in rank order
  base : Nat
  size : Nat
  rows : List (AMap Byte × AMap (BitVec 16))
  marks : List Nat                  -- the place of each gang's `mopf` in the record of scratch stores
  wbuf : AMap Byte
  wdesc : AMap (BitVec 16)
  wmark : Nat                       -- the place of the acceptance in the record of the weight buffer's stores
  before : AMap Dword
  started : Bool
  sent : Bool                       -- its fault has been delivered (R365)
  deriving DecidableEq, Repr

/-- R368: the elements that `mld` or `mst` moves. -/
structure TileMove where
  load : Bool
  tile : Nat
  f : Nat
  n : Nat
  t : Ty
  scratch : Option Nat              -- the scratchpad address of element 0
  pas : List CopyMove               -- else where the bytes stand; `scratch` there is the offset in the transfer
  part : List Nat                   -- elements already moved (R362)
  seen : List Nat                   -- the operations that a `wait` of its gang had covered when it issued (R22, R362)
  deriving DecidableEq, Repr

/-- An accepted operation of the matrix engine (R358, R368, R370). -/
inductive MxKind where
  | mma (c : ContBlock) (x : MmaSide)
  | move (m : TileMove)
  | wbload (off : Nat) (pas : List CopyMove) (part : List Nat)   -- the words already moved
  deriving DecidableEq, Repr

structure MxOp where
  id : Nat
  ctx : Nat
  gang : Nat                        -- the issuing gang, or the lead gang
  crew : Nat
  act : BitVec 64
  owed : List Nat                   -- gangs in whose MTCNT it still counts
  done : Bool
  started : Bool                    -- a transfer has started, and what its source held then, move by move
  src : List (List Byte)
  kind : MxKind
  deriving DecidableEq, Repr

/-- R351: a pending rendezvous. -/
structure Rendezvous where
  crew : Nat
  mask : BitVec 16
  cmp : Mma                         -- the fields compared
  vals : List Dword                 -- B, C, sQ, sQ+1, sQ+2
  arrived : List (Nat × Nat)        -- gang number and its a_i
  deriving DecidableEq, Repr

/-- R345. -/
structure Matrix where
  owner : Option Nat
  tiles : AMap Dword                -- key (tile × 96 + row) × 64 + column; S in bits 31:0, C above
  wbuf : AMap Byte
  wdesc : AMap (BitVec 16)
  wlog : List Stored                -- the stores to the weight buffer, oldest first (R361)
  latch : List Rendezvous
  queue : List MxOp                 -- in acceptance order; a split operation holds its continuation block
  last : List (Nat × Nat × AMap Dword)   -- operations of the array that have ended, newest first: tile, id, the tile before
  deriving DecidableEq, Repr

/-- R439 to R443. -/
structure Perf where
  owner : Option Nat
  ctr : AMap Dword                  -- as they stood at the start of the cycle (R441)
  now : AMap Nat                    -- this cycle's events, by counter
  wrote : AMap Dword                -- counters written in this cycle, and what with (R441)
  cpRem : Nat                       -- copied bytes not yet counted as 64
  sel : AMap (BitVec 8)
  smp : BitVec 18
  ring : Nat
  size : Nat
  fill : Nat
  memN : Nat                        -- memory instructions since the last sample
  cursor : Nat                      -- the next place of stall sampling, slot × 64 + lane offset
  nextAt : Dword                    -- CLK of the next stall sample
  deriving DecidableEq, Repr

/-- R188. -/
structure Steal where
  x : BitVec 16
  refusals : Nat
  pending : Bool
  next : Dword                      -- CLK from which the next request may leave
  reserved : Nat
  deriving DecidableEq, Repr

/-- R171: a queued `racq` request. -/
structure RacqReq where
  gang : Nat
  lanes : BitVec 64
  k : Nat
  pc : Pc
  deriving DecidableEq, Repr

/-- R308, R311: one fibre of a `dalloc` that waits for the puppeteer to refill a magazine. -/
structure DallocReq where
  op : Nat
  gang : Nat
  lane : Nat
  ctx : Nat
  cls : Nat
  size : Dword
  z : Bool
  deriving DecidableEq, Repr

structure Core where
  bins : List Bin
  unbinned : List Rec               -- oldest first
  gangSeq : AMap (BitVec 40)        -- by context
  spawnSeq : AMap (BitVec 40)
  steal : Steal
  racq : List RacqReq
  spad : AMap Byte
  spadDesc : AMap (BitVec 16)
  spadLog : List Stored             -- the stores to the scratchpad, oldest first (R288)
  l1 : AMap Byte                    -- present bytes only, whole sectors
  l1Desc : AMap (BitVec 16)
  uo : List UoLine
  tlb : List TlbEnt
  icache : AMap (List Byte)         -- instruction cache: blocks of 32 bytes, by physical block
  copyPend : List CopyPend          -- issued, oldest first
  copies : List CopyReq             -- accepted, oldest first, until their counts are removed
  promise : Dword                   -- the engine's previous promise
  copyFrozen : List Nat
  mx : Matrix
  incs : AMap Inc                   -- key context × 16 + k
  mags : AMap (List Nat)            -- key context × 32 + class; newest first
  refills : List DallocReq          -- oldest first
  perf : Perf
  subs : AMap Subscription          -- by slot
  subSeq : Nat
  pulled : List Nat                 -- lines that stream controllers have written and no gang has acquired since (R338, R344)
  vacated : List (Nat × Nat)        -- requests in force: victim and urgent context (R398)
  mxSaved : List Matrix             -- engine states scanned out (R404), each with its owner
  deriving DecidableEq, Repr

/-! ## Contexts, groups, queues -/

/-- R307, R308. -/
structure Heap where
  base : Nat
  slabs : Nat
  carved : List Nat                 -- class of each carved slab, ascending
  alloc : AMap Bool                 -- allocation bits by block address
  free : AMap (List Nat)            -- free list by class
  deriving DecidableEq, Repr

/-- R189: an overflow segment. -/
structure Segment where
  base : Nat
  cap : Nat                         -- records it holds
  recs : List Rec                   -- oldest first
  head : Nat
  deriving DecidableEq, Repr

/-- R436. -/
structure Break where
  hdr : Dword
  ord : Word
  on : Bool
  deriving DecidableEq, Repr

/-- R449, R450. -/
structure Log where
  base : Nat
  size : Nat
  fill : Nat
  closed : Bool
  deriving DecidableEq, Repr

structure Ctx where
  root : Nat
  partition : BitVec 48
  heap : Heap
  arena : Nat                       -- private arena: base and size
  arenaSize : Nat
  segs : AMap Segment               -- by core
  saveArea : Nat                    -- save area: base and size
  saveSize : Nat
  ready : Bool                      -- every item of R423 is set
  incs : AMap Inc                   -- homes, by k
  system : BitVec 16
  modules : List Nat
  log : Option Log
  breaks : List Break
  safemaps : List (Dword × Dword)
  launches : AMap Launch
  deriving DecidableEq, Repr

/-- R372, R377: a member of a collective group. -/
structure Member where
  cluster : Nat
  crew : Nat
  handle : Word
  next : Nat
  deriving DecidableEq, Repr

/-- R377, R378: a collective request of one member; `srcOld` holds its send buffer as it stood when the request could
start, and `hits` what others have written of its receive buffer since, from which the bounds of R380 follow. -/
structure CReq where
  k : Nat
  id : Nat
  gang : Nat
  act : BitVec 64
  core : Nat
  crew : Nat
  started : Bool                    -- what its gang issued before it has been performed (R380)
  srcLen : Nat
  srcOld : List Byte
  dstLen : Nat
  hits : List Nat                   -- bytes of its receive buffer, by address, that others have written since issue
  cluster : Nat
  op : Nat                          -- OP, V, T and M, as compared
  ty : Ty
  red : Red
  rm : Rm
  sat : Bool
  cnt : Nat
  src : Nat
  dst : Nat
  deriving DecidableEq, Repr

structure Group where
  ctx : Nat
  mask : BitVec 48
  tag : Word
  members : List Member
  dissolved : Bool
  reqs : List CReq
  status : List (Nat × Nat × Nat)   -- member cluster, k, status
  deriving DecidableEq, Repr

/-- R407, R428, R429: a queue. Its state word stands in the descriptor, in memory. -/
structure Queue where
  ctx : Nat
  desc : Dword
  ring : Dword
  nent : Nat
  rdptr : Word
  wake : Dword
  waddr : Dword
  wval : Dword
  erraddr : Dword
  tol : Nat
  mapped : Bool
  step : Nat                        -- steps of an unmapping that have been made (R408)
  held : Bool                       -- a wake the slot holds unconsumed
  poked : Bool                      -- a wake has been written (R429) and has not arrived yet
  runnable : Bool                   -- unmapped, and Zalner treats it as runnable (R409)
  fetched : Option (Launch × List (Nat × Inc))   -- the packet checked and not yet accepted (R184)
  prev : Option Nat                 -- the previous launch of the queue (R180)
  deriving DecidableEq, Repr

/-- R188: a message of the steal network. -/
inductive StealMsg where
  | request (thief victim ctx : Nat)
  | refusal (thief : Nat)
  | records (thief : Nat) (recs : List Rec)
  deriving DecidableEq, Repr

/-- R430: a connection and its windows. -/
structure Conn where
  ctx : Nat
  windows : List Window
  ring : Option (Nat × Nat)         -- posted receive ring: base and size
  fill : Nat                        -- the place in it after the latest byte delivered
  frozen : Bool
  closed : Bool
  naks : Nat
  reply : List Byte                 -- data of the latest read
  queued : List Instr               -- operations not yet performed, in posting order
  deriving DecidableEq, Repr

/-- R414 to R418. -/
structure Island where
  point : Nat
  st : Nat                          -- S0 to S3
  exiting : Bool
  draw : Nat                        -- its draw at the latest measurement, in milliwatts (R420)
  deriving DecidableEq, Repr

/-- R420. -/
structure Power where
  cap : Nat                         -- watts
  window : List Nat                 -- the latest measurements, in milliwatts, newest first
  under : Nat                       -- measurements for which the average has stayed 10% below the cap
  limited : Bool                    -- the memory request rate is limited
  lowered : List Nat                -- islands lowered, latest first
  deriving DecidableEq, Repr

/-- R421, R422. -/
structure Boot where
  done : Nat                        -- stages run
  recovery : Bool
  meas : List (BitVec 512)          -- the four measurement registers
  versions : List Word
  reports : List (List Byte)
  deriving DecidableEq, Repr

/-- R402, R434, R446: the saved image of a gang that waits in `ckpt.hold`, with its crew's and the engine's. -/
structure Image where
  taken : Nat                       -- the model's own: the step at which it was taken
  gang : Gang
  crewKey : Nat
  crew : Crew
  bytes : AMap Byte
  descs : AMap (BitVec 16)
  subs : AMap Subscription          -- the crew's, by slot
  members : List (Nat × Member)     -- its memberships, by group
  mx : Option Matrix                -- the context's state in the core's engine
  deriving DecidableEq, Repr

/-- R426: a leaf or node of the run tree. -/
structure RunNode where
  parent : Option Nat
  weight : Nat
  vtime : Rat                       -- its virtual time, in ns
  queue : Option Nat
  thread : Option Nat
  deriving DecidableEq, Repr

/-- R432: the PTP time in ns, with the sevenths of a ns beyond it, and by port the latest message's time and its hardware stamp. -/
structure Ptp where
  time : Dword
  frac : Nat
  stamps : AMap (Dword × Dword)
  deriving DecidableEq, Repr

/-- R434: a fault as Zalner reports it, with each island's point, state and draw. -/
structure JobFault where
  job : Nat
  why : Failure
  islands : List Island
  deriving DecidableEq, Repr

/-- The issue under way: the gang, its issuing group, and the PC. -/
structure Issue where
  gang : Nat
  group : BitVec 64
  pc : Pc
  deriving DecidableEq, Repr

/-- The whole device. -/
structure State where
  clk : Dword
  mem : AMap Byte
  desc : AMap (BitVec 16)
  gangs : AMap Gang
  gone : AMap Gang                  -- gangs that have ended while copies of theirs are under way, for their replay logs (R447)
  crews : AMap Crew
  ens : AMap Ensemble
  cores : AMap Core
  ctxs : AMap Ctx
  ctlb : AMap (List TlbEnt)         -- cluster TLBs
  walks : AMap Walk
  reqs : List Req                   -- in the order of arrival at their stage
  ops : AMap MemOp
  peers : List PeerReq
  statuses : List Nat               -- operations of `launch` whose status has not come back (R214)
  l2 : List Nat                     -- lines present at their homes
  fills : List Nat                  -- lines being filled from HBM
  rdc : AMap (AMap Byte)            -- by die
  rdcDesc : AMap (AMap (BitVec 16))
  incMsgs : List IncMsg
  bcasts : AMap Bcast
  groups : AMap Group
  joins : AMap Nat                  -- join sequence by cluster (R376)
  steals : AMap StealMsg
  queues : AMap Queue
  conns : AMap Conn
  links : List (Nat × Nat)          -- die-to-die links that have failed
  resent : AMap Nat                 -- retransmissions by link, source × 4 + destination
  islands : AMap Island
  power : Power
  boot : Boot
  runTree : AMap RunNode
  ptp : Ptp
  reports : List Report
  ckpts : AMap Image                -- by gang key
  faults : List JobFault            -- reported for recovery (R434)
  inbox : List Instr                -- what outside parties do next, oldest first
  cur : Issue                       -- the issue under way (the model's own)
  nextId : Nat                      -- the model's own: ids of operations, gangs, crews
  fresh : Nat                       -- the model's own: the next free value
  seq : Nat                         -- the model's own: the next free choice
  deriving DecidableEq, Repr

/-- The reasons the MODEL stops. None is a fault of the device: those are traps and reports, next states. -/
inductive Fault where
  /-- Raised by every step of the device whose object is not there or not due (a reply nobody awaits, a wait
  that does not hold yet, a command naming an unknown context). The device makes no such step. Safe. -/
  | notEnabled
  /-- Raised by an instruction when no gang is issuing it. The device makes no such step. Safe. -/
  | noGang
  deriving DecidableEq, Repr

/-- No meaning for the instruction. -/
inductive Refusal where
  /-- Raised by an arm of `exec` that has no meaning yet. Safe. -/
  | notModelled (mnemonic : String)
  deriving DecidableEq, Repr

/-- R46, R17: a clear accumulator. -/
def Wide.zero : Wide := ⟨0, false, false, false⟩

/-- R345, R346: an engine no context holds. -/
def Matrix.reset : Matrix := ⟨none, [], [], [], [], [], [], []⟩

/-- R439: counters that no context holds. -/
def Perf.reset : Perf := ⟨none, [], [], [], 0, [], 0, 0, 0, 0, 0, 0, 0⟩

/-- A core after reset; R188 sets the steal state to CORE + 1. -/
def Core.reset (c : Nat) : Core :=
  { bins := [], unbinned := [], gangSeq := [], spawnSeq := []
    steal := ⟨BitVec.ofNat 16 (c + 1), 0, false, 0, 0⟩
    racq := [], spad := [], spadDesc := [], spadLog := [], l1 := [], l1Desc := [], uo := [], tlb := [], icache := []
    copyPend := [], copies := [], promise := 0, copyFrozen := [], mx := Matrix.reset, incs := [], mags := []
    refills := [], perf := Perf.reset, subs := [], subSeq := 0, pulled := [], vacated := [], mxSaved := [] }

/-- The machine right after reset: no context, no gang, nothing in transit; the firmware has not run. -/
def State.reset : State :=
  { clk := 0, mem := [], desc := [], gangs := [], gone := [], crews := [], ens := [], cores := [], ctxs := []
    ctlb := [], walks := [], reqs := [], ops := [], peers := [], statuses := [], l2 := [], fills := []
    rdc := [], rdcDesc := [], incMsgs := [], bcasts := [], groups := [], joins := []
    steals := [], queues := [], conns := [], links := [], resent := [], islands := []
    power := ⟨3200, [], 0, false, []⟩
    boot := ⟨0, false, List.replicate 4 0, [], []⟩
    runTree := [], ptp := ⟨0, 0, []⟩, reports := [], ckpts := [], faults := [], inbox := []
    cur := ⟨0, 0, 0⟩, nextId := 1, fresh := 0, seq := 0 }

end Sys2Proof.Machine
end

