-- ==== Sys2Proof/Machine/Flags.lean ====
section
/-! DEFINITION. The sticky flags of a fibre (01 R19, 02 R32). -/

namespace Sys2Proof.Machine

/-- R19: an instruction sets flags; only `setsr` of FST clears them. -/
def raise (fl : Flags) (f : Fibre) : Fibre := { f with fst := f.fst ||| fl }

/-- R114: under `.pk` both elements compute by the same rule, and their flags are ORed. -/
def packed2 (op : Dword → Dword × Flags) (x : Dword) : Dword × Flags :=
  let lo := op (x &&& 0xFFFF)
  let hi := op (x >>> 16 &&& 0xFFFF)
  (hi.1 <<< 16 ||| lo.1, lo.2 ||| hi.2)

/-- R114, for two and three sources. -/
def packedOp2 (pk : Bool) (op : Dword → Dword → Dword × Flags) (x y : Dword) : Dword × Flags :=
  if pk then
    let lo := op (x &&& 0xFFFF) (y &&& 0xFFFF)
    let hi := op (x >>> 16 &&& 0xFFFF) (y >>> 16 &&& 0xFFFF)
    (hi.1 <<< 16 ||| lo.1, lo.2 ||| hi.2)
  else op x y

def packedOp3 (pk : Bool) (op : Dword → Dword → Dword → Dword × Flags) (x y z : Dword) : Dword × Flags :=
  if pk then
    let lo := op (x &&& 0xFFFF) (y &&& 0xFFFF) (z &&& 0xFFFF)
    let hi := op (x >>> 16 &&& 0xFFFF) (y >>> 16 &&& 0xFFFF) (z >>> 16 &&& 0xFFFF)
    (hi.1 <<< 16 ||| lo.1, lo.2 ||| hi.2)
  else op x y z

end Sys2Proof.Machine
end

