-- ==== Sys2Proof/Machine/Operands.lean ====
section
/-! DEFINITION. The registers of a fibre and its gang, and what each kind of operand reads and writes
(01 R10 to R12, 03 R60 to R62, 12 R237). -/

namespace Sys2Proof.Machine

/-! ## Registers -/

/-- R237: which physical bank an access to the window reaches: the live bank, or the shadow while a proposal is open.
Outside `.proposal` both bits stay 0 and the window is ordinary (R235). -/
def winBank (f : Fibre) : Bool := f.psel != f.popen

/-- The word of vector register n. -/
def getV (f : Fibre) (n : Nat) : Word :=
  if n < 224 then find 0 n f.v else if winBank f then find 0 n f.bank1 else find 0 n f.bank0

def setV (n : Nat) (x : Word) (f : Fibre) : Fibre :=
  if n < 224 then { f with v := put 0 n x f.v }
  else if winBank f then { f with bank1 := put 0 n x f.bank1 }
  else { f with bank0 := put 0 n x f.bank0 }

/-- R10: the pair named by its even register. -/
def getV64 (f : Fibre) (n : Nat) : Dword := getV f (n + 1) ++ getV f n

def setV64 (n : Nat) (x : Dword) (f : Fibre) : Fibre :=
  setV (n + 1) (x.extractLsb' 32 32) (setV n (x.setWidth 32) f)

/-- R12: p7 reads as 1. -/
def getP (f : Fibre) (k : Nat) : Bool := k = 7 || f.p.getLsbD k

/-- R12: a write to p7 is discarded. -/
def setP (k : Nat) (b : Bool) (f : Fibre) : Fibre :=
  if k < 7 then
    let m : BitVec 7 := 1 <<< k
    { f with p := (f.p &&& ~~~m) ||| (if b then m else 0) }
  else f

def getWide (f : Fibre) (n : Fin 2) : Wide := if n = 0 then f.w0 else f.w1
def setWide (n : Fin 2) (x : Wide) (f : Fibre) : Fibre :=
  if n = 0 then { f with w0 := x } else { f with w1 := x }

/-- R11: the low 32 bits, or the whole, of a scalar register. -/
def getS (g : Gang) (n : Nat) : Dword := find 0 n g.s
def setS (n : Nat) (x : Dword) (g : Gang) : Gang := { g with s := put 0 n x g.s }

def lo32 (x : Dword) : Dword := x &&& 0xFFFFFFFF

/-! ## Constants and immediates -/

/-- R60: the integer of constant code k. -/
def icInt (k : Fin 64) : Int := (k.val : Int) - 32

/-- R61: the encodings of the float constants. -/
def fcTable : Ty → List Nat
  | .f64 => [0x3FE0000000000000, 0x3FF0000000000000, 0x4000000000000000, 0x4010000000000000,
      0xBFE0000000000000, 0xBFF0000000000000, 0xC000000000000000, 0xC010000000000000,
      0x0000000000000000, 0x3FE62E42FEFA39EF, 0x3FF71547652B82FE, 0x400921FB54442D18,
      0x3FD45F306DC9C883, 0x3FD0000000000000, 0x4020000000000000, 0xC020000000000000]
  | .f16 => [0x3800, 0x3C00, 0x4000, 0x4400, 0xB800, 0xBC00, 0xC000, 0xC400,
      0x0000, 0x398C, 0x3DC5, 0x4248, 0x3518, 0x3400, 0x4800, 0xC800]
  | .bf16 => [0x3F00, 0x3F80, 0x4000, 0x4080, 0xBF00, 0xBF80, 0xC000, 0xC080,
      0x0000, 0x3F31, 0x3FB9, 0x4049, 0x3EA3, 0x3E80, 0x4100, 0xC100]
  | _ => [0x3F000000, 0x3F800000, 0x40000000, 0x40800000, 0xBF000000, 0xBF800000, 0xC0000000, 0xC0800000,
      0x00000000, 0x3F317218, 0x3FB8AA3B, 0x40490FDB, 0x3EA2F983, 0x3E800000, 0x41000000, 0xC1000000]

/-- The format an operand is read in: a type, packed or not, or one of the 8-bit source formats of `cvt`. -/
structure RdFmt where
  f : Fmt
  pk : Bool
  deriving DecidableEq, Repr

def RdFmt.bits (r : RdFmt) : Nat :=
  match r.f with
  | .ty t => tyReg t
  | _ => 32

/-- R60: an integer as a value of the format; in a floating type the same integer, converted; an 8-bit format
rounds it once in mode rne. -/
def icVal (r : RdFmt) (k : Fin 64) : Dword :=
  let z := icInt k
  let fin : FVal := .fin (decide (z < 0)) z.natAbs 0
  match r.f with
  | .f8e4 => (fOut8 f8e4F .rne false fin).1
  | .f8e5 => (fOut8 f8e5F .rne false fin).1
  | .ty t =>
    if tyFloat t then
      let x := (fOut (tyF t) .rne fin).1
      if r.pk then x <<< 16 ||| x else x
    else if tyBits t = 64 then BitVec.ofInt 64 z
    else BitVec.ofNat 64 (BitVec.ofInt 32 z).toNat

/-- R61, R114. -/
def fcVal (r : RdFmt) (k : Fin 16) : Dword :=
  match r.f with
  | .ty t =>
    let x := BitVec.ofNat 64 ((fcTable t).getD k 0)
    if r.pk then x <<< 16 ||| x else x
  | _ => 0

/-- R62: an f32 pattern widened exactly to f64, a NaN keeping its sign, quiet bit and fraction. -/
def widenImm (w : Word) : Dword :=
  match fDec f32F (w.setWidth 64) with
  | .nan _ =>
    BitVec.ofNat 64 (w.toNat / 2 ^ 31 * 2 ^ 63 + 0x7FF * 2 ^ 52 + w.toNat % 2 ^ 23 * 2 ^ 29)
  | x => (fOut f64F .rne x).1

/-- R62: the immediate, by the operand's format and the instruction's length. -/
def immVal (r : RdFmt) (e : Ext) : Dword :=
  match e, r.f with
  | .none, _ => 0
  | .imm32 w, .ty .i64 | .imm32 w, .ty .b64 => w.signExtend 64
  | .imm32 w, .ty .f64 => widenImm w
  | .imm32 w, _ => w.setWidth 64
  | .ext64 lo hi, _ => if r.bits = 64 then hi ++ lo else lo.setWidth 64

/-! ## Reading -/

/-- The value of an operand for one fibre, as R10 to R12 and R60 to R62 lay down. -/
def rd (g : Gang) (e : Ext) (r : RdFmt) (f : Fibre) (o : Opnd) : Dword :=
  match o with
  | .v n => if r.bits = 64 then getV64 f n else (getV f n).setWidth 64
  | .s n => if r.bits = 64 then getS g n else lo32 (getS g n)
  | .p k => if getP f k then 1 else 0
  | .ic k => icVal r k
  | .fc k => fcVal r k
  | .imm => immVal r e
  | .w _ | .t _ => 0

def rdTy (t : Ty) : RdFmt := ⟨.ty t, false⟩

/-- R102: the offset: a vector register is 32 bits, sign-extended; otherwise an i64. -/
def rdOff (g : Gang) (e : Ext) (f : Fibre) (o : Opnd) : Dword :=
  match o with
  | .v n => (getV f n).signExtend 64
  | _ => rd g e (rdTy .i64) f o

/-- R106: the effective address. -/
def rdAddr (g : Gang) (e : Ext) (f : Fibre) (a b : Opnd) : Dword := rd g e (rdTy .n64) f a + rdOff g e f b

/-- A value that is the same for every fibre: a scalar register, a constant or the immediate (R321). -/
def rdUni (g : Gang) (e : Ext) (t : Ty) (o : Opnd) : Dword :=
  match o with
  | .s n => if tyReg t = 64 then getS g n else lo32 (getS g n)
  | .ic k => icVal (rdTy t) k
  | .imm => immVal (rdTy t) e
  | _ => 0

/-! ## Writing -/

/-- What one fibre's part of an instruction does: the fibre after it, the scalar registers it would write, and its
fault (cause and address), if it has one. -/
structure Lane where
  f : Fibre
  sc : List (Nat × Dword)
  fault : Option (Word × Dword)
  deriving DecidableEq, Repr

def Lane.ok (f : Fibre) : Lane := ⟨f, [], none⟩
def Lane.bad (f : Fibre) (cause : Word) (addr : Dword) : Lane := ⟨f, [], some (cause, addr)⟩

/-- R10 to R12: write a result of 32 or 64 bits to a destination. -/
def wr (bits : Nat) (o : Opnd) (x : Dword) (l : Lane) : Lane :=
  match o with
  | .v n => { l with f := if bits = 64 then setV64 n x l.f else setV n (x.setWidth 32) l.f }
  | .s n => { l with sc := l.sc ++ [(n.val, if bits = 64 then x else lo32 x)] }
  | .p k => { l with f := setP k (x.getLsbD 0) l.f }
  | _ => l

def wrTy (t : Ty) (o : Opnd) (x : Dword) (l : Lane) : Lane := wr (tyReg t) o x l
def wrP (o : Opnd) (b : Bool) (l : Lane) : Lane := wr 32 o (if b then 1 else 0) l
def wrFl (fl : Flags) (l : Lane) : Lane := { l with f := raise fl l.f }

/-- R14: the instruction is active for the fibre. -/
def guardOn (h : Hd) (f : Fibre) : Bool := getP f h.g != h.neg

/-- A mask of lanes. -/
def laneIn (m : BitVec 64) (i : Nat) : Bool := m.getLsbD i

/-- The lanes of a mask, ascending. -/
def lanesOf (m : BitVec 64) : List Nat := (List.range 64).filter fun i => m.getLsbD i

def maskOf (ls : List Nat) : BitVec 64 := ls.foldl (fun m i => m ||| 1 <<< i) 0

end Sys2Proof.Machine
end

