-- ==== Sys2Proof/Machine/Ops.lean ====
section
/-! DEFINITION. The named operations over the state: objects, bytes of memory, translation, taking a trap and
returning from one, and the issue of an instruction to a group of fibres. -/

namespace Sys2Proof.Machine

abbrev Outc := Host.Outcome State Fault Refusal

/-! ## Objects -/

def updGang (k : Nat) (f : Gang → Gang) (s : State) : State := { s with gangs := adj k f s.gangs }
def coreOf (s : State) (c : Nat) : Core := (look c s.cores).getD (Core.reset c)
def updCore (c : Nat) (f : Core → Core) (s : State) : State := { s with cores := ins c (f (coreOf s c)) s.cores }
def updCrew (k : Nat) (f : Crew → Crew) (s : State) : State := { s with crews := adj k f s.crews }
def updCtx (k : Nat) (f : Ctx → Ctx) (s : State) : State := { s with ctxs := adj k f s.ctxs }
def updOp (k : Nat) (f : MemOp → MemOp) (s : State) : State := { s with ops := adj k f s.ops }

/-- The launch a gang belongs to. -/
def launchOf (s : State) (ctx ltag : Nat) : Option Launch :=
  match look ctx s.ctxs with
  | some c => look ltag c.launches
  | none => none

def gangLaunch (s : State) (g : Gang) : Option Launch := launchOf s g.ctx g.ltag

/-- R174: a core's cluster and die. -/
def clusterOf (core : Nat) : Nat := core / 32
def dieOf (core : Nat) : Nat := core / 384

/-- A new number for an object; numbers are never used twice. -/
def freshId (s : State) : Nat × State := (s.nextId, { s with nextId := s.nextId + 1 })

/-- Assumption 9: the next value the spec leaves unpredictable. -/
def freshVal (s : State) : Dword × State := (Config.free s.fresh, { s with fresh := s.fresh + 1 })
def freshCoin (s : State) : Bool × State := (Config.coin s.fresh, { s with fresh := s.fresh + 1 })

/-- R439, R441: note n events of a code for a context on a core, in every counter that selects it and has not been
written in this cycle. -/
def perfCount (core ctx code n : Nat) (s : State) : State :=
  if (coreOf s core).perf.owner ≠ some ctx ∨ n = 0 then s
  else updCore core (fun c =>
    let hits := (List.range 16).filter fun k => find 0 k c.perf.sel = BitVec.ofNat 8 code && (look k c.perf.wrote).isNone
    { c with perf := { c.perf with now := hits.foldl (fun m k => put 0 k (find 0 k m + n) m) c.perf.now } }) s

/-- R439: a counter after n more events: COUNT modulo 2^48, and the sticky OVF. -/
def addEvents (n : Nat) (old : Dword) : Dword :=
  let cnt := low 48 old + n
  (if old.getLsbD 63 || 2 ^ 48 ≤ cnt then 2 ^ 63 else 0) ||| BitVec.ofNat 64 (cnt % 2 ^ 48)

/-- R441: a cycle ends: its events enter the counters, and so does what was written in it. -/
def Perf.endCycle (p : Perf) : Perf :=
  { p with ctr := p.wrote.foldl (fun m e => put 0 e.1 e.2 m) (p.now.foldl (fun m e => put 0 e.1 (addEvents e.2 (find 0 e.1 m)) m) p.ctr)
           now := [], wrote := [] }

/-! ## Fibres of a gang -/

/-- R155. -/
def ready (f : Fibre) : Bool := f.life = .live && f.wait.isNone && f.gwait.isNone
def ended (f : Fibre) : Bool := f.life = .empty || f.life = .ended
def notEnded (f : Fibre) : Bool := !ended f

def fibreAt (g : Gang) (i : Nat) : Option Fibre := g.fibres[i]?

/-- Change the fibres of a mask. -/
def onLanes (m : BitVec 64) (fn : Nat → Fibre → Fibre) (g : Gang) : Gang :=
  { g with fibres := g.fibres.mapIdx fun i f => if laneIn m i then fn i f else f }

/-- The lanes whose fibres satisfy a test. -/
def lanesWhere (t : Fibre → Bool) (g : Gang) : BitVec 64 :=
  maskOf ((List.range g.fibres.length).filter fun i => match fibreAt g i with | some f => t f | none => false)

/-- R14: the active fibres of a group. -/
def activeOf (h : Hd) (m : BitVec 64) (g : Gang) : BitVec 64 := m &&& lanesWhere (guardOn h) g

/-- The highest lane of a mask. -/
def topLane (m : BitVec 64) : Option Nat := (lanesOf m).getLast?

/-! ## Bytes -/

/-- Assumption 2: a byte that nothing has written reads as zero. -/
def memByte (s : State) (pa : Nat) : Byte := find 0 pa s.mem
def setByte (pa : Nat) (b : Byte) (s : State) : State := { s with mem := put 0 pa b s.mem }
def setBytes (bs : List (Nat × Byte)) (s : State) : State := bs.foldl (fun s x => setByte x.1 x.2 s) s
/-- R40: an unwritten sector holds the reset descriptor. -/
def resetDesc : BitVec 16 := 0x8000
def memDesc (s : State) (sector : Nat) : BitVec 16 := find resetDesc sector s.desc
def setDesc (sector : Nat) (d : BitVec 16) (s : State) : State := { s with desc := put resetDesc sector d s.desc }

/-- R6: little-endian. -/
def leNat : List Byte → Nat
  | [] => 0
  | b :: bs => b.toNat + 256 * leNat bs
def leBytes (n : Nat) (x : Nat) : List Byte := (List.range n).map fun i => BitVec.ofNat 8 (x / 256 ^ i)
def memNat (s : State) (pa n : Nat) : Nat := leNat (findAll 0 pa n s.mem)

/-- R327: a started request of a copy engine takes note of the bytes of its destination, in the scratchpad or in memory, that are
being written. -/
def CopyReq.touch (spad : Bool) (as : List Nat) (r : CopyReq) : CopyReq :=
  if r.started && !r.done && r.g2s = spad then
    { r with hits := r.hits ++ as.filter fun a => r.moves.any fun m =>
        let lo := if spad then m.scratch else m.pa
        decide (lo ≤ a) && decide (a < lo + m.n) }
  else r

/-- A byte of a core's scratchpad. -/
def spadByte (s : State) (core a : Nat) : Byte := find 0 a (coreOf s core).spad
/-- R380: and so does a collective request of a core. -/
def Group.touch (core : Nat) (as : List Nat) (g : Group) : Group :=
  { g with reqs := g.reqs.map fun r => if r.core = core then { r with hits := r.hits ++ as } else r }

def setSpad (core : Nat) (bs : List (Nat × Byte)) (s : State) : State :=
  let as := bs.map (·.1)
  { updCore core (fun c => { c with spad := bs.foldl (fun m x => put 0 x.1 x.2 m) c.spad
                                    spadLog := c.spadLog ++ [⟨bs, []⟩]
                                    copies := c.copies.map (CopyReq.touch true as) }) s with
    groups := s.groups.map fun g => (g.1, g.2.touch core as) }


/-- Distinct values, in the order they first appear. -/
def distinct : List Nat → List Nat
  | [] => []
  | x :: xs => x :: (distinct xs).filter (· ≠ x)

/-! ## Translation -/

/-- R256: memory of one die, and the part that is backed. -/
def dieBytes : Nat := 0x3000000000
def dieBacked : Nat := 0x2CB4178000
def homeDie (pa : Nat) : Nat := pa / dieBytes

/-- R256: a range that lies in memory and meets no hole. -/
def inMemory (base size : Nat) : Bool :=
  base / dieBytes < 4 && base % dieBytes + size ≤ dieBacked

/-- R265, R267: one step of a walk over entry e at a level. -/
inductive WalkStep where
  | fail (kind : Nat)
  | table (pa : Nat)
  | page (size pa : Nat) (r w x : Bool)
  deriving DecidableEq, Repr

def bitOf (n i : Nat) : Bool := n.testBit i

/-- R265: what an entry says. -/
def readEntry (level e : Nat) : WalkStep :=
  let frame := e / 2 ^ 15 % 2 ^ 29 * 2 ^ 15
  let size := e / 4 % 4
  let perm := e / 16 % 8
  if !bitOf e 0 then .fail 0
  else if e / 2 ^ 44 ≠ 0 ∨ e / 2 ^ 7 % 2 ^ 8 ≠ 0 then .fail 1
  else if !bitOf e 1 then
    if level = 3 ∨ size ≠ 0 ∨ perm ≠ 0 then .fail 1
    else if inMemory frame 0x8000 then .table frame else .fail 2
  else
    let page (n : Nat) : WalkStep :=
      if frame % n ≠ 0 then .fail 1
      else if inMemory frame n then .page n frame (bitOf e 4) (bitOf e 5) (bitOf e 6) else .fail 2
    if level = 2 ∧ size = 2 then page (2 ^ 30)
    else if level = 3 ∧ size = 0 then page (2 ^ 16)
    else if level = 3 ∧ size = 1 then page (2 ^ 21)
    else .fail 1

/-- R264: the entry's index at a level. -/
def walkIndex (level va : Nat) : Nat := va / 2 ^ (52 - 12 * level) % 4096

/-- R266: how many entries of a level form the group of a large page. -/
def entryGroup (level : Nat) : Nat := if level = 2 then 4 else if level = 3 then 32 else 1

/-- R266: the entry maps a page that its whole group forms. -/
def isLarge (level e : Nat) : Bool := match readEntry level e with | .page n .. => decide (2 ^ 16 < n) | _ => false

/-- R266: the entry that translates an address: the one it indexes; or, where that one maps a large page and others of its group
that do differ from it, an unpredictable one of them all (assumption 26). -/
def entryAt (s : State) (level table va : Nat) : Nat :=
  let n := entryGroup level
  let i := walkIndex level va
  let own := memNat s (table + 8 * i) 8
  if !isLarge level own then own
  else
    match ((List.range n).map fun j => memNat s (table + 8 * (i / n * n + j)) 8).filter fun e => e ≠ own && isLarge level e with
    | [] => own
    | es => (own :: es).getD (Config.entry s.fresh va % (es.length + 1)) own

/-- R264 to R267: the walk from a table on; `fuel` levels remain. The entries are read at their homes. -/
def walkFrom (s : State) (ctx va : Nat) : Nat → Nat → Except (Nat × Nat) TlbEnt
  | 0, _ => .error (1, 3)
  | fuel + 1, table =>
    let level := 3 - fuel
    match readEntry level (entryAt s level table va) with
    | .fail k => .error (k, level)
    | .table t => walkFrom s ctx va fuel t
    | .page size pa r w x => .ok ⟨ctx, va / size * size, size, pa, r, w, x, level⟩

/-- R264, R267: a whole walk; a failure carries XKIND and XLEVEL. -/
def walk (s : State) (ctx va : Nat) : Except (Nat × Nat) TlbEnt :=
  match look ctx s.ctxs with
  | none => .error (2, 0)
  | some c => if inMemory c.root 0x8000 then walkFrom s ctx va 3 c.root else .error (2, 0)

def TlbEnt.covers (ctx va : Nat) (e : TlbEnt) : Bool := e.ctx = ctx && e.va ≤ va && va < e.va + e.size

/-- R384: the cause codes. -/
def cILLEGAL : Nat := 0x01
def cBADLEN : Nat := 0x02
def cNOREG : Nat := 0x03
def cMISALIGN : Nat := 0x04
def cXLATE : Nat := 0x05
def cPROT : Nat := 0x06
def cRANGE : Nat := 0x07
def cOPFORMAT : Nat := 0x08
def cPSTATE : Nat := 0x09
def cPROMISE : Nat := 0x0A
def cALLOC : Nat := 0x0B
def cSPAWNOVF : Nat := 0x0C
def cREGDEADLOCK : Nat := 0x0D
def cTROUPE : Nat := 0x0E
def cROLE : Nat := 0x0F
def cSYMSTORE : Nat := 0x10
def cSWTRAP : Nat := 0x11
def cBREAK : Nat := 0x12
def cSTACKOVF : Nat := 0x13

/-- R385: the TCAUSE word. -/
def causeWord (code sub xkind xlevel : Nat) (dec : Bool) : Word :=
  BitVec.ofNat 32 (code + 2 ^ 8 * sub + 2 ^ 12 * xkind + 2 ^ 14 * xlevel + if dec then 2 ^ 16 else 0)
def cause (code : Nat) : Word := causeWord code 0 0 0 false
def causeSub (code sub : Nat) : Word := causeWord code sub 0 0 false

def needR : Need := ⟨true, false, false⟩
def needW : Need := ⟨false, true, false⟩
def needRW : Need := ⟨true, true, false⟩
def needX : Need := ⟨false, false, true⟩
def needNone : Need := ⟨false, false, false⟩

def Need.met (n : Need) (e : TlbEnt) : Bool := (!n.r || e.r) && (!n.w || e.w) && (!n.x || e.x)

/-- The outcome of a translation: an address, a fault with its TCAUSE word, or a walk that must be made first. -/
inductive Tr where
  | pa (a : Nat)
  | bad (cause : Word)
  | miss
  deriving DecidableEq, Repr

/-- R267: a translation once found, checked for the permission. -/
def useEnt (n : Need) (va : Nat) (e : TlbEnt) : Tr :=
  if n.met e then .pa (e.pa + (va - e.va)) else .bad (causeWord cPROT 0 3 e.level false)

/-- R269: the two TLBs that serve a core. -/
def tlbOf (s : State) (core : Nat) : List TlbEnt :=
  (coreOf s core).tlb ++ (look (clusterOf core) s.ctlb).getD []

/-- R269: translate for a gang: from the TLBs, or from the failures its finished walks have found. -/
def translate (s : State) (g : Gang) (n : Need) (va : Nat) : Tr :=
  match (tlbOf s g.core).find? (TlbEnt.covers g.ctx va) with
  | some e => useEnt n va e
  | none =>
    match g.walkFaults.find? fun w => w.1.toNat = va with
    | some w => .bad (causeWord (if w.2.1 = 3 then cPROT else cXLATE) 0 w.2.1 w.2.2 false)
    | none => .miss

/-- Translate by a walk made at once, for the agents that are not gangs; R264: an address has 52 bits. -/
def translateNow (s : State) (ctx : Nat) (n : Need) (va : Nat) : Tr :=
  if 2 ^ 52 ≤ va then .bad (cause cRANGE)
  else match walk s ctx va with
  | .ok e => useEnt n va e
  | .error (k, l) => .bad (causeWord cXLATE 0 k l false)

/-- R269: a cached translation that the tables no longer give. -/
def staleTlb (s : State) (e : TlbEnt) : Bool :=
  match walk s e.ctx e.va with
  | .ok x => decide (x ≠ e)
  | .error _ => true

/-- R269: the old translations of an address that TLBs still hold. -/
def oldEnts (s : State) (ctx va : Nat) : List TlbEnt :=
  ((s.cores.flatMap fun c => c.2.tlb) ++ s.ctlb.flatMap (·.2)).filter fun e => e.covers ctx va && staleTlb s e

/-- R269: an access of an agent that is not a gang: by the tables, or, between their change and its invalidation, by an old
translation that a TLB still holds, unpredictably. -/
def reach (s : State) (ctx : Nat) (n : Need) (va : Nat) : Tr :=
  match if 2 ^ 52 ≤ va then [] else oldEnts s ctx va with
  | [] => translateNow s ctx n va
  | e :: _ => if Config.stale s.fresh (va / 65536) then useEnt n va e else translateNow s ctx n va

/-- R407, R429: what is written in memory is a wake of the queue: a write to its wake register, or one that raises the value at
WADDR to WVAL or above. -/
def wakes (s t : State) (as : List Nat) (u : Queue) : Bool :=
  let hit (va : Dword) (f : Nat → Bool) : Bool :=
    match translateNow s u.ctx needNone va.toNat with
    | .pa a => as.any (fun b => decide (a ≤ b) && decide (b < a + 8)) && f a
    | _ => false
  hit u.wake (fun _ => true)
    || (u.waddr ≠ 0 && hit u.waddr fun a => decide (memNat s a 8 < u.wval.toNat) && decide (u.wval.toNat ≤ memNat t a 8))

/-! ## Loads that a write meets (R108, R148) -/

def mapReqs (f : Req → Req) (s : State) : State := { s with reqs := s.reqs.map f }

def setStage (id : Nat) (st : Stage) (s : State) : State :=
  mapReqs (fun r => if r.id = id then { r with stage := st } else r) s

def isRead (r : Req) : Bool := match r.act with | .read .. => true | _ => false

/-- R108: the bytes of a request's accesses that are single-copy atomic. -/
def reqUnit (s : State) (r : Req) : Nat :=
  match r.act with
  | .atomic _ | .merge _ => 8
  | _ => ((look r.op s.ops).map (·.unit)).getD 4

/-- The bytes of one list where another writes them; of two writes of a byte the later stands. -/
def overlay (w bs : List (Nat × Byte)) : List (Nat × Byte) :=
  bs.map fun x => ((w.reverse.find? fun b => b.1 = x.1).map fun b => (x.1, b.2)).getD x

/-- Each of some numbers, or not, unpredictably. -/
def pickSome : List Nat → State → List Nat × State
  | [], s => ([], s)
  | n :: ns, s =>
    let (c, s) := freshCoin s
    let r := pickSome ns s
    (if c then n :: r.1 else r.1, r.2)

/-- R108: an access of words of `ul` bytes takes the 8 bytes at 8x anew while the words of a write `w` of `uw` bytes, of memory
as it was in `old`, are performed. An 8-byte access sees them all at one instant; the caches are filled with them as they then
stand, so that they never hold part of a strong 8-byte write. -/
def retake (old : State) (ul uw : Nat) (w : List (Nat × Byte)) (a : Answer) (x : Nat) (s : State) : Answer × State :=
  let unit := Nat.min ul uw
  let mine := w.filter fun b => b.1 / 8 = x
  let r := pickSome (distinct (mine.map fun b => b.1 / unit)) s
  if r.1 = [] then (a, r.2)
  else
    let done := if uw = 8 then mine else mine.filter fun b => r.1.contains (b.1 / unit)
    let home := overlay done ((List.range 8).map fun i => (8 * x + i, memByte old (8 * x + i)))
    ({ a with bytes := overlay (if ul = 8 then home else home.filter fun b => r.1.contains (b.1 / unit)) a.bytes
              fill := overlay home a.fill }, r.2)

/-- R108, R148: the words of an access are performed one by one: a load of the line that has been performed and has not come
back may still see each word of a write that is performed now, unless a later request of its core to the line has been
performed since (R274). -/
def meetLoads (unit : Nat) (old : State) (w : List (Nat × Byte)) (s : State) : State :=
  (s.reqs.filter fun q => isRead q && !q.shut && w.any fun b => b.1 / 128 = q.line).foldl (fun s q =>
    let again (a : Answer) : Answer × State :=
      (distinct ((w.filter fun b => a.bytes.any fun x => x.1 = b.1).map fun b => b.1 / 8)).foldl
        (fun r x => retake old (reqUnit s q) unit w r.1 x r.2) (a, s)
    match q.stage with
    | .filled a => let r := again a; setStage q.id (.filled r.1) r.2
    | .answered a => let r := again a; setStage q.id (.answered r.1) r.2
    | _ => s) s

/-- Write bytes of memory at their homes, `unit` of them at one instant: the one write of memory by programs and devices. The loads
under way meet it, and the copy engines and the queues take note of it. -/
def writeHome (unit : Nat) (bs : List (Nat × Byte)) (s : State) : State :=
  let as := bs.map (·.1)
  let t := setBytes bs s
  meetLoads unit s bs
    { t with cores := t.cores.map fun c => (c.1, { c.2 with copies := c.2.copies.map (CopyReq.touch false as) })
             queues := t.queues.map fun u => (u.1, { u.2 with poked := u.2.poked || wakes s t as u.2 }) }

/-- The bytes of a virtual range, read at their homes; none when a byte cannot be read. -/
def readVirt (s : State) (ctx : Nat) (n : Need) (va len : Nat) : Option (List Byte) :=
  (List.range len).mapM fun i =>
    match reach s ctx n (va + i) with
    | .pa a => some (memByte s a)
    | _ => none

def virtNat (s : State) (ctx : Nat) (va len : Nat) : Option Nat := (readVirt s ctx needR va len).map leNat

/-- R269: between a change of the tables and its invalidation, an access uses the old translation or the new one,
unpredictably: before a gang's turn each old one that serves its core may go. -/
def dropStale (core : Nat) (s : State) : State :=
  ((tlbOf s core).filter (staleTlb s)).foldl (fun s e =>
    let (gone, s) := freshCoin s
    if gone then
      updCore core (fun c => { c with tlb := c.tlb.filter (· ≠ e) })
        { s with ctlb := adj (clusterOf core) (fun l => l.filter (· ≠ e)) s.ctlb }
    else s) s

/-! ## The instruction cache (R3, R250) -/

/-- The words of a fetch come in blocks of 32 bytes. -/
def blockOf (pa : Nat) : Nat := pa / 32
def homeBlock (s : State) (b : Nat) : List Byte := findAll 0 (32 * b) 32 s.mem

/-- An instruction word as a core fetches it: from its instruction cache, or else from the home. -/
def instrWord (s : State) (core pa : Nat) : Word :=
  match look (blockOf pa) (coreOf s core).icache with
  | some bs => BitVec.ofNat 32 (leNat ((bs.drop (pa % 32)).take 4))
  | none => BitVec.ofNat 32 (memNat s pa 4)

/-- R3: 64 KiB. -/
def icBlocks : Nat := 2048

/-- Fetching from a block brings it into the instruction cache, in place of an unpredictable one when that is full; an old
copy may have left the cache since, and come back as the home now holds it (assumption 25). -/
def fetchBlock (core b : Nat) (s : State) : State :=
  match look b (coreOf s core).icache with
  | some bs =>
    if bs = homeBlock s b then s
    else
      let (gone, s) := freshCoin s
      if gone then updCore core (fun c => { c with icache := ins b (homeBlock s b) c.icache }) s else s
  | none =>
    let n := (coreOf s core).icache.length
    let (v, s) := if n < icBlocks then (0, s) else freshVal s
    updCore core (fun c =>
      { c with icache := ins b (homeBlock s b) (if n < icBlocks then c.icache else c.icache.eraseIdx (v.toNat % n)) }) s

/-- R269: start the walks a held instruction needs, each once. -/
def startWalks (k : Nat) (g : Gang) (need : Need) (vas : List Nat) (s : State) : State :=
  vas.foldl (fun s va =>
    if s.walks.any fun w => w.2.gang = k && w.2.va.toNat = va then s
    else
      let (id, s) := freshId s
      perfCount g.core g.ctx 9 1 { s with walks := ins id ⟨g.core, g.ctx, k, BitVec.ofNat 64 va, need⟩ s.walks }) s

/-! ## Traps -/

/-- R316, R387: a fault is raised only for fibres that have not ended and are not parked. -/
def liveRecs (g : Gang) (recs : List TrapRec) : List TrapRec :=
  recs.filter fun r => match fibreAt g r.lane with | some f => f.life = .live | none => false

/-- R386: one trap is taken per faulting issue: of the records of live fibres, those of the gang's earliest issue. -/
def dueRecs (g : Gang) : List TrapRec :=
  let rs := liveRecs g g.pend
  let li (r : TrapRec) : Nat := ((fibreAt g r.lane).map (·.li)).getD 0
  rs.filter fun r => rs.all fun q => decide (li r ≤ li q)

/-- R387, R393: the records that stay due when the fibres of a mask take a trap: those of other fibres that have not ended. -/
def restRecs (m : BitVec 64) (g : Gang) : List TrapRec :=
  g.pend.filter fun r => !laneIn m r.lane && (fibreAt g r.lane).any notEnded

def recMask (recs : List TrapRec) : BitVec 64 := maskOf (recs.map (·.lane))

/-- R394: a gang that has no handler, or whose trap stack is full, is frozen and reported. -/
def escalate (k : Nat) (g : Gang) (recs : List TrapRec) (s : State) : State :=
  let first := recs.head?
  let rep : Report :=
    { master := some (.gang k), ctx := g.ctx
      cause := if g.tvec = 0 then (first.map (·.cause)).getD 0 else cause cSTACKOVF
      addr := (first.map (·.addr)).getD 0, own := recs }
  { updGang k (fun g => { g with frozen := some rep, pend := restRecs (recMask recs) g }) s with reports := s.reports ++ [rep] }

/-- R386: push a frame, and start the handler on the faulting fibres. -/
def pushFrame (recs : List TrapRec) (g : Gang) : Gang :=
  let f := recMask recs
  let others := lanesWhere (fun x => x.life = .live) g &&& ~~~f
  let fr : Frame :=
    { tmask := f, recs := recs, pcs := g.fibres.mapIdx fun i x => (i, x.pc)
      parked := others, returned := 0, age := g.age, esc := g.esc }
  let g := { g with frames := fr :: g.frames, pend := restRecs f g, latch := [], age := 0, esc := none }
  let g := onLanes others (fun _ x => { x with life := .parked }) g
  onLanes f (fun _ x => { x with life := .live, wait := none, gwait := none, pc := g.tvec }) g

/-- R386, R394: take the trap for the fibres of these records: ONE operation for every trap of the device. -/
def takeTrapRecs (k : Nat) (recs : List TrapRec) (s : State) : State :=
  match look k s.gangs with
  | none => s
  | some g =>
    match liveRecs g recs with
    | [] => updGang k (fun g => { g with pend := restRecs 0 g }) s
    | r :: rs =>
      if g.frozen.isSome then s
      else if g.tvec = 0 ∨ g.frames.length = 4 then escalate k g (r :: rs) s
      else perfCount g.core g.ctx 0x0D 1 (updGang k (pushFrame (r :: rs)) s)

/-- R69, R382: a decode-class fault of a group. -/
def decodeTrap (k : Nat) (group : BitVec 64) (pc : Pc) (c : Word) (addr : Dword) (s : State) : State :=
  takeTrapRecs k ((lanesOf group).map fun i => ⟨i, c ||| 0x10000, addr, pc⟩) s

/-- R389: every fibre of a frame that was parked by it or has returned runs again; AGE and E come back. -/
def popFrame (g : Gang) : Gang :=
  match g.frames with
  | [] => g
  | fr :: frs =>
    let g := { g with frames := frs, age := fr.age, esc := fr.esc }
    onLanes (fr.parked ||| fr.returned) (fun _ x => if x.life = .parked then { x with life := .live } else x) g

/-- R389: the frame's fibres have all returned or ended. -/
def frameDone (g : Gang) (fr : Frame) : Bool :=
  (lanesOf fr.tmask).all fun i => laneIn fr.returned i ||
    match fibreAt g i with | some f => ended f | none => true

/-- R389, R318: pop the frames whose fibres are all gone; at most four. -/
def popDone : Nat → Gang → Gang
  | 0, g => g
  | n + 1, g =>
    match g.frames with
    | [] => g
    | fr :: _ => if frameDone g fr then popDone n (popFrame g) else g

/-- R385: the record of a lane in the top frame. -/
def topRec (g : Gang) (i : Nat) : Option TrapRec :=
  match g.frames with
  | [] => none
  | fr :: _ => fr.recs.find? fun r => r.lane = i

/-- R385: the PC a lane returns to. -/
def topPc (g : Gang) (i : Nat) : Pc :=
  match g.frames with
  | [] => 0
  | fr :: _ =>
    match fr.recs.find? fun r => r.lane = i with
    | some r => r.tpc
    | none => ((fr.pcs.find? fun p => p.1 = i).map (·.2)).getD 0

/-- R389: return these fibres to their TPC, and pop the frame when it was the last of them. -/
def trapReturn (m : BitVec 64) (g : Gang) : Gang :=
  match g.frames with
  | [] => g
  | fr :: frs =>
    let g := onLanes m (fun i x => { x with pc := topPc g i, life := .parked }) g
    popDone 4 { g with frames := { fr with returned := fr.returned ||| m } :: frs }

/-! ## Safe points -/

/-- R435: scan a kernel's records, of 64 bytes each, for the one at an offset. -/
def scanSafe (s : State) (ctx va off kern : Nat) : Nat → Nat → Option Word
  | 0, _ => none
  | fuel + 1, j =>
    match virtNat s ctx (va + 64 * j) 64 with
    | none => none
    | some n =>
      if n / 2 ^ 64 % 2 ^ 32 ≠ j ∨ n / 2 ^ 96 % 2 ^ 16 ≠ kern then none
      else if n % 2 ^ 64 = off then some (BitVec.ofNat 32 j)
      else scanSafe s ctx va off kern fuel (j + 1)

/-- R435: the ordinal of an instruction of a launch at a PC, its stop bit being set; all ones when it has none. R83 numbers
the kernels, and a launch carries no such number: the records from SAFEMAP on that bear the KERN of the first are taken as
the kernel's (assumption 72). -/
def ordinalAt (s : State) (g : Gang) (pc : Pc) : Word :=
  match look g.ctx s.ctxs, gangLaunch s g with
  | some c, some l =>
    match c.safemaps.find? fun m => m.1 = l.pkt.text with
    | none => BitVec.allOnes 32
    | some m =>
      let base := (m.2 + l.hd.safemap).toNat
      let kern := ((virtNat s g.ctx base 64).getD 0) / 2 ^ 96 % 2 ^ 16
      (scanSafe s g.ctx base ((pc.setWidth 64 - (l.pkt.text + l.hd.entry)).toNat) kern 4294967296 0).getD (BitVec.allOnes 32)
  | _, _ => BitVec.allOnes 32

/-! ## Issue -/

/-- Which of the gang's counters an instruction adds to (R111, R210, R211, R293, R300, R304, R306, R326, R349). -/
inductive CtrKind where
  | none | ld | st | cp | mt
  deriving DecidableEq, Repr

/-- The lanes' in-flight registers that an instruction names, as R21 makes it wait for them. -/
def useHits (g : Nat) (group : BitVec 64) (i : Instr) (o : MemOp) : Bool :=
  o.gang = g && o.regs.any fun r =>
    (uses i).any fun u =>
      match u.o with
      | .v n => r.1 < 64 && laneIn group r.1 && n.val ≤ r.2 && r.2 < n.val + u.vn
      | .s n => r.1 = 64 && n.val ≤ r.2 && r.2 < n.val + u.sn
      | .w n => r.1 < 64 && laneIn group r.1 && r.2 = 256 + n.val
      | _ => false

/-- R237: a switch of banks waits for writes still on their way to the window. -/
def windowHit (g : Nat) (group : BitVec 64) (o : MemOp) : Bool :=
  o.gang = g && o.regs.any fun r => r.1 < 64 && laneIn group r.1 && 224 ≤ r.2 && r.2 < 256

def isWindowSwitch : Instr → Bool
  | .popen .. | .accept .. | .pclose .. => true
  | _ => false

/-- R21: some register the instruction reads or writes still awaits an earlier instruction's result. -/
def regsPending (s : State) (k : Nat) (group : BitVec 64) (i : Instr) : Bool :=
  s.ops.any fun o => useHits k group i o.2 || (isWindowSwitch i && windowHit k group o.2)

/-- R111, R326, R349. -/
def ctrFull (c : CtrKind) (g : Gang) : Bool :=
  match c with
  | .none => false
  | .ld => g.ldcnt = 63
  | .st => g.stcnt = 63
  | .cp => g.cpcnt = 31
  | .mt => g.mtcnt = 7

/-- R13: the highest vector register named, as a count. -/
def topReg (i : Instr) : Nat :=
  (uses i).foldl (fun m u => match u.o with | .v n => Nat.max m (n.val + u.vn) | _ => m) 0

def namesWide (i : Instr) : Bool := (uses i).any fun u => match u.o with | .w _ => true | _ => false

/-- R334: the class of an instruction's opcode, named by the class's first opcode; 0x10 stands for the common class. -/
def roleClass : Instr → Nat
  | .racq .. => 0x77
  | .rrel .. => 0x78
  | .fadd .. | .fsub .. | .fmul .. | .ffma .. | .fnfma .. | .fdiv .. | .fsqrt .. | .frcp .. | .frsq .. | .fmin ..
  | .fmax .. | .fabs .. | .fneg .. | .fsetp .. | .fclass .. | .frnd .. | .fcpsgn .. | .fscale .. | .fexpo ..
  | .fmant .. | .f2sum .. | .f2prod .. | .fdot2 .. | .fpfma .. | .cvt .. | .pack .. | .unpk .. | .qnt ..
  | .qntIns .. | .fexp2 .. | .flog2 .. | .rand .. | .seed .. | .wclr .. | .wclrStat .. | .wadd .. | .wsub ..
  | .wmul2 .. | .wmul3 .. | .wsgn .. | .wrnd .. | .wmov .. | .wld .. | .wst .. => 0x30
  | .copyG2s .. | .copyS2g .. | .gath .. | .scat .. | .subs .. | .unsub .. => 0x90
  | .troupe .. | .mopf .. | .mma .. | .mld .. | .mst .. | .mcont .. | .wbload .. => 0x97
  | _ => 0x10

/-- R334: the opcodes a role's kind may issue (1 loader, 2 matrix, 3 vector), by its class. -/
def roleAllows (kind : Nat) (i : Instr) : Bool :=
  match roleClass i with
  | 0x30 => kind = 3
  | 0x90 => kind = 1
  | 0x97 => kind = 2
  | 0x77 | 0x78 => false
  | _ => true

/-- R69: the decode-class fault of a legal word that depends on the gang: ILLEGAL (R13, R235, R389), NOREG, ROLE. -/
def decodeFault (s : State) (g : Gang) (i : Instr) : Option Nat :=
  let l := gangLaunch s g
  let wide := (l.map (·.hd.wide)).getD false
  let prop := (l.map (·.hd.prop)).getD false
  let tret := match i with | .tret _ => true | _ => false
  if (namesWide i && !wide) || (isWindowSwitch i && !prop) || (tret && g.frames.isEmpty) then some cILLEGAL
  else if 64 * (g.held + 1) < topReg i || (isWindowSwitch i && g.held < 3) then some cNOREG
  else
    let roleK := match i with
      | .role _ k =>
        (match l with | some l => decide (l.roles.length ≤ k.val) | none => true)
      | _ => false
    let kindBad := match g.role, l with
      | some r, some l => (match l.roles[r]? with | some d => !roleAllows d.kind i | none => false)
      | _, _ => false
    if roleK || kindBad then some cROLE else none

/-- R159: the group is part of an escalation under way. -/
def escActive (g : Gang) : Bool :=
  match g.esc with
  | none => false
  | some e => (lanesOf e.lanes).any fun i => match fibreAt g i with | some f => ready f | none => false

/-- The lowest PC of some ready fibres. -/
def lowestPc (g : Gang) (m : BitVec 64) : Option Nat :=
  ((lanesOf m).filterMap fun i => match fibreAt g i with
    | some f => if ready f then some f.pc.toNat else none
    | none => none).min?

def allLanes : BitVec 64 := BitVec.allOnes 64

/-- R156, R159: the issuing group and its PC, among the lanes of a mask; the escalated fibres among them come first. -/
def chooseIn (m : BitVec 64) (g : Gang) : Option (BitVec 64 × Pc) :=
  let esc := m &&& if escActive g then (g.esc.map (·.lanes)).getD 0 else allLanes
  let pool := if (lowestPc g esc).isSome then esc else m
  match lowestPc g pool with
  | none => none
  | some pc => some (pool &&& lanesWhere (fun f => ready f && f.pc.toNat = pc) g, BitVec.ofNat 48 pc)

/-- R156, R159: the issuing group and its PC. -/
def chooseGroup (g : Gang) : Option (BitVec 64 × Pc) := chooseIn allLanes g

/-- The instructions whose D is also a source. -/
def readsD : Instr → Bool
  | .bfi .. | .qntIns .. | .st .. | .imageStore .. | .red .. | .sdesc .. | .wclrStat .. | .wadd .. | .wsub .. | .wmul2 ..
  | .wmul3 .. | .wmov .. | .wst .. => true
  | _ => false

/-- The source operands that stand in the fields A, B and C. -/
def srcFields (i : Instr) : List Use :=
  let rs := (uses i).filter fun u => !u.wr
  match i with
  | .barEsync .. | .barEarv .. => r32 [.ic] (.ic 32) :: rs
  | _ => if readsD i then rs.drop 1 else rs

/-- R66: the vector registers that HL names (1 A, 2 B, 3 C), where the operand is a vector register read as a source:
the first, and how many. -/
def heldReg (h : Hd) (i : Instr) : Option (Nat × Nat) :=
  if h.hold = 0 then none
  else
    match (srcFields i)[h.hold.val - 1]? with
    | some ⟨.v n, _, vn, _, _, _, _⟩ => some (n.val, vn)
    | _ => none

/-- R66: the instruction writes a register that the entry serves. -/
def latchHit (i : Instr) (e : Latch) : Bool :=
  (uses i).any fun u => u.wr && match u.o with
    | .v n => decide (n.val < e.reg + e.n) && decide (e.reg < n.val + u.vn)
    | _ => false

/-- R66: the operand latch: an entry serves the gang's next two instructions, a new one replaces the oldest of three, and
an entry falls when an instruction, its own among them, writes its register. -/
def latchAfter (h : Hd) (i : Instr) (l : List Latch) : List Latch :=
  let l := (l.map fun e => { e with left := e.left - 1 }).filter fun e => e.left ≠ 0
  let l := match heldReg h i with
    | some (n, k) => ((⟨n, k, 2⟩ : Latch) :: l.filter fun e => e.reg ≠ n ∨ e.n ≠ k).take 3
    | none => l
  l.filter fun e => !latchHit i e

/-- The bytes of an instruction. -/
def lenBytes (i : Instr) : Nat := lenBits i / 8

/-- R156, R159, R213: the gang's and its fibres' accounts of an issue, with every PC of the group moved past it. An issue that another
group makes while the escalated one is held back (R326, R349) is no escalated issue. -/
def noteIssue (i : Instr) (h : Hd) (group : BitVec 64) (pc : Pc) (g : Gang) : Gang :=
  let above := (lanesOf allLanes).any fun l => match fibreAt g l with
    | some f => ready f && decide (pc.toNat < f.pc.toNat)
    | none => false
  let g := if !escActive g then { g with esc := none, age := if above then g.age + 1 else 0 }
    else { g with esc := g.esc.map fun e => if e.lanes &&& group ≠ 0 then { e with n := e.n + 1 } else e }
  let g := { g with issues := g.issues + 1, latch := latchAfter h i g.latch }
  onLanes group (fun _ f =>
    { f with pc := pc + BitVec.ofNat 48 (lenBytes i), li := g.issues, defer := f.defer - 1 }) g

/-- R435: LORD of a gang that issues an instruction at a PC. -/
def noteLord (s : State) (h : Hd) (pc : Pc) (g : Gang) : Gang := if h.stop then { g with lord := ordinalAt s g pc } else g

def isTransfer : Instr → Bool
  | .br .. | .brx .. | .callLabel .. | .callRegister .. | .ret .. | .yield .. => true
  | _ => false

/-- R51, R157: where a fibre at this PC stands once it has passed the fill words. -/
def settledPc (s : State) (g : Gang) : Nat → Pc → Pc
  | 0, pc => pc
  | n + 1, pc =>
    match (match translate s g needX pc.toNat with | .miss => translateNow s g.ctx needX pc.toNat | r => r) with
    | .pa a =>
      if instrWord s g.core a = fillWord then settledPc s g n (BitVec.ofNat 48 (pc.toNat / 32 * 32 + 32)) else pc
    | _ => pc

/-- The PCs at which ready fibres of a gang stand. -/
def readyPcs (g : Gang) : List Pc :=
  g.fibres.foldl (fun acc f => if ready f && !acc.contains f.pc then acc ++ [f.pc] else acc) []

/-- R157: the gang with every ready fibre past its fill words (log 12). -/
def settledGang (s : State) (g : Gang) : Gang :=
  let past := (readyPcs g).map fun pc => (pc, settledPc s g 65536 pc)
  { g with fibres := g.fibres.map fun f =>
      if ready f then { f with pc := ((past.find? fun x => x.1 = f.pc).map (·.2)).getD f.pc } else f }

/-- R157: before the next choice. -/
def settleFills (k : Nat) (s : State) : State := updGang k (settledGang s) s

/-- R159: the fibre an escalation chooses: the smallest LI, and of equals the highest PC. -/
def starved (g : Gang) : Option Fibre :=
  match lowestPc g allLanes with
  | none => none
  | some p =>
    (g.fibres.filter fun f => ready f && f.pc.toNat ≠ p).foldl (fun best f =>
      match best with
      | none => some f
      | some b => if f.li < b.li ∨ (f.li = b.li ∧ b.pc.toNat < f.pc.toNat) then some f else some b) none

/-- R159: what follows the issue: the end of an escalation, and the start of one, by the PCs of R157. DESIGN CHOICE (assumptions 94, 95):
an issue that another group makes while the escalated one is held back leaves the escalation as it is; and where the issue
leaves the group's fibres at several PCs, each of them is the group's PC. -/
def afterIssue (s : State) (i : Instr) (group : BitVec 64) (g : Gang) : Gang :=
  let g := match g.esc with
    | none => g
    | some e =>
      if e.lanes &&& group = 0 then g
      else
      let v := settledGang s g
      let pcs := (lanesOf group).filterMap fun l => ((fibreAt v l).filter notEnded).map (·.pc)
      let meets := (List.range v.fibres.length).any fun l => match fibreAt v l with
        | some f => ready f && !laneIn e.lanes l && pcs.contains f.pc
        | none => false
      if isTransfer i || meets || !escActive g || e.n = 1024 then { g with esc := none, age := 0 } else g
  if g.esc.isNone && g.age = 1024 then
    let v := settledGang s g
    match starved v with
    | none => { g with age := 0 }
    | some c => { g with esc := some ⟨lanesWhere (fun f => ready f && f.pc = c.pc) v, 0⟩, age := 0 }
  else g

/-- R436: an enabled breakpoint of the gang's kernel names this ordinal. -/
def breakAt (s : State) (g : Gang) (ord : Word) : Bool :=
  match look g.ctx s.ctxs, gangLaunch s g with
  | some c, some l => c.breaks.any fun b => b.on && b.hdr = l.pkt.hdr && b.ord = ord
  | _, _ => false

/-- R438: TADDR of BREAK: the ordinal, NOSAFE where there is none, and TABLE for a table breakpoint. -/
def breakAddr (table : Bool) (ord : Word) : Dword :=
  ord.setWidth 64 + (if table then 2 ^ 32 else 0) + (if ord = BitVec.allOnes 32 then 2 ^ 33 else 0)

def breakRec (ord : Word) (i : Nat) (pc : Pc) : TrapRec := ⟨i, cause cBREAK, breakAddr true ord, pc⟩

/-- R436: the active fibres for which the instruction has performed take BREAK; for one that waits, it falls due when
the wait ends; one that faults takes its own cause. -/
def meetBreak (ord : Word) (act : BitVec 64) (g : Gang) : Gang :=
  let bad := recMask g.pend
  let waits := lanesWhere (fun f => f.wait.isSome || f.gwait.isSome) g
  let m := act &&& ~~~bad &&& lanesWhere notEnded g
  let recs := (lanesOf (m &&& ~~~waits)).filterMap fun i => (fibreAt g i).map fun f => breakRec ord i f.pc
  let g := onLanes (m &&& waits) (fun _ f =>
    { f with wait := f.wait.map fun w => { w with brk := some ord }
             gwait := f.gwait.map fun w => { w with brk := some ord } }) g
  { g with pend := g.pend ++ recs }

/-- Some `copy` of the gang has issued and is not yet accepted or faulted. -/
def copyPending (s : State) (k : Nat) (g : Gang) : Bool := (coreOf s g.core).copyPend.any fun c => c.gang = k

/-- R383: take the trap that an instruction's checks have found, once they are all resolved. -/
def settle (k : Nat) (s : State) : State :=
  match look k s.gangs with
  | none => s
  | some g => if g.pend = [] ∨ g.holdOps ≠ [] ∨ copyPending s k g then s else takeTrapRecs k (dueRecs g) s

/-- The end of an issue: R159's tests, breakpoints (R436), and the traps due (R383). -/
def finish (i : Instr) (h : Hd) (k : Nat) (group act : BitVec 64) (s : State) : State :=
  let s := updGang k (fun g => afterIssue s i group { g with walkFaults := [] }) s
  let s :=
    if h.stop then
      match look k s.gangs with
      | none => s
      | some g => if breakAt s g g.lord then updGang k (meetBreak g.lord act) s else s
    else s
  settle k s

/-! ## Releases -/

def isWrite : ReqAct → Bool
  | .read .. | .readDesc _ => false
  | _ => true

/-- R279: every store, atomic and merge of the core with a lower number than `id` has been performed; a request leaves
the list when its acknowledgement reaches the core. -/
def writesDone (s : State) (core id : Nat) : Bool :=
  s.reqs.all fun r => r.core ≠ core || !isWrite r.act || decide (id ≤ r.id)

/-- Loads of a gang's lanes that have not returned, and peer accesses not yet applied. -/
def loadsDone (s : State) (k : Nat) (m : BitVec 64) (id : Nat) : Bool :=
  (s.ops.all fun o => o.2.gang ≠ k || !o.2.load || decide (o.2.fib &&& m = 0) || decide (id ≤ o.1))
  && s.peers.all fun p => p.gang ≠ k || decide (id ≤ p.id)

/-- R200: the arrivals that count in the phases now open at the barriers a gang may use; true for an ensemble's. -/
def openArrivals (s : State) (g : Gang) : List (Bool × Arrival) :=
  match look g.crew s.crews with
  | none => []
  | some c =>
    c.bars.flatMap (fun b => b.arrived.map fun a => (false, a))
      ++ (((c.ens.bind fun e => look e s.ens).map fun e => e.bar.arrived.map fun a => (true, a)).getD [])

/-- R201, R279: the release that an arrival makes, at crew or at cluster scope, is performed. -/
def arrivalDone (s : State) (ens : Bool) (a : Arrival) : Bool :=
  loadsDone s a.gang (maskOf [a.lane]) a.id && (!ens || writesDone s a.core a.id)

/-- The instructions that access memory for their fibres. -/
def accesses : Instr → Bool
  | .ld .. | .st .. | .wld .. | .wst .. | .imageStore .. | .atom .. | .cas .. | .red .. | .ldesc .. | .sdesc .. | .launch ..
  | .signal .. | .signalAdd .. => true
  | _ => false

/-- R279: a fibre that has arrived at a barrier and goes on accesses nothing before the release of its arrival is performed. -/
def arvOpen (s : State) (k : Nat) (g : Gang) (act : BitVec 64) (i : Instr) : Bool :=
  accesses i && (openArrivals s g).any fun a => a.2.gang = k && laneIn act a.2.lane && !arrivalDone s a.1 a.2

/-- What an instruction does once it issues: the gang's key, the gang after the accounts, the active fibres. -/
structure Iss where
  k : Nat
  g : Gang
  h : Hd
  group : BitVec 64
  act : BitVec 64
  pc : Pc
  deriving DecidableEq, Repr

/-- The issue of an instruction to the current group. It holds while R21, R111, R279, R326, R349 or `gate` makes it wait;
it takes its decode-class fault if it has one (R69); else it issues. A held instruction leaves the state as it is,
but for what `gate` starts (page walks, merges). -/
def issue (i : Instr) (h : Hd) (ctr : CtrKind) (gate : Iss → State → Option State)
    (body : Iss → State → State) (s : State) : Outc :=
  let k := s.cur.gang
  match look k s.gangs with
  | none => .fault .noGang
  | some g =>
    let act := activeOf h s.cur.group g
    match decodeFault s g i with
    | some c => .next (decodeTrap k s.cur.group s.cur.pc (cause c) 0 s)
    | none =>
      if g.holdOps ≠ [] ∨ regsPending s k s.cur.group i ∨ ctrFull ctr g ∨ arvOpen s k g act i then .next s
      else match gate ⟨k, g, h, s.cur.group, act, s.cur.pc⟩ s with
      | some s' => .next s'
      | none =>
        let g' := noteLord s h s.cur.pc (noteIssue i h s.cur.group s.cur.pc { g with issuedAt := some s.clk })
        let s1 := perfCount g.core g.ctx 3 (lanesOf act).length (perfCount g.core g.ctx 2 1 (updGang k (fun _ => g') s))
        .next (finish i h k s.cur.group act (body ⟨k, g', h, s.cur.group, act, s.cur.pc⟩ s1))

def noGate : Iss → State → Option State := fun _ _ => none

/-! ## Bodies -/

/-- R11, R14, R382: run one fibre's part for every active fibre, in ascending lane order; scalar results of the highest
fibre that did not fault stand; the faults are recorded, and a faulting fibre stays at the instruction. -/
def lanesGo (pc : Pc) (fn : Nat → Fibre → Lane) : List Nat → Gang → Gang
  | [], g => g
  | i :: is, g =>
    match fibreAt g i with
    | none => lanesGo pc fn is g
    | some f =>
      let r := fn i f
      let g := match r.fault with
        | none => r.sc.foldl (fun g x => setS x.1 x.2 g) { g with fibres := g.fibres.set i r.f }
        | some (c, a) =>
          { g with fibres := g.fibres.set i { r.f with pc := pc }, pend := g.pend ++ [⟨i, c, a, pc⟩] }
      lanesGo pc fn is g

def perLane (x : Iss) (fn : Nat → Fibre → Lane) (s : State) : State :=
  updGang x.k (lanesGo x.pc fn (lanesOf x.act)) s

/-- R321: raise one fault for every active fibre. -/
def faultAll (x : Iss) (c : Word) (addr : Dword) (s : State) : State :=
  perLane x (fun _ f => .bad f c addr) s

/-- R321: a gang-level instruction acts only when a fibre of the group is active. -/
def gangOnce (body : Iss → State → State) : Iss → State → State :=
  fun x s => if x.act = 0 then s else body x s

/-- R11, R321: write one value to a scalar destination; p7 discards it. -/
def putScalar (x : Iss) (bits : Nat) (d : Opnd) (v : Dword) (s : State) : State :=
  match d with
  | .s n => updGang x.k (setS n (if bits = 64 then v else lo32 v)) s
  | _ => s

/-- R321: write a 64-bit result of a gang to a scalar destination. -/
def gangScalar (k : Nat) (d : Opnd) (v : Dword) (s : State) : State :=
  match d with
  | .s n => updGang k (setS n v) s
  | _ => s

/-- R155: fibres begin to wait at the instruction; their PC stays there, and moves on when the wait ends. -/
def waitAt (x : Iss) (m : BitVec 64) (w : WaitKind) (s : State) : State :=
  updGang x.k (onLanes m fun _ f => { f with wait := some ⟨w, f.pc, none⟩, pc := x.pc }) s

/-- R155: a whole-gang wait takes every fibre that has not ended and is not parked. -/
def gwaitAt (x : Iss) (w : WaitKind) (s : State) : State :=
  updGang x.k (fun g =>
    onLanes (lanesWhere (fun f => f.life = .live) g) (fun i f =>
      if laneIn x.group i then { f with gwait := some ⟨w, f.pc, none⟩, pc := x.pc }
      else { f with gwait := some ⟨w, f.pc, none⟩ }) g) s

/-- R387, R436: a fibre's own wait is over, also while it is parked. -/
def endWait (i : Nat) (g : Gang) : Gang :=
  match fibreAt g i with
  | none => g
  | some f =>
    match f.wait with
    | none => g
    | some w =>
      let f' := { f with wait := none, pc := w.nxt, gwait := f.gwait.map fun u => { u with nxt := w.nxt } }
      let g := { g with fibres := g.fibres.set i f' }
      match w.brk with
      | some o => if notEnded f then { g with pend := g.pend ++ [breakRec o i w.nxt] } else g
      | none => g

/-- The waits of these fibres that pass the test are over. -/
def endWaits (t : WaitKind → Bool) (m : BitVec 64) (g : Gang) : Gang :=
  (lanesOf m).foldl (fun g i =>
    match (fibreAt g i).bind (·.wait) with
    | some w => if t w.kind then endWait i g else g
    | none => g) g

/-- A whole-gang wait is over for every fibre that holds it. -/
def endGwait (t : WaitKind → Bool) (g : Gang) : Gang :=
  (List.range g.fibres.length).foldl (fun g i =>
    match fibreAt g i with
    | none => g
    | some f =>
      match f.gwait with
      | none => g
      | some w =>
        if !t w.kind then g
        else
          let g := { g with fibres := g.fibres.set i { f with gwait := none, pc := w.nxt } }
          match w.brk with
          | some o => if notEnded f then { g with pend := g.pend ++ [breakRec o i w.nxt] } else g
          | none => g) g

/-- The whole-gang waits that fibres of the gang hold: parked fibres may hold another than a handler's (R387). -/
def gwaitsOf (g : Gang) : List WaitKind := g.fibres.filterMap fun f => f.gwait.map (·.kind)

end Sys2Proof.Machine
end

