-- ==== Sys2Proof/Machine/Integer.lean ====
section
/-! DEFINITION. The 32 integer instructions (05 R84 to R94). -/

namespace Sys2Proof.Machine

/-- An instruction that works on registers alone, fibre by fibre. -/
def regOp (i : Instr) (h : Hd) (fn : Gang → Fibre → Lane) (s : State) : Outc :=
  issue i h .none noGate (fun x => perLane x fun _ f => fn x.g f) s

/-- R85: one source. -/
def int2 (h : Hd) (o : Int2) (op : Dword → Dword) (g : Gang) (f : Fibre) : Lane :=
  wrTy o.t o.d (op (rd g h.ext (rdTy o.t) f o.a)) (.ok f)

/-- R85: two sources. -/
def int3 (h : Hd) (o : Int3) (op : Dword → Dword → Dword) (g : Gang) (f : Fibre) : Lane :=
  wrTy o.t o.d (op (rd g h.ext (rdTy o.t) f o.a) (rd g h.ext (rdTy o.t) f o.b)) (.ok f)

/-- R88: the count is read as n32. -/
def intShift (h : Hd) (o : Int3) (op : Dword → Nat → Dword) (g : Gang) (f : Fibre) : Lane :=
  wrTy o.t o.d (op (rd g h.ext (rdTy o.t) f o.a) (rd g h.ext (rdTy .n32) f o.b).toNat) (.ok f)

/-- R89: the count is written as n32. -/
def intCount (h : Hd) (o : Int2) (op : Dword → Dword) (g : Gang) (f : Fibre) : Lane :=
  wr 32 o.d (op (rd g h.ext (rdTy o.t) f o.a)) (.ok f)

/-- R85: an exact operation on two integers, wrapped or clamped. -/
def exact2 (t : Ty) (sat : Bool) (op : Int → Int → Int) (x y : Dword) : Dword := tyFit t sat (op (tyVal t x) (tyVal t y))

/-- R86: a bitwise operation on the low w bits. -/
def bitwise (t : Ty) (op : Dword → Dword → Dword) (x y : Dword) : Dword := tyWrap t (op x y).toNat

/-- R86. -/
def execAdd (h : Hd) (o : Int3) (s : State) : Outc :=
  regOp (.add h o) h (int3 h o (exact2 o.t o.sat fun a b => a + b)) s

/-- R86. -/
def execSub (h : Hd) (o : Int3) (s : State) : Outc :=
  regOp (.sub h o) h (int3 h o (exact2 o.t o.sat fun a b => a - b)) s

/-- R86. -/
def execMul (h : Hd) (o : Int3) (s : State) : Outc :=
  regOp (.mul h o) h (int3 h o (exact2 o.t o.sat fun a b => a * b)) s

/-- R86: the upper half of the product. -/
def execMulhi (h : Hd) (o : Int3) (s : State) : Outc :=
  regOp (.mulhi h o) h (int3 h o (exact2 o.t false fun a b => a * b / 2 ^ tyBits o.t)) s

/-- R86: a × b + c, exact before any wrap or clamp. -/
def execMad (h : Hd) (o : Int4) (s : State) : Outc :=
  regOp (.mad h o) h (fun g f =>
    let v := fun x => tyVal o.t (rd g h.ext (rdTy o.t) f x)
    wrTy o.t o.d (tyFit o.t o.sat (v o.a * v o.b + v o.c)) (.ok f)) s

/-- R87. -/
def execDiv (h : Hd) (o : Int3) (s : State) : Outc :=
  regOp (.div h o) h (int3 h o (exact2 o.t false (intQuot o.t))) s

/-- R87. -/
def execRem (h : Hd) (o : Int3) (s : State) : Outc :=
  regOp (.rem h o) h (int3 h o (exact2 o.t false (intRem o.t))) s

/-- R86. -/
def execNeg (h : Hd) (o : Int2) (s : State) : Outc :=
  regOp (.neg h o) h (int2 h o (fun x => tyFit o.t o.sat (-tyVal o.t x))) s

/-- R86. -/
def execAbs (h : Hd) (o : Int2) (s : State) : Outc :=
  regOp (.abs h o) h (int2 h o (fun x => tyFit o.t o.sat (tyVal o.t x).natAbs)) s

/-- R86. -/
def execMin (h : Hd) (o : Int3) (s : State) : Outc :=
  regOp (.min h o) h (int3 h o (exact2 o.t false fun a b => if b < a then b else a)) s

/-- R86. -/
def execMax (h : Hd) (o : Int3) (s : State) : Outc :=
  regOp (.max h o) h (int3 h o (exact2 o.t false fun a b => if a < b then b else a)) s

/-- R86. -/
def execAnd (h : Hd) (o : Int3) (s : State) : Outc :=
  regOp (.and h o) h (int3 h o (bitwise o.t fun x y => x &&& y)) s

/-- R86. -/
def execOr (h : Hd) (o : Int3) (s : State) : Outc :=
  regOp (.or h o) h (int3 h o (bitwise o.t fun x y => x ||| y)) s

/-- R86. -/
def execXor (h : Hd) (o : Int3) (s : State) : Outc :=
  regOp (.xor h o) h (int3 h o (bitwise o.t fun x y => x ^^^ y)) s

/-- R86. -/
def execNot (h : Hd) (o : Int2) (s : State) : Outc :=
  regOp (.not h o) h (int2 h o (fun x => tyWrap o.t (~~~x).toNat)) s

/-- R88. -/
def execShl (h : Hd) (o : Int3) (s : State) : Outc :=
  regOp (.shl h o) h (intShift h o (shlVal o.t o.sat)) s

/-- R88. -/
def execShr (h : Hd) (o : Int3) (s : State) : Outc :=
  regOp (.shr h o) h (intShift h o (shrVal o.t)) s

/-- R88. -/
def execSar (h : Hd) (o : Int3) (s : State) : Outc :=
  regOp (.sar h o) h (intShift h o (sarVal o.t)) s

/-- R88. -/
def execRol (h : Hd) (o : Int3) (s : State) : Outc :=
  regOp (.rol h o) h (intShift h o (rolVal o.t)) s

/-- R88. -/
def execRor (h : Hd) (o : Int3) (s : State) : Outc :=
  regOp (.ror h o) h (intShift h o (rorVal o.t)) s

/-- R89. -/
def execPopc (h : Hd) (o : Int2) (s : State) : Outc :=
  regOp (.popc h o) h (intCount h o (popcVal o.t)) s

/-- R89. -/
def execClz (h : Hd) (o : Int2) (s : State) : Outc :=
  regOp (.clz h o) h (intCount h o (clzVal o.t)) s

/-- R89. -/
def execCtz (h : Hd) (o : Int2) (s : State) : Outc :=
  regOp (.ctz h o) h (intCount h o (ctzVal o.t)) s

/-- R89. -/
def execBrev (h : Hd) (o : Int2) (s : State) : Outc :=
  regOp (.brev h o) h (int2 h o (brevVal o.t)) s

/-- R90. -/
def execBfe (h : Hd) (o : Bits) (s : State) : Outc :=
  regOp (.bfe h o) h (fun g f =>
    wrTy o.t o.d (bfeVal o.t (rd g h.ext (rdTy o.t) f o.a) (rd g h.ext (rdTy .n32) f o.b).toNat o.len) (.ok f)) s

/-- R90: D is a source and the destination. -/
def execBfi (h : Hd) (o : Bits) (s : State) : Outc :=
  regOp (.bfi h o) h (fun g f =>
    let r := fun x => rd g h.ext (rdTy o.t) f x
    wrTy o.t o.d (bfiVal o.t (r o.d) (r o.a) (rd g h.ext (rdTy .n32) f o.b).toNat o.len) (.ok f)) s

/-- R91. -/
def execSel (h : Hd) (o : Int4) (s : State) : Outc :=
  regOp (.sel h o) h (fun g f =>
    let r := fun x => rd g h.ext (rdTy o.t) f x
    wrTy o.t o.d (tyWrap o.t (if r o.c = 1 then r o.a else r o.b).toNat) (.ok f)) s

/-- R91. -/
def execMov (h : Hd) (o : Int2) (s : State) : Outc :=
  regOp (.mov h o) h (int2 h o (fun x => tyWrap o.t x.toNat)) s

/-- R92. -/
def execSetp (h : Hd) (o : CmpOps) (s : State) : Outc :=
  regOp (.setp h o) h (fun g f =>
    let v := fun x => tyVal o.t (rd g h.ext (rdTy o.t) f x)
    wrP o.d (cmpInt o.cmp (v o.a) (v o.b)) (.ok f)) s

/-- R92. -/
def execPlog (h : Hd) (op : Plog) (d a b : Opnd) (s : State) : Outc :=
  regOp (.plog h op d a b) h (fun g f =>
    let v := fun x => rd g h.ext (rdTy .n32) f x = 1
    wrP d (plogVal op (v a) (v b)) (.ok f)) s

/-- R93: C is the carry in, and then the carry out. -/
def execAddc (h : Hd) (o : Int4) (s : State) : Outc :=
  regOp (.addc h o) h (fun g f =>
    let r := fun x => rd g h.ext (rdTy o.t) f x
    let x := tyVal o.t (r o.a) + tyVal o.t (r o.b) + (r o.c).toNat
    wrP o.c (decide (2 ^ tyBits o.t ≤ x)) (wrTy o.t o.d (tyWrap o.t x) (.ok f))) s

/-- R94. -/
def execLea (h : Hd) (o : Int3) (sc : Fin 8) (s : State) : Outc :=
  regOp (.lea h o sc) h (fun g f =>
    let b := (rd g h.ext (rdTy .n32) f o.b).setWidth 32
    let x : Dword := if tySigned o.t then b.signExtend 64 else b.setWidth 64
    wr 64 o.d (rd g h.ext (rdTy o.t) f o.a + (x <<< sc.val)) (.ok f)) s

end Sys2Proof.Machine
end

