-- ==== Sys2Proof/Machine/Floating.lean ====
section
/-! DEFINITION. The float block and the conversion and draw block (06 R112 to R135). -/

namespace Sys2Proof.Machine

/-- R29: a value that is not packed occupies the low bits, the rest cleared. -/
def narrow (t : Ty) (x : Dword) : Dword := tyWrap t x.toNat

/-- R29, R114: a result as its register holds it. -/
def fit (t : Ty) (pk : Bool) (x : Dword) : Dword := if pk then x else narrow t x

/-- R112, R114: one source, packed or not. -/
def flt2 (h : Hd) (o : Fl2) (op : Dword → Dword × Flags) (g : Gang) (f : Fibre) : Lane :=
  let x := rd g h.ext ⟨.ty o.t, o.pk⟩ f o.a
  let r := if o.pk then packed2 op x else op x
  wrFl r.2 (wrTy o.t o.d (fit o.t o.pk r.1) (.ok f))

/-- R112, R114: two sources. -/
def flt3 (h : Hd) (o : Fl3) (op : Dword → Dword → Dword × Flags) (g : Gang) (f : Fibre) : Lane :=
  let v := fun x => rd g h.ext ⟨.ty o.t, o.pk⟩ f x
  let r := packedOp2 o.pk op (v o.a) (v o.b)
  wrFl r.2 (wrTy o.t o.d (fit o.t o.pk r.1) (.ok f))

/-- R112, R114: three sources. -/
def flt4 (h : Hd) (o : Fl4) (op : Dword → Dword → Dword → Dword × Flags) (g : Gang) (f : Fibre) : Lane :=
  let v := fun x => rd g h.ext ⟨.ty o.t, o.pk⟩ f x
  let r := packedOp3 o.pk op (v o.a) (v o.b) (v o.c)
  wrFl r.2 (wrTy o.t o.d (fit o.t o.pk r.1) (.ok f))

/-- R116. -/
def execFadd (h : Hd) (o : Fl3) (s : State) : Outc :=
  regOp (.fadd h o) h (flt3 h o (fun a b => fAdd (tyF o.t) o.rm (fDec (tyF o.t) a) (fDec (tyF o.t) b))) s

/-- R116. -/
def execFsub (h : Hd) (o : Fl3) (s : State) : Outc :=
  regOp (.fsub h o) h (flt3 h o (fun a b => fSub (tyF o.t) o.rm (fDec (tyF o.t) a) (fDec (tyF o.t) b))) s

/-- R116. -/
def execFmul (h : Hd) (o : Fl3) (s : State) : Outc :=
  regOp (.fmul h o) h (flt3 h o (fun a b => fMul (tyF o.t) o.rm (fDec (tyF o.t) a) (fDec (tyF o.t) b))) s

/-- R116, R117. -/
def execFfma (h : Hd) (o : Fl4) (s : State) : Outc :=
  regOp (.ffma h o) h (flt4 h o (fun a b c => fFma (tyF o.t) o.rm (fDec (tyF o.t) a) (fDec (tyF o.t) b) (fDec (tyF o.t) c))) s

/-- R116, R117. -/
def execFnfma (h : Hd) (o : Fl4) (s : State) : Outc :=
  regOp (.fnfma h o) h (flt4 h o (fun a b c => fNfma (tyF o.t) o.rm (fDec (tyF o.t) a) (fDec (tyF o.t) b) (fDec (tyF o.t) c))) s

/-- R116, R117. -/
def execFdiv (h : Hd) (o : Fl3) (s : State) : Outc :=
  regOp (.fdiv h o) h (flt3 h o (fun a b => fDiv (tyF o.t) o.rm (fDec (tyF o.t) a) (fDec (tyF o.t) b))) s

/-- R116, R117. -/
def execFsqrt (h : Hd) (o : Fl2) (s : State) : Outc :=
  regOp (.fsqrt h o) h (flt2 h o (fun a => fSqrt (tyF o.t) o.rm (fDec (tyF o.t) a))) s

/-- R116, R117. -/
def execFrcp (h : Hd) (o : Fl2) (s : State) : Outc :=
  regOp (.frcp h o) h (flt2 h o (fun a => fRcp (tyF o.t) o.rm (fDec (tyF o.t) a))) s

/-- R116, R117. -/
def execFrsq (h : Hd) (o : Fl2) (s : State) : Outc :=
  regOp (.frsq h o) h (flt2 h o (fun a => fRsq (tyF o.t) o.rm (fDec (tyF o.t) a))) s

/-- R118. -/
def execFmin (h : Hd) (o : Fl3) (s : State) : Outc :=
  regOp (.fmin h o) h (flt3 h o (fMinMax (tyF o.t) false)) s

/-- R118. -/
def execFmax (h : Hd) (o : Fl3) (s : State) : Outc :=
  regOp (.fmax h o) h (flt3 h o (fMinMax (tyF o.t) true)) s

/-- R119: the sign bit of a format. -/
def signBit (t : Ty) : Dword := BitVec.ofNat 64 (2 ^ (tyBits t - 1))

/-- R119. -/
def execFabs (h : Hd) (o : Fl2) (s : State) : Outc :=
  regOp (.fabs h o) h (flt2 h o (fun a => (narrow o.t (a &&& ~~~signBit o.t), 0))) s

/-- R119. -/
def execFneg (h : Hd) (o : Fl2) (s : State) : Outc :=
  regOp (.fneg h o) h (flt2 h o (fun a => (narrow o.t (a ^^^ signBit o.t), 0))) s

/-- R120. -/
def execFsetp (h : Hd) (o : CmpOps) (s : State) : Outc :=
  regOp (.fsetp h o) h (fun g f =>
    let v := fun x => fDec (tyF o.t) (rd g h.ext (rdTy o.t) f x)
    let r := fCompare o.cmp (v o.a) (v o.b)
    wrFl (if r.2 then fIV else 0) (wrP o.d r.1 (.ok f))) s

/-- R121. -/
def execFclass (h : Hd) (o : Fl2) (s : State) : Outc :=
  regOp (.fclass h o) h (fun g f =>
    wr 32 o.d (BitVec.ofNat 64 (2 ^ fClass (tyF o.t) (rd g h.ext (rdTy o.t) f o.a))) (.ok f)) s

/-- R122. -/
def execFrnd (h : Hd) (o : Fl2) (s : State) : Outc :=
  regOp (.frnd h o) h (flt2 h o (fRound (tyF o.t) o.rm)) s

/-- R119: the encoding of a with the sign of b. -/
def execFcpsgn (h : Hd) (o : Fl3) (s : State) : Outc :=
  regOp (.fcpsgn h o) h (flt3 h o (fun a b =>
    (narrow o.t ((a &&& ~~~signBit o.t) ||| (b &&& signBit o.t)), 0))) s

/-- R123: B is read as i32. -/
def execFscale (h : Hd) (o : Fl3) (s : State) : Outc :=
  regOp (.fscale h o) h (fun g f =>
    let k := sgn 32 (low 32 (rd g h.ext (rdTy .i32) f o.b))
    let r := fScale (tyF o.t) o.rm (rd g h.ext (rdTy o.t) f o.a) k
    wrFl r.2 (wrTy o.t o.d r.1 (.ok f))) s

/-- R123. -/
def execFexpo (h : Hd) (o : Fl2) (s : State) : Outc :=
  regOp (.fexpo h o) h (fun g f =>
    let r := fExpo (tyF o.t) (rd g h.ext (rdTy o.t) f o.a)
    wrFl r.2 (wr 32 o.d (tyWrap .i32 r.1) (.ok f))) s

/-- R123. -/
def execFmant (h : Hd) (o : Fl2) (s : State) : Outc :=
  regOp (.fmant h o) h (flt2 h o (fMant (tyF o.t))) s

/-- R124, R125: a result and its error, which goes to C after D. -/
def errFree (h : Hd) (o : Fl4) (op : Dword → Dword → Dword × Dword × Flags) (g : Gang) (f : Fibre) : Lane :=
  let v := fun x => rd g h.ext (rdTy o.t) f x
  let r := op (v o.a) (v o.b)
  wrFl r.2.2 (wrTy o.t o.c r.2.1 (wrTy o.t o.d r.1 (.ok f)))

/-- R124. -/
def execF2sum (h : Hd) (o : Fl4) (s : State) : Outc :=
  regOp (.f2sum h o) h (errFree h o (fTwoSum (tyF o.t))) s

/-- R125. -/
def execF2prod (h : Hd) (o : Fl4) (s : State) : Outc :=
  regOp (.f2prod h o) h (errFree h o (fTwoProd (tyF o.t))) s

/-- R126: packed pairs, accumulated in f32. -/
def execFdot2 (h : Hd) (o : Fl4) (s : State) : Outc :=
  regOp (.fdot2 h o) h (fun g f =>
    let v := fun x => rd g h.ext ⟨.ty o.t, true⟩ f x
    let r := fDot2 (tyF o.t) o.rm (v o.a) (v o.b) (rd g h.ext (rdTy .f32) f o.c)
    wrFl r.2 (wr 32 o.d r.1 (.ok f))) s

/-- R126: accumulated in the wider format. -/
def execFpfma (h : Hd) (o : Fl4) (s : State) : Outc :=
  regOp (.fpfma h o) h (fun g f =>
    let v := fun x => fDec (tyF o.t) (rd g h.ext (rdTy o.t) f x)
    let w := widerTy o.t
    let r := fFma (tyF w) o.rm (v o.a) (v o.b) (fDec (tyF w) (rd g h.ext (rdTy w) f o.c))
    wrFl r.2 (wrTy w o.d r.1 (.ok f))) s

/-- R128: the width of a destination format's register. -/
def fmtReg : Fmt → Nat
  | .ty t => tyReg t
  | _ => 32

/-- R129. -/
def execCvt (h : Hd) (o : Cvt) (s : State) : Outc :=
  regOp (.cvt h o) h (fun g f =>
    let r := cvtVal o.dst o.src o.rm o.sat (rd g h.ext ⟨o.src, false⟩ f o.a)
    wrFl r.2 (wr (fmtReg o.dst) o.d r.1 (.ok f))) s

/-- R130: a goes to bits 15:0 and b to bits 31:16. -/
def execPack (h : Hd) (o : Fl3) (s : State) : Outc :=
  regOp (.pack h o) h (fun g f =>
    let c := fun x => cvtVal (.ty o.t) (.ty .f32) o.rm false (rd g h.ext (rdTy .f32) f x)
    wrFl ((c o.a).2 ||| (c o.b).2) (wr 32 o.d ((c o.b).1 <<< 16 ||| (c o.a).1) (.ok f))) s

/-- R130: one element, widened exactly. -/
def execUnpk (h : Hd) (hi : Bool) (o : Fl2) (s : State) : Outc :=
  regOp (.unpk h hi o) h (fun g f =>
    let x := rd g h.ext ⟨.ty o.t, true⟩ f o.a
    let r := cvtVal (.ty .f32) (.ty o.t) .rne false (if hi then x >>> 16 else x)
    wrFl r.2 (wr 32 o.d r.1 (.ok f))) s

/-- R131: the code of a under scale b. -/
def qntOf (g : Gang) (h : Hd) (f : Fibre) (a b : Opnd) : Nat × Flags :=
  let v := fun x => fDec f32F (rd g h.ext (rdTy .f32) f x)
  q4nCode (v a) (v b)

/-- R131. -/
def execQnt (h : Hd) (d a b : Opnd) (s : State) : Outc :=
  regOp (.qnt h d a b) h (fun g f =>
    let r := qntOf g h f a b
    wrFl r.2 (wr 32 d (BitVec.ofNat 64 r.1) (.ok f))) s

/-- R131: the code replaces bits 4j + 3 to 4j of D. -/
def execQntIns (h : Hd) (d a b : Opnd) (j : Fin 512) (s : State) : Outc :=
  regOp (.qntIns h d a b j) h (fun g f =>
    let r := qntOf g h f a b
    let old := rd g h.ext (rdTy .n32) f d
    wrFl r.2 (wr 32 d ((old &&& ~~~((15 : Dword) <<< (4 * j.val))) ||| (BitVec.ofNat 64 r.1 <<< (4 * j.val))) (.ok f))) s

/-- R127. -/
def execFexp2 (h : Hd) (o : Fl2) (s : State) : Outc :=
  regOp (.fexp2 h o) h (flt2 h o (fExp2 o.rm)) s

/-- R127. -/
def execFlog2 (h : Hd) (o : Fl2) (s : State) : Outc :=
  regOp (.flog2 h o) h (flt2 h o (fLog2 o.rm)) s

/-- R132: the draw function. -/
def draw (k n : Dword) : Nat :=
  let z := k + n * 0x8C4B12F9E3A75D61
  let z := (z ^^^ (z >>> 31)) * 0xB7E04A9D2C63F185
  let z := (z ^^^ (z >>> 27)) * 0xD33A6E0591BF4C27
  let z := z ^^^ (z >>> 33)
  (z >>> 32).toNat

/-- R133: a fibre's draw, which advances its counter. -/
def fibreDraw (f : Fibre) : Nat × Fibre := (draw f.key f.ctr, { f with ctr := f.ctr + 1 })

/-- R134: the result of `rand`, with the fibre after its draws. -/
def randVal (t : Ty) (f : Fibre) : Dword × Fibre :=
  let d := fibreDraw f
  match t with
  | .n32 => (BitVec.ofNat 64 d.1, d.2)
  | .f32 => ((fOut f32F .rne (.fin false (d.1 / 2 ^ 8) (-24))).1, d.2)
  | .f64 =>
    let e := fibreDraw d.2
    ((fOut f64F .rne (.fin false (d.1 * 2 ^ 21 + e.1 / 2 ^ 11) (-53))).1, e.2)
  | _ =>
    let e := fibreDraw d.2
    (BitVec.ofNat 64 (e.1 * 2 ^ 32 + d.1), e.2)

/-- R134. -/
def execRand (h : Hd) (t : Ty) (d : Opnd) (s : State) : Outc :=
  regOp (.rand h t d) h (fun _ f => wrTy t d (randVal t f).1 (.ok (randVal t f).2)) s

/-- R135. -/
def execSeed (h : Hd) (fid : Bool) (a : Opnd) (s : State) : Outc :=
  regOp (.seed h fid a) h (fun g f =>
    let k := rd g h.ext (rdTy .n64) f a
    .ok { f with key := if fid then k ^^^ f.fid else k, ctr := 0 }) s

end Sys2Proof.Machine
end

