-- ==== Sys2Proof/Machine/WideAcc.lean ====
section
/-! DEFINITION. The wide accumulators (02 R46 to R48, 07 R139 to R145); `wld` and `wst` are with the memory instructions. -/

namespace Sys2Proof.Machine

/-- R46: the stored integer. -/
def wideInt (x : Wide) : Int := x.w.toInt

/-- R143: an exact sum brought into the window, and whether it left the range. -/
def wideWrap (z : Int) : BitVec 1024 × Bool :=
  (BitVec.ofInt 1024 z, decide (z < -(2 ^ 1023)) || decide (2 ^ 1023 - 1 < z))

/-- R47: add an exact value; a NaN or an infinity sets NAN and leaves W. -/
def wideAdd (x : FVal) (a : Wide) : Wide :=
  match x with
  | .fin n m e =>
    let sh := e + 512
    let z : Int := if n then -(m : Int) else m
    let q : Int := if 0 ≤ sh then z * 2 ^ sh.toNat else z / 2 ^ (-sh).toNat
    let lost := decide (sh < 0) && decide (q * 2 ^ (-sh).toNat ≠ z)
    let r := wideWrap (wideInt a + q)
    { a with w := r.1, loss := a.loss || lost, ovf := a.ovf || r.2 }
  | _ => { a with nan := true }

/-- R142: the exact value of a source. -/
def wideSrc (g : Gang) (h : Hd) (t : Ty) (f : Fibre) (o : Opnd) : FVal := fmtDec (.ty t) (rd g h.ext (rdTy t) f o)

/-- R142: an exact product; a NaN or an infinity among the factors stays one. -/
def exactMul (a b : FVal) : FVal :=
  match a, b with
  | .fin n m e, .fin k p d => .fin (n != k) (m * p) (e + d)
  | _, _ => .nan false

/-- A change of one accumulator. -/
def wideUpd (d : Fin 2) (fn : Wide → Wide) (f : Fibre) : Lane := .ok (setWide d (fn (getWide f d)) f)

/-- R141. -/
def execWclr (h : Hd) (d : Fin 2) (s : State) : Outc :=
  regOp (.wclr h d) h (fun _ f => wideUpd d (fun _ => Wide.zero) f) s

/-- R141: only the status bits. -/
def execWclrStat (h : Hd) (d : Fin 2) (s : State) : Outc :=
  regOp (.wclrStat h d) h (fun _ f => wideUpd d (fun a => { a with loss := false, ovf := false, nan := false }) f) s

/-- R142. -/
def execWadd (h : Hd) (t : Ty) (d : Fin 2) (a : Opnd) (s : State) : Outc :=
  regOp (.wadd h t d a) h (fun g f => wideUpd d (wideAdd (wideSrc g h t f a)) f) s

/-- R142. -/
def execWsub (h : Hd) (t : Ty) (d : Fin 2) (a : Opnd) (s : State) : Outc :=
  regOp (.wsub h t d a) h (fun g f => wideUpd d (wideAdd (wideSrc g h t f a).flip) f) s

/-- R142: the sign of `.neg`. -/
def negIf (b : Bool) (x : FVal) : FVal := if b then x.flip else x

/-- R142. -/
def execWmul2 (h : Hd) (o : WMul) (s : State) : Outc :=
  regOp (.wmul2 h o) h (fun g f =>
    wideUpd o.d (wideAdd (negIf o.neg (exactMul (wideSrc g h o.t f o.a) (wideSrc g h o.t f o.b)))) f) s

/-- R142. -/
def execWmul3 (h : Hd) (o : WMul) (c : Opnd) (s : State) : Outc :=
  regOp (.wmul3 h o c) h (fun g f =>
    let p := exactMul (exactMul (wideSrc g h o.t f o.a) (wideSrc g h o.t f o.b)) (wideSrc g h o.t f c)
    wideUpd o.d (wideAdd (negIf o.neg p)) f) s

/-- R48: the predicate "exact". -/
def wideExact (a : Wide) : Bool := !(a.loss || a.ovf || a.nan)

/-- R144. -/
def execWsgn (h : Hd) (wide : Bool) (d : Opnd) (a : Fin 2) (p : Opnd) (s : State) : Outc :=
  regOp (.wsgn h wide d a p) h (fun _ f =>
    let x := getWide f a
    wrP p (wideExact x) (wr (if wide then 64 else 32) d (BitVec.ofInt 64 (wideInt x).sign) (.ok f))) s

/-- R145. -/
def execWrnd (h : Hd) (wide : Bool) (rm : Rm) (d : Opnd) (a : Fin 2) (s : State) : Outc :=
  regOp (.wrnd h wide rm d a) h (fun _ f =>
    let z := wideInt (getWide f a)
    let t : Ty := if wide then .f64 else .f32
    let r := fOut (tyF t) rm (.fin (decide (z < 0)) z.natAbs (-512))
    wrFl r.2 (wrTy t d r.1 (.ok f))) s

/-- R143: copy, or an exact sum with its OVF. -/
def wideMov (op : WMov) (d a : Wide) : Wide :=
  match op with
  | .copy => a
  | .neg =>
    let r := wideWrap (-wideInt a)
    { a with w := r.1, ovf := a.ovf || r.2 }
  | .add =>
    let r := wideWrap (wideInt d + wideInt a)
    ⟨r.1, d.loss || a.loss, d.ovf || a.ovf || r.2, d.nan || a.nan⟩
  | .sub =>
    let r := wideWrap (wideInt d - wideInt a)
    ⟨r.1, d.loss || a.loss, d.ovf || a.ovf || r.2, d.nan || a.nan⟩

/-- R143. -/
def execWmov (h : Hd) (op : WMov) (d a : Fin 2) (s : State) : Outc :=
  regOp (.wmov h op d a) h (fun _ f => wideUpd d (fun x => wideMov op x (getWide f a)) f) s

end Sys2Proof.Machine
end

