-- ==== Sys2Proof/Machine/Lifecycle.lean ====
section
/-! DEFINITION. The start and end of fibres, gangs and crews, and cancellation (08 R150 to R173, 09 R190 to R194,
16 R312 to R319). -/

namespace Sys2Proof.Machine

/-! ## Replay log -/

/-- R449, R450: append a record, or close the log with a marker when it does not fit beside one. -/
def logAppend (g : Gang) (va : Dword) (kind lane : Nat) (payload : List Byte) (s : State) : State :=
  match look g.ctx s.ctxs, gangLaunch s g with
  | some c, some l =>
    match l.pkt.replay, c.log with
    | true, some lg =>
      if lg.closed then s
      else
        let head (kind plen : Nat) (ord : Word) (va : Dword) (lane : Nat) : List Byte :=
          leBytes 32 (plen * 2 ^ 32 + lane * 2 ^ 48 + kind * 2 ^ 56 + g.interval.toNat * 2 ^ 64 + ord.toNat * 2 ^ 96
            + va.toNat * 2 ^ 128 + g.gid.toNat * 2 ^ 192)
        let fits := lg.fill + 32 + payload.length + 32 ≤ lg.size
        let bytes := if fits then head kind payload.length g.lord va lane ++ payload
          else head 3 0 g.intervalOrd 0 0
        let at' := lg.base + lg.fill
        let s := setBytes (bytes.mapIdx fun i b => (at' + i, b)) s
        updCtx g.ctx (fun c => { c with log := some { lg with fill := lg.fill + bytes.length, closed := !fits } }) s
    | _, _ => s
  | _, _ => s

/-- R447: log a value returned to a lane. -/
def logValue (k lane : Nat) (v : Dword) (s : State) : State :=
  match look k s.gangs with
  | some g => logAppend g 0 2 lane (leBytes 8 v.toNat) s
  | none => s

/-- R447: log the cancellation of some lanes, with its CLK. -/
def logCancel (k : Nat) (m : BitVec 64) (s : State) : State :=
  match look k s.gangs with
  | some g => (lanesOf m).foldl (fun s i => logAppend g 0 4 i (leBytes 8 s.clk.toNat) s) s
  | none => s

/-! ## Incumbents and domination -/

/-- R210: every incumbent at context creation. -/
def Inc.default : Inc := ⟨0x7FFFFFFFFFFFFFFF, false, false⟩

/-- R190: a key in the order of its type, as a number. -/
def incOrd (f64 : Bool) (u : Dword) : Nat :=
  if f64 then (if u.getLsbD 63 then (~~~u).toNat else (u ^^^ 0x8000000000000000).toNat)
  else (u ^^^ 0x8000000000000000).toNat

/-- R190, R191: the better of two keys. -/
def incBest (i : Inc) (u v : Dword) : Dword :=
  if i.max then (if incOrd i.f64 u < incOrd i.f64 v then v else u)
  else if incOrd i.f64 v < incOrd i.f64 u then v else u

/-- R192: a key dominates a bound; ties cancel. -/
def dominates (i : Inc) (bound : Dword) : Bool :=
  if i.max then incOrd i.f64 bound ≤ incOrd i.f64 i.key else incOrd i.f64 i.key ≤ incOrd i.f64 bound

/-- A core's copy of an incumbent. -/
def coreInc (s : State) (core ctx k : Nat) : Inc := (look (16 * ctx + k) (coreOf s core).incs).getD Inc.default

/-- The exact value, at the hub. -/
def homeInc (s : State) (ctx k : Nat) : Inc :=
  match look ctx s.ctxs with
  | some c => (look k c.incs).getD Inc.default
  | none => Inc.default

/-- R192, R213: the guard cancels this fibre: dominated, with no open `defer` window. -/
def guardCancels (s : State) (g : Gang) (f : Fibre) : Bool :=
  notEnded f && f.defer = 0 && f.incsel ≠ 15 && dominates (coreInc s g.core g.ctx f.incsel.toNat) f.bound

/-- R192: a record is discarded. -/
def recDominated (s : State) (core : Nat) (r : Rec) : Bool :=
  r.incsel ≠ 15 && dominates (coreInc s core r.ctx r.incsel.toNat) r.bound

/-! ## Fibres that end -/

/-- A lane with no fibre (R152), and one whose fibre has ended: its registers are gone (R18, R314). -/
def Fibre.blank : Fibre :=
  { life := .empty, pc := 0, wait := none, gwait := none, v := [], bank0 := [], bank1 := [], p := 0, fst := 0
    fid := 0, bound := 0, incsel := 15, key := 0, ctr := 0, popen := false, psel := false, pcnt := 0, acnt := 0
    w0 := Wide.zero, w1 := Wide.zero, li := 0, defer := 0, fidx := 0, fidy := 0, fidz := 0, point := none }

def Fibre.gone : Fibre := { Fibre.blank with life := .ended }

/-- R318: a cancelled fibre leaves the trap frames; one that exits keeps its bit and record (R385, R389). -/
def clearFrame (m : BitVec 64) (fr : Frame) : Frame :=
  { fr with tmask := fr.tmask &&& ~~~m, recs := fr.recs.filter fun r => !laneIn m r.lane
            parked := fr.parked &&& ~~~m, returned := fr.returned &&& ~~~m }

def endFibres (m : BitVec 64) (g : Gang) : Gang :=
  let g := onLanes m (fun _ f => if notEnded f then Fibre.gone else f) g
  popDone 4 { g with pend := g.pend.filter fun r => !laneIn m r.lane }

/-- R318: a queued request stays while a fibre of its group still waits on it. -/
def racqWithout (k : Nat) (m : BitVec 64) (q : List RacqReq) : List RacqReq :=
  (q.map fun r => if r.gang = k then { r with lanes := r.lanes &&& ~~~m } else r).filter fun r => r.lanes ≠ 0

/-- R314: an operation without some lanes: nothing of theirs will be written. -/
def MemOp.without (m : BitVec 64) (o : MemOp) : MemOp :=
  { o with parts := o.parts.filter (fun p => !laneIn m p.lane), vals := o.vals.filter (fun v => !laneIn m v.1), fib := o.fib &&& ~~~m
           regs := o.regs.filter fun r => r.1 = 64 || !laneIn m r.1 }

/-- R315: a line request that serves no lane of an operation any more. -/
def servesNone (o : MemOp) (r : Req) : Bool := r.op = o.id && o.parts.all fun p => p.keys.all fun k => decide (k / 128 ≠ r.line)

/-- R315: a peer access of some lanes whose answer an operation awaits. -/
def peerCut (id : Nat) (m : BitVec 64) (p : PeerReq) : Bool := p.op = id && laneIn m p.lane && !p.lost

/-- R313: a peer access that leaves nothing but its answer. -/
def peerReads (p : PeerReq) : Bool := match p.act with | .read | .readDesc => true | _ => false

/-- R155: a wait for the addresses of one `dalloc`. -/
def isDalloc (op : Nat) (w : WaitKind) : Bool := match w with | .dalloc n => n = op | _ => false

/-- R313 to R315: an operation of a gang goes on without some lanes, which have been cancelled. Where it awaits replies, those that
serve only these lanes are no longer awaited: reads of theirs are dropped, the rest is performed in full. A `subs` acts all the same
(R341); its D, as an `unsub`'s, is written while an active fibre of it remains. R309: the inactive fibres of a `dalloc` that has lost
all its active ones wait no more. -/
def cutOp (m : BitVec 64) (id : Nat) (s : State) : State :=
  match look id s.ops with
  | none => s
  | some o =>
    let o' := o.without m
    if o.sub.isSome then
      let fib := o.fib &&& ~~~m
      if fib = 0 ∧ !o.load then { s with ops := del id s.ops }
      else { s with ops := ins id { o with fib := fib, regs := if fib = 0 then [] else o.regs } s.ops }
    else if !o.load then { s with ops := ins id o' s.ops }
    else
      let n := (s.reqs.filter (servesNone o')).length + (s.peers.filter (peerCut id m)).length
        + ((coreOf s o.core).refills.filter fun r => r.op = id && laneIn m r.lane).length
      let cutRefill (r : DallocReq) : DallocReq := if r.op = id && laneIn m r.lane then { r with op := 0 } else r
      let cutReq (r : Req) : Req := if servesNone o' r then { r with op := 0 } else r
      let cutPeer (p : PeerReq) : PeerReq := if peerCut id m p then { p with lost := true } else p
      let s := updCore o.core (fun c => { c with refills := c.refills.map cutRefill }) s
      let s := { s with reqs := s.reqs.map cutReq
                        peers := (s.peers.filter fun p => !(peerCut id m p && peerReads p)).map cutPeer }
      if o'.parts ≠ [] then { s with ops := ins id { o' with left := o.left - n } s.ops }
      else updGang o.gang (fun g => endWaits (isDalloc id) allLanes
        { g with ldcnt := if o.ctr = .ld then g.ldcnt - 1 else g.ldcnt, holdOps := g.holdOps.filter (· ≠ id) })
          { s with ops := del id s.ops }

/-- R313 to R315: what a gang's outstanding instructions do for cancelled lanes. -/
def dropReplies (k : Nat) (m : BitVec 64) (s : State) : State :=
  ((s.ops.filter fun o => o.2.gang = k && decide (o.2.fib &&& m ≠ 0)).map (·.1)).foldl (fun s id => cutOp m id s) s

/-- R352: a fibre waiting at the latch leaves it, its PC at the `mma`, with TROUPE. -/
def troupeFault (sub : Nat) (g : Gang) : Gang :=
  let m := lanesWhere (fun f => f.wait.any fun w => w.kind = .rendezvous) g
  let recs := (lanesOf m).filterMap fun i => (fibreAt g i).map fun f =>
    (⟨i, causeSub cTROUPE sub, BitVec.ofNat 64 sub, f.pc⟩ : TrapRec)
  { onLanes m (fun _ f => { f with wait := none }) g with pend := g.pend ++ recs }

/-- The key of gang n of a crew. -/
def gangOfCrew (s : State) (crew n : Nat) : Option Nat :=
  (s.gangs.find? fun x => x.2.crew = crew && x.2.num = n).map (·.1)

/-- R319, R352: the gang's end clears the rendezvous that await it. -/
def leaveLatch (k : Nat) (g : Gang) (s : State) : State :=
  let hit := (coreOf s g.core).mx.latch.filter fun e => e.crew = g.crew && e.mask.getLsbD g.num
  let s := hit.foldl (fun s e => e.arrived.foldl (fun s a =>
    match gangOfCrew s e.crew a.1 with
    | some j => if j = k then s else updGang j (troupeFault 4) s
    | none => s) s) s
  updCore g.core (fun c => { c with mx := { c.mx with latch := c.mx.latch.filter fun e => !(e.crew = g.crew && e.mask.getLsbD g.num) } }) s

/-- R378: a recorded status of a group: member cluster, request, status. -/
def statusAt (s : State) (grp cluster k : Nat) : Option Nat :=
  (look grp s.groups).bind fun g => (g.status.find? fun e => e.1 = cluster && e.2.1 = k).map (·.2.2)

/-- R376, R377: the group that a crew holds under a handle. -/
def heldGroup (s : State) (crew : Nat) (handle : Word) : Option (Nat × Member) :=
  s.groups.findSome? fun g => (g.2.members.find? fun m => m.crew = crew && m.handle = handle).map fun m => (g.1, m)

/-- R381: the request that a whole-gang wait is for: group and number. -/
def collOf (s : State) (g : Gang) (w : WaitKind) : Option (Nat × Nat × Opnd) :=
  match w with
  | .cbar grp k d => some (grp, k, d)
  | .cwait t d => (heldGroup s g.crew (t.setWidth 32)).map fun m => (m.1, t.toNat / 2 ^ 32, d)
  | _ => none

/-- R378, R381: a whole-gang wait for a collective whose status is known. -/
def collDone (s : State) (g : Gang) (w : WaitKind) : Option (Opnd × Nat) :=
  match collOf s g w with
  | some (grp, k, d) => (statusAt s grp (clusterOf g.core) k).map fun st => (d, st)
  | none => none

/-- R381: the gangs whose collective has its status take it and go on. -/
def wakeColl (s : State) : State :=
  s.gangs.foldl (fun s g =>
    (gwaitsOf g.2).foldl (fun s w =>
      match collDone s g.2 w with
      | some (d, st) => updGang g.1 (endGwait (· = w)) (gangScalar g.1 d (BitVec.ofNat 64 st) s)
      | none => s) s) s

/-- R373: a group is dissolved: what is pending at any member completes with status 2. -/
def dissolve (grp : Nat) (s : State) : State :=
  wakeColl { s with groups := adj grp (fun g =>
      { g with dissolved := true, reqs := []
               status := g.status ++ g.reqs.map fun r => (r.cluster, r.k, 2) }) s.groups }

def crewGroups (s : State) (crew : Nat) : List Nat :=
  (s.groups.filter fun g => !g.2.dissolved && g.2.members.any fun m => m.crew = crew).map (·.1)

/-- R163, R344: a crew whose gangs have ended is gone once its subscriptions have stopped. -/
def crewGone (k : Nat) (s : State) : State :=
  match look k s.crews with
  | none => s
  | some c =>
    if c.gangs ≠ [] then s
    else
      let live := (coreOf s c.core).subs.filter fun x => x.2.crew = k
      if live.any fun x => x.2.moving then
        updCore c.core (fun o => { o with subs := o.subs.map fun x =>
          if x.2.crew = k then (x.1, { x.2 with stopping := true }) else x }) s
      else
        let s := updCore c.core (fun o => { o with subs := live.foldl (fun m x => del x.1 m) o.subs }) s
        let s := match c.ens with
          | none => s
          | some e =>
            let s := { s with ens := adj e (fun z => { z with crews := z.crews.filter (· ≠ k) }) s.ens }
            match look e s.ens with
            | some z => if z.crews = [] then { s with ens := del e s.ens } else s
            | none => s
        { s with crews := del k s.crews }

/-- R163, R373: the crew ends with its last gang. -/
def endCrew (k : Nat) (s : State) : State := crewGone k ((crewGroups s k).foldl (fun s g => dissolve g s) s)

/-- R311: a context that leaves a core leaves its magazines' blocks to the free lists. -/
def magsHome (core ctx : Nat) (s : State) : State :=
  if s.gangs.any fun g => g.2.core = core && g.2.ctx = ctx && g.2.stop ≠ .saved then s
  else
    let mine := (coreOf s core).mags.filter fun m => m.1 / 32 = ctx
    let s := updCore core (fun c => { c with mags := c.mags.filter fun m => m.1 / 32 ≠ ctx }) s
    mine.foldl (fun s m => updCtx ctx (fun c => { c with heap := { c.heap with
      free := ins (m.1 % 32) ((look (m.1 % 32) c.heap.free).getD [] ++ m.2) c.heap.free } }) s) s

/-- R400, R402: a crew whose gangs are all saved is saved. -/
def settleSaved (k : Nat) (s : State) : State :=
  updCrew k (fun c => { c with saved := c.saved || !c.gangs.isEmpty && s.gangs.all fun g => g.2.crew ≠ k || decide (g.2.stop = .saved) }) s

/-- Copies of a gang that have not completed. -/
def copiesOut (s : State) (core k : Nat) : Bool :=
  ((coreOf s core).copies.any fun r => r.gang = k && !r.done && !r.dropped) || (coreOf s core).copyPend.any fun p => p.gang = k

/-- R447: of a gang that ends while copies of its are under way, its replay log still needs what names it. -/
def keepGone (k : Nat) (g : Gang) (s : State) : State :=
  if copiesOut s g.core k ∧ ((gangLaunch s g).map (·.pkt.replay)).getD false then { s with gone := ins k g s.gone } else s

/-- And with the last of them, no more. -/
def dropGone (core k : Nat) (s : State) : State := if copiesOut s core k then s else { s with gone := del k s.gone }

/-- R173: a gang whose last fibre has ended is freed with all it holds. -/
def endGang (k : Nat) (s : State) : State :=
  match look k s.gangs with
  | none => s
  | some g =>
    if g.fibres.any notEnded then s
    else
      let s := keepGone k g (leaveLatch k g s)
      let s := updCore g.core (fun c => { c with racq := c.racq.filter fun r => r.gang ≠ k }) s
      let s := { s with gangs := del k s.gangs, walks := s.walks.filter fun w => w.2.gang ≠ k }
      let s := magsHome g.core g.ctx (updCrew g.crew (fun c => { c with gangs := c.gangs.filter (· ≠ k) }) s)
      match look g.crew s.crews with
      | some c => if c.gangs = [] then endCrew g.crew s else settleSaved g.crew s
      | none => s

/-- R18, R98, R314: fibres end; a gang without fibres ends with them. -/
def endLanes (k : Nat) (m : BitVec 64) (s : State) : State :=
  match look k s.gangs with
  | none => s
  | some g =>
    let s := updCore g.core (fun c => { c with racq := racqWithout k m c.racq }) s
    endGang k (updGang k (endFibres m) s)

/-- R312, R318: fibres are cancelled. -/
def cancelLanes (k : Nat) (m : BitVec 64) (s : State) : State :=
  endLanes k m (dropReplies k m (updGang k (fun g => { g with frames := g.frames.map (clearFrame m) }) s))

/-- R192, R312: the guard cancels every dominated fibre of a gang. -/
def guardGang (k : Nat) (s : State) : State :=
  match look k s.gangs with
  | none => s
  | some g =>
    let m := lanesWhere (guardCancels s g) g
    if m = 0 then s else cancelLanes k m (logCancel k m (perfCount g.core g.ctx 0x0C (lanesOf m).length s))

/-- R192: the guard tests every fibre of a core, as at the arrival of a broadcast; saved fibres are tested at their restoration
(R401). -/
def guardCore (core : Nat) (s : State) : State :=
  (s.gangs.filter fun g => g.2.core = core && g.2.stop ≠ .saved).foldl (fun s g => guardGang g.1 s) s

/-! ## Placement -/

/-- The gangs and the crews that a core holds. -/
def gangsOn (s : State) (core : Nat) : List Gang := (s.gangs.filter fun g => g.2.core = core && g.2.stop ≠ .saved).map (·.2)
def crewsOn (s : State) (core : Nat) : List Crew := (s.crews.filter fun c => c.2.core = core && !c.2.saved).map (·.2)

/-- R398: a request to vacate a core of a context is in force. -/
def isVacated (s : State) (core ctx : Nat) : Bool := (coreOf s core).vacated.any fun v => v.1 = ctx

/-- R399: a crew that is being stopped, or is saved. -/
def crewHalted (s : State) (k : Nat) : Bool :=
  ((look k s.crews).map (·.saved)).getD false || s.gangs.any fun g => g.2.crew = k && g.2.stop ≠ .running

/-- R404: the gangs whose storage of a kind stands in the core: a saved gang's does until it is claimed. -/
def holders (s : State) (core : Nat) (cl : Nat → Claim) : List Gang :=
  (s.gangs.filter fun g => g.2.core = core && (g.2.stop ≠ .saved
    || !((look g.2.crew s.crews).map fun c => c.scanned.contains (cl g.1)).getD false)).map (·.2)

/-- A range without another. -/
def rangeLess (r t : Nat × Nat) : List (Nat × Nat) :=
  if t.1 + t.2 ≤ r.1 ∨ r.1 + r.2 ≤ t.1 then [r]
  else [(r.1, t.1 - r.1), (t.1 + t.2, r.1 + r.2 - (t.1 + t.2))].filter fun x => x.2 ≠ 0

/-- R404: the parts of a crew's region that still stand in the core. -/
def regionLeft (c : Crew) : List (Nat × Nat) :=
  c.scanned.foldl (fun rs cl => match cl with
    | .scratch b n => rs.flatMap fun r => rangeLess r (b, n)
    | _ => rs) [(c.base, c.size)]

def regionsOn (s : State) (core : Nat) : List (Nat × Nat) :=
  (s.crews.filter fun c => c.2.core = core).flatMap fun c => if c.2.saved then regionLeft c.2 else [(c.2.base, c.2.size)]

/-- R153: the lanes of a slot that are taken, in units of 8. -/
def slotFree (gs : List Gang) (slot off width : Nat) : Bool :=
  (gs.filter fun g => g.slot = slot).all fun g => off + width ≤ g.off || g.off + g.width ≤ off

/-- R153: the lowest free offset of a slot for a gang of width w. -/
def slotOffset (gs : List Gang) (slot w : Nat) : Option Nat :=
  ((List.range (64 / w)).map (· * w)).find? fun off => slotFree gs slot off w

/-- R153: the slot and the offset of a gang of a context. -/
def chooseSlot (gs : List Gang) (ctx w : Nat) : Option (Nat × Nat) :=
  let own := (List.range 16).findSome? fun k =>
    let here := gs.filter fun g => g.slot = k
    if here ≠ [] ∧ here.all (fun g => g.ctx = ctx) ∧ here.length < 8 then (slotOffset gs k w).map fun o => (k, o) else none
  match own with
  | some x => some x
  | none => ((List.range 16).find? fun k => gs.all fun g => g.slot ≠ k).map fun k => (k, 0)

/-- R169: the lane-registers a gang holds. -/
def gangRegs (g : Gang) : Nat := 64 * g.width * (1 + g.held)

/-- R333: the chunks placement reserves for a gang of a launch: the largest role budget. -/
def reserveChunks (l : Launch) : Nat := l.roles.foldl (fun m r => Nat.max m r.chunks) 0

/-- The registers a resident gang keeps from others: what it holds, and no less than its role budget. -/
def gangClaim (s : State) (g : Gang) : Nat :=
  64 * g.width * (1 + Nat.max g.held ((gangLaunch s g).map reserveChunks |>.getD 0))

def regsFree (s : State) (core : Nat) : Nat := 131072 - ((holders s core .rows).map (gangClaim s)).sum

/-- R186: the lowest free range of `size` units from `step` to `step`, among taken ranges. -/
def firstFit (taken : List (Nat × Nat)) (step total size : Nat) : Option Nat :=
  if size = 0 then some 0
  else ((List.range (total / step + 1)).map (· * step)).find? fun o =>
    o + size ≤ total && taken.all fun t => o + size ≤ t.1 || t.1 + t.2 ≤ o

/-- R163, R164: the scratch region and the barrier slots of a crew. -/
def scratchFit (s : State) (core size : Nat) : Option Nat :=
  firstFit (regionsOn s core) 64 262144 size

/-- R186: the n lowest-numbered free barrier slots of a core. -/
def barrierFit (s : State) (core n : Nat) : Option (List Nat) :=
  let free := (List.range 64).filter fun b => (crewsOn s core).all fun c => !c.barSlots.contains b
  if n ≤ free.length then some (free.take n) else none

/-- R171: the lane-registers a request needs. -/
def racqNeed (g : Gang) (k : Nat) : Nat := 64 * g.width * (k - g.held)

/-- R171: the head of the queue can be granted, or needs nothing. -/
def racqReady (s : State) (core : Nat) : Bool :=
  match (coreOf s core).racq with
  | [] => false
  | r :: _ =>
    match look r.gang s.gangs with
    | none => true
    | some g => decide (r.k ≤ g.held) || decide (racqNeed g r.k ≤ regsFree s core)

/-- R137, R235: the lane slots taken by gangs whose launch has an attribute. -/
def laneSlots (s : State) (core : Nat) (cl : Nat → Claim) (attr : Header → Bool) : Nat :=
  ((holders s core cl).filter fun g => ((gangLaunch s g).map fun l => attr l.hd).getD false).map (·.width) |>.sum

/-- R153: place n gangs of width w one after another; the slots and offsets, or none. -/
def placeSlots (ctx w : Nat) : Nat → List Gang → Gang → Option (List (Nat × Nat))
  | 0, _, _ => some []
  | n + 1, gs, proto =>
    match chooseSlot gs ctx w with
    | none => none
    | some (k, o) =>
      match placeSlots ctx w n ({ proto with slot := k, off := o, width := w, ctx := ctx } :: gs) proto with
      | none => none
      | some r => some ((k, o) :: r)

/-- A gang before its place and fibres are known (R17, R159). -/
def Gang.start (ctx ltag crew num core width : Nat) (gid : Dword) : Gang :=
  { gid := gid, ctx := ctx, ltag := ltag, crew := crew, num := num, core := core, slot := 0, off := 0, width := width
    fibres := [], s := [], ldcnt := 0, stcnt := 0, cpcnt := 0, mtcnt := 0, held := 0, tvec := 0, frames := []
    pend := [], trp := 0, role := none, age := 0, esc := none, issues := 0, latch := [], issuedAt := none, lord := BitVec.allOnes 32
    interval := 0, intervalOrd := BitVec.allOnes 32, logged := [], pb := 0, frozen := none, stop := .running
    walkFaults := [], mtSeen := [], mtDone := [], opRows := [], opDescs := [], opMark := 0, cpDone := [], holdOps := [] }

/-- Where a crew's parts go: its gangs' slots and offsets, its region's base, its barrier slots. -/
structure Room where
  slots : List (Nat × Nat)
  base : Nat
  bars : List Nat
  deriving DecidableEq, Repr

/-- R186: a core has room for one crew of a launch with n gangs of width w; R171: a `racq` that can be granted comes first. -/
def roomFor (s : State) (core ctx : Nat) (l : Launch) (n w scratch bars : Nat) : Option Room :=
  match placeSlots ctx w n (gangsOn s core) (Gang.start 0 0 0 0 0 0 0), scratchFit s core scratch, barrierFit s core bars with
  | some sl, some base, some bs =>
    if n * (64 * w * (1 + reserveChunks l)) ≤ regsFree s core ∧ !racqReady s core
        ∧ (!l.hd.wide ∨ laneSlots s core .wide (·.wide) + n * w ≤ 512) ∧ (!l.hd.prop ∨ laneSlots s core .prop (·.prop) + n * w ≤ 512)
    then some ⟨sl, base, bs⟩ else none
  | _, _, _ => none

/-- R270: the private span of a gang: its base and size. -/
def spanOf (s : State) (g : Gang) : Nat × Nat := (g.pb.toNat, (((gangLaunch s g).map (·.pkt.priv)).getD 0) * g.width)

/-- R270: where a span of `size` bytes, aligned to 128, may begin between `lo` and `hi`: at `lo`, or behind a span that is taken. -/
def spanFits (taken : List (Nat × Nat)) (lo hi size : Nat) : List Nat :=
  (((lo + 127) / 128 * 128) :: taken.map fun t => (t.1 + t.2 + 127) / 128 * 128).filter fun o =>
    decide (lo ≤ o) && decide (o + size ≤ hi) && taken.all fun t => o + size ≤ t.1 || t.1 + t.2 ≤ o

/-- R270: the spans that a context's gangs hold. -/
def spansOf (s : State) (ctx : Nat) : List (Nat × Nat) := (s.gangs.filter fun g => g.2.ctx = ctx).map fun g => spanOf s g.2

/-- R270: a private span of the context's arena that no gang of the context holds; of those that fit, an unpredictable one
(assumption 9). -/
def takeSpan (ctx bytes : Nat) (s : State) : Option (Dword × State) :=
  match look ctx s.ctxs with
  | none => none
  | some c =>
    let fits := spanFits (spansOf s ctx) c.arena (c.arena + c.arenaSize) bytes
    let (v, s) := freshVal s
    fits[v.toNat % fits.length]?.map fun o => (BitVec.ofNat 64 o, s)

/-- R270, R309: memory that a context is given holds zero or what the context itself has stored there: of each of its 4-byte words,
unpredictably, zero or what stands there (assumption 2). -/
def olderWords (ctx va n : Nat) (s : State) : State :=
  { s with
    fresh := s.fresh + n
    mem := (List.range n).foldl (fun m i =>
      match Config.coin (s.fresh + i), translateNow s ctx needNone (va + 4 * i) with
      | true, .pa a => (List.range 4).foldl (fun m j => put 0 (a + j) 0 m) m
      | _, _ => m) s.mem }

/-- R270: the private span of a new gang of width w of a launch; none is needed where PRIV is 0. -/
def privSpan (ctx : Nat) (l : Launch) (w : Nat) (s : State) : Dword × State :=
  if l.pkt.priv = 0 then (0, s)
  else match takeSpan ctx (l.pkt.priv * w) s with
    | some (pb, s) => (pb, olderWords ctx pb.toNat (l.pkt.priv * w / 4) s)
    | none => (0, s)

/-- R270, R423: the arena has room for the spans of n more gangs of width w. -/
def spanRoom (s : State) (ctx : Nat) (l : Launch) (w n : Nat) : Bool :=
  l.pkt.priv = 0 || match look ctx s.ctxs with
    | none => false
    | some c =>
      ((List.range n).foldl (fun (acc : Option (List (Nat × Nat))) _ => acc.bind fun t =>
        (spanFits t c.arena (c.arena + c.arenaSize) (l.pkt.priv * w)).head?.map fun o => (o, l.pkt.priv * w) :: t)
        (some (spansOf s ctx))).isSome

/-- R17: a fibre as it starts. -/
def Fibre.start (pc : Pc) (fid seed bound : Dword) (sel : BitVec 4) : Fibre :=
  { Fibre.blank with life := .live, pc := pc, fid := fid, key := seed ^^^ fid, bound := bound, incsel := sel }

/-- R200: an idle barrier. -/
def Barrier.idle : Barrier := ⟨0, 0, 0, [], []⟩

end Sys2Proof.Machine
end

