-- ==== Sys2Proof/Machine/Control.lean ====
section
/-! DEFINITION. The control instructions (05 R95 to R101, 20 R389 to R392, 24 R437). -/

namespace Sys2Proof.Machine

def num64 (n : Nat) : Dword := BitVec.ofNat 64 n

/-- R99. -/
def execNop (h : Hd) (s : State) : Outc := issue (.nop h) h .none noGate (fun _ s => s) s

/-- R99: the hand-over of R159 is part of every issue. -/
def execYield (h : Hd) (s : State) : Outc := issue (.yield h) h .none noGate (fun _ s => s) s

/-- R96: the target of a label. -/
def labelPc (pc : Pc) (off : Word) : Pc := pc + off.signExtend 48

/-- R96. -/
def execBr (h : Hd) (off : Word) (s : State) : Outc :=
  issue (.br h off) h .none noGate (fun x => perLane x fun _ f => .ok { f with pc := labelPc x.pc off }) s

/-- R96: the link is written as n64; it is the 64-bit sum, where the target wraps at 2^48. -/
def execCallLabel (h : Hd) (d : Opnd) (off : Word) (s : State) : Outc :=
  issue (.callLabel h d off) h .none noGate (fun x => perLane x fun _ f =>
    wr 64 d (num64 (x.pc.toNat + 12)) (.ok { f with pc := labelPc x.pc off })) s

/-- R97: a register target: RANGE, then MISALIGN, else the PC. -/
def goTo (f : Fibre) (t : Dword) (ok : Fibre → Lane) : Lane :=
  if t.toNat / 2 ^ 48 ≠ 0 then .bad f (cause cRANGE) t
  else if t.toNat % 4 ≠ 0 then .bad f (cause cMISALIGN) t
  else ok { f with pc := t.setWidth 48 }

/-- R97. -/
def execBrx (h : Hd) (a : Opnd) (s : State) : Outc :=
  issue (.brx h a) h .none noGate (fun x => perLane x fun _ f => goTo f (rd x.g h.ext (rdTy .n64) f a) .ok) s

/-- R97. -/
def execRet (h : Hd) (a : Opnd) (s : State) : Outc :=
  issue (.ret h a) h .none noGate (fun x => perLane x fun _ f => goTo f (rd x.g h.ext (rdTy .n64) f a) .ok) s

/-- R97: A is read before D is written; a faulting fibre's D is not written. -/
def execCallRegister (h : Hd) (d a : Opnd) (s : State) : Outc :=
  issue (.callRegister h d a) h .none noGate (fun x => perLane x fun _ f =>
    goTo f (rd x.g h.ext (rdTy .n64) f a) fun f => wr 64 d (num64 (x.pc.toNat + 8)) (.ok f)) s

/-- R98. -/
def execExit (h : Hd) (s : State) : Outc := issue (.exit h) h .none noGate (fun x => endLanes x.k x.act) s

/-- R391. -/
def execTrap (h : Hd) (a : Opnd) (s : State) : Outc :=
  issue (.trap h a) h .none noGate (fun x => perLane x fun _ f =>
    .bad f (cause cSWTRAP) (rd x.g h.ext (rdTy .n32) f a)) s

/-- R389. -/
def execTret (h : Hd) (s : State) : Outc :=
  issue (.tret h) h .none noGate (gangOnce fun x => updGang x.k (trapReturn x.act)) s

/-- R438: TADDR of BREAK at a `brk`. -/
def brkAddr (ord : Word) : Dword := breakAddr false ord

/-- R437: the ordinal is that of R435, none when the stop bit is clear. -/
def execBrk (h : Hd) (s : State) : Outc :=
  issue (.brk h) h .none noGate (fun x s' =>
    let ord := if h.stop then ordinalAt s x.g x.pc else BitVec.allOnes 32
    perLane x (fun _ f => .bad f (cause cBREAK) (brkAddr ord)) s') s

/-! ## System registers -/

/-- R182, R224: a crew's coordinates in its grid. -/
def gridCoord (s : State) (g : Gang) (axis : Nat) : Nat :=
  match look g.crew s.crews, gangLaunch s g with
  | some c, some l =>
    if c.spawned then 0
    else if l.sym.isSome then (if axis = 0 then c.index else 0)
    else if axis = 0 then c.index % l.pkt.gx
    else if axis = 1 then c.index / l.pkt.gx % l.pkt.gy
    else c.index / (l.pkt.gx * l.pkt.gy)
  | _, _ => 0

def crewNumber (s : State) (g : Gang) : Nat :=
  match look g.crew s.crews with
  | some c => if c.spawned then 0xFFFFFFFF else c.index
  | none => 0xFFFFFFFF

/-- R236. -/
def pstate (f : Fibre) : Dword := (if f.psel then 2 else 0) + (if f.popen then 1 else 0)

/-- R100, R385: the value of a system register other than the performance counters, for one fibre. -/
def srValue (s : State) (g : Gang) (lane : Nat) (f : Fibre) (k : Nat) : Dword :=
  match k with
  | 0x00 => s.clk
  | 0x01 => f.fst.setWidth 64
  | 0x02 => num64 lane
  | 0x03 => f.fid
  | 0x04 => g.gid
  | 0x05 => num64 (crewNumber s g)
  | 0x06 => num64 g.core
  | 0x07 => num64 (clusterOf g.core)
  | 0x08 => num64 (dieOf g.core)
  | 0x09 => num64 g.width
  | 0x0A => num64 (gridCoord s g 0)
  | 0x0B => num64 (gridCoord s g 1)
  | 0x0C => num64 (gridCoord s g 2)
  | 0x0D => f.fidx.setWidth 64
  | 0x0E => f.fidy.setWidth 64
  | 0x0F => f.fidz.setWidth 64
  | 0x10 => f.bound
  | 0x11 => f.incsel.setWidth 64
  | 0x12 => f.pcnt.setWidth 64
  | 0x13 => f.acnt.setWidth 64
  | 0x14 => f.key
  | 0x15 => f.ctr
  | 0x16 => pstate f
  | 0x18 => ((topRec g lane).map fun r => r.cause.setWidth 64).getD 0
  | 0x19 => (topPc g lane).setWidth 64
  | 0x1A => (g.frames.head?.map (·.tmask)).getD 0
  | 0x1B => ((topRec g lane).map (·.addr)).getD 0
  | 0x1C => num64 g.frames.length
  | 0x1D => g.tvec.setWidth 64
  | 0x24 => num64 g.held
  | 0x28 => num64 g.ldcnt
  | 0x29 => num64 g.stcnt
  | 0x2A => num64 g.cpcnt
  | 0x2B => num64 g.mtcnt
  | _ => 0

/-- R440: the gang's context holds its core's counters. -/
def holdsPerf (s : State) (g : Gang) : Bool := (coreOf s g.core).perf.owner = some g.ctx

/-- R447: a `getsr` of CLK or of a counter is logged for replay. -/
def logGetsr (x : Iss) (idx : Nat) (v : Dword) (s : State) : State :=
  if idx = 0 ∨ 0x30 ≤ idx then (lanesOf x.act).foldl (fun s i => logValue x.k i v s) s else s

/-- R100, R101, R441: the value at issue; a counter's is the one it had at the start of the cycle. -/
def execGetsr (h : Hd) (wide : Bool) (d : Opnd) (idx : Fin 64) (s : State) : Outc :=
  issue (.getsr h wide d idx) h .none noGate (fun x s' =>
    let put := fun f v => wr (if wide then 64 else 32) d v (.ok f)
    if 0x30 ≤ idx.val then
      if holdsPerf s x.g then
        let v := find 0 (idx.val - 0x30) (coreOf s x.g.core).perf.ctr
        perLane x (fun _ f => put f v) (logGetsr x idx v s')
      else faultAll x (cause cPROT) 0 s'
    else perLane x (fun i f => put f (srValue s x.g i f idx)) (logGetsr x idx s.clk s')) s

/-- R100: `setsr.n32` writes the value zero-extended. -/
def srSource (g : Gang) (h : Hd) (wide : Bool) (f : Fibre) (a : Opnd) : Dword :=
  rd g h.ext (rdTy (if wide then .n64 else .n32)) f a

/-- R385: write TPC of one lane in the top frame. -/
def setTpc (i : Nat) (v : Dword) (g : Gang) : Gang :=
  let pc : Pc := BitVec.ofNat 48 (v.toNat / 4 * 4)
  match g.frames with
  | [] => g
  | fr :: frs => { g with frames := { fr with recs := fr.recs.map fun r => if r.lane = i then { r with tpc := pc } else r } :: frs }

/-- R100, R101, R385: FST, CTR, TPC and TVEC; a gang's register takes the highest active lane's value. -/
def execSetsr (h : Hd) (wide : Bool) (a : Opnd) (idx : Fin 64) (s : State) : Outc :=
  issue (.setsr h wide a idx) h .none noGate (fun x s' =>
    let v := fun f => srSource x.g h wide f a
    match idx.val with
    | 0x01 => perLane x (fun _ f => .ok { f with fst := (v f).setWidth 5 }) s'
    | 0x15 => perLane x (fun _ f => .ok { f with ctr := v f }) s'
    | 0x19 => updGang x.k (fun g => (lanesOf x.act).foldl (fun g i =>
        match fibreAt x.g i with | some f => setTpc i (v f) g | none => g) g) s'
    | _ =>
      match (topLane x.act).bind (fibreAt x.g) with
      | some f => updGang x.k (fun g => { g with tvec := BitVec.ofNat 48 ((v f).toNat / 4 * 4) }) s'
      | none => s') s

/-- R20: a write of KEY also clears CTR. -/
def execSetsrKey (h : Hd) (wide : Bool) (a : Opnd) (s : State) : Outc :=
  issue (.setsrKey h wide a) h .none noGate (fun x => perLane x fun _ f =>
    .ok { f with key := srSource x.g h wide f a, ctr := 0 }) s

/-- R441: a counter takes written bits, COUNT and OVF, as the cycle ends, and this cycle's events are discarded. -/
def Perf.write (k : Nat) (v : Dword) (p : Perf) : Perf :=
  { p with wrote := ins k (v &&& 0x8000FFFFFFFFFFFF) p.wrote, now := put 0 k 0 p.now }

/-- R439 to R441. -/
def execSetsrPerf (h : Hd) (wide : Bool) (a : Opnd) (k : Fin 16) (s : State) : Outc :=
  issue (.setsrPerf h wide a k) h .none noGate (fun x s' =>
    if !holdsPerf s x.g then faultAll x (cause cPROT) 0 s'
    else match (topLane x.act).bind (fibreAt x.g) with
      | some f =>
        updCore x.g.core (fun c => { c with perf := c.perf.write k (srSource x.g h wide f a) }) s'
      | none => s') s

end Sys2Proof.Machine
end

