-- ==== Sys2Proof/Machine/Kaleidoscope.lean ====
section
/-! DEFINITION. Symmetry launches: the group, its representatives, the symmetry area, and `orbit` (11 R218 to R234). -/

namespace Sys2Proof.Machine

/-! ## Generators and elements -/

abbrev Point := Nat × Nat × Nat
/-- R218: the extents of the point space. -/
abbrev Extents := Nat × Nat × Nat

def axisOf (p : Nat × Nat × Nat) (c : Nat) : Nat := if c = 0 then p.1 else if c = 1 then p.2.1 else p.2.2

/-- R218: lin(p). -/
def lin (e : Extents) (p : Point) : Nat := p.2.2 * (e.2.1 * e.1) + p.2.1 * e.1 + p.1

/-- R220. -/
inductive Gen where
  | swap (a b : Nat)
  | flip (a : Nat)
  | shift (a s : Nat)
  deriving DecidableEq, Repr

def Element.axis (m : Element) (c : Nat) : AxisMap := if c = 0 then m.x else if c = 1 then m.y else m.z

/-- R220: the normalised form of one axis. -/
def normAxis (e : Extents) (c : Nat) (a : AxisMap) : AxisMap :=
  let n := axisOf e c
  if n = 1 then ⟨c, false, 0⟩ else ⟨a.src, a.flip && decide (2 < n), a.k % n⟩

def Element.one : Element := ⟨⟨0, false, 0⟩, ⟨1, false, 0⟩, ⟨2, false, 0⟩, []⟩

/-- R220: the action on one axis. -/
def actAxis (e : Extents) (m : Element) (p : Point) (c : Nat) : Nat :=
  let a := m.axis c
  let n := axisOf e c
  let i := axisOf p a.src
  ((if a.flip then n - i % n else i) + a.k) % n

def act (e : Extents) (m : Element) (p : Point) : Point := (actAxis e m p 0, actAxis e m p 1, actAxis e m p 2)

/-- One axis of the element that applies g after m. -/
def genAxis (e : Extents) (g : Gen) (m : Element) (c : Nat) : AxisMap :=
  let n := axisOf e c
  let a := m.axis c
  normAxis e c (match g with
    | .swap x y => if c = x then m.axis y else if c = y then m.axis x else a
    | .flip x => if c = x then ⟨a.src, !a.flip, n - 1 + (n - a.k % n)⟩ else a
    | .shift x s => if c = x then ⟨a.src, a.flip, a.k + s⟩ else a)

/-- The element of a word with one more letter, generator number i. -/
def thenGen (e : Extents) (i : Nat) (g : Gen) (m : Element) : Element :=
  ⟨genAxis e g m 0, genAxis e g m 1, genAxis e g m 2, m.word ++ [i]⟩

def sameMap (a b : Element) : Bool := a.x = b.x && a.y = b.y && a.z = b.z

/-- R221: the words one letter longer that denote new elements, in lexicographic order. -/
def nextLayer (e : Extents) (gs : List Gen) (seen layer : List Element) : List Element :=
  layer.foldl (fun new m =>
    (gs.mapIdx fun i g => thenGen e (i + 1) g m).foldl (fun new x =>
      if (seen ++ new).any (sameMap x) then new else new ++ [x]) new) []

/-- R221: all elements in the order of their canonical words; stops past 48, which R222 rejects. -/
def closure (e : Extents) (gs : List Gen) : Nat → List Element → List Element → List Element
  | 0, seen, _ => seen
  | fuel + 1, seen, layer =>
    let new := nextLayer e gs seen layer
    if new = [] ∨ 48 < (seen ++ new).length then seen ++ new else closure e gs fuel (seen ++ new) new

def groupOf (e : Extents) (gs : List Gen) : List Element := closure e gs 48 [Element.one] [Element.one]

/-- R227: the syllables of a word: generator and exponent. -/
def syllables : List Nat → List (Nat × Nat)
  | [] => []
  | g :: w =>
    match syllables w with
    | (k, n) :: r => if k = g then (g, n + 1) :: r else (g, 1) :: (k, n) :: r
    | [] => [(g, 1)]

/-- R228: an odd number of letters of negating generators. -/
def oddNeg (neg : BitVec 3) (w : List Nat) : Bool := (w.filter fun g => neg.getLsbD (g - 1)).length % 2 = 1

/-- R222, R228: every word of each element has the same parity. -/
def parityOk (e : Extents) (gs : List Gen) (els : List Element) (neg : BitVec 3) : Bool :=
  els.all fun m => (gs.mapIdx fun i g => (i + 1, thenGen e (i + 1) g m)).all fun x =>
    match els.find? (sameMap x.2) with
    | some y => oddNeg neg y.word == (oddNeg neg m.word != neg.getLsbD (x.1 - 1))
    | none => true

/-- R219, R222: one generator of the descriptor; none where the packet is rejected, `some none` for KIND 0. -/
def readGen (e : Extents) (w : Nat) : Option (Option Gen) :=
  let kind := w % 4
  let a := w / 4 % 4
  let b := w / 16 % 4
  let s := w / 2 ^ 32
  if w / 64 % 2 ^ 26 ≠ 0 then none
  else if kind = 0 then (if w = 0 then some none else none)
  else if a = 3 then none
  else if kind = 1 then
    (if b = 3 ∨ a = b ∨ axisOf e a ≠ axisOf e b ∨ s ≠ 0 then none else some (some (.swap a b)))
  else if b ≠ 0 then none
  else if kind = 2 then (if s ≠ 0 then none else some (some (.flip a)))
  else if s = 0 ∨ axisOf e a ≤ s then none else some (some (.shift a s))

/-- R219, R222: the generators of a descriptor of 256 bits. -/
def readGens (e : Extents) (d : Nat) : Option (List Gen) :=
  if d / 2 ^ 192 ≠ 0 then none
  else
    match readGen e (d % 2 ^ 64), readGen e (d / 2 ^ 64 % 2 ^ 64), readGen e (d / 2 ^ 128 % 2 ^ 64) with
    | some (some a), some (some b), some (some c) => some [a, b, c]
    | some (some a), some (some b), some none => some [a, b]
    | some (some a), some none, some none => some [a]
    | _, _, _ => none

/-- R226: an image map; none for a reserved ESIZE or bit. -/
def readMap (n : Nat) : Option ImageMap :=
  let esize := n / 2 ^ 160 % 16
  if n / 2 ^ 167 ≠ 0 ∨ 4 < esize then none
  else some
    { base := BitVec.ofNat 64 n, sx := BitVec.ofNat 32 (n / 2 ^ 64), sy := BitVec.ofNat 32 (n / 2 ^ 96)
      sz := BitVec.ofNat 32 (n / 2 ^ 128), esize := esize, neg := BitVec.ofNat 3 (n / 2 ^ 164) }

/-- R222: the group and the maps of a symmetry launch, from its descriptor and its four maps. -/
def readSym (e : Extents) (d : Nat) (maps : List Nat) : Option Sym :=
  match readGens e d, maps.mapM readMap with
  | some gs, some ms =>
    let els := groupOf e gs
    if 48 < els.length ∨ (els.any fun m => 12 < (syllables m.word).length)
      ∨ (ms.any fun m => m.esize ≠ 0 && !parityOk e gs els m.neg) then none
    else some ⟨els, ms⟩
  | _, _ => none

/-! ## Representatives -/

def pointAt (e : Extents) (i : Nat) : Point := (i % e.1, i / e.1 % e.2.1, i / (e.1 * e.2.1))

/-- R223. -/
def isRep (e : Extents) (y : Sym) (p : Point) : Bool := y.elems.all fun m => lin e p ≤ lin e (act e m p)

def reps (e : Extents) (y : Sym) : List Point :=
  ((List.range (e.1 * e.2.1 * e.2.2)).map (pointAt e)).filter (isRep e y)

/-- R234. -/
def stabilises (e : Extents) (p : Point) (m : Element) : Bool := act e m p = p

/-- The stabiliser mask of a point. -/
def stabMask (e : Extents) (y : Sym) (p : Point) : Nat :=
  (y.elems.mapIdx fun j m => if stabilises e p m then 2 ^ j else 0).sum

def orbitSizeOf (e : Extents) (y : Sym) (p : Point) : Nat :=
  y.elems.length / (y.elems.filter (stabilises e p)).length

/-! ## The symmetry area -/

/-- R227, R228: one entry of the element table; VNEG follows the NEG bits of every map, defined or not. -/
def elementEntry (y : Sym) (m : Element) : Nat :=
  let sy := syllables m.word
  let axis (c : Nat) : Nat :=
    let a := m.axis c
    2 ^ (224 + 2 * c) * a.src + (if a.flip then 2 ^ (230 + c) else 0) + 2 ^ (128 + 32 * c) * a.k
  let vneg := (y.maps.mapIdx fun i w => if oddNeg w.neg m.word then 2 ^ (233 + i) else 0).sum
  sy.length + (sy.mapIdx fun i s => 2 ^ (8 * i + 8) * (s.1 + 4 * s.2)).sum + axis 0 + axis 1 + axis 2 + vneg

/-- R225: what the puppeteer writes, from offset 0x80 on. -/
def symArea (e : Extents) (y : Sym) : List Byte :=
  leBytes 4 y.elems.length ++ leBytes 4 0 ++ leBytes 8 (reps e y).length ++ leBytes 112 0
    ++ (y.elems.flatMap fun m => leBytes 32 (elementEntry y m)) ++ leBytes (32 * (48 - y.elems.length)) 0 ++ leBytes 256 0

/-! ## `orbit` -/

/-- The group and extents of a gang's launch. -/
def symOf (s : State) (g : Gang) : Option (Sym × Extents) :=
  match gangLaunch s g with
  | some l => l.sym.map fun y => (y, l.pkt.gx, l.pkt.gy, l.pkt.gz)
  | none => none

/-- R234: act for the fibres that have a point; the others take SYMSTORE. -/
def orbitOp (i : Instr) (h : Hd) (fn : Sym → Extents → Point → Fibre → Lane) (s : State) : Outc :=
  issue i h .none noGate (fun x s' => perLane x (fun _ f =>
    match symOf s x.g, f.point with
    | some (y, e), some p => fn y e p f
    | _, _ => .bad f (cause cSYMSTORE) 1) s') s

/-- R234. -/
def execOrbitSize (h : Hd) (d : Opnd) (s : State) : Outc :=
  orbitOp (.orbitSize h d) h (fun y e p f => wr 32 d (num64 (orbitSizeOf e y p)) (.ok f)) s

/-- R234. -/
def execOrbitStab (h : Hd) (d : Opnd) (s : State) : Outc :=
  orbitOp (.orbitStab h d) h (fun y e p f => wr 64 d (num64 (stabMask e y p)) (.ok f)) s

/-- R234. -/
def execOrbitImg (h : Hd) (d : Opnd) (j : Fin 512) (s : State) : Outc :=
  orbitOp (.orbitImg h d j) h (fun y e p f =>
    match y.elems[j.val]? with
    | some m => wr 64 d (num64 (lin e (act e m p))) (.ok f)
    | none => .bad f (cause cRANGE) (num64 j)) s

/-! ## The image list -/

/-- R230: the value u of an image: neg(v) of a type. -/
def negVal (t : Ty) (v : Dword) : Dword :=
  if tyFloat t then v ^^^ (1 <<< (tyBits t - 1)) else tyWrap t (-(tyVal t v))

/-- R230: the address of an image. -/
def imageAddr (m : ImageMap) (ea : Dword) (p q : Point) : Dword :=
  let dx (a b : Nat) : Dword := num64 a - num64 b
  ea + m.base + m.sx.signExtend 64 * dx q.1 p.1 + m.sy.signExtend 64 * dx q.2.1 p.2.1
    + m.sz.signExtend 64 * dx q.2.2 p.2.2

/-- R230: the list L: the primary store, then the images whose address is new. -/
def imageList (y : Sym) (e : Extents) (m : ImageMap) (t : Ty) (p : Point) (ea v : Dword) : List (Dword × Dword) :=
  (y.elems.drop 1).foldl (fun l g =>
    let a := imageAddr m ea p (act e g p)
    if l.any fun x => x.1 = a then l else l ++ [(a, if oddNeg m.neg g.word then negVal t v else v)]) [(ea, v)]

/-- R231: the first check that fails before the addresses are looked at. -/
def imageBad (y : Option (Sym × Extents)) (map : Fin 4) (t : Ty) (f : Fibre) : Option Nat :=
  match y, f.point with
  | some (y, _), some _ =>
    match y.maps[map.val]? with
    | none => some 2
    | some m =>
      if m.esize = 0 then some 2
      else if 2 ^ (m.esize - 1) ≠ tyBytes t then some 3
      else if tyBit t ∧ m.neg ≠ 0 then some 4
      else none
  | _, _ => some 1

end Sys2Proof.Machine
end

