-- ==== Sys2Proof/Machine/Mem.lean ====
section
/-! DEFINITION. The memory system: checks of an access, requests to the homes, the caches, and the return of results
(13 R250 to R263, R451; 14 R274 to R280; 05 R106 to R111). -/

namespace Sys2Proof.Machine

def lineOf (pa : Nat) : Nat := pa / 128
def sectorOf (pa : Nat) : Nat := pa / 64

/-! ## Links and islands -/

/-- R411: the link from one die to another delivers. -/
def linkUp (s : State) (src dst : Nat) : Bool := !s.links.contains (src, dst)

/-- R258: the XOR fold of a physical address. -/
def sliceOf (pa : Nat) : Nat := ((List.range 11).map fun k => pa / 2 ^ (7 + 4 * k) % 16).foldl Nat.xor 0

/-- R414, R417: islands 0 to 47 are clusters, 48 to 51 cache dies, 52 to 59 memory interfaces, 60 to 63 fabric. -/
def islandOf (s : State) (i : Nat) : Island := (look i s.islands).getD ⟨0, 0, false, 0⟩
def islandUp (s : State) (i : Nat) : Bool := (islandOf s i).st = 0
def cacheIsland (die : Nat) : Nat := 48 + die
def fabricIsland (die : Nat) : Nat := 60 + die
/-- R257: slice s sends its misses to stack s mod 4, and two stacks share an interface. -/
def hbmIsland (line : Nat) : Nat := 52 + 2 * homeDie (128 * line) + sliceOf (128 * line) % 4 / 2

/-- R411, R417: what one die sends to another gets there. -/
def sendUp (s : State) (src dst : Nat) : Bool :=
  linkUp s src dst && islandUp s (fabricIsland src) && islandUp s (fabricIsland dst)

/-- R411, R417: an agent of a die that is no fibre can read or write at an address now: both ways, the home's cache die and,
where its L2 does not hold the line, the memory interface. -/
def pathUp (s : State) (die pa : Nat) : Bool :=
  let home := homeDie pa
  sendUp s die home && sendUp s home die && islandUp s (cacheIsland home)
    && (s.l2.contains (lineOf pa) || islandUp s (hbmIsland (lineOf pa)))

/-- The die from which a line is reached: an agent of the fabric stands at its home. -/
def fromDie (die : Option Nat) (l : Nat) : Nat := die.getD (homeDie (128 * l))

/-- R411, R417: lines can be reached from a die, or from the fabric. -/
def linesUp (s : State) (die : Option Nat) (ls : List Nat) : Bool := ls.all fun l => pathUp s (fromDie die l) (128 * l)

/-- R417: the islands outside S0 that stand between an agent and some lines, and have not begun their exit. -/
def asleep (s : State) (die : Option Nat) (ls : List Nat) : List Nat :=
  (distinct (ls.flatMap fun l => [fabricIsland (fromDie die l), fabricIsland (homeDie (128 * l)), cacheIsland (homeDie (128 * l))]
    ++ if s.l2.contains l then [] else [hbmIsland l])).filter fun i => !islandUp s i && !(islandOf s i).exiting

/-- R417: they begin it, and the access waits. -/
def rouse (die : Option Nat) (ls : List Nat) (s : State) : State :=
  { s with islands := (asleep s die ls).foldl (fun m i => ins i { islandOf s i with exiting := true } m) s.islands }

/-- R411, R417: what reads or writes some lines goes on once they can be reached. -/
def comeUp (die : Option Nat) (ls : List Nat) (go : State → Outc) (s : State) : Outc :=
  if linesUp s die ls then go s else if asleep s die ls = [] then .fault .notEnabled else .next (rouse die ls s)

/-! ## Checks -/

/-- What checking one fibre's access gives: the keys of its bytes, a fault, or the addresses that need a walk. -/
inductive Chk where
  | ok (keys : List Nat)
  | bad (cause : Word)
  | miss (vas : List Nat)
  deriving DecidableEq, Repr

/-- One fibre's access. -/
structure Acc where
  lane : Nat
  ea : Dword
  n : Nat
  al : Nat
  deriving DecidableEq, Repr

/-- R270: where a private byte of a lane stands. -/
def privVa (g : Gang) (lane a : Nat) : Nat := g.pb.toNat + 4 * (a / 4 * g.width + lane) + a % 4

/-- R106, R268: translate the pieces of an access in order; the first that fails decides. -/
def chkPieces (s : State) (g : Gang) (need : Need) : List (Nat × Nat) → Chk
  | [] => .ok []
  | (va, n) :: ps =>
    match translate s g need va with
    | .bad c => .bad c
    | .miss => (match chkPieces s g need ps with | .miss vs => .miss (va :: vs) | _ => .miss [va])
    | .pa p =>
      match chkPieces s g need ps with
      | .ok ks => .ok ((List.range n).map (p + ·) ++ ks)
      | r => r

/-- R107, R270: the 4-byte pieces of a private access. -/
def privPieces (g : Gang) (a : Acc) : List (Nat × Nat) :=
  let e := a.ea.toNat
  if a.n ≤ 4 then [(privVa g a.lane e, a.n)]
  else (List.range (a.n / 4)).map fun i => (privVa g a.lane (e + 4 * i), 4)

def crewOf (s : State) (g : Gang) : Option Crew := look g.crew s.crews
def scratchSize (s : State) (g : Gang) : Nat := ((crewOf s g).map (·.size)).getD 0
def scratchBase (s : State) (g : Gang) : Nat := ((crewOf s g).map (·.base)).getD 0

/-- R107: the private size per fibre of the gang's launch. -/
def privSize (s : State) (g : Gang) : Nat := ((gangLaunch s g).map (·.pkt.priv)).getD 0

/-- The key of a peer byte: the lane's own view of a peer address. -/
def peerKey (lane ea : Nat) : Nat := lane * 2 ^ 23 + ea

/-- R106, R107: RANGE, then MISALIGN, then translation. -/
def check (s : State) (g : Gang) (space : Space) (need : Need) (a : Acc) : Chk :=
  let e := a.ea.toNat
  let inRange := match space with
    | .glob => e < 2 ^ 52
    | .priv => e + a.n ≤ privSize s g
    | .scratch => e + a.n ≤ scratchSize s g
    | .peer => e < 2 ^ 23
  if !inRange then .bad (cause cRANGE)
  else if e % a.al ≠ 0 then .bad (cause cMISALIGN)
  else match space with
    | .glob => chkPieces s g need [(e, a.n)]
    | .priv => chkPieces s g need (privPieces g a)
    | .scratch => .ok ((List.range a.n).map fun i => scratchBase s g + e + i)
    | .peer => .ok ((List.range a.n).map fun i => peerKey a.lane (e + i))

/-- The walks some accesses need. -/
def missing (s : State) (g : Gang) (space : Space) (need : Need) (as : List Acc) : List Nat :=
  as.flatMap fun a => match check s g space need a with | .miss vs => vs | _ => []

/-- A gate: hold the instruction while its addresses need walks, and start them. -/
def walkGate (space : Space) (need : Need) (accs : Iss → List Acc) (x : Iss) (s : State) : Option State :=
  let ms := distinct (missing s x.g space need (accs x))
  if ms = [] then none else some (startWalks x.k x.g need ms s)

/-- The accesses that pass, and the faults of the others. -/
def split (s : State) (g : Gang) (space : Space) (need : Need) (as : List Acc) : List Part :=
  as.filterMap fun a => match check s g space need a with | .ok ks => some ⟨a.lane, ks⟩ | _ => none

def faultsOf (s : State) (x : Iss) (space : Space) (need : Need) (as : List Acc) : List TrapRec :=
  as.filterMap fun a => match check s x.g space need a with | .bad c => some ⟨a.lane, c, a.ea, x.pc⟩ | _ => none

/-- R97, R106, R383: record faults; the faulting fibres stay at the instruction. -/
def raiseFaults (x : Iss) (recs : List TrapRec) (s : State) : State :=
  updGang x.k (fun g =>
    { onLanes (recMask recs) (fun _ f => { f with pc := x.pc }) g with pend := g.pend ++ recs }) s

/-- One access per active fibre. -/
def laneAccs (x : Iss) (ea : Fibre → Dword) (n al : Nat) : List Acc :=
  (lanesOf x.act).filterMap fun i => (fibreAt x.g i).map fun f => ⟨i, ea f, n, al⟩

/-! ## Requests and caches -/

def pushReq (op core ctx line : Nat) (act : ReqAct) (s : State) : State :=
  let (id, s) := freshId s
  perfCount core ctx 6 1 { s with reqs := s.reqs ++ [⟨id, op, core, ctx, line, act, .mesh, s.clk, false⟩] }

/-- R451: fills under way for some lines will not be placed in a core's L1. -/
def poisonL1 (core : Nat) (hit : Nat → Bool) (s : State) : State :=
  mapReqs (fun r => match r.act with
    | .read _ rdc sec => if r.core = core && hit r.line then { r with act := .read false rdc sec } else r
    | _ => r) s

/-- R451: nor in the RDC of a die. -/
def poisonRdc (die : Nat) (hit : Nat → Bool) (s : State) : State :=
  mapReqs (fun r => match r.act with
    | .read l1 _ sec => if dieOf r.core = die && hit r.line then { r with act := .read l1 false sec } else r
    | _ => r) s

def keepLines (hit : Nat → Bool) (per : Nat) {β : Type} (m : AMap β) : AMap β := m.filter fun x => !hit (x.1 / per)

/-- R252: ordinary copies of some lines leave a core's L1. -/
def discardL1 (core : Nat) (hit : Nat → Bool) (s : State) : State :=
  poisonL1 core hit (updCore core (fun c =>
    { c with l1 := keepLines hit 128 c.l1, l1Desc := keepLines hit 2 c.l1Desc }) s)

def rdcOf (s : State) (die : Nat) : AMap Byte := (look die s.rdc).getD []
def rdcDescOf (s : State) (die : Nat) : AMap (BitVec 16) := (look die s.rdcDesc).getD []

/-- R263: copies leave a die's RDC. -/
def discardRdc (die : Nat) (hit : Nat → Bool) (s : State) : State :=
  poisonRdc die hit { s with rdc := ins die (keepLines hit 128 (rdcOf s die)) s.rdc
                             rdcDesc := ins die (keepLines hit 2 (rdcDescOf s die)) s.rdcDesc }

/-- R255: merge the update-only lines that match, ahead of what follows; the ordinary copy goes with them. -/
def mergeUo (core : Nat) (hit : Nat → Bool) (s : State) : State :=
  let us := (coreOf s core).uo.filter fun u => hit u.line
  let s := us.foldl (fun s u => pushReq 0 core u.ctx u.line (.merge u) (discardL1 core (· = u.line) s)) s
  if us = [] then s else updCore core (fun c => { c with uo := c.uo.filter fun u => !hit u.line }) s

/-- R252, R255: a line leaves a core's L1; an update-only line is merged. -/
def evictL1 (core line : Nat) (s : State) : State :=
  updCore core (fun c => { c with l1 := keepLines (· = line) 128 c.l1, l1Desc := keepLines (· = line) 2 c.l1Desc })
    (mergeUo core (· = line) s)

/-- R3: 128 KiB of lines. -/
def l1Lines : Nat := 1024

/-- R254: the lines that take space in a core's L1, ordinary and update-only. -/
def linesIn (c : Core) : List Nat := distinct (c.l1.map fun x => x.1 / 128) ++ c.uo.map (·.line)

/-- R252, R254: make room in L1 for a line: while it is full, an unpredictable line is evicted. -/
def makeRoom (core line : Nat) (s : State) : State :=
  let ls := linesIn (coreOf s core)
  if ls.contains line ∨ ls.length < l1Lines then s
  else
    let (v, s) := freshVal s
    evictL1 core (ls.getD (v.toNat % ls.length) 0) s

/-- R412: a line leaves a die's RDC. -/
def dropRdc (die line : Nat) (s : State) : State :=
  { s with rdc := ins die (keepLines (· = line) 128 (rdcOf s die)) s.rdc
           rdcDesc := ins die (keepLines (· = line) 2 (rdcDescOf s die)) s.rdcDesc }

/-- R2: 64 MiB of lines. -/
def rdcLines : Nat := 524288

/-- R412: make room in an RDC for a line: while it is full, an unpredictable line is evicted. -/
def roomRdc (die line : Nat) (s : State) : State :=
  let m := rdcOf s die
  if m.length < 64 * rdcLines then s
  else
    let ls := distinct (m.map fun x => x.1 / 128)
    if ls.contains line ∨ ls.length < rdcLines then s
    else
      let (v, s) := freshVal s
      dropRdc die (ls.getD (v.toNat % ls.length) 0) s

/-- R280: the discards of an acquire. -/
def acquireAt (core : Nat) (sc : Scope) (s : State) : State :=
  let all := fun _ : Nat => true
  match sc with
  | .fib | .gang | .crew => s
  | .clu => discardL1 core all s
  | .die | .dev | .sys => discardRdc (dieOf core) all (discardL1 core all s)

/-- Scopes at which a release or acquire reaches the homes (R253, R279). -/
def wideScope : Scope → Bool
  | .fib | .gang | .crew => false
  | _ => true

/-- R274, R287: what a core's engine reads or writes from now on at some lines comes after the requests numbered below `id` that
the core has made for them: they are performed, and the writes among them acknowledged. -/
def linesClear (s : State) (core id : Nat) (hit : Nat → Bool) : Bool :=
  s.reqs.all fun r => r.core ≠ core || !hit r.line || decide (id ≤ r.id) ||
    (!isWrite r.act && match r.stage with | .filled _ | .answered _ => true | _ => false)

/-- R279: a release of scope sc can be performed now by the lanes of m, as far as accesses numbered below `id` go. -/
def relDone (s : State) (k core : Nat) (m : BitVec 64) (sc : Scope) (id : Nat) : Bool :=
  sc = .fib || (loadsDone s k m id && (!wideScope sc || writesDone s core id))

/-- A gate: hold a release until it is performed; the core's update-only lines are merged first. -/
def relGate (sc : Scope) (x : Iss) (s : State) : Option State :=
  if x.act = 0 then none
  else if wideScope sc ∧ (coreOf s x.g.core).uo ≠ [] then some (mergeUo x.g.core (fun _ => true) s)
  else if relDone s x.k x.g.core x.act sc s.nextId then none
  else some s

/-- Two gates, the first that holds. -/
def bothGates (a b : Iss → State → Option State) (x : Iss) (s : State) : Option State :=
  match a x s with
  | some s' => some s'
  | none => b x s

/-! ## Replay log and samples (R443, R447 to R450) -/

/-- R447: log the bytes of a line the first time the gang loads it in an interval. -/
def logRead (k va : Nat) (bytes : List Byte) (s : State) : State :=
  match (look k s.gangs).or (look k s.gone) with
  | none => s
  | some g =>
    if ((gangLaunch s g).map (·.pkt.replay)).getD false ∧ va ∉ g.logged then
      let note (g : Gang) : Gang := { g with logged := va :: g.logged }
      let s := logAppend g (BitVec.ofNat 64 (128 * va)) 1 0 bytes s
      { updGang k note s with gone := adj k note s.gone }
    else s

/-- R447: the 128 bytes that a load returned of a physical line: the bytes it was given, and for a sector that it did not
touch those that its core sees: its L1 copy, unless the load left L1 out, or the home. -/
def seenLine (s : State) (o : MemOp) (line : Nat) : List Byte :=
  (List.range 128).map fun i =>
    let pa := 128 * line + i
    match o.got.find? fun x => x.1 = pa with
    | some x => x.2
    | none => (if o.bypass then none else look pa (coreOf s o.core).l1).getD (memByte s pa)

/-- R443, R444: write a sample record, or drop it when the ring is full. -/
def putSample (core : Nat) (bytes : List Byte) (s : State) : State :=
  let p := (coreOf s core).perf
  if p.fill + 64 ≤ p.size then
    updCore core (fun c => { c with perf := { c.perf with fill := c.perf.fill + 64 } })
      (setBytes (bytes.mapIdx fun i b => (p.ring + p.fill + i, b)) s)
  else perfCount core (p.owner.getD 0) 0x0E 1 s

def smpOn (p : Perf) : Bool := p.smp.getLsbD 17
def smpStall (p : Perf) : Bool := p.smp.getLsbD 16
def smpPeriod (p : Perf) : Nat := p.smp.toNat % 2 ^ 16

/-- R444: the fields of a sample record that are known when it is taken. -/
def sampleBase (s : State) (g : Gang) (kind code sect hit : Nat) (lanes : Dword) (ord : Word) : Nat :=
  let hdr := ((gangLaunch s g).map (·.pkt.hdr.toNat)).getD 0
  2 ^ 64 * g.gid.toNat + 2 ^ 128 * kind + 2 ^ 136 * code + 2 ^ 144 * Nat.min hit 255 + 2 ^ 152 * Nat.min sect 255
    + 2 ^ 288 * ord.toNat + 2 ^ 320 * lanes.toNat + 2 ^ 384 * s.clk.toNat + 2 ^ 448 * hdr

/-- R444: the record of a sample; counts and times saturate. QL1 is 0: the L1 lookups are made at issue. -/
def sampleRec (p : Smp) : List Byte :=
  let t (n : Nat) : Nat := Nat.min n 65535
  leBytes 64 (p.base + 2 ^ 160 * p.last + 2 ^ 168 * Nat.min p.replays 255 + 2 ^ 192 * t p.mesh + 2 ^ 208 * t p.l2
    + 2 ^ 224 * t p.rpl + 2 ^ 240 * t p.hbm)

/-- R443: count a memory instruction (OP 0x60 to 0x6C) of the context; every PERIOD-th is sampled, with LORD, which
the instruction's issue has set. -/
def memSample (x : Iss) (code sect hit : Nat) (s : State) : Option Smp × State :=
  let core := x.g.core
  let p := (coreOf s core).perf
  if 0x60 ≤ code ∧ p.owner = some x.g.ctx ∧ smpOn p ∧ !smpStall p then
    if p.memN + 1 < smpPeriod p then (none, updCore core (fun c => { c with perf := { c.perf with memN := c.perf.memN + 1 } }) s)
    else
      (some ⟨core, sampleBase s x.g 1 code sect hit x.act x.g.lord, (topLane x.act).getD 0, 0, 0, 0, 0, 0⟩,
        updCore core (fun c => { c with perf := { c.perf with memN := 0 } }) s)
  else (none, s)

def putSmp (o : Option Smp) (s : State) : State :=
  match o with
  | some p => putSample p.core (sampleRec p) s
  | none => s

/-- The sample of a memory instruction that leaves nothing outstanding. -/
def sampleNow (x : Iss) (code sect hit : Nat) (s : State) : State :=
  let r := memSample x code sect hit s
  putSmp r.1 r.2

/-! ## Results -/

def byteAt (got : List (Nat × Byte)) (key : Nat) : Byte := ((got.find? fun x => x.1 = key).map (·.2)).getD 0

/-- The bytes of a lane's access. -/
def partBytes (o : MemOp) (p : Part) : List Byte := p.keys.map (byteAt o.got)

/-- R209: a result word reaches its register only while the write is still awaited. -/
def setVIf (regs : List (Nat × Nat)) (lane n : Nat) (x : Word) (f : Fibre) : Fibre :=
  if regs.contains (lane, n) then setV n x f else f

def setV64If (regs : List (Nat × Nat)) (lane n : Nat) (x : Dword) (f : Fibre) : Fibre :=
  setVIf regs lane (n + 1) (x.extractLsb' 32 32) (setVIf regs lane n (x.setWidth 32) f)

/-- A lane's result as the values of its destination: one or two words of 32 or 64 bits. -/
def partVals (o : MemOp) (fmt : DstFmt) (lane : Nat) (bs : List Byte) : List (Nat × Dword) :=
  let val := (((o.vals.find? fun v => v.1 = lane).map (·.2)).getD 0)
  match fmt with
  | .ty t => [(tyReg t, tyWrap t (leNat bs))]
  | .dbl => [(64, num64 (leNat (bs.take 8))), (64, num64 (leNat (bs.drop 8)))]
  | .raw32 => [(32, val)]
  | .raw64 => [(64, val)]
  | .wide _ => []

/-- R21: write a lane's result to its vector, predicate or wide destination. -/
def landLane (o : MemOp) (d : Opnd) (fmt : DstFmt) (p : Part) (f : Fibre) : Fibre :=
  let bs := partBytes o p
  match d, fmt with
  | .w n, .wide st =>
    let v := ((st.find? fun x => x.1 = p.lane).map (·.2)).getD 0
    if o.regs.contains (p.lane, 256 + n.val) then
      setWide n ⟨BitVec.ofNat 1024 (leNat bs), v.getLsbD 0, v.getLsbD 1, v.getLsbD 2⟩ f
    else f
  | .v n, _ =>
    ((partVals o fmt p.lane bs).foldl (fun a v =>
      (a.1 + (if v.1 = 64 then 2 else 1),
        if v.1 = 64 then setV64If o.regs p.lane a.1 v.2 a.2 else setVIf o.regs p.lane a.1 (v.2.setWidth 32) a.2))
      (n.val, f)).2
  | _, _ => f

/-- R109, R314: the scalar destination takes the value of the highest lane that is still there. -/
def landScalar (o : MemOp) (n : Nat) (fmt : DstFmt) (p : Part) (g : Gang) : Gang :=
  ((partVals o fmt p.lane (partBytes o p)).foldl (fun a v =>
    (a.1 + 1, setS a.1 (if v.1 = 64 then v.2 else lo32 v.2) a.2)) (n, g)).2

def stillThere (g : Gang) (p : Part) : Bool := match fibreAt g p.lane with | some f => notEnded f | none => false

/-- Deliver an operation's results: to the registers of the fibres that are still there, or to the gang's scalar registers. The
parts of cancelled fibres have gone (R314); a fibre that has exited since still counts for a scalar destination (R109). -/
def landOp (o : MemOp) (g : Gang) : Gang :=
  match o.dst with
  | none => g
  | some (d, fmt) =>
    let ps := o.parts.filter (stillThere g)
    match d with
    | .s n => (match o.parts.getLast? with | some p => if o.regs.any (·.1 = 64) then landScalar o n fmt p g else g | none => g)
    | _ => ps.foldl (fun g p =>
        match fibreAt g p.lane with
        | some f => { g with fibres := g.fibres.set p.lane (landLane o d fmt p f) }
        | none => g) g

def lowerCtr (c : Ctr) (g : Gang) : Gang :=
  match c with
  | .ld => { g with ldcnt := g.ldcnt - 1 }
  | .st => { g with stcnt := g.stcnt - 1 }
  | .none => g

/-- R447: the values that a replay log takes from an operation's return. -/
def logOp (o : MemOp) (s : State) : State :=
  let s := o.lines.foldl (fun s l => logRead o.gang l.1 (seenLine s o l.2) s) s
  if o.logv then o.vals.foldl (fun s v => logValue o.gang v.1 v.2 s) s else s

/-- R111, R280: an operation has been performed for every fibre: its results land, its count falls, and the acquire
that it ends with is made. What a `subs` has read awaits the controller (R341). -/
def finishOp (id : Nat) (s : State) : State :=
  match look id s.ops with
  | none => s
  | some o =>
    if o.left ≠ 0 ∨ o.sub.isSome then s
    else
      let s := putSmp o.smp (logOp o { s with ops := del id s.ops })
      let s := updGang o.gang (fun g =>
        { lowerCtr o.ctr (landOp o g) with holdOps := g.holdOps.filter (· ≠ id) }) s
      match o.acq with
      | some sc => acquireAt o.core sc s
      | none => s

/-- Start an operation: its count rises (R111), and it finishes at once when nothing is outstanding. -/
def startOp (o : MemOp) (hold : Bool) (s : State) : State :=
  let s := updGang o.gang (fun g =>
    let g := match o.ctr with
      | .ld => { g with ldcnt := g.ldcnt + 1 }
      | .st => { g with stcnt := g.stcnt + 1 }
      | .none => g
    { g with holdOps := if hold then o.id :: g.holdOps else g.holdOps }) s
  finishOp o.id { s with ops := ins o.id o s.ops }

/-- R443: the same for a memory instruction, which may be sampled. -/
def startSampled (x : Iss) (code sect hit : Nat) (o : MemOp) (hold : Bool) (s : State) : State :=
  let r := memSample x code sect hit s
  startOp { o with smp := r.1 } hold r.2

/-- The registers a destination of some 32-bit words names, for some lanes. -/
def dstRegs (d : Opnd) (words : Nat) (ls : List Nat) : List (Nat × Nat) :=
  match d with
  | .v n => ls.flatMap fun l => (List.range words).map fun i => (l, n.val + i)
  | .s n => if ls = [] then [] else (List.range ((words + 2) / 3)).map fun i => (64, n.val + i)
  | .w n => ls.map fun l => (l, 256 + n.val)
  | _ => []

def dstWords : DstFmt → Nat
  | .ty t => if tyBits t = 64 then 2 else 1
  | .dbl => 4
  | .raw32 => 1
  | .raw64 => 2
  | .wide _ => 1

/-- An operation of an issuing instruction, before its requests are made. -/
def newOp (x : Iss) (id : Nat) (ctr : Ctr) (dst : Option (Opnd × DstFmt)) (parts : List Part) : MemOp :=
  { id := id, gang := x.k, core := x.g.core, ctr := ctr, dst := dst, parts := parts, got := [], vals := [], left := 0
    acq := none, fib := maskOf (parts.map (·.lane))
    regs := match dst with | some (d, f) => dstRegs d (dstWords f) (parts.map (·.lane)) | none => []
    load := dst.isSome, lines := [], deps := [], unit := 4, bypass := false, logv := false, smp := none, sub := none }

/-! ## Loads -/

def isRemote (core line : Nat) : Bool := homeDie (128 * line) ≠ dieOf core

/-- R262: the core has a write to the line whose acknowledgement has not reached the die. -/
def unacked (s : State) (core line : Nat) : Bool := s.reqs.any fun r => r.core = core && r.line = line && isWrite r.act

def inL1 (c : Core) (sector : Nat) : Bool := (look (64 * sector) c.l1).isSome
def inRdc (s : State) (die sector : Nat) : Bool := (look (64 * sector) (rdcOf s die)).isSome

def copyBytes (m : AMap Byte) (sector : Nat) : List (Nat × Byte) :=
  (List.range 64).map fun i => (64 * sector + i, (look (64 * sector + i) m).getD 0)

def insAll {β : Type} (xs : List (Nat × β)) (m : AMap β) : AMap β := xs.foldl (fun m x => ins x.1 x.2 m) m

/-- What serving one line of a load gives: bytes at once, and whether a request was made. -/
structure Served where
  got : List (Nat × Byte)
  reqs : Nat
  hits : Nat
  deriving DecidableEq, Repr

/-- R252, R262, R275, R412: serve one line of a load: L1, then the RDC for a remote line, then a request to the home. `bypass`
is a strong load at cluster scope or wider (R253). Whether the RDC has evicted the line since is unpredictable. Where it holds
only some of the sectors missed, the home is asked for all of them (assumption 91). -/
def serveLine (op core ctx : Nat) (bypass : Bool) (line : Nat) (secs : List Nat) (a : Served × State) : Served × State :=
  let s := mergeUo core (· = line) a.2
  let c := coreOf s core
  let hit := if bypass then [] else secs.filter (inL1 c)
  let miss := secs.filter fun x => !hit.contains x
  let s := if bypass then s else perfCount core ctx 5 miss.length (perfCount core ctx 4 hit.length s)
  let got := a.1.got ++ hit.flatMap (copyBytes c.l1)
  let die := dieOf core
  if miss = [] then (⟨got, a.1.reqs, a.1.hits + hit.length⟩, s)
  else if !bypass && isRemote core line && miss.all (inRdc s die) && !unacked s core line then
    let (evicted, s) := freshCoin s
    if evicted then
      (⟨got, a.1.reqs + 1, a.1.hits + hit.length⟩,
        pushReq op core ctx line (.read true true miss) (dropRdc die line s))
    else
      let bs := miss.flatMap (copyBytes (rdcOf s die))
      let ds := miss.map fun x => (x, (look x (rdcDescOf s die)).getD resetDesc)
      let s := updCore core (fun c => { c with l1 := insAll bs c.l1, l1Desc := insAll ds c.l1Desc })
        (makeRoom core line (perfCount core ctx 8 1 (perfCount core ctx 6 1 s)))
      (⟨got ++ bs, a.1.reqs, a.1.hits + hit.length⟩, s)
  else
    (⟨got, a.1.reqs + 1, a.1.hits + hit.length⟩,
      pushReq op core ctx line (.read (!bypass) (!bypass && isRemote core line) miss) s)

/-- R251: one request per distinct line, in ascending order of the lowest lane that touches it. -/
def serveLoad (op core ctx : Nat) (bypass : Bool) (keys : List Nat) (s : State) : Served × State :=
  let lines := distinct (keys.map lineOf)
  lines.foldl (fun a l =>
    serveLine op core ctx bypass l (distinct ((keys.filter fun k => lineOf k = l).map sectorOf)) a) (⟨[], 0, 0⟩, s)

/-! ## Stores -/

/-- R252: a store updates the bytes its core's L1 holds. -/
def updPresent (bs : List (Nat × Byte)) (m : AMap Byte) : AMap Byte :=
  bs.foldl (fun m x => adj x.1 (fun _ => x.2) m) m

/-- R252, R255, R451: write one line through to its home. -/
def storeLine (op core ctx : Nat) (bs : List (Nat × Byte)) (line : Nat) (s : State) : State :=
  let mine := bs.filter fun x => lineOf x.1 = line
  let s := mergeUo core (· = line) s
  let s := poisonL1 core (· = line) (updCore core (fun c => { c with l1 := updPresent mine c.l1 }) s)
  pushReq op core ctx line (.write mine) s

/-- Write bytes, later ones standing over earlier ones (R109), one request per line. -/
def storeBytes (op core ctx : Nat) (bs : List (Nat × Byte)) (s : State) : Nat × State :=
  let lines := distinct (bs.map fun x => lineOf x.1)
  (lines.length, lines.foldl (fun s l => storeLine op core ctx bs l s) s)

/-! ## Atomics -/

/-- R294, R297: the new word of an atomic of type t. -/
def atomNew (t : Ty) (op : Red) (old b : Dword) : Dword :=
  match op with
  | .add => if tyFloat t then (fAdd (tyF t) .rne (fDec (tyF t) old) (fDec (tyF t) b)).1 else tyWrap t (tyVal t old + tyVal t b)
  | .min => if tyFloat t then (fMinMax (tyF t) false old b).1 else if tyVal t b < tyVal t old then b else old
  | .max => if tyFloat t then (fMinMax (tyF t) true old b).1 else if tyVal t old < tyVal t b then b else old
  | .and => old &&& b
  | .or => old ||| b
  | .xor => old ^^^ b
  | .exch => b

/-- R295: `cas` compares bit patterns of the type's width. -/
def casNew (t : Ty) (old b c : Dword) : Option Dword :=
  if low (tyBits t) old = low (tyBits t) b then some c else none

/-- R294, R295: one update: the old word, and the bytes that the new one writes. -/
def atomStep (a : AtomOp) (read : Nat → Byte) : Dword × List (Nat × Byte) :=
  let n := tyBytes a.t
  let old := num64 (leNat ((List.range n).map fun i => read (a.addr + i)))
  let new := match a.op with
    | some op => some (atomNew a.t op old a.b)
    | none => casNew a.t old a.b a.c
  (old, match new with
    | some v => (leBytes n v.toNat).mapIdx fun i b => (a.addr + i, b)
    | none => [])

/-- What the updates of a line give: the old words by lane, the bytes written, and the state after. -/
structure AtomRes where
  olds : List (Nat × Dword)
  bytes : List (Nat × Byte)
  s : State
  deriving DecidableEq, Repr

/-- R294: the updates of one line, in ascending lane order, at the home. -/
def atomHome (as : List AtomOp) (s : State) : AtomRes :=
  as.foldl (fun acc a =>
    let r := atomStep a (memByte acc.s)
    ⟨acc.olds ++ [(a.lane, r.1)], acc.bytes ++ r.2, writeHome 8 r.2 acc.s⟩) ⟨[], [], s⟩

/-- R253: an atomic discards its core's copy of the line, and merges the update-only line first. -/
def atomLine (op core ctx : Nat) (as : List AtomOp) (line : Nat) (s : State) : State :=
  pushReq op core ctx line (.atomic (as.filter fun a => lineOf a.addr = line)) (discardL1 core (· = line) (mergeUo core (· = line) s))

/-! ## At the home -/

/-- R298: the bytes that a merged update-only line writes. -/
def mergeBytes (u : UoLine) (s : State) : List (Nat × Byte) :=
  u.els.flatMap fun e =>
    let n := tyBytes u.t
    let old := num64 (memNat s e.1 n)
    (leBytes n (atomNew u.t u.op old e.2).toNat).mapIdx fun i b => (e.1 + i, b)

/-- R274: perform a request at its home, `unit` bytes at one instant. A write's answer carries what it wrote, for the RDC (R275). -/
def perform (unit : Nat) (act : ReqAct) (s : State) : Answer × State :=
  match act with
  | .read _ _ secs =>
    let bs := secs.flatMap fun x => (List.range 64).map fun i => (64 * x + i, memByte s (64 * x + i))
    (⟨bs, bs, secs.map fun x => (x, memDesc s x), [], 0⟩, s)
  | .write bs => (⟨bs, [], [], [], 0⟩, writeHome unit bs s)
  | .atomic as =>
    let r := atomHome as s
    (⟨r.bytes, [], [], r.olds, 0⟩, r.s)
  | .merge u => (⟨mergeBytes u s, [], [], [], 0⟩, writeHome unit (mergeBytes u s) s)
  | .readDesc xs => (⟨[], [], xs.map fun x => (x, memDesc s x), [], 0⟩, s)
  | .writeDesc ds => (⟨[], [], ds, [], 0⟩, ds.foldl (fun s d => setDesc d.1 d.2 s) s)

/-- The stage after a request is performed: a fill goes to the caches first. -/
def answered (act : ReqAct) (a : Answer) : Stage :=
  match act with
  | .read true _ _ | .read _ true _ => .filled a
  | _ => .answered a

/-- R274: a request of the core to the line is performed: its earlier loads of the line see no later write. -/
def shutEarlier (r : Req) (s : State) : State :=
  mapReqs (fun q => if q.core = r.core && q.line = r.line && q.id ≠ r.id then
    (match q.stage with | .filled _ | .answered _ => { q with shut := true } | _ => q) else q) s

/-- R274: perform a request at its home, and send the answer on its way. -/
def performReq (r : Req) (s : State) : State :=
  let (n, s) := freshId (shutEarlier r s)
  let a := perform (reqUnit s r) r.act s
  setStage r.id (answered r.act { a.1 with seq := n }) a.2

def reqById (s : State) (id : Nat) : Option Req := s.reqs.find? fun r => r.id = id

/-! ## Peer accesses (R107, R216) -/

/-- R107: the core and the offset that a peer address names. -/
def peerCore (from' : Nat) (ea : Dword) : Nat := 32 * clusterOf from' + ea.toNat / 2 ^ 18 % 32
def peerOff (ea : Dword) : Nat := ea.toNat % 2 ^ 18

/-- R216, R217: the crews whose regions a crew of an ensemble may reach: its own and the ensemble's, while they last (R163). -/
def reachCrews (s : State) (crew : Nat) (ens : Option Nat) : List Crew :=
  let others := ((ens.bind fun e => look e s.ens).map (·.crews)).getD []
  (distinct (crew :: others)).filterMap fun k => (look k s.crews).filter fun c => !c.gangs.isEmpty

/-- R216: every byte of a peer access lies in a region that the crew may reach. -/
def peerOk (s : State) (core crew : Nat) (ens : Option Nat) (ea : Dword) (n : Nat) : Bool :=
  (List.range n).all fun i =>
    (reachCrews s crew ens).any fun c =>
      c.core = peerCore core ea && c.base ≤ peerOff ea + i && peerOff ea + i < c.base + c.size

end Sys2Proof.Machine
end

