-- ==== Sys2Proof/Machine/Memory.lean ====
section
/-! DEFINITION. The memory instructions (05 R102 to R111, 07 R146 to R148, 11 R229 to R232, 15 R291 to R311). -/

namespace Sys2Proof.Machine

/-! ## Shared parts -/

/-- R253, R293: the access is performed at the home and leaves L1 out. -/
def atHome (str : Strength) (sc : Scope) : Bool := str ≠ .weak && wideScope sc

/-- R293: the acquire fence that ends an access; a fence at fibre scope orders nothing (R278). -/
def acqOf (str : Strength) (sc : Scope) : Option Scope := if str = .sync ∧ sc ≠ .fib then some sc else none

/-- R293: the lanes whose accesses pass their checks; a peer access is checked at its target (R216). -/
def goodLanes (s : State) (x : Iss) (space : Space) (need : Need) (as : List Acc) : BitVec 64 :=
  let ens := (crewOf s x.g).bind (·.ens)
  maskOf ((as.filter fun a =>
    (match check s x.g space need a with | .ok _ => true | _ => false)
      && (space ≠ .peer || peerOk s x.g.core x.g.crew ens a.ea a.n)).map (·.lane))

/-- R108: the single-copy atomic unit of an access of n-byte elements; private words lie apart (R270). -/
def unitOf (str : Strength) (space : Space) (n : Nat) : Nat := if str ≠ .weak ∧ space = .glob ∧ n = 8 then 8 else 4

/-- R293: the release that comes before an access, by the fibres that do not fault. -/
def relOf (str : Strength) (sc : Scope) (space : Space) (need : Need) (accs : Iss → List Acc) (x : Iss) (s : State) : Option State :=
  if str = .sync then relGate sc { x with act := goodLanes s x space need (accs x) } s else none

/-- The virtual addresses of an access's bytes. -/
def virtBytes (g : Gang) (space : Space) (a : Acc) : List Nat :=
  match space with
  | .priv => (privPieces g a).flatMap fun p => (List.range p.2).map (p.1 + ·)
  | _ => (List.range a.n).map (a.ea.toNat + ·)

/-- R447: the virtual and physical lines of some accesses. -/
def linesOf (s : State) (g : Gang) (space : Space) (need : Need) (as : List Acc) : List (Nat × Nat) :=
  if !((gangLaunch s g).map (·.pkt.replay)).getD false then []
  else as.foldl (fun ls a =>
    match check s g space need a with
    | .ok ks => ((virtBytes g space a).zip ks).foldl (fun ls p =>
        if ls.contains (p.1 / 128, p.2 / 128) then ls else ls ++ [(p.1 / 128, p.2 / 128)]) ls
    | _ => ls) []

/-- The accesses that pass. -/
def passing (s : State) (g : Gang) (space : Space) (need : Need) (as : List Acc) : List Acc :=
  as.filter fun a => match check s g space need a with | .ok _ => true | _ => false

def sectorsOf (ps : List Part) : Nat := (distinct ((ps.flatMap (·.keys)).map sectorOf)).length

/-- R216: one request to a scratchpad of the cluster for each fibre, in lane order. -/
def pushPeers (x : Iss) (op : Nat) (reqs : List (Acc × PeerAct)) (s : State) : State :=
  let ens := (crewOf s x.g).bind (·.ens)
  reqs.foldl (fun s r =>
    let (id, s) := freshId s
    { s with peers := s.peers ++ [⟨id, op, x.k, x.g.core, x.g.crew, ens, r.1.lane, r.1.ea, r.1.n, r.2, x.pc, false⟩] }) s

/-- Loads: bytes come from the caches, the homes, a scratchpad or a peer. -/
def doLoad (x : Iss) (code : Nat) (space : Space) (bypass : Bool) (unit : Nat) (acq : Option Scope) (dst : Opnd × DstFmt)
    (accs : List Acc) (s : State) : State :=
  let parts := split s x.g space needR accs
  let lines := linesOf s x.g space needR accs
  let keys := parts.flatMap (·.keys)
  let ok := passing s x.g space needR accs
  let s := raiseFaults x (faultsOf s x space needR accs) s
  let (id, s) := freshId s
  let acq := if parts = [] then none else acq
  let o := { newOp x id .ld (some dst) parts with acq := acq, unit := unit, bypass := bypass }
  match space with
  | .glob | .priv =>
    let r := serveLoad id x.g.core x.g.ctx bypass keys s
    startSampled x code (sectorsOf parts) r.1.hits { o with got := r.1.got, left := r.1.reqs, lines := lines } acq.isSome r.2
  | .scratch => startSampled x code 0 0 { o with got := keys.map fun k => (k, spadByte s x.g.core k) } acq.isSome s
  | .peer =>
    startSampled x code 0 0 { o with left := ok.length } (!ok.isEmpty) (pushPeers x id (ok.map fun a => (a, .read)) s)

/-- Stores: `data` gives the bytes of a lane. A peer store may also bring back a word (`back`). -/
def doStore (x : Iss) (code : Nat) (space : Space) (unit : Nat) (back : Option (Opnd × (Nat → Dword))) (accs : List Acc)
    (data : Nat → List Byte) (s : State) : State :=
  let parts := split s x.g space needW accs
  let ok := passing s x.g space needW accs
  let bytes := parts.flatMap fun p => p.keys.zip (data p.lane)
  let s := raiseFaults x (faultsOf s x space needW accs) s
  let (id, s) := freshId s
  let o := { newOp x id .st none parts with load := false, unit := unit }
  match space with
  | .glob | .priv =>
    let r := storeBytes id x.g.core x.g.ctx bytes s
    startSampled x code (sectorsOf parts) 0 { o with left := r.1 } false r.2
  | .scratch => startSampled x code 0 0 o false (setSpad x.g.core bytes s)
  | .peer =>
    let o := match back with
      | some (d, v) =>
        { newOp x id .st (some (d, .raw32)) parts with load := false, vals := parts.map fun (p : Part) => (p.lane, v p.lane) }
      | none => o
    startSampled x code 0 0 { o with left := ok.length } (!ok.isEmpty)
      (pushPeers x id (ok.map fun a => (a, .write (data a.lane))) s)

/-- The update of a lane, at a physical or scratchpad address. -/
def atomFor (o : Atom) (isCas : Bool) (x : Iss) (lane addr : Nat) : AtomOp :=
  match fibreAt x.g lane with
  | some f => ⟨lane, addr, o.t, if isCas then none else some o.op, rd x.g x.h.ext (rdTy o.t) f o.b, rd x.g x.h.ext (rdTy o.t) f o.c⟩
  | none => ⟨lane, addr, o.t, none, 0, 0⟩

/-- R294: atomics of the issuing core's scratchpad, in ascending lane order. -/
def atomScratch (core : Nat) (as : List AtomOp) (s : State) : List (Nat × Dword) × State :=
  as.foldl (fun acc a =>
    let r := atomStep a (spadByte acc.2 core)
    (acc.1 ++ [(a.lane, r.1)], setSpad core r.2 acc.2)) ([], s)

/-- R294 to R296. -/
def doAtomic (x : Iss) (code : Nat) (o : Atom) (isCas : Bool) (accs : List Acc) (s : State) : State :=
  let parts := split s x.g o.space needRW accs
  let ok := passing s x.g o.space needRW accs
  let s := raiseFaults x (faultsOf s x o.space needRW accs) s
  let (id, s) := freshId s
  let acq := if parts = [] then none else acqOf o.str o.scope
  let none' := match o.d with | .p _ => true | _ => false
  let fmt : DstFmt := if tyBits o.t = 64 then .raw64 else .raw32
  let op := { newOp x id (if none' then .st else .ld) (if none' then none else some (o.d, fmt)) parts with
    acq := acq, unit := 8, logv := !none' }
  let as := parts.map fun p => atomFor o isCas x p.lane (p.keys.headD 0)
  match o.space with
  | .glob | .priv =>
    let lines := distinct (as.map fun a => lineOf a.addr)
    let s := lines.foldl (fun s l => atomLine id x.g.core x.g.ctx as l s) s
    startSampled x code (sectorsOf parts) 0 { op with left := lines.length } acq.isSome s
  | .scratch =>
    let r := atomScratch x.g.core as s
    startSampled x code 0 0 { op with vals := r.1 } acq.isSome r.2
  | .peer =>
    startSampled x code 0 0 { op with left := ok.length } (!ok.isEmpty)
      (pushPeers x id (ok.map fun a => (a, .atomic (atomFor o isCas x a.lane 0))) s)

/-! ## Loads and stores -/

def memBytes (o : Mem) : Nat := tyBytes o.t * if o.two then 2 else 1

def memAccs (o : Mem) (x : Iss) : List Acc := laneAccs x (fun f => rdAddr x.g x.h.ext f o.a o.b) (memBytes o) (memBytes o)

/-- R103, R104: the bytes a lane stores. -/
def storeData (o : Mem) (x : Iss) (lane : Nat) : List Byte :=
  match fibreAt x.g lane with
  | none => []
  | some f =>
    if o.two then
      match o.d with
      | .v n => leBytes 8 (getV64 f n).toNat ++ leBytes 8 (getV64 f (n + 2)).toNat
      | .s n => leBytes 8 (getS x.g n).toNat ++ leBytes 8 (getS x.g (n + 1)).toNat
      | _ => []
    else leBytes (tyBytes o.t) (rd x.g x.h.ext (rdTy o.t) f o.d).toNat

/-- R102 to R111, R293. -/
def execLd (h : Hd) (o : Mem) (s : State) : Outc :=
  issue (.ld h o) h .ld (walkGate o.space needR (memAccs o)) (fun x =>
    doLoad x 0x60 o.space (atHome o.str o.scope) (unitOf o.str o.space (tyBytes o.t)) (acqOf o.str o.scope) (o.d, if o.two then .dbl else .ty o.t) (memAccs o x)) s

/-- R102 to R111, R293. -/
def execSt (h : Hd) (o : Mem) (s : State) : Outc :=
  issue (.st h o) h .st (bothGates (walkGate o.space needW (memAccs o)) (relOf o.str o.scope o.space needW (memAccs o))) (fun x =>
    doStore x 0x61 o.space (unitOf o.str o.space (tyBytes o.t)) none (memAccs o x) (storeData o x)) s

/-! ## `wld` and `wst` -/

def wideAccs (o : WMem) (x : Iss) : List Acc := laneAccs x (fun f => rdAddr x.g x.h.ext f o.a o.b) 128 128

def wideStatus (w : Wide) : Dword := (if w.loss then 1 else 0) + (if w.ovf then 2 else 0) + (if w.nan then 4 else 0)

/-- R147: the status word of each lane's C. -/
def wideIn (o : WMem) (x : Iss) : List (Nat × Word) :=
  (lanesOf x.act).filterMap fun i => (fibreAt x.g i).map fun f => (i, (rd x.g x.h.ext (rdTy .n32) f o.c).setWidth 32)

/-- R146 to R148. -/
def execWld (h : Hd) (o : WMem) (s : State) : Outc :=
  issue (.wld h o) h .ld (walkGate o.space needR (wideAccs o)) (fun x =>
    doLoad x 0x58 o.space false 4 none (.w o.w, .wide (wideIn o x)) (wideAccs o x)) s

def wideOut (o : WMem) (x : Iss) (lane : Nat) : Wide := ((fibreAt x.g lane).map fun f => getWide f o.w).getD Wide.zero

/-- R146 to R148: C takes the status of the fibres that store; from a peer it comes with the peer's answer. -/
def execWst (h : Hd) (o : WMem) (s : State) : Outc :=
  issue (.wst h o) h .st (walkGate o.space needW (wideAccs o)) (fun x s =>
    let good := passing s x.g o.space needW (wideAccs o x)
    let s' := doStore x 0x59 o.space 4 (some (o.c, fun i => wideStatus (wideOut o x i))) (wideAccs o x)
      (fun i => leBytes 128 (wideOut o x i).w.toNat) s
    if o.space = .peer then s'
    else perLane { x with act := maskOf (good.map (·.lane)) }
      (fun _ f => wr 32 o.c (wideStatus (getWide f o.w)) (.ok f)) s') s

/-! ## Image stores -/

/-- R230: the list of a lane; none when the fibre takes SYMSTORE. -/
def imageOf (s : State) (x : Iss) (t : Ty) (map : Fin 4) (d a b : Opnd) (f : Fibre) : List (Dword × Dword) :=
  match symOf s x.g, f.point, imageBad (symOf s x.g) map t f with
  | some (y, e), some p, none =>
    match y.maps[map.val]? with
    | some m => imageList y e m t p (rdAddr x.g x.h.ext f a b) (rd x.g x.h.ext (rdTy t) f d)
    | none => []
  | _, _, _ => []

def imageAccs (s : State) (t : Ty) (map : Fin 4) (d a b : Opnd) (x : Iss) : List Acc :=
  (lanesOf x.act).flatMap fun i =>
    match fibreAt x.g i with
    | some f => (imageOf s x t map d a b f).map fun e => ⟨i, e.1, tyBytes t, tyBytes t⟩
    | none => []

/-- R231: the fault of a lane. -/
def imageFault (s : State) (x : Iss) (t : Ty) (map : Fin 4) (d a b : Opnd) (f : Fibre) : Option (Word × Dword) :=
  match imageBad (symOf s x.g) map t f with
  | some n => some (cause cSYMSTORE, num64 n)
  | none =>
    (imageOf s x t map d a b f).findSome? fun e =>
      match check s x.g .glob needW ⟨0, e.1, tyBytes t, tyBytes t⟩ with
      | .bad c => some (c, e.1)
      | _ => none

/-- R232: the bytes of a lane's entries in list order. -/
def imageBytes (s : State) (x : Iss) (t : Ty) (map : Fin 4) (d a b : Opnd) (f : Fibre) : List (Nat × Byte) :=
  (imageOf s x t map d a b f).flatMap fun e =>
    match check s x.g .glob needW ⟨0, e.1, tyBytes t, tyBytes t⟩ with
    | .ok ks => ks.zip (leBytes (tyBytes t) e.2.toNat)
    | _ => []

/-- R229 to R232. -/
def execImageStore (h : Hd) (t : Ty) (map : Fin 4) (d a b : Opnd) (s : State) : Outc :=
  issue (.imageStore h t map d a b) h .st
    (fun x s => walkGate .glob needW (imageAccs s t map d a b) x s) (fun x s =>
      let lanes := (lanesOf x.act).filterMap fun i => (fibreAt x.g i).map fun f => (i, f)
      let bad := lanes.filterMap fun l =>
        (imageFault s x t map d a b l.2).map fun c => (⟨l.1, c.1, c.2, x.pc⟩ : TrapRec)
      let good := lanes.filter fun l => (imageFault s x t map d a b l.2).isNone
      let bytes := good.flatMap fun l => imageBytes s x t map d a b l.2
      let parts := good.map fun l => (⟨l.1, (imageBytes s x t map d a b l.2).map (·.1)⟩ : Part)
      let s := raiseFaults x bad s
      let (id, s) := freshId s
      let r := storeBytes id x.g.core x.g.ctx bytes s
      startSampled x 0x61 (sectorsOf parts) 0 { newOp x id .st none parts with left := r.1, load := false } false r.2) s

/-! ## Atomics and reductions -/

def atomAccs (o : Atom) (x : Iss) : List Acc :=
  laneAccs x (fun f => rd x.g x.h.ext (rdTy .n64) f o.a) (tyBytes o.t) (tyBytes o.t)

def atomCtr (o : Atom) : CtrKind := match o.d with | .p _ => .st | _ => .ld

/-- R291 to R296. -/
def execAtom (h : Hd) (o : Atom) (s : State) : Outc :=
  issue (.atom h o) h (atomCtr o) (bothGates (walkGate o.space needRW (atomAccs o)) (relOf o.str o.scope o.space needRW (atomAccs o)))
    (fun x => doAtomic x 0x62 o false (atomAccs o x)) s

/-- R291, R292, R295, R296. -/
def execCas (h : Hd) (o : Atom) (s : State) : Outc :=
  issue (.cas h o) h (atomCtr o) (bothGates (walkGate o.space needRW (atomAccs o)) (relOf o.str o.scope o.space needRW (atomAccs o)))
    (fun x => doAtomic x 0x63 o true (atomAccs o x)) s

/-- R254, R298: one contribution enters its update-only line. -/
def contribute (core ctx : Nat) (op : Red) (t : Ty) (addr : Nat) (v : Dword) (s : State) : State :=
  let line := lineOf addr
  let s := match (coreOf s core).uo.find? fun u => u.line = line with
    | some u => if u.op = op ∧ u.t = t then s else mergeUo core (· = line) s
    | none => s
  updCore core (fun c =>
    if c.uo.any fun u => u.line = line then
      { c with uo := c.uo.map fun u =>
          if u.line = line then
            { u with els := match look addr u.els with
                | some p => ins addr (atomNew t op p v) u.els
                | none => ins addr v u.els }
          else u }
    else { c with uo := c.uo ++ [⟨line, ctx, op, t, [(addr, v)]⟩] }) (makeRoom core line s)

def redAccs (o : RedOps) (x : Iss) : List Acc :=
  laneAccs x (fun f => rdAddr x.g x.h.ext f o.a o.b) (tyBytes o.t) (tyBytes o.t)

/-- R298 to R300. -/
def execRed (h : Hd) (o : RedOps) (s : State) : Outc :=
  issue (.red h o) h .st
    (bothGates (walkGate .glob needRW (redAccs o))
      (relOf (if o.rel then .sync else .weak) o.scope .glob needRW (redAccs o)))
    (fun x s =>
      let parts := split s x.g .glob needRW (redAccs o x)
      let s := raiseFaults x (faultsOf s x .glob needRW (redAccs o x)) s
      sampleNow x 0x64 (sectorsOf parts) 0 (parts.foldl (fun s p =>
        match fibreAt x.g p.lane with
        | some f => contribute x.g.core x.g.ctx o.op o.t (p.keys.headD 0) (rd x.g x.h.ext (rdTy o.t) f o.d) s
        | none => s) s)) s

/-! ## Fences -/

/-- R280: an acquire fence issues once the earlier loads of its fibres have returned (log 13). -/
def acqGate (sc : Scope) (x : Iss) (s : State) : Option State :=
  if x.act = 0 ∨ sc = .fib ∨ loadsDone s x.k x.act s.nextId then none else some s

/-- R279, R281, R301: the group waits until the fence is performed; at fibre scope it completes at once. -/
def fenceOp (kind : FenceKind) (sc : Scope) (x : Iss) (s : State) : State :=
  let s := sampleNow x 0x65 0 0 s
  if x.act = 0 ∨ sc = .fib then s
  else
    let s := if wideScope sc then mergeUo x.g.core (fun _ => true) s else s
    let (id, s) := freshId s
    waitAt x x.group (.fence kind sc id) s

/-- R280, R301. -/
def execFenceAcq (h : Hd) (sc : Scope) (s : State) : Outc :=
  issue (.fenceAcq h sc) h .none (acqGate sc) (fun x s =>
    let s := sampleNow x 0x65 0 0 s
    if x.act = 0 then s else acquireAt x.g.core sc s) s

/-- R279, R301. -/
def execFenceRel (h : Hd) (sc : Scope) (s : State) : Outc :=
  issue (.fenceRel h sc) h .none noGate (fenceOp .rel sc) s

/-- R281, R301. -/
def execFenceFull (h : Hd) (sc : Scope) (s : State) : Outc :=
  issue (.fenceFull h sc) h .none noGate (fenceOp .full sc) s

def isFence (id : Nat) (w : WaitKind) : Bool := match w with | .fence _ _ n => n = id | _ => false

/-- The lanes of a gang whose own wait passes a test. -/
def waiting (t : WaitKind → Bool) (g : Gang) : BitVec 64 := lanesWhere (fun f => f.wait.any fun w => t w.kind) g

/-- The kind and scope of a fence that lanes of the gang wait at. -/
def fenceAt (g : Gang) (id : Nat) : Option (FenceKind × Scope) :=
  g.fibres.findSome? fun f => match f.wait with
    | some ⟨.fence k sc n, _, _⟩ => if n = id then some (k, sc) else none
    | _ => none

/-- R279, R281: the fence can be performed now. -/
def fenceReady (s : State) (k id : Nat) : Bool :=
  match look k s.gangs with
  | none => false
  | some g =>
    match fenceAt g id with
    | none => false
    | some (_, sc) => relDone s k g.core (waiting (isFence id) g) sc id

/-- R280, R301: the fence is performed, and its group goes on. -/
def execFenceComplete (k id : Nat) (s : State) : Outc :=
  match look k s.gangs with
  | none => .fault .notEnabled
  | some g =>
    match fenceAt g id with
    | none => .fault .notEnabled
    | some (kind, sc) =>
      if !fenceReady s k id then .fault .notEnabled
      else
        let s := if kind = .rel then s else acquireAt g.core sc s
        .next (updGang k (fun g => endWaits (isFence id) (waiting (isFence id) g) g) s)

/-! ## Cache control -/

def byteAccs (a b : Opnd) (x : Iss) : List Acc := laneAccs x (fun f => rdAddr x.g x.h.ext f a b) 1 1

/-- The lines of the addresses that can be reached, in lane order. -/
def reachLines (s : State) (x : Iss) (need : Need) (a b : Opnd) : List Nat :=
  distinct ((split s x.g .glob need (byteAccs a b x)).flatMap fun p => p.keys.map lineOf)

/-- R302: the lines whose `pref` the device does not drop; it may drop any. -/
def keepSome : List Nat → State → List Nat × State
  | [], s => ([], s)
  | l :: ls, s =>
    let (drop, s) := freshCoin s
    let r := keepSome ls s
    (if drop then r.1 else l :: r.1, r.2)

/-- R302, R444: the operation of a `pref`, whose requests nothing but its sample awaits. -/
def prefOp (x : Iss) (id : Nat) (ls : List Nat) (parts : List Part) (r : Served) (s : State) : State :=
  startSampled x 0x66 (2 * ls.length) r.hits { newOp x id .none none parts with left := r.reqs } false s

/-- R302: as a weak load would, into L1 and the RDC; no counter and no destination. -/
def execPrefL1 (h : Hd) (a b : Opnd) (s : State) : Outc :=
  issue (.prefL1 h a b) h .none (walkGate .glob needR (byteAccs a b)) (fun x s =>
    let parts := split s x.g .glob needR (byteAccs a b x)
    let (ls, s) := keepSome (reachLines s x needR a b) s
    let (id, s) := freshId s
    let r := ls.foldl (fun z l => serveLine id x.g.core x.g.ctx false l [2 * l, 2 * l + 1] z) ((⟨[], 0, 0⟩ : Served), s)
    prefOp x id ls parts r.1 r.2) s

/-- R302: into the home L2, and for a remote line the RDC. -/
def execPrefL2 (h : Hd) (a b : Opnd) (s : State) : Outc :=
  issue (.prefL2 h a b) h .none (walkGate .glob needR (byteAccs a b)) (fun x s =>
    let parts := split s x.g .glob needR (byteAccs a b x)
    let (ls, s) := keepSome (reachLines s x needR a b) s
    let (id, s) := freshId s
    let s := ls.foldl (fun s l => pushReq id x.g.core x.g.ctx l (.read false (isRemote x.g.core l) [2 * l, 2 * l + 1]) s) s
    prefOp x id ls parts ⟨[], ls.length, 0⟩ s) s

/-- R303. -/
def execInvalL1 (h : Hd) (a b : Opnd) (s : State) : Outc :=
  issue (.invalL1 h a b) h .none (walkGate .glob needNone (byteAccs a b)) (fun x s =>
    let ls := reachLines s x needNone a b
    sampleNow x 0x67 0 0 (discardL1 x.g.core ls.contains (mergeUo x.g.core ls.contains s))) s

/-- R303. -/
def execInvalAll (h : Hd) (s : State) : Outc :=
  issue (.invalAll h) h .none noGate (fun x s =>
    let s := sampleNow x 0x67 0 0 s
    if x.act = 0 then s else discardL1 x.g.core (fun _ => true) (mergeUo x.g.core (fun _ => true) s)) s

/-- R303. -/
def execInvalRdc (h : Hd) (a b : Opnd) (s : State) : Outc :=
  issue (.invalRdc h a b) h .none (walkGate .glob needNone (byteAccs a b)) (fun x s =>
    let ls := reachLines s x needNone a b
    sampleNow x 0x67 0 0
      (discardRdc (dieOf x.g.core) ls.contains (discardL1 x.g.core ls.contains (mergeUo x.g.core ls.contains s)))) s

/-- R304: the writes that a `flush` of some lanes awaits: their own to the lines, and the merges of the lines. -/
def flushDeps (x : Iss) (hit : Nat → Bool) (s : State) : List Nat :=
  (s.reqs.filter fun r =>
    r.core = x.g.core && isWrite r.act && hit r.line &&
      (match r.act with
        | .merge _ => true
        | _ => match look r.op s.ops with
          | some o => o.gang = x.k && decide (o.fib &&& x.act ≠ 0)
          | none => false)).map (·.id)

def flushOp (x : Iss) (hit : Nat → Bool) (s : State) : State :=
  let s := mergeUo x.g.core hit s
  let deps := flushDeps x hit s
  let (id, s) := freshId s
  startSampled x 0x68 0 0 { newOp x id .st none [] with left := deps.length, deps := deps } false s

/-- R304. -/
def execFlush (h : Hd) (a b : Opnd) (s : State) : Outc :=
  issue (.flush h a b) h .st (walkGate .glob needNone (byteAccs a b)) (fun x s =>
    flushOp x (reachLines s x needNone a b).contains s) s

/-- R304. -/
def execFlushAll (h : Hd) (s : State) : Outc :=
  issue (.flushAll h) h .st noGate (fun x s => flushOp x (fun _ => x.act ≠ 0) s) s

/-! ## Block descriptors -/

def spadDescAt (s : State) (core sector : Nat) : BitVec 16 := find resetDesc sector (coreOf s core).spadDesc
def setSpadDesc (core sector : Nat) (d : BitVec 16) (s : State) : State :=
  updCore core (fun c => { c with spadDesc := put resetDesc sector d c.spadDesc, spadLog := c.spadLog ++ [⟨[], [(sector, d)]⟩] }) s

def partSector (p : Part) : Nat := sectorOf (p.keys.headD 0)

/-- R305, R306: a global `ldesc` reads the home. -/
def execLdesc (h : Hd) (o : Desc) (s : State) : Outc :=
  issue (.ldesc h o) h .ld (walkGate o.space needR (byteAccs o.a o.b)) (fun x s =>
    let accs := byteAccs o.a o.b x
    let parts := split s x.g o.space needR accs
    let ok := passing s x.g o.space needR accs
    let s := raiseFaults x (faultsOf s x o.space needR accs) s
    let (id, s) := freshId s
    let op := newOp x id .ld (some (o.d, .raw32)) parts
    match o.space with
    | .glob | .priv =>
      let secs := distinct (parts.map partSector)
      let lines := distinct (secs.map (· / 2))
      startSampled x 0x69 secs.length 0 { op with left := lines.length } false
        (lines.foldl (fun s l => pushReq id x.g.core x.g.ctx l (.readDesc (secs.filter fun c => c / 2 = l)) s) s)
    | .scratch =>
      startSampled x 0x69 0 0
        { op with vals := parts.map fun p => (p.lane, (spadDescAt s x.g.core (partSector p)).setWidth 64) } false s
    | .peer =>
      startSampled x 0x69 0 0 { op with left := ok.length } (!ok.isEmpty) (pushPeers x id (ok.map fun a => (a, .readDesc)) s)) s

/-- R251, R306, R451: the descriptors of a line go to the home, and to the core's own copies. -/
def writeDescs (op core ctx line : Nat) (ds : List (Nat × BitVec 16)) (s : State) : State :=
  pushReq op core ctx line (.writeDesc ds)
    (poisonL1 core (· = line) (updCore core (fun c =>
      { c with l1Desc := ds.foldl (fun m d => adj d.1 (fun _ => d.2) m) c.l1Desc }) s))

/-- R305, R306. -/
def execSdesc (h : Hd) (o : Desc) (s : State) : Outc :=
  issue (.sdesc h o) h .st (walkGate o.space needW (byteAccs o.a o.b)) (fun x s =>
    let accs := byteAccs o.a o.b x
    let parts := split s x.g o.space needW accs
    let ok := passing s x.g o.space needW accs
    let val (i : Nat) : BitVec 16 :=
      ((fibreAt x.g i).map fun f => (rd x.g x.h.ext (rdTy .n32) f o.d).setWidth 16).getD 0
    let s := raiseFaults x (faultsOf s x o.space needW accs) s
    let (id, s) := freshId s
    let op := newOp x id .st none parts
    match o.space with
    | .glob | .priv =>
      let last (c : Nat) : BitVec 16 := ((parts.reverse.find? fun p => partSector p = c).map fun p => val p.lane).getD 0
      let ds := (distinct (parts.map partSector)).map fun c => (c, last c)
      let lines := distinct (ds.map fun d => d.1 / 2)
      startSampled x 0x6A ds.length 0 { op with left := lines.length } false
        (lines.foldl (fun s l => writeDescs id x.g.core x.g.ctx l (ds.filter fun d => d.1 / 2 = l) s) s)
    | .scratch =>
      startSampled x 0x6A 0 0 op false (parts.foldl (fun s p => setSpadDesc x.g.core (partSector p) (val p.lane) s) s)
    | .peer => startSampled x 0x6A 0 0 { op with left := ok.length } (!ok.isEmpty)
        (pushPeers x id (ok.map fun a => (a, .writeDesc (val a.lane))) s)) s

/-! ## The allocator -/

/-- R307: the smallest class of at least max(s, 16) bytes, for 1 ≤ s ≤ 2^20. -/
def classOf (n : Nat) : Nat := ((List.range 17).map (· + 4)).find? (fun c => n ≤ 2 ^ c) |>.getD 20

def magKey (ctx cls : Nat) : Nat := 32 * ctx + cls
def magazine (s : State) (core ctx cls : Nat) : List Nat := (look (magKey ctx cls) (coreOf s core).mags).getD []
def setMagazine (core ctx cls : Nat) (m : List Nat) (s : State) : State :=
  updCore core (fun c => { c with mags := ins (magKey ctx cls) m c.mags }) s
def heapOf (s : State) (ctx : Nat) : Heap := ((look ctx s.ctxs).map (·.heap)).getD ⟨0, 0, [], [], []⟩
def freeList (h : Heap) (cls : Nat) : List Nat := (look cls h.free).getD []
def updHeap (ctx : Nat) (f : Heap → Heap) (s : State) : State := updCtx ctx (fun c => { c with heap := f c.heap }) s

/-- R308: a refill is not possible. -/
def noRefill (s : State) (ctx cls : Nat) : Bool :=
  freeList (heapOf s ctx) cls = [] && decide ((heapOf s ctx).slabs ≤ (heapOf s ctx).carved.length)

/-- R308: up to n blocks of a free list, which ones being unpredictable (assumption 9): those taken, and those left. -/
def pickBlocks : Nat → List Nat → State → (List Nat × List Nat) × State
  | 0, bs, s => (([], bs), s)
  | n + 1, bs, s =>
    if bs.length ≤ 1 then ((bs, []), s)
    else
      let (v, s) := freshVal s
      let i := v.toNat % bs.length
      let r := pickBlocks n (bs.eraseIdx i) s
      ((bs.getD i 0 :: r.1.1, r.1.2), r.2)

/-- R308: the puppeteer's refill of an empty magazine. -/
def refillMag (core ctx cls : Nat) (s : State) : State :=
  let h := heapOf s ctx
  match freeList h cls with
  | b :: bs =>
    let r := pickBlocks 16 (b :: bs) s
    setMagazine core ctx cls r.1.1 (updHeap ctx (fun h => { h with free := ins cls r.1.2 h.free }) r.2)
  | [] =>
    if h.slabs ≤ h.carved.length then s
    else
      let base := h.base + 2 ^ 20 * h.carved.length
      let blocks := (List.range (2 ^ (20 - cls))).map fun i => base + i * 2 ^ cls
      setMagazine core ctx cls (blocks.take 16)
        (updHeap ctx (fun h => { h with carved := h.carved ++ [cls], free := ins cls (blocks.drop 16) h.free }) s)

/-- R309: the physical lines of a block, as ranges. -/
def blockRanges (s : State) (ctx addr cls : Nat) : List (Nat × Nat) :=
  let step := Nat.min (2 ^ cls) 65536
  (List.range (2 ^ cls / step)).filterMap fun i =>
    match translateNow s ctx needNone (addr + i * step) with
    | .pa a => some (a / 128, (a + step - 1) / 128)
    | _ => none

def inRanges (rs : List (Nat × Nat)) (line : Nat) : Bool := rs.any fun r => r.1 ≤ line && line ≤ r.2

/-- R309: take the newest block of a magazine for one fibre. -/
def takeBlock (core ctx cls b : Nat) (rest : List Nat) (s : State) : State :=
  let rs := blockRanges s ctx b cls
  olderWords ctx b (2 ^ cls / 4) <| discardRdc (dieOf core) (inRanges rs) (discardL1 core (inRanges rs)
    (updHeap ctx (fun h => { h with alloc := put false b true h.alloc }) (setMagazine core ctx cls rest s)))

/-- R309: a fibre of an outstanding `dalloc` has its address. -/
def gotAddr (op lane : Nat) (v : Dword) (s : State) : State :=
  updOp op (fun o => { o with vals := o.vals ++ [(lane, v)], left := o.left - 1 }) s

/-- R309: a fibre of an outstanding `dalloc` faults; its fibre stays at the instruction. -/
def allocFault (k op lane sub : Nat) (addr : Dword) (s : State) : State :=
  let s := updOp op (fun o => { o with parts := o.parts.filter fun p => p.lane ≠ lane, left := o.left - 1 }) s
  updGang k (fun g =>
    match fibreAt g lane with
    | some f =>
      let f' := match f.wait with
        | some ⟨.dalloc _, _, _⟩ => { f with wait := none }
        | _ => f
      if notEnded f then
        { g with fibres := g.fibres.set lane f', pend := g.pend ++ [⟨lane, causeSub cALLOC sub, addr, f.pc⟩] }
      else g
    | none => g) s

/-- R309: serve one fibre: a block, exhaustion, or a wait for the puppeteer. -/
def serveAlloc (core : Nat) (r : DallocReq) (s : State) : State :=
  match magazine s core r.ctx r.cls with
  | b :: rest => gotAddr r.op r.lane (num64 b) (takeBlock core r.ctx r.cls b rest s)
  | [] =>
    if noRefill s r.ctx r.cls then
      if r.z then gotAddr r.op r.lane 0 s else allocFault r.gang r.op r.lane 1 r.size s
    else updCore core (fun c => { c with refills := c.refills ++ [r] }) s

/-- The instruction is over once every fibre has its address or its fault: the group's wait ends. -/
def allocDone (k op : Nat) (s : State) : State :=
  match look op s.ops with
  | some o =>
    if o.left = 0 then
      updGang k (fun g => endWaits (isDalloc op) (waiting (isDalloc op) g) g) (finishOp op s)
    else s
  | none => updGang k (fun g => endWaits (isDalloc op) (waiting (isDalloc op) g) g) s

/-- R309, R311: each active fibre asks for its block, in ascending lane order; the group waits while one is missing. Until every
fibre has its address or its fault, the gang issues nothing (R383). -/
def dallocOp (z : Bool) (d a : Opnd) (x : Iss) (s : State) : State :=
  let size (f : Fibre) : Dword := rd x.g x.h.ext (rdTy .n64) f a
  let lanes := (lanesOf x.act).filterMap fun i => (fibreAt x.g i).map fun f => (i, size f)
  let bad := lanes.filter fun l => l.2 = 0 || decide (2 ^ 20 < l.2.toNat)
  let good := lanes.filter fun l => !(l.2 = 0 || decide (2 ^ 20 < l.2.toNat))
  let s := raiseFaults x (bad.map fun l => ⟨l.1, causeSub cALLOC 2, l.2, x.pc⟩) s
  let (id, s) := freshId s
  let o := { newOp x id .ld (some (d, .raw64)) (good.map fun l => ⟨l.1, []⟩) with left := good.length + 1, logv := true }
  let s := startSampled x 0x6B 0 0 o true s
  let s := waitAt x (x.group &&& ~~~ maskOf (bad.map (·.1))) (.dalloc id) s
  let s := good.foldl (fun s l =>
    serveAlloc x.g.core ⟨id, x.k, l.1, x.g.ctx, classOf l.2.toNat, l.2, z⟩ s) s
  allocDone x.k id (updOp id (fun o => { o with left := o.left - 1 }) s)

/-- R309. -/
def execDalloc (h : Hd) (d a : Opnd) (s : State) : Outc :=
  issue (.dalloc h d a) h .ld noGate (dallocOp false d a) s

/-- R309. -/
def execDallocZ (h : Hd) (d a : Opnd) (s : State) : Outc :=
  issue (.dallocZ h d a) h .ld noGate (dallocOp true d a) s

/-- R308, R311, R313: the puppeteer refills a magazine that fibres wait on, and serves them, oldest first, those cancelled since among
them; where the context has left the core, what is over goes to the free list. -/
def execMagazineRefill (core ctx cls : Nat) (s : State) : Outc :=
  let mine := (coreOf s core).refills.filter fun r => r.ctx = ctx && r.cls = cls
  if mine = [] then .fault .notEnabled
  else
    let s := if magazine s core ctx cls = [] then refillMag core ctx cls s else s
    let s := updCore core (fun c => { c with refills := c.refills.filter fun r => !(r.ctx = ctx && r.cls = cls) }) s
    let s := mine.foldl (fun s r => serveAlloc core r s) s
    .next (magsHome core ctx (mine.foldl (fun s r => allocDone r.gang r.op s) s))

/-- R310: the class of the allocated block that starts at an address. -/
def blockClass (h : Heap) (a : Nat) : Option Nat :=
  if a < h.base then none
  else
    match h.carved[(a - h.base) / 2 ^ 20]? with
    | some cls => if (a - h.base) % 2 ^ cls = 0 ∧ find false a h.alloc then some cls else none
    | none => none

/-- R308, R310: one block enters the magazine of the freeing core. -/
def freeBlock (core ctx cls a : Nat) (s : State) : State :=
  let m := magazine s core ctx cls
  let s := updHeap ctx (fun h => { h with alloc := put false a false h.alloc }) s
  if m.length < 32 then setMagazine core ctx cls (a :: m) s
  else
    setMagazine core ctx cls (a :: m.take 16)
      (updHeap ctx (fun h => { h with free := ins cls (freeList h cls ++ (m.drop 16).reverse) h.free }) s)

/-- R310: the lanes of a `dfree` that free a block: of several that name one block, the lowest. -/
def freeing (a : Opnd) (x : Iss) (s : State) : BitVec 64 :=
  maskOf (((lanesOf x.act).foldl (fun acc i =>
    match fibreAt x.g i with
    | none => acc
    | some f =>
      let p := (rd x.g x.h.ext (rdTy .n64) f a).toNat
      if (blockClass (heapOf s x.g.ctx) p).isSome ∧ p ≠ 0 ∧ acc.all (fun q => q.2 ≠ p) then (i, p) :: acc else acc)
    ([] : List (Nat × Nat))).map (·.1))

/-- R310: the release of the fibres that free stands before the frees; each fibre frees in ascending lane order. -/
def execDfree (h : Hd) (a : Opnd) (s : State) : Outc :=
  issue (.dfree h a) h .st (fun x s => relGate .dev { x with act := freeing a x s } s) (fun x s =>
    sampleNow x 0x6C 0 0 ((lanesOf x.act).foldl (fun s i =>
      match fibreAt x.g i with
      | none => s
      | some f =>
        let p := rd x.g x.h.ext (rdTy .n64) f a
        if p = 0 then s
        else
          match blockClass (heapOf s x.g.ctx) p.toNat with
          | some cls => freeBlock x.g.core x.g.ctx cls p.toNat s
          | none => raiseFaults x [⟨i, causeSub cALLOC 3, p, x.pc⟩] s) s)) s

end Sys2Proof.Machine
end

