-- ==== Sys2Proof/Machine/MemSystem.lean ====
section
/-! DEFINITION. The steps of the memory system: requests at the slices, fills, replies, peer accesses and page walks
(13 R251 to R263, R269, R451; 10 R216, R217; 22 R411, R417). -/

namespace Sys2Proof.Machine

/-! ## Slices -/

/-- The slice of a request at its home die. -/
def reqDie (r : Req) : Nat := homeDie (128 * r.line)
def atSlice (die slice : Nat) (r : Req) : Bool := reqDie r = die && sliceOf (128 * r.line) = slice

def stageIs (st : Stage) (r : Req) : Bool := r.stage = st

/-- The requests of a slice at a stage, in order. -/
def sliceReqs (s : State) (die slice : Nat) (st : Stage) : List Req :=
  s.reqs.filter fun r => atSlice die slice r && stageIs st r

/-- A request enters a stage behind those already there. -/
def moveReq (r : Req) (st : Stage) (s : State) : State :=
  { s with reqs := (s.reqs.filter fun q => q.id ≠ r.id) ++ [{ r with stage := st }] }

/-- R444: what a sampled instruction's request has met. -/
def noteSmp (r : Req) (f : Smp → Smp) (s : State) : State := updOp r.op (fun o => { o with smp := o.smp.map f }) s

/-- Cycles since a request entered the phase it is in. -/
def waited (s : State) (r : Req) : Nat := s.clk.toNat - r.since.toNat

/-! ## Arrival and lookup -/

/-- R411: two requests take one link from die to die, in each direction. -/
def oneLink (q r : Req) : Bool :=
  dieOf q.core = dieOf r.core && reqDie q = reqDie r && decide (dieOf r.core ≠ reqDie r)

/-- R274: no earlier request of the core to the line is still on the mesh; R411, R417: the way there delivers, and what a link carries
arrives in the order in which it was sent. -/
def meshReady (s : State) (r : Req) : Bool :=
  r.stage = .mesh && sendUp s (dieOf r.core) (reqDie r) &&
    s.reqs.all fun q => !((q.core = r.core && q.line = r.line) || oneLink q r) || q.stage ≠ .mesh || decide (r.id ≤ q.id)

/-- R259: enter the slice's queue behind the router's requests while it has room. -/
def execMeshRequestArrival (id : Nat) (s : State) : Outc :=
  match reqById s id with
  | none => .fault .notEnabled
  | some r =>
    if !meshReady s r then .fault .notEnabled
    else
      let die := reqDie r
      let sl := sliceOf (128 * r.line)
      let room := (sliceReqs s die sl .queue).length < 16 ∧ sliceReqs s die sl .router = []
      .next (moveReq { r with since := s.clk } (if room then .queue else .router)
        (noteSmp r (fun p => { p with mesh := Nat.max p.mesh (waited s r) }) s))

/-- R259: requests at the router enter the queue, oldest first, while it has room. -/
def drainRouter (die slice : Nat) (s : State) : State :=
  let room := 16 - (sliceReqs s die slice .queue).length
  ((sliceReqs s die slice .router).take room).foldl (fun s r => moveReq r .queue s) s

/-- R257: the lines of a slice that its L2 holds. -/
def sliceLines (s : State) (die slice : Nat) : List Nat :=
  s.l2.filter fun l => homeDie (128 * l) = die && sliceOf (128 * l) = slice

/-- R260: the requests parked behind a pending fill, without the one that started it. -/
def parkedCount (s : State) (die slice : Nat) : Nat :=
  (sliceReqs s die slice .parked).length - (s.fills.filter fun l => homeDie (128 * l) = die && sliceOf (128 * l) = slice).length

/-- R257: start a fill, and let the request await it. -/
def startFill (r : Req) (s : State) : State :=
  moveReq { r with since := s.clk } .parked { s with l2 := s.l2.filter (· ≠ r.line), fills := s.fills ++ [r.line] }

/-- R259: the lookup of the request at the head of a slice's queue. -/
def lookupHead (r : Req) (s : State) : State :=
  let s := noteSmp r (fun p => { p with l2 := Nat.max p.l2 (waited s r) }) s
  if s.fills.contains r.line then
    perfCount r.core r.ctx 7 1 (moveReq { r with since := s.clk } .parked (noteSmp r (fun p => { p with replays := p.replays + 1 }) s))
  else if s.l2.contains r.line then
    -- a 16-way slice may have evicted the line since; which one is unpredictable
    if (sliceLines s (reqDie r) (sliceOf (128 * r.line))).length ≤ 16 then performReq r s
    else
      let (evicted, s) := freshCoin s
      if evicted then startFill r s else performReq r s
  else startFill r s

/-- R259, R260: while the replay queue is full, a request that would be parked stays at the head. -/
def lookupReady (s : State) (die slice : Nat) : Bool :=
  islandUp s (cacheIsland die) &&
    match sliceReqs s die slice .queue with
    | [] => false
    | r :: _ => !(s.fills.contains r.line && decide (64 ≤ parkedCount s die slice))

def execL2Lookup (die slice : Nat) (s : State) : Outc :=
  match sliceReqs s die slice .queue with
  | [] => .fault .notEnabled
  | r :: _ => if lookupReady s die slice then .next (drainRouter die slice (lookupHead r s)) else .fault .notEnabled

/-! ## Fills -/

/-- R261: the bytes of a store in sectors that it does not cover whole. -/
def partialWrite (r : Req) : List (Nat × Byte) :=
  match r.act with
  | .write bs => bs.filter fun b => decide ((distinct ((bs.filter fun x => sectorOf x.1 = sectorOf b.1).map (·.1))).length < 64)
  | _ => []

/-- A request performed in a replay: what it wrote, and the memory it found. -/
structure Replayed where
  r : Req
  wrote : List (Nat × Byte)
  old : State
  deriving DecidableEq, Repr

/-- What a parked load returns, so far: the bytes, and the 4-byte words that keep the value of a later write. -/
structure Late where
  bytes : List (Nat × Byte)
  kept : List Nat
  s : State
  deriving DecidableEq, Repr

/-- R274: an earlier load of the core has seen the words of a write, or later ones. -/
def coreSaw (core : Nat) (ws : List (Nat × Byte)) (old : State) (line : Nat) (s : State) : Bool :=
  s.reqs.any fun q => q.core = core && q.line = line && isRead q &&
    match q.stage with
    | .filled a | .answered a => a.bytes.any fun x => ws.any (fun b => b.1 = x.1) && decide (x.2 ≠ memByte old x.1)
    | _ => false

/-- R261: a parked load meets the partial write of another core that was performed before it: each word, whole, is as the write
gave it or as it was before, unpredictably. -/
def missWords (r : Req) (w : Replayed) (a : Late) : Late :=
  let ws := if w.r.core = r.core then [] else partialWrite w.r
  let unit := Nat.min (reqUnit a.s r) (reqUnit a.s w.r)
  let a := { a with kept := ((w.wrote.filter fun b => !ws.any fun x => x.1 = b.1).map fun b => b.1 / 4) ++ a.kept }
  (distinct (ws.map fun b => b.1 / unit)).foldl (fun a u =>
    let mine := ws.filter fun b => b.1 / unit = u
    if mine.any (fun b => a.kept.contains (b.1 / 4)) ∨ coreSaw r.core mine w.old r.line a.s then
      { a with kept := (mine.map fun b => b.1 / 4) ++ a.kept }
    else
      let (missed, s) := freshCoin a.s
      if missed then
        { a with bytes := a.bytes.map fun x => if mine.any (fun b => b.1 = x.1) then (x.1, memByte w.old x.1) else x, s := s }
      else { a with kept := (mine.map fun b => b.1 / 4) ++ a.kept, s := s }) a

/-- R261: the bytes a parked load returns; `before` holds, newest first, the requests performed in this replay. -/
def raceLoad (r : Req) (before : List Replayed) (bytes : List (Nat × Byte)) (s : State) : List (Nat × Byte) × State :=
  let a := before.foldl (fun a w => missWords r w a) (⟨bytes, [], s⟩ : Late)
  (a.bytes, a.s)

/-- R444: how long a request has been parked: behind another's fill, or for its own. -/
def noteParked (own : Bool) (r : Req) (s : State) : State :=
  noteSmp r (fun p => if own then { p with hbm := Nat.max p.hbm (waited s r) } else { p with rpl := Nat.max p.rpl (waited s r) }) s

/-- R260: the parked requests re-enter in the order in which they were parked. -/
def replayParked : List Req → List Replayed → State → State
  | [], _, s => s
  | r :: rs, before, s =>
    let old := s
    let (n, s) := freshId (shutEarlier r (noteParked before.isEmpty r s))
    let a := perform (reqUnit s r) r.act s
    let b := if isRead r then raceLoad r before a.1.bytes a.2 else (a.1.bytes, a.2)
    replayParked rs (⟨r, if isRead r then [] else a.1.bytes, old⟩ :: before)
      (setStage r.id (answered r.act { a.1 with bytes := b.1, seq := n }) b.2)

/-- R2: 24 MiB of lines. -/
def sliceCap : Nat := 196608

/-- R257: a line enters its slice; when that is full, an unpredictable line leaves it. -/
def enterL2 (line : Nat) (s : State) : State :=
  let ls := sliceLines s (homeDie (128 * line)) (sliceOf (128 * line))
  if ls.length < sliceCap then { s with l2 := line :: s.l2 }
  else
    let (v, s) := freshVal s
    { s with l2 := line :: s.l2.filter (· ≠ ls.getD (v.toNat % ls.length) 0) }

/-- R260, R261: the fill of a line completes. -/
def execHbmFillComplete (line : Nat) (s : State) : Outc :=
  if s.fills.contains line && islandUp s (hbmIsland line) then
    let s := enterL2 line { s with fills := s.fills.filter (· ≠ line) }
    .next (replayParked (s.reqs.filter fun r => r.line = line && stageIs .parked r) [] s)
  else .fault .notEnabled

/-- The order of a request that has been performed and whose answer has not come to the die it goes to. -/
def replySeq (r : Req) : Option Nat :=
  match r.stage with
  | .filled a => some a.seq
  | .answered a => (match r.act with
    | .read true _ _ | .read _ true _ => none
    | _ => some a.seq)
  | _ => none

/-- R411, R417: an answer can come back: the way delivers, and what a link carries arrives in the order in which it was sent. -/
def replyUp (s : State) (r : Req) : Bool :=
  sendUp s (reqDie r) (dieOf r.core) &&
    match replySeq r with
    | none => true
    | some n => s.reqs.all fun q => !oneLink q r || match replySeq q with | some m => decide (n ≤ m) | none => true

/-- R252, R262, R451: a fill reaches the caches; it is placed where nothing has forbidden it since. -/
def execCacheFillArrival (id : Nat) (s : State) : Outc :=
  match reqById s id with
  | none => .fault .notEnabled
  | some r =>
    match r.stage, r.act with
    | .filled a, .read l1 rdc _ =>
      if !replyUp s r then .fault .notEnabled
      else
        let die := dieOf r.core
        let s := if l1 then updCore r.core (fun c =>
          { c with l1 := insAll a.fill c.l1, l1Desc := insAll a.descs c.l1Desc }) (makeRoom r.core r.line s) else s
        let s := if rdc then roomRdc die r.line s else s
        let s := if rdc then { s with rdc := ins die (insAll a.fill (rdcOf s die)) s.rdc
                                      rdcDesc := ins die (insAll a.descs (rdcDescOf s die)) s.rdcDesc } else s
        .next (setStage id (.answered a) s)
    | _, _ => .fault .notEnabled

/-! ## Replies -/

/-- R275, R451: a write performed at its home updates the local RDC copy, and fills on their way are not placed. -/
def updateRdc (die : Nat) (bs : List (Nat × Byte)) (ds : List (Nat × BitVec 16)) (s : State) : State :=
  let lines := distinct (bs.map (fun b => lineOf b.1) ++ ds.map fun d => d.1 / 2)
  let remote := lines.filter fun l => homeDie (128 * l) ≠ die
  if remote = [] then s
  else poisonRdc die remote.contains
    { s with rdc := ins die (updPresent bs (rdcOf s die)) s.rdc
             rdcDesc := ins die (ds.foldl (fun m d => adj d.1 (fun _ => d.2) m) (rdcDescOf s die)) s.rdcDesc }

/-- R444: the highest lane of an operation that touches a line. -/
def lastLane (line : Nat) (o : MemOp) : Nat :=
  ((o.parts.filter fun p => p.keys.any fun k => lineOf k = line).map (·.lane)).foldl Nat.max 0

/-- The results an answer brings to its operation. -/
def takeAnswer (r : Req) (a : Answer) (o : MemOp) : MemOp :=
  let vals := match r.act with
    | .atomic _ => a.olds
    | .readDesc _ => o.parts.filterMap fun p =>
        (a.descs.find? fun d => d.1 = partSector p).map fun d => (p.lane, d.2.setWidth 64)
    | _ => []
  { o with smp := o.smp.map fun p => { p with last := lastLane r.line o }, got := o.got ++ (if isRead r then a.bytes else []), vals := o.vals ++ vals }

/-- The answer has come back: the request is over for its operation and for those that await it (R304). -/
def closeReq (r : Req) (a : Answer) (s : State) : State :=
  let s := { s with reqs := s.reqs.filter fun q => q.id ≠ r.id }
  let s := if isWrite r.act && isRemote r.core r.line then
      poisonRdc (dieOf r.core) (· = r.line) (updateRdc (dieOf r.core) a.bytes a.descs s)
    else s
  let s := updOp r.op (takeAnswer r a) s
  let hit := (s.ops.filter fun o => o.1 = r.op || o.2.deps.contains r.id).map (·.1)
  hit.foldl (fun s i => finishOp i (updOp i (fun o => { o with left := o.left - 1 }) s)) s

/-- The answer is a value: a read's, or an atomic's whose operation has a destination. -/
def bringsValue (s : State) (r : Req) : Bool :=
  !isWrite r.act || match r.act, look r.op s.ops with
    | .atomic _, some o => o.dst.isSome
    | _, _ => false

/-- R21, R314: a reply brings its value, or the statuses of a `launch` (R214); for fibres that have ended it is dropped. -/
def execLoadReply (id : Nat) (s : State) : Outc :=
  if s.statuses.contains id then
    .next (finishOp id (updOp id (fun o => { o with left := 0 }) { s with statuses := s.statuses.filter (· ≠ id) }))
  else match reqById s id with
  | none => .fault .notEnabled
  | some r =>
    match r.stage with
    | .answered a => if bringsValue s r && replyUp s r then .next (closeReq r a s) else .fault .notEnabled
    | _ => .fault .notEnabled

/-- R262, R275, R279: a write's acknowledgement. -/
def execStoreAcknowledgement (id : Nat) (s : State) : Outc :=
  match reqById s id with
  | none => .fault .notEnabled
  | some r =>
    match r.stage with
    | .answered a => if !bringsValue s r && replyUp s r then .next (closeReq r a s) else .fault .notEnabled
    | _ => .fault .notEnabled

/-- R252, R255: a line leaves a core's L1; an update-only line is merged. -/
def execL1Eviction (core line : Nat) (s : State) : Outc :=
  if (linesIn (coreOf s core)).contains line then .next (evictL1 core line s) else .fault .notEnabled

/-! ## Engines at the home -/

/-- R287: what an engine of a die reads: the home, or the RDC's copy of a remote line. -/
def engineByte (s : State) (die pa : Nat) : Byte :=
  match (if homeDie pa = die then none else look pa (rdcOf s die)) with
  | some b => b
  | none => memByte s pa

def engineDesc (s : State) (die sector : Nat) : BitVec 16 :=
  match (if homeDie (64 * sector) = die then none else look sector (rdcDescOf s die)) with
  | some d => d
  | none => memDesc s sector

/-- What a write of the die that has been performed would still leave in the RDC, without what has been written since. -/
def supersede (die : Nat) (bs : List (Nat × Byte)) (ds : List (Nat × BitVec 16)) (s : State) : State :=
  mapReqs (fun q => if isWrite q.act && dieOf q.core = die then
    (match q.stage with
      | .answered a => { q with stage := .answered { a with
          bytes := a.bytes.filter fun b => !bs.any fun x => x.1 = b.1
          descs := a.descs.filter fun d => !ds.any fun x => x.1 = d.1 } }
      | _ => q) else q) s

/-- R287, R327: what an engine writes, in 4-byte words, is performed at the home and updates the die's RDC. -/
def engineWrite (die : Nat) (bs : List (Nat × Byte)) (ds : List (Nat × BitVec 16)) (s : State) : State :=
  updateRdc die bs ds (supersede die bs ds (ds.foldl (fun s d => setDesc d.1 d.2 s) (writeHome 4 bs s)))

/-! ## Peer accesses -/

/-- What a peer access does at its target: the bytes by key, a value, and the state after. -/
structure PeerRes where
  got : List (Nat × Byte)
  val : Option Dword
  s : State
  deriving DecidableEq, Repr

def peerPerform (p : PeerReq) (s : State) : PeerRes :=
  let core := peerCore p.core p.ea
  let off := peerOff p.ea
  match p.act with
  | .read => ⟨(List.range p.n).map fun i => (peerKey p.lane (p.ea.toNat + i), spadByte s core (off + i)), none, s⟩
  | .write bs => ⟨[], none, setSpad core (bs.mapIdx fun i b => (off + i, b)) s⟩
  | .atomic a =>
    let r := atomStep { a with addr := off } (spadByte s core)
    ⟨[], some r.1, setSpad core r.2 s⟩
  | .readDesc => ⟨[], some ((spadDescAt s core (off / 64)).setWidth 64), s⟩
  | .writeDesc d => ⟨[], none, setSpadDesc core (off / 64) d s⟩

/-- R216, R293, R436: the fibre takes PROT, and no other cause; its part of the operation is gone, and with the last part the
acquire. -/
def peerFault (p : PeerReq) (s : State) : State :=
  let s := updOp p.op (fun o =>
    { o with parts := o.parts.filter fun q => q.lane ≠ p.lane
             acq := if o.parts.any fun q => q.lane ≠ p.lane then o.acq else none, regs := o.regs.filter fun r => r.1 ≠ p.lane
             fib := o.fib &&& ~~~ maskOf [p.lane] }) s
  updGang p.gang (fun g =>
    match fibreAt g p.lane with
    | some f =>
      if notEnded f then
        { g with fibres := g.fibres.set p.lane { f with pc := p.tpc }
                 pend := (g.pend.filter fun r => r.lane ≠ p.lane) ++ [⟨p.lane, cause cPROT, p.ea, p.tpc⟩] }
      else g
    | none => g) s

/-- R217, R276: a peer access arrives; those of one instruction in lane order. -/
def execPeerAccessArrival (id : Nat) (s : State) : Outc :=
  match s.peers.find? fun p => p.id = id with
  | none => .fault .notEnabled
  | some p =>
    if s.peers.any fun q => q.op = p.op && decide (q.id < id) then .fault .notEnabled
    else
      let s := { s with peers := s.peers.filter fun q => q.id ≠ id }
      let s := if peerOk s p.core p.crew p.ens p.ea p.n then
          let r := peerPerform p s
          updOp p.op (fun o =>
            { o with got := o.got ++ r.got
                     vals := match r.val with | some v => o.vals ++ [(p.lane, v)] | none => o.vals }) r.s
        else peerFault p s
      .next (if p.lost then s else settle p.gang (finishOp p.op (updOp p.op (fun o => { o with left := o.left - 1 }) s)))

/-! ## Page walks -/

/-- R264, R266, R267: the lines of the entries that a walk of a context reads. -/
def walkLines (s : State) (ctx va : Nat) : List Nat :=
  let at' (level table : Nat) : List Nat :=
    let n := entryGroup level
    distinct ((List.range n).map fun j => lineOf (table + 8 * (walkIndex level va / n * n + j)))
  match look ctx s.ctxs with
  | none => []
  | some c =>
    if !inMemory c.root 0x8000 then []
    else at' 1 c.root ++ match readEntry 1 (entryAt s 1 c.root va) with
      | .table t => at' 2 t ++ (match readEntry 2 (entryAt s 2 t va) with | .table u => at' 3 u | _ => [])
      | _ => []

/-- R269: a cluster's walker has 32 walks in flight; the others wait, first in, first out; R411, R417: a walk waits while it
cannot reach its tables. -/
def walkReady (s : State) (id : Nat) (w : Walk) : Bool :=
  linesUp s (some (dieOf w.core)) (walkLines s w.ctx w.va.toNat) &&
  decide ((s.walks.filter fun x => clusterOf x.2.core = clusterOf w.core && decide (x.1 < id)).length < 32)

/-- The lines that an access to a virtual range reaches, those of its walks among them. -/
def rangeLines (s : State) (ctx : Nat) (r : Nat × Nat) : List Nat :=
  (List.range ((r.1 + r.2 - 1) / 128 + 1 - r.1 / 128)).flatMap fun i =>
    let va := 128 * (r.1 / 128 + i)
    walkLines s ctx va ++ match translateNow s ctx needNone va with
      | .pa a => [lineOf a]
      | _ => []

/-- The lines of the walks that a core's agents make to translate some addresses that its TLBs do not hold. -/
def missLines (s : State) (core ctx : Nat) (vas : List Nat) : List Nat :=
  (vas.filter fun va => !(tlbOf s core).any (TlbEnt.covers ctx va)).flatMap (walkLines s ctx)

/-- R269: a translation enters a TLB of n entries that holds no other for its page; when the TLB is full, `victim` leaves. -/
def addTlb (n victim : Nat) (e : TlbEnt) (l : List TlbEnt) : List TlbEnt :=
  let l := l.filter (· ≠ e)
  e :: if l.length < n then l else l.eraseIdx (victim % l.length)

/-- R269: the cluster TLB is 8-way, and the manual does not say which entries share a set: once it holds 8, a new entry may
displace any one of them, or, while it has room, none (assumption 74). -/
def addCtlb (victim : Nat) (e : TlbEnt) (l : List TlbEnt) : List TlbEnt :=
  let l := l.filter (· ≠ e)
  e :: if l.length < 8 then l
       else if l.length < 16384 then l.eraseIdx (victim % (l.length + 1))
       else l.eraseIdx (victim % l.length)

/-- R267, R269: only successful translations are cached; one that lacks the permission is none, and leaves nothing behind. -/
def execPageWalkComplete (id : Nat) (s : State) : Outc :=
  match look id s.walks with
  | none => .fault .notEnabled
  | some w =>
    if !walkReady s id w then .fault .notEnabled
    else
      let s := { s with walks := del id s.walks }
      let failed (k l : Nat) : Outc := .next (updGang w.gang (fun g => { g with walkFaults := (w.va, k, l) :: g.walkFaults }) s)
      match walk s w.ctx w.va.toNat with
      | .ok e =>
        if !w.need.met e then failed 3 e.level
        else
        let cl := clusterOf w.core
        let (u, s) := freshVal s
        let (v, s) := freshVal s
        .next (updCore w.core (fun c => { c with tlb := addTlb 256 u.toNat e c.tlb })
          { s with ctlb := ins cl (addCtlb v.toNat e ((look cl s.ctlb).getD [])) s.ctlb })
      | .error (k, l) => failed k l

end Sys2Proof.Machine
end

