-- ==== Sys2Proof/Machine/Parallel.lean ====
section
/-! DEFINITION. Gang collectives, barriers, extension registers and the proposal bank (10 R199 to R209, 08 R169 to
R172, 12 R235 to R249). -/

namespace Sys2Proof.Machine

/-! ## Gang collectives -/

/-- R203: the participants' values, in ascending lane order. -/
def gather {β : Type} (x : Iss) (v : Fibre → β) : List (Nat × β) :=
  (lanesOf x.act).filterMap fun i => (fibreAt x.g i).map fun f => (i, v f)

def predOf (f : Fibre) (o : Opnd) : Bool := match o with | .p k => getP f k | _ => false

/-- R204: a vote of predicates. -/
def voteOp (i : Instr) (h : Hd) (a : Opnd) (fn : List (Nat × Bool) → Fibre → Lane) (s : State) : Outc :=
  issue i h .none noGate (fun x => perLane x fun _ f => fn (gather x fun f => predOf f a) f) s

/-- R204. -/
def execVoteAll (h : Hd) (d a : Opnd) (s : State) : Outc :=
  voteOp (.voteAll h d a) h a (fun vs f => wrP d (vs.all (·.2)) (.ok f)) s

/-- R204. -/
def execVoteAny (h : Hd) (d a : Opnd) (s : State) : Outc :=
  voteOp (.voteAny h d a) h a (fun vs f => wrP d (vs.any (·.2)) (.ok f)) s

/-- The mask of the lanes whose value passes a test. -/
def maskWhere {β : Type} (vs : List (Nat × β)) (t : β → Bool) : BitVec 64 := maskOf ((vs.filter fun v => t v.2).map (·.1))

/-- R204. -/
def execVoteBallot (h : Hd) (d a : Opnd) (s : State) : Outc :=
  voteOp (.voteBallot h d a) h a (fun vs f => wr 64 d (maskWhere vs id) (.ok f)) s

def bitsTy (wide : Bool) : Ty := if wide then .b64 else .b32

/-- R204. -/
def execVoteUni (h : Hd) (wide : Bool) (d a : Opnd) (s : State) : Outc :=
  issue (.voteUni h wide d a) h .none noGate (fun x => perLane x fun _ f =>
    let vs := gather x fun f => rd x.g h.ext (rdTy (bitsTy wide)) f a
    wrP d (vs.all fun v => vs.head?.any fun w => w.2 = v.2) (.ok f)) s

/-- R206: the source lane, as an exact integer. -/
def shflSrc (mode : Shfl) (lane b : Nat) : Int :=
  match mode with
  | .idx => b
  | .up => (lane : Int) - b
  | .down => (lane : Int) + b
  | .xor => ((lane ^^^ b : Nat) : Int)

/-- R206. -/
def execShfl (h : Hd) (wide : Bool) (mode : Shfl) (d a b c : Opnd) (s : State) : Outc :=
  issue (.shfl h wide mode d a b c) h .none noGate (fun x => perLane x fun i f =>
    let val (f : Fibre) : Dword := rd x.g h.ext (rdTy (bitsTy wide)) f a
    let src := shflSrc mode i (low 32 (rd x.g h.ext (rdTy .n32) f b))
    let hit := decide (0 ≤ src) && decide (src < x.g.width) && laneIn x.act src.toNat
    let v := if hit then ((fibreAt x.g src.toNat).map val).getD 0 else val f
    wrP c hit (wrTy (bitsTy wide) d v (.ok f))) s

/-- R205: one step of a combination, with its flags. -/
def combStep (o : Comb) (r x : Dword) : Dword × Flags :=
  if tyFloat o.t then
    match o.op with
    | .min => fMinMax (tyF o.t) false r x
    | .max => fMinMax (tyF o.t) true r x
    | _ => fAdd (tyF o.t) o.rm (fDec (tyF o.t) r) (fDec (tyF o.t) x)
  else
    (match o.op with
      | .add => tyFit o.t o.sat (tyVal o.t r + tyVal o.t x)
      | .min => if tyVal o.t x < tyVal o.t r then x else r
      | .max => if tyVal o.t r < tyVal o.t x then x else r
      | .and => r &&& x
      | .or => r ||| x
      | .xor => r ^^^ x
      | .exch => x, 0)

/-- R205: the identity of an operation. -/
def combId (o : Comb) : Dword :=
  if tyFloat o.t then
    match o.op with
    | .min => fInf (tyF o.t) false
    | .max => fInf (tyF o.t) true
    | _ => fZero (tyF o.t) true
  else
    match o.op with
    | .min => tyWrap o.t (tyMax o.t)
    | .max => tyWrap o.t (tyMin o.t)
    | .and => tyWrap o.t (-1)
    | _ => 0

/-- R205: r[l0] … r[lm], left to right, and the flags of every step. -/
def combScan (o : Comb) : List Dword → List Dword × Flags
  | [] => ([], 0)
  | v :: vs =>
    let r := vs.foldl (fun (acc : List Dword × Dword × Flags) x =>
      let y := combStep o acc.2.1 x
      (acc.1 ++ [y.1], y.1, acc.2.2 ||| y.2)) ([v], v, 0)
    (r.1, r.2.2)

def combVals (x : Iss) (o : Comb) : List (Nat × Dword) :=
  gather x fun f => narrow o.t (rd x.g x.h.ext (rdTy o.t) f o.a)

/-- R205. -/
def execGred (h : Hd) (o : Comb) (s : State) : Outc :=
  issue (.gred h o) h .none noGate (fun x => perLane x fun _ f =>
    let r := combScan o ((combVals x o).map (·.2))
    wrTy o.t o.d (r.1.getLastD 0) (wrFl r.2 (.ok f))) s

/-- R205. -/
def execGscan (h : Hd) (o : Comb) (excl : Bool) (s : State) : Outc :=
  issue (.gscan h o excl) h .none noGate (fun x => perLane x fun i f =>
    let vs := combVals x o
    let r := combScan o (vs.map (·.2))
    let out := vs.zip (if excl then combId o :: r.1 else r.1)
    let v := ((out.find? fun p => p.1.1 = i).map (·.2)).getD 0
    wrTy o.t o.d v (wrFl r.2 (.ok f))) s

def matchVals (x : Iss) (wide : Bool) (a : Opnd) : List (Nat × Dword) :=
  gather x fun f => rd x.g x.h.ext (rdTy (bitsTy wide)) f a

/-- R207. -/
def execMatchAny (h : Hd) (wide : Bool) (d a : Opnd) (s : State) : Outc :=
  issue (.matchAny h wide d a) h .none noGate (fun x => perLane x fun _ f =>
    wr 64 d (maskWhere (matchVals x wide a) (· = rd x.g h.ext (rdTy (bitsTy wide)) f a)) (.ok f)) s

/-- R207. -/
def execMatchAll (h : Hd) (wide : Bool) (d a c : Opnd) (s : State) : Outc :=
  issue (.matchAll h wide d a c) h .none noGate (fun x => perLane x fun _ f =>
    let m := maskWhere (matchVals x wide a) (· = rd x.g h.ext (rdTy (bitsTy wide)) f a)
    let all := decide (m = x.act)
    wrP c all (wr 64 d (if all then m else 0) (.ok f))) s

/-! ## Barriers -/

/-- R199: the checks of one arrival: a fault, or the barrier's index and the count. -/
inductive BarChk where
  | bad (addr : Dword)
  | ok (idx count : Nat)
  deriving DecidableEq, Repr

def barChk (s : State) (x : Iss) (ens : Bool) (a b : Opnd) (f : Fibre) : BarChk :=
  let c := low 32 (rd x.g x.h.ext (rdTy .n32) f b)
  let i := if ens then 0 else low 32 (rd x.g x.h.ext (rdTy .n32) f a)
  let pool := ((crewOf s x.g).map (·.bars.length)).getD 0
  let inEns := ((crewOf s x.g).bind (·.ens)).isSome
  if !ens ∧ pool ≤ i then .bad (num64 i)
  else if ens ∧ !inEns then .bad 0
  else if c = 0 ∨ (if ens then 32768 else 1024) < c then .bad (num64 c)
  else .ok i c

/-- R200: an issue comes before another: in an earlier cycle, or in the same one at a lower core, slot and offset. -/
def BarIssue.before (a b : BarIssue) : Bool := a.clk.toNat < b.clk.toNat || a.clk = b.clk && a.place < b.place

/-- R200: the issues of a phase with one more, in order. -/
def addIssue (n : BarIssue) : List BarIssue → List BarIssue
  | [] => [n]
  | i :: is => if n.before i then n :: i :: is else i :: addIssue n is

/-- R200: the arrivals counted, after those of one more issue: what the issue that reaches the target has beyond it is discarded. -/
def countIssue (target : Nat) (arrived : List Arrival) (i : BarIssue) : List Arrival :=
  arrived ++ if arrived.length < target then i.arrivals.take (target - arrived.length) else i.arrivals

/-- R200: a phase with these issues: the first sets the target. -/
def recount (is : List BarIssue) (b : Barrier) : Barrier :=
  let target := (is.head?.map (·.count)).getD 0
  let arrived := is.foldl (countIssue target) []
  { b with count := arrived.length, target := target, arrived := arrived, issues := is }

/-- R200: the arrivals of one issue. -/
def barArrive (i : BarIssue) (b : Barrier) : Barrier := recount (addIssue i b.issues) b

/-- R200: the place of a gang's issues among those of one cycle. -/
def barPlace (g : Gang) : Nat := 1024 * g.core + 64 * g.slot + g.off

/-- The key of the crew or ensemble that owns a gang's barrier. -/
def barOwner (s : State) (g : Gang) (ens : Bool) : Nat := if ens then ((crewOf s g).bind (·.ens)).getD 0 else g.crew

def barAt (s : State) (ens : Bool) (owner idx : Nat) : Option Barrier :=
  if ens then (look owner s.ens).map (·.bar) else (look owner s.crews).bind fun c => c.bars[idx]?

def updBar (ens : Bool) (owner idx : Nat) (f : Barrier → Barrier) (s : State) : State :=
  if ens then { s with ens := adj owner (fun e => { e with bar := f e.bar }) s.ens }
  else updCrew owner (fun c => { c with bars := modNth f idx c.bars }) s

/-- R199 to R201: the arrivals of a `bar`; an ensemble's release has cluster scope, so the core's update-only lines
are merged. -/
def barOp (ens sync : Bool) (a b : Opnd) (x : Iss) (s : State) : State :=
  let chks := (lanesOf x.act).filterMap fun i => (fibreAt x.g i).map fun f => (i, barChk s x ens a b f)
  let bad := chks.filterMap fun c => match c.2 with | .bad v => some (⟨c.1, cause cRANGE, v, x.pc⟩ : TrapRec) | _ => none
  let good := chks.filterMap fun c => match c.2 with | .ok i n => some (c.1, i, n) | _ => none
  let s := raiseFaults x bad s
  let owner := barOwner s x.g ens
  let s := if ens ∧ good ≠ [] then mergeUo x.g.core (fun _ => true) s else s
  let (id, s) := freshId s
  (distinct (good.map fun c => c.2.1)).foldl (fun s idx =>
    let here := good.filter fun c => c.2.1 = idx
    match barAt s ens owner idx with
    | none => s
    | some bar =>
      let i : BarIssue := ⟨s.clk, barPlace x.g, (here.head?.map (·.2.2)).getD 0, here.map fun c => ⟨x.k, c.1, x.g.core, id⟩⟩
      let s := updBar ens owner idx (barArrive i) s
      if sync then waitAt x (maskOf (here.map (·.1))) (.bar ens owner idx bar.phase) s else s) s

/-- R199 to R201. -/
def execBarSync (h : Hd) (a b : Opnd) (s : State) : Outc :=
  issue (.barSync h a b) h .none noGate (barOp false true a b) s

/-- R199 to R201. -/
def execBarArv (h : Hd) (a b : Opnd) (s : State) : Outc :=
  issue (.barArv h a b) h .none noGate (barOp false false a b) s

/-- R199 to R201. -/
def execBarEsync (h : Hd) (b : Opnd) (s : State) : Outc :=
  issue (.barEsync h b) h .none noGate (barOp true true (.ic 32) b) s

/-- R199 to R201. -/
def execBarEarv (h : Hd) (b : Opnd) (s : State) : Outc :=
  issue (.barEarv h b) h .none noGate (barOp true false (.ic 32) b) s

/-- R202: the peer address of byte 0 of the crew's region. -/
def regionAddr (s : State) (g : Gang) : Dword :=
  if scratchSize s g = 0 then 0xFFFFFFFF else num64 (g.core % 32 * 2 ^ 18 + scratchBase s g)

/-- R202. -/
def execBarRgn (h : Hd) (d : Opnd) (s : State) : Outc :=
  issue (.barRgn h d) h .none noGate (fun x s' => perLane x (fun _ f => wr 32 d (regionAddr s x.g) (.ok f)) s') s

def isBar (ens : Bool) (owner idx phase : Nat) (w : WaitKind) : Bool := w = .bar ens owner idx phase

/-- R200, R201: the count has reached the target, no issue of the cycle that brought the first arrivals can still change it, and
every release counted in the phase has completed. -/
def phaseDone (s : State) (ens : Bool) (b : Barrier) : Bool :=
  decide (0 < b.target) && decide (b.target ≤ b.count) && (b.issues.head?.all fun i => i.clk ≠ s.clk) && b.arrived.all (arrivalDone s ens)

/-- R200, R201: the phase completes; its waiters acquire and go on. -/
def execBarrierPhaseComplete (ens : Bool) (owner idx : Nat) (s : State) : Outc :=
  match barAt s ens owner idx with
  | none => .fault .notEnabled
  | some b =>
    if !phaseDone s ens b then .fault .notEnabled
    else
      let t := isBar ens owner idx b.phase
      let ws := s.gangs.filter fun g => waiting t g.2 ≠ 0
      let s := updBar ens owner idx (fun b => recount [] { b with phase := b.phase + 1 }) s
      .next (ws.foldl (fun s g =>
        updGang g.1 (fun g => endWaits t (waiting t g) g) (if ens then acquireAt g.2.core .clu s else s)) s)

/-! ## Extension registers -/

/-- R170: the registers of chunks above k are gone, and read 0 when they are granted again. -/
def dropChunks (k : Nat) (f : Fibre) : Fibre :=
  let f := { f with v := f.v.filter fun x => x.1 < 64 * (k + 1) }
  if k < 3 then { f with bank0 := [], bank1 := [] } else f

/-- R236, R247: where chunk 3 is granted afresh, SEL is set to 0; a release leaves it as it is. -/
def freshBanks (old new : Nat) (f : Fibre) : Fibre := if old < 3 ∧ 3 ≤ new then { f with psel := false } else f

/-- R209, R21: writes in flight to released registers are dropped. -/
def dropFlights (k held : Nat) (s : State) : State :=
  { s with ops := s.ops.map fun o => if o.2.gang = k then
      (o.1, { o.2 with regs := o.2.regs.filter fun r => !(decide (r.1 < 64) && decide (64 * (held + 1) ≤ r.2) && decide (r.2 < 256)) })
    else o }

/-- R170: set the gang's holdings. -/
def setHeld (k n : Nat) (s : State) : State :=
  updGang k (fun g =>
    { g with held := n, fibres := g.fibres.map fun f => freshBanks g.held n (dropChunks (Nat.min n g.held) f) }) (dropFlights k n s)

/-- R171: it can never be granted. -/
def racqHopeless (s : State) (g : Gang) (k : Nat) : Bool :=
  decide (131072 - ((gangsOn s g.core).map fun j => 64 * j.width).sum - 64 * g.width * g.held < racqNeed g k)

/-- R171, R208. -/
def execRacq (h : Hd) (k : Fin 512) (s : State) : Outc :=
  issue (.racq h k) h .none noGate (gangOnce fun x s =>
    if k.val ≤ x.g.held then s
    else if racqHopeless s x.g k then faultAll x (cause cNOREG) 0 s
    else
      updCore x.g.core (fun c => { c with racq := c.racq ++ [⟨x.k, x.act, k, x.pc⟩] }) (waitAt x x.act (.racq k) s)) s

def isRacq (w : WaitKind) : Bool := match w with | .racq _ => true | _ => false

/-- R171: the head of the queue is granted, or completes without a grant. -/
def execRacqGrant (core : Nat) (s : State) : Outc :=
  match (coreOf s core).racq with
  | [] => .fault .notEnabled
  | r :: rs =>
    if !racqReady s core then .fault .notEnabled
    else
      let s := updCore core (fun c => { c with racq := rs }) s
      match look r.gang s.gangs with
      | none => .next s
      | some g =>
        let s := if r.k ≤ g.held then s else setHeld r.gang r.k s
        .next (updGang r.gang (endWaits isRacq r.lanes) s)

/-- R172: every non-ended fibre of every resident gang waits in `racq`, and the head cannot be granted. -/
def allInRacq (s : State) (core : Nat) : Bool :=
  !(gangsOn s core).isEmpty && (gangsOn s core).all (fun g =>
    g.frozen.isSome || g.fibres.all fun f => ended f || (decide (f.life = .live) && f.wait.any fun w => isRacq w.kind))
  && !racqReady s core && !(coreOf s core).racq.isEmpty

/-- R172: the fibres of a withdrawn request take REGDEADLOCK at the `racq`. -/
def racqFault (r : RacqReq) (g : Gang) : Gang :=
  let m := r.lanes &&& waiting isRacq g
  { onLanes m (fun _ f => { f with wait := none }) g with
    pend := g.pend ++ (lanesOf m).map fun i => ⟨i, cause cREGDEADLOCK, num64 r.k, r.pc⟩ }

/-- R172. -/
def execRegdeadlockDetect (core : Nat) (s : State) : Outc :=
  match (coreOf s core).racq with
  | [] => .fault .notEnabled
  | r :: rs =>
    if !allInRacq s core then .fault .notEnabled
    else .next (settle r.gang (updGang r.gang (racqFault r) (updCore core (fun c => { c with racq := rs }) s)))

/-- R209: the open proposals among the group's active fibres. -/
def execRrel (h : Hd) (k : Fin 512) (s : State) : Outc :=
  issue (.rrel h k) h .none noGate (gangOnce fun x s =>
    if x.g.held ≤ k.val then s
    else if k.val < 3 ∧ x.g.held = 3 ∧ x.g.fibres.any (fun f => notEnded f && f.popen) then
      perLane x (fun _ f => if f.popen then .bad f (cause cPSTATE) (pstate f) else .ok f) s
    else setHeld x.k k s) s

/-! ## The proposal bank -/

/-- R249: the latch drops the window's registers. -/
def dropWindow (k : Nat) (s : State) : State :=
  updGang k (fun g => { g with latch := g.latch.filter fun e => e.reg < 224 }) s

/-- R239: the shadow takes the live window. -/
def openProposal (f : Fibre) : Fibre :=
  if f.psel then { f with bank0 := f.bank1, popen := true } else { f with bank1 := f.bank0, popen := true }

def pstateBad (f : Fibre) : Lane := .bad f (cause cPSTATE) (pstate f)

/-- R239. -/
def execPopen (h : Hd) (s : State) : Outc :=
  issue (.popen h) h .none noGate (fun x s =>
    perLane x (fun _ f => if f.popen then pstateBad f else .ok (openProposal f)) (dropWindow x.k s)) s

/-- R241: the decision, with the fibre after its draw. -/
def decideProposal (x : Dword) (f : Fibre) : Bool × Fibre :=
  let d := fibreDraw f
  let xv := fDec f32F x
  let ok := match xv with
    | .nan _ => false
    | _ => (fCompare .ge xv (fDec f32F (ln24 (d.1 / 2 ^ 8)))).1
  (ok, { d.2 with psel := d.2.psel != ok, popen := false, pcnt := d.2.pcnt + 1
                  acnt := if ok then d.2.acnt + 1 else d.2.acnt })

/-- R241. -/
def execAccept (h : Hd) (d a : Opnd) (s : State) : Outc :=
  issue (.accept h d a) h .none noGate (fun x s =>
    perLane x (fun _ f =>
      if !f.popen then pstateBad f
      else
        let r := decideProposal (rd x.g h.ext (rdTy .f32) f a) f
        wrP d r.1 (.ok r.2)) (dropWindow x.k s)) s

/-- R242. -/
def execPclose (h : Hd) (s : State) : Outc :=
  issue (.pclose h) h .none noGate (fun x s =>
    perLane x (fun _ f => if !f.popen then pstateBad f else .ok { f with popen := false }) (dropWindow x.k s)) s

end Sys2Proof.Machine
end

