-- ==== Sys2Proof/Machine/Tasks.lean ====
section
/-! DEFINITION. Continuation records, bins, stealing and overflow, and the incumbents (09 R182 to R194, 10 R195 to
R198, R210 to R213, 22 R413, 23 R433). -/

namespace Sys2Proof.Machine

/-! ## The pool -/

def widthOf (code : Fin 4) : Nat := 8 * 2 ^ code.val

/-- The records of a pool. -/
def poolRecords (c : Core) : Nat := (c.bins.map (·.recs.length)).sum + c.unbinned.length

/-- R188: the places of a pool that are taken, those reserved for a steal's answer among them. -/
def poolCount (c : Core) : Nat := poolRecords c + c.steal.reserved

def recKey (r : Rec) : BinKey := ⟨r.ctx, r.ltag, r.entry, r.wcode⟩

/-- R185: a record joins the bin with its key, or a free bin; none when it must wait. -/
def binRec (clk : Dword) (r : Rec) (bins : List Bin) : Option (List Bin) :=
  if bins.any fun b => b.key = recKey r then
    some (bins.map fun b => if b.key = recKey r then { b with recs := r :: b.recs } else b)
  else if bins.length < 16 then some (bins ++ [⟨recKey r, [r], clk⟩])
  else none

/-- R185: a record enters the pool. -/
def enterPool (core : Nat) (r : Rec) (s : State) : State :=
  let (ord, s) := freshId s
  let r := { r with ord := ord }
  updCore core (fun c =>
    match binRec s.clk r c.bins with
    | some bins => { c with bins := bins }
    | none => { c with unbinned := c.unbinned ++ [r] }) s

/-- R185: bins that are empty free, and the unbinned records take their places, oldest first. -/
def rebin (core : Nat) (s : State) : State :=
  updCore core (fun c =>
    let r := c.unbinned.foldl (fun (acc : List Bin × List Rec) r =>
      match binRec s.clk r acc.1 with
      | some bins => (bins, acc.2)
      | none => (acc.1, acc.2 ++ [r])) (c.bins.filter (fun b => b.recs ≠ []), [])
    { c with bins := r.1, unbinned := r.2 }) s

/-- R192, R320: the dominated records of a core's pool are discarded. -/
def purgePool (core : Nat) (s : State) : State :=
  let keep (r : Rec) : Bool := !recDominated s core r
  rebin core (updCore core (fun c =>
    { c with bins := c.bins.map (fun b => { b with recs := b.recs.filter keep }), unbinned := c.unbinned.filter keep }) s)

/-! ## `spawn` -/

/-- R193: the bound a record takes from its parent. -/
def tighten (i : Inc) (parent given : Dword) : Dword :=
  if i.max then (if incOrd i.f64 parent < incOrd i.f64 given then parent else given)
  else if incOrd i.f64 parent < incOrd i.f64 given then given else parent

/-- R183: the 64 bytes of a record in the overflow area. -/
def recBytes (r : Rec) : List Byte :=
  leBytes 64 (r.entry.toNat + 2 ^ 48 * r.incsel.toNat + 2 ^ 52 * r.wcode.val + 2 ^ 54 * r.ltag + 2 ^ 64 * r.bound.toNat
    + 2 ^ 128 * r.parent.toNat + 2 ^ 192 * r.task.toNat
    + (r.args.mapIdx fun i a => 2 ^ (256 + 32 * i) * a.toNat).sum)

/-- A context's overflow segment of a core. -/
def segOf (s : State) (ctx core : Nat) : Option Segment := (look ctx s.ctxs).bind fun c => look core c.segs
def updSeg (ctx core : Nat) (f : Segment → Segment) (s : State) : State :=
  updCtx ctx (fun c => { c with segs := adj core f c.segs }) s

def segRoom (s : State) (ctx core : Nat) : Bool := (segOf s ctx core).any fun g => g.recs.length < g.cap

/-- R189: a record is written at the segment's tail. -/
def overflowRec (core : Nat) (r : Rec) (s : State) : State :=
  match segOf s r.ctx core with
  | none => s
  | some g =>
    let pos := g.base + 64 * ((g.head + g.recs.length) % g.cap)
    updSeg r.ctx core (fun g => { g with recs := g.recs ++ [r] }) (setBytes ((recBytes r).mapIdx fun i b => (pos + i, b)) s)

/-- R398: the context's records in a core's pool, oldest first. -/
def poolRecs (c : Core) (ctx : Nat) : List Rec :=
  let all := (c.bins.flatMap (·.recs) ++ c.unbinned).filter fun r => r.ctx = ctx
  all.foldl (fun acc r => acc.takeWhile (fun x => x.ord ≤ r.ord) ++ r :: acc.dropWhile fun x => x.ord ≤ r.ord) []

def dropRec (core : Nat) (r : Rec) (s : State) : State :=
  updCore core (fun c => { c with bins := c.bins.map (fun b => { b with recs := b.recs.filter (· ≠ r) })
                                  unbinned := c.unbinned.filter (· ≠ r) }) s

/-- R398: they go to the core's overflow segment, as far as it has room. -/
def spillPool (ctx core : Nat) (s : State) : State :=
  rebin core ((poolRecs (coreOf s core) ctx).foldl (fun s r =>
    if segRoom s ctx core then overflowRec core r (dropRec core r s) else s) s)

/-- R398: a pool that a request has vacated of some contexts keeps no record of theirs that its segment can take. -/
def spillVacated (core : Nat) (s : State) : State := (coreOf s core).vacated.foldl (fun s v => spillPool v.1 core s) s

/-- R194, R320: the dominated records that have entered a pool since its last broadcast. -/
def purgePools (s : State) : State :=
  s.cores.foldl (fun s c =>
    if (c.2.bins.flatMap (·.recs) ++ c.2.unbinned).any (recDominated s c.1) then purgePool c.1 s else s) s

/-- R182: task and gang numbers: 2^63 + CORE × 2^40 + a 40-bit sequence. -/
def seqId (core : Nat) (n : BitVec 40) : Dword := num64 (2 ^ 63 + core * 2 ^ 40 + n.toNat)

def spawnSeqOf (s : State) (core ctx : Nat) : BitVec 40 := (look ctx (coreOf s core).spawnSeq).getD 0
def gangSeqOf (s : State) (core ctx : Nat) : BitVec 40 := (look ctx (coreOf s core).gangSeq).getD 0

/-- R195: A names eight vector registers, or the constant 0 for eight zeros. -/
def spawnArgs (o : Spawn) (f : Fibre) : List Word :=
  match o.a with
  | .v n => (List.range 8).map fun i => getV f (n + i)
  | _ => List.replicate 8 0

/-- R197: the record of one fibre. -/
def recOf (s : State) (x : Iss) (o : Spawn) (t : Pc) (f : Fibre) : Rec :=
  let given := rd x.g x.h.ext (rdTy .i64) f o.b
  { args := spawnArgs o f, task := seqId x.g.core (spawnSeqOf s x.g.core x.g.ctx), parent := f.fid
    bound := if f.incsel = 15 then given else tighten (coreInc s x.g.core x.g.ctx f.incsel.toNat) f.bound given
    ltag := x.g.ltag, wcode := o.wcode, incsel := f.incsel, entry := t, ctx := x.g.ctx, order := o.order, ord := 0 }

/-- R197: one fibre's `spawn`: into the pool, or overflow, or SPAWNOVF. -/
def spawnOne (x : Iss) (o : Spawn) (i : Nat) (f : Fibre) (t : Pc) (s : State) : State :=
  let core := x.g.core
  let r := recOf s x o t f
  let place (s : State) : State :=
    let s := updCore core (fun c => { c with spawnSeq := ins x.g.ctx (spawnSeqOf s core x.g.ctx + 1) c.spawnSeq }) s
    perLane { x with act := maskOf [i] } (fun _ f => wr 64 o.d r.task (.ok f)) s
  if poolCount (coreOf s core) < 4096 then place (enterPool core r s)
  else if segRoom s x.g.ctx core then place (overflowRec core r s)
  else raiseFaults x [⟨i, cause cSPAWNOVF, 0, x.pc⟩] s

/-- R198: the release that `spawn` orders. -/
def spawnGate (o : Spawn) (x : Iss) (s : State) : Option State :=
  match o.order with
  | .none => none
  | .clu => relGate .clu x s
  | .dev => relGate .dev x s

/-- R197: the records of one issue, in ascending lane order. -/
def spawnOp (o : Spawn) (target : Fibre → Except (Word × Dword) Pc) (x : Iss) (s : State) : State :=
  (lanesOf x.act).foldl (fun s i =>
    match fibreAt x.g i with
    | none => s
    | some f =>
      match target f with
      | .error (c, a) => raiseFaults x [⟨i, c, a, x.pc⟩] s
      | .ok t => spawnOne x o i f t s) s

/-- R196, R197. -/
def execSpawnLabel (h : Hd) (o : Spawn) (off : Word) (s : State) : Outc :=
  issue (.spawnLabel h o off) h .none (spawnGate o) (fun x => spawnOp o (fun _ => .ok (labelPc x.pc off)) x) s

/-- R196: the register target is checked as R97 lays down. -/
def spawnTarget (x : Iss) (c : Opnd) (f : Fibre) : Except (Word × Dword) Pc :=
  let t := rd x.g x.h.ext (rdTy .n64) f c
  if t.toNat / 2 ^ 48 ≠ 0 then .error (cause cRANGE, t)
  else if t.toNat % 4 ≠ 0 then .error (cause cMISALIGN, t)
  else .ok (t.setWidth 48)

/-- R196, R197. -/
def execSpawnRegister (h : Hd) (o : Spawn) (c : Opnd) (s : State) : Outc :=
  issue (.spawnRegister h o c) h .none (spawnGate o) (fun x => spawnOp o (spawnTarget x c) x) s

/-! ## Gangs formed from bins -/

/-- R183, R17: the fibre of a record. -/
def recFibre (l : Launch) (lane : Nat) (r : Rec) : Fibre :=
  let f := Fibre.start r.entry r.task l.pkt.seed r.bound r.incsel
  { f with v := putAll 0 0 r.args [], fidx := BitVec.ofNat 32 lane }

/-- R198: the acquire a child makes before its first instruction. -/
def childAcquire (core : Nat) (rs : List Rec) (s : State) : State :=
  if rs.any fun r => r.order = .dev then acquireAt core .dev s
  else if rs.any fun r => r.order = .clu then acquireAt core .clu s
  else s

/-- R168, R182, R185: place a gang of these records, most recent in lane 0, as a crew of its own. -/
def placeBinGang (core : Nat) (key : BinKey) (l : Launch) (rs : List Rec) (slot off : Nat) (s : State) : State :=
  let w := widthOf key.wcode
  let (ck, s) := freshId s
  let (gk, s) := freshId s
  let (pb, s) := privSpan key.ctx l w s
  let gid := seqId core (gangSeqOf s core key.ctx)
  let s := updCore core (fun c => { c with gangSeq := ins key.ctx (gangSeqOf s core key.ctx + 1) c.gangSeq }) s
  let g := { Gang.start key.ctx key.ltag ck 0 core w gid with
    slot := slot, off := off, pb := pb, s := put 0 0 l.pkt.arg []
    fibres := (List.range w).map fun i => match rs[i]? with
      | some r => recFibre l i r
      | none => Fibre.blank }
  let c : Crew :=
    { ctx := key.ctx, ltag := key.ltag, index := 0, core := core, base := 0, size := 0, bars := [], barSlots := []
      ngangs := 1, ens := none, spawned := true, gangs := [gk], saved := false, scanned := [], moved := [], movedDesc := [] }
  childAcquire core rs { s with gangs := ins gk g s.gangs, crews := ins ck c s.crews }

/-- R185: the bin's timer has reached 512. -/
def binTimed (clk : Dword) (b : Bin) : Bool := 512 ≤ clk.toNat - b.start.toNat
def binFull (b : Bin) : Bool := widthOf b.key.wcode ≤ b.recs.length

/-- R185: the entry PC is that of a resident gang that shares a slot with free lanes of the width. DESIGN CHOICE (assumption 79): a
gang whose fibres stand at several PCs has each of them as its PC. -/
def binHot (s : State) (core : Nat) (b : Bin) : Bool :=
  let gs := gangsOn s core
  gs.any fun g => g.ctx = b.key.ctx && (slotOffset gs g.slot (widthOf b.key.wcode)).isSome
    && g.fibres.any fun f => notEnded f && f.pc = b.key.entry

/-- R185: the class of a bin, with a free choice of whether its entry hits in the instruction cache. -/
def binClass (s : State) (core : Nat) (b : Bin) (icache : Bool) : Nat :=
  if binTimed s.clk b then 1 else if binHot s core b || icache then 2 else 3

/-- A bin may form a gang: it is full or its time is up, its launch lives, and room exists. -/
def binReady (s : State) (core : Nat) (b : Bin) : Option (Launch × Nat × Nat) :=
  if !(binTimed s.clk b || binFull b) || isVacated s core b.key.ctx then none
  else
    match launchOf s b.key.ctx b.key.ltag with
    | none => none
    | some l =>
      match roomFor s core b.key.ctx l 1 (widthOf b.key.wcode) 0 0 with
      | some ⟨(k, o) :: _, _, _⟩ => if spanRoom s b.key.ctx l (widthOf b.key.wcode) 1 then some (l, k, o) else none
      | _ => none

/-- The entry into the pool of a bin's oldest record. -/
def binAge (b : Bin) : Nat := ((b.recs.getLast?).map (·.ord)).getD 0

/-- R185: the better of two bins: class, then the older timer, then the oldest record. -/
def binBetter (a b : Nat × Bin) : Bool :=
  a.1 < b.1 || (a.1 = b.1 && (decide (a.2.start.toNat < b.2.start.toNat)
    || (a.2.start = b.2.start && decide (binAge a.2 ≤ binAge b.2))))

/-- The classes of the bins that may form a gang; each untimed bin draws one free choice. -/
def binChoices (core : Nat) (s : State) : List (Nat × Bin) × State :=
  ((coreOf s core).bins.filter fun b => (binReady s core b).isSome).foldl (fun acc b =>
    if binTimed s.clk b then (acc.1 ++ [(1, b)], acc.2)
    else
      let (hit, s') := freshCoin acc.2
      (acc.1 ++ [(binClass s core b hit, b)], s')) ([], s)

def bestBin (bs : List (Nat × Bin)) : Option Bin :=
  (bs.foldl (fun (best : Option (Nat × Bin)) b =>
    match best with
    | none => some b
    | some a => if binBetter a b then some a else some b) none).map (·.2)

/-- R185, R192: form a gang from the w most recent records; dominated records among them are discarded first, and
then no gang is formed yet. -/
def formFrom (core : Nat) (b : Bin) (s : State) : State :=
  let taken := b.recs.take (widthOf b.key.wcode)
  let bad := taken.filter (recDominated s core)
  let without (out : List Rec) (restart : Bool) : State :=
    rebin core (updCore core (fun c => { c with bins := c.bins.map fun a =>
      if a.key = b.key then { a with recs := a.recs.filter (fun r => !out.contains r)
                                     start := if restart then s.clk else a.start } else a }) s)
  if bad ≠ [] then without bad false
  else
    match binReady s core b with
    | some (l, k, o) => placeBinGang core b.key l taken k o (without taken true)
    | none => s

/-- R185: the timer of bin number `bin` has reached 512, and it is the bin chosen. -/
def execBinTimerExpiry (core bin : Nat) (s : State) : Outc :=
  match (coreOf s core).bins[bin]? with
  | none => .fault .notEnabled
  | some b =>
    let timed := (coreOf s core).bins.filter fun a => binTimed s.clk a && (binReady s core a).isSome
    if bestBin (timed.map fun a => (1, a)) = some b then .next (formFrom core b s) else .fault .notEnabled

/-- R185: with no bin's timer at 512, the puppeteer forms a gang from a full bin. -/
def execSpawnGangPlacement (core : Nat) (s : State) : Outc :=
  let r := binChoices core s
  match bestBin r.1 with
  | some b => if r.1.any fun a => a.1 = 1 then .fault .notEnabled else .next (formFrom core b r.2)
  | none => .fault .notEnabled

def inPartition (s : State) (ctx core : Nat) : Bool := ((look ctx s.ctxs).map fun c => c.partition.getLsbD (clusterOf core)).getD false

/-- R189, R320, R398: the record at the head of a core's segment returns while the pool holds fewer than 2,048; the
segment of a vacated core serves every core of the context that is not vacated itself. -/
def execOverflowReturn (core ctx seg : Nat) (s : State) : Outc :=
  match segOf s ctx seg with
  | none => .fault .notEnabled
  | some g =>
    match g.recs with
    | [] => .fault .notEnabled
    | r :: rs =>
      if (seg ≠ core ∧ !(isVacated s seg ctx && inPartition s ctx core)) ∨ isVacated s core ctx ∨ !islandUp s (clusterOf core)
          ∨ 2048 ≤ poolRecords (coreOf s core) then .fault .notEnabled
      else
        let s := updSeg ctx seg (fun g => { g with recs := rs, head := (g.head + 1) % g.cap }) s
        .next (if recDominated s core r then s else enterPool core r s)

/-! ## Stealing -/

/-- R188. -/
def stealAdvance (x : BitVec 16) : BitVec 16 :=
  let x := x ^^^ (x <<< 7)
  let x := x ^^^ (x >>> 9)
  x ^^^ (x <<< 8)

/-- R188: a local victim: advance again while the core names itself. -/
def localVictim (core : Nat) : Nat → BitVec 16 → BitVec 16
  | 0, x => x
  | n + 1, x =>
    let y := stealAdvance x
    if y.toNat % 32 = core % 32 then localVictim core n y else y

def poolHas (c : Core) (ctx : Nat) : Bool := (c.bins.any fun b => b.key.ctx = ctx) || c.unbinned.any fun r => r.ctx = ctx

/-- R188: the core is idle for the context. DESIGN CHOICE (assumption 80): a core that is vacated of the context is not. -/
def stealIdle (s : State) (core ctx : Nat) : Bool :=
  let gs := gangsOn s core
  inPartition s ctx core && !poolHas (coreOf s core) ctx && !isVacated s core ctx &&
    (List.range 16).any fun k =>
      let here := gs.filter fun g => g.slot = k
      here.isEmpty || (here.all (fun g => g.ctx = ctx) && decide (here.length < 8) && (slotOffset gs k 8).isSome)

def stealReady (s : State) (core ctx : Nat) : Bool :=
  let c := coreOf s core
  stealIdle s core ctx && islandUp s (clusterOf core) && !c.steal.pending && decide (c.steal.next.toNat ≤ s.clk.toNat) && decide (poolCount c + 8 ≤ 4096)

/-- R188: an idle core asks a victim for records. -/
def execStealRequest (core ctx : Nat) (s : State) : Outc :=
  if !stealReady s core ctx then .fault .notEnabled
  else
    let st := (coreOf s core).steal
    let (x, victim) :=
      if 4 ≤ st.refusals then
        let x1 := stealAdvance st.x
        let x2 := stealAdvance x1
        (x2, (clusterOf core + 1 + x1.toNat % 47) % 48 * 32 + x2.toNat % 32)
      else
        let x := localVictim core 65536 st.x
        (x, clusterOf core * 32 + x.toNat % 32)
    let (id, s) := freshId s
    .next (updCore core (fun c => { c with steal := { c.steal with x := x, pending := true, reserved := 8 } })
      { s with steals := ins id (.request core victim ctx) s.steals })

/-- R188: the oldest record of a context in a pool: in a bin, or unbinned. -/
def oldestRec (c : Core) (ctx : Nat) : Option (Nat × Option BinKey) :=
  let fromBins := (c.bins.filter fun b => b.key.ctx = ctx).map fun b => (binAge b, some b.key)
  let fromQueue := ((c.unbinned.find? fun r => r.ctx = ctx).map fun r => (r.ord, (none : Option BinKey))).toList
  (fromBins ++ fromQueue).foldl (fun best x =>
    match best with
    | none => some x
    | some b => if x.1 < b.1 then some x else best) none

/-- R188: the records the victim sends, oldest first. -/
def stolenFrom (c : Core) (ctx : Nat) : List Rec :=
  match oldestRec c ctx with
  | none => []
  | some (_, some k) => ((c.bins.find? fun b => b.key = k).map fun b => b.recs.reverse.take 8).getD []
  | some (_, none) => (c.unbinned.filter fun r => r.ctx = ctx).take 8

/-- R411, R417: a thief's message reaches its victim, and the answer the thief. -/
def stealUp (s : State) (thief victim : Nat) : Bool :=
  sendUp s (dieOf thief) (dieOf victim) && sendUp s (dieOf victim) (dieOf thief) && islandUp s (clusterOf victim)

/-- R188: the victim's answer. -/
def execStealReply (id : Nat) (s : State) : Outc :=
  match look id s.steals with
  | some (.request thief victim ctx) =>
    if !stealUp s thief victim then .fault .notEnabled
    else
    let s := purgePool victim s
    match stolenFrom (coreOf s victim) ctx with
    | [] => .next { s with steals := ins id (.refusal thief) s.steals }
    | rs =>
      let keep (r : Rec) : Bool := !rs.contains r
      let s := updCore victim (fun c =>
        { c with bins := c.bins.map (fun b => { b with recs := b.recs.filter keep }), unbinned := c.unbinned.filter keep }) s
      .next (rebin victim { s with steals := ins id (.records thief rs) s.steals })
  | _ => .fault .notEnabled

/-- R188: a refusal arrives: it counts, and the next request leaves 32 cycles later. -/
def execStealRefusalArrival (id : Nat) (s : State) : Outc :=
  match look id s.steals with
  | some (.refusal thief) =>
    if !islandUp s (clusterOf thief) then .fault .notEnabled
    else .next (updCore thief (fun c => { c with steal := { c.steal with
      pending := false, reserved := 0, refusals := c.steal.refusals + 1, next := s.clk + 32 } })
      { s with steals := del id s.steals })
  | _ => .fault .notEnabled

/-- R188, R320, R398: stolen records enter the thief's pool, oldest first; a dominated one is discarded, and those of a context that
the thief has been vacated of go to its segment. -/
def execStolenRecordsArrival (id : Nat) (s : State) : Outc :=
  match look id s.steals with
  | some (.records thief rs) =>
    if !islandUp s (clusterOf thief) then .fault .notEnabled
    else
    let s := updCore thief (fun c => { c with steal := { c.steal with pending := false, reserved := 0, refusals := 0 } })
      { s with steals := del id s.steals }
    .next (spillVacated thief (rs.foldl (fun s r => if recDominated s thief r then s else enterPool thief r s) s))
  | _ => .fault .notEnabled

/-! ## Incumbents -/

def updHome (ctx k : Nat) (i : Inc) (s : State) : State := updCtx ctx (fun c => { c with incs := ins k i c.incs }) s

/-- R191: a change at the home goes out to every core, with its commit time. -/
def broadcast (ctx k : Nat) (i : Inc) (init : Bool) (s : State) : State :=
  let (id, s) := freshId s
  { s with bcasts := ins id ⟨ctx, k, i, init, s.clk, []⟩ s.bcasts }

/-- R191: one update at the home: the old key, and the state after. -/
def commitKey (ctx k : Nat) (key : Dword) (s : State) : Dword × State :=
  let i := homeInc s ctx k
  let best := incBest i i.key key
  if best = i.key then (i.key, s)
  else (i.key, broadcast ctx k { i with key := best } false (updHome ctx k { i with key := best } s))

/-- Send a message to a hub. -/
def toHub (core ctx k : Nat) (act : IncAct) (op : Option Nat) (s : State) : State :=
  let (id, s) := freshId s
  { s with incMsgs := s.incMsgs ++ [⟨id, core, ctx, k, act, op⟩] }

/-- R210: an `incu` counts where it has a destination. -/
def incuCtr (d : Opnd) : CtrKind := match d with | .p _ => .none | _ => .ld

/-- R210: the fibres' updates leave for the home, in ascending lane order. -/
def execIncu (h : Hd) (rel : Bool) (d a : Opnd) (k : Fin 512) (s : State) : Outc :=
  let silent := match d with | .p _ => true | _ => false
  issue (.incu h rel d a k) h (incuCtr d) (fun x s => if rel then relGate .dev x s else none) (fun x s =>
    let keys := gather x fun f => rd x.g h.ext (rdTy .i64) f a
    if keys = [] then s
    else if silent then toHub x.g.core x.g.ctx k (.update keys) none s
    else
      let (id, s) := freshId s
      let o := { newOp x id .ld (some (d, .raw64)) (keys.map fun v => ⟨v.1, []⟩) with left := 1, logv := true }
      toHub x.g.core x.g.ctx k (.update keys) (some id) (startOp o false s)) s

/-- R190: the hub takes one core's messages about an incumbent in the order they left; R411, R417: the ways there and back deliver. -/
def incReady (s : State) (m : IncMsg) : Bool :=
  sendUp s (dieOf m.core) (m.k % 4) && (m.op.isNone || sendUp s (m.k % 4) (dieOf m.core)) &&
  s.incMsgs.all fun n => !((n.core = m.core && n.ctx = m.ctx && n.k = m.k)
    || (dieOf n.core = dieOf m.core && n.k % 4 = m.k % 4 && decide (dieOf m.core ≠ m.k % 4))) || decide (m.id ≤ n.id)

/-- A reply brings its values to the operation that awaits it. -/
def incReply (op : Option Nat) (vals : List (Nat × Dword)) (s : State) : State :=
  match op with
  | none => s
  | some i => finishOp i (updOp i (fun o => { o with vals := vals, left := o.left - 1 }) s)

/-- R191, R210, R211: the home hub acts on a message. -/
def execIncumbentCommit (msg : Nat) (s : State) : Outc :=
  match s.incMsgs.find? fun m => m.id = msg with
  | none => .fault .notEnabled
  | some m =>
    if !incReady s m then .fault .notEnabled
    else
      let s := { s with incMsgs := s.incMsgs.filter fun n => n.id ≠ msg }
      match m.act with
      | .read ls => .next (incReply m.op (ls.map fun l => (l, (homeInc s m.ctx m.k).key)) s)
      | .update keys =>
        let r := keys.foldl (fun (acc : List (Nat × Dword) × State) v =>
          let c := commitKey m.ctx m.k v.2 acc.2
          (acc.1 ++ [(v.1, c.1)], c.2)) ([], s)
        .next (incReply m.op r.1 r.2)

/-- R191: a core merges a broadcast into its copy; an initialising write replaces it. -/
def mergeInc (b : Bcast) (copy : Inc) : Inc :=
  if b.init then b.inc else { copy with key := incBest copy copy.key b.inc.key }

/-- The device's cores. -/
def coreCount : Nat := 1536

/-- R191, R192: a broadcast reaches a core: the copy merges, and the guard tests fibres and records. -/
def arriveBcast (core id : Nat) (b : Bcast) (s : State) : State :=
  let got := core :: b.got
  let s := { s with bcasts := if got.length = coreCount then del id s.bcasts else adj id (fun b => { b with got := got }) s.bcasts }
  let copy := mergeInc b (coreInc s core b.ctx b.k)
  purgePool core (guardCore core (updCore core (fun c => { c with incs := ins (16 * b.ctx + b.k) copy c.incs }) s))

/-- R413: the broadcasts of one hub reach a core in commit order; R411, R417: the way delivers. -/
def bcastReady (s : State) (core id : Nat) (b : Bcast) : Bool :=
  core < coreCount && !b.got.contains core && sendUp s (b.k % 4) (dieOf core) &&
    s.bcasts.all fun o => id ≤ o.1 || o.2.k % 4 ≠ b.k % 4 || o.2.got.contains core

def execIncumbentBroadcastArrival (core bcast : Nat) (s : State) : Outc :=
  match look bcast s.bcasts with
  | none => .fault .notEnabled
  | some b => if bcastReady s core bcast b then .next (arriveBcast core bcast b s) else .fault .notEnabled

/-- R433: an update that another module has forwarded. -/
def execSystemIncumbentForward (ctx k : Nat) (key : Dword) (s : State) : Outc :=
  match look ctx s.ctxs with
  | none => .fault .notEnabled
  | some c => if k < 16 ∧ c.system.getLsbD k then .next (commitKey ctx k key s).2 else .fault .notEnabled

/-- R211: the core's copy, at issue. -/
def execIncrd (h : Hd) (d : Opnd) (k : Fin 512) (s : State) : Outc :=
  issue (.incrd h d k) h .none noGate (fun x s =>
    let v := (coreInc s x.g.core x.g.ctx k).key
    perLane x (fun _ f => wr 64 d v (.ok f)) ((lanesOf x.act).foldl (fun s i => logValue x.k i v s) s)) s

/-- R211: the home key. -/
def execIncrdHome (h : Hd) (acq : Bool) (d : Opnd) (k : Fin 512) (s : State) : Outc :=
  issue (.incrdHome h acq d k) h .ld noGate (gangOnce fun x s =>
    let (id, s) := freshId s
    let o := { newOp x id .ld (some (d, .raw64)) ((lanesOf x.act).map fun i => ⟨i, []⟩) with
      left := 1, acq := if acq then some .dev else none, logv := true }
    toHub x.g.core x.g.ctx k (.read (lanesOf x.act)) (some id) (startOp o acq s)) s

/-- R212. -/
def execBnd (h : Hd) (a : Opnd) (k : Fin 512) (s : State) : Outc :=
  issue (.bnd h a k) h .none noGate (fun x => perLane x fun _ f =>
    .ok { f with bound := rd x.g h.ext (rdTy .i64) f a, incsel := BitVec.ofNat 4 k }) s

/-- R213: open a window of n issues, unless one is open; the opening `defer` is not counted. -/
def execDefer (h : Hd) (n : Fin 512) (s : State) : Outc :=
  issue (.defer h n) h .none noGate (fun x => perLane x fun i f =>
    let open' := ((look x.k s.gangs).bind fun g => fibreAt g i).any fun f => f.defer ≠ 0
    .ok (if open' then f else { f with defer := n })) s

end Sys2Proof.Machine
end

