-- ==== Sys2Proof/Machine/Restore.lean ====
section
/-! DEFINITION. Saved crews and their return to a core (21 R397, R398, R401 to R406). -/

namespace Sys2Proof.Machine

/-- R178, R187: the clusters a launch may use. -/
def permitted (c : Ctx) (l : Launch) (core : Nat) : Bool :=
  c.partition.getLsbD (clusterOf core) && (decide (l.pkt.clmask = 0) || l.pkt.clmask.getLsbD (clusterOf core))

/-- The gangs of a crew, in the order of their numbers. -/
def crewGangs (s : State) (ck : Nat) : List (Nat × Gang) := s.gangs.filter fun g => g.2.crew = ck

/-! ## The engine's state -/

/-- R346: an engine as a new holder finds it. -/
def freshEngine (ctx : Nat) : Matrix := { Matrix.reset with owner := some ctx }

/-- R402: a context has engine state on a core, in place or scanned out. -/
def engineState (s : State) (core ctx : Nat) : Bool :=
  let c := coreOf s core
  (decide (c.mx.owner = some ctx) && decide (c.mx ≠ freshEngine ctx)) || c.mxSaved.any fun m => m.owner = some ctx

/-- R404: the engine passes to a context, with the state that was scanned out for it; the state there is scanned out. -/
def giveEngine (core ctx : Nat) (s : State) : State :=
  updCore core (fun c =>
    if c.mx.owner = some ctx then c
    else
      { c with mx := (c.mxSaved.find? fun m => m.owner = some ctx).getD (freshEngine ctx)
               mxSaved := (if c.mx.owner.isSome then [c.mx] else []) ++ c.mxSaved.filter fun m => m.owner ≠ some ctx }) s

/-- R404: the engine can pass to the context: none of its present holder's gangs is resident. -/
def engineFree (s : State) (core ctx : Nat) : Bool :=
  (coreOf s core).mx.owner = some ctx || (gangsOn s core).all fun g => (coreOf s core).mx.owner ≠ some g.ctx

/-! ## Room -/

/-- R404: the claims that take all that a crew with some gangs and a region keeps in a core. -/
def allClaims (gs : List Nat) (base size : Nat) : List Claim :=
  gs.flatMap (fun k => [.rows k, .wide k, .prop k]) ++ [.scratch base size]

/-- The core without what a saved crew still keeps in place. -/
def asScanned (ck : Nat) (s : State) : State :=
  updCrew ck (fun c => { c with scanned := allClaims c.gangs c.base c.size }) s

/-- R405: the crew returns to the core it left: an ensemble, a holder of a collective group. -/
def bound (s : State) (ck : Nat) (c : Crew) : Bool := c.ens.isSome || !(crewGroups s ck).isEmpty

/-- R402: the engine state of a context on a core, in place or scanned out. -/
def engineOf (s : State) (core ctx : Nat) : Matrix :=
  let c := coreOf s core
  (if c.mx.owner = some ctx then some c.mx else c.mxSaved.find? fun m => m.owner = some ctx).getD (freshEngine ctx)

/-- Other crews of the context stand on the core that a crew left, and share its engine state. -/
def engineShared (s : State) (ck : Nat) (c : Crew) : Bool := s.crews.any fun d => d.1 ≠ ck && d.2.core = c.core && d.2.ctx = c.ctx

/-- R402: the engine state that goes with a crew: tiles and weight buffer, and of the operations, where others stay behind, its own. -/
def engineWith (s : State) (ck : Nat) (c : Crew) : Matrix :=
  let m := engineOf s c.core c.ctx
  if engineShared s ck c then
    { m with latch := m.latch.filter fun r => r.crew = ck, queue := m.queue.filter fun o => o.crew = ck } else m

/-- R402: and what stays. -/
def engineLeft (s : State) (ck : Nat) (c : Crew) : Matrix :=
  let m := engineOf s c.core c.ctx
  if engineShared s ck c then
    { m with latch := m.latch.filter fun r => r.crew ≠ ck, queue := m.queue.filter fun o => o.crew ≠ ck } else freshEngine c.ctx

/-- The tile that an operation uses. -/
def tileOf (o : MxOp) : Option Nat :=
  match o.kind with
  | .mma c _ => some c.tile
  | .move m => some m.tile
  | .wbload .. => none

/-- Of two lists of contents, in parts of n keys: a part stands in one of them alone, or in both alike. -/
def partsApart {α : Type} [DecidableEq α] (n : Nat) (a b : AMap α) : Bool :=
  let part (m : AMap α) (i : Nat) : AMap α := m.filter fun x => x.1 / n = i
  (distinct (a.map fun x => x.1 / n)).all fun i => part b i = [] || part a i = part b i

/-- R402, R405, R406: two engine states can stand in one engine: they hold no tile, sector of the weight buffer or block in
different ways (assumption 42). -/
def engineJoins (a b : Matrix) : Bool :=
  partsApart 6144 a.tiles b.tiles && partsApart 64 a.wbuf b.wbuf && partsApart 1 a.wdesc b.wdesc
    && a.queue.all fun o => b.queue.all fun p => (tileOf o).isNone || tileOf o ≠ tileOf p

/-- R361: the operands of an operation stand `n` further on in the record of the weight buffer's stores, and `k` in that of the
scratchpad's (R288). -/
def shiftMarks (n k : Nat) (o : MxOp) : MxOp :=
  { o with kind := match o.kind with
      | .mma c x => .mma c { x with wmark := x.wmark + n, marks := x.marks.map (· + k) }
      | m => m }

/-- R402: the engine state of a crew, `b`, comes to one of its context, `a`. -/
def joinEngine (k : Nat) (a b : Matrix) : Matrix :=
  { owner := a.owner
    tiles := b.tiles.foldl (fun m x => ins x.1 x.2 m) a.tiles
    wbuf := b.wbuf.foldl (fun m x => ins x.1 x.2 m) a.wbuf
    wdesc := b.wdesc.foldl (fun m x => ins x.1 x.2 m) a.wdesc
    wlog := a.wlog ++ b.wlog, latch := a.latch ++ b.latch, queue := a.queue ++ b.queue.map (shiftMarks a.wlog.length k)
    last := a.last ++ b.last }

/-- R402: the region returns to its own offset; none where that range is taken. -/
def returnBase (v : State) (core : Nat) (c : Crew) : Option Nat :=
  if (regionsOn v core).all fun t => c.base + c.size ≤ t.1 || t.1 + t.2 ≤ c.base then some c.base else none

/-- R405: the engine of a core can take the context's state, in place there or brought from the core that the crew left (assumption
42). -/
def engineFits (s : State) (ck : Nat) (c : Crew) (core : Nat) : Bool :=
  !engineState s c.core c.ctx || (engineFree s core c.ctx && (core = c.core || engineJoins (engineOf s core c.ctx) (engineWith s ck c)))

/-- R405, R186: the places of a saved crew's gangs on a core, and its region; none where there is no room. -/
def restoreRoom (s : State) (ck : Nat) (c : Crew) (l : Launch) (core : Nat) : Option Room :=
  let gs := crewGangs s ck
  let w := ((gs.head?).map (·.2.width)).getD 8
  let v := asScanned ck s
  let slotsOk := core = c.core || ((coreOf s c.core).subs.filter fun u => u.2.crew = ck).all fun u =>
    (look u.1 (coreOf s core).subs).isNone
  let lanes := gs.length * w
  if (gs.map fun g => gangClaim s g.2).sum ≤ regsFree v core ∧ !racqReady s core ∧ slotsOk
      ∧ (!l.hd.wide ∨ laneSlots v core .wide (·.wide) + lanes ≤ 512)
      ∧ (!l.hd.prop ∨ laneSlots v core .prop (·.prop) + lanes ≤ 512)
      ∧ engineFits s ck c core
  then
    match placeSlots c.ctx w gs.length (gangsOn v core) (Gang.start 0 0 0 0 0 0 0), returnBase v core c,
        barrierFit v core c.bars.length with
    | some sl, some b, some bs => some ⟨sl, b, bs⟩
    | _, _, _ => none
  else none

/-! ## The return -/

/-- R404, R405: the crew's scratch bytes and descriptors come to the same offset of a core. -/
def scanIn (c : Crew) (core : Nat) (s : State) : State :=
  let left := regionLeft c
  let stays (k : Nat) : Bool := left.any fun r => r.1 ≤ k && k < r.1 + r.2
  let old := coreOf s c.core
  let bytes := old.spad.filter (fun x => stays x.1) ++ c.moved
  let descs := old.spadDesc.filter (fun x => stays (64 * x.1)) ++ c.movedDesc
  let s := updCore c.core (fun o => { o with spad := o.spad.filter (fun x => !stays x.1)
                                             spadDesc := o.spadDesc.filter (fun x => !stays (64 * x.1)) }) s
  let here (k : Nat) : Bool := decide (c.base ≤ k) && decide (k < c.base + c.size)
  updCore core (fun o =>
    { o with spad := bytes.foldl (fun m x => put 0 x.1 x.2 m) (o.spad.filter fun x => !here x.1)
             spadDesc := descs.foldl (fun m x => put resetDesc x.1 x.2 m) (o.spadDesc.filter fun x => !here (64 * x.1)) }) s

/-- R402: live subscriptions come with their crew. -/
def moveSubs (ck old core : Nat) (s : State) : State :=
  let mine := (coreOf s old).subs.filter fun u => u.2.crew = ck
  let s := updCore old (fun c => { c with subs := c.subs.filter fun u => u.2.crew ≠ ck }) s
  updCore core (fun c => { c with subs := mine.foldl (fun m u => ins u.1 u.2 m) c.subs }) s

/-- R402, R405: the engine state of a crew, as the core had it that it left, comes to another core; `k` is the length of that core's
record of scratch stores. -/
def moveEngine (ck : Nat) (c : Crew) (core k : Nat) (s : State) : State :=
  let img := engineWith s ck c
  let rest := engineLeft s ck c
  let s := updCore c.core (fun o =>
    { o with mx := if o.mx.owner = some c.ctx then rest else o.mx
             mxSaved := (o.mxSaved.map fun m => if m.owner = some c.ctx then rest else m).filter fun m => m ≠ freshEngine c.ctx }) s
  updCore core (fun o => { o with mx := joinEngine k o.mx img }) (giveEngine core c.ctx s)

/-- R288, R402: with a crew goes the record of the stores to its region, behind that of its new core: the gangs' `mopf`s stand that
much further on. -/
def moveLog (ck : Nat) (c : Crew) (core : Nat) (s : State) : State :=
  let n := (coreOf s core).spadLog.length
  let here (a : Nat) : Bool := decide (c.base ≤ a) && decide (a < c.base + c.size)
  let mine := (coreOf s c.core).spadLog.map fun w => (⟨w.bytes.filter fun b => here b.1, w.descs.filter fun d => here (64 * d.1)⟩ : Stored)
  let s := updCore core (fun o => { o with spadLog := o.spadLog ++ mine }) s
  { s with gangs := s.gangs.map fun g => (g.1, if g.2.crew = ck then { g.2 with opMark := g.2.opMark + n } else g.2) }

/-- R405, R446: a gang takes its place, and a new replay interval opens. -/
def returnGang (core : Nat) (place : Nat × Nat) (g : Gang) : Gang :=
  { g with core := core, slot := place.1, off := place.2, stop := .running, interval := g.interval + 1
           intervalOrd := BitVec.allOnes 32, logged := [] }

/-- R171: a pending `racq` of a restored gang queues again. DESIGN CHOICE (assumption 78): it takes its place at the tail, and groups
that wait at one PC for one count are one request. -/
def racqAgain (k core : Nat) (s : State) : State :=
  match look k s.gangs with
  | none => s
  | some g =>
    let waits := g.fibres.filterMap fun f => match f.wait with
      | some ⟨.racq n, _, _⟩ => some (n, f.pc)
      | _ => none
    let groups := waits.foldl (fun (acc : List (Nat × Pc)) w => if acc.contains w then acc else acc ++ [w]) []
    groups.foldl (fun s w =>
      let m := lanesWhere (fun f => f.pc = w.2 && f.wait.any fun u => u.kind = .racq w.1) g
      updCore core (fun c => { c with racq := c.racq ++ [⟨k, m, w.1, w.2⟩] }) s) s

/-- R405, R367: the engine resumes every split operation of a context, of crews that are still saved too. -/
def resumeOps (core ctx : Nat) (s : State) : State :=
  updCore core (fun c => { c with mx := { c.mx with queue := c.mx.queue.map fun o =>
    match o.kind with
    | .mma b x => if o.ctx = ctx ∧ b.st = 1 then { o with kind := .mma { b with st := 0 } { x with started := true } } else o
    | _ => o } }) s

/-- R398: the request to vacate a core of a context is over. -/
def liftMark (core ctx : Nat) (s : State) : State :=
  resumeOps core ctx (updCore core (fun c => { c with vacated := c.vacated.filter fun v => v.1 ≠ ctx }) s)

/-- R405: a saved crew returns to a core, in the rule's order: scan-in, the engine, the acquires, the guard's test; none
where there is no room. -/
def restoreOne (ck core : Nat) (s : State) : Option State :=
  match look ck s.crews with
  | none => none
  | some c =>
    match launchOf s c.ctx c.ltag with
    | none => none
    | some l =>
      match restoreRoom s ck c l core with
      | none => none
      | some r =>
        let gs := crewGangs s ck
        let n := (coreOf s core).spadLog.length
        let s := moveSubs ck c.core core (scanIn c core s)
        let s := if core = c.core then s else moveLog ck c core s
        let s := if !engineState s c.core c.ctx then s
          else if core = c.core then giveEngine core c.ctx s else moveEngine ck c core n s
        let s := updCrew ck (fun c =>
          { c with core := core, barSlots := r.bars, saved := false, scanned := [], moved := [], movedDesc := [] }) s
        let s := (gs.zip r.slots).foldl (fun s g => updGang g.1.1 (returnGang core g.2) s) s
        let s := acquireAt core .dev (liftMark core c.ctx s)
        let s := gs.foldl (fun s g => racqAgain g.1 core s) s
        some (gs.foldl (fun s g => guardGang g.1 s) s)

/-- R398: a core that is not vacated brings no crew of the ensemble back to one that is. -/
def ensVacated (s : State) (e : Ensemble) (core ctx : Nat) : Bool :=
  !isVacated s core ctx && e.crews.any fun k => (look k s.crews).any fun d => isVacated s d.core ctx

/-- R397, R405: an ensemble returns as a whole, each crew to the core it left. -/
def restoreSet (s : State) (ck core : Nat) : Option State :=
  match look ck s.crews with
  | none => none
  | some c =>
    if !c.saved ∨ (core ≠ c.core ∧ bound s ck c) then none
    else
      match c.ens.bind fun e => look e s.ens with
      | none => restoreOne ck core s
      | some e =>
        if !ensVacated s e core c.ctx && e.crews.all fun k => (look k s.crews).any (·.saved) then e.crews.foldlM (fun s k =>
          match look k s.crews with
          | some d => restoreOne k d.core s
          | none => none) s
        else none

/-- R405: a crew returns only to a core of the launch's clusters. -/
def mayReturn (s : State) (ck core : Nat) : Bool :=
  match look ck s.crews with
  | none => false
  | some c =>
    match look c.ctx s.ctxs, launchOf s c.ctx c.ltag with
    | some x, some l => decide (core < coreCount) && islandUp s (clusterOf core) && permitted x l core && (restoreSet s ck core).isSome
    | _, _ => false

/-- R398: the saved crew of a launch that a core with room for one restores first: the lowest index. -/
def nextSaved (s : State) (ctx ltag core : Nat) : Option Nat :=
  let cs := s.crews.filter fun c => c.2.saved && c.2.ctx = ctx && c.2.ltag = ltag && mayReturn s c.1 core
  (cs.foldl (fun (best : Option (Nat × Crew)) c =>
    match best with
    | none => some c
    | some b => if c.2.index < b.2.index then some c else some b) none).map (·.1)

end Sys2Proof.Machine
end

