-- ==== Sys2Proof/Machine/Launching.lean ====
section
/-! DEFINITION. Launch packets, their acceptance, the dispatch of crews, completion, and `launch` and `signal`
(09 R176 to R187, 10 R214, R215, 14 R285, R286, 17 R332, R333). -/

namespace Sys2Proof.Machine

/-- Bits hi … lo of a number. -/
def field (n lo width : Nat) : Nat := n / 2 ^ lo % 2 ^ width

/-! ## Packets and headers -/

/-- R177. -/
def readPacket (n : Nat) : Packet :=
  { hdr := num64 (field n 0 64), text := num64 (field n 64 64), arg := num64 (field n 128 64)
    seed := num64 (field n 192 64), gx := field n 256 32, gy := field n 288 32, gz := field n 320 32
    priv := field n 352 32, clmask := BitVec.ofNat 48 (field n 384 48), ens := field n 432 8
    relscope := field n 440 3, replay := n.testBit 443, bound := num64 (field n 448 64)
    incsel := BitVec.ofNat 4 (field n 512 4), incmask := BitVec.ofNat 16 (field n 544 16)
    inctab := num64 (field n 576 64), sigaddr := num64 (field n 640 64), sigval := num64 (field n 704 64)
    data := num64 (field n 768 64)
    reserved := field n 444 4 ≠ 0 || field n 516 28 ≠ 0 || field n 560 16 ≠ 0 || field n 832 192 ≠ 0 }

/-- R176. -/
def readHeader (n : Nat) : Header :=
  { entry := num64 (field n 0 64), width := field n 64 16, cx := field n 80 16, cy := field n 96 16
    cz := field n 112 16, regs := field n 128 8, barriers := field n 136 8, wide := n.testBit 144
    prop := n.testBit 145, sym := n.testBit 146, roles := n.testBit 147, scratch := field n 160 32
    safemap := num64 (field n 192 64), symdesc := num64 (field n 256 64), roledesc := num64 (field n 320 64)
    reserved := field n 148 12 ≠ 0 || field n 384 128 ≠ 0 }

def crewSize (h : Header) : Nat := h.cx * h.cy * h.cz
/-- R151. -/
def gangCount (h : Header) : Nat := (crewSize h + h.width - 1) / h.width

/-- R178, R75: the header keeps the limits. -/
def headerOk (h : Header) : Bool :=
  !h.reserved && [8, 16, 32, 64].contains h.width && decide (0 < crewSize h) && decide (crewSize h ≤ 1024)
    && decide (gangCount h ≤ 16) && decide (1 ≤ h.regs) && decide (h.regs ≤ 4) && decide (h.barriers ≤ 32)
    && decide (h.scratch % 64 = 0) && decide (h.scratch ≤ 262144) && decide (h.entry.toNat % 4 = 0)
    && (!(h.wide || h.prop) || decide (gangCount h * h.width ≤ 512))

/-- R332: the role entries of a descriptor; none where the packet is rejected. -/
def readRoles (h : Header) (n : Nat) : Option (List RoleDef) :=
  let es := (List.range 3).map fun r => field n (128 * r) 128
  let used := es.takeWhile fun e => field e 74 2 ≠ 0
  let roles := used.map fun e =>
    (⟨field e 74 2, field e 72 2, field e 64 8, num64 (field e 0 64)⟩ : RoleDef)
  let kinds := roles.map (·.kind)
  if field n 384 128 ≠ 0 ∨ (es.drop used.length).any (· ≠ 0) ∨ used = [] ∨ (used.any fun e => field e 76 52 ≠ 0)
      ∨ (distinct kinds).length ≠ kinds.length ∨ (roles.any fun r => r.gangs = 0 || decide (16 < r.gangs))
      ∨ (roles.map (·.gangs)).sum ≠ gangCount h ∨ (roles.any fun r => r.entry.toNat % 4 ≠ 0)
  then none else some roles

/-- R178: bits 63:52 of an address are zero. -/
def inSpace (a : Dword) : Bool := a.toNat < 2 ^ 52

/-- The bytes of a structure the puppeteer reads, as a number; none where one of them has no address or cannot be read. -/
def fetchVirt (s : State) (ctx : Nat) (va : Dword) (n : Nat) : Option Nat := virtNat s ctx va.toNat n

/-- A page of a context passes a translation with a need. -/
def pageOk (s : State) (ctx : Nat) (need : Need) (va : Nat) : Bool :=
  match reach s ctx need va with | .pa _ => true | _ => false

/-- R178: the packet's own fields. -/
def packetOk (s : State) (ctx : Nat) (c : Ctx) (p : Packet) : Bool :=
  !p.reserved && decide (p.hdr.toNat % 64 = 0) && decide (p.text.toNat % 32 = 0) && decide (p.data.toNat % 4096 = 0)
    && decide (p.inctab.toNat % 16 = 0) && decide (p.sigaddr.toNat % 8 = 0)
    && inSpace p.hdr && inSpace p.text && inSpace p.data && inSpace p.inctab && inSpace p.sigaddr && inSpace p.arg
    && (p.sigaddr = 0 || pageOk s ctx needW p.sigaddr.toNat)
    && decide (0 < p.gx * p.gy * p.gz) && decide (p.gx * p.gy * p.gz ≤ 2 ^ 32 - 2)
    && decide (4 ≤ p.relscope) && decide (p.relscope ≤ 6) && decide (p.ens ≠ 1) && decide (p.ens ≤ 32)
    && (c.partition &&& (if p.clmask = 0 then BitVec.allOnes 48 else p.clmask)) ≠ 0
    && decide (p.priv % 4 = 0) && decide (p.priv ≤ 65536) && (!p.replay || c.log.isSome)

/-- R179: one INCTAB entry; none with a reserved bit set, or where it has no address or cannot be read. -/
def readInc (s : State) (ctx : Nat) (p : Packet) (k : Nat) : Option (Nat × Inc) :=
  match fetchVirt s ctx (p.inctab + num64 (16 * k)) 16 with
  | none => none
  | some n => if field n 66 62 ≠ 0 then none else some (k, ⟨num64 (field n 0 64), n.testBit 64, n.testBit 65⟩)

def readIncs (s : State) (ctx : Nat) (p : Packet) : Option (List (Nat × Inc)) :=
  ((List.range 16).filter fun k => p.incmask.getLsbD k).mapM (readInc s ctx p)

/-- R178, R332: the role descriptor of a header with ROLES. -/
def fetchRoles (s : State) (ctx : Nat) (p : Packet) (h : Header) : Option (List RoleDef) :=
  if !h.roles then some []
  else
    let a := p.data + h.roledesc
    if a.toNat % 16 ≠ 0 ∨ !inSpace a then none else (fetchVirt s ctx a 64).bind (readRoles h)

/-- R178, R222: the symmetry descriptor and the maps of a header with SYM; the area must be readable and writable. -/
def fetchSym (s : State) (ctx : Nat) (p : Packet) (h : Header) : Option (Option Sym) :=
  if !h.sym then some none
  else
    let a := p.data + h.symdesc
    if a.toNat % 8 ≠ 0 ∨ !inSpace a ∨ p.arg.toNat % 64 ≠ 0
        ∨ ((List.range 32).any fun i => !pageOk s ctx needRW (p.arg.toNat + 64 * i)) then none
    else
      match fetchVirt s ctx a 32, (List.range 4).mapM fun i => fetchVirt s ctx (p.arg + num64 (32 * i)) 32 with
      | some d, some maps => (readSym (p.gx, p.gy, p.gz) d maps).map some
      | _, _ => none

/-- R178: how many crews of a launch an empty core holds. -/
def crewsPerCore (h : Header) (roles : List RoleDef) : Nat :=
  let n := gangCount h
  let chunks := roles.foldl (fun m r => Nat.max m r.chunks) 0
  let bySlots := 16 * (64 / h.width) / n
  let byRegs := 131072 / (n * 64 * h.width * (1 + chunks))
  let byScratch := if h.scratch = 0 then 1024 else 262144 / h.scratch
  let byBars := if h.barriers = 0 then 1024 else 64 / h.barriers
  let byLanes := if h.wide || h.prop then 512 / (n * h.width) else 1024
  [byRegs, byScratch, byBars, byLanes].foldl Nat.min bySlots

/-- R181, R187, R223: the crews of a launch. -/
def crewTotal (p : Packet) (h : Header) (sym : Option Sym) : Nat :=
  match sym with
  | none => p.gx * p.gy * p.gz
  | some y => ((reps (p.gx, p.gy, p.gz) y).length + crewSize h - 1) / crewSize h

/-- What an accepted packet records. -/
structure Accepted where
  launch : Launch
  incs : List (Nat × Inc)
  deriving DecidableEq, Repr

/-- R178, R184, R423: read and check a packet of a context; none where it is rejected. -/
def checkPacket (s : State) (ctx : Nat) (p : Packet) : Option Accepted :=
  match look ctx s.ctxs with
  | none => none
  | some c =>
    if !c.ready ∨ !packetOk s ctx c p then none
    else
      match (fetchVirt s ctx p.hdr 64).map readHeader with
      | none => none
      | some h =>
        if !headerOk h then none
        else
          match fetchRoles s ctx p h, fetchSym s ctx p h, readIncs s ctx p with
          | some roles, some sym, some incs =>
            if p.ens ≠ 0 ∧ 32 * crewsPerCore h roles < p.ens then none
            else some ⟨{ uid := 0, after := none, pkt := p, hd := h, roles := roles, sym := sym, ticket := 0
                         ncrews := crewTotal p h sym, prev := none, byLaunch := false, queue := none, started := false }, incs⟩
          | _, _, _ => none

/-- R178: what the puppeteer reads of a packet's launch, as virtual ranges. -/
def launchReads (s : State) (ctx : Nat) (p : Packet) : List (Nat × Nat) :=
  let h := readHeader ((fetchVirt s ctx p.hdr 64).getD 0)
  [(p.hdr.toNat, 64)] ++ (if p.incmask = 0 then [] else [(p.inctab.toNat, 256)]) ++ (if p.sigaddr = 0 then [] else [(p.sigaddr.toNat, 8)])
    ++ (if h.roles then [((p.data + h.roledesc).toNat, 64)] else [])
    ++ if h.sym then [((p.data + h.symdesc).toNat, 32), (p.arg.toNat, 2048)] else []

/-- R411, R417: the lines of those reads. -/
def launchLines (s : State) (ctx : Nat) (p : Packet) : List Nat := (launchReads s ctx p).flatMap (rangeLines s ctx)

/-! ## Acceptance -/

/-- R184: the lowest free slot. -/
def freeSlot (c : Ctx) : Option Nat := (List.range 1024).find? fun k => (look k c.launches).isNone

/-- Write bytes at a virtual range, at their homes. -/
def writeVirt (ctx : Nat) (va : Nat) (bs : List Byte) (s : State) : State :=
  writeHome 8 ((bs.mapIdx fun i b => (va + i, b)).filterMap fun x =>
    match reach s ctx needW x.1 with
    | .pa a => some (a, x.2)
    | _ => none) s

/-- R179: an initialising write replaces the key at the home and goes out to every copy. -/
def initInc (ctx : Nat) (s : State) (x : Nat × Inc) : State := broadcast ctx x.1 x.2 true (updHome ctx x.1 x.2 s)

/-- R184, R179, R225: a launch takes a slot; its incumbents are initialised, and its symmetry area written. DESIGN CHOICE (assumption
82): they are initialised here also for a launch of a queue that waits for its predecessor (R180). -/
def acceptLaunch (ctx ltag : Nat) (a : Accepted) (byLaunch : Bool) (queue after : Option Nat) (s : State) : State :=
  let (uid, s) := freshId s
  let l := { a.launch with uid := uid, after := after, byLaunch := byLaunch, queue := queue }
  let s := updCtx ctx (fun c => { c with launches := ins ltag l c.launches }) s
  let s := a.incs.foldl (initInc ctx) s
  match l.sym with
  | none => s
  | some y => writeVirt ctx (l.pkt.arg.toNat + 0x80) (symArea (l.pkt.gx, l.pkt.gy, l.pkt.gz) y) s

/-! ## `launch` and `signal` -/

/-- R214: 64 launches made by the instruction may be outstanding. -/
def launchLimit (c : Ctx) : Bool := 64 ≤ (c.launches.filter fun l => l.2.byLaunch).length

/-- R214: submit one packet: the status, and the state after. -/
def submit (ctx : Nat) (p : Packet) (s : State) : Dword × State :=
  match checkPacket s ctx p, look ctx s.ctxs with
  | some a, some c =>
    if launchLimit c then (2, s)
    else
      match freeSlot c with
      | none => (3, s)
      | some k => (0, acceptLaunch ctx k a true none none s)
  | _, _ => (1, s)

/-- R195: A is a 64-bit value, whose immediate is read as i64. -/
def packetAccs (a : Opnd) (x : Iss) : List Acc := laneAccs x (fun f => rd x.g x.h.ext (rdTy .i64) f a) 128 128

/-- The packet of one active fibre, as memory holds it. -/
def packetOf (s : State) (x : Iss) (e : Acc) : Option Packet :=
  match check s x.g .glob needR e with
  | .ok ks => some (readPacket (leNat (ks.map (memByte s))))
  | _ => none

/-- R411, R417: a `launch` waits while its packets, or what the puppeteer reads for them, cannot be reached. -/
def launchGate (a : Opnd) (x : Iss) (s : State) : Option State :=
  let die := some (dieOf x.g.core)
  let mine := (packetAccs a x).flatMap fun e => match check s x.g .glob needR e with | .ok ks => distinct (ks.map lineOf) | _ => []
  let its := (packetAccs a x).flatMap fun e => ((packetOf s x e).map (launchLines s x.g.ctx)).getD []
  if linesUp s die mine && linesUp s none its then none else some (rouse none its (rouse die mine s))

/-- R214: the packet is read, checked and submitted once per active fibre, in ascending lane order; the statuses come back as a
load's value does. -/
def execLaunch (h : Hd) (d a : Opnd) (s : State) : Outc :=
  issue (.launch h d a) h .ld (bothGates (walkGate .glob needR (packetAccs a))
      (bothGates (launchGate a) (relOf .sync .dev .glob needR (packetAccs a)))) (fun x s =>
    let accs := packetAccs a x
    let parts := split s x.g .glob needR accs
    let s := raiseFaults x (faultsOf s x .glob needR accs) s
    let (id, s) := freshId s
    let r := parts.foldl (fun (acc : List (Nat × Dword) × State) p =>
      let r := submit x.g.ctx (readPacket (leNat (p.keys.map (memByte acc.2)))) acc.2
      (acc.1 ++ [(p.lane, r.1)], r.2)) ([], s)
    let o := { newOp x id .ld (some (d, .raw32)) parts with vals := r.1, logv := true }
    if parts = [] then startOp o false r.2
    else startOp { o with left := 1 } false { r.2 with statuses := id :: r.2.statuses }) s

def signalAccs (a : Opnd) (x : Iss) : List Acc := laneAccs x (fun f => rd x.g x.h.ext (rdTy .n64) f a) 8 8

/-- R215: a strong store with release. -/
def execSignal (h : Hd) (sc : Scope) (a b : Opnd) (s : State) : Outc :=
  issue (.signal h sc a b) h .st (bothGates (walkGate .glob needW (signalAccs a)) (relOf .sync sc .glob needW (signalAccs a))) (fun x s =>
    let parts := split s x.g .glob needW (signalAccs a x)
    let data (i : Nat) : List Byte := ((fibreAt x.g i).map fun f => leBytes 8 (rd x.g h.ext (rdTy .i64) f b).toNat).getD []
    let s := raiseFaults x (faultsOf s x .glob needW (signalAccs a x)) s
    let (id, s) := freshId s
    let r := storeBytes id x.g.core x.g.ctx (parts.flatMap fun p => p.keys.zip (data p.lane)) s
    startOp { newOp x id .st none parts with left := r.1, unit := 8 } false r.2) s

/-- R215: an atomic add with release, which returns nothing. -/
def execSignalAdd (h : Hd) (sc : Scope) (a b : Opnd) (s : State) : Outc :=
  issue (.signalAdd h sc a b) h .st (bothGates (walkGate .glob needRW (signalAccs a)) (relOf .sync sc .glob needRW (signalAccs a))) (fun x s =>
    let parts := split s x.g .glob needRW (signalAccs a x)
    let s := raiseFaults x (faultsOf s x .glob needRW (signalAccs a x)) s
    let (id, s) := freshId s
    let as := parts.map fun p => (⟨p.lane, p.keys.headD 0, .n64, some .add,
      ((fibreAt x.g p.lane).map fun f => rd x.g h.ext (rdTy .i64) f b).getD 0, 0⟩ : AtomOp)
    let lines := distinct (as.map fun a => lineOf a.addr)
    startOp { newOp x id .st none parts with left := lines.length } false
      (lines.foldl (fun s l => atomLine id x.g.core x.g.ctx as l s) s)) s

/-! ## Dispatch -/

/-- R151, R182, R223, R224: the fibre in a lane of gang j of crew c. -/
def crewFibre (l : Launch) (pts : List Point) (c j lane : Nat) (entry : Pc) : Fibre :=
  let h := l.hd
  let f := j * h.width + lane
  let fid := num64 (c * crewSize h + f)
  let st := Fibre.start entry fid l.pkt.seed l.pkt.bound l.pkt.incsel
  if crewSize h ≤ f then Fibre.blank
  else
    match l.sym with
    | none =>
      { st with fidx := BitVec.ofNat 32 (f % h.cx), fidy := BitVec.ofNat 32 (f / h.cx % h.cy)
                fidz := BitVec.ofNat 32 (f / (h.cx * h.cy)) }
    | some _ =>
      match pts[c * crewSize h + f]? with
      | none => Fibre.blank
      | some p => { st with fidx := BitVec.ofNat 32 p.1, fidy := BitVec.ofNat 32 p.2.1, fidz := BitVec.ofNat 32 p.2.2
                            point := some p }

/-- R333: the role in which gang g starts. -/
def startRole (roles : List RoleDef) (g : Nat) : Option Nat :=
  (List.range roles.length).find? fun r => g < ((roles.take (r + 1)).map (·.gangs)).sum

/-- R223: the gangs formed for crew c. -/
def gangsFor (l : Launch) (pts : List Point) (c : Nat) : Nat :=
  match l.sym with
  | none => gangCount l.hd
  | some _ =>
    let left := pts.length - c * crewSize l.hd
    Nat.min (gangCount l.hd) ((left + l.hd.width - 1) / l.hd.width)

/-- R164: a crew's region is zero, and its descriptors reset, when the crew starts. -/
def clearRegion (core base size : Nat) (s : State) : State :=
  updCore core (fun c =>
    { c with spad := c.spad.filter fun x => !(decide (base ≤ x.1) && decide (x.1 < base + size))
             spadDesc := c.spadDesc.filter fun x => !(decide (base ≤ 64 * x.1) && decide (64 * x.1 < base + size)) }) s

/-- R17, R182, R333: make gang j of a crew. DESIGN CHOICE (assumption 81): where TEXT + ENTRY has bits above 47, the PC takes the low 48. -/
def placeGang (ctx ltag ck core : Nat) (l : Launch) (pts : List Point) (c j : Nat) (place : Nat × Nat) (s : State) :
    Nat × State :=
  let w := l.hd.width
  let (gk, s) := freshId s
  let (pb, s) := privSpan ctx l w s
  let role := startRole l.roles j
  let rd' := role.bind fun r => l.roles[r]?
  let entry := l.pkt.text + (rd'.map (·.entry)).getD l.hd.entry
  let g := { Gang.start ctx ltag ck j core w (num64 (c * gangCount l.hd + j)) with
    slot := place.1, off := place.2, pb := pb, s := put 0 0 l.pkt.arg []
    held := (rd'.map (·.chunks)).getD 0, role := role
    fibres := (List.range w).map fun i => crewFibre l pts c j i (entry.setWidth 48) }
  (gk, { s with gangs := ins gk g s.gangs })

/-- R163, R186: place crew c of a launch on a core that has room for it; the new crew's key. -/
def placeCrew (ctx ltag core : Nat) (l : Launch) (pts : List Point) (c : Nat) (ens : Option Nat) (s : State) :
    Option (Nat × State) :=
  let n := gangsFor l pts c
  match roomFor s core ctx l n l.hd.width l.hd.scratch l.hd.barriers with
  | none => none
  | some q =>
    if !spanRoom s ctx l l.hd.width n then none
    else
    let (ck, s) := freshId s
    let s := clearRegion core q.base l.hd.scratch s
    let r := (List.range n).foldl (fun (acc : List Nat × State) j =>
      let g := placeGang ctx ltag ck core l pts c j (q.slots.getD j (0, 0)) acc.2
      (acc.1 ++ [g.1], g.2)) ([], s)
    let crew : Crew :=
      { ctx := ctx, ltag := ltag, index := c, core := core, base := q.base, size := l.hd.scratch
        bars := List.replicate l.hd.barriers Barrier.idle, barSlots := q.bars, ngangs := n, ens := ens, spawned := false
        gangs := r.1, saved := false, scanned := [], moved := [], movedDesc := [] }
    some (ck, { r.2 with crews := ins ck crew r.2.crews })

/-- R187, R398: an ensemble's crews by first fit, core by core, on none that is being vacated of the context. -/
def placeEns (ctx ltag : Nat) (l : Launch) (pts : List Point) (cores : List Nat) (ek : Nat) :
    List Nat → State → Option (List Nat × State)
  | [], s => some ([], s)
  | c :: cs, s =>
    match (cores.filter fun core => !isVacated s core ctx).findSome? fun core => placeCrew ctx ltag core l pts c (some ek) s with
    | none => none
    | some (ck, s) => (placeEns ctx ltag l pts cores ek cs s).map fun r => (ck :: r.1, r.2)

/-- R187: the crews that the next ticket stands for. -/
def ticketCrews (l : Launch) : List Nat :=
  if l.pkt.ens = 0 then (if l.ticket < l.ncrews then [l.ticket] else [])
  else (List.range l.pkt.ens).filterMap fun i =>
    let c := l.pkt.ens * l.ticket + i
    if c < l.ncrews then some c else none

/-- R187: the cores of an ensemble's cluster, from the claiming core on. -/
def clusterFrom (core : Nat) : List Nat := (List.range 32).map fun i => clusterOf core * 32 + (core + i) % 32

/-- Place what the next ticket stands for; none when there is no room. -/
def placeTicket (ctx ltag core : Nat) (l : Launch) (s : State) : Option State :=
  let pts := match l.sym with | none => [] | some y => reps (l.pkt.gx, l.pkt.gy, l.pkt.gz) y
  match ticketCrews l with
  | [] => none
  | c :: cs =>
    if l.pkt.ens = 0 then (placeCrew ctx ltag core l pts c none s).map (·.2)
    else
      let (ek, s) := freshId s
      (placeEns ctx ltag l pts (clusterFrom core) ek (c :: cs) s).map fun r =>
        { r.2 with ens := ins ek ⟨Barrier.idle, r.1⟩ r.2.ens }

/-- R187, R398: this core could claim the next ticket now: no saved crew of the launch comes first. -/
def canClaim (s : State) (ctx ltag : Nat) (c : Ctx) (l : Launch) (core : Nat) : Bool :=
  decide (core < coreCount) && islandUp s (clusterOf core) && permitted c l core && !isVacated s core ctx
    && (nextSaved s ctx ltag core).isNone && (placeTicket ctx ltag core l s).isSome

/-- R187: the cores in the order of the rotation. -/
def rotation (l : Launch) : List Nat :=
  let start := match l.prev with | none => 0 | some p => p + 1
  (List.range coreCount).map fun i => (start + i) % coreCount

/-- R180: the launch that must complete first has completed. -/
def turnCome (c : Ctx) (l : Launch) : Bool :=
  match l.after with
  | none => true
  | some u => c.launches.all fun x => x.2.uid ≠ u

def uoCores (s : State) : List Nat := (s.cores.filter fun c => c.2.uo ≠ []).map (·.1)
def mergeAll (s : State) : State := (uoCores s).foldl (fun s c => mergeUo c (fun _ => true) s) s
def mergesOut (s : State) : Bool := s.reqs.any fun r => match r.act with | .merge _ => true | _ => false

/-- R285: every L1 and every RDC is emptied. -/
def boundary (s : State) : State :=
  let s := s.cores.foldl (fun s c => discardL1 c.1 (fun _ => true) s) s
  (List.range 4).foldl (fun s d => discardRdc d (fun _ => true) s) s

/-- R185 to R187, R285: a puppeteer claims the launch's next ticket. Before the first crew the update-only lines are
merged and the caches emptied: the step that finds lines to merge does that alone. -/
def execTicketClaim (ctx ltag core : Nat) (s : State) : Outc :=
  match look ctx s.ctxs with
  | none => .fault .notEnabled
  | some c =>
    match look ltag c.launches with
    | none => .fault .notEnabled
    | some l =>
      if !turnCome c l ∨ (rotation l).find? (canClaim s ctx ltag c l) ≠ some core then .fault .notEnabled
      else if !l.started ∧ uoCores s ≠ [] then .next (mergeAll s)
      else if !l.started ∧ mergesOut s then .fault .notEnabled
      else
        let s := if l.started then s else boundary s
        match placeTicket ctx ltag core l s with
        | none => .fault .notEnabled
        | some s => .next (updCtx ctx (fun c => { c with launches := adj ltag (fun l =>
            { l with ticket := l.ticket + 1, prev := some core, started := true }) c.launches }) s)

/-! ## Completion -/

def hasRec (ctx ltag : Nat) (rs : List Rec) : Bool := rs.any fun r => r.ctx = ctx && r.ltag = ltag

/-- R181: some record of the launch still waits. -/
def recsLeft (s : State) (ctx ltag : Nat) : Bool :=
  (s.cores.any fun c => (c.2.bins.any fun b => hasRec ctx ltag b.recs) || hasRec ctx ltag c.2.unbinned)
    || ((look ctx s.ctxs).map fun c => c.segs.any fun g => hasRec ctx ltag g.2.recs).getD false
    || s.steals.any fun m => match m.2 with | .records _ rs => hasRec ctx ltag rs | _ => false

/-- R181: every crew has been dispatched and has ended, and no record is left. -/
def launchDone (s : State) (ctx ltag : Nat) (l : Launch) : Bool :=
  (ticketCrews l).isEmpty && (s.crews.all fun c => c.2.ctx ≠ ctx || c.2.ltag ≠ ltag) && !recsLeft s ctx ltag

/-- R317: a store of a tile to memory that a gang of the context has left behind. -/
def tileOut (s : State) (ctx : Nat) (o : MxOp) : Bool :=
  o.ctx = ctx && !o.done && (look o.gang s.gangs).isNone && match o.kind with
    | .move m => !m.load && m.scratch.isNone
    | _ => false

/-- R286, R317: some write of a core is on its way, a copy of the context, or a tile of an ended gang of it to memory, in an engine or in
an engine's saved state; operations that are held for Zalner (R393) or by a vacated core (R398) are among them. -/
def writesOut (s : State) (ctx : Nat) : Bool :=
  s.reqs.any (fun r => isWrite r.act) || s.cores.any fun c =>
    (c.2.copies.any fun q => q.ctx = ctx && !q.done && !q.dropped) || (c.2.copyPend.any fun q => q.ctx = ctx)
      || (c.2.mx :: c.2.mxSaved).any fun m => m.queue.any (tileOut s ctx)

/-- R181: a launch's slot is freed, and its checkpoints go. -/
def endLaunch (ctx ltag : Nat) (s : State) : State :=
  updCtx ctx (fun c => { c with launches := del ltag c.launches })
    { s with ckpts := s.ckpts.filter fun i => i.2.gang.ctx ≠ ctx || i.2.gang.ltag ≠ ltag }

/-- R181, R286: the writes are made visible, SIGVAL is written, and the slot is freed. -/
def execLaunchCompletion (ctx ltag : Nat) (s : State) : Outc :=
  match launchOf s ctx ltag with
  | none => .fault .notEnabled
  | some l =>
    if !launchDone s ctx ltag l then .fault .notEnabled
    else if uoCores s ≠ [] then .next (mergeAll s)
    else if writesOut s ctx then .fault .notEnabled
    else if l.pkt.sigaddr = 0 then .next (endLaunch ctx ltag s)
    else
        comeUp none (rangeLines s ctx (l.pkt.sigaddr.toNat, 8)) (fun s =>
          match reach s ctx needW l.pkt.sigaddr.toNat with
          | .pa _ => .next (writeVirt ctx l.pkt.sigaddr.toNat (leBytes 8 l.pkt.sigval.toNat) (endLaunch ctx ltag s))
          | .bad c => .next { endLaunch ctx ltag s with reports := s.reports ++ [⟨none, ctx, c, l.pkt.sigaddr, []⟩] }
          | .miss => .fault .notEnabled) s

end Sys2Proof.Machine
end

