-- ==== Sys2Proof/Machine/Engines.lean ====
section
/-! DEFINITION. Copy engines, waits, roles, stage rings and stream controllers (17 R321 to R344). -/

namespace Sys2Proof.Machine

/-! ## Uniform operands -/

/-- R321: the value of a uniform operand. -/
def uniVal (x : Iss) (t : Ty) (o : Opnd) : Dword := rdUni x.g x.h.ext t o

/-- R323: translate a range page by page, 64 KiB at a time: where its bytes stand, or the first failure's cause and
byte address. -/
def pieces (va len : Nat) : List (Nat × Nat) :=
  if len = 0 then []
  else (List.range ((va + len - 1) / 65536 + 1 - va / 65536)).map fun i =>
    let lo := Nat.max va ((va / 65536 + i) * 65536)
    (lo, Nat.min (va + len) ((va / 65536 + i + 1) * 65536) - lo)

def findMoves (s : State) (ctx : Nat) (need : Need) (scratch : Nat) : List (Nat × Nat) → Except (Word × Dword) (List CopyMove)
  | [] => .ok []
  | (va, n) :: ps =>
    match reach s ctx need va with
    | .pa a => (match findMoves s ctx need (scratch + n) ps with
      | .ok ms => .ok (⟨va, a, scratch, n⟩ :: ms)
      | .error e => .error e)
    | .bad c => .error (c, num64 va)
    | .miss => .error (cause cXLATE, num64 va)

/-- R269, R439: the walks that an engine of a core starts to translate some pieces: up to the first that fails, for those that its
TLBs do not hold. -/
def countWalks (core ctx : Nat) (ps : List (Nat × Nat)) (r : Except (Word × Dword) (List CopyMove)) (s : State) : State :=
  let tried := match r with
    | .ok _ => ps
    | .error e => ps.filter fun p => decide (p.1 ≤ e.2.toNat)
  perfCount core ctx 9 (tried.filter fun p => !(tlbOf s core).any (TlbEnt.covers ctx p.1)).length s

/-! ## Acceptance -/

/-- R326: requests that the engine holds or is about to hold. -/
def engineLoad (c : Core) : Nat := (c.copies.filter fun r => !r.done && !r.dropped).length + c.copyPend.length

def pendOf (c : Core) (k : Nat) : Nat := (c.copyPend.filter fun p => p.gang = k).length

/-- R326: hold while the engine is full, or the gang's CPCNT would pass 31. -/
def engineGate (x : Iss) (s : State) : Option State :=
  let c := coreOf s x.g.core
  if x.act ≠ 0 ∧ (32 ≤ engineLoad c ∨ 31 ≤ x.g.cpcnt + pendOf c x.k) then some s else none

def spadRun (s : State) (core a n : Nat) : List Byte := findAll 0 a n (coreOf s core).spad
def memRun (s : State) (die pa n : Nat) : List Byte := (List.range n).map fun i => engineByte s die (pa + i)

def moveSrc (s : State) (core : Nat) (g2s : Bool) (m : CopyMove) : List Byte :=
  if g2s then memRun s (dieOf core) m.pa m.n else spadRun s core m.scratch m.n
def moveDst (s : State) (core : Nat) (g2s : Bool) (m : CopyMove) : List Byte := moveSrc s core (!g2s) m

/-- R325: the promise of a request of some bytes. -/
def promiseOf (clk prev : Dword) (bytes : Nat) : Dword :=
  num64 (Nat.max clk.toNat prev.toNat + 40 + (bytes + 63) / 64)

/-- R255, R287: the lines of global memory that some moves touch. -/
def moveLines (ms : List CopyMove) : List Nat :=
  distinct (ms.flatMap fun m => (List.range ((m.pa + m.n - 1) / 128 + 1 - m.pa / 128)).map fun i => m.pa / 128 + i)

/-- R325, R329: the engine accepts a request; what the core has reduced into its lines goes ahead of it (R255, R274), and a frozen
engine holds it (R393). -/
def acceptCopy (core gang ctx crew : Nat) (act : BitVec 64) (g2s desc gath : Bool) (moves : List CopyMove) (d : Opnd)
    (s : State) : State :=
  let p := promiseOf s.clk (coreOf s core).promise (moves.map (·.n)).sum
  let (id, s) := freshId (mergeUo core (moveLines moves).contains s)
  let r : CopyReq :=
    { id := id, gang := gang, ctx := ctx, crew := crew, act := act, g2s := g2s, desc := desc, moves := moves, gath := gath
      started := false, held := (coreOf s core).copyFrozen.contains ctx, src := [], part := [], hits := [], promise := p
      done := false, dropped := false }
  let s := updCore core (fun c => { c with copies := c.copies ++ [r], promise := p }) s
  gangScalar gang d p (updGang gang (fun g => { g with cpcnt := g.cpcnt + 1 }) s)

/-! ## `copy` -/

/-- R323: the checks that need no translation. -/
def copyCheck (s : State) (x : Iss) (g2s desc : Bool) (dst src : Dword) (len : Nat) : Option (Word × Dword) :=
  let va := if g2s then src else dst
  let sa := if g2s then dst else src
  let al := if desc then 64 else 4
  if len = 0 ∨ 262144 < len then some (cause cRANGE, num64 len)
  else if 2 ^ 52 ≤ va.toNat then some (cause cRANGE, va)
  else if scratchSize s x.g < sa.toNat + len then some (cause cRANGE, sa + num64 len)
  else if dst.toNat % al ≠ 0 then some (cause cMISALIGN, dst)
  else if src.toNat % al ≠ 0 then some (cause cMISALIGN, src)
  else if len % al ≠ 0 then some (cause cMISALIGN, num64 len)
  else none

/-- R323: the group waits while the engine translates the range. -/
def copyOp (g2s desc : Bool) (d a b c : Opnd) (x : Iss) (s : State) : State :=
  let dst := uniVal x .n64 a
  let src := uniVal x .n64 b
  let len := (uniVal x .n32 c).toNat
  match copyCheck s x g2s desc dst src len with
  | some f => faultAll x f.1 f.2 s
  | none =>
    let sa := if g2s then dst else src
    let p : CopyPend :=
      { gang := x.k, ctx := x.g.ctx, crew := x.g.crew, lanes := x.group, act := x.act, g2s := g2s, desc := desc
        scratch := scratchBase s x.g + sa.toNat, va := if g2s then src else dst, len := len, d := d }
    updCore x.g.core (fun o => { o with copyPend := o.copyPend ++ [p] }) (waitAt x x.group .copy s)

/-- R323. -/
def execCopyG2s (h : Hd) (desc : Bool) (d a b c : Opnd) (s : State) : Outc :=
  issue (.copyG2s h desc d a b c) h .cp engineGate (gangOnce (copyOp true desc d a b c)) s

/-- R323. -/
def execCopyS2g (h : Hd) (desc : Bool) (d a b c : Opnd) (s : State) : Outc :=
  issue (.copyS2g h desc d a b c) h .cp engineGate (gangOnce (copyOp false desc d a b c)) s

def isCopyWait (w : WaitKind) : Bool := w = .copy

/-- R323: a translation fault is raised at the `copy` itself, for every active fibre of the group. -/
def copyFault (lanes act : BitVec 64) (c : Word) (addr : Dword) (g : Gang) : Gang :=
  let bad := act &&& waiting isCopyWait g
  let recs := (lanesOf bad).filterMap fun i => (fibreAt g i).map fun f => (⟨i, c, addr, f.pc⟩ : TrapRec)
  let g := onLanes bad (fun _ f => { f with wait := none }) g
  endWaits isCopyWait (lanes &&& ~~~bad) { g with pend := g.pend ++ recs }

/-- The core that holds a `copy` of the gang not yet accepted, and the oldest such `copy`. -/
def oldestPend (s : State) (k : Nat) : Option (Nat × CopyPend) :=
  s.cores.findSome? fun c => (c.2.copyPend.find? fun p => p.gang = k).map fun p => (c.1, p)

/-- Without its first `copy` of gang k. -/
def dropPend (k : Nat) : List CopyPend → List CopyPend
  | [] => []
  | p :: ps => if p.gang = k then ps else p :: dropPend k ps

/-- R323, R325: the engine has translated the range: it accepts the request, or the fibres fault. -/
def execCopyAcceptance (k : Nat) (s : State) : Outc :=
  match oldestPend s k with
  | none => .fault .notEnabled
  | some (core, p) => comeUp (some (dieOf core)) (missLines s core p.ctx ((pieces p.va.toNat p.len).map (·.1))) (fun s =>
    let s := updCore core (fun c => { c with copyPend := dropPend k c.copyPend }) s
    let ps := pieces p.va.toNat p.len
    let r := findMoves s p.ctx (if p.g2s then needR else needW) p.scratch ps
    let s := countWalks core p.ctx ps r s
    match r with
    | .error e => .next (settle k (updGang k (copyFault p.lanes p.act e.1 e.2) (dropGone core k s)))
    | .ok ms =>
      .next (settle k (updGang k (endWaits isCopyWait p.lanes) (acceptCopy core k p.ctx p.crew p.act p.g2s p.desc false ms p.d s)))) s

/-! ## `gath` and `scat` -/

/-- R324: the check of the scratch range. -/
def slotCheck (s : State) (x : Iss) (n : Nat) (a : Dword) : Option (Word × Dword) :=
  let top := a.toNat + n * ((topLane x.act).getD 0 + 1)
  if scratchSize s x.g < top then some (cause cRANGE, num64 top)
  else if a.toNat % n ≠ 0 then some (cause cMISALIGN, a)
  else none

def elemAccs (t : Ty) (b : Opnd) (x : Iss) : List Acc :=
  laneAccs x (fun f => rd x.g x.h.ext (rdTy .n64) f b) (tyBytes t) (tyBytes t)

/-- R324: the walks of the fibres' own addresses, needed only where the scratch range is good. -/
def gathGate (t : Ty) (need : Need) (a b : Opnd) (x : Iss) (s : State) : Option State :=
  if (slotCheck s x (tyBytes t) (uniVal x .n64 a)).isSome then none else walkGate .glob need (elemAccs t b) x s

/-- R324: one request for the group; a fibre that faults moves no element. -/
def gathOp (t : Ty) (g2s : Bool) (d a b : Opnd) (x : Iss) (s : State) : State :=
  let n := tyBytes t
  let base := uniVal x .n64 a
  let need := if g2s then needR else needW
  match slotCheck s x n base with
  | some f => faultAll x f.1 f.2 s
  | none =>
    let accs := elemAccs t b x
    let moves := accs.filterMap fun e =>
      match check s x.g .glob need e with
      | .ok ks => some (⟨e.ea.toNat, ks.headD 0, scratchBase s x.g + base.toNat + n * e.lane, n⟩ : CopyMove)
      | _ => none
    let s := raiseFaults x (faultsOf s x .glob need accs) s
    if moves = [] then s else acceptCopy x.g.core x.k x.g.ctx x.g.crew x.act g2s false true moves d s

/-- R324. -/
def execGath (h : Hd) (t : Ty) (d a b : Opnd) (s : State) : Outc :=
  issue (.gath h t d a b) h .cp (bothGates engineGate (gathGate t needR a b)) (gangOnce (gathOp t true d a b)) s

/-- R324. -/
def execScat (h : Hd) (t : Ty) (d a b : Opnd) (s : State) : Outc :=
  issue (.scat h t d a b) h .cp (bothGates engineGate (gathGate t needW a b)) (gangOnce (gathOp t false d a b)) s

/-! ## Completion -/

/-! The words of a transfer (R108, R327). -/

/-- The bytes of a run from address `base` on that stand in its word k of memory. -/
def wordOf (base k : Nat) (bs : List Byte) : List Byte := (bs.take (4 * k + 4 - base % 4)).drop (4 * k - base % 4)
def wordsIn (base n : Nat) : Nat := (base % 4 + n + 3) / 4

/-- R327: what a transfer reads from address `base` on, word by word: where some other access has changed its source since it
started, each word, whole, as it was then or as it is now. -/
def readWords (base : Nat) (old now : List Byte) (s : State) : List Byte × State :=
  if old = now then (now, s)
  else (List.range (wordsIn base now.length)).foldl (fun a k =>
    let o := wordOf base k old
    let n := wordOf base k now
    if o = n then (a.1 ++ n, a.2)
    else
      let (early, s) := freshCoin a.2
      (a.1 ++ (if early then o else n), s)) ([], s)

/-- R327: what stands at the destination from address `base` on in the end: of a word with bytes that others have written since
the request started, these bytes are theirs or the transfer's. -/
def settleWords (base : Nat) (hits : List Nat) (new now : List Byte) (s : State) : List Byte × State :=
  if (List.range new.length).all fun i => !hits.contains (base + i) then (new, s)
  else (List.range (wordsIn base new.length)).foldl (fun a k =>
    let (theirs, s) := if (List.range 4).all fun j => !hits.contains (base / 4 * 4 + 4 * k + j) then (false, a.2) else freshCoin a.2
    let at0 := base + (4 * k - base % 4)
    let w := ((wordOf base k new).zip (wordOf base k now)).mapIdx fun j b => if theirs && hits.contains (at0 + j) then b.2 else b.1
    (a.1 ++ w, s)) ([], s)

/-- Where a run is read, and where it is written. -/
def moveFrom (g2s : Bool) (m : CopyMove) : Nat := if g2s then m.pa else m.scratch
def moveTo (g2s : Bool) (m : CopyMove) : Nat := if g2s then m.scratch else m.pa

def at' (base : Nat) (bs : List Byte) : List (Nat × Byte) := bs.mapIdx fun i b => (base + i, b)

/-- R328: the sectors of a move, memory and scratchpad. -/
def moveSectors (m : CopyMove) : List (Nat × Nat) :=
  (List.range (m.n / 64)).map fun i => (m.pa / 64 + i, m.scratch / 64 + i)

/-- R287: bytes that a transfer has read reach its destination. -/
def moveBytes (core : Nat) (g2s : Bool) (bs : List (Nat × Byte)) (s : State) : State :=
  if g2s then setSpad core bs s else engineWrite (dieOf core) bs [] s

/-- R328: and with DESC the descriptors of its sectors. -/
def moveDescs (core : Nat) (g2s : Bool) (m : CopyMove) (s : State) : State :=
  if g2s then (moveSectors m).foldl (fun s c => setSpadDesc core c.2 (engineDesc s (dieOf core) c.1) s) s
  else engineWrite (dieOf core) [] ((moveSectors m).map fun c => (c.1, spadDescAt s core c.2)) s

/-- R327: the words of the runs of a transfer, each with what its source held when the transfer started: 4 bytes, or fewer at
an unaligned end. -/
def moveWords (g2s : Bool) (ms : List CopyMove) (src : List (List Byte)) : List (CopyMove × List Byte) :=
  (ms.zip src).flatMap fun x =>
    let base := moveFrom g2s x.1
    (List.range (wordsIn base x.1.n)).map fun k =>
      let skip := 4 * k - base % 4
      let bs := wordOf base k x.2
      (⟨x.1.va + skip, x.1.pa + skip, x.1.scratch + skip, bs.length⟩, bs)

/-- R287, R327: one word of a transfer is moved, to the bytes that pass the test: what was read of it, and the state after. -/
def moveWord (core : Nat) (g2s : Bool) (hits : List Nat) (keep : Nat → Bool) (w : CopyMove × List Byte) (s : State) : List Byte × State :=
  let r := readWords (moveFrom g2s w.1) w.2 (moveSrc s core g2s w.1) s
  let d := settleWords (moveTo g2s w.1) hits r.1 (moveDst r.2 core g2s w.1) r.2
  (r.1, moveBytes core g2s ((at' (moveTo g2s w.1) d.1).filter fun b => keep b.1) d.2)

/-- The words of a list whose numbers do not stand in another. -/
def leftWords (ws : List (CopyMove × List Byte)) (gone : List Nat) : List (Nat × (CopyMove × List Byte)) :=
  (ws.mapIdx fun i w => (i, w)).filter fun w => !gone.contains w.1

def markCopy (id : Nat) (f : CopyReq → CopyReq) (core : Nat) (s : State) : State :=
  updCore core (fun c => { c with copies := c.copies.map fun r => if r.id = id then f r else r }) s

/-- R109, R324: of the elements of a `scat` that name one byte, the highest lane's stands. -/
def standsAt (r : CopyReq) (n a : Nat) : Bool :=
  !r.gath || r.g2s || !((moveWords r.g2s r.moves r.src).drop (n + 1)).any fun v => decide (v.1.pa ≤ a) && decide (a < v.1.pa + v.1.n)

/-- R327: one word of a request is moved. -/
def copyWord (core : Nat) (r : CopyReq) (w : Nat × (CopyMove × List Byte)) (s : State) : State :=
  let m := moveWord core r.g2s r.hits (standsAt r w.1) w.2 s
  markCopy r.id (fun r => { r with part := r.part ++ [(w.1, m.1)] }) core m.2

/-- The words that a request has still to move. -/
def copyLeft (r : CopyReq) : List (Nat × (CopyMove × List Byte)) := leftWords (moveWords r.g2s r.moves r.src) (r.part.map (·.1))

/-- The bytes that a request has read, by virtual address. -/
def copyRead (r : CopyReq) : List (Nat × Byte) :=
  ((moveWords r.g2s r.moves r.src).mapIdx fun i w =>
    ((r.part.find? fun p => p.1 = i).map fun p => at' w.1.va p.2).getD []).flatten

/-- R447: log the lines that a `.g2s` copy read, with the bytes that it was given of them. -/
def logMove (core k : Nat) (read : List (Nat × Byte)) (m : CopyMove) (s : State) : State :=
  (List.range ((m.va + m.n - 1) / 128 + 1 - m.va / 128)).foldl (fun s i =>
    let va := m.va / 128 + i
    let line := (List.range 128).map fun j =>
      let a := 128 * va + j
      ((read.find? fun x => x.1 = a).map (·.2)).getD (engineByte s (dieOf core) (m.pa + a - m.va))
    logRead k va line s) s

/-- R439: the bytes that a copy engine has moved for a context, in units of 64. -/
def countCopied (core ctx bytes : Nat) (s : State) : State :=
  let p := (coreOf s core).perf
  if p.owner ≠ some ctx then s
  else perfCount core ctx 0x0B ((p.cpRem + bytes) / 64)
    (updCore core (fun c => { c with perf := { c.perf with cpRem := (p.cpRem + bytes) % 64 } }) s)

/-- R329: counts are removed in the order of acceptance. -/
def retire (core k : Nat) (s : State) : State :=
  let mine := (coreOf s core).copies.filter fun r => r.gang = k
  let out := mine.takeWhile fun r => r.done || r.dropped
  let ids := out.map (·.id)
  let s := updCore core (fun c => { c with copies := c.copies.filter fun r => !ids.contains r.id }) s
  updGang k (fun g =>
    { g with cpcnt := g.cpcnt - out.length
             cpDone := g.cpDone ++ (out.filter fun r => !r.dropped).map fun r =>
               (r.promise, if r.g2s then [] else moveLines r.moves) }) (dropGone core k s)

/-- R287: a request starts once what its issuer issued before is performed, and what its core asked of its lines. -/
def copyStarts (s : State) (core : Nat) (r : CopyReq) : Bool :=
  !r.started && !r.done && !r.dropped && loadsDone s r.gang r.act r.id && linesClear s core r.id (moveLines r.moves).contains

/-- R287, R327: the requests that can start do: from here on others' accesses race with them. -/
def startCopies (s : State) : State :=
  s.cores.foldl (fun s c =>
    c.2.copies.foldl (fun s r =>
      if copyStarts s c.1 r then
        markCopy r.id (fun r => { r with started := true, src := r.moves.map (moveSrc s c.1 r.g2s) }) c.1 s
      else s) s) s

/-- R326, R393: a started request completes, unless it is frozen. -/
def copyReady (s : State) (core : Nat) (r : CopyReq) : Bool :=
  r.started && !r.done && !r.dropped && !r.held && linesUp s (some (dieOf core)) (moveLines r.moves)

/-- R325 to R329: an accepted request completes. -/
def execCopyComplete (core id : Nat) (s : State) : Outc :=
  match (coreOf s core).copies.find? fun r => r.id = id with
  | none => .fault .notEnabled
  | some r =>
    if !copyReady s core r then .fault .notEnabled
    else
      let s := (copyLeft r).foldl (fun s w => copyWord core r w s) s
      let s := if r.desc then r.moves.foldl (fun s m => moveDescs core r.g2s m s) s else s
      let read := (((coreOf s core).copies.find? fun r => r.id = id).map copyRead).getD []
      let s := if r.g2s && !r.gath then r.moves.foldl (fun s m => logMove core r.gang read m s) s else s
      let s := countCopied core r.ctx (r.moves.map (·.n)).sum s
      .next (retire core r.gang (markCopy id (fun r => { r with done := true }) core s))

/-- R327: the started requests of a core's copy engine move some of their words, unpredictably, so that others see each word as it was
or as it is copied. -/
def advanceCopies (core : Nat) (s : State) : State :=
  (coreOf s core).copies.foldl (fun s r =>
    if !copyReady s core r then s
    else
      let p := pickSome ((copyLeft r).map (·.1)) s
      ((copyLeft r).filter fun w => p.1.contains w.1).foldl (fun s w => copyWord core r w s) p.2) s

/-- R287: the acquire that `wait` and `sleep` make of finished requests: later loads of the core see their writes. -/
def acquireCopies (k : Nat) (t : Dword → Bool) (s : State) : State :=
  match look k s.gangs with
  | none => s
  | some g =>
    let lines := (g.cpDone.filter fun d => t d.1).flatMap (·.2)
    let s := updGang k (fun g => { g with cpDone := g.cpDone.filter fun d => !t d.1 }) s
    if lines = [] then s else discardL1 g.core lines.contains s

/-- R330, R362, R369: a `wait` covers the tile operations whose counts have been removed: later loads of the core see what they have
written. -/
def acquireTiles (k : Nat) (s : State) : State :=
  match look k s.gangs with
  | none => s
  | some g =>
    let lines := g.mtDone.flatMap (·.2)
    let s := updGang k (fun g => { g with mtSeen := g.mtSeen ++ g.mtDone.map (·.1), mtDone := [] }) s
    if lines = [] then s else discardL1 g.core lines.contains s

/-! ## `wait` and `sleep` -/

/-- R330. -/
def execWait (h : Hd) (l st : Fin 64) (c : Fin 32) (m : Fin 8) (s : State) : Outc :=
  issue (.wait h l st c m) h .none noGate (gangOnce fun x s => gwaitAt x (.counters l st c m) s) s

/-- R335: the gang enters role k. -/
def enterRole (k r : Nat) (s : State) : State :=
  match look k s.gangs with
  | none => s
  | some g =>
    match gangLaunch s g with
    | none => s
    | some l =>
      let e := (l.roles.getD r ⟨0, 0, 0, 0⟩)
      let pc : Pc := (l.pkt.text + e.entry).setWidth 48
      let s := setHeld k e.chunks s
      updGang k (fun g =>
        { g with latch := [], role := some r
                 fibres := g.fibres.map fun f =>
                   if notEnded f then { f with pc := pc, gwait := f.gwait.map fun w => { w with nxt := pc } } else f }) s

def countersAt (g : Gang) (l st c m : Nat) : Bool := g.ldcnt ≤ l && g.stcnt ≤ st && g.cpcnt ≤ c && g.mtcnt ≤ m

/-- R330, R335: the whole-gang wait is for counters, and they have come. -/
def waitHolds (g : Gang) (w : WaitKind) : Bool :=
  match w with
  | .counters l st c m => countersAt g l st c m
  | .role _ => countersAt g 0 0 0 0
  | _ => false

/-- R330, R335: the counters have come within the limits; a `role` then enters its role. -/
def execWaitComplete (k : Nat) (s : State) : Outc :=
  match look k s.gangs with
  | none => .fault .notEnabled
  | some g =>
    match (gwaitsOf g).find? fun w => g.stop ≠ .saved && waitHolds g w with
    | some (.counters l st c m) =>
      .next (settle k (updGang k (endGwait (· = .counters l st c m)) (acquireTiles k (acquireCopies k (fun _ => true) s))))
    | some (.role r) => .next (settle k (updGang k (endGwait (· = .role r)) (enterRole k r s)))
    | _ => .fault .notEnabled

/-- R331. -/
def execSleep (h : Hd) (a : Opnd) (s : State) : Outc :=
  issue (.sleep h a) h .none noGate (gangOnce fun x s => gwaitAt x (.sleep (uniVal x .n64 a) x.act) s) s

/-- R331: accepted requests of the gang with promise ≤ a that have not completed. -/
def lateCopies (s : State) (core k : Nat) (a : Dword) : List CopyReq :=
  (coreOf s core).copies.filter fun r => r.gang = k && decide (r.promise.toNat ≤ a.toNat) && !r.done && !r.dropped

/-- R331: the fibres that were active at a `sleep` take PROMISE, their PCs at the `sleep`; the others go on. -/
def promiseFault (w : WaitKind) (act : BitVec 64) (addr : Dword) (g : Gang) : Gang :=
  let bad := act &&& lanesWhere (fun f => notEnded f && f.gwait.any fun u => u.kind = w) g
  let recs := (lanesOf bad).filterMap fun i => (fibreAt g i).map fun f => (⟨i, cause cPROMISE, addr, f.pc⟩ : TrapRec)
  let g := onLanes bad (fun _ f => { f with gwait := none }) g
  endGwait (· = w) { g with pend := g.pend ++ recs }

def sleepOver (s : State) (w : WaitKind) : Bool := match w with | .sleep a _ => a.toNat ≤ s.clk.toNat | _ => false

/-- R331: CLK has reached the time. R399: a gang that is being stopped tests it again at its restoration. -/
def execSleepWake (k : Nat) (s : State) : Outc :=
  match look k s.gangs with
  | none => .fault .notEnabled
  | some g =>
    match (gwaitsOf g).find? fun w => decide (g.stop = .running) && sleepOver s w with
    | some (.sleep a act) =>
        match lateCopies s g.core k a with
        | [] => .next (settle k (updGang k (endGwait (· = .sleep a act)) (acquireCopies k (fun p => p.toNat ≤ a.toNat) s)))
        | r :: rs =>
          let least := rs.foldl (fun p q => if q.promise.toNat < p.toNat then q.promise else p) r.promise
          .next (settle k (updGang k (promiseFault (.sleep a act) act least) s))
    | _ => .fault .notEnabled

/-! ## Roles -/

/-- R335. -/
def execRole (h : Hd) (k : Fin 512) (s : State) : Outc :=
  issue (.role h k) h .none noGate (gangOnce fun x s =>
    let chunks := ((gangLaunch s x.g).map fun l => (l.roles.getD k ⟨0, 0, 0, 0⟩).chunks).getD 0
    if (lanesWhere notEnded x.g &&& ~~~x.act) ≠ 0 then faultAll x (cause cROLE) 0 s
    else if chunks < 3 ∧ x.g.fibres.any (fun f => notEnded f && f.popen) then
      perLane x (fun _ f => if f.popen then pstateBad f else .ok f) s
    else if countersAt x.g 0 0 0 0 then enterRole x.k k s
    else gwaitAt x (.role k) s) s

/-! ## Stage rings -/

/-- R336: the place of a phase word in the core's scratchpad, or a fault. -/
def phaseWord (s : State) (x : Iss) (a b : Opnd) : Except (Word × Dword) Nat :=
  let ea := uniVal x .n64 a + uniVal x .n64 b
  match check s x.g .scratch needRW ⟨0, ea, 4, 4⟩ with
  | .ok ks => .ok (ks.headD 0)
  | .bad c => .error (c, ea)
  | .miss _ => .error (cause cRANGE, ea)

/-- R337: the phase word of a scratchpad with bit 0 flipped. -/
def flipPhase (core a : Nat) (s : State) : State := setSpad core [(a, spadByte s core a ^^^ 1)] s

def phaseBit (s : State) (core a : Nat) : Bool := (spadByte s core a).getLsbD 0

/-- R336, R338. -/
def execStgw (h : Hd) (a b : Opnd) (ph : Fin 512) (s : State) : Outc :=
  issue (.stgw h a b ph) h .none noGate (gangOnce fun x s =>
    match phaseWord s x a b with
    | .error f => faultAll x f.1 f.2 s
    | .ok w => gwaitAt x (.stgw w (ph.val = 1)) s) s

/-- R282, R338, R344: an acquire at crew scope toward the stream controllers: later loads of the core see the tiles they have written. -/
def acquirePulls (core : Nat) (s : State) : State :=
  let ls := (coreOf s core).pulled
  if ls = [] then s else discardL1 core ls.contains (updCore core (fun c => { c with pulled := [] }) s)

def phaseCome (s : State) (k : Nat) (g : Gang) (w : WaitKind) : Bool :=
  match w with
  | .stgw a ph => phaseBit s g.core a = ph && loadsDone s k allLanes s.nextId
  | _ => false

/-- R338: the phase has come, and every earlier load has returned: the acquire is performed. -/
def execStgwPass (k : Nat) (s : State) : Outc :=
  match look k s.gangs with
  | none => .fault .notEnabled
  | some g =>
    match (gwaitsOf g).find? fun w => g.stop ≠ .saved && phaseCome s k g w with
    | some w => .next (settle k (updGang k (endGwait (· = w)) (acquirePulls g.core s)))
    | none => .fault .notEnabled

/-- R336, R337. -/
def execStga (h : Hd) (a b : Opnd) (s : State) : Outc :=
  issue (.stga h a b) h .none (relGate .crew) (gangOnce fun x s =>
    match phaseWord s x a b with
    | .error f => faultAll x f.1 f.2 s
    | .ok w => flipPhase x.g.core w s) s

/-! ## Stream controllers -/

/-- R340, R341: read a descriptor; none where D receives 0xFFFFFFFE. -/
def readSub (crew size n : Nat) : Option Subscription :=
  let slots := field n 212 4 + 1
  let u : Subscription :=
    { crew := crew, seq := 0, mem := num64 (field n 0 64), stride := num64 (field n 64 64), count := field n 128 32
      tbytes := field n 160 16, ring := field n 176 18, phase := field n 194 18, nslots := slots
      pull := n.testBit 216, desc := n.testBit 217, next := 0, moving := false, pas := [], src := [], part := [], frozen := false
      stopping := false }
  if field n 218 294 ≠ 0 ∨ slots < 2 ∨ u.phase % 4 ≠ 0 ∨ u.ring % 64 ≠ 0 ∨ u.tbytes % 64 ≠ 0 ∨ u.tbytes < 64
      ∨ 32768 < u.tbytes ∨ u.count = 0 ∨ u.mem.toNat % 64 ≠ 0
      ∨ size < u.ring + slots * u.tbytes ∨ size < u.phase + 4 * slots then none
  else some u

/-- R341: a free subscription slot. DESIGN CHOICE (assumption 83): the lowest. -/
def subSlot (c : Core) : Option Nat := (List.range 16).find? fun k => (look k c.subs).isNone

def subHandle (slot seq : Nat) : Dword := num64 (seq % 2 ^ 28 * 16 + slot)

def subAccs (a : Opnd) (x : Iss) : List Acc := if x.act = 0 then [] else [⟨0, uniVal x .n64 a, 64, 64⟩]

/-- R341: the descriptor is read as a load is; the group waits for it. -/
def subsOp (d a : Opnd) (x : Iss) (s : State) : State :=
  let ea := uniVal x .n64 a
  match check s x.g .glob needR ⟨0, ea, 64, 64⟩ with
  | .bad c => faultAll x c ea s
  | .miss _ => s
  | .ok ks =>
    let (id, s) := freshId s
    let r := serveLoad id x.g.core x.g.ctx false ks s
    let o := { newOp x id .none none ((lanesOf x.act).map fun i => ⟨i, ks⟩) with
      got := r.1.got, left := r.1.reqs, load := true, regs := dstRegs d 1 [64], sub := some (x.g.crew, d) }
    startOp o false (waitAt x x.group (.subs id d) r.2)

/-- R341, R279: the release toward the controller, which reads at the homes, waits for the core's writes to be performed there. -/
def execSubs (h : Hd) (d a : Opnd) (s : State) : Outc :=
  issue (.subs h d a) h .none (bothGates (walkGate .glob needR (subAccs a)) (relGate .clu)) (gangOnce (subsOp d a)) s

/-- R341: what D receives for a descriptor of a crew of a core, and the state with the subscription. DESIGN CHOICE (assumption 84): the
core's sequence number counts the subscriptions it has accepted. -/
def subscribe (core crew n : Nat) (s : State) : Dword × State :=
  match look crew s.crews with
  | none => (0xFFFFFFFE, s)
  | some w =>
    match readSub crew w.size n with
    | none => (0xFFFFFFFE, s)
    | some u =>
      let c := coreOf s core
      match subSlot c with
      | none => (0xFFFFFFFF, s)
      | some k =>
        (subHandle k c.subSeq, updCore core (fun c =>
          { c with subs := ins k { u with seq := c.subSeq % 2 ^ 28 } c.subs, subSeq := c.subSeq + 1 }) s)

/-- R341: the descriptor has come back: the controller answers, D is written where a fibre still waits for it, and the group goes
on. -/
def subsDone (id : Nat) (s : State) : State :=
  match look id s.ops with
  | none => s
  | some o =>
    match o.sub with
    | some (crew, d) =>
      if o.left ≠ 0 ∨ !o.load then s
      else
        let bytes := ((o.parts.head?).map (partBytes o)).getD []
        let core := ((look crew s.crews).map (·.core)).getD o.core
        let r := subscribe core crew (leNat bytes) { s with ops := del id s.ops }
        let t := if o.fib = 0 then r.2 else gangScalar o.gang d r.1 r.2
        settle o.gang (updGang o.gang (endWaits (· = .subs id d) allLanes) t)
    | none => s

def updSub (core slot : Nat) (f : Subscription → Subscription) (s : State) : State :=
  updCore core (fun c => { c with subs := adj slot f c.subs }) s

/-- R342: the slot's ring place and phase word in the core's scratchpad. -/
def subPlace (c : Crew) (u : Subscription) : Nat := c.base + u.ring + u.next % u.nslots * u.tbytes
def subPhase (c : Crew) (u : Subscription) : Nat := c.base + u.phase + 4 * (u.next % u.nslots)

/-- R342: the address of the next tile. -/
def tileVa (u : Subscription) : Dword := u.mem + num64 u.next * u.stride

/-- R342: the controller waits for nothing but the phase. -/
def subReady (s : State) (core : Nat) (u : Subscription) : Bool :=
  !u.moving && !u.frozen && !u.stopping && decide (u.next < u.count) &&
    match look u.crew s.crews with
    | some c => !crewHalted s u.crew && phaseBit s core (subPhase c u) = u.pull
    | none => false

/-- R342, R343: the phase allows the next tile: translate it and start moving it, once what the core has asked of its lines before is
performed (R337), or freeze. DESIGN CHOICE (assumption 96): a tile that passes 2^52 is reported as RANGE, at its first address. -/
def execSubscriptionTile (core slot : Nat) (s : State) : Outc :=
  match look slot (coreOf s core).subs with
  | none => .fault .notEnabled
  | some u =>
    match subReady s core u, look u.crew s.crews with
    | true, some c =>
      let va := tileVa u
      let ps := if 2 ^ 52 < va.toNat + u.tbytes then [] else pieces va.toNat u.tbytes
      comeUp (some (dieOf core)) (missLines s core c.ctx (ps.map (·.1))) (fun s =>
      let r := if 2 ^ 52 < va.toNat + u.tbytes then .error (cause cRANGE, va)
        else findMoves s c.ctx (if u.pull then needW else needR) (subPlace c u) ps
      match r with
      | .ok ms =>
        if !linesUp s (some (dieOf core)) (moveLines ms) ∨ !linesClear s core s.nextId (moveLines ms).contains then .fault .notEnabled
        else .next (updSub core slot (fun u => { u with moving := true, pas := ms, src := ms.map (moveSrc s core (!u.pull)), part := [] })
          (countWalks core c.ctx ps r s))
      | .error e =>
        let s := countWalks core c.ctx ps r s
        let rep : Report := ⟨some (.stream core slot), c.ctx, e.1, e.2, []⟩
        .next { updSub core slot (fun u => { u with frozen := true }) s with reports := s.reports ++ [rep] }) s
    | _, _ => .fault .notEnabled

/-- R344: what `unsub` returns. -/
def subResult (u : Subscription) : Dword := num64 (u.next % 2 ^ 32) + if u.frozen then 0x100000000 else 0

/-- R344: the waits of a gang for a subscription to stop, each with the operation that stands for it and its D. -/
def unsubWaits (slot : Nat) (g : Gang) : List (Nat × Opnd) :=
  (g.fibres.filterMap fun f => f.wait.bind fun w => match w.kind with
    | .unsub k op d => if k = slot then some (op, d) else none
    | _ => none).foldl (fun acc x => if acc.contains x then acc else acc ++ [x]) []

/-- R344: a subscription has stopped: each group that waits for it acquires, has its result and goes on; a crew that has ended goes. -/
def subStopped (core slot : Nat) (u : Subscription) (s : State) : State :=
  let s := updCore core (fun c => { c with subs := del slot c.subs }) s
  let s := (s.gangs.filter fun g => g.2.core = core && g.2.crew = u.crew).foldl (fun s g =>
    (unsubWaits slot g.2).foldl (fun s w =>
      settle g.1 (updGang g.1 (endWaits (· = .unsub slot w.1 w.2) allLanes)
        (if (look w.1 s.ops).isSome then gangScalar g.1 w.2 (subResult u) (acquirePulls core { s with ops := del w.1 s.ops })
          else s))) s) s
  crewGone u.crew s

/-- The words of its tile that a controller has still to move, and whether it can. -/
def subLeft (u : Subscription) : List (Nat × (CopyMove × List Byte)) := leftWords (moveWords (!u.pull) u.pas u.src) u.part
def subGoes (s : State) (core : Nat) (u : Subscription) : Bool := u.moving && linesUp s (some (dieOf core)) (moveLines u.pas)

/-- R327, R342: a core's controller moves some words of its tiles, unpredictably. -/
def advanceTiles (core : Nat) (s : State) : State :=
  (coreOf s core).subs.foldl (fun s u =>
    if !subGoes s core u.2 then s
    else
      let p := pickSome ((subLeft u.2).map (·.1)) s
      ((subLeft u.2).filter fun w => p.1.contains w.1).foldl (fun s w =>
        updSub core u.1 (fun u => { u with part := w.1 :: u.part }) (moveWord core (!u.2.pull) [] (fun _ => true) w.2 s).2) p.2) s

/-- R342, R344: the tile has been moved, and the slot's phase is flipped. -/
def execSubscriptionTileComplete (core slot : Nat) (s : State) : Outc :=
  match look slot (coreOf s core).subs with
  | none => .fault .notEnabled
  | some u =>
    match u.moving, look u.crew s.crews with
    | true, some c =>
      if !subGoes s core u then .fault .notEnabled
      else
      let s := (subLeft u).foldl (fun s w => (moveWord core (!u.pull) [] (fun _ => true) w.2 s).2) s
      let s := if u.desc then u.pas.foldl (fun s m => moveDescs core (!u.pull) m s) s else s
      let s := if u.pull then updCore core (fun c => { c with pulled := moveLines u.pas ++ c.pulled }) s else s
      let s := flipPhase core (subPhase c u) s
      let u := { u with next := u.next + 1, moving := false, pas := [], src := [], part := [] }
      let s := updSub core slot (fun _ => u) s
      .next (if u.stopping then subStopped core slot u s else s)
    | _, _ => .fault .notEnabled

/-- R344. -/
def unsubOp (d a : Opnd) (x : Iss) (s : State) : State :=
  let v := uniVal x .n32 a
  let slot := v.toNat % 16
  match look slot (coreOf s x.g.core).subs with
  | none => putScalar x 64 d 0x200000000 s
  | some u =>
    if u.crew ≠ x.g.crew ∨ subHandle slot u.seq ≠ v then putScalar x 64 d 0x200000000 s
    else if u.moving then
      let (id, s) := freshId s
      let o := { newOp x id .none none [] with left := 1, fib := x.act, regs := dstRegs d 2 [64], sub := some (x.g.crew, d) }
      startOp o false (waitAt x x.group (.unsub slot id d) (updSub x.g.core slot (fun u => { u with stopping := true }) s))
    else putScalar x 64 d (subResult u) (acquirePulls x.g.core (updCore x.g.core (fun c => { c with subs := del slot c.subs }) s))

/-- R344. -/
def execUnsub (h : Hd) (d a : Opnd) (s : State) : Outc :=
  issue (.unsub h d a) h .none noGate (gangOnce (unsubOp d a)) s

end Sys2Proof.Machine
end

