-- ==== Sys2Proof/Machine/TrapTake.lean ====
section
/-! DEFINITION. Fetching the instruction of a gang's next issue, and taking the trap that is due (03 R49 to R52, R68 to
R70; 20 R382, R383). -/

namespace Sys2Proof.Machine

/-- What fetch finds at a PC. -/
inductive Fetched where
  | instr (i : Instr)
  | fill
  | bad (cause : Word) (addr : Dword)     -- a decode-class fault
  | miss (va : Nat)                       -- a page walk must be made first
  deriving DecidableEq, Repr

/-- The words of a fetch: R70's failure names the first word that could not be fetched. -/
inductive Words where
  | ok (ws : List Word)
  | bad (cause : Word) (addr : Dword)
  | miss (va : Nat)
  deriving DecidableEq, Repr

/-- R70: n words from an address. -/
def fetchWords (s : State) (g : Gang) (va : Nat) : Nat → Words
  | 0 => .ok []
  | n + 1 =>
    match translate s g needX va with
    | .miss => .miss va
    | .bad c => .bad c (num64 va)
    | .pa a =>
      match fetchWords s g (va + 4) n with
      | .ok ws => .ok (instrWord s g.core a :: ws)
      | e => e

/-- R51, R52, R70: fetch and decode at a PC. -/
def fetch (s : State) (g : Gang) (pc : Pc) : Fetched :=
  let va := pc.toNat
  match fetchWords s g va 1 with
  | .bad c a => .bad c a
  | .miss v => .miss v
  | .ok ws =>
    let w0 := ws.headD 0
    if w0 = fillWord then .fill
    else
      match lenOf w0 with
      | none => .bad (cause cBADLEN) 0
      | some n =>
        -- word0 is fetched also where the instruction crosses its block (R52)
        match fetchWords s g va (if va / 32 = (va + n - 1) / 32 then n / 4 else 2) with
        | .bad c a => .bad c a
        | .miss v => .miss v
        | .ok ws =>
          if va / 32 ≠ (va + n - 1) / 32 then .bad (cause cBADLEN) 0
          else
            match decodeWords ws with
            | .ok i => .instr i
            | .error _ => .bad (cause cILLEGAL) 0

/-- R51, R157: fibres at a fill word move to the next 32-byte boundary. -/
def skipFill (k : Nat) (group : BitVec 64) (pc : Pc) (s : State) : State :=
  updGang k (onLanes group fun _ f => { f with pc := BitVec.ofNat 48 (pc.toNat / 32 * 32 + 32) }) s

/-- R399: a check that was open when the gang was stopped has failed: the instruction takes its trap before the stop is done. -/
def checkFailed (g : Gang) : Bool := decide (g.stop = .stopping) && !g.walkFaults.isEmpty

/-- R393, R399: the gang may issue: it is neither frozen nor stopped, and no check of its own is open. -/
def gangRuns (s : State) (k : Nat) (g : Gang) : Bool :=
  g.frozen.isNone && (decide (g.stop = .running) || checkFailed g) && g.holdOps.isEmpty && !copyPending s k g

/-- R383: faults found earlier fall due before the gang's next issue. -/
def pendDue (s : State) (k : Nat) (g : Gang) : Bool := gangRuns s k g && !(liveRecs g g.pend).isEmpty

/-- R326: the instructions that need a place in the copy engine. -/
def needsEngine : Instr → Bool
  | .copyG2s .. | .copyS2g .. | .gath .. | .scat .. => true
  | _ => false

/-- R349: the instructions that count in MTCNT. -/
def isTileOp : Instr → Bool
  | .mma .. | .mcont .. | .mld .. | .mst .. | .wbload .. => true
  | _ => false

/-- R326, R349: the group cannot issue its instruction before a slot or a count frees. -/
def heldBack (s : State) (k : Nat) (g : Gang) (group : BitVec 64) (i : Instr) : Bool :=
  (decodeFault s g i).isNone &&
    ((needsEngine i && (ctrFull .cp g || ((hdOf i).any (fun h => activeOf h group g ≠ 0)
        && (decide (32 ≤ engineLoad (coreOf s g.core)) || decide (31 ≤ g.cpcnt + pendOf (coreOf s g.core) k)))))
      || (isTileOp i && ctrFull .mt g))

/-- R156, R326, R349: the group that issues next, among the lanes of a mask: groups that are held back let others issue. -/
def pickIn (s : State) (k : Nat) (g : Gang) : Nat → BitVec 64 → Option (BitVec 64 × Pc)
  | 0, _ => none
  | n + 1, m =>
    match chooseIn m g with
    | none => none
    | some (group, pc) =>
      match fetch s g pc with
      | .instr i => if heldBack s k g group i then pickIn s k g n (m &&& ~~~group) else some (group, pc)
      | _ => some (group, pc)

def pickGroup (s : State) (k : Nat) (g : Gang) : Option (BitVec 64 × Pc) := pickIn s k g 64 allLanes

/-- R69, R70, R157, R382: the decode-class fault of the gang's next issue, with its group and PC. -/
def decodeDue (s : State) (k : Nat) (g : Gang) : Option (BitVec 64 × Pc × Word × Dword) :=
  if !gangRuns s k g then none
  else
    let v := settledGang s g
    match pickGroup s k v with
    | none => none
    | some (group, pc) =>
      match fetch s v pc with
      | .bad c a => some (group, pc, c, a)
      | .instr i => (decodeFault s v i).map fun c => (group, pc, cause c, 0)
      | _ => none

/-- R69, R70: the decode-class trap of a group; what walks have found for the gang is used up. -/
def trapAt (k : Nat) (group : BitVec 64) (pc : Pc) (c : Word) (a : Dword) (s : State) : State :=
  decodeTrap k group pc c a (updGang k (fun g => { g with walkFaults := [] }) s)

/-- R383, R386: the gang takes the trap that is due: that of its earlier instructions, or the decode-class fault of
the instruction it would issue. -/
def execTakeTrap (k : Nat) (s : State) : Outc :=
  match look k s.gangs with
  | none => .fault .notEnabled
  | some g =>
    if pendDue s k g then .next (takeTrapRecs k (dueRecs g) s)
    else
      match decodeDue s k g with
      | some (group, pc, c, a) => .next (trapAt k group pc c a (settleFills k s))
      | none => .fault .notEnabled

end Sys2Proof.Machine
end

