-- ==== Sys2Proof/Machine/MatrixEngine.lean ====
section
/-! DEFINITION. The matrix engine (02 R36 to R45, 14 R288, 18 R345 to R370). -/

namespace Sys2Proof.Machine

/-! ## Shared parts -/

def mxOf (s : State) (core : Nat) : Matrix := (coreOf s core).mx
def updMx (core : Nat) (f : Matrix → Matrix) (s : State) : State := updCore core (fun c => { c with mx := f c.mx }) s
def updMxOp (core id : Nat) (f : MxOp → MxOp) (s : State) : State :=
  updMx core (fun m => { m with queue := m.queue.map fun o => if o.id = id then f o else o }) s

/-- R345: the gang's context holds its core's engine. -/
def holdsEngine (s : State) (g : Gang) : Bool := (mxOf s g.core).owner = some g.ctx

/-- R349: every non-ended fibre of the gang is an active member of the group. -/
def wholeGang (x : Iss) : Bool := (lanesWhere notEnded x.g &&& ~~~x.act) = 0

/-- R352: TROUPE, whose TADDR is the sub-cause. -/
def troupeBad (n : Nat) : Word × Dword := (causeSub cTROUPE n, num64 n)

/-- R345, R349: the checks that open the entries of the block. -/
def engineCheck (s : State) (x : Iss) (whole : Bool) : Option (Word × Dword) :=
  if !holdsEngine s x.g then some (cause cPROT, 0)
  else if whole ∧ !wholeGang x then some (troupeBad 1)
  else none

/-- R349, R329: counts of a gang's tile operations are removed in the order of acceptance. -/
def owedDone (k : Nat) : List MxOp → List MxOp × List MxOp
  | [] => ([], [])
  | o :: os =>
    if !o.owed.contains k then
      let r := owedDone k os
      (r.1, o :: r.2)
    else if o.done then
      let r := owedDone k os
      (o :: r.1, { o with owed := o.owed.filter (· ≠ k) } :: r.2)
    else ([], o :: os)

/-- R369: the lines of memory that an operation has written. -/
def tileLines (o : MxOp) : List Nat :=
  match o.kind with
  | .move m => if m.load then [] else moveLines m.pas
  | _ => []

def retireGang (core : Nat) (s : State) (k : Nat) : State :=
  let r := owedDone k (mxOf s core).queue
  updGang k (fun g => { g with mtcnt := g.mtcnt - r.1.length, mtDone := g.mtDone ++ r.1.map fun o => (o.id, tileLines o) })
    (updMx core (fun m => { m with queue := r.2 }) s)

/-- R319: counts vanish with their gangs; an operation that is over and counted nowhere is gone. -/
def retireMx (core : Nat) (s : State) : State :=
  let ks := distinct ((mxOf s core).queue.flatMap (·.owed))
  let s := (ks.filter fun k => (look k s.gangs).isSome).foldl (retireGang core) s
  updMx core (fun m => { m with queue := (m.queue.map fun o =>
    { o with owed := o.owed.filter fun k => (look k s.gangs).isSome }).filter fun o => !o.done || !o.owed.isEmpty }) s

/-- The lines of memory that a transfer reads or writes. -/
def mxLines (kind : MxKind) : List Nat :=
  match kind with
  | .move m => moveLines m.pas
  | .wbload _ ms _ => moveLines ms
  | .mma .. => []

/-- Accept an operation for some gangs (R349); what the core has reduced into its lines goes ahead of it (R255, R274). -/
def acceptMx (x : Iss) (owed : List Nat) (kind : MxKind) (s : State) : State :=
  let (id, s) := freshId (mergeUo x.g.core (mxLines kind).contains s)
  let o : MxOp := { id := id, ctx := x.g.ctx, gang := owed.headD x.k, crew := x.g.crew, act := x.act, owed := owed
                    done := false, started := false, src := [], kind := kind }
  owed.foldl (fun s k => updGang k (fun g => { g with mtcnt := g.mtcnt + 1 }) s)
    (updMx x.g.core (fun m => { m with queue := m.queue ++ [o] }) s)

/-! ## Troupes and `mopf` -/

def bitsSet (m : BitVec 64) : Nat := (lanesOf m).length

/-- R350. -/
def maskLegal (s : State) (g : Gang) (a : Dword) : Bool :=
  let n := ((look g.crew s.crews).map (·.ngangs)).getD 0
  decide (a.toNat < 2 ^ 16) && decide (2 ≤ bitsSet a) && decide (bitsSet a ≤ 6) && a.getLsbD g.num
    && (lanesOf a).all (fun i => i < n) && !((look g.crew s.crews).map (·.spawned)).getD true

/-- R349, R350. -/
def execTroupe (h : Hd) (a : Opnd) (s : State) : Outc :=
  issue (.troupe h a) h .none noGate (gangOnce fun x s =>
    match engineCheck s x true with
    | some f => faultAll x f.1 f.2 s
    | none =>
      let m := uniVal x .n32 a
      if maskLegal s x.g m then updGang x.k (fun g => { g with trp := m.setWidth 16 }) s
      else faultAll x (troupeBad 2).1 (troupeBad 2).2 s) s

/-- R360: the group waits until the gang's scratch stores are applied. -/
def execMopf (h : Hd) (s : State) : Outc :=
  issue (.mopf h) h .none noGate (gangOnce fun x s =>
    match engineCheck s x false with
    | some f => faultAll x f.1 f.2 s
    | none =>
      let (id, s) := freshId s
      waitAt x x.group (.mopf id) s) s

def mopfId (w : WaitKind) : Option Nat := match w with | .mopf n => some n | _ => none
def isMopf (n : Nat) (w : WaitKind) : Bool := mopfId w = some n

/-- The gang's oldest `mopf` under way. -/
def oldestMopf (g : Gang) : Option Nat := (g.fibres.filterMap fun f => f.wait.bind fun w => mopfId w.kind).min?

/-- R288: the crew's region as the fence leaves it, by scratch address. -/
def fenceRows (s : State) (g : Gang) (g' : Gang) : Gang :=
  let base := scratchBase s g
  let size := scratchSize s g
  let c := coreOf s g.core
  { g' with
    opRows := (c.spad.filter fun x => decide (base ≤ x.1) && decide (x.1 < base + size)).map fun x => (x.1 - base, x.2)
    opDescs := (c.spadDesc.filter fun x => decide (base ≤ 64 * x.1) && decide (64 * x.1 < base + size)).map fun x =>
      (x.1 - base / 64, x.2)
    opMark := c.spadLog.length }

/-- R288, R360. -/
def execMopfComplete (k : Nat) (s : State) : Outc :=
  match look k s.gangs with
  | none => .fault .notEnabled
  | some g =>
    match oldestMopf g with
    | none => .fault .notEnabled
    | some n =>
      if g.stop = .saved ∨ !loadsDone s k (waiting (isMopf n) g) n then .fault .notEnabled
      else .next (settle k (updGang k (fun g' => endWaits (isMopf n) allLanes (fenceRows s g g')) s))

/-! ## The rendezvous -/

/-- R351: the fields that arrivals compare. -/
def mmaFields (o : Mma) : Mma := { o with a := .imm, q := 0 }

/-- R357: the checks of an `mma`, in order. -/
def mmaCheck (s : State) (x : Iss) (o : Mma) : Option (Word × Dword) :=
  let a := uniVal x .n32 o.a
  let b := uniVal x .n32 o.b
  let k := uniVal x .n32 o.c
  let ga := getS x.g o.q
  let gb := getS x.g (o.q + 1)
  match engineCheck s x true with
  | some f => some f
  | none =>
    if x.g.trp = 0 then some (troupeBad 2)
    else if k = 0 ∨ k.toNat % 32 ≠ 0 ∨ 65536 < k.toNat then some (cause cRANGE, k)
    else if a.toNat % 64 ≠ 0 then some (cause cMISALIGN, a)
    else if 262144 ≤ b.toNat then some (cause cRANGE, b)
    else if b.toNat % 64 ≠ 0 then some (cause cMISALIGN, b)
    else if 2 ^ 52 ≤ ga.toNat then some (cause cRANGE, ga)
    else if 2 ^ 52 ≤ gb.toNat then some (cause cRANGE, gb)
    else if ga.toNat % 4 ≠ 0 then some (cause cMISALIGN, ga)
    else if gb.toNat % 4 ≠ 0 then some (cause cMISALIGN, gb)
    else none

def isRendezvous (w : WaitKind) : Bool := w = .rendezvous

/-- R351, R352: a pending entry is cleared, and the gangs that arrived at it fault. -/
def clearEntry (core sub : Nat) (e : Rendezvous) (s : State) : State :=
  let s := updMx core (fun m => { m with latch := m.latch.filter fun r => r.crew ≠ e.crew || r.mask ≠ e.mask }) s
  e.arrived.foldl (fun s a =>
    match gangOfCrew s e.crew a.1 with
    | some k => settle k (updGang k (troupeFault sub) s)
    | none => s) s

/-- The gangs of a mask by number, ascending: the troupe by rank. -/
def troupeNums (m : BitVec 16) : List Nat := (List.range 16).filter fun i => m.getLsbD i

/-- R351, R358, R364: every gang has arrived: the operation is accepted, and the gangs go on. -/
def acceptMma (x : Iss) (o : Mma) (e : Rendezvous) (s : State) : State :=
  let nums := troupeNums e.mask
  let keys := nums.filterMap fun n => gangOfCrew s e.crew n
  let m := mxOf s x.g.core
  let c : ContBlock :=
    { st := 0, tile := o.tile, nslab := nums.length, slab := 0, z := o.z, kb := 0
      nkb := (e.vals.getD 1 0).toNat / 32, cause := 0, boff := (e.vals.getD 0 0).toNat
      abase := nums.map fun n => ((e.arrived.find? fun a => a.1 = n).map (·.2)).getD 0
      mask := e.mask, gsa := e.vals.getD 2 0, gsb := e.vals.getD 3 0, seedb := e.vals.getD 4 0, taddr := 0 }
  let side : MmaSide :=
    { members := keys, base := scratchBase s x.g, size := scratchSize s x.g
      rows := keys.map fun k => ((look k s.gangs).map fun g => (g.opRows, g.opDescs)).getD ([], [])
      marks := keys.map fun k => ((look k s.gangs).map (·.opMark)).getD 0
      wbuf := m.wbuf, wdesc := m.wdesc, wmark := m.wlog.length, before := [], started := false, sent := false }
  let s := updMx x.g.core (fun m => { m with latch := m.latch.filter fun r => r.crew ≠ e.crew || r.mask ≠ e.mask }) s
  let s := acceptMx x keys (.mma c side) s
  keys.foldl (fun s k => settle k (updGang k (endWaits isRendezvous allLanes) s)) s

/-- R351: the gang arrives at the latch. DESIGN CHOICE (assumption 98): of several pending entries of its crew that share a gang with its
mask and differ from it, the oldest is cleared. -/
def arrive (x : Iss) (o : Mma) (s : State) : State :=
  let core := x.g.core
  let mask := x.g.trp
  let entries := (mxOf s core).latch.filter fun e => e.crew = x.g.crew
  let vals := [uniVal x .n32 o.b, uniVal x .n32 o.c, getS x.g o.q, getS x.g (o.q + 1), getS x.g (o.q + 2)]
  let here := (x.g.num, (uniVal x .n32 o.a).toNat)
  match entries.find? fun e => e.mask ≠ mask && decide (e.mask &&& mask ≠ 0) with
  | some e => faultAll x (troupeBad 5).1 (troupeBad 5).2 (clearEntry core 5 e s)
  | none =>
    match entries.find? fun e => e.mask = mask with
    | none =>
      let e : Rendezvous := ⟨x.g.crew, mask, mmaFields o, vals, [here]⟩
      updMx core (fun m => { m with latch := m.latch ++ [e] }) (waitAt x x.group .rendezvous s)
    | some e =>
      if e.cmp ≠ mmaFields o ∨ e.vals ≠ vals then faultAll x (troupeBad 3).1 (troupeBad 3).2 (clearEntry core 3 e s)
      else
        let e' := { e with arrived := e.arrived ++ [here] }
        let s := updMx core (fun m => { m with latch := m.latch.map fun r =>
          if r.crew = e.crew ∧ r.mask = e.mask then e' else r }) (waitAt x x.group .rendezvous s)
        if (troupeNums mask).all fun n => e'.arrived.any fun a => a.1 = n then acceptMma x o e' s else s

/-- R351, R356, R357. -/
def execMma (h : Hd) (o : Mma) (s : State) : Outc :=
  issue (.mma h o) h .mt noGate (gangOnce fun x s =>
    match mmaCheck s x o with
    | some f => faultAll x f.1 f.2 s
    | none => arrive x o s) s

/-! ## Operands -/

/-- R42: the formats of a block descriptor that an operand may have. -/
inductive BFmt where
  | bf16 | f16 | f8e4 | f8e5 | i8 | q4n | q4s
  deriving DecidableEq, Repr

def bfmt (d : BitVec 16) : Option BFmt :=
  match d.toNat % 256 with
  | 1 => some .bf16
  | 2 => some .f16
  | 3 => some .f8e4
  | 4 => some .f8e5
  | 5 => some .i8
  | 6 => some .q4n
  | 7 => some .q4s
  | _ => none

/-- R42: k-blocks per sector. -/
def kps : BFmt → Nat
  | .bf16 | .f16 => 1
  | .f8e4 | .f8e5 | .i8 => 2
  | .q4n => 4
  | .q4s => 8

/-- R42: the scale byte and the group scale apply. -/
def scaled8 : BFmt → Bool
  | .bf16 | .f16 => false
  | _ => true

/-- R42: the scale byte. -/
def scaleOf (f : BFmt) (d : BitVec 16) : Nat := if scaled8 f then d.toNat / 256 else 128

/-- R36: the value of a code. -/
def q4nVal (c : Nat) : FVal :=
  let v := q4nLevels.getD c 0
  .fin (decide (v < 0)) v.natAbs (-7)

/-- R38: the kept offsets of a pattern. -/
def keptOf (p : Nat) : Nat × Nat := [(0, 1), (0, 2), (0, 3), (1, 2), (1, 3), (2, 3)].getD p (0, 1)

/-- R38: the value at a logical position of a Q4S sector. -/
def q4sVal (seed : Dword) (sector : Nat) (bytes : List Byte) (pos : Nat) : FVal :=
  let g := pos / 4
  let b := (bytes.getD g 0).toNat
  let k := keptOf (draw seed (num64 (sector * 64 + g)) % 6)
  if pos % 4 = k.1 then q4nVal (b % 16) else if pos % 4 = k.2 then q4nVal (b / 16) else .fin false 0 0

/-- R34, R37, R38, R353, R354: element j of a sector. -/
def elemVal (f : BFmt) (seed : Dword) (sector : Nat) (bytes : List Byte) (j : Nat) : FVal :=
  let byte (i : Nat) : Dword := (bytes.getD i 0).setWidth 64
  match f with
  | .bf16 => fDec bf16F (byte (2 * j) + 256 * byte (2 * j + 1))
  | .f16 => fDec f16F (byte (2 * j) + 256 * byte (2 * j + 1))
  | .f8e4 => fDec8 f8e4F (byte j)
  | .f8e5 => fDec8 f8e5F (byte j)
  | .i8 => let v := (bytes.getD j 0).toInt; .fin (decide (v < 0)) v.natAbs 0
  | .q4n => let b := (bytes.getD (j / 2) 0).toNat; q4nVal (if j % 2 = 0 then b % 16 else b / 16)
  | .q4s => q4sVal seed sector bytes j

/-- R42: the bits of an element. -/
def elemBits (d : BitVec 16) : Nat :=
  match bfmt d with
  | some .bf16 | some .f16 => 16
  | some .q4n | some .q4s => 4
  | _ => 8

/-- One of some values, unpredictably. -/
def pickOne (vs : List Nat) (s : State) : Nat × State :=
  match distinct vs with
  | [] => (0, s)
  | [v] => (v, s)
  | us =>
    let (x, s) := freshVal s
    (us.getD (x.toNat % us.length) 0, s)

/-- R288, R361: each element of w bits is, unpredictably, one of those that some runs of bytes hold at its place. -/
def pickElems (w : Nat) (runs : List (List Byte)) (s : State) : List Byte × State :=
  let n := (runs.headD []).length
  let r := (List.range (8 * n / w)).foldl (fun (a : Nat × State) i =>
    let x := pickOne (runs.map fun bs => leNat bs / 2 ^ (w * i) % 2 ^ w) a.2
    (a.1 + x.1 * 2 ^ (w * i), x.2)) (0, s)
  (leBytes n r.1, r.2)

/-- R288: what the bytes from `base` on have held since they were as in `old`, by the stores recorded since, up to now. -/
def heldRuns (log : List Stored) (base : Nat) (old now : List Byte) : List (List Byte) :=
  (log.foldl (fun (acc : List (List Byte)) e =>
    match e.bytes.filter fun b => decide (base ≤ b.1) && decide (b.1 < base + old.length) with
    | [] => acc
    | bs => acc ++ [bs.foldl (fun run b => run.set (b.1 - base) b.2) (acc.getLastD old)]) [old]) ++ [now]

/-- R41, R288: and what the descriptor of a sector has been, whole. -/
def heldDescs (log : List Stored) (sector : Nat) (old now : BitVec 16) : List Nat :=
  old.toNat :: (log.flatMap fun e => (e.descs.filter fun d => d.1 = sector).map fun d => d.2.toNat) ++ [now.toNat]

/-- A sector that a step reads: where it stands, its index in the operand, its descriptor and its bytes. -/
structure Sector where
  addr : Nat
  l : Nat
  desc : BitVec 16
  bytes : List Byte
  deriving DecidableEq, Repr

/-- The stores to the scratchpad since a gang's `mopf`, and to the weight buffer since the acceptance. -/
def aLog (s : State) (core : Nat) (x : MmaSide) (rank : Nat) : List Stored := (coreOf s core).spadLog.drop (x.marks.getD rank 0)
def bLog (m : Matrix) (x : MmaSide) : List Stored := m.wlog.drop x.wmark

/-- The descriptor of an A sector, by scratch address, as the step finds it. -/
def aDesc (s : State) (core : Nat) (x : MmaSide) (rank addr : Nat) (z : State) : BitVec 16 × State :=
  let sec := (x.base + addr) / 64
  let r := pickOne (heldDescs (aLog s core x rank) sec (find resetDesc (addr / 64) ((x.rows.getD rank ([], [])).2))
    (spadDescAt s core sec)) z
  (BitVec.ofNat 16 r.1, r.2)

def bDesc (m : Matrix) (x : MmaSide) (off : Nat) (z : State) : BitVec 16 × State :=
  let r := pickOne (heldDescs (bLog m x) (off / 64) (find resetDesc (off / 64) x.wdesc) (find resetDesc (off / 64) m.wdesc)) z
  (BitVec.ofNat 16 r.1, r.2)

/-- R353: an A sector. -/
def readA (s : State) (core : Nat) (x : MmaSide) (rank addr l : Nat) (z : State) : Sector × State :=
  let d := aDesc s core x rank addr z
  let b := pickElems (elemBits d.1) (heldRuns (aLog s core x rank) (x.base + addr)
    (findAll 0 addr 64 ((x.rows.getD rank ([], [])).1)) (spadRun s core (x.base + addr) 64)) d.2
  (⟨addr, l, d.1, b.1⟩, b.2)

/-- R354: a B sector. -/
def readB (m : Matrix) (x : MmaSide) (off l : Nat) (z : State) : Sector × State :=
  let d := bDesc m x off z
  let b := pickElems (elemBits d.1) (heldRuns (bLog m x) off (findAll 0 off 64 x.wbuf) (findAll 0 off 64 m.wbuf)) d.2
  (⟨off, l, d.1, b.1⟩, b.2)

def readAll (f : Nat → State → Sector × State) (n : Nat) (z : State) : List Sector × State :=
  (List.range n).foldl (fun a i =>
    let r := f i a.2
    (a.1 ++ [r.1], r.2)) ([], z)

/-- R43, R363: the group scale of a sector, as an f32 value; or a translation failure with the entry's address. Past the address space
XKIND and XLEVEL are 0 (assumption 85). -/
def groupScale (s : State) (core ctx : Nat) (table : Dword) (f : BFmt) (l : Nat) : Except (Word × Dword) FVal :=
  if table = 0 ∨ !scaled8 f then .ok (.fin false 1 0)
  else
    let va := table + num64 (4 * (l / 256))
    if 2 ^ 52 ≤ va.toNat then .error (cause cXLATE, va)
    else match reach s ctx needR va.toNat with
    | .pa a => .ok (fDec f32F (num64 (leNat (memRun s (dieOf core) a 4))))
    | .bad c => .error (c, va)
    | .miss => .error (cause cXLATE, va)

/-! ## A step -/

/-- The operands of one step, checked. -/
structure StepIn where
  a : List Sector
  b : List Sector
  fa : BFmt
  fb : BFmt
  ga : List FVal
  gb : List FVal
  deriving DecidableEq, Repr

def scales (s : State) (core ctx : Nat) (table : Dword) (f : BFmt) (xs : List Sector) : Except (Word × Dword) (List FVal) :=
  xs.mapM fun x => groupScale s core ctx table f x.l

/-- R353 to R355, R363: read and check what the step reads; the state carries the free choices made. DESIGN CHOICE (assumption 99): all
the group scales of A come before those of B. -/
def stepIn (s : State) (core ctx : Nat) (c : ContBlock) (x : MmaSide) : Except (Word × Dword) StepIn × State :=
  let m := mxOf s core
  let da := aDesc s core x 0 (c.abase.headD 0) s
  let db := bDesc m x c.boff da.2
  let fa := bfmt da.1
  let fb := bfmt db.1
  let ra := c.kb / ((fa.map kps).getD 1)
  let rb := c.kb / ((fb.map kps).getD 1)
  let base := c.abase.getD c.slab 0
  let aAddr (r : Nat) : Nat := base + 64 * (16 * ra + r)
  let bOff (col : Nat) : Nat := c.boff + 64 * (64 * rb + col)
  match (List.range 16).find? fun r => x.size < aAddr r + 64 with
  | some r => (.error (cause cRANGE, num64 (aAddr r)), db.2)
  | none =>
    match (List.range 64).find? fun i => 262144 < bOff i + 64 with
    | some i => (.error (cause cRANGE, num64 (bOff i)), db.2)
    | none =>
      let as := readAll (fun r => readA s core x c.slab (aAddr r) (ra * (16 * c.nslab) + 16 * c.slab + r)) 16 db.2
      let bs := readAll (fun i => readB m x (bOff i) (64 * rb + i)) 64 as.2
      let bad (f : Option BFmt) (q : Sector) : Bool := f = none || bfmt q.desc ≠ f
      match as.1.find? fun q => bad fa q || fa = some .q4s with
      | some q => (.error (cause cOPFORMAT, num64 q.addr), bs.2)
      | none =>
        match bs.1.find? (bad fb) with
        | some q => (.error (cause cOPFORMAT, num64 q.addr), bs.2)
        | none =>
          match fa, fb with
          | some fa, some fb =>
            (match scales s core ctx c.gsa fa as.1, scales s core ctx c.gsb fb bs.1 with
              | .ok ga, .ok gb => .ok ⟨as.1, bs.1, fa, fb, ga, gb⟩
              | .error e, _ => .error e
              | _, .error e => .error e, bs.2)
          | _, _ => (.error (cause cOPFORMAT, 0), bs.2)

def rne32 (v : FVal) : Dword := (fOut f32F .rne v).1
def val32 (x : Dword) : FVal := fDec f32F x
def mxAdd (a b : FVal) : FVal := (fAddV .rne a b).1
def mxMul (a b : FVal) : FVal := (fMulV a b).1

/-- R44: the exact dot product of a k-block. -/
def dotExact : List (FVal × FVal) → FVal
  | [] => .fin false 0 0
  | [p] => mxMul p.1 p.2
  | p :: ps => mxAdd (mxMul p.1 p.2) (dotExact ps)

/-- R44: the term of a k-block. -/
def mxTerm (xs ys : List FVal) (ba bb : Nat) (ga gb : FVal) : Dword :=
  let p := rne32 (dotExact (xs.zip ys))
  let g := rne32 (mxMul ga gb)
  let pm := rne32 (mxMul (val32 p) (.fin false (ba * bb) (-14)))
  rne32 (mxMul (val32 pm) (val32 g))

def isFin (x : FVal) : Bool := match x with | .fin .. => true | _ => false

/-- R44: add a term into a pair; S stands in bits 31:0, C in bits 63:32. -/
def addTerm (pair t : Dword) : Dword :=
  let sv := val32 (lo32 pair)
  let cv := val32 (pair >>> 32)
  let sum := mxAdd sv (val32 t)
  let s' := rne32 sum
  let c' := if isFin (val32 s') then rne32 (mxAdd cv (mxAdd sum (val32 s').flip)) else 0
  lo32 s' ||| c' <<< 32

def pairKey (tile row col : Nat) : Nat := (tile * 96 + row) * 64 + col

/-- The 32 elements of a k-block in a sector. -/
def blockVals (f : BFmt) (seed : Dword) (q : Sector) (kb : Nat) : List FVal :=
  (List.range 32).map fun i => elemVal f seed q.l q.bytes (32 * (kb % kps f) + i)

/-- R358: add the terms of one k-block of one slab into the tile. -/
def addStep (c : ContBlock) (i : StepIn) (tiles : AMap Dword) : AMap Dword :=
  let xs := i.a.map fun q => blockVals i.fa 0 q c.kb
  let ys := i.b.map fun q => blockVals i.fb c.seedb q c.kb
  (List.range 16).foldl (fun m r => (List.range 64).foldl (fun m col =>
    let key := pairKey c.tile (16 * c.slab + r) col
    let old := if c.z && c.kb = 0 then 0 else find 0 key m
    let t := mxTerm (xs.getD r []) (ys.getD col []) (scaleOf i.fa ((i.a.map (·.desc)).getD r 0))
      (scaleOf i.fb ((i.b.map (·.desc)).getD col 0)) (i.ga.getD r (.fin false 1 0)) (i.gb.getD col (.fin false 1 0))
    put 0 key (addTerm old t) m) m) tiles

/-- R358: the next step. -/
def advance (c : ContBlock) : ContBlock :=
  if c.kb + 1 < c.nkb then { c with kb := c.kb + 1 } else { c with kb := 0, slab := c.slab + 1 }

def stepsDone (c : ContBlock) : Bool := c.nslab ≤ c.slab

/-! ## Which operation runs -/

/-- R358: no earlier `mma` on the tile is unfinished. -/
def mayStart (q : List MxOp) (o : MxOp) (tile : Nat) : Bool :=
  q.all fun p => decide (o.id ≤ p.id) || p.done || match p.kind with | .mma c _ => c.tile ≠ tile | _ => true

def startedOp (o : MxOp) : Bool :=
  match o.kind with
  | .mma c x => !o.done && decide (c.st = 0) && x.started && !stepsDone c
  | _ => false

def startable (q : List MxOp) (o : MxOp) : Bool :=
  match o.kind with
  | .mma c _ => !o.done && decide (c.st = 0) && !stepsDone c && mayStart q o c.tile
  | _ => false

/-- R404: the crew's region stands in the core. -/
def regionHere (s : State) (crew : Nat) : Bool := (look crew s.crews).all fun c => !c.saved || regionLeft c = [(c.base, c.size)]

/-- R399, R405: no step is taken for a context that vacates the core, nor for a crew that is stopped or saved, but for an operation
that was split and has been resumed. -/
def opHalted (s : State) (core : Nat) (o : MxOp) : Bool :=
  isVacated s core o.ctx || (crewHalted s o.crew && !(startedOp o && regionHere s o.crew))

/-- R358: the operation whose step the array takes next: the one that runs, or the first that may start. -/
def runningOp (s : State) (core : Nat) : Option MxOp :=
  let q := (mxOf s core).queue
  match q.find? startedOp with
  | some o => if opHalted s core o then none else some o
  | none => q.find? fun o => startable q o && !opHalted s core o

/-! ## Tile moves -/

/-- R368: where byte q of the transfer stands, in the scratchpad or in memory. -/
def moveByte (m : TileMove) (q : Nat) : Nat :=
  match m.scratch with
  | some a => a + q
  | none =>
    match m.pas.find? fun p => decide (p.scratch ≤ q) && decide (q < p.scratch + p.n) with
    | some p => p.pa + (q - p.scratch)
    | none => 0

def moveKey (m : TileMove) (i : Nat) : Nat := pairKey m.tile (16 * m.f + i / 64) (i % 64)

def elemBytes (m : TileMove) : Nat := tyBytes m.t

/-- R368: the bits that `mst` writes for a pair. -/
def pairOut (t : Ty) (p : Dword) : Dword :=
  match t with
  | .f32 => rne32 (mxAdd (val32 (lo32 p)) (val32 (p >>> 32)))
  | .f64 => (fOut f64F .rne (mxAdd (val32 (lo32 p)) (val32 (p >>> 32)))).1
  | _ => p

/-- R368: the pair that `mld` makes of the bits it reads. -/
def pairIn (t : Ty) (v : Dword) : Dword :=
  match t with
  | .f32 => lo32 v
  | .f64 =>
    let x := fDec f64F v
    let s := rne32 x
    let c := if isFin (val32 s) then rne32 (mxAdd x (val32 s).flip) else 0
    lo32 s ||| c <<< 32
  | _ => v

/-- The array is part of the way through an operation. -/
def midRun (c : ContBlock) (x : MmaSide) : Bool := x.started || decide (c.st ≠ 0) || decide (0 < c.slab + c.kb)

/-- R362: the tiles as a store of a tile sees them: whole operations only, so one under way has not been made. -/
def restTiles (m : Matrix) (tile : Nat) : AMap Dword :=
  (m.queue.findSome? fun o => match o.kind with
    | .mma c x => if !o.done && decide (c.tile = tile) && midRun c x then some x.before else none
    | _ => none).getD m.tiles

/-- R22, R362: the tile as it was before the operations that have ended on it and that no `wait` of the storing gang had covered when
its `mst` issued, the latest first. -/
def tilesBefore (x : Matrix) (m : TileMove) : List (AMap Dword) :=
  ((x.last.filter fun e => e.1 = m.tile).takeWhile fun e => !m.seen.contains e.2.1).map (·.2.2)

/-- R22, R362: the pair that an `mst` reads: as it is, or as it was before one of those operations. -/
def pairRead (x : Matrix) (m : TileMove) (i : Nat) (s : State) : Dword × State :=
  let now := find 0 (moveKey m i) (restTiles x m.tile)
  match ((tilesBefore x m).map (find 0 (moveKey m i))).filter (· ≠ now) with
  | [] => (now, s)
  | vs =>
    let (v, s) := freshVal s
    ((now :: vs).getD (v.toNat % (vs.length + 1)) now, s)

/-- Store one element. -/
def storeElem (core : Nat) (m : TileMove) (i : Nat) (s : State) : State :=
  let p := pairRead (mxOf s core) m i s
  let bs := at' (moveByte m (elemBytes m * i)) (leBytes (elemBytes m) (pairOut m.t p.1).toNat)
  match m.scratch with
  | some _ => setSpad core bs p.2
  | none => engineWrite (dieOf core) bs [] p.2

/-- Lists of n bytes, in order. -/
def splitEvery (n : Nat) : Nat → List Byte → List (List Byte)
  | 0, _ => []
  | k + 1, bs => bs.take n :: splitEvery n k (bs.drop n)

/-- What a transfer reads of memory or of the scratchpad, run by run. -/
def mxSrc (s : State) (core : Nat) (kind : MxKind) : List (List Byte) :=
  match kind with
  | .move m =>
    if !m.load then []
    else match m.scratch with
      | some a => [spadRun s core a (1024 * m.n * elemBytes m)]
      | none => m.pas.map fun p => memRun s (dieOf core) p.pa p.n
  | .wbload _ ms _ => ms.map fun p => memRun s (dieOf core) p.pa p.n
  | .mma .. => []

/-- Load all the elements of a move. -/
def loadElems (core : Nat) (o : MxOp) (m : TileMove) (s : State) : State :=
  let r := readWords 0 o.src.flatten (mxSrc s core o.kind).flatten s
  let pairs := (splitEvery (elemBytes m) (1024 * m.n) r.1).mapIdx fun i bs => (moveKey m i, pairIn m.t (num64 (leNat bs)))
  updMx core (fun x => { x with tiles := pairs.foldl (fun t p => put 0 p.1 p.2 t) x.tiles }) r.2

/-- The elements of a store that are still to be moved. -/
def leftElems (m : TileMove) : List Nat := (List.range (1024 * m.n)).filter fun i => !m.part.contains i

/-- R362: no operation of the array is at work on the tile. -/
def tileIdle (q : List MxOp) (tile : Nat) : Bool :=
  q.all fun o => match o.kind with
    | .mma c x => o.done || c.tile ≠ tile || !midRun c x
    | _ => true

/-- R364: no operation on the tile is split by a fault. -/
def tileWhole (q : List MxOp) (tile : Nat) : Bool :=
  q.all fun o => match o.kind with
    | .mma c _ => o.done || c.tile ≠ tile || c.st ≠ 2
    | _ => true

/-- R287: a transfer starts once what its issuer issued before it is performed, and what its core asked of its lines; R399: that of a
crew that is being stopped or is saved starts after its restoration. -/
def moveStarts (s : State) (core : Nat) (o : MxOp) : Bool :=
  !o.done && !o.started && !crewHalted s o.crew && loadsDone s o.gang o.act o.id && linesClear s core o.id (mxLines o.kind).contains &&
    match o.kind with | .mma .. => false | _ => true

/-- R287, R327: the transfers that can start do: from here on others' accesses race with them. -/
def startMoves (s : State) : State :=
  s.cores.foldl (fun s c =>
    c.2.mx.queue.foldl (fun s o =>
      if moveStarts s c.1 o then updMxOp c.1 o.id (fun o => { o with started := true, src := mxSrc s c.1 o.kind }) s else s) s) s

/-- R362, R364, R367: a transfer is in flight: it has started, and no operation of its tile stands in its way; a store of which
elements have been moved goes on. -/
def moveFlies (q : List MxOp) (o : MxOp) : Bool :=
  o.started && !o.done &&
    match o.kind with
    | .move m => if m.load then tileIdle q m.tile else !m.part.isEmpty || tileWhole q m.tile
    | .wbload .. => true
    | .mma .. => false

/-- R411, R417: a transfer in flight can be made. -/
def moveReady (s : State) (core : Nat) (o : MxOp) : Bool :=
  moveFlies (mxOf s core).queue o && linesUp s (some (dieOf core)) (mxLines o.kind)

/-- R22, R362: what a tile held before an operation that has ended on it. -/
def noteLast (tile id : Nat) (before : AMap Dword) (core : Nat) (s : State) : State :=
  updMx core (fun m => { m with last := (tile, id, before) :: m.last }) s

/-- An operation is over. -/
def endMx (core id : Nat) (s : State) : State := retireMx core (updMxOp core id (fun o => { o with done := true }) s)

/-- A load of a tile is made. -/
def loadTile (core : Nat) (o : MxOp) (m : TileMove) (s : State) : State :=
  noteLast m.tile o.id (mxOf s core).tiles core (loadElems core o m s)

/-- R362: a store of a tile moves some of the elements it has left, unpredictably. -/
def storeSome (core : Nat) (o : MxOp) (m : TileMove) (s : State) : State :=
  let p := pickSome (leftElems m) s
  p.1.foldl (fun s i => updMxOp core o.id (fun o => match o.kind with
      | .move m => { o with kind := .move { m with part := i :: m.part } }
      | _ => o) (storeElem core m i s)) p.2

/-- R22, R362: an operation is about to change a tile: of the other transfers outstanding on it that can be made, a load is made now
or later, wholly, and each element of a store now or later, freely. -/
def splitMoves (core tile self : Nat) (s : State) : State :=
  (mxOf s core).queue.foldl (fun s o =>
    match o.kind with
    | .move m =>
      if o.id = self ∨ m.tile ≠ tile ∨ !moveReady s core o then s
      else if m.load then
        let (c, s) := freshCoin s
        if c then endMx core o.id (loadTile core o m s) else s
      else storeSome core o m s
    | _ => s) s

/-! ## Array steps -/

/-- R362: the tiles as they stood before an operation made its first step. -/
def tileBefore (s : State) (core : Nat) (c : ContBlock) (x : MmaSide) : AMap Dword :=
  if c.slab = 0 ∧ c.kb = 0 then (mxOf s core).tiles else x.before

/-- R43: the lines of the group scales that a step may read, whatever the formats. -/
def scaleLines (s : State) (ctx : Nat) (table : Dword) (ls : Nat → List Nat) : List Nat :=
  if table = 0 then []
  else (distinct ([1, 2, 4, 8].flatMap fun n => (ls n).map (· / 256))).filterMap fun i =>
    match reach s ctx needR (table + num64 (4 * i)).toNat with
    | .pa a => some (lineOf a)
    | _ => none

/-- R287, R363: the group scales that a step reads come after what the troupe has issued before the operation. -/
def scalesClear (s : State) (core : Nat) (o : MxOp) (c : ContBlock) (x : MmaSide) : Bool :=
  (c.gsa = 0 && c.gsb = 0) ||
    let ls := scaleLines s o.ctx c.gsa (fun n => (List.range 16).map fun r => c.kb / n * (16 * c.nslab) + 16 * c.slab + r)
      ++ scaleLines s o.ctx c.gsb (fun n => (List.range 64).map fun i => 64 * (c.kb / n) + i)
    x.members.all (fun k => loadsDone s k allLanes o.id) && linesClear s core o.id ls.contains && linesUp s (some (dieOf core)) ls

/-- R364: the block of an operation that splits with a fault. -/
def splitFault (core : Nat) (o : MxOp) (c : ContBlock) (x : MmaSide) (e : Word × Dword) (s : State) : State :=
  updMxOp core o.id (fun o =>
    { o with kind := .mma { c with st := 2, cause := e.1, taddr := e.2 } { x with started := false, sent := false, before := tileBefore s core c x } }) s

/-- R358, R363, R364: one step of the array. -/
def execMatrixStep (core : Nat) (s : State) : Outc :=
  match runningOp s core with
  | none => .fault .notEnabled
  | some o =>
    match o.kind with
    | .mma c x =>
      if !scalesClear s core o c x then .fault .notEnabled
      else
      let r := stepIn s core o.ctx c x
      match r.1 with
      | .error e => .next (splitFault core o c x e r.2)
      | .ok i =>
        let s := if x.started then r.2 else splitMoves core c.tile o.id r.2
        let x := if x.started then x else { x with started := true, before := tileBefore s core c x }
        let s := updMx core (fun m => { m with tiles := addStep c i m.tiles }) s
        .next (perfCount core o.ctx 0x0A 1 (updMxOp core o.id (fun o => { o with kind := .mma (advance c) x }) s))
    | _ => .fault .notEnabled

def mmaEnded (o : MxOp) : Bool :=
  match o.kind with
  | .mma c _ => !o.done && decide (c.st = 0) && stepsDone c
  | _ => false

/-- R359: the last pair of an operation is written, and its counts are removed. -/
def execMmaComplete (core : Nat) (s : State) : Outc :=
  match (mxOf s core).queue.find? mmaEnded with
  | none => .fault .notEnabled
  | some o =>
    match o.kind with
    | .mma c x => .next (endMx core o.id (noteLast c.tile o.id x.before core s))
    | _ => .fault .notEnabled

/-! ## Faults of split operations -/

/-- R365: the lead gang's first split operation not yet delivered, in ascending tile order; of a lead gang that has ended, the first
split one. -/
def splitOf (s : State) (q : List MxOp) (k : Nat) : Option MxOp :=
  let mine := q.filter fun o => match o.kind with
    | .mma c x => !o.done && decide (c.st = 2) && (!x.sent || (look k s.gangs).isNone) && x.members.head? = some k
    | _ => false
  mine.foldl (fun best o =>
    match best with
    | none => some o
    | some b => if (tileOf o).getD 0 < (tileOf b).getD 0 then some o else some b) none

def markSent (o : MxOp) : MxOp :=
  match o.kind with
  | .mma c x => { o with kind := .mma c { x with sent := true } }
  | _ => o

def splitCause (o : MxOp) : Word × Dword := match o.kind with | .mma c _ => (c.cause, c.taddr) | _ => (0, 0)

/-- R365: the lead gang waits in `wait` or `sleep`. -/
def abandons (w : WaitKind) : Bool := match w with | .counters .. | .sleep .. => true | _ => false

/-- R365: the group at which the fault is delivered: the one that would issue, or the one of an abandoned wait. -/
def faultGroup (s : State) (k : Nat) (g : Gang) : Option (BitVec 64 × Pc) :=
  let w := lanesWhere (fun f => f.life = .live && f.gwait.any fun w => abandons w.kind && decide (w.nxt ≠ f.pc)) g
  match lanesOf w with
  | i :: _ => (fibreAt g i).map fun f => (w, f.pc)
  | [] => pickGroup s k g

/-- The abandoned wait is gone, without effect. -/
def abandon (g : Gang) : Gang :=
  onLanes (lanesWhere (fun f => f.life = .live && f.gwait.any fun w => abandons w.kind) g) (fun _ f => { f with gwait := none }) g

/-- R69, R365: the lead gang's next issue is at hand: it takes no decode-class fault, which would come first. -/
def issueSettled (s : State) (k : Nat) (g : Gang) : Bool :=
  (g.fibres.any fun f => f.life = .live && f.gwait.any fun w => abandons w.kind) ||
    match pickGroup s k g with
    | some (_, pc) => (match fetch s g pc with | .instr i => (decodeFault s g i).isNone | _ => false)
    | none => false

/-- R365, R382, R386: deliver a split operation's fault to its lead gang; where that gang has ended, the operation ends with the steps it
has made. None where no fault can be delivered. -/
def deliverFault (k : Nat) (s : State) : Option State :=
  match s.cores.findSome? fun c => (splitOf s c.2.mx.queue k).map fun o => (c.1, o) with
  | none => none
  | some (core, o) =>
    match look k s.gangs with
    | none => some (endMx core o.id s)
    | some g =>
      if g.stop ≠ .running ∨ !gangRuns s k g ∨ pendDue s k g ∨ !issueSettled s k g then none
      else
        (faultGroup s k g).map fun x =>
          let recs := (lanesOf x.1).map fun i => (⟨i, (splitCause o).1, (splitCause o).2, x.2⟩ : TrapRec)
          takeTrapRecs k recs (updGang k abandon (updMxOp core o.id markSent s))

/-- R157, R365: the fault is delivered with the gang's fibres past their fill words. -/
def execMatrixFaultDelivery (k : Nat) (s : State) : Outc :=
  match deliverFault k (settleFills k s) with
  | some t => .next t
  | none => .fault .notEnabled

/-- R366: the faulted block of a tile whose troupe the gang belongs to. -/
def contOf (s : State) (x : Iss) (tile : Nat) : Option MxOp :=
  (mxOf s x.g.core).queue.find? fun o => match o.kind with
    | .mma c y => !o.done && decide (c.st = 2) && decide (c.tile = tile) && decide (o.crew = x.g.crew) && c.mask.getLsbD x.g.num
        && (y.members.head?).any fun k => (look k s.gangs).isSome
    | _ => false

/-- R349, R366. DESIGN CHOICE (assumption 97): the operands of the remainder keep the bounds of the first acceptance (R288, R361), so a
sector repaired before the `mcont` may still be read as it was. -/
def execMcont (h : Hd) (tile : Fin 8) (s : State) : Outc :=
  issue (.mcont h tile) h .mt noGate (gangOnce fun x s =>
    match engineCheck s x true with
    | some f => faultAll x f.1 f.2 s
    | none =>
      match contOf s x tile with
      | none => faultAll x (troupeBad 6).1 (troupeBad 6).2 s
      | some o => updMxOp x.g.core o.id (fun o => match o.kind with
          | .mma c y => { o with kind := .mma { c with st := 0 } y }
          | _ => o) s) s

/-! ## `mld`, `mst` and `wbload` -/

/-- R347: an immediate offset is 32 bits, sign-extended. -/
def tileOff (x : Iss) (o : Opnd) : Dword :=
  match o, x.h.ext with
  | .imm, .ext64 lo _ => lo.signExtend 64
  | _, _ => uniVal x .i64 o

/-- R369: the check of a move: its bytes, or the fault. -/
def tileCheck (s : State) (x : Iss) (o : TileMem) (load : Bool) : Except (Word × Dword) (List CopyMove) :=
  let e := tyBytes o.t
  let bytes := 1024 * (o.n1.val + 1) * e
  let ea := uniVal x .n64 o.a + tileOff x o.b
  if !holdsEngine s x.g then .error (cause cPROT, 0)
  else if o.scratch then
    if scratchSize s x.g < ea.toNat + bytes then .error (cause cRANGE, ea + num64 bytes)
    else if ea.toNat % e ≠ 0 then .error (cause cMISALIGN, ea)
    else .ok []
  else if 2 ^ 52 ≤ ea.toNat then .error (cause cRANGE, ea)
  else if ea.toNat % e ≠ 0 then .error (cause cMISALIGN, ea)
  else findMoves s x.g.ctx (if load then needR else needW) 0 (pieces ea.toNat bytes)

/-- R269, R439: the walks that a transfer's translation starts, where its checks come to it. -/
def mxWalks (x : Iss) (ps : List (Nat × Nat)) (r : Except (Word × Dword) (List CopyMove)) (s : State) : State :=
  let come : Bool := match r with
    | .ok _ => true
    | .error e => e.1 = cause cXLATE || e.1.toNat % 256 = cXLATE || (e.1.toNat % 256 = cPROT && decide (e.1 ≠ cause cPROT))
  if come then countWalks x.g.core x.g.ctx ps r s else s

/-- R411, R417: a transfer whose checks must walk waits while the tables cannot be reached. -/
def walksGate (ps : Iss → List (Nat × Nat)) (x : Iss) (s : State) : Option State :=
  let ls := missLines s x.g.core x.g.ctx ((ps x).map (·.1))
  if x.act = 0 ∨ linesUp s (some (dieOf x.g.core)) ls then none else some (rouse (some (dieOf x.g.core)) ls s)

/-- The pages that a move of a tile translates. -/
def tilePieces (o : TileMem) (x : Iss) : List (Nat × Nat) :=
  let ea := uniVal x .n64 o.a + tileOff x o.b
  if o.scratch then [] else pieces ea.toNat (1024 * (o.n1.val + 1) * tyBytes o.t)

def wbPieces (b c : Opnd) (x : Iss) : List (Nat × Nat) := pieces (uniVal x .n64 b).toNat (uniVal x .n32 c).toNat

/-- R368, R369. -/
def tileOp (o : TileMem) (load : Bool) (x : Iss) (s : State) : State :=
  let ea := uniVal x .n64 o.a + tileOff x o.b
  let r := tileCheck s x o load
  let s := mxWalks x (tilePieces o x) r s
  match r with
  | .error f => faultAll x f.1 f.2 s
  | .ok ms =>
    let m : TileMove :=
      { load := load, tile := o.tile, f := o.f, n := o.n1.val + 1, t := o.t
        scratch := if o.scratch then some (scratchBase s x.g + ea.toNat) else none, pas := ms, part := [], seen := x.g.mtSeen }
    acceptMx x [x.k] (.move m) s

/-- R368, R369. -/
def execMld (h : Hd) (o : TileMem) (s : State) : Outc :=
  issue (.mld h o) h .mt (walksGate (tilePieces o)) (gangOnce (tileOp o true)) s

/-- R368, R369. -/
def execMst (h : Hd) (o : TileMem) (s : State) : Outc :=
  issue (.mst h o) h .mt (walksGate (tilePieces o)) (gangOnce (tileOp o false)) s

/-- R368, R369: the transfer is made, and the count is removed. -/
def execTileMoveComplete (core id : Nat) (s : State) : Outc :=
  match (mxOf s core).queue.find? fun o => o.id = id with
  | none => .fault .notEnabled
  | some o =>
    match moveReady s core o, o.kind with
    | true, .move m =>
      if m.load then .next (endMx core id (loadTile core o m (splitMoves core m.tile id s)))
      else .next (endMx core id ((leftElems m).foldl (fun s i => storeElem core m i s) s))
    | _, _ => .fault .notEnabled

/-- R370: the checks, and where the bytes stand. -/
def wbCheck (s : State) (x : Iss) (off va : Dword) (len : Nat) : Except (Word × Dword) (List CopyMove) :=
  if !holdsEngine s x.g then .error (cause cPROT, 0)
  else if len = 0 ∨ 262144 < len then .error (cause cRANGE, num64 len)
  else if 262144 < off.toNat + len then .error (cause cRANGE, off + num64 len)
  else if 2 ^ 52 ≤ va.toNat then .error (cause cRANGE, va)
  else if off.toNat % 64 ≠ 0 then .error (cause cMISALIGN, off)
  else if va.toNat % 64 ≠ 0 then .error (cause cMISALIGN, va)
  else if len % 64 ≠ 0 then .error (cause cMISALIGN, num64 len)
  else findMoves s x.g.ctx needR off.toNat (pieces va.toNat len)

/-- R370. -/
def execWbload (h : Hd) (a b c : Opnd) (s : State) : Outc :=
  issue (.wbload h a b c) h .mt (walksGate (wbPieces b c)) (gangOnce fun x s =>
    let off := uniVal x .n32 a
    let va := uniVal x .n64 b
    let len := (uniVal x .n32 c).toNat
    let r := wbCheck s x off va len
    let s := mxWalks x (wbPieces b c x) r s
    match r with
    | .error f => faultAll x f.1 f.2 s
    | .ok ms => acceptMx x [x.k] (.wbload off.toNat ms []) s) s

/-- R361, R370: a store to the weight buffer. -/
def storeWeights (core : Nat) (w : Stored) (s : State) : State :=
  updMx core (fun x =>
    { x with wbuf := w.bytes.foldl (fun m b => put 0 b.1 b.2 m) x.wbuf
             wdesc := w.descs.foldl (fun m d => put resetDesc d.1 d.2 m) x.wdesc, wlog := x.wlog ++ [w] }) s

/-- The words that a `wbload` has still to move. -/
def wbLeft (o : MxOp) : List (Nat × (CopyMove × List Byte)) :=
  match o.kind with
  | .wbload _ ms part => leftWords (moveWords true ms o.src) part
  | _ => []

/-- R327, R370: one word of a `wbload` is moved. -/
def wbWord (core id : Nat) (w : Nat × (CopyMove × List Byte)) (s : State) : State :=
  let r := readWords w.2.1.pa w.2.2 (memRun s (dieOf core) w.2.1.pa w.2.1.n) s
  updMxOp core id (fun o => match o.kind with
    | .wbload off ms part => { o with kind := .wbload off ms (w.1 :: part) }
    | _ => o) (storeWeights core ⟨at' w.2.1.scratch r.1, []⟩ r.2)

/-- R361, R370. -/
def execWbloadComplete (core id : Nat) (s : State) : Outc :=
  match (mxOf s core).queue.find? fun o => o.id = id with
  | none => .fault .notEnabled
  | some o =>
    match moveReady s core o, o.kind with
    | true, .wbload _ ms _ =>
      let s := (wbLeft o).foldl (fun s w => wbWord core o.id w s) s
      let ds := ms.flatMap fun m => (moveSectors m).map fun c => (c.2, engineDesc s (dieOf core) c.1)
      .next (endMx core id (storeWeights core ⟨[], ds⟩ s))
    | _, _ => .fault .notEnabled

/-- R327, R361, R362: a core's stores of tiles and loads of the weight buffer that are under way move some of their parts,
unpredictably. -/
def advanceMoves (core : Nat) (s : State) : State :=
  (coreOf s core).mx.queue.foldl (fun s o =>
    if !moveReady s core o then s
    else match o.kind with
      | .move m => if m.load then s else storeSome core o m s
      | .wbload .. =>
        let p := pickSome ((wbLeft o).map (·.1)) s
        ((wbLeft o).filter fun w => p.1.contains w.1).foldl (fun s w => wbWord core o.id w s) p.2
      | .mma .. => s) s

end Sys2Proof.Machine
end

