-- ==== Sys2Proof/Machine/Collectives.lean ====
section
/-! DEFINITION. Cluster collectives (19 R372 to R381). -/

namespace Sys2Proof.Machine

/-! ## Groups -/

def updGroup (k : Nat) (f : Group → Group) (s : State) : State := { s with groups := adj k f s.groups }

/-- R372: a group's members all hold it. -/
def groupFormed (g : Group) : Bool :=
  (List.range 48).all fun c => !g.mask.getLsbD c || g.members.any fun m => m.cluster = c

/-- R372: the slots of a cluster's unit that groups hold. -/
def slotsUsed (s : State) (cluster : Nat) : List Nat :=
  (s.groups.filter fun g => !g.2.dissolved).flatMap fun g =>
    (g.2.members.filter fun m => m.cluster = cluster).map fun m => m.handle.toNat % 8

/-- R376: the group slot that a join takes. DESIGN CHOICE (assumption 102): the lowest free one. -/
def freeUnit (s : State) (cluster : Nat) : Option Nat := (List.range 8).find? fun k => !(slotsUsed s cluster).contains k

/-- R376: the mask is legal for a crew of the context in a cluster. -/
def groupMaskOk (s : State) (ctx cluster : Nat) (m : Dword) : Bool :=
  let part := ((look ctx s.ctxs).map (·.partition)).getD 0
  decide (m.toNat < 2 ^ 48) && decide (2 ≤ (lanesOf m).length) && m.getLsbD cluster
    && decide (m.setWidth 48 &&& ~~~part = 0)

/-- R376: a crew of the context in the cluster holds the tag. -/
def tagHeld (s : State) (ctx cluster : Nat) (tag : Word) : Bool :=
  s.groups.any fun g => !g.2.dissolved && g.2.ctx = ctx && g.2.tag = tag && g.2.members.any fun m => m.cluster = cluster

/-- R373: the groups with the tag and another mask that the joining crew's cluster is a member of. -/
def clashing (s : State) (ctx cluster : Nat) (mask : BitVec 48) (tag : Word) : List Nat :=
  (s.groups.filter fun g => !g.2.dissolved && g.2.ctx = ctx && g.2.tag = tag && g.2.mask ≠ mask
    && g.2.mask.getLsbD cluster).map (·.1)

/-- R381: a reused slot takes its tickets' statuses with it. -/
def reuseSlot (cluster slot : Nat) (s : State) : State :=
  { s with groups := (s.groups.map fun g => if g.2.dissolved then
      (g.1, { g.2 with members := g.2.members.filter fun m => m.cluster ≠ cluster || decide (m.handle.toNat % 8 ≠ slot) })
      else g).filter fun g => !g.2.dissolved || !g.2.members.isEmpty }

def joinSeq (s : State) (cluster : Nat) : Nat := (look cluster s.joins).getD 0

/-- R372, R376: a crew joins: it enters the group of its mask and tag, or makes it. DESIGN CHOICE (assumption 103): the unit's join
sequence counts the joins it has accepted, and the handle holds it as it was before. -/
def joinGroup (ctx crew cluster slot : Nat) (mask : BitVec 48) (tag : Word) (s : State) : Word × State :=
  let s := reuseSlot cluster slot s
  let seq := joinSeq s cluster
  let handle := BitVec.ofNat 32 (seq % 2 ^ 29 * 8 + slot)
  let m : Member := ⟨cluster, crew, handle, 0⟩
  let s := { s with joins := ins cluster (seq + 1) s.joins }
  match s.groups.find? fun g => !g.2.dissolved && g.2.ctx = ctx && g.2.tag = tag && g.2.mask = mask with
  | some g => (handle, updGroup g.1 (fun g => { g with members := g.members ++ [m] }) s)
  | none =>
    let (id, s) := freshId s
    (handle, { s with groups := ins id ⟨ctx, mask, tag, [m], false, [], []⟩ s.groups })

/-- R373, R376. -/
def execCgrp (h : Hd) (d a b : Opnd) (s : State) : Outc :=
  issue (.cgrp h d a b) h .none noGate (gangOnce fun x s =>
    let mask := uniVal x .n64 a
    let tag : Word := (uniVal x .n32 b).setWidth 32
    let cl := clusterOf x.g.core
    if !groupMaskOk s x.g.ctx cl mask then putScalar x 32 d 0xFFFFFFFE s
    else
      let held := tagHeld s x.g.ctx cl tag
      let s := (clashing s x.g.ctx cl (mask.setWidth 48) tag).foldl (fun s g => dissolve g s) s
      match freeUnit s cl with
      | none => putScalar x 32 d 0xFFFFFFFF s
      | some slot =>
        if held then putScalar x 32 d 0xFFFFFFFF s
        else
          let r := joinGroup x.g.ctx x.g.crew cl slot (mask.setWidth 48) tag s
          putScalar x 32 d (r.1.setWidth 64) r.2) s

/-- R373, R376. -/
def execCgrpFree (h : Hd) (b : Opnd) (s : State) : Outc :=
  issue (.cgrpFree h b) h .none noGate (gangOnce fun x s =>
    match heldGroup s x.g.crew ((uniVal x .n32 b).setWidth 32) with
    | some (k, _) => dissolve k s
    | none => s) s

/-! ## Requests -/

/-- R377: a member's request is numbered; on a dissolved group it is over at once, with status 2. -/
def numberReq (grp cluster : Nat) (r : CReq) (s : State) : State :=
  updGroup grp (fun g =>
    let g := { g with members := g.members.map fun (m : Member) => if m.cluster = cluster then { m with next := m.next + 1 } else m }
    if g.dissolved then { g with status := g.status ++ [(cluster, r.k, 2)] } else { g with reqs := g.reqs ++ [r] }) s

/-- R375: what the operands of a data collective come to. -/
structure CollArgs where
  cnt : Nat
  src : Nat
  dst : Nat
  srcLen : Nat
  dstLen : Nat
  deriving DecidableEq, Repr

/-- R375: the buffers, by kind: 0 `cag`, 1 `crs`, 2 `ca2a`. -/
def collArgs (kind e m : Nat) (w : Dword) : CollArgs :=
  let n := w.toNat / 2 ^ 36 % 2 ^ 17 * e
  { cnt := w.toNat / 2 ^ 36 % 2 ^ 17, src := w.toNat % 2 ^ 18, dst := w.toNat / 2 ^ 18 % 2 ^ 18
    srcLen := if kind = 0 then n else m * n, dstLen := if kind = 1 then n else m * n }

/-- R377: the checks in order, with the group, the member and the buffers. DESIGN CHOICE (assumption 104): within a check, SRC comes
before DST. -/
def collCheck (s : State) (x : Iss) (kind e : Nat) (handle w : Dword) :
    Except (Word × Dword) (Nat × Member × CollArgs) :=
  let cnt := w.toNat / 2 ^ 36 % 2 ^ 17
  if w.toNat / 2 ^ 53 ≠ 0 ∨ cnt = 0 ∨ 65536 < cnt then .error (cause cRANGE, w)
  else
    match heldGroup s x.g.crew (handle.setWidth 32) with
    | none => .error (cause cRANGE, handle)
    | some (grp, mem) =>
      let m := ((look grp s.groups).map fun g => (lanesOf (g.mask.setWidth 64)).length).getD 0
      let c := collArgs kind e m w
      let size := scratchSize s x.g
      if size < c.src + c.srcLen then .error (cause cRANGE, num64 (c.src + c.srcLen))
      else if size < c.dst + c.dstLen then .error (cause cRANGE, num64 (c.dst + c.dstLen))
      else if c.src % e ≠ 0 then .error (cause cMISALIGN, num64 c.src)
      else if c.dst % e ≠ 0 then .error (cause cMISALIGN, num64 c.dst)
      else .ok (grp, mem, c)

/-- R377: issue a data collective. -/
def collOp (kind : Nat) (t : Ty) (red : Red) (rm : Rm) (sat : Bool) (d a b : Opnd) (x : Iss) (s : State) : State :=
  let handle := uniVal x .n32 a
  match collCheck s x kind (tyBytes t) handle (uniVal x .n64 b) with
  | .error f => faultAll x f.1 f.2 s
  | .ok (grp, mem, c) =>
    let (id, s) := freshId s
    let r : CReq :=
      { k := mem.next, id := id, gang := x.k, act := x.act, core := x.g.core, crew := x.g.crew
        started := false, srcLen := c.srcLen, srcOld := [], dstLen := c.dstLen, hits := []
        cluster := mem.cluster, op := kind, ty := t, red := red, rm := rm, sat := sat, cnt := c.cnt, src := c.src, dst := c.dst }
    gangScalar x.k d (num64 mem.next <<< 32 ||| handle) (numberReq grp mem.cluster r s)

/-- R377, R379. -/
def execCag (h : Hd) (t : Ty) (d a b : Opnd) (s : State) : Outc :=
  issue (.cag h t d a b) h .none noGate (gangOnce (collOp 0 t .add .rne false d a b)) s

/-- R377, R379. -/
def execCrs (h : Hd) (o : Comb) (b : Opnd) (s : State) : Outc :=
  issue (.crs h o b) h .none noGate (gangOnce (collOp 1 o.t o.op o.rm o.sat o.d o.a b)) s

/-- R377, R379. -/
def execCa2a (h : Hd) (t : Ty) (d a b : Opnd) (s : State) : Outc :=
  issue (.ca2a h t d a b) h .none noGate (gangOnce (collOp 2 t .add .rne false d a b)) s

/-- R381: request k of the group with no data; a device-scope release, so the core's update-only lines are merged. DESIGN CHOICE
(assumption 105): a handle of no group that the crew holds gives status 4 (R378) at once. -/
def execCbar (h : Hd) (d a : Opnd) (s : State) : Outc :=
  issue (.cbar h d a) h .none noGate (gangOnce fun x s =>
    match heldGroup s x.g.crew ((uniVal x .n32 a).setWidth 32) with
    | none => gangScalar x.k d 4 s
    | some (grp, mem) =>
      let (id, s) := freshId (mergeUo x.g.core (fun _ => true) s)
      let r : CReq :=
        { k := mem.next, id := id, gang := x.k, act := x.act, core := x.g.core, crew := x.g.crew, started := false, srcLen := 0, srcOld := [], dstLen := 0, hits := []
          cluster := mem.cluster, op := 3, ty := .b32, red := .add, rm := .rne, sat := false, cnt := 0, src := 0, dst := 0 }
      wakeColl (numberReq grp mem.cluster r (gwaitAt x (.cbar grp mem.next d) s))) s

/-- R378, R381: a ticket of no request gives 4; a finished one its status, at once. -/
def execCwait (h : Hd) (d a : Opnd) (s : State) : Outc :=
  issue (.cwait h d a) h .none noGate (gangOnce fun x s =>
    let t := uniVal x .n64 a
    match heldGroup s x.g.crew (t.setWidth 32) with
    | none => gangScalar x.k d 4 s
    | some (grp, mem) =>
      if mem.next ≤ t.toNat / 2 ^ 32 then gangScalar x.k d 4 s
      else
        match statusAt s grp mem.cluster (t.toNat / 2 ^ 32) with
        | some st => gangScalar x.k d (num64 st) s
        | none => gwaitAt x (.cwait t d) s) s

/-! ## Performing a request -/

/-- The requests numbered k, in rank order. -/
def reqsOf (g : Group) (k : Nat) : List CReq :=
  let rs := g.reqs.filter fun r => r.k = k
  (List.range 48).filterMap fun c => rs.find? fun r => r.cluster = c

/-- R378: the fields that matching requests compare. -/
def sameReq (a b : CReq) : Bool :=
  a.op = b.op && a.ty = b.ty && a.red = b.red && a.rm = b.rm && a.sat = b.sat && a.cnt = b.cnt

/-- R380, R381: what a request waits for: the issuing gang's earlier accesses, and for `cbar` its device-scope release. -/
def reqReady (s : State) (r : CReq) : Bool :=
  (match look r.crew s.crews with | some c => !c.saved | none => true) &&
  if r.op = 3 then relDone s r.gang r.core allLanes .dev r.id else loadsDone s r.gang allLanes r.id

def reqBase (s : State) (r : CReq) : Nat := ((look r.crew s.crews).map (·.base)).getD 0

/-- R380: the requests that can start do: from here on others' accesses to their buffers race with them. -/
def startColls (s : State) : State :=
  let start (r : CReq) : CReq :=
    if !r.started && reqReady s r then { r with started := true, srcOld := spadRun s r.core (reqBase s r + r.src) r.srcLen } else r
  { s with groups := s.groups.map fun g => (g.1, { g.2 with reqs := g.2.reqs.map start }) }

/-- R411: the dies of the members reach each other. -/
def diesJoined (s : State) (rs : List CReq) : Bool :=
  let ds := distinct (rs.map fun r => dieOf r.core)
  ds.all fun a => ds.all fun b => sendUp s a b

/-- R372, R379, R397: every member has issued request k of a formed group, and none is pre-empted. -/
def collReady (s : State) (grp k : Nat) : Bool :=
  match look grp s.groups with
  | none => false
  | some g =>
    !g.dissolved && groupFormed g && decide ((reqsOf g k).length = (lanesOf (g.mask.setWidth 64)).length)
      && (reqsOf g k).all (fun r => r.started && reqReady s r) && diesJoined s (reqsOf g k) && g.members.all fun m => !crewHalted s m.crew

/-- R380: a send buffer: each word that has changed since issue is a free choice of old and new. -/
def sendBuf (now : State) (a : List (List Byte) × State) (r : CReq) : List (List Byte) × State :=
  let at0 := reqBase now r + r.src
  let z := readWords at0 r.srcOld (spadRun now r.core at0 r.srcLen) a.2
  (a.1 ++ [z.1], z.2)

/-- Block j of a buffer of blocks of n bytes. -/
def bufBlock (n j : Nat) (bs : List Byte) : List Byte := (bs.drop (n * j)).take n

def elemAt (e q : Nat) (bs : List Byte) : Dword := num64 (leNat ((bs.drop (e * q)).take e))

/-- R205, R379: combine one element position of the ranks' blocks, in ascending rank. -/
def combineElem (r : CReq) (xs : List Dword) : Dword :=
  let o : Comb := ⟨r.ty, r.red, r.rm, r.sat, .ic 32, .ic 32⟩
  match xs with
  | [] => 0
  | x :: xs => xs.foldl (fun a y => (combStep o a y).1) x

/-- R379: what member j receives. -/
def received (r : CReq) (bufs : List (List Byte)) (j : Nat) : List Byte :=
  let e := tyBytes r.ty
  let n := r.cnt * e
  if r.op = 0 then bufs.flatMap (·.take n)
  else if r.op = 2 then bufs.flatMap fun b => bufBlock n j b
  else (List.range r.cnt).flatMap fun q => leBytes e (combineElem r (bufs.map fun b => elemAt e q (bufBlock n j b))).toNat

/-- R380: the bytes of a receive buffer that SRC names too, or that others have written since issue. -/
def raceBytes (now : State) (r : CReq) : List Nat :=
  let base := reqBase now r
  r.hits ++ (((List.range r.dstLen).map (r.dst + ·)).filter fun a => r.src ≤ a && a < r.src + r.srcLen).map (base + ·)

/-- R380: write a receive buffer; of a word with bytes that SRC also names or that others have written, those are a free choice. -/
def receive (now : State) (r : CReq) (bs : List Byte) (s : State) : State :=
  let at0 := reqBase now r + r.dst
  let z := settleWords at0 (raceBytes now r) bs (spadRun now r.core at0 bs.length) s
  setSpad r.core (at' at0 z.1) z.2

/-- R379: every member's buffers are read, and then written. -/
def exchange (rs : List CReq) (s : State) : State :=
  let bufs := rs.foldl (sendBuf s) ([], s)
  ((List.range rs.length).zip rs).foldl (fun z r => receive s r.2 (received r.2 bufs.1 r.1) z) bufs.2

/-- R378: the requests numbered k are over with a status. -/
def setStatus (grp k st : Nat) (rs : List CReq) (s : State) : State :=
  updGroup grp (fun g => { g with reqs := g.reqs.filter fun r => r.k ≠ k
                                  status := g.status ++ rs.map fun r => (r.cluster, k, st) }) s

/-- R378 to R381: request k is compared and performed; those that wait for it have its status. -/
def execCollectivePerform (grp k : Nat) (s : State) : Outc :=
  if !collReady s grp k then .fault .notEnabled
  else
    match look grp s.groups with
    | none => .fault .notEnabled
    | some g =>
      match reqsOf g k with
      | [] => .fault .notEnabled
      | r :: rs =>
        if !rs.all (sameReq r) then .next (wakeColl (setStatus grp k 1 (r :: rs) s))
        else if r.op = 3 then
          .next (wakeColl (setStatus grp k 0 (r :: rs) ((r :: rs).foldl (fun s q => acquireAt q.core .dev s) s)))
        else .next (wakeColl (setStatus grp k 0 (r :: rs) (exchange (r :: rs) s)))

end Sys2Proof.Machine
end

