-- ==== Sys2Proof/Machine/Debug.lean ====
section
/-! DEFINITION. Checkpoints, counters, sampling, breakpoints and the replay log (24 R435 to R450). -/

namespace Sys2Proof.Machine

/-! ## Checkpoints -/

/-- R446, R450: the interval ends and the next one opens; D receives its number. -/
def openInterval (x : Iss) (d : Opnd) (s : State) : State :=
  let n := x.g.interval + 1
  let ord := if x.h.stop then ordinalAt s x.g x.pc else BitVec.allOnes 32
  putScalar x 32 d (n.setWidth 64)
    (updGang x.k (fun g => { g with interval := n, intervalOrd := ord, logged := [] }) s)

/-- R446. -/
def execCkpt (h : Hd) (d a : Opnd) (s : State) : Outc :=
  issue (.ckpt h d a) h .none noGate (gangOnce fun x s => openInterval x d s) s

/-- R400: a gang's work is drained, as at a stop: its loads, stores and copies, the transfers of its tiles, and the tile that a
subscription of its crew is moving. -/
def drained (s : State) (k : Nat) (g : Gang) : Bool :=
  let c := coreOf s g.core
  loadsDone s k allLanes s.nextId && decide (g.ldcnt = 0 ∧ g.stcnt = 0 ∧ g.cpcnt = 0) && !copyPending s k g
    && !(c.mx.queue.any fun o => o.gang = k && moveFlies c.mx.queue o) && !(c.subs.any fun u => u.2.crew = g.crew && u.2.moving)

/-- R434, R446: the checkpoint of a gang that waits in `ckpt.hold` is its saved image (R402). -/
def takeImage (k : Nat) (s : State) : State :=
  match look k s.gangs with
  | none => s
  | some g =>
    match look g.crew s.crews with
    | none => s
    | some c =>
      let here (a : Nat) : Bool := decide (c.base ≤ a) && decide (a < c.base + c.size)
      let o := coreOf s g.core
      let im : Image :=
        { taken := s.seq, gang := g, crewKey := g.crew, crew := c
          bytes := o.spad.filter fun x => here x.1
          descs := o.spadDesc.filter fun x => here (64 * x.1)
          subs := o.subs.filter fun u => u.2.crew = g.crew
          members := s.groups.flatMap fun q => (q.2.members.filter fun m => m.crew = g.crew).map fun m => (q.1, m)
          mx := if o.mx.owner = some g.ctx then some o.mx else o.mxSaved.find? fun m => m.owner = some g.ctx }
      { s with ckpts := ins k im s.ckpts }

/-- R400, R446: the gang has its checkpoint once its work is drained, and, while it waits, as things then stand. -/
def holdImage (k : Nat) (s : State) : State :=
  match look k s.gangs with
  | none => s
  | some g => if g.stop ≠ .saved ∧ (gwaitsOf g).contains .ckptHold ∧ drained s k g then takeImage k s else s

/-- The checkpoints of all gangs that wait for one. -/
def holdImages (s : State) : State := s.gangs.foldl (fun s g => holdImage g.1 s) s

/-- R446: a device-scope release, and a wait until Zalner resumes the gang; as it waits, it has its checkpoint. -/
def execCkptHold (h : Hd) (d a : Opnd) (s : State) : Outc :=
  issue (.ckptHold h d a) h .none (relGate .dev)
    (gangOnce fun x s => holdImage x.k (gwaitAt x .ckptHold (openInterval x d s))) s

/-- R446: Zalner resumes a gang, which acquires at device scope; its checkpoint is as it stood last in the wait. -/
def execCkptResume (k : Nat) (s : State) : Outc :=
  match look k s.gangs with
  | none => .fault .notEnabled
  | some g =>
    if (gwaitsOf g).contains .ckptHold ∧ loadsDone s k allLanes s.nextId then
      .next (settle k (updGang k (endGwait (· = .ckptHold)) (acquireAt g.core .dev (holdImage k s))))
    else .fault .notEnabled

/-! ## Counters -/

def updPerf (core : Nat) (f : Perf → Perf) (s : State) : State := updCore core (fun c => { c with perf := f c.perf }) s

/-- R439: the event codes that are not reserved. -/
def perfCodeOk (c : Dword) : Bool := decide (c.toNat ≤ 0x0E) || (decide (0x10 ≤ c.toNat) && decide (c.toNat ≤ 0x1D))

/-- R442. -/
def execPerfSel (h : Hd) (d a : Opnd) (k : Fin 512) (s : State) : Outc :=
  issue (.perfSel h d a k) h .none noGate (gangOnce fun x s =>
    let v := uniVal x .n32 a
    if !holdsPerf s x.g then faultAll x (cause cPROT) 0 s
    else if !perfCodeOk v then faultAll x (cause cRANGE) v s
    else
      let old := find 0 k.val (coreOf s x.g.core).perf.sel
      putScalar x 32 d (old.setWidth 64)
        (updPerf x.g.core (fun p => { p with sel := put 0 k.val (v.setWidth 8) p.sel }) s)) s

/-- R442, R443: the sampling word takes effect from here. -/
def execPerfSmp (h : Hd) (d a : Opnd) (s : State) : Outc :=
  issue (.perfSmp h d a) h .none noGate (gangOnce fun x s =>
    let v := uniVal x .n32 a
    if !holdsPerf s x.g then faultAll x (cause cPROT) 0 s
    else if 2 ^ 18 ≤ v.toNat then faultAll x (cause cRANGE) v s
    else
      let old := (coreOf s x.g.core).perf.smp
      putScalar x 32 d (old.setWidth 64) (updPerf x.g.core (fun p =>
        { p with smp := v.setWidth 18, memN := 0, nextAt := s.clk + num64 (v.toNat % 2 ^ 16) }) s)) s

/-- R444: the stall reason of what a fibre waits at. -/
def waitReason (w : WaitKind) : Nat :=
  match w with
  | .bar .. => 2
  | .racq _ => 3
  | .stgw .. => 4
  | .sleep .. | .counters .. | .role _ => 5
  | .rendezvous => 6
  | _ => 1

/-- R111, R329, R349: the counter in which an instruction counts. -/
def ctrOf : Instr → CtrKind
  | .copyG2s .. | .copyS2g .. | .gath .. | .scat .. => .cp
  | .mma .. | .mcont .. | .mld .. | .mst .. | .wbload .. => .mt
  | .signal .. | .signalAdd .. | .st .. | .wst .. | .imageStore .. | .red .. | .flush .. | .flushAll .. | .sdesc .. | .dfree .. => .st
  | .launch .. | .ld .. | .wld .. | .ldesc .. | .dalloc .. | .dallocZ .. | .incrdHome .. => .ld
  | .atom _ o | .cas _ o => atomCtr o
  | .incu _ _ d _ _ => incuCtr d
  | _ => .none

/-- R444: why a gang with a group at an instruction has not issued. -/
def notIssued (s : State) (k : Nat) (g : Gang) (group : BitVec 64) (i : Instr) : Nat :=
  if regsPending s k group i then 8
  else if ctrFull (ctrOf i) g || heldBack s k g group i then 7
  else [1, 0xA, 0xB].getD (Config.stall s.clk.toNat k % 3) 1

/-- R444: the stall reason of a gang. -/
def stallReason (s : State) (k : Nat) (g : Gang) : Nat :=
  let v := settledGang s g
  if (islandOf s (clusterOf g.core)).exiting then 0xD
  else if g.issuedAt = some s.clk then 0
  else if !g.frames.isEmpty then 0xC
  else
    match chooseGroup v with
    | none =>
      (g.fibres.findSome? fun f => match f.wait, f.gwait with
        | some w, _ => some (waitReason w.kind)
        | none, some w => some (waitReason w.kind)
        | none, none => none).getD 0xC
    | some (group, pc) =>
      match fetch s v pc with
      | .instr i => notIssued s k v group i
      | _ => 9

/-- R443: the resident gangs of a context on a core, by slot and lane offset. -/
def sampleOrder (s : State) (core ctx : Nat) : List (Nat × Gang) :=
  let gs := (s.gangs.filter fun g => g.2.core = core && g.2.ctx = ctx && decide (g.2.stop ≠ .saved))
  (List.range 1024).filterMap fun p => (gs.find? fun g => g.2.slot * 64 + g.2.off = p)

def placeOf (g : Gang) : Nat := g.slot * 64 + g.off

/-- R443: the gang whose turn it is. -/
def sampleTurn (s : State) (core ctx : Nat) : Option (Nat × Gang) :=
  let o := sampleOrder s core ctx
  match o.find? fun g => (coreOf s core).perf.cursor ≤ placeOf g.2 with
  | some g => some g
  | none => o.head?

def stallDue (s : State) (core : Nat) : Bool :=
  let p := (coreOf s core).perf
  p.owner.isSome && smpOn p && smpStall p && decide (p.nextAt.toNat ≤ s.clk.toNat)

/-- R443, R444: every PERIOD cycles the core samples one resident gang of the context. -/
def execStallSample (core : Nat) (s : State) : Outc :=
  let p := (coreOf s core).perf
  if !stallDue s core then .fault .notEnabled
  else
    let s := updPerf core (fun p => { p with nextAt := p.nextAt + num64 (Nat.max 1 (smpPeriod p)) }) s
    match p.owner.bind (sampleTurn s core) with
    | none => .next s
    | some (k, g) =>
      .next (updPerf core (fun p => { p with cursor := placeOf g + 1 })
        (putSample core (sampleRec ⟨core, sampleBase s g 2 (stallReason s k g) 0 0 0 g.lord, 0, 0, 0, 0, 0, 0⟩) s))

/-- R440: the counters of a core pass to a context, or back to none; R443: an instruction still under way leaves no record in the new
ring. -/
def execCounterGrant (core : Nat) (ctx : Option Nat) (ring size : Nat) (s : State) : Outc :=
  if decide (coreCount ≤ core) || ctx.any (fun c => (look c s.ctxs).isNone) then .fault .notEnabled
  else .next (updPerf core (fun _ => { Perf.reset with owner := ctx, ring := ring, size := size })
    { s with ops := s.ops.map fun o => (o.1, if o.2.core = core then { o.2 with smp := none } else o.2) })

/-! ## Breakpoints and the replay log -/

/-- R436: Zalner writes an entry of a context's breakpoint table. -/
def execBreakpointTableWrite (ctx : Nat) (idx : Fin 8) (hdr : Dword) (ord : Word) (enable : Bool) (s : State) : Outc :=
  match look ctx s.ctxs with
  | none => .fault .notEnabled
  | some _ => .next (updCtx ctx (fun c => { c with breaks := c.breaks.set idx ⟨hdr, ord, enable⟩ }) s)

/-- R449: Zalner empties a context's log between launches. -/
def execEmptyReplayLog (ctx : Nat) (s : State) : Outc :=
  match look ctx s.ctxs with
  | none => .fault .notEnabled
  | some c =>
    match c.log with
    | none => .fault .notEnabled
    | some l =>
      if c.launches.any fun x => x.2.pkt.replay then .fault .notEnabled
      else .next (updCtx ctx (fun c => { c with log := some { l with fill := 0, closed := false } }) s)

end Sys2Proof.Machine
end

