-- ==== Sys2Proof/Machine/Queues.lean ====
section
/-! DEFINITION. Command queues and the RoCE connections (09 R180, R184; 21 R407 to R409; 23 R428 to R431). -/

namespace Sys2Proof.Machine

def updQueue (q : Nat) (f : Queue → Queue) (s : State) : State := { s with queues := adj q f s.queues }
def updConn (k : Nat) (f : Conn → Conn) (s : State) : State := { s with conns := adj k f s.conns }

/-- A queue's structures are read and written by the device for any mapping of their pages. -/
def queueNat (s : State) (ctx : Nat) (va : Dword) (n : Nat) : Option Nat :=
  (readVirt s ctx needNone va.toNat n).map leNat

/-- Write a number of n bytes at a virtual address, at its home. -/
def queuePut (ctx : Nat) (va : Dword) (n x : Nat) (s : State) : State :=
  writeHome 8 (((leBytes n x).mapIdx fun i b => (va.toNat + i, b)).filterMap fun y =>
    match reach s ctx needNone y.1 with
    | .pa a => some (a, y.2)
    | _ => none) s

/-! ## The state word (R407) -/

/-- R407: offset of the queue state word. -/
def stateWordAt (u : Queue) : Dword := u.desc + 0x38
def bMapped : Nat := 1
def bUnmapping : Nat := 2
def bPendWake : Nat := 4

def stateWord (s : State) (u : Queue) : Nat := (queueNat s u.ctx (stateWordAt u) 4).getD 0

/-- R408: one atomic write of the state word: set some bits, clear others. -/
def stateBits (u : Queue) (on off : Nat) (s : State) : State :=
  queuePut u.ctx (stateWordAt u) 4 (((stateWord s u ||| on) - ((stateWord s u ||| on) &&& off))) s

/-! ## Fetch and acceptance -/

/-- R429: the value awaited at WADDR has been reached. -/
def signalReached (s : State) (u : Queue) : Bool :=
  (queueNat s u.ctx u.waddr 8).any fun v => decide (u.wval.toNat ≤ v)

/-- R429, R408: the queue fetches an entry now. -/
def fetchReady (s : State) (u : Queue) : Bool :=
  u.mapped && decide (u.step < 2) && u.fetched.isNone
    && ((queueNat s u.ctx u.wake 4).any fun i => decide (i ≠ u.rdptr.toNat))
    && (u.waddr = 0 || signalReached s u)

/-- R429: the packet at RDPTR. -/
def queueEntry (s : State) (u : Queue) : Option Packet :=
  (queueNat s u.ctx (u.ring + num64 (128 * (u.rdptr.toNat % u.nent))) 128).map readPacket

/-- R429: the fetch consumes the wakes that have arrived, but not one that came while the queue is being unmapped. -/
def consumeWake (u : Queue) (s : State) : State := if u.step = 0 then stateBits u 0 bPendWake s else s

/-- R411, R417: the lines that a fetch reaches: the descriptor, the wake and the signal, the entry and what its check reads, and the
error word. -/
def fetchLines (s : State) (u : Queue) : List Nat :=
  ([(u.desc.toNat, 64), (u.wake.toNat, 8), ((u.ring + num64 (128 * (u.rdptr.toNat % u.nent))).toNat, 128)]
      ++ ([u.waddr, u.erraddr].filter (· ≠ 0)).map fun (a : Dword) => (a.toNat, 8)).flatMap (rangeLines s u.ctx)
    ++ ((queueEntry s u).map (launchLines s u.ctx)).getD []

def descLines (s : State) (u : Queue) : List Nat := rangeLines s u.ctx (u.desc.toNat, 64)

/-- R178, R429: fetch an entry: a packet that fails its checks is rejected in the same step, and its error word written. -/
def execQueueFetch (q : Nat) (s : State) : Outc :=
  match look q s.queues with
  | none => .fault .notEnabled
  | some u =>
    if !fetchReady s u then .fault .notEnabled
    else comeUp none (fetchLines s u) (fun s =>
      let s := consumeWake u s
      let next (f : Option (Launch × List (Nat × Inc))) (u : Queue) : Queue :=
        { u with rdptr := u.rdptr + 1, held := if u.step = 0 then false else u.held, fetched := f }
      match (queueEntry s u).bind (checkPacket s u.ctx) with
      | some a => .next (updQueue q (next (some (a.launch, a.incs))) s)
      | none =>
        let s := updQueue q (next none) s
        .next (if u.erraddr = 0 then s else queuePut u.ctx u.erraddr 8 (u.rdptr.toNat * 2 ^ 32 + 1) s)) s

/-- R184, R180: a checked packet of a queue takes the lowest free slot; it waits there for the queue's previous launch. -/
def execLaunchAcceptance (q : Nat) (s : State) : Outc :=
  match look q s.queues with
  | none => .fault .notEnabled
  | some u =>
    match u.fetched, look u.ctx s.ctxs with
    | some (l, incs), some c =>
      match freeSlot c with
      | none => .fault .notEnabled
      | some k => comeUp none (launchLines s u.ctx l.pkt) (fun s =>
        let uid := s.nextId
        .next (updQueue q (fun u => { u with fetched := none, prev := some uid })
          (acceptLaunch u.ctx k ⟨l, incs⟩ false (some q) u.prev s))) s
    | _, _ => .fault .notEnabled

/-! ## Wakes, unmapping and mapping -/

/-- R408, R409: where a wake goes: the hardware slot, PENDWAKE, or both; a queue whose thread sleeps becomes runnable. -/
def execQueueWake (q : Nat) (s : State) : Outc :=
  match look q s.queues with
  | none => .fault .notEnabled
  | some u =>
    if !u.poked then .fault .notEnabled
    else comeUp none (descLines s u) (fun s =>
      let s := if u.mapped ∧ u.step = 0 then s else stateBits u bPendWake 0 s
      .next (updQueue q (fun u =>
        { u with poked := false, held := u.held || u.mapped, runnable := u.runnable || (!u.mapped && decide (u.step = 0)) }) s)) s

/-- R409: Zalner tests PENDWAKE before the queue's thread sleeps: where it is set, it is cleared in one exchange, and the queue is
runnable. -/
def testWake (q : Nat) (u : Queue) (s : State) : State :=
  let set := (stateWord s u).testBit 2
  updQueue q (fun u => { u with step := 0, runnable := set }) (if set then stateBits u 0 bPendWake s else s)

/-- R408: the next of the four steps; the third waits until a command already fetched is dispatched. R409: the test that follows. -/
def execQueueUnmap (q : Nat) (s : State) : Outc :=
  match look q s.queues with
  | none => .fault .notEnabled
  | some u => comeUp none (descLines s u) (fun s =>
    if !u.mapped then (if u.step = 4 then .next (testWake q u s) else .fault .notEnabled)
    else
      match u.step with
      | 0 => .next (updQueue q (fun u => { u with step := 1 }) (stateBits u bUnmapping 0 s))
      | 1 => .next (updQueue q (fun u => { u with step := 2 }) s)
      | 2 =>
        if u.fetched.isSome then .fault .notEnabled
        else
          let s := queuePut u.ctx (u.desc + 12) 4 u.rdptr.toNat s
          let s := queuePut u.ctx (u.desc + 16) 8 u.waddr.toNat s
          .next (updQueue q (fun u => { u with step := 3 }) (queuePut u.ctx (u.desc + 24) 8 u.wval.toNat s))
      | _ =>
        let s := stateBits u (if u.held then bPendWake else 0) (bMapped + bUnmapping) s
        .next (updQueue q (fun u => { u with mapped := false, step := 4, held := false }) s)) s

/-- R428: a descriptor keeps its limits. -/
def descOk (n : Nat) : Bool :=
  let nent := field n 64 32
  decide (field n 480 32 = 0) && decide (field n 288 32 = 0) && decide (field n 0 64 % 128 = 0)
    && decide (field n 320 64 % 8 = 0) && decide (field n 384 64 % 8 = 0)
    && ((List.range 20).any fun k => nent = 2 ^ (k + 1)) && decide (field n 448 32 &&& (bMapped + bUnmapping) = 0)

/-! ## The run tree (R426) -/

/-- R426: the keys of a context's process, of a queue's leaf and of a thread's in the run tree. -/
def procNode (ctx : Nat) : Nat := 3 * ctx
def leafNode (q : Nat) : Nat := 3 * q + 1
def threadNode (t : Nat) : Nat := 3 * t + 2

def vtimeOf (s : State) (k : Nat) : Rat := ((look k s.runTree).map (·.vtime)).getD 0

/-- R426: a leaf is charged with some ns: by the weight of each, its virtual time and its process's go on. -/
def chargeLeaf (leaf : Nat) (ns : Rat) (t : AMap RunNode) : AMap RunNode :=
  let add (x : RunNode) : RunNode := { x with vtime := x.vtime + ns / x.weight }
  match (look leaf t).bind (·.parent) with
  | some p => adj p add (adj leaf add t)
  | none => adj leaf add t

/-- R426: of the queues that are to be mapped, this one is the child of least virtual time at each level. -/
def admitted (s : State) (q ctx : Nat) : Bool :=
  s.queues.all fun u => u.1 = q || u.2.mapped || !u.2.runnable ||
    (if u.2.ctx = ctx then decide (vtimeOf s (leafNode q) ≤ vtimeOf s (leafNode u.1))
      else decide (vtimeOf s (procNode ctx) ≤ vtimeOf s (procNode u.2.ctx)))

/-- R409, R428: what the slot holds of a queue's descriptor: a wake in PENDWAKE is one that the slot has not consumed; a queue mapped
again keeps its latest launch. -/
def mapQueue (q ctx : Nat) (desc : Dword) (n : Nat) (s : State) : Queue :=
  { ctx := ctx, desc := desc, ring := num64 (field n 0 64), nent := field n 64 32, rdptr := BitVec.ofNat 32 (field n 96 32)
    wake := num64 (field n 320 64), waddr := num64 (field n 128 64), wval := num64 (field n 192 64)
    erraddr := num64 (field n 384 64), tol := field n 256 32, mapped := true, step := 0, held := (field n 448 32).testBit 2
    poked := (look q s.queues).any (·.poked), runnable := false, fetched := none
    prev := (look q s.queues).bind (·.prev) }

/-- R409, R426: Zalner maps a queue, and gives it its weight in the run tree. -/
def execQueueMap (q ctx : Nat) (desc : Dword) (weight : Nat) (s : State) : Outc :=
  match look ctx s.ctxs, queueNat s ctx desc 64 with
  | some _, some n =>
    if !descOk n ∨ weight = 0 ∨ 1024 < weight ∨ !admitted s q ctx ∨ (look q s.queues).any (fun u => u.mapped || u.ctx ≠ ctx || u.desc ≠ desc)
    then .fault .notEnabled
    else comeUp none (rangeLines s ctx (desc.toNat, 64)) (fun s =>
      let u := mapQueue q ctx desc n s
      .next (stateBits u bMapped 0 { s with
        queues := ins q u s.queues
        runTree := ins (leafNode q) ⟨some (procNode ctx), weight, vtimeOf s (leafNode q), some q, none⟩ s.runTree })) s
  | _, _ => .fault .notEnabled

/-! ## RDMA -/

/-- R430: a byte lies in a window that allows the operation. -/
def inWindow (c : Conn) (write : Bool) (a : Nat) : Bool :=
  c.windows.any fun w => decide (w.base ≤ a) && decide (a < w.base + w.size) && (if write then w.w else w.r)

/-- R430, R393: where the bytes of an operation stand; or the first that fails, with its cause. -/
def rdmaWalk (s : State) (c : Conn) (write : Bool) : List Nat → Except (Word × Dword) (List Nat)
  | [] => .ok []
  | va :: vas =>
    if !inWindow c write va then .error (cause cPROT, num64 va)
    else
      match reach s c.ctx (if write then needW else needR) va with
      | .pa a => (match rdmaWalk s c write vas with | .ok as => .ok (a :: as) | .error e => .error e)
      | .bad w => .error (w, num64 va)
      | .miss => .error (cause cXLATE, num64 va)

def rdmaRange (va : Dword) (n : Nat) : List Nat := (List.range n).map (va.toNat + ·)

/-- R393: the connection freezes before the operation, and Zalner is told. -/
def freezeConn (k : Nat) (op : Instr) (c : Conn) (e : Word × Dword) (s : State) : State :=
  let r : Report := ⟨some (.conn k), c.ctx, e.1, e.2, []⟩
  { updConn k (fun c => { c with frozen := true, queued := op :: c.queued }) s with reports := s.reports ++ [r] }

/-- The virtual range that an operation of a connection reaches. -/
def opRange (c : Conn) : Instr → Option (Nat × Nat)
  | .rdmaWrite _ va data => some (va.toNat, data.length)
  | .rdmaRead _ va n => some (va.toNat, n)
  | .rdmaSend .. => c.ring
  | _ => none

/-- R411, R417: the lines of it. -/
def opLines (s : State) (c : Conn) (op : Instr) : List Nat := ((opRange c op).map (rangeLines s c.ctx)).getD []

/-- R393: an operation of a frozen connection waits behind the others; R411, R417: one whose lines cannot be reached stays first. -/
def onConn (k : Nat) (op : Instr) (body : Conn → State → State) (s : State) : Outc :=
  match look k s.conns with
  | none => .fault .notEnabled
  | some c =>
    if c.closed then .fault .notEnabled
    else if c.frozen then .next (updConn k (fun c => { c with queued := c.queued ++ [op] }) s)
    else if linesUp s none (opLines s c op) then .next (body c s)
    else .next (rouse none (opLines s c op) (updConn k (fun c => { c with queued := op :: c.queued }) s))

/-- R431: weak stores, performed at their homes before the write is acknowledged; descriptors are unchanged. -/
def execRdmaWrite (conn : Nat) (va : Dword) (data : List Byte) (s : State) : Outc :=
  onConn conn (.rdmaWrite conn va data) (fun c s =>
    match rdmaWalk s c true (rdmaRange va data.length) with
    | .error e => freezeConn conn (.rdmaWrite conn va data) c e s
    | .ok as => writeHome 4 (as.zip data) s) s

/-- R431: update-only lines of these lines that are not yet merged: at a core, or on their way. -/
def uoOver (s : State) (lines : List Nat) : Bool := s.cores.any fun c => c.2.uo.any fun u => lines.contains u.line
def mergesOver (s : State) (lines : List Nat) : Bool :=
  s.reqs.any fun r => (match r.act with | .merge _ => true | _ => false) && lines.contains r.line

def mergeOver (lines : List Nat) (s : State) : State := s.cores.foldl (fun s c => mergeUo c.1 lines.contains s) s

/-- R431: a read of the homes, once the update-only lines are merged; until then it stays first in posting order. -/
def execRdmaRead (conn : Nat) (va : Dword) (len : Nat) (s : State) : Outc :=
  onConn conn (.rdmaRead conn va len) (fun c s =>
    match rdmaWalk s c false (rdmaRange va len) with
    | .error e => freezeConn conn (.rdmaRead conn va len) c e s
    | .ok as =>
      let lines := distinct (as.map lineOf)
      if uoOver s lines ∨ mergesOver s lines then
        updConn conn (fun c => { c with queued := .rdmaRead conn va len :: c.queued }) (mergeOver lines s)
      else updConn conn (fun c => { c with reply := as.map (memByte s) }) s) s

/-- R430: where the bytes of a send go in a ring, from the place after the latest one on, around its end. -/
def ringSpots (base size fill n : Nat) : List Nat := (List.range n).map fun i => base + (fill + i) % size

/-- R430: a send goes into the posted receive ring, around its end; one that is longer than the ring, or that finds none, is refused.
A byte of the ring with no translation freezes the connection, as a byte of a window does (assumption 87). -/
def execRdmaSend (conn : Nat) (data : List Byte) (s : State) : Outc :=
  onConn conn (.rdmaSend conn data) (fun c s =>
    match c.ring with
    | none => updConn conn (fun c => { c with naks := c.naks + 1 }) s
    | some (base, size) =>
      if size < data.length then updConn conn (fun c => { c with naks := c.naks + 1 }) s
      else
        let spots := ringSpots base size c.fill data.length
        match spots.findSome? fun va => match reach s c.ctx needW va with | .bad w => some (w, num64 va) | _ => none with
        | some e => freezeConn conn (.rdmaSend conn data) c e s
        | none =>
          let at' := spots.filterMap fun va => match reach s c.ctx needW va with | .pa a => some a | _ => none
          updConn conn (fun c => { c with fill := (c.fill + data.length) % size }) (writeHome 4 (at'.zip data) s)) s

/-- R430: what is not supported is refused with a NAK. -/
def execRdmaRefused (conn : Nat) (kind : Refusable) (s : State) : Outc :=
  onConn conn (.rdmaRefused conn kind) (fun _ s => updConn conn (fun c => { c with naks := c.naks + 1 }) s) s

/-- R431: the first operation that a connection has kept can be performed now. -/
def connReady (s : State) (c : Conn) : Bool :=
  !c.frozen && !c.closed &&
    match c.queued with
    | [] => false
    | op :: _ => (linesUp s none (opLines s c op) || decide (asleep s none (opLines s c op) ≠ [])) && match op with
    | .rdmaRead _ va len =>
      (match rdmaWalk s c false (rdmaRange va len) with
        | .ok as => !mergesOver s (distinct (as.map lineOf))
        | .error _ => true)
    | _ => true

end Sys2Proof.Machine
end

