-- ==== Sys2Proof/Machine/Preempt.lean ====
section
/-! DEFINITION. Pre-emption: the request, the stop, the scan-out and the restoration (21 R396 to R406). -/

namespace Sys2Proof.Machine

/-! ## The request -/

/-- R396, R397: the crews that a request vacates: those of the context on the named cores, and with a crew of an ensemble
the whole ensemble. -/
def victims (s : State) (ctx : Nat) (cores : List Nat) : List Nat :=
  let named := s.crews.filter fun c => c.2.ctx = ctx && cores.contains c.2.core && !c.2.saved
  let es := named.filterMap fun c => c.2.ens
  (s.crews.filter fun c => c.2.ctx = ctx && !c.2.saved
    && (cores.contains c.2.core || c.2.ens.any es.contains)).map (·.1)

/-- R364, R399: the operation that runs splits before its next step. -/
def splitRunning (core : Nat) (hit : MxOp → Bool) (s : State) : State :=
  updMx core (fun m => { m with queue := m.queue.map fun o =>
    match o.kind with
    | .mma c x => if hit o ∧ startedOp o then { o with kind := .mma { c with st := 1 } { x with started := false } } else o
    | _ => o }) s

/-- R352, R403: the arrivals of a gang at the latch are withdrawn; its fibres issue the `mma` again. -/
def withdraw (g : Gang) (s : State) : State :=
  updMx g.core (fun m => { m with latch := (m.latch.map fun e =>
    if e.crew = g.crew then { e with arrived := e.arrived.filter fun a => a.1 ≠ g.num } else e).filter fun e =>
      !e.arrived.isEmpty }) s

/-- R367, R399: the gang's transfers that stand before an operation of their tile are not in flight: they start after the restoration. -/
def holdMoves (k : Nat) (g : Gang) (s : State) : State :=
  updMx g.core (fun m => { m with queue := m.queue.map fun o =>
    if o.gang = k ∧ o.started ∧ !o.done ∧ !moveFlies m.queue o then
      (match o.kind with | .mma .. => o | _ => { o with started := false, src := [] })
    else o }) s

/-- R399, R403: a gang issues nothing more; its operand latch is dropped. -/
def stopGang (k : Nat) (s : State) : State :=
  match look k s.gangs with
  | none => s
  | some g =>
    holdMoves k g (withdraw g (updGang k (fun g =>
      { onLanes (lanesWhere (fun f => f.wait.any fun w => isRendezvous w.kind) g) (fun _ f => { f with wait := none }) g with
        stop := .stopping, latch := [] }) s))

/-- R396 to R400: the cores take the request: the victim's gangs stop, its operation splits, its records leave the pool,
and the merges of the stops' releases leave. -/
def execPreemptRequest (ctx : Nat) (cores : List Nat) (urgent : Nat) (s : State) : Outc :=
  if (look ctx s.ctxs).isNone ∨ (look urgent s.ctxs).isNone ∨ ctx = urgent ∨ cores.any (fun c => coreCount ≤ c) then .fault .notEnabled
  else
    let vs := victims s ctx cores
    let places := distinct (cores ++ vs.filterMap fun k => (look k s.crews).map (·.core))
    let gs := vs.flatMap fun k => (crewGangs s k).map (·.1)
    let s := cores.foldl (fun s c => spillPool ctx c (updCore c (fun o =>
      { o with vacated := o.vacated.filter (fun v => v.1 ≠ ctx) ++ [(ctx, urgent)] }) s)) s
    let s := places.foldl (fun s c =>
      splitRunning c (fun o => o.ctx = ctx && (cores.contains c || vs.contains o.crew)) s) s
    let s := gs.foldl (fun s k => stopGang k s) s
    .next (places.foldl (fun s c => mergeUo c (fun _ => true) s) s)

/-! ## The stop -/

/-- R399: a transfer of the gang is in flight at the engine. -/
def moveUnderWay (s : State) (g : Gang) (k : Nat) : Bool :=
  (mxOf s g.core).queue.any fun o => o.gang = k && moveFlies (mxOf s g.core).queue o

/-- R399: a check that was open when the gang was stopped: a walk under way, or the failure of one that the gang has not met yet. -/
def checkOpen (s : State) (k : Nat) (g : Gang) : Bool :=
  (s.walks.any fun w => w.2.gang = k) || checkFailed g && g.frozen.isNone && (chooseGroup (settledGang s g)).isSome

/-- R211, R400: every access of the gang is performed, what its core has sent to incumbents among them, and its engines are at rest. -/
def stopDone (s : State) (k : Nat) (g : Gang) : Bool :=
  relDone s k g.core allLanes .dev s.nextId && decide (g.ldcnt = 0 ∧ g.stcnt = 0 ∧ g.cpcnt = 0)
    && (s.incMsgs.all fun m => m.core ≠ g.core || m.ctx ≠ g.ctx)
    && g.holdOps.isEmpty && !copyPending s k g && !checkOpen s k g && !moveUnderWay s g k
    && !((coreOf s g.core).subs.any fun u => u.2.crew = g.crew && u.2.moving)

/-- R400, R402: the gang is saved; the crew is, with its last gang. The release merges the core's lines first. -/
def execStopReleaseComplete (k : Nat) (s : State) : Outc :=
  match look k s.gangs with
  | none => .fault .notEnabled
  | some g =>
    if g.stop ≠ .stopping then .fault .notEnabled
    else if (coreOf s g.core).uo ≠ [] then .next (mergeUo g.core (fun _ => true) s)
    else if !stopDone s k g then .fault .notEnabled
    else
      let s := updGang k (fun g => { g with stop := .saved }) s
      let s := updCore g.core (fun c => { c with racq := c.racq.filter fun r => r.gang ≠ k }) s
      .next (magsHome g.core g.ctx (settleSaved g.crew s))

/-! ## Scan-out -/

/-- R404: the bytes of a saved crew in a claimed range leave the core. -/
def scanOutScratch (core base size : Nat) (k : Nat) (c : Crew) (s : State) : State :=
  let here (a : Nat) : Bool := (regionLeft c).any (fun r => r.1 ≤ a && a < r.1 + r.2) && base ≤ a && a < base + size
  let o := coreOf s core
  let s := updCrew k (fun c => { c with
    scanned := c.scanned ++ [.scratch base size]
    moved := c.moved ++ o.spad.filter fun x => here x.1
    movedDesc := c.movedDesc ++ o.spadDesc.filter fun x => here (64 * x.1) }) s
  updCore core (fun o => { o with spad := o.spad.filter (fun x => !here x.1)
                                  spadDesc := o.spadDesc.filter (fun x => !here (64 * x.1)) }) s

/-- R404: one crew's state in the claimed storage is scanned out. -/
def scanOut (core : Nat) (claim : Claim) (s : State) (c : Nat × Crew) : State :=
  match claim with
  | .scratch base size => scanOutScratch core base size c.1 c.2 s
  | .matrix => s
  | .rows k | .wide k | .prop k =>
    if c.2.gangs.contains k ∧ !c.2.scanned.contains claim then updCrew c.1 (fun c => { c with scanned := c.scanned ++ [claim] }) s else s

/-- R404: an engine of the core is still writing a crew's region: a copy, a stored tile, a push. -/
def regionWritten (s : State) (core crew : Nat) : Bool :=
  let c := coreOf s core
  (c.copies.any fun r => r.crew = crew && r.g2s && !r.done && !r.dropped)
    || (c.subs.any fun u => u.2.crew = crew && u.2.moving && !u.2.pull)
    || c.mx.queue.any fun o => o.crew = crew && moveFlies c.mx.queue o && match o.kind with
      | .move m => !m.load && m.scratch.isSome
      | _ => false

/-- R404: the engine of a core is still writing its tiles or its weight buffer for some transfer in flight. R313, R317: nor does it go
while a tile that an ended gang stores to memory has not been written. -/
def engineWritten (s : State) (core : Nat) : Bool :=
  let q := (mxOf s core).queue
  q.any fun o => tileOut s o.ctx o || (moveFlies q o && match o.kind with
    | .move m => m.load
    | .wbload .. => true
    | .mma .. => false)

/-- R404: an urgent context claims storage of a vacated core; the victims there are saved, and no engine writes the storage still. -/
def execStorageClaimScanOut (core ctx : Nat) (claim : Claim) (s : State) : Outc :=
  let vs := ((coreOf s core).vacated.filter fun v => v.2 = ctx).map (·.1)
  let cs := s.crews.filter fun c => c.2.core = core && vs.contains c.2.ctx
  let aligned := match claim with | .scratch b n => b % 64 = 0 && n % 64 = 0 | _ => true
  if vs = [] ∨ !aligned ∨ cs.any (fun c => !c.2.saved || regionWritten s core c.1) then .fault .notEnabled
  else
    match claim with
    | .matrix =>
      if (coreOf s core).mx.owner.any vs.contains ∧ !engineWritten s core then .next (giveEngine core ctx s) else .fault .notEnabled
    | cl => .next (cs.foldl (scanOut core cl) s)

/-! ## Restoration -/

/-- R398, R405: a core restores a saved crew: of its launch, the one with the lowest index that has room there. -/
def execCrewRestore (crew core : Nat) (s : State) : Outc :=
  match look crew s.crews with
  | none => .fault .notEnabled
  | some c =>
    if nextSaved s c.ctx c.ltag core ≠ some crew then .fault .notEnabled
    else
      match restoreSet s crew core with
      | none => .fault .notEnabled
      | some s => .next s

end Sys2Proof.Machine
end

