-- ==== Sys2Proof/Machine/Power.lean ====
section
/-! DEFINITION. Islands, power states, the power cap and the die-to-die links (22 R410 to R420). -/

namespace Sys2Proof.Machine

def setIsland (i : Nat) (v : Island) (s : State) : State := { s with islands := ins i v s.islands }

/-- R421: Zalner and the power controller run: their firmware has been verified. -/
def booted (s : State) : Bool := s.boot.done = 4 && !s.boot.recovery

/-! ## The power cap (R420) -/

def averagePower (p : Power) : Nat := p.window.sum / Nat.max 1 p.window.length

/-- R420: the module's power, measured every µs, in milliwatts, with the draws of islands. -/
def execPowerMeasurement (mw : PowerSample) (s : State) : Outc :=
  let s := mw.draws.foldl (fun s d => if d.1 < 64 then setIsland d.1 { islandOf s d.1 with draw := d.2 } s else s) s
  let p : Power := { s.power with window := (mw.module :: s.power.window).take 100 }
  let low := decide (p.window.length = 100) && decide (averagePower p * 10 ≤ p.cap * 1000 * 9)
  .next { s with power := { p with under := if low then p.under + 1 else 0 } }

/-- R420: Zalner sets a cap from 1,200 W to 3,200 W. -/
def execSetPowerCap (watts : Nat) (s : State) : Outc :=
  if !booted s then .fault .notEnabled
  else if 1200 ≤ watts ∧ watts ≤ 3200 then .next { s with power := { s.power with cap := watts, under := 0 } } else .fault .notEnabled

/-- A cluster has a resident gang. -/
def clusterBusy (s : State) (c : Nat) : Bool := s.gangs.any fun g => clusterOf g.2.core = c && g.2.stop ≠ .saved

/-- R415, R420: the cluster islands above P4. -/
def lowerable (s : State) : List Nat := (List.range 48).filter fun i => (islandOf s i).point < 4

/-- R420: of the cluster islands above P4 those with the greatest draw. -/
def greatest (s : State) : List Nat :=
  (lowerable s).filter fun i => (lowerable s).all fun j => decide ((islandOf s j).draw ≤ (islandOf s i).draw)

/-- R420: every 10 µs: over the cap, the island with the greatest draw, an unpredictable one of equals, goes down one point, or the
memory request rate is limited; well below it for 100 µs, the latest of these steps is undone. -/
def execPowerThrottleStep (s : State) : Outc :=
  let p := s.power
  if !booted s then .fault .notEnabled
  else if p.cap * 1000 < averagePower p then
    if (lowerable s).any (clusterBusy s) then
      let (v, s) := freshVal s
      let i := (greatest s).getD (v.toNat % (greatest s).length) 0
      .next (setIsland i { islandOf s i with point := (islandOf s i).point + 1 }
        { s with power := { s.power with lowered := i :: s.power.lowered } })
    else .next { s with power := { p with limited := true } }
  else if 100 ≤ p.under then
    if p.limited then .next { s with power := { p with limited := false } }
    else
      match p.lowered with
      | [] => .next s
      | i :: is =>
        .next (setIsland i { islandOf s i with point := (islandOf s i).point - 1 } { s with power := { p with lowered := is } })
  else .next s

/-! ## Power states (R417 to R419) -/

def coresOf (cluster : Nat) : List Nat := (List.range 32).map (32 * cluster + ·)

/-- R417: a request is on its way to a line's home, or back. -/
def reqsAt (s : State) (t : Req → Bool) : Bool := s.reqs.any t

/-- What the engines of a core have yet to read or write in memory, by line: copies, tiles, streams. -/
def engineLines (c : Core) : List Nat :=
  (c.copies.filter fun r => !r.done && !r.dropped && !r.held).flatMap (fun r => moveLines r.moves)
    ++ (c.mx.queue.filter fun o => !o.done).flatMap (fun o => mxLines o.kind)
    ++ (c.subs.filter fun u => u.2.moving).flatMap fun u => moveLines u.2.pas

/-- The lines that agents are about to reach at their homes: requests, engines, page walks. -/
def linesInFlight (s : State) : List Nat :=
  s.reqs.map (·.line) ++ s.cores.flatMap (fun c => engineLines c.2) ++ s.walks.flatMap fun w => walkLines s w.2.ctx w.2.va.toNat

/-- R187, R405: a core of the cluster is about to take a crew: a ticket of a launch, or a saved crew. -/
def dispatchDue (s : State) (i : Nat) : Bool :=
  (s.ctxs.any fun c => c.2.launches.any fun l =>
      permitted c.2 l.2 (32 * i) && turnCome c.2 l.2 && !(ticketCrews l.2).isEmpty
        && (coresOf i).any fun k => !isVacated s k c.1)
    || s.crews.any fun c => c.2.saved && (coresOf i).any fun k => (!bound s c.1 c.2 || decide (k = c.2.core)) && !isVacated s k c.2.ctx
        && (match look c.2.ctx s.ctxs, launchOf s c.2.ctx c.2.ltag with | some x, some l => permitted x l k | _, _ => false)

/-- R418: an island with running work, or with a request in flight, is in S0. -/
def islandNeeded (s : State) (i : Nat) : Bool :=
  if i < 48 then
    clusterBusy s i || reqsAt s (fun r => clusterOf r.core = i) || s.walks.any (fun w => clusterOf w.2.core = i) || dispatchDue s i
      || s.cores.any (fun c => clusterOf c.1 = i && (!(engineLines c.2).isEmpty || c.2.uo ≠ [] || poolRecords c.2 ≠ 0))
      || s.steals.any fun m => match m.2 with
        | .request _ v _ => clusterOf v = i
        | .refusal t | .records t _ => clusterOf t = i
  else if i < 52 then (linesInFlight s).any fun l => homeDie (128 * l) = i - 48
  else if i < 60 then (s.fills ++ (linesInFlight s).filter fun l => !s.l2.contains l).any fun l => hbmIsland l = i
  else !(linesInFlight s).isEmpty || !s.incMsgs.isEmpty || !s.bcasts.isEmpty || !s.steals.isEmpty

/-- R264, R265: the memory that stands behind a table of a level: its own 32 KiB, and that of the tables and pages below it. -/
def tableMem (s : State) : Nat → Nat → List (Nat × Nat)
  | 0, _ => []
  | fuel + 1, table => (table, 0x8000) :: (List.range 4096).flatMap fun i =>
    match readEntry (3 - fuel) (memNat s (table + 8 * i) 8) with
    | .table t => tableMem s fuel t
    | .page size pa .. => [(pa, size)]
    | .fail _ => []

/-- R418: a context reads memory of a die, or has some there: its tables, its pages, the places of its overflow segments and its log. -/
def ctxOnDie (s : State) (ctx die : Nat) : Bool :=
  (look ctx s.ctxs).any fun c =>
    (tableMem s 3 c.root ++ (c.segs.map fun g => (g.2.base, 64 * g.2.cap)) ++ (c.log.map fun l => (l.base, l.size)).toList).any fun m =>
      decide (homeDie m.1 ≤ die) && decide (die ≤ homeDie (m.1 + m.2))

/-- R418: the queues whose tolerance bears on an island: their contexts may dispatch onto it, read memory on it or hold state in it. Each
context has the homes of its incumbents on every die (R190). -/
def bearing (s : State) (i : Nat) (u : Queue) : Bool :=
  if i < 48 then
    ((look u.ctx s.ctxs).map fun c => c.partition.getLsbD i).getD false || s.crews.any fun c => c.2.ctx = u.ctx && clusterOf c.2.core = i
  else if 52 ≤ i ∧ i < 60 then ctxOnDie s u.ctx ((i - 52) / 2)
  else (look u.ctx s.ctxs).isSome

/-- R417, R418: the deepest state whose exit latency every such queue tolerates: 10 cycles, 2 µs, 200 µs. -/
def byTolerance (s : State) (i : Nat) : Nat :=
  match ((s.queues.filter fun u => bearing s i u.2).map (·.2.tol)).min? with
  | none => 3
  | some t => if 200000 ≤ t then 3 else if 2000 ≤ t then 2 else if 15 ≤ t then 1 else 0

/-- R404, R419: a saved crew's state stands in place: some of its region, or of its gangs' rows and lane slots. -/
def leftInPlace (s : State) (c : Crew) : Bool :=
  !(regionLeft c).all (fun r => r.2 = 0) ||
    c.gangs.any fun k =>
      let l := launchOf s c.ctx c.ltag
      !c.scanned.contains (.rows k) || (l.any (·.hd.wide) && !c.scanned.contains (.wide k)) || (l.any (·.hd.prop) && !c.scanned.contains (.prop k))

/-- R419: a cluster island holds state of some context. -/
def clusterHolds (s : State) (i : Nat) : Bool :=
  clusterBusy s i || (s.crews.any fun c => clusterOf c.2.core = i && (!c.2.saved || leftInPlace s c.2))
    || s.cores.any fun c => clusterOf c.1 = i &&
        (poolCount c.2 ≠ 0 || !c.2.subs.isEmpty || !c.2.copies.isEmpty || !c.2.copyPend.isEmpty
          || (match c.2.mx.owner with | some x => decide (c.2.mx ≠ freshEngine x) | none => false))

/-- R419: the deepest state the kind of island permits. -/
def byKind (s : State) (i : Nat) : Nat :=
  if i < 48 then (if clusterHolds s i then 2 else 3)
  else if i < 52 then (if s.ctxs.isEmpty then 3 else 0)
  else if i < 60 then 2
  else if s.ctxs.isEmpty then 3 else 0

/-- R418. -/
def islandTarget (s : State) (i : Nat) : Nat := if islandNeeded s i then 0 else Nat.min (byTolerance s i) (byKind s i)

/-- R417: a core whose cluster is switched off keeps what stands elsewhere: Zalner's requests and grants, and what has been scanned
out. R182: the sequences of a context count on for as long as it exists. -/
def Core.off (k : Nat) (c : Core) : Core :=
  { Core.reset k with
    gangSeq := c.gangSeq, spawnSeq := c.spawnSeq, subSeq := c.subSeq, promise := c.promise
    mx := (c.mx.owner.map freshEngine).getD Matrix.reset, mxSaved := c.mxSaved, vacated := c.vacated
    perf := { Perf.reset with owner := c.perf.owner, ring := c.perf.ring, size := c.perf.size } }

/-- R417, R419: what an island loses when it is switched off. -/
def switchOff (i : Nat) (s : State) : State :=
  if i < 48 then
    (coresOf i).foldl (fun s k => if (look k s.cores).isNone then s else updCore k (Core.off k) s) { s with ctlb := del i s.ctlb }
  else if i < 52 then
    { s with l2 := s.l2.filter fun l => homeDie (128 * l) ≠ i - 48, rdc := del (i - 48) s.rdc, rdcDesc := del (i - 48) s.rdcDesc }
  else s

/-- R191: a core that comes back has the copies of the incumbents as their homes hold them (assumption 88). -/
def freshIncs (s : State) (k : Nat) : State :=
  updCore k (fun c => { c with incs := s.ctxs.foldl (fun m x => x.2.incs.foldl (fun m i => ins (16 * x.1 + i.1) i.2 m) m) c.incs }) s

/-- R417 to R419: the controller takes an island to a deeper state, or starts its exit to S0. -/
def execIslandStateChange (i : Nat) (s : State) : Outc :=
  let v := islandOf s i
  let t := islandTarget s i
  if 64 ≤ i ∨ v.exiting ∨ t = v.st then .fault .notEnabled
  else if t < v.st then .next (setIsland i { v with exiting := true } s)
  else .next (setIsland i { v with st := t } (if t = 3 then switchOff i s else s))

/-- An island outside S0 is needed, and its exit has not begun. -/
def islandWake (s : State) (i : Nat) : Bool :=
  let v := islandOf s i
  decide (v.st ≠ 0) && !v.exiting && islandNeeded s i

/-- R417: the exit completes, and what has waited for it performs. -/
def execIslandExitComplete (i : Nat) (s : State) : Outc :=
  let v := islandOf s i
  if !v.exiting then .fault .notEnabled
  else .next (setIsland i { v with st := 0, exiting := false } (if v.st = 3 ∧ i < 48 then (coresOf i).foldl freshIncs s else s))

/-! ## Links (R411) -/

def isLink (src dst : Nat) : Bool := decide (src < 4) && decide (dst < 4) && decide (src ≠ dst)

/-- R411: a flit is sent again; values and orders do not change. -/
def execFlitRetransmit (src dst : Nat) (s : State) : Outc :=
  if !isLink src dst then .fault .notEnabled
  else .next { s with resent := ins (4 * src + dst) ((look (4 * src + dst) s.resent).getD 0 + 1) s.resent }

/-- R411: the link no longer delivers, and Zalner is told. -/
def execLinkFailure (src dst : Nat) (s : State) : Outc :=
  if !isLink src dst ∨ s.links.contains (src, dst) then .fault .notEnabled
  else .next { s with links := s.links ++ [(src, dst)]
                      reports := s.reports ++ [⟨none, 0, 0, num64 (4 * src + dst), []⟩] }

/-- R411: the link recovers, and the accesses that waited on it go on. -/
def execLinkRecovery (src dst : Nat) (s : State) : Outc :=
  if s.links.contains (src, dst) then .next { s with links := s.links.filter (· ≠ (src, dst)) } else .fault .notEnabled

end Sys2Proof.Machine
end

