-- ==== Sys2Proof/Machine/Shake.lean ====
section
/-! DEFINITION. SHAKE256, which R421 names and the manual does not lay out. PRESUMED (assumption 106): as FIPS 202 has it. -/

namespace Sys2Proof.Machine

/-- The sponge's state: 25 lanes of 64 bits, lane (x, y) at x + 5y. -/
abbrev Lanes := List Dword

def laneAt (a : Lanes) (x y : Nat) : Dword := a.getD (x % 5 + 5 * (y % 5)) 0

/-- Lanes made place by place. -/
def mkLanes (f : Nat → Nat → Dword) : Lanes := (List.range 25).map fun i => f (i % 5) (i / 5)

def theta (a : Lanes) : Lanes :=
  let c := (List.range 5).map fun x => (List.range 5).foldl (fun v y => v ^^^ laneAt a x y) 0
  mkLanes fun x y => laneAt a x y ^^^ c.getD ((x + 4) % 5) 0 ^^^ (c.getD ((x + 1) % 5) 0).rotateLeft 1

/-- By how much lane x + 5y is rotated. -/
def rhoOffsets : List Nat :=
  [0, 1, 62, 28, 27, 36, 44, 6, 55, 20, 3, 10, 43, 25, 39, 41, 45, 15, 21, 8, 18, 2, 61, 56, 14]

/-- The steps ρ and π: lane (x, y) is rotated and goes to (y, 2x + 3y), so (x, y) receives that of (x + 3y, x). -/
def rhoPi (a : Lanes) : Lanes :=
  mkLanes fun x y => (laneAt a (x + 3 * y) x).rotateLeft (rhoOffsets.getD ((x + 3 * y) % 5 + 5 * x) 0)

def chi (a : Lanes) : Lanes := mkLanes fun x y => laneAt a x y ^^^ (~~~laneAt a (x + 1) y &&& laneAt a (x + 2) y)

def roundConsts : List Dword :=
  [0x1, 0x8082, 0x800000000000808A, 0x8000000080008000, 0x808B, 0x80000001, 0x8000000080008081, 0x8000000000008009]
    ++ [0x8A, 0x88, 0x80008009, 0x8000000A, 0x8000808B, 0x800000000000008B, 0x8000000000008089, 0x8000000000008003]
    ++ [0x8000000000008002, 0x8000000000000080, 0x800A, 0x800000008000000A, 0x8000000080008081, 0x8000000000008080, 0x80000001,
      0x8000000080008008]

def keccakRound (a : Lanes) (c : Dword) : Lanes :=
  match chi (rhoPi (theta a)) with
  | [] => []
  | l :: ls => (l ^^^ c) :: ls

def keccak (a : Lanes) : Lanes := roundConsts.foldl keccakRound a

/-- The bytes that SHAKE256 absorbs at a time. -/
def shakeRate : Nat := 136

/-- The message with its suffix, and padded to whole blocks. -/
def shakePad (bs : List Byte) : List Byte :=
  let n := shakeRate - (bs.length + 1) % shakeRate
  if n = shakeRate then bs ++ [0x9F] else bs ++ [0x1F] ++ List.replicate (n - 1) 0 ++ [0x80]

/-- Lane i of a block, least significant byte first. -/
def blockLane (bs : List Byte) (i : Nat) : Dword :=
  ((bs.drop (8 * i)).take 8).reverse.foldl (fun v b => v <<< 8 ||| b.setWidth 64) 0

/-- Absorb n blocks. -/
def absorb : Nat → List Byte → Lanes → Lanes
  | 0, _, a => a
  | n + 1, bs, a =>
    absorb n (bs.drop shakeRate) (keccak (a.mapIdx fun i l => if i < 17 then l ^^^ blockLane bs i else l))

/-- R421: the first 64 bytes of output, the first of them in bits 7:0. -/
def shake256 (bs : List Byte) : BitVec 512 :=
  let p := shakePad bs
  let a := absorb (p.length / shakeRate) p (List.replicate 25 0)
  (a.take 8).reverse.foldl (fun v l => v <<< 64 ||| l.setWidth 512) 0

end Sys2Proof.Machine
end

