-- ==== Sys2Proof/Machine/System.lean ====
section
/-! DEFINITION. Boot, contexts, invalidation, revocation, frozen masters and recovery (23 R421 to R425, R432, R434). -/

namespace Sys2Proof.Machine

/-! ## Boot and attestation -/

/-- R421: run the stages in order; one whose signature fails is not run, and the module stays in recovery mode. A stage's register is the
SHAKE256 output of what it has absorbed since power-on. -/
def bootStages (b : Boot) : List Sys2Proof.Stage → Boot
  | [] => b
  | g :: gs =>
    if Config.verify g.bytes g.sig then
      bootStages { b with done := b.done + 1, versions := b.versions ++ [g.version]
                          meas := b.meas.modify b.done fun _ => shake256 g.bytes } gs
    else { b with recovery := true }

/-- R421: power-on: the machine as after reset, with the firmware verified, measured and run. -/
def execPowerOn (stages : List Sys2Proof.Stage) (s : State) : Outc :=
  if stages.length ≠ 4 then .fault .notEnabled
  else .next { State.reset with
    boot := bootStages State.reset.boot stages
    inbox := s.inbox, nextId := s.nextId, fresh := s.fresh, seq := s.seq }

/-- R422: nonce, measurements, versions and the device identity key, with the signature appended; the bytes of each stand in the
order of R25 (assumption 10). -/
def attest (nonce : List Byte) (b : Boot) : List Byte :=
  let body := nonce ++ b.meas.flatMap (fun m => leBytes 64 m.toNat) ++ b.versions.flatMap (fun v => leBytes 4 v.toNat)
    ++ leBytes 57 Config.deviceKey.toNat
  body ++ leBytes 114 (Config.sign body).toNat

/-- R422. -/
def execAttestationReport (nonce : List Byte) (s : State) : Outc :=
  if nonce.length ≠ 32 ∨ !booted s then .fault .notEnabled
  else .next { s with boot := { s.boot with reports := s.boot.reports ++ [attest nonce s.boot] } }

/-! ## Contexts -/

/-- R423: the limits of the items that are set. -/
def cfgOk (s : State) (c : CtxCfg) : Bool :=
  decide (c.root % 0x8000 = 0) && inMemory c.root 0x8000
    && (c.heap.all fun h => decide (h.1.toNat % 2 ^ 20 = 0) && decide (h.1.toNat + 2 ^ 20 * h.2 ≤ 2 ^ 52))
    && (c.arena.all fun a => decide (a.1 + a.2 ≤ 2 ^ 52)) && (c.saveArea.all fun a => decide (0 < a.2))
    && (c.overflow.all fun o => decide (o.2.1 % 64 = 0) && decide (o.2.2 % 64 = 0) && decide (o.1 < coreCount))
    && (c.engines.all fun k => decide (k < coreCount) && (coreOf s k).mx.owner.isNone)
    && (match c.log with | some l => decide (l.1 % 64 = 0) && decide (l.2 % 64 = 0) | none => true)
    && (c.conns.all fun k => (look k.id s.conns).isNone)
    && decide (1 ≤ c.weight) && decide (c.weight ≤ 1024)
    && (c.threads.all fun t => decide (1 ≤ t.2) && decide (t.2 ≤ 1024) && (look (threadNode t.1) s.runTree).isNone) && c.tables.all fun t => decide (t.1 % 8 = 0)

/-- R423: every item is set: the heap, the arena, the save area and an overflow segment for each core of the partition; the others of
the table have no unset value. -/
def itemsSet (c : CtxCfg) : Bool :=
  c.heap.isSome && c.arena.isSome && c.saveArea.isSome && decide (c.partition ≠ 0)
    && (List.range coreCount).all fun k => !c.partition.getLsbD (clusterOf k) || c.overflow.any fun o => o.1 = k

/-- R423, R307: a context as Zalner creates it. -/
def newCtx (c : CtxCfg) : Ctx :=
  { root := c.root, partition := c.partition
    heap := ⟨(c.heap.getD (0, 0)).1.toNat, (c.heap.getD (0, 0)).2, [], [], []⟩
    arena := (c.arena.getD (0, 0)).1, arenaSize := (c.arena.getD (0, 0)).2
    segs := c.overflow.foldl (fun m o => ins o.1 ⟨o.2.1, o.2.2 / 64, [], 0⟩ m) []
    saveArea := (c.saveArea.getD (0, 0)).1, saveSize := (c.saveArea.getD (0, 0)).2, ready := itemsSet c, incs := [], system := c.system, modules := c.modules
    log := c.log.map fun l => ⟨l.1, l.2, 0, false⟩
    breaks := List.replicate 8 ⟨0, 0, false⟩, safemaps := c.safemaps, launches := [] }

/-- R430: a connection as Zalner opens it. -/
def newConn (ctx : Nat) (k : ConnCfg) : Conn :=
  { ctx := ctx, windows := k.windows, ring := k.ring, fill := 0, frozen := false, closed := false, naks := 0
    reply := [], queued := [] }

/-- R425: the 64 KiB steps of a range. -/
def pageSteps (va size : Nat) : List Nat := (pieces va size).map (·.1)

/-- R270, R309: private memory and heap blocks hold zeros, or what their own context wrote: their pages are cleared. -/
def clearPages (ctx va size : Nat) (s : State) : State :=
  let pas := (pieces va size).filterMap fun p => match translateNow s ctx needNone p.1 with | .pa a => some (a, p.2) | _ => none
  let away (a : Nat) : Bool := pas.all fun p => decide (a < p.1) || decide (p.1 + p.2 ≤ a)
  { s with mem := s.mem.filter fun x => away x.1 }

/-- R419: while a context exists, the fabric islands and those of the cache dies are in S0. -/
def wakeFabric (s : State) : State :=
  ([48, 49, 50, 51, 60, 61, 62, 63].foldl fun s i =>
    if (islandOf s i).st = 0 then s else setIsland i { islandOf s i with st := 0, exiting := false } s) s

/-- R423, R346, R426, R430: Zalner creates a context. -/
def execCreateContext (cfg : CtxCfg) (s : State) : Outc :=
  if !booted s ∨ (look cfg.id s.ctxs).isSome ∨ !cfgOk s cfg then .fault .notEnabled
  else
    let s := cfg.tables.foldl (fun s t => setBytes ((leBytes 8 t.2.toNat).mapIdx fun i b => (t.1 + i, b)) s) (wakeFabric s)
    let s := cfg.engines.foldl (fun s k => updCore k (fun c => { c with mx := freshEngine cfg.id }) s) s
    let c := newCtx cfg
    .next (clearPages cfg.id c.arena c.arenaSize (clearPages cfg.id c.heap.base (2 ^ 20 * c.heap.slabs) { s with
      ctxs := ins cfg.id c s.ctxs
      conns := cfg.conns.foldl (fun m k => ins k.id (newConn cfg.id k) m) s.conns
      runTree := cfg.threads.foldl (fun m t => ins (threadNode t.1) ⟨some (procNode cfg.id), t.2, 0, none, some t.1⟩ m)
        (ins (procNode cfg.id) ⟨none, cfg.weight, 0, none, none⟩ s.runTree) }))

/-- What a core keeps for a context goes with it. -/
def forgetCtx (ctx : Nat) (c : Core) : Core :=
  { c with
    gangSeq := del ctx c.gangSeq, spawnSeq := del ctx c.spawnSeq
    tlb := c.tlb.filter fun e => e.ctx ≠ ctx
    copies := c.copies.filter fun r => r.ctx ≠ ctx
    copyFrozen := c.copyFrozen.filter (· ≠ ctx)
    mx := if c.mx.owner = some ctx then Matrix.reset else c.mx
    mxSaved := c.mxSaved.filter fun m => m.owner ≠ some ctx
    incs := c.incs.filter fun i => i.1 / 16 ≠ ctx
    mags := c.mags.filter fun m => m.1 / 32 ≠ ctx
    refills := c.refills.filter fun r => r.ctx ≠ ctx
    perf := if c.perf.owner = some ctx then Perf.reset else c.perf }

/-- R307: Zalner destroys a context that has no launch left: its heap ends, and what it held is free. -/
def execDestroyContext (ctx : Nat) (s : State) : Outc :=
  match look ctx s.ctxs with
  | none => .fault .notEnabled
  | some c =>
    if !c.launches.isEmpty ∨ s.gangs.any (fun g => g.2.ctx = ctx) ∨ s.crews.any (fun k => k.2.ctx = ctx) then .fault .notEnabled
    else
      let urgent := s.cores.flatMap fun k => (k.2.vacated.filter fun v => v.2 = ctx).map fun v => (k.1, v.1)
      let s := urgent.foldl (fun s v => liftMark v.1 v.2 s) s
      .next { s with
        ctxs := del ctx s.ctxs
        cores := s.cores.map fun k => (k.1, { forgetCtx ctx k.2 with vacated := k.2.vacated.filter fun v => v.1 ≠ ctx })
        ctlb := s.ctlb.map fun t => (t.1, t.2.filter fun e => e.ctx ≠ ctx)
        incMsgs := s.incMsgs.filter fun m => m.ctx ≠ ctx
        bcasts := s.bcasts.filter fun b => b.2.ctx ≠ ctx
        groups := s.groups.filter fun g => g.2.ctx ≠ ctx
        queues := s.queues.filter fun u => u.2.ctx ≠ ctx
        conns := s.conns.filter fun k => k.2.ctx ≠ ctx
        ckpts := s.ckpts.filter fun i => i.2.gang.ctx ≠ ctx
        gone := s.gone.filter fun g => g.2.ctx ≠ ctx
        runTree := s.runTree.filter fun n => n.1 ≠ procNode ctx && n.2.parent ≠ some (procNode ctx) }

/-! ## Invalidation and revocation -/

def overlaps (va size : Nat) (e : TlbEnt) : Bool := decide (e.va < va + size) && decide (va < e.va + e.size)

/-- R424: every TLB of the partition drops the entries that overlap the range; a failure that a walk has found there is
no longer used. -/
def invalidate (ctx : Nat) (c : Ctx) (va size : Nat) (s : State) : State :=
  let drop (l : List TlbEnt) : List TlbEnt := l.filter fun e => !(decide (e.ctx = ctx) && overlaps va size e)
  { s with
    cores := s.cores.map fun k => (k.1, if c.partition.getLsbD (clusterOf k.1) then { k.2 with tlb := drop k.2.tlb } else k.2)
    ctlb := s.ctlb.map fun t => (t.1, if c.partition.getLsbD t.1 then drop t.2 else t.2)
    gangs := s.gangs.map fun g => (g.1, if g.2.ctx = ctx then
      { g.2 with walkFaults := g.2.walkFaults.filter fun w => !(decide (va ≤ w.1.toNat) && decide (w.1.toNat < va + size)) } else g.2) }

/-- R424. -/
def execTlbInvalidation (ctx : Nat) (va : Dword) (size : Nat) (s : State) : Outc :=
  match look ctx s.ctxs with
  | none => .fault .notEnabled
  | some c => .next (invalidate ctx c va.toNat size s)

/-- R264 to R266: where the leaf entry that translates an address stands. -/
def leafFrom (s : State) (va : Nat) : Nat → Nat → Option Nat
  | 0, _ => none
  | fuel + 1, table =>
    let level := 3 - fuel
    let at0 := table + 8 * walkIndex level va
    match readEntry level (memNat s at0 8) with
    | .fail _ => none
    | .table t => leafFrom s va fuel t
    | .page .. => some at0

/-- R425: Zalner clears the entry. -/
def unmapPage (root va : Nat) (s : State) : State :=
  match leafFrom s va 3 root with
  | some a => setBytes ((List.range 8).map fun i => (a + i, 0)) s
  | none => s

/-- The lowest address of a range that a copy request still needs. -/
def neededAt (va size : Nat) (r : CopyReq) : Option Nat :=
  if r.done ∨ r.dropped then none
  else (r.moves.filterMap fun m =>
    if m.va < va + size ∧ va < m.va + m.n then some (Nat.max va m.va) else none).min?

/-- R326: of what a request would write, some bytes in a range have been written when its page goes, and some have not. -/
def breakOff (core va size : Nat) (s : State) (r : CopyReq) : State :=
  if r.g2s ∨ !r.started then s
  else r.moves.foldl (fun s m =>
    (at' m.pa (moveSrc s core false m)).foldl (fun s b =>
      let at0 := m.va + (b.1 - m.pa)
      if at0 < va ∨ va + size ≤ at0 then s
      else
        let (there, s) := freshCoin s
        if there then engineWrite (dieOf core) [b] [] s else s) s) s

/-- R393, R425: a copy engine with an accepted request that needs the range freezes for the context: that request and the later
ones are held, and the earlier ones complete. -/
def freezeCopies (ctx va size : Nat) (s : State) : State :=
  s.cores.foldl (fun s k =>
    let mine := k.2.copies.filter fun r => r.ctx = ctx && !r.done && !r.dropped
    let held := mine.dropWhile fun r => !r.held && (neededAt va size r).isNone
    match (held.filterMap (neededAt va size)).min? with
    | none => s
    | some a =>
      let s := held.foldl (breakOff k.1 va size) s
      { updCore k.1 (fun c => { c with
          copies := c.copies.map fun r => if held.any fun h => h.id = r.id then { r with held := true } else r
          copyFrozen := if c.copyFrozen.contains ctx then c.copyFrozen else ctx :: c.copyFrozen }) s with
        reports := s.reports ++ [⟨some (.copyEngine k.1 ctx), ctx, causeWord cXLATE 0 0 3 false, num64 a, []⟩] }) s

/-- R425. -/
def execPageRevoke (ctx : Nat) (va : Dword) (size : Nat) (s : State) : Outc :=
  match look ctx s.ctxs with
  | none => .fault .notEnabled
  | some c =>
    let s := freezeCopies ctx va.toNat size s
    .next (invalidate ctx c va.toNat size ((pageSteps va.toNat size).foldl (fun s p => unmapPage c.root p s) s))

/-! ## Frozen masters -/

/-- R326, R425: the requests of a resumed engine find their pages again; or the engine stays frozen, and reports. -/
def retranslate (s : State) (ctx : Nat) (r : CopyReq) : Except (Word × Dword) CopyReq :=
  if r.ctx ≠ ctx ∨ !r.held ∨ r.done ∨ r.dropped then .ok r
  else
    match r.moves.mapM fun m => findMoves s ctx (if r.g2s then needR else needW) m.scratch [(m.va, m.n)] with
    | .ok ms => .ok { r with moves := ms.flatten, held := false }
    | .error e => .error e

/-- R411, R417: the lines of the walks that they make. -/
def heldLines (s : State) (core ctx : Nat) : List Nat :=
  missLines s core ctx (((coreOf s core).copies.filter fun r => r.ctx = ctx && r.held && !r.done && !r.dropped).flatMap fun r => r.moves.map (·.va))

def resumeCopies (core ctx : Nat) (s : State) : State :=
  match (coreOf s core).copies.mapM (retranslate s ctx) with
  | .ok rs => updCore core (fun c => { c with copies := rs, copyFrozen := c.copyFrozen.filter (· ≠ ctx) }) s
  | .error e => { s with reports := s.reports ++ [⟨some (.copyEngine core ctx), ctx, e.1, e.2, []⟩] }

/-- R425: Zalner resumes a frozen master. -/
def execResumeFrozenMaster (m : Master) (s : State) : Outc :=
  match m with
  | .gang k =>
    if ((look k s.gangs).bind (·.frozen)).isSome then .next (updGang k (fun g => { g with frozen := none }) s) else .fault .notEnabled
  | .copyEngine core ctx =>
    if !(coreOf s core).copyFrozen.contains ctx then .fault .notEnabled
    else comeUp (some (dieOf core)) (heldLines s core ctx) (fun s => .next (resumeCopies core ctx s)) s
  | .stream core slot =>
    if (look slot (coreOf s core).subs).any fun u => u.frozen && !u.stopping then
      .next (updSub core slot (fun u => { u with frozen := false }) s)
    else .fault .notEnabled
  | .conn k =>
    if (look k s.conns).any fun c => c.frozen && !c.closed then .next (updConn k (fun c => { c with frozen := false }) s)
    else .fault .notEnabled

/-- R326: the page of one word of a request is there. -/
def pageHere (s : State) (r : CopyReq) (m : CopyMove) : Bool :=
  match translateNow s r.ctx (if r.g2s then needR else needW) m.va with
  | .pa a => decide (a = m.pa)
  | _ => false

/-- R326: each byte that a dropped request would still have written is old or new; in a page that has gone, as it was when the page went, and
what stood in such a page is what the request had read of it. -/
def dropBytes (core : Nat) (r : CopyReq) (s : State) : State :=
  (copyLeft r).foldl (fun (s : State) w =>
    let m := w.2
    if !r.g2s && !pageHere s r m.1 then s
    else
      let b := if pageHere s r m.1 then readWords (moveFrom r.g2s m.1) m.2 (moveSrc s core r.g2s m.1) s else (m.2, s)
      (at' (moveTo r.g2s m.1) b.1).foldl (fun s x =>
        let (new, s) := freshCoin s
        if !new then s else if r.g2s then setSpad core [x] s else engineWrite (dieOf core) [x] [] s) b.2) s

/-- R326, R425: the frozen requests of the context are dropped, and the context is told. -/
def discardCopies (core ctx : Nat) (s : State) : State :=
  let mine := (coreOf s core).copies.filter fun r => r.ctx = ctx && r.held && !r.done && !r.dropped
  let s := mine.foldl (fun s r => markCopy r.id (fun r => { r with dropped := true }) core (dropBytes core r s)) s
  let s := (distinct (mine.map (·.gang))).foldl (fun s k => retire core k s) s
  { updCore core (fun c => { c with copyFrozen := c.copyFrozen.filter (· ≠ ctx) }) s with
    reports := s.reports ++ [⟨none, ctx, 0, 0, []⟩] }

/-- R425: Zalner discards a frozen master. -/
def execDiscardFrozenMaster (m : Master) (s : State) : Outc :=
  match m with
  | .gang k =>
    match look k s.gangs with
    | none => .fault .notEnabled
    | some g =>
      if g.frozen.isNone then .fault .notEnabled
      else
        let live := lanesWhere notEnded g
        .next (cancelLanes k live (logCancel k live (perfCount g.core g.ctx 0x0C (lanesOf live).length s)))
  | .copyEngine core ctx =>
    if (coreOf s core).copyFrozen.contains ctx then .next (discardCopies core ctx s) else .fault .notEnabled
  | .stream core slot =>
    if (look slot (coreOf s core).subs).any fun u => u.frozen then
      .next (updSub core slot (fun u => { u with stopping := true }) s)
    else .fault .notEnabled
  | .conn k =>
    if (look k s.conns).any fun c => c.frozen && !c.closed then
      .next (updConn k (fun c => { c with queued := [], closed := true }) s)
    else .fault .notEnabled

/-! ## Time and recovery -/

/-- R432: a message is stamped in hardware with the PTP time, which then follows the message; CLK does not. R421: in recovery mode
nothing answers it. -/
def execPtpMessageArrival (port : Fin 2) (time : Dword) (s : State) : Outc :=
  if !booted s then .next s
  else .next { s with ptp := { time := time, frac := 0, stamps := ins port.val (time, s.ptp.time) s.ptp.stamps } }

/-- R434: the checkpoints of a crew. -/
def imagesOf (s : State) (ck : Nat) : List (Nat × Image) := s.ckpts.filter fun i => i.2.crewKey = ck

/-- R434: the latest of some checkpoints, by which what the crew shares goes back. -/
def latestImage (is : List (Nat × Image)) : Option Image :=
  is.foldl (fun best i => match best with
    | none => some i.2
    | some b => if b.taken < i.2.taken then some i.2 else some b) none

/-- The crew goes back with all its gangs, where each of those it has left has a checkpoint (assumption 60). -/
def canRollBack (s : State) (ck : Nat) : Bool :=
  (crewGangs s ck).all fun g => (imagesOf s ck).any fun i => i.1 = g.1

def Barrier.rename (f : Nat → Nat) (b : Barrier) : Barrier :=
  let one (a : Arrival) : Arrival := { a with gang := f a.gang }
  { b with arrived := b.arrived.map one, issues := b.issues.map fun i => { i with arrivals := i.arrivals.map one } }

/-- The engine's state with its gangs under their new keys, and the crew under its own. -/
def Matrix.rename (f : Nat → Nat) (ck n : Nat) (m : Matrix) : Matrix :=
  let crew (k : Nat) : Nat := if k = ck then n else k
  { m with
    latch := m.latch.map fun r => { r with crew := crew r.crew }
    queue := m.queue.map fun o =>
      { o with gang := f o.gang, crew := crew o.crew, owed := o.owed.map f, started := false, src := []
               kind := match o.kind with | .mma c x => .mma c { x with members := x.members.map f } | k => k } }

/-- R434: what outlives the crew's old gangs goes over to its new ones: subscriptions and memberships as the checkpoint has them, and
the ensemble's barrier. -/
def handOver (im : Image) (ck n : Nat) (f : Nat → Nat) (s : State) : State :=
  let s := updCore im.crew.core (fun c =>
    let rest := c.subs.filter fun u => u.2.crew ≠ ck
    { c with subs := im.subs.foldl (fun m u =>
        if (look u.1 m).isSome then m else ins u.1 { u.2 with crew := n, moving := false, pas := [], src := [] } m) rest }) s
  { s with
    groups := s.groups.map fun q => (q.1, { q.2 with members := q.2.members.map fun m =>
      if m.crew = ck then ((im.members.find? fun o => o.1 = q.1 && o.2.cluster = m.cluster).map (·.2)).getD m |> fun o => { o with crew := n }
      else m })
    ens := s.ens.map fun e => (e.1, { e.2 with crews := e.2.crews.map fun k => if k = ck then n else k, bar := e.2.bar.rename f }) }

/-- R434: a crew goes back to its checkpoint: its gangs end, and its image waits, saved, for a core to take it. What its gangs had under
way counts no more (assumption 60). -/
def rollBack (s : State) (ck : Nat) : State :=
  let is := imagesOf s ck
  match latestImage is, canRollBack s ck with
  | some im, true =>
    let n := s.nextId
    let keys := is.mapIdx fun i x => (x.1, n + 1 + i)
    let newKey (k : Nat) : Nat := ((keys.find? fun x => x.1 = k).map (·.2)).getD k
    let s := handOver im ck n newKey { s with nextId := n + 1 + is.length }
    let s := (crewGangs s ck).foldl (fun s g => cancelLanes g.1 (lanesWhere notEnded g.2) s) s
    let s := { s with crews := del ck s.crews, gangs := s.gangs.filter fun g => g.2.crew ≠ ck }
    let alone := s.crews.all fun d => d.2.core ≠ im.crew.core || d.2.ctx ≠ im.crew.ctx
    let mx := if alone then im.mx.map (Matrix.rename newKey ck n) else none
    let s := updCore im.crew.core (fun c =>
      match mx with
      | none => c
      | some m => { c with mx := if c.mx.owner = m.owner then freshEngine im.crew.ctx else c.mx
                           mxSaved := m :: c.mxSaved.filter fun o => o.owner ≠ m.owner }) s
    let owes (k : Nat) : Nat := ((mx.map (·.queue)).getD []).countP fun o => o.owed.contains k
    let c := { im.crew with
      saved := true, gangs := keys.map (·.2), scanned := allClaims (keys.map (·.2)) im.crew.base im.crew.size
      moved := im.bytes, movedDesc := im.descs, bars := im.crew.bars.map (Barrier.rename newKey) }
    { s with
      crews := ins n c s.crews
      gangs := is.foldl (fun m x => ins (newKey x.1) { x.2.gang with
        crew := n, stop := .saved, frozen := none, ldcnt := 0, stcnt := 0, cpcnt := 0, mtcnt := owes (newKey x.1), holdOps := [] } m) s.gangs
      ckpts := is.foldl (fun m x => ins (newKey x.1) { x.2 with
        crewKey := n, crew := { c with saved := false, scanned := [], moved := [], movedDesc := [] }
        gang := { x.2.gang with crew := n }, mx := x.2.mx.map (Matrix.rename newKey ck n) } m)
        (s.ckpts.filter fun i => i.2.crewKey ≠ ck) }
  | _, _ => s

/-- R434: the failure is there: a link that has failed, a port, a module of the context's group. -/
def failureSeen (s : State) (c : Ctx) (why : Failure) : Bool :=
  match why with
  | .link a b => s.links.contains (a, b)
  | .portDown _ => true
  | .moduleSilent m => c.modules.contains m

/-- R434: Zalner reports the fault to the job's system controller, with every island's point, state and draw, and the job, a context,
resumes from its latest checkpoints. -/
def execFailureRecovery (job : Failed) (s : State) : Outc :=
  match look job.job s.ctxs with
  | none => .fault .notEnabled
  | some c =>
    if !failureSeen s c job.why then .fault .notEnabled
    else
      let crews := distinct ((s.ckpts.filter fun i => i.2.gang.ctx = job.job && (launchOf s job.job i.2.gang.ltag).isSome).map (·.2.crewKey))
      .next (crews.foldl rollBack { s with faults := s.faults ++ [⟨job.job, job.why, (List.range 64).map (islandOf s)⟩] })

end Sys2Proof.Machine
end

