-- ==== Sys2Proof/Machine/Dispatch.lean ====
section
/-! DEFINITION. One arm per constructor: the direct call of its meaning. -/

namespace Sys2Proof.Machine

def exec (i : Instr) (s : State) : Host.Outcome State Fault Refusal :=
  match i with
  | .nop h => Sys2Proof.Machine.execNop h s
  | .br h off => Sys2Proof.Machine.execBr h off s
  | .brx h a => Sys2Proof.Machine.execBrx h a s
  | .callLabel h d off => Sys2Proof.Machine.execCallLabel h d off s
  | .callRegister h d a => Sys2Proof.Machine.execCallRegister h d a s
  | .ret h a => Sys2Proof.Machine.execRet h a s
  | .exit h => Sys2Proof.Machine.execExit h s
  | .trap h a => Sys2Proof.Machine.execTrap h a s
  | .tret h => Sys2Proof.Machine.execTret h s
  | .getsr h wide d idx => Sys2Proof.Machine.execGetsr h wide d idx s
  | .setsr h wide a idx => Sys2Proof.Machine.execSetsr h wide a idx s
  | .setsrKey h wide a => Sys2Proof.Machine.execSetsrKey h wide a s
  | .setsrPerf h wide a k => Sys2Proof.Machine.execSetsrPerf h wide a k s
  | .yield h => Sys2Proof.Machine.execYield h s
  | .brk h => Sys2Proof.Machine.execBrk h s
  | .add h o => Sys2Proof.Machine.execAdd h o s
  | .sub h o => Sys2Proof.Machine.execSub h o s
  | .mul h o => Sys2Proof.Machine.execMul h o s
  | .mulhi h o => Sys2Proof.Machine.execMulhi h o s
  | .mad h o => Sys2Proof.Machine.execMad h o s
  | .div h o => Sys2Proof.Machine.execDiv h o s
  | .rem h o => Sys2Proof.Machine.execRem h o s
  | .neg h o => Sys2Proof.Machine.execNeg h o s
  | .abs h o => Sys2Proof.Machine.execAbs h o s
  | .min h o => Sys2Proof.Machine.execMin h o s
  | .max h o => Sys2Proof.Machine.execMax h o s
  | .and h o => Sys2Proof.Machine.execAnd h o s
  | .or h o => Sys2Proof.Machine.execOr h o s
  | .xor h o => Sys2Proof.Machine.execXor h o s
  | .not h o => Sys2Proof.Machine.execNot h o s
  | .shl h o => Sys2Proof.Machine.execShl h o s
  | .shr h o => Sys2Proof.Machine.execShr h o s
  | .sar h o => Sys2Proof.Machine.execSar h o s
  | .rol h o => Sys2Proof.Machine.execRol h o s
  | .ror h o => Sys2Proof.Machine.execRor h o s
  | .popc h o => Sys2Proof.Machine.execPopc h o s
  | .clz h o => Sys2Proof.Machine.execClz h o s
  | .ctz h o => Sys2Proof.Machine.execCtz h o s
  | .brev h o => Sys2Proof.Machine.execBrev h o s
  | .bfe h o => Sys2Proof.Machine.execBfe h o s
  | .bfi h o => Sys2Proof.Machine.execBfi h o s
  | .sel h o => Sys2Proof.Machine.execSel h o s
  | .mov h o => Sys2Proof.Machine.execMov h o s
  | .setp h o => Sys2Proof.Machine.execSetp h o s
  | .plog h op d a b => Sys2Proof.Machine.execPlog h op d a b s
  | .addc h o => Sys2Proof.Machine.execAddc h o s
  | .lea h o scale => Sys2Proof.Machine.execLea h o scale s
  | .fadd h o => Sys2Proof.Machine.execFadd h o s
  | .fsub h o => Sys2Proof.Machine.execFsub h o s
  | .fmul h o => Sys2Proof.Machine.execFmul h o s
  | .ffma h o => Sys2Proof.Machine.execFfma h o s
  | .fnfma h o => Sys2Proof.Machine.execFnfma h o s
  | .fdiv h o => Sys2Proof.Machine.execFdiv h o s
  | .fsqrt h o => Sys2Proof.Machine.execFsqrt h o s
  | .frcp h o => Sys2Proof.Machine.execFrcp h o s
  | .frsq h o => Sys2Proof.Machine.execFrsq h o s
  | .fmin h o => Sys2Proof.Machine.execFmin h o s
  | .fmax h o => Sys2Proof.Machine.execFmax h o s
  | .fabs h o => Sys2Proof.Machine.execFabs h o s
  | .fneg h o => Sys2Proof.Machine.execFneg h o s
  | .fsetp h o => Sys2Proof.Machine.execFsetp h o s
  | .fclass h o => Sys2Proof.Machine.execFclass h o s
  | .frnd h o => Sys2Proof.Machine.execFrnd h o s
  | .fcpsgn h o => Sys2Proof.Machine.execFcpsgn h o s
  | .fscale h o => Sys2Proof.Machine.execFscale h o s
  | .fexpo h o => Sys2Proof.Machine.execFexpo h o s
  | .fmant h o => Sys2Proof.Machine.execFmant h o s
  | .f2sum h o => Sys2Proof.Machine.execF2sum h o s
  | .f2prod h o => Sys2Proof.Machine.execF2prod h o s
  | .fdot2 h o => Sys2Proof.Machine.execFdot2 h o s
  | .fpfma h o => Sys2Proof.Machine.execFpfma h o s
  | .cvt h o => Sys2Proof.Machine.execCvt h o s
  | .pack h o => Sys2Proof.Machine.execPack h o s
  | .unpk h hi o => Sys2Proof.Machine.execUnpk h hi o s
  | .qnt h d a b => Sys2Proof.Machine.execQnt h d a b s
  | .qntIns h d a b j => Sys2Proof.Machine.execQntIns h d a b j s
  | .fexp2 h o => Sys2Proof.Machine.execFexp2 h o s
  | .flog2 h o => Sys2Proof.Machine.execFlog2 h o s
  | .rand h t d => Sys2Proof.Machine.execRand h t d s
  | .seed h fid a => Sys2Proof.Machine.execSeed h fid a s
  | .wclr h d => Sys2Proof.Machine.execWclr h d s
  | .wclrStat h d => Sys2Proof.Machine.execWclrStat h d s
  | .wadd h t d a => Sys2Proof.Machine.execWadd h t d a s
  | .wsub h t d a => Sys2Proof.Machine.execWsub h t d a s
  | .wmul2 h o => Sys2Proof.Machine.execWmul2 h o s
  | .wmul3 h o c => Sys2Proof.Machine.execWmul3 h o c s
  | .wsgn h wide d a p => Sys2Proof.Machine.execWsgn h wide d a p s
  | .wrnd h wide rm d a => Sys2Proof.Machine.execWrnd h wide rm d a s
  | .wmov h op d a => Sys2Proof.Machine.execWmov h op d a s
  | .wld h o => Sys2Proof.Machine.execWld h o s
  | .wst h o => Sys2Proof.Machine.execWst h o s
  | .ld h o => Sys2Proof.Machine.execLd h o s
  | .st h o => Sys2Proof.Machine.execSt h o s
  | .imageStore h t map d a b => Sys2Proof.Machine.execImageStore h t map d a b s
  | .atom h o => Sys2Proof.Machine.execAtom h o s
  | .cas h o => Sys2Proof.Machine.execCas h o s
  | .red h o => Sys2Proof.Machine.execRed h o s
  | .fenceAcq h sc => Sys2Proof.Machine.execFenceAcq h sc s
  | .fenceRel h sc => Sys2Proof.Machine.execFenceRel h sc s
  | .fenceFull h sc => Sys2Proof.Machine.execFenceFull h sc s
  | .fenceComplete g id => Sys2Proof.Machine.execFenceComplete g id s
  | .prefL1 h a b => Sys2Proof.Machine.execPrefL1 h a b s
  | .prefL2 h a b => Sys2Proof.Machine.execPrefL2 h a b s
  | .invalL1 h a b => Sys2Proof.Machine.execInvalL1 h a b s
  | .invalAll h => Sys2Proof.Machine.execInvalAll h s
  | .invalRdc h a b => Sys2Proof.Machine.execInvalRdc h a b s
  | .flush h a b => Sys2Proof.Machine.execFlush h a b s
  | .flushAll h => Sys2Proof.Machine.execFlushAll h s
  | .ldesc h o => Sys2Proof.Machine.execLdesc h o s
  | .sdesc h o => Sys2Proof.Machine.execSdesc h o s
  | .dalloc h d a => Sys2Proof.Machine.execDalloc h d a s
  | .dallocZ h d a => Sys2Proof.Machine.execDallocZ h d a s
  | .magazineRefill core ctx cls => Sys2Proof.Machine.execMagazineRefill core ctx cls s
  | .dfree h a => Sys2Proof.Machine.execDfree h a s
  | .spawnLabel h o off => Sys2Proof.Machine.execSpawnLabel h o off s
  | .spawnRegister h o c => Sys2Proof.Machine.execSpawnRegister h o c s
  | .binTimerExpiry core bin => Sys2Proof.Machine.execBinTimerExpiry core bin s
  | .spawnGangPlacement core => Sys2Proof.Machine.execSpawnGangPlacement core s
  | .overflowReturn core ctx seg => Sys2Proof.Machine.execOverflowReturn core ctx seg s
  | .barSync h a b => Sys2Proof.Machine.execBarSync h a b s
  | .barArv h a b => Sys2Proof.Machine.execBarArv h a b s
  | .barEsync h b => Sys2Proof.Machine.execBarEsync h b s
  | .barEarv h b => Sys2Proof.Machine.execBarEarv h b s
  | .barRgn h d => Sys2Proof.Machine.execBarRgn h d s
  | .barrierPhaseComplete ens owner idx => Sys2Proof.Machine.execBarrierPhaseComplete ens owner idx s
  | .voteAll h d a => Sys2Proof.Machine.execVoteAll h d a s
  | .voteAny h d a => Sys2Proof.Machine.execVoteAny h d a s
  | .voteBallot h d a => Sys2Proof.Machine.execVoteBallot h d a s
  | .voteUni h wide d a => Sys2Proof.Machine.execVoteUni h wide d a s
  | .shfl h wide mode d a b c => Sys2Proof.Machine.execShfl h wide mode d a b c s
  | .gred h o => Sys2Proof.Machine.execGred h o s
  | .gscan h o excl => Sys2Proof.Machine.execGscan h o excl s
  | .matchAny h wide d a => Sys2Proof.Machine.execMatchAny h wide d a s
  | .matchAll h wide d a c => Sys2Proof.Machine.execMatchAll h wide d a c s
  | .racq h k => Sys2Proof.Machine.execRacq h k s
  | .racqGrant core => Sys2Proof.Machine.execRacqGrant core s
  | .regdeadlockDetect core => Sys2Proof.Machine.execRegdeadlockDetect core s
  | .rrel h k => Sys2Proof.Machine.execRrel h k s
  | .incu h rel d a k => Sys2Proof.Machine.execIncu h rel d a k s
  | .incumbentCommit msg => Sys2Proof.Machine.execIncumbentCommit msg s
  | .incumbentBroadcastArrival core bcast => Sys2Proof.Machine.execIncumbentBroadcastArrival core bcast s
  | .systemIncumbentForward ctx k key => Sys2Proof.Machine.execSystemIncumbentForward ctx k key s
  | .incrd h d k => Sys2Proof.Machine.execIncrd h d k s
  | .incrdHome h acq d k => Sys2Proof.Machine.execIncrdHome h acq d k s
  | .bnd h a k => Sys2Proof.Machine.execBnd h a k s
  | .defer h n => Sys2Proof.Machine.execDefer h n s
  | .popen h => Sys2Proof.Machine.execPopen h s
  | .accept h d a => Sys2Proof.Machine.execAccept h d a s
  | .pclose h => Sys2Proof.Machine.execPclose h s
  | .launch h d a => Sys2Proof.Machine.execLaunch h d a s
  | .signal h sc a b => Sys2Proof.Machine.execSignal h sc a b s
  | .signalAdd h sc a b => Sys2Proof.Machine.execSignalAdd h sc a b s
  | .orbitSize h d => Sys2Proof.Machine.execOrbitSize h d s
  | .orbitStab h d => Sys2Proof.Machine.execOrbitStab h d s
  | .orbitImg h d j => Sys2Proof.Machine.execOrbitImg h d j s
  | .role h k => Sys2Proof.Machine.execRole h k s
  | .stgw h a b ph => Sys2Proof.Machine.execStgw h a b ph s
  | .stgwPass g => Sys2Proof.Machine.execStgwPass g s
  | .stga h a b => Sys2Proof.Machine.execStga h a b s
  | .copyG2s h desc d a b c => Sys2Proof.Machine.execCopyG2s h desc d a b c s
  | .copyS2g h desc d a b c => Sys2Proof.Machine.execCopyS2g h desc d a b c s
  | .copyAcceptance g => Sys2Proof.Machine.execCopyAcceptance g s
  | .gath h t d a b => Sys2Proof.Machine.execGath h t d a b s
  | .scat h t d a b => Sys2Proof.Machine.execScat h t d a b s
  | .copyComplete core id => Sys2Proof.Machine.execCopyComplete core id s
  | .wait h l s' c m => Sys2Proof.Machine.execWait h l s' c m s
  | .waitComplete g => Sys2Proof.Machine.execWaitComplete g s
  | .sleep h a => Sys2Proof.Machine.execSleep h a s
  | .sleepWake g => Sys2Proof.Machine.execSleepWake g s
  | .subs h d a => Sys2Proof.Machine.execSubs h d a s
  | .subscriptionTile core slot => Sys2Proof.Machine.execSubscriptionTile core slot s
  | .unsub h d a => Sys2Proof.Machine.execUnsub h d a s
  | .troupe h a => Sys2Proof.Machine.execTroupe h a s
  | .mopf h => Sys2Proof.Machine.execMopf h s
  | .mopfComplete g => Sys2Proof.Machine.execMopfComplete g s
  | .mma h o => Sys2Proof.Machine.execMma h o s
  | .matrixStep core => Sys2Proof.Machine.execMatrixStep core s
  | .mmaComplete core => Sys2Proof.Machine.execMmaComplete core s
  | .matrixFaultDelivery g => Sys2Proof.Machine.execMatrixFaultDelivery g s
  | .mld h o => Sys2Proof.Machine.execMld h o s
  | .mst h o => Sys2Proof.Machine.execMst h o s
  | .tileMoveComplete core id => Sys2Proof.Machine.execTileMoveComplete core id s
  | .mcont h tile => Sys2Proof.Machine.execMcont h tile s
  | .wbload h a b c => Sys2Proof.Machine.execWbload h a b c s
  | .wbloadComplete core id => Sys2Proof.Machine.execWbloadComplete core id s
  | .cgrp h d a b => Sys2Proof.Machine.execCgrp h d a b s
  | .cgrpFree h b => Sys2Proof.Machine.execCgrpFree h b s
  | .cag h t d a b => Sys2Proof.Machine.execCag h t d a b s
  | .crs h o b => Sys2Proof.Machine.execCrs h o b s
  | .ca2a h t d a b => Sys2Proof.Machine.execCa2a h t d a b s
  | .collectivePerform grp k => Sys2Proof.Machine.execCollectivePerform grp k s
  | .cbar h d a => Sys2Proof.Machine.execCbar h d a s
  | .cwait h d a => Sys2Proof.Machine.execCwait h d a s
  | .ckpt h d a => Sys2Proof.Machine.execCkpt h d a s
  | .ckptHold h d a => Sys2Proof.Machine.execCkptHold h d a s
  | .ckptResume g => Sys2Proof.Machine.execCkptResume g s
  | .perfSel h d a k => Sys2Proof.Machine.execPerfSel h d a k s
  | .perfSmp h d a => Sys2Proof.Machine.execPerfSmp h d a s
  | .stallSample core => Sys2Proof.Machine.execStallSample core s
  | .takeTrap g => Sys2Proof.Machine.execTakeTrap g s
  | .meshRequestArrival id => Sys2Proof.Machine.execMeshRequestArrival id s
  | .l2Lookup die slice => Sys2Proof.Machine.execL2Lookup die slice s
  | .hbmFillComplete line => Sys2Proof.Machine.execHbmFillComplete line s
  | .cacheFillArrival id => Sys2Proof.Machine.execCacheFillArrival id s
  | .loadReply id => Sys2Proof.Machine.execLoadReply id s
  | .l1Eviction core line => Sys2Proof.Machine.execL1Eviction core line s
  | .peerAccessArrival id => Sys2Proof.Machine.execPeerAccessArrival id s
  | .pageWalkComplete id => Sys2Proof.Machine.execPageWalkComplete id s
  | .launchAcceptance q => Sys2Proof.Machine.execLaunchAcceptance q s
  | .ticketClaim ctx ltag core => Sys2Proof.Machine.execTicketClaim ctx ltag core s
  | .launchCompletion ctx ltag => Sys2Proof.Machine.execLaunchCompletion ctx ltag s
  | .stealRequest core ctx => Sys2Proof.Machine.execStealRequest core ctx s
  | .stealReply id => Sys2Proof.Machine.execStealReply id s
  | .stolenRecordsArrival id => Sys2Proof.Machine.execStolenRecordsArrival id s
  | .queueFetch q => Sys2Proof.Machine.execQueueFetch q s
  | .queueWake q => Sys2Proof.Machine.execQueueWake q s
  | .queueUnmap q => Sys2Proof.Machine.execQueueUnmap q s
  | .queueMap q ctx desc weight => Sys2Proof.Machine.execQueueMap q ctx desc weight s
  | .rdmaWrite conn va data => Sys2Proof.Machine.execRdmaWrite conn va data s
  | .rdmaRead conn va len => Sys2Proof.Machine.execRdmaRead conn va len s
  | .rdmaSend conn data => Sys2Proof.Machine.execRdmaSend conn data s
  | .rdmaRefused conn kind => Sys2Proof.Machine.execRdmaRefused conn kind s
  | .preemptRequest ctx cores urgent => Sys2Proof.Machine.execPreemptRequest ctx cores urgent s
  | .stopReleaseComplete g => Sys2Proof.Machine.execStopReleaseComplete g s
  | .storageClaimScanOut core ctx claim => Sys2Proof.Machine.execStorageClaimScanOut core ctx claim s
  | .crewRestore crew core => Sys2Proof.Machine.execCrewRestore crew core s
  | .powerOn stages => Sys2Proof.Machine.execPowerOn stages s
  | .attestationReport nonce => Sys2Proof.Machine.execAttestationReport nonce s
  | .createContext cfg => Sys2Proof.Machine.execCreateContext cfg s
  | .tlbInvalidation ctx va size => Sys2Proof.Machine.execTlbInvalidation ctx va size s
  | .pageRevoke ctx va size => Sys2Proof.Machine.execPageRevoke ctx va size s
  | .resumeFrozenMaster m => Sys2Proof.Machine.execResumeFrozenMaster m s
  | .discardFrozenMaster m => Sys2Proof.Machine.execDiscardFrozenMaster m s
  | .counterGrant core ctx ring size => Sys2Proof.Machine.execCounterGrant core ctx ring size s
  | .breakpointTableWrite ctx idx hdr ord enable => Sys2Proof.Machine.execBreakpointTableWrite ctx idx hdr ord enable s
  | .powerMeasurement mw => Sys2Proof.Machine.execPowerMeasurement mw s
  | .powerThrottleStep => Sys2Proof.Machine.execPowerThrottleStep s
  | .setPowerCap watts => Sys2Proof.Machine.execSetPowerCap watts s
  | .islandStateChange k => Sys2Proof.Machine.execIslandStateChange k s
  | .islandExitComplete k => Sys2Proof.Machine.execIslandExitComplete k s
  | .flitRetransmit src dst => Sys2Proof.Machine.execFlitRetransmit src dst s
  | .linkFailure src dst => Sys2Proof.Machine.execLinkFailure src dst s
  | .failureRecovery job => Sys2Proof.Machine.execFailureRecovery job s
  | .storeAcknowledgement id => Sys2Proof.Machine.execStoreAcknowledgement id s
  | .stealRefusalArrival id => Sys2Proof.Machine.execStealRefusalArrival id s
  | .subscriptionTileComplete core slot => Sys2Proof.Machine.execSubscriptionTileComplete core slot s
  | .linkRecovery src dst => Sys2Proof.Machine.execLinkRecovery src dst s
  | .ptpMessageArrival port time => Sys2Proof.Machine.execPtpMessageArrival port time s
  | .destroyContext ctx => Sys2Proof.Machine.execDestroyContext ctx s
  | .emptyReplayLog ctx => Sys2Proof.Machine.execEmptyReplayLog ctx s

end Sys2Proof.Machine
end

