-- ==== Sys2Proof/Machine/Agenda.lean ====
section
/-! DEFINITION. What may happen next: the device's own steps that are due, the gangs that may issue, the outside world; and
what passing time does (01 R4; 08 R156; 09 R191, R194; 23 R426; 24 R439). -/

namespace Sys2Proof.Machine

/-! ## Time -/

/-- R191, R194: the broadcasts whose bound on arrival has passed reach their cores before anything else happens. -/
def overdueCores (s : State) (b : Bcast) : List Nat :=
  let late := s.clk.toNat - b.time.toNat
  if late ≤ 128 then []
  else (List.range coreCount).filter fun c => !b.got.contains c && (decide (dieOf c = b.k % 4) || decide (512 < late))
    && sendUp s (b.k % 4) (dieOf c)

def deliverOverdue (s : State) : State :=
  s.bcasts.foldl (fun s b => (overdueCores s b.2).foldl (fun s c =>
    match look b.1 s.bcasts with
    | some b' => arriveBcast c b.1 b' s
    | none => s) s) s

/-- R439, R443: some cycles of a granted core, at a CLK: the cycles themselves, and each resident gang's stall reason in them. -/
def perfTick (core ctx n : Nat) (clk : Dword) (s : State) : State :=
  let now := { s with clk := clk }
  (s.gangs.filter fun g => g.2.core = core && g.2.ctx = ctx && g.2.stop ≠ .saved).foldl
    (fun s g => perfCount core ctx (0x10 + stallReason now g.1 g.2) n s) (perfCount core ctx 1 n s)

/-- R441: the events of a cycle enter the counters as it ends. -/
def endCycle (core : Nat) (s : State) : State := updPerf core Perf.endCycle s

/-- R439, R441: what n cycles add: the one in which the latest step was made, and those that pass without one. -/
def perfCycles (n : Nat) (s : State) : State :=
  s.cores.foldl (fun s c =>
    match c.2.perf.owner with
    | none => s
    | some ctx =>
      if n = 0 then s
      else
        let s := endCycle c.1 (perfTick c.1 ctx 1 s.clk s)
        if n = 1 then s else endCycle c.1 (perfTick c.1 ctx (n - 1) (s.clk + 1) s)) s

/-- R426: the ns of some cycles at 700 MHz. -/
def cycleNs (n : Nat) : Rat := mkRat (10 * n) 7

/-- R426: a queue's leaf is charged with a 64th of the lane-slot cycles of its resident gangs. -/
def chargeQueues (n : Nat) (s : State) : State :=
  s.gangs.foldl (fun s g =>
    if g.2.stop = .saved then s
    else
      match (gangLaunch s g.2).bind (·.queue) with
      | some q => { s with runTree := chargeLeaf (leafNode q) (cycleNs (n * g.2.width) / 64) s.runTree }
      | none => s) s

/-- R426: of these nodes the one of least virtual time. -/
def leastNode (t : AMap RunNode) (ks : List Nat) : Option Nat :=
  let v (k : Nat) : Rat := ((look k t).map (·.vtime)).getD 0
  ks.foldl (fun best k => match best with
    | none => some k
    | some b => if v k < v b then some k else some b) none

/-- R426: the thread that a control core runs, of those that no other one runs: the child of least virtual time at each level. -/
def nextThread (t : AMap RunNode) (busy : List Nat) : Option Nat :=
  let ts := t.filter fun x => x.2.thread.isSome && !busy.contains x.1
  (leastNode t (distinct (ts.filterMap (·.2.parent)))).bind fun p => leastNode t ((ts.filter fun x => x.2.parent = some p).map (·.1))

/-- R426: the eight control cores run threads, which are charged with the time (assumption 89: a thread is always runnable). -/
def runThreads (n : Nat) (s : State) : State :=
  let ks := (List.range 8).foldl (fun acc _ => match nextThread s.runTree acc with
    | some k => acc ++ [k]
    | none => acc) []
  { s with runTree := ks.foldl (fun t k => chargeLeaf k (cycleNs n) t) s.runTree }

/-- R432: the PTP time runs on, 10 ns in 7 cycles (assumption 90). -/
def Ptp.run (n : Nat) (p : Ptp) : Ptp :=
  { p with time := p.time + num64 ((p.frac + 10 * n) / 7), frac := (p.frac + 10 * n) % 7 }

/-- What has nothing left to wait for is over: operations whose last replies a cancellation has dropped, and descriptors of `subs` that
have come back. -/
def settleOps (s : State) : State :=
  (s.ops.filter fun o => o.2.left = 0).foldl (fun s o =>
    if o.2.sub.isSome then subsDone o.1 s else settle o.2.gang (allocDone o.2.gang o.1 s)) s

/-- R327: the engines of a core move some of what they have started. -/
def advanceCore (s : State) (core : Nat) : State := advanceMoves core (advanceTiles core (advanceCopies core s))

/-- What n cycles bring that no choice can put off: counts and charges, broadcasts that are overdue, and the starts of the engines. -/
def settleTime (n : Nat) (s : State) : State :=
  let s := runThreads n (chargeQueues n (perfCycles n (settleOps s)))
  startColls (startMoves (startCopies (purgePools (deliverOverdue
    (holdImages { s with clk := s.clk + BitVec.ofNat 64 n, seq := s.seq + 1, ptp := s.ptp.run n })))))

/-- Assumption 1: some cycles pass; what no choice can put off happens, and the engines go on. -/
def tick (s : State) : State := (s.cores.map (·.1)).foldl advanceCore (settleTime (Config.tick s.seq) s)

/-! ## The device's own steps -/

def reqSteps (r : Req) : List Instr :=
  match r.stage with
  | .mesh => [.meshRequestArrival r.id]
  | .router | .parked => []
  | .queue => [.l2Lookup (reqDie r) (sliceOf (128 * r.line))]
  | .filled _ => [.cacheFillArrival r.id]
  | .answered _ => [.loadReply r.id, .storeAcknowledgement r.id]

/-- R155: what may end a fibre's own wait; a phase that is complete ends by itself (`phaseSteps`). -/
def waitSteps (k : Nat) (w : WaitKind) : List Instr :=
  match w with
  | .fence _ _ id => [.fenceComplete k id]
  | .mopf _ => [.mopfComplete k]
  | .copy => [.copyAcceptance k]
  | _ => []

/-- R155: what may end a wait of the whole gang. -/
def gwaitSteps (k : Nat) (w : WaitKind) : List Instr :=
  match w with
  | .stgw .. => [.stgwPass k]
  | .sleep .. => [.sleepWake k]
  | .counters .. | .role _ => [.waitComplete k]
  | _ => []

def gangSteps (k : Nat) (g : Gang) : List Instr :=
  (g.fibres.flatMap fun f => (f.wait.map fun w => waitSteps k w.kind).getD [] ++ (f.gwait.map fun w => gwaitSteps k w.kind).getD [])
    ++ (if g.stop = .stopping then [.stopReleaseComplete k] else [])

/-- The oldest `copy` not accepted, where its gang has ended. -/
def coreSteps (s : State) (k : Nat) (c : Core) : List Instr :=
  let ended (o : MxOp) : List Instr := match o.kind with
    | .mma _ x => (match x.members.head? with
      | some g => if (look g s.gangs).isNone then [Instr.matrixFaultDelivery g] else []
      | none => [])
    | _ => []
  [c.copyPend.map fun p => Instr.copyAcceptance p.gang,
   c.copies.map fun r => Instr.copyComplete k r.id,
   c.bins.mapIdx fun i _ => Instr.binTimerExpiry k i,
   if c.bins = [] then [] else [Instr.spawnGangPlacement k],
   if c.racq = [] then [] else [Instr.racqGrant k, Instr.regdeadlockDetect k],
   (distinct (c.l1.map fun x => x.1 / 128)).map (Instr.l1Eviction k),
   c.uo.map fun u => Instr.l1Eviction k u.line,
   c.refills.map fun r => Instr.magazineRefill k r.ctx r.cls,
   c.mx.queue.flatMap fun o => [Instr.matrixStep k, Instr.mmaComplete k, Instr.tileMoveComplete k o.id, Instr.wbloadComplete k o.id],
   c.mx.queue.flatMap ended,
   c.subs.flatMap fun u => [Instr.subscriptionTile k u.1, Instr.subscriptionTileComplete k u.1],
   if c.perf.owner.isSome then [Instr.stallSample k] else []].flatten

/-- The cores of a context's partition. -/
def partCores (c : Ctx) : List Nat := ((List.range 48).filter fun i => c.partition.getLsbD i).flatMap coresOf

/-- R187: the claim that is granted next. -/
def claimSteps (s : State) (ctx : Nat) (c : Ctx) (ltag : Nat) (l : Launch) : List Instr :=
  if ticketCrews l = [] ∨ !turnCome c l then []
  else (((rotation l).find? (canClaim s ctx ltag c l)).map fun k => Instr.ticketClaim ctx ltag k).toList

/-- R398, R405: the saved crews that a core which is not vacated may take back. -/
def restoreSteps (s : State) (c : Ctx) (ctx : Nat) : List Instr :=
  (s.crews.filter fun k => k.2.saved && k.2.ctx = ctx).flatMap fun k =>
    ((if bound s k.1 k.2 then [k.2.core] else partCores c).filter fun o => !isVacated s o ctx).map fun o => Instr.crewRestore k.1 o

def ctxSteps (s : State) (ctx : Nat) (c : Ctx) : List Instr :=
  (c.launches.flatMap fun l => claimSteps s ctx c l.1 l.2 ++ [Instr.launchCompletion ctx l.1])
    ++ (c.segs.flatMap fun g => if g.2.recs = [] then [] else (partCores c).map fun k => Instr.overflowReturn k ctx g.1)
    ++ ((partCores c).map fun k => Instr.stealRequest k ctx) ++ restoreSteps s c ctx

def stealSteps (id : Nat) : StealMsg → List Instr
  | .request .. => [.stealReply id]
  | .refusal _ => [.stealRefusalArrival id]
  | .records .. => [.stolenRecordsArrival id]

def queueSteps (q : Nat) (u : Queue) : List Instr :=
  [.launchAcceptance q, .queueFetch q, .queueWake q] ++ if u.step = 0 then [] else [.queueUnmap q]

/-- R191: a broadcast may reach any core it has not reached. -/
def bcastSteps (id : Nat) (b : Bcast) : List Instr :=
  ((List.range coreCount).filter fun c => !b.got.contains c).map fun c => .incumbentBroadcastArrival c id

/-- The steps of the device that its objects may take; those that are not due are refused by their meanings. -/
def candidates (s : State) : List Instr :=
  s.reqs.flatMap reqSteps ++ s.statuses.map Instr.loadReply ++ (s.fills.map Instr.hbmFillComplete) ++ (s.peers.map fun p => .peerAccessArrival p.id)
    ++ (s.walks.map fun w => .pageWalkComplete w.1) ++ s.gangs.flatMap (fun g => gangSteps g.1 g.2)
    ++ s.cores.flatMap (fun c => coreSteps s c.1 c.2) ++ s.ctxs.flatMap (fun c => ctxSteps s c.1 c.2)
    ++ s.steals.flatMap (fun m => stealSteps m.1 m.2) ++ s.queues.flatMap (fun u => queueSteps u.1 u.2)
    ++ s.bcasts.flatMap (fun b => bcastSteps b.1 b.2) ++ (s.incMsgs.map fun m => .incumbentCommit m.id)
    ++ (s.groups.flatMap fun g => (distinct (g.2.reqs.map (·.k))).map fun k => Instr.collectivePerform g.1 k)
    ++ (s.islands.flatMap fun i => (if i.2.exiting then [Instr.islandExitComplete i.1] else [])
        ++ if islandWake s i.1 then [.islandStateChange i.1] else [])

/-- The step of the device that is due. -/
def due (s : State) (i : Instr) : Bool :=
  match exec i s with
  | .next _ => true
  | _ => false

/-! ## The outside world -/

/-- What outside parties do: Zalner, the hosts, other modules, the power controller and the links. -/
def outside : Instr → Bool
  | .queueUnmap _ | .queueMap .. | .rdmaWrite .. | .rdmaRead .. | .rdmaSend .. | .rdmaRefused .. | .preemptRequest ..
  | .storageClaimScanOut .. | .crewRestore .. | .powerOn _ | .attestationReport _ | .createContext _ | .tlbInvalidation ..
  | .pageRevoke .. | .resumeFrozenMaster _ | .discardFrozenMaster _ | .counterGrant .. | .breakpointTableWrite ..
  | .powerMeasurement .. | .powerThrottleStep | .setPowerCap _ | .islandStateChange _ | .flitRetransmit ..
  | .linkFailure .. | .failureRecovery .. | .linkRecovery .. | .ptpMessageArrival .. | .destroyContext _
  | .emptyReplayLog _ | .ckptResume _ | .systemIncumbentForward .. => true
  | _ => false

/-- R431: the connection that an operation is posted on. -/
def connOf : Instr → Option Nat
  | .rdmaWrite c .. | .rdmaRead c .. | .rdmaSend c _ | .rdmaRefused c _ => some c
  | _ => none

/-- R431, R393: an operation that must wait behind others of its connection. -/
def mustQueue (s : State) (i : Instr) : Option Nat :=
  (connOf i).bind fun k =>
    match look k s.conns with
    | some c => if c.closed || (!c.frozen && c.queued.isEmpty) then none else some k
    | none => none

/-- The oldest thing that the outside world does is taken: performed, queued, or, where no outside party can do it, dropped. -/
def takeInbox (i : Instr) (rest : List Instr) (s : State) : Outc :=
  let s := { s with inbox := rest }
  if !outside i then .next s
  else
    match mustQueue s i with
    | some k => .next (updConn k (fun c => { c with queued := c.queued ++ [i] }) s)
    | none => exec i s

/-! ## Issue -/

/-- R365: the fault of a split operation comes before the gang's next issue, and after the traps of earlier instructions. -/
def faultDue (s : State) (k : Nat) (g : Gang) : Bool :=
  (s.cores.any fun c => (splitOf s c.2.mx.queue k).isSome) && issueSettled s k g && (faultGroup s k g).isSome

/-- R250, R411, R417: the block at a PC stands in the core's instruction cache, or can be fetched from its home. -/
def fetchUp (s : State) (g : Gang) (pc : Pc) : Bool :=
  match translate s g needX pc.toNat with
  | .pa a => (look (blockOf a) (coreOf s g.core).icache).isSome || pathUp s (dieOf g.core) a
  | _ => true

/-- R156: a gang has something to issue, or a trap to take. -/
def gangReady (s : State) (k : Nat) (g : Gang) : Bool :=
  gangRuns s k g && islandUp s (clusterOf g.core) && (s.walks.all fun w => w.2.gang ≠ k)
    && (pendDue s k g ||
      let v := settledGang s g
      ((readyPcs g ++ readyPcs v).all (fetchUp s g)) && ((chooseGroup v).isSome || faultDue s k v))

/-- R250: the blocks at a gang's PCs come into its core's instruction cache. -/
def fetchBlocks (k : Nat) (s : State) : State :=
  match look k s.gangs with
  | none => s
  | some g =>
    (readyPcs g).foldl (fun s pc =>
      match translate s g needX pc.toNat with
      | .pa a => fetchBlock g.core (blockOf a) s
      | _ => s) s

/-- R51, R69, R70: the group at a PC issues what is fetched there: a missing translation starts its walk, a word that does not decode
takes its trap. R365, R382: the fault of a split operation comes before an instruction that has no fault of decoding. -/
def issueAt (k : Nat) (g : Gang) (group : BitVec 64) (pc : Pc) (s : State) : Outc :=
  match fetch s g pc with
  | .fill => .next (skipFill k group pc s)
  | .miss va => .next (startWalks k g needX [va] s)
  | .bad c a => .next (trapAt k group pc c a s)
  | .instr i =>
    match decodeFault s g i, deliverFault k s with
    | some c, _ => .next (trapAt k group pc (cause c) 0 s)
    | none, some t => .next t
    | none, none => exec i { s with cur := ⟨k, group, pc⟩ }

/-- R156, R157, R192, R382, R383: a gang's turn: the trap that is due; else the guard's test, the fill words, and an issue. -/
def gangTurn (k : Nat) (s : State) : Outc :=
  match look k s.gangs with
  | none => .next s
  | some g =>
    if pendDue s k g then exec (.takeTrap k) s
    else
      let s := fetchBlocks k (settleFills k (fetchBlocks k (guardGang k (dropStale g.core s))))
      match look k s.gangs with
      | none => .next s
      | some g =>
        if !gangRuns s k g then .next s
        else if pendDue s k g then exec (.takeTrap k) s
        else
          match pickGroup s k g with
          | none => .next ((deliverFault k s).getD s)
          | some (group, pc) => issueAt k g group pc s

/-! ## Moves -/

/-- One thing that may happen next. -/
inductive Move where
  | device (i : Instr)
  | inbox (i : Instr) (rest : List Instr)
  | kept (conn : Nat) (i : Instr) (rest : List Instr)   -- an operation that a connection has kept
  | gang (k : Nat)
  deriving DecidableEq, Repr

/-- The outside world's next move; it waits while it cannot be performed. -/
def inboxMoves (s : State) : List Move :=
  match s.inbox with
  | [] => []
  | i :: rest =>
    match takeInbox i rest s with
    | .next _ => [.inbox i rest]
    | _ => []

def keptMoves (s : State) : List Move :=
  s.conns.flatMap fun c => match c.2.queued with
    | i :: rest => if connReady s c.2 then [.kept c.1 i rest] else []
    | [] => []

/-- R200: the barriers whose phase is complete, whether or not a fibre waits in it. -/
def phaseSteps (s : State) : List Instr :=
  (s.crews.flatMap fun c => ((List.range c.2.bars.length).filter fun i => (c.2.bars[i]?).any (phaseDone s false)).map
    (Instr.barrierPhaseComplete false c.1))
    ++ (s.ens.filter fun e => phaseDone s true e.2.bar).map fun e => Instr.barrierPhaseComplete true e.1 0

/-- R171, R200: the requests for rows that can be granted are, and a phase that is complete ends, before anything else. -/
def urgentMoves (s : State) : List Move :=
  (((s.cores.filter fun c => racqReady s c.1).map fun c => Instr.racqGrant c.1).filter (due s) ++ phaseSteps s).map .device

/-- All that may happen otherwise; the order of the list has no meaning. -/
def freeMoves (s : State) : List Move :=
  keptMoves s ++ (s.gangs.filter fun g => gangReady s g.1 g.2).map (fun g => .gang g.1) ++ inboxMoves s
    ++ ((candidates s).filter (due s)).map .device

/-- All that may happen next. -/
def moves (s : State) : List Move :=
  match urgentMoves s with
  | [] => freeMoves s
  | ms => ms

/-- Perform a move. -/
def doMoveOf (m : Move) (s : State) : Outc :=
  match m with
  | .device i => exec i s
  | .inbox i rest => takeInbox i rest s
  | .kept k i rest => exec i (updConn k (fun c => { c with queued := rest }) s)
  | .gang k => gangTurn k s

/-- Assumption 1: of several moves, the choice is free. -/
def choose (n : Nat) (ms : List Move) : Option Move :=
  match ms with
  | [] => none
  | [m] => some m
  | ms => ms[Config.pick n % ms.length]?

end Sys2Proof.Machine
end

