-- ==== Sys2Proof/Machine/Place.lean ====
section
/-! DEFINITION. A machine about to fetch one given instruction (assumption 3): a context with one launch, of one gang of
width 8 with a fibre in lane 0, its text in a page that the core's TLB holds, and nothing else under way. -/

namespace Sys2Proof.Machine

/-- Where the instruction stands: virtual address, in the page at virtual 0, which stands at physical 0x100000. -/
def placeVa : Nat := 0x8000
def placePa : Nat := 0x100000

def placeHeader : Header :=
  { entry := 0, width := 8, cx := 1, cy := 1, cz := 1, regs := 4, barriers := 2, wide := true, prop := true, sym := false
    roles := false, scratch := 4096, safemap := 0, symdesc := 0, roledesc := 0, reserved := false }

def placePacket : Packet :=
  { hdr := 0, text := BitVec.ofNat 64 placeVa, arg := 0, seed := 0, gx := 1, gy := 1, gz := 1, priv := 4096, clmask := 1, ens := 0
    relscope := 5, replay := false, bound := 0, incsel := 15, incmask := 0, inctab := 0, sigaddr := 0, sigval := 0, data := 0
    reserved := false }

def placeLaunch : Launch :=
  { uid := 0, after := none, pkt := placePacket, hd := placeHeader, roles := [], sym := none, ticket := 1, ncrews := 1
    prev := some 0, byLaunch := false, queue := none, started := true }

def placeCtx : Ctx :=
  { root := 0, partition := 0, heap := ⟨0, 0, [], [], []⟩, arena := 0, arenaSize := 0, segs := [], saveArea := 0, saveSize := 0, ready := true, incs := [], system := 0
    modules := [], log := none, breaks := List.replicate 8 ⟨0, 0, false⟩, safemaps := [], launches := [(0, placeLaunch)] }

def placeGangOf : Gang :=
  { Gang.start 0 0 1 0 0 8 0 with
    held := 3
    fibres := Fibre.start (BitVec.ofNat 48 placeVa) 0 0 0 15 :: List.replicate 7 Fibre.blank }

def placeCrewOf : Crew :=
  { ctx := 0, ltag := 0, index := 0, core := 0, base := 0, size := 4096, bars := List.replicate 2 Barrier.idle, barSlots := [0, 1], ngangs := 1
    ens := none, spawned := false, gangs := [1], saved := false, scanned := [], moved := [], movedDesc := [] }

def placeCore : Core :=
  { Core.reset 0 with
    tlb := [⟨0, 0, 0x10000, placePa, true, true, true, 3⟩]
    mx := { Matrix.reset with owner := some 0 } }

/-- The bytes of the instruction, the bits above `nbits` being zero up to the longest instruction of 16 bytes. -/
def placeBytes (nbits w : Nat) : List (Nat × Byte) :=
  (leBytes 16 (w % 2 ^ nbits)).mapIdx fun i b => (placePa + placeVa + i, b)

/-- R264: the tables behind that translation: root, level 2 and level 3, where one entry maps the page. -/
def placeTables : List (Nat × Byte) :=
  ([(0, 0x8001), (0x8000, 0x10001), (0x10000, 0x100073)] : List (Nat × Nat)).flatMap fun e =>
    (leBytes 8 e.2).mapIdx fun i b => (e.1 + i, b)

/-- R184, R187: the state after a launch of this one crew has been dispatched, its first instruction being this one. -/
def placeWord (s : State) (nbits w : Nat) : State :=
  setBytes (placeTables ++ placeBytes nbits w)
    { State.reset with
      clk := s.clk, mem := s.mem, desc := s.desc, boot := s.boot, power := s.power, ptp := s.ptp
      seq := s.seq, fresh := s.fresh, nextId := Nat.max 2 s.nextId
      ctxs := [(0, placeCtx)], gangs := [(1, placeGangOf)], crews := [(1, placeCrewOf)], cores := [(0, placeCore)] }

end Sys2Proof.Machine
end

