-- ==== Sys2Proof/Machine/Step.lean ====
section
/-! DEFINITION. One step of the machine: time passes, and one of the moves that are due is made. -/

namespace Sys2Proof.Machine

/-- Assumption 1: some cycles pass, and then one due move is made; with none due, time alone passes. -/
def step (s : State) : Host.Outcome State Fault Refusal :=
  let s := tick s
  match choose s.seq (moves s) with
  | none => .next s
  | some m => doMoveOf m s

/-- The state with the instruction of these bits placed where the next step fetches it (assumption 3). -/
def State.withFetchWord (s : State) (nbits w : Nat) : State := placeWord s nbits w

end Sys2Proof.Machine
end

