-- ==== Sys2Proof/Safety.lean ====
section
/-! DEFINITION. The terms that claims are stated in: the invariants of the state, a run that never stops, when an
instruction issues, and what its issue leaves alone. -/

namespace Sys2Proof.Machine

/-! ## Runs and invariants -/

/-- The canonical form of memory: addresses strictly rising, no byte listed that an unlisted address reads as. -/
abbrev Memory.wf (m : List Host.Cell) : Bool := Sys2Proof.Machine.wf 0 m

/-- Memory is in canonical form, and so are the block descriptors of its sectors (R40). -/
def State.MemWf (s : State) : Prop := Memory.wf s.mem = true ∧ wf resetDesc s.desc = true

/-- The canonical form of a fibre's vector registers. -/
def Fibre.Canonical (f : Fibre) : Prop := wf 0 f.v = true ∧ wf 0 f.bank0 = true ∧ wf 0 f.bank1 = true

/-- R386, R394: no gang holds more than four trap frames, in the machine or in a saved image. -/
def State.FramesFit (s : State) : Prop :=
  (∀ k g, (k, g) ∈ s.gangs → g.frames.length ≤ 4) ∧ (∀ k m, (k, m) ∈ s.ckpts → m.gang.frames.length ≤ 4)

/-- The step answers a next state. -/
def Goes (s : State) : Prop := ∃ t, step s = .next t

/-- A run of n steps that meets neither a fault of the model nor a refusal. -/
def SafeRun (n : Nat) (s : State) : Prop := ∃ t, Host.Core.run core n s = .next t

/-! ## Issue -/

/-- No breakpoint of the gang's context is enabled (R436). -/
def NoBreaks (s : State) (g : Gang) : Prop := ∀ c, look g.ctx s.ctxs = some c → (c.breaks.any (·.on)) = false

/-- The current group of gang `g` may issue `i`: its word is legal, for itself (R68) and for the gang (R69), nothing
makes it wait (R21, R111, R279, R326, R349), and no earlier fault and no breakpoint is about to be taken (R383, R436). -/
structure CanIssue (i : Instr) (c : CtrKind) (s : State) (g : Gang) : Prop where
  word : legal i = true
  gang : look s.cur.gang s.gangs = some g
  allowed : decodeFault s g i = none
  free : g.holdOps = []
  ready : regsPending s s.cur.gang s.cur.group i = false
  room : ctrFull c g = false
  arrivals : ∀ h, hdOf i = some h → arvOpen s s.cur.gang g (activeOf h s.cur.group g) i = false
  noFault : g.pend = []
  noCopy : copyPending s s.cur.gang g = false
  noBreak : NoBreaks s g

/-- R14: the lanes for which the instruction acts. -/
def acting (h : Hd) (s : State) (g : Gang) : BitVec 64 := activeOf h s.cur.group g

/-- A fibre moved past the instruction, with its accounts (R156, R159, R213). -/
def past (i : Instr) (s : State) (g : Gang) (f : Fibre) : Fibre :=
  { f with pc := s.cur.pc + BitVec.ofNat 48 (lenBytes i), li := g.issues + 1, defer := f.defer - 1 }

/-- The fibres after an issue: `upd` of each acting lane; the group's other lanes only move on; the rest stay. -/
def fibresAfter (i : Instr) (h : Hd) (s : State) (g : Gang) (upd : Nat → Fibre → Fibre) : List Fibre :=
  g.fibres.mapIdx fun l f =>
    if laneIn (acting h s g) l then upd l (past i s g f) else if laneIn s.cur.group l then past i s g f else f

/-- Everything outside gang `k` and the cores' event counters is as it was. -/
structure SameBut (k : Nat) (s t : State) : Prop where
  rest : t = { s with gangs := t.gangs, cores := t.cores }
  gangs : ∀ j, j ≠ k → look j t.gangs = look j s.gangs
  cores : ∀ c, coreOf t c = { coreOf s c with perf := (coreOf t c).perf }

/-- The gang after an issue that touches only its fibres and scalar registers: besides these, the accounts of issues
(R159), the operand latch (R66) and LORD (R435) move on. -/
def SameGang (clk : Dword) (g g' : Gang) : Prop :=
  g' = { g with fibres := g'.fibres, s := g'.s, issues := g.issues + 1, latch := g'.latch, issuedAt := some clk, age := g'.age, esc := g'.esc
                lord := g'.lord, walkFaults := [] }

/-- The instruction completes, with this effect on its fibres and its gang's scalar registers, and no other. -/
def Did (i : Instr) (h : Hd) (s : State) (g : Gang) (upd : Nat → Fibre → Fibre) (sc : AMap Dword → AMap Dword) : Prop :=
  ∃ t g', exec i s = .next t ∧ look s.cur.gang t.gangs = some g' ∧ SameBut s.cur.gang s t ∧ SameGang s.clk g g' ∧
    g'.fibres = fibresAfter i h s g upd ∧ g'.s = sc g.s

/-- The gang after an issue whose effect on it is `G`, and on its fibres `upd`; the accounts move on (R66, R159, R435). -/
def gangAfter (i : Instr) (h : Hd) (s : State) (g : Gang) (upd : Nat → Fibre → Fibre) (G : Gang) (g' : Gang) : Prop :=
  g' = { G with fibres := fibresAfter i h s g upd, issues := g.issues + 1, latch := g'.latch, issuedAt := some s.clk, age := g'.age, esc := g'.esc
                lord := g'.lord, walkFaults := [] }

/-- The instruction completes, with this effect on its gang and its fibres, and no other. -/
def DidG (i : Instr) (h : Hd) (s : State) (g : Gang) (upd : Nat → Fibre → Fibre) (G : Gang) : Prop :=
  ∃ t g', exec i s = .next t ∧ look s.cur.gang t.gangs = some g' ∧ SameBut s.cur.gang s t ∧ gangAfter i h s g upd G g'

/-- The instruction completes, with this effect on its gang and its fibres; `P` says what else it does. -/
def DidWith (i : Instr) (h : Hd) (s : State) (g : Gang) (upd : Nat → Fibre → Fibre) (G : Gang) (P : State → Prop) : Prop :=
  ∃ t g', exec i s = .next t ∧ look s.cur.gang t.gangs = some g' ∧ gangAfter i h s g upd G g' ∧ P t

/-- No fibre changes but in its accounts. -/
abbrev keep : Nat → Fibre → Fibre := fun _ f => f

/-- The gang's launch keeps no replay log (R447). -/
def NoReplay (s : State) (g : Gang) : Prop := ∀ l, gangLaunch s g = some l → l.pkt.replay = false

/-- R101: lane l is the highest acting one, and f its fibre. -/
def Highest (h : Hd) (s : State) (g : Gang) (l : Nat) (f : Fibre) : Prop :=
  laneIn (acting h s g) l = true ∧ fibreAt g l = some f ∧ ∀ j, laneIn (acting h s g) j = true → j ≤ l

/-- R10, R12: a result of 32 or 64 bits in a fibre's own register. -/
def writeReg (bits : Nat) (d : Opnd) (x : Dword) (f : Fibre) : Fibre :=
  match d with
  | .v n => if bits = 64 then setV64 n x f else setV n (x.setWidth 32) f
  | .p k => setP k (x.getLsbD 0) f
  | _ => f

/-- R11: a result in a scalar register: each acting fibre writes in ascending lane order. -/
def writeScalar (bits : Nat) (d : Opnd) (val : Nat → Fibre → Dword) (h : Hd) (s : State) (g : Gang) (m : AMap Dword) : AMap Dword :=
  match d with
  | .s n => (lanesOf (acting h s g)).foldl (fun m l => match fibreAt g l with
      | some f => put 0 n (if bits = 64 then val l f else lo32 (val l f)) m
      | none => m) m
  | _ => m

/-- The instruction completes, and all it does is to write one result per fibre to its destination. -/
def Result (i : Instr) (h : Hd) (s : State) (g : Gang) (bits : Nat) (d : Opnd) (val : Nat → Fibre → Dword) : Prop :=
  Did i h s g (fun l f => writeReg bits d (val l f) f) (writeScalar bits d val h s g)

/-! ## Source values -/

/-- R10 to R12, R60 to R62: what a source of type t holds for a fibre. -/
abbrev src (h : Hd) (g : Gang) (t : Ty) (f : Fibre) (o : Opnd) : Dword := rd g h.ext (rdTy t) f o

/-- R24, R25: the integer it stands for. -/
abbrev isrc (h : Hd) (g : Gang) (t : Ty) (f : Fibre) (o : Opnd) : Int := tyVal t (src h g t f o)

/-- R86, R88: the low w bits of a source. -/
abbrev nsrc (h : Hd) (g : Gang) (t : Ty) (f : Fibre) (o : Opnd) : Nat := low (tyBits t) (src h g t f o)

/-- R88, R90: a count or a position, read as n32. -/
abbrev count (h : Hd) (g : Gang) (f : Fibre) (o : Opnd) : Nat := (src h g .n32 f o).toNat

/-- R12: a predicate source. -/
abbrev psrc (h : Hd) (g : Gang) (f : Fibre) (o : Opnd) : Bool := src h g .n32 f o = 1

/-! ## Floating values -/

/-- The rational number that a finite value is. -/
def FVal.q : FVal → ℚ
  | .fin n m e => (if n then -1 else 1) * (m : ℚ) * 2 ^ e
  | _ => 0

/-- The sign of a value that is not a NaN, and whether it is a zero. -/
def FVal.isZero : FVal → Bool
  | .fin _ m _ => m = 0
  | _ => false
def FVal.isInf : FVal → Bool
  | .inf _ => true
  | _ => false
def FVal.isFin : FVal → Bool
  | .fin .. => true
  | _ => false

/-- Numeric order of values that are not NaN, −0 and +0 being equal (R120). -/
def FVal.below (a b : FVal) : Prop :=
  (a = .inf true ∧ b ≠ .inf true) ∨ (b = .inf false ∧ a ≠ .inf false) ∨ (a.isFin ∧ b.isFin ∧ a.q < b.q)

/-- Numeric equality of values that are not NaN. -/
def FVal.same (a b : FVal) : Prop := (a.isInf ∧ a = b) ∨ (a.isFin ∧ b.isFin ∧ a.q = b.q)

/-- R30: the nonzero exact value x, given as ±m × 2^e, rounded once into F. -/
def Rounded (F : FFmt) (rm : Rm) (x : ℚ) (r : Dword × Flags) : Prop :=
  ∃ n m e, m ≠ 0 ∧ (FVal.fin n m e).q = x ∧ r = fRnd F rm n m e

/-- R26, R34: the largest finite magnitude of a format whose largest numbers have the exponent `top`. -/
noncomputable def maxFinite (F : FFmt) (top : ℤ) : ℝ := (2 - 2 ^ (-(F.fb : ℤ))) * 2 ^ top

/-- R31, R35: the magnitude of x ≠ 0, rounded by the mode with an unbounded exponent, exceeds the largest finite one: to nearest, x lies
half a unit above it or further; away from zero, it exceeds it at all; toward zero, it reaches the next power of two. -/
def RoundsOver (F : FFmt) (top : ℤ) (rm : Rm) (x : ℝ) : Prop :=
  match rm with
  | .rne => (2 - 2 ^ (-((F.fb : ℤ) + 1))) * 2 ^ top ≤ |x|
  | .rtz => 2 ^ (top + 1) ≤ |x|
  | .rdn => if x < 0 then maxFinite F top < |x| else 2 ^ (top + 1) ≤ |x|
  | .rup => if x < 0 then 2 ^ (top + 1) ≤ |x| else maxFinite F top < |x|

/-- R32: the magnitude of x ≠ 0, rounded by the mode with an unbounded exponent, stays below the least normal number 2^(1 − bias): the
numbers just below that one are 2^(−fb − 1) of it apart. -/
def RoundsTiny (F : FFmt) (rm : Rm) (x : ℝ) : Prop :=
  let least : ℝ := 2 ^ (1 - (F.bias : ℤ))
  let below : ℝ := (1 - 2 ^ (-((F.fb : ℤ) + 1))) * least
  match rm with
  | .rne => |x| < (1 - 2 ^ (-((F.fb : ℤ) + 2))) * least
  | .rtz => |x| < least
  | .rdn => if x < 0 then |x| ≤ below else |x| < least
  | .rup => if x < 0 then |x| < least else |x| ≤ below

/-- R30: v, whose lowest fraction bit is 1 where `odd` says so, is the value that the mode puts in the place of x, among the numbers of S. -/
def NearestIn (S : ℝ → Prop) (rm : Rm) (x v : ℝ) (odd : Bool) : Prop :=
  ∀ z, S z → match rm with
    | .rne => |x - v| ≤ |x - z| ∧ (|x - v| = |x - z| → z ≠ v → odd = false)
    | .rtz => |v| ≤ |x| ∧ (|z| ≤ |x| → |z| ≤ |v|)
    | .rdn => v ≤ x ∧ (z ≤ x → z ≤ v)
    | .rup => x ≤ v ∧ (x ≤ z → v ≤ z)

/-- R32: the flags of a rounding of x to v that does not overflow. -/
noncomputable def roundFlags (F : FFmt) (rm : Rm) (x v : ℝ) : Flags :=
  open Classical in if v = x then 0 else if RoundsTiny F rm x then fNX ||| fUF else fNX

/-- R30 to R32: r is the encoding and the flags of x ≠ 0 rounded into F by the mode rm. -/
def CorrectlyRounded (F : FFmt) (rm : Rm) (x : ℝ) (r : Dword × Flags) : Prop :=
  (RoundsOver F F.bias rm x → r = (match rm with
    | .rne => fInf F (decide (x < 0))
    | .rtz => fSign F (decide (x < 0)) ((2 ^ F.eb - 1) * 2 ^ F.fb - 1)
    | .rdn => if x < 0 then fInf F true else fSign F false ((2 ^ F.eb - 1) * 2 ^ F.fb - 1)
    | .rup => if x < 0 then fSign F true ((2 ^ F.eb - 1) * 2 ^ F.fb - 1) else fInf F false, fOF ||| fNX)) ∧
  (¬ RoundsOver F F.bias rm x → r.1.toNat < 2 ^ F.bits ∧ ∃ m e, fDec F r.1 = .fin (decide (x < 0)) m e ∧
    let v : ℝ := ((FVal.fin (decide (x < 0)) m e).q : ℝ)
    r.2 = roundFlags F rm x v ∧
    NearestIn (fun z => ∃ w n' m' e', fDec F w = .fin n' m' e' ∧ z = ((FVal.fin n' m' e').q : ℝ)) rm x v (r.1.getLsbD 0))

/-- R35: the same into an 8-bit format, whose largest numbers have the exponent bias − 1: an overflow gives the NaN 0x80 with IV and
NX, or with `.sat` the largest finite value with OF and NX; both zeros are 0x00. -/
def CorrectlyRounded8 (F : FFmt) (rm : Rm) (sat : Bool) (x : ℝ) (r : Dword × Flags) : Prop :=
  (RoundsOver F (F.bias - 1) rm x →
    r = if sat then (if x < 0 then 0xFF else 0x7F, fOF ||| fNX) else (0x80, fIV ||| fNX)) ∧
  (¬ RoundsOver F (F.bias - 1) rm x → r.1.toNat < 2 ^ 8 ∧ ∃ n m e, fDec8 F r.1 = .fin n m e ∧
    (if m = 0 then r.1 = 0 else n = decide (x < 0)) ∧
    let v : ℝ := ((FVal.fin n m e).q : ℝ)
    r.2 = roundFlags F rm x v ∧
    NearestIn (fun z => ∃ w n' m' e', fDec8 F w = .fin n' m' e' ∧ z = ((FVal.fin n' m' e').q : ℝ)) rm x v (r.1.getLsbD 0))

/-- R112, R114: a floating source, packed or not. -/
abbrev fsrc (h : Hd) (g : Gang) (t : Ty) (pk : Bool) (f : Fibre) (o : Opnd) : Dword := rd g h.ext ⟨.ty t, pk⟩ f o

/-- The instruction completes with one floating result per fibre, whose flags are added to FST (R19). -/
def FloatResult (i : Instr) (h : Hd) (s : State) (g : Gang) (bits : Nat) (d : Opnd) (r : Fibre → Dword × Flags) : Prop :=
  Did i h s g (fun _ f => raise (r f).2 (writeReg bits d (r f).1 f)) (writeScalar bits d (fun _ f => (r f).1) h s g)

/-- R112, R114: a floating instruction of one, two or three sources applies `op` to each element. -/
def Float2 (i : Instr) (h : Hd) (s : State) (g : Gang) (o : Fl2) (op : Dword → Dword × Flags) : Prop :=
  FloatResult i h s g (tyReg o.t) o.d fun f =>
    let p := if o.pk then packed2 op (fsrc h g o.t o.pk f o.a) else op (fsrc h g o.t o.pk f o.a)
    (fit o.t o.pk p.1, p.2)
def Float3 (i : Instr) (h : Hd) (s : State) (g : Gang) (o : Fl3) (op : Dword → Dword → Dword × Flags) : Prop :=
  FloatResult i h s g (tyReg o.t) o.d fun f =>
    let p := packedOp2 o.pk op (fsrc h g o.t o.pk f o.a) (fsrc h g o.t o.pk f o.b)
    (fit o.t o.pk p.1, p.2)
def Float4 (i : Instr) (h : Hd) (s : State) (g : Gang) (o : Fl4) (op : Dword → Dword → Dword → Dword × Flags) : Prop :=
  FloatResult i h s g (tyReg o.t) o.d fun f =>
    let p := packedOp3 o.pk op (fsrc h g o.t o.pk f o.a) (fsrc h g o.t o.pk f o.b) (fsrc h g o.t o.pk f o.c)
    (fit o.t o.pk p.1, p.2)

/-- R115 to R117, R32: what a sum of two values rounded by rm is. -/
def SumIs (F : FFmt) (rm : Rm) (a b : FVal) (r : Dword × Flags) : Prop :=
  (a.isNan = true ∨ b.isNan = true → r = (fNaN F, if a.isSnan || b.isSnan then fIV else 0)) ∧
  (∀ n k, a = .inf n → b = .inf k → r = if n = k then (fInf F n, 0) else (fNaN F, fIV)) ∧
  (∀ n, a = .inf n → b.isFin = true → r = (fInf F n, 0)) ∧
  (∀ n, a.isFin = true → b = .inf n → r = (fInf F n, 0)) ∧
  (a.isFin = true → b.isFin = true → (a.q + b.q ≠ 0 → Rounded F rm (a.q + b.q) r) ∧
    (a.q + b.q = 0 → r = (fZero F (if a.neg? = b.neg? then a.neg? else decide (rm = .rdn)), 0)))

/-- R115 to R117: what a product of two values rounded by rm is. -/
def ProductIs (F : FFmt) (rm : Rm) (a b : FVal) (r : Dword × Flags) : Prop :=
  (a.isNan = true ∨ b.isNan = true → r = (fNaN F, if a.isSnan || b.isSnan then fIV else 0)) ∧
  ((a.isInf = true ∧ b.isZero = true) ∨ (a.isZero = true ∧ b.isInf = true) → r = (fNaN F, fIV)) ∧
  ((a.isInf = true ∧ b.isNan = false ∧ b.isZero = false) ∨ (b.isInf = true ∧ a.isNan = false ∧ a.isZero = false) →
    r = (fInf F (a.neg? != b.neg?), 0)) ∧
  (a.isFin = true → b.isFin = true → (a.q * b.q ≠ 0 → Rounded F rm (a.q * b.q) r) ∧
    (a.q * b.q = 0 → r = (fZero F (a.neg? != b.neg?), 0)))

/-- R115 to R117: what ±(a × b) + c with one rounding is; `neg` is the sign given to the product. -/
def FusedIs (F : FFmt) (rm : Rm) (neg : Bool) (a b c : FVal) (r : Dword × Flags) : Prop :=
  let ps := (a.neg? != b.neg?) != neg
  let zi := (a.isInf && b.isZero) || (a.isZero && b.isInf)
  let inf := (a.isInf && !b.isNan && !b.isZero) || (b.isInf && !a.isNan && !a.isZero)
  let x : ℚ := (if neg then -1 else 1) * (a.q * b.q) + c.q
  (zi = true → r = (fNaN F, fIV)) ∧
  (zi = false → a.isNan = true ∨ b.isNan = true ∨ c.isNan = true →
    r = (fNaN F, if a.isSnan || b.isSnan || c.isSnan then fIV else 0)) ∧
  (inf = true → c.isFin = true → r = (fInf F ps, 0)) ∧
  (∀ k, inf = true → c = .inf k → r = if ps = k then (fInf F ps, 0) else (fNaN F, fIV)) ∧
  (∀ k, a.isFin = true → b.isFin = true → c = .inf k → r = (fInf F k, 0)) ∧
  (a.isFin = true → b.isFin = true → c.isFin = true → (x ≠ 0 → Rounded F rm x r) ∧
    (x = 0 → r = (fZero F (if ps = c.neg? then ps else decide (rm = .rdn)), 0)))

/-- R118: what the lesser of two encodings is, or with `mx` the greater: −0 counts as less than +0, a NaN gives way to a number, and a
returned operand is copied unchanged. -/
def MinMaxIs (F : FFmt) (mx : Bool) (x y : Dword) (r : Dword × Flags) : Prop :=
  let a := fDec F x
  let b := fDec F y
  let less := fun (a b : FVal) => a.below b ∨ (a.isFin = true ∧ b.isFin = true ∧ a.q = b.q ∧ a.neg? = true ∧ b.neg? = false)
  r.2 = (if a.isSnan || b.isSnan then fIV else 0) ∧
  (a.isNan = true → b.isNan = true → r.1 = fNaN F) ∧
  (a.isNan = true → b.isNan = false → r.1.toNat = low F.bits y) ∧
  (a.isNan = false → b.isNan = true → r.1.toNat = low F.bits x) ∧
  (a.isNan = false → b.isNan = false →
    (less a b → r.1.toNat = low F.bits (if mx then y else x)) ∧ (less b a → r.1.toNat = low F.bits (if mx then x else y)) ∧
    (a.same b → a.neg? = b.neg? → r.1.toNat = low F.bits x ∧ r.1.toNat = low F.bits y))

/-! ## Memory -/

/-- The issue of the current group, as its checks see it. -/
def theIss (h : Hd) (s : State) (g : Gang) : Iss := ⟨s.cur.gang, g, h, s.cur.group, acting h s g, s.cur.pc⟩

/-- R156: the fibres of the issuing group are ready. -/
def GroupReady (s : State) (g : Gang) : Prop :=
  ∀ l f, laneIn s.cur.group l = true → fibreAt g l = some f → ready f = true

/-- R106, R107: every access passes its checks, its translations being at hand. -/
def AllPass (s : State) (g : Gang) (space : Space) (need : Need) (as : List Acc) : Prop :=
  ∀ a ∈ as, ∃ ks, check s g space need a = .ok ks

/-- The bytes an access reaches: physical addresses, or those of the core's scratchpad. -/
def keysOf (s : State) (g : Gang) (space : Space) (need : Need) (a : Acc) : List Nat :=
  match check s g space need a with
  | .ok ks => ks
  | _ => []

/-- Each access with the bytes it reaches. -/
def partsOf (s : State) (g : Gang) (space : Space) (need : Need) (as : List Acc) : List Part :=
  as.map fun a => ⟨a.lane, keysOf s g space need a⟩

/-- R279, R293: what a release at scope sc waits for has been done. -/
def Released (h : Hd) (s : State) (g : Gang) (sc : Scope) : Prop :=
  acting h s g = 0 ∨ ((wideScope sc = true → (coreOf s g.core).uo = []) ∧
    relDone s s.cur.gang g.core (acting h s g) sc s.nextId = true)

/-- R443: the bytes in which a core's sample records stand. -/
def inRing (s : State) (core a : Nat) : Prop :=
  (coreOf s core).perf.ring ≤ a ∧ a < (coreOf s core).perf.ring + (coreOf s core).perf.size

/-- A copy, a group's requests, without what they have noted of others' writes. -/
def CopyReq.plain (r : CopyReq) : CopyReq := { r with hits := [] }
def Group.plain (g : Group) : Group := { g with reqs := g.reqs.map fun r => { r with hits := [] } }

/-- What a memory instruction leaves alone when it issues: other gangs, other cores, its core's engines and tables, every
block descriptor, and every byte of memory, but for a sample record in the core's ring (R443). Copies and collective requests under way
note the scratchpad bytes that it stores (R327, R380), and nothing else of them changes. -/
structure MemFrame (k core : Nat) (s t : State) : Prop where
  gangs : ∀ j, j ≠ k → look j t.gangs = look j s.gangs
  cores : ∀ c, c ≠ core → coreOf t c = coreOf s c
  own : let c := coreOf t core
    c = { coreOf s core with perf := c.perf, l1 := c.l1, l1Desc := c.l1Desc, uo := c.uo, spad := c.spad, spadDesc := c.spadDesc
                             spadLog := c.spadLog, copies := c.copies }
  notes : (coreOf t core).copies.map CopyReq.plain = (coreOf s core).copies.map CopyReq.plain ∧
    t.groups.map (fun q => (q.1, q.2.plain)) = s.groups.map fun q => (q.1, q.2.plain)
  mem : wf 0 s.mem = true → ∀ a, ¬ inRing s core a → memByte t a = memByte s a
  rest : t = { s with mem := t.mem, gangs := t.gangs, cores := t.cores, reqs := t.reqs, ops := t.ops, peers := t.peers
                      rdc := t.rdc, rdcDesc := t.rdcDesc, groups := t.groups, nextId := t.nextId, fresh := t.fresh }

/-- Nor does it change the scratchpad. -/
def SpadSame (core : Nat) (s t : State) : Prop :=
  (coreOf t core).spad = (coreOf s core).spad ∧ (coreOf t core).spadDesc = (coreOf s core).spadDesc ∧
    (coreOf t core).spadLog = (coreOf s core).spadLog

/-- R251, R259: a request of an operation, on its way to its home. -/
def Asked (t : State) (op core line : Nat) (act : ReqAct) : Prop :=
  ∃ r ∈ t.reqs, r.op = op ∧ r.core = core ∧ r.line = line ∧ r.act = act ∧ r.stage = .mesh

/-- R111: the instruction issues and is outstanding: its count has risen, its operation carries the destination and each
lane's bytes, one request per line is on its way, and where it ends with an acquire the gang's next issue waits for it. -/
def Outstanding (i : Instr) (h : Hd) (s : State) (g : Gang) (upd : Nat → Fibre → Fibre) (c : Ctr) (acq : Option Scope)
    (dst : Option (Opnd × DstFmt)) (parts : List Part) (reqs : List (Nat × ReqAct)) : Prop :=
  DidWith i h s g upd
    { g with ldcnt := g.ldcnt + (if c = .ld then 1 else 0), stcnt := g.stcnt + (if c = .st then 1 else 0)
             holdOps := if acq.isSome then [s.nextId] else [] }
    fun t => MemFrame s.cur.gang g.core s t ∧ SpadSame g.core s t ∧ (∀ q ∈ reqs, Asked t s.nextId g.core q.1 q.2) ∧
      ∃ o, look s.nextId t.ops = some o ∧ o.gang = s.cur.gang ∧ o.core = g.core ∧ o.ctr = c ∧ o.dst = dst ∧ o.parts = parts ∧
        o.acq = acq ∧ o.left = reqs.length

/-- R216: the instruction issues and is outstanding with one access per active fibre to a scratchpad of the cluster; the
gang's next issue waits until they have been applied. -/
def PeerIssued (i : Instr) (h : Hd) (s : State) (g : Gang) (c : Ctr) (dst : Option (Opnd × DstFmt)) (as : List Acc)
    (act : Acc → PeerAct) : Prop :=
  DidWith i h s g keep
    { g with ldcnt := g.ldcnt + (if c = .ld then 1 else 0), stcnt := g.stcnt + (if c = .st then 1 else 0), holdOps := [s.nextId] }
    fun t => MemFrame s.cur.gang g.core s t ∧ SpadSame g.core s t ∧
      t.peers = s.peers ++ as.mapIdx (fun j a =>
        ⟨s.nextId + 1 + j, s.nextId, s.cur.gang, g.core, g.crew, (crewOf s g).bind (·.ens), a.lane, a.ea, a.n, act a, s.cur.pc, false⟩) ∧
      ∃ o, look s.nextId t.ops = some o ∧ o.gang = s.cur.gang ∧ o.ctr = c ∧ o.dst = dst ∧ o.left = as.length

/-- The lines of some bytes, in the order of the lowest lane that touches each (R251). -/
def linesTouched (ps : List Part) : List Nat := distinct ((ps.flatMap (·.keys)).map lineOf)
def sectorsTouched (ps : List Part) (line : Nat) : List Nat :=
  distinct (((ps.flatMap (·.keys)).filter fun k => lineOf k = line).map sectorOf)

/-- No byte of these is to be had nearer than its home (R252, R262). -/
def Cold (s : State) (core : Nat) (ps : List Part) : Prop :=
  ∀ p ∈ ps, ∀ k ∈ p.keys, inL1 (coreOf s core) (sectorOf k) = false ∧
    (isRemote core (lineOf k) = true → inRdc s (dieOf core) (sectorOf k) = false)

/-- The bytes that lanes store, lane after lane. -/
def storedBytes (ps : List Part) (data : Nat → List Byte) : List (Nat × Byte) := ps.flatMap fun p => p.keys.zip (data p.lane)

/-- R109: a table of bytes after the lanes of `ps` have stored: where two lanes write one byte, the higher stands. -/
def StoredIn (m m' : AMap Byte) (ps : List Part) (data : Nat → List Byte) : Prop :=
  (∀ a, (∀ p ∈ ps, a ∉ p.keys) → find 0 a m' = find 0 a m) ∧
  (∀ p ∈ ps, ∀ (i a : Nat) (b : Byte), p.keys[i]? = some a → (data p.lane)[i]? = some b →
    (∀ q ∈ ps, p.lane < q.lane → a ∉ q.keys) → find 0 a m' = b)

/-- R102 to R104: the destination of a load after its bytes. -/
def loadReg (o : Mem) (bs : List Byte) (f : Fibre) : Fibre :=
  match o.d with
  | .v n =>
    if o.two then setV64 (n + 2) (num64 (leNat (bs.drop 8))) (setV64 n (num64 (leNat (bs.take 8))) f)
    else writeReg (tyReg o.t) (.v n) (tyWrap o.t (leNat bs)) f
  | _ => f

/-- R109: a scalar destination takes the value of the highest active lane. -/
def loadScalar (o : Mem) (h : Hd) (s : State) (g : Gang) (bytes : Nat → Fibre → List Byte) : AMap Dword :=
  match o.d, (topLane (acting h s g)).bind fun l => (fibreAt g l).map (bytes l) with
  | .s n, some bs =>
    if o.two then put 0 (n.val + 1) (num64 (leNat (bs.drop 8))) (put 0 n (num64 (leNat (bs.take 8))) g.s)
    else put 0 n (if tyReg o.t = 64 then tyWrap o.t (leNat bs) else lo32 (tyWrap o.t (leNat bs))) g.s
  | _, _ => g.s

/-- A value brought back to a vector register, or for the highest active lane to a scalar register. -/
def bringReg (bits : Nat) (d : Opnd) (x : Dword) (f : Fibre) : Fibre :=
  match d with
  | .v _ => writeReg bits d x f
  | _ => f

def bringScalar (bits : Nat) (d : Opnd) (val : Nat → Fibre → Dword) (h : Hd) (s : State) (g : Gang) : AMap Dword :=
  match d, (topLane (acting h s g)).bind fun l => (fibreAt g l).map (val l) with
  | .s n, some x => put 0 n (if bits = 64 then x else lo32 x) g.s
  | _, _ => g.s

/-! ## Waits of a gang -/

/-- R155, R321: the instruction issues, and every fibre of the gang that has not ended and is not parked waits at it; the
issuing group's go on behind it, the others where they are. -/
def GangWaits (i : Instr) (s : State) (g G : Gang) (w : WaitKind) (P : State → Prop) : Prop :=
  ∃ t g', exec i s = .next t ∧ look s.cur.gang t.gangs = some g' ∧ P t ∧
    g' = { G with fibres := g'.fibres, issues := g.issues + 1, latch := g'.latch, issuedAt := some s.clk, age := g'.age, esc := g'.esc, lord := g'.lord
                  walkFaults := [] } ∧
    ∀ l f, l < 64 → fibreAt g l = some f → fibreAt g' l = some (
      let f' := if laneIn s.cur.group l then past i s g f else f
      if f.life = .live then
        { f' with gwait := some ⟨w, f'.pc, none⟩, pc := if laneIn s.cur.group l then s.cur.pc else f.pc }
      else f')

/-- No wait of the gang is to end in a breakpoint (R436), and no earlier fault is due. -/
def Calm (g : Gang) : Prop :=
  g.pend = [] ∧ ∀ f ∈ g.fibres, (∀ w, f.wait = some w → w.brk = none) ∧ (∀ w, f.gwait = some w → w.brk = none)

/-- R155: every fibre whose wait of the gang passes the test has gone on, and the others are as they were. -/
def GwaitEnded (test : WaitKind → Bool) (g g' : Gang) : Prop :=
  ∀ l f, fibreAt g l = some f → fibreAt g' l = some (match f.gwait with
    | some w => if test w.kind then { f with gwait := none, pc := w.nxt } else f
    | none => f)

/-- A fault of a lane is due, or has been taken or reported. -/
def FaultRaised (g : Gang) (r : TrapRec) : Prop :=
  r ∈ g.pend ∨ (∃ fr ∈ g.frames.head?, r ∈ fr.recs) ∨ ∃ rep, g.frozen = some rep ∧ r ∈ rep.own

/-- R386, R388, R394: the trap of these records has been taken by the fibres of F, `pre` being the fibres just before: a frame is
pushed, the fibres of F stand at the handler, every other running fibre is parked; with no handler, or four frames, the
gang is frozen and reported, and nothing else changes. -/
def TrapTaken (s : State) (g : Gang) (F : BitVec 64) (recs : List TrapRec) (pre : Nat → Fibre → Fibre) (t : State) (g' : Gang) : Prop :=
  g'.tvec = g.tvec ∧ g'.s = g.s ∧
  if g.tvec = 0 ∨ g.frames.length = 4 then
    g'.frames = g.frames ∧ (∀ l f, fibreAt g l = some f → fibreAt g' l = some (pre l f)) ∧
    ∃ rep, g'.frozen = some rep ∧ t.reports = s.reports ++ [rep] ∧ rep.own = recs ∧ rep.ctx = g.ctx ∧
      rep.cause = if g.tvec = 0 then (recs.head?.map (·.cause)).getD 0 else cause cSTACKOVF
  else
    t.reports = s.reports ∧ ∃ fr, g'.frames = fr :: g.frames ∧ fr.tmask = F ∧ fr.recs = recs ∧ fr.returned = 0 ∧
      ∀ l f, l < 64 → fibreAt g l = some f →
        laneIn fr.parked l = (!laneIn F l && decide ((pre l f).life = .live)) ∧
        fibreAt g' l = some (
          if laneIn F l then { pre l f with life := .live, wait := none, gwait := none, pc := g.tvec }
          else if (pre l f).life = .live then { pre l f with life := .parked } else pre l f)

/-- R14, R382: the fibres just before a trap at the issuing instruction: those of F have stayed at it. -/
def atIssue (i : Instr) (s : State) (g : Gang) (F : BitVec 64) (l : Nat) (f : Fibre) : Fibre :=
  if laneIn F l then { past i s g f with pc := s.cur.pc } else if laneIn s.cur.group l then past i s g f else f

/-- The records of one fault for each of some lanes, in ascending lane order. -/
def recsFor (g : Gang) (F : BitVec 64) (c : Word) (addr : Fibre → Dword) (pc : Pc) : List TrapRec :=
  (lanesOf F).filterMap fun l => (fibreAt g l).map fun f => ⟨l, c, addr f, pc⟩

/-- R431: what connections keep are operations of their own. -/
def State.KeptOk (s : State) : Prop :=
  (s.conns.map (·.1)).Pairwise (· < ·) ∧ ∀ x ∈ s.conns, ∀ i ∈ x.2.queued, connOf i = some x.1

end Sys2Proof.Machine
end

