-- ==== Sys2Proof/Certificates/Slice0/Obligations.lean ====
section
/-! DEFINITION. The statements for the provers: each says what a rule of the spec says of the model. -/

open Sys2Proof Sys2Proof.Machine

/-! ## Integer instructions -/

/-- R24, R25: an exact result wraps modulo 2^w, or is clamped with `.sat`, and is written as R25 lays down: a narrow
signed value is sign-extended to 32 bits, every other value zero-extended. R85, R86: add, sub, mul, mulhi, mad, neg,
abs, min, max: each active fibre's destination receives the exact result, wrapped or clamped; nothing else changes.
R93: addc adds a, b and the carry exactly, writes the sum modulo 2^w to D and the carry out to C. -/
def Obligations.IntegerArithmetic : Prop :=
  (∀ (t : Ty) (x : Int), tyFloat t = false →
     (tyVal t (tyFit t false x) - x) % 2 ^ tyBits t = 0 ∧
     tyMin t ≤ tyVal t (tyFit t false x) ∧ tyVal t (tyFit t false x) ≤ tyMax t ∧
     tyVal t (tyFit t true x) = max (tyMin t) (min (tyMax t) x) ∧
     (∀ sat, tySigned t = true → tyBits t < 32 →
       (tyFit t sat x).toNat < 2 ^ 32 ∧ ((tyFit t sat x).setWidth 32).toInt = tyVal t (tyFit t sat x)) ∧
     (∀ sat, tySigned t = false → (tyFit t sat x).toNat = tyVal t (tyFit t sat x))) ∧
  ((∀ h o s g, CanIssue (.add h o) .none s g → Result (.add h o) h s g (tyReg o.t) o.d fun _ f =>
     tyFit o.t o.sat (isrc h g o.t f o.a + isrc h g o.t f o.b)) ∧
   (∀ h o s g, CanIssue (.sub h o) .none s g → Result (.sub h o) h s g (tyReg o.t) o.d fun _ f =>
     tyFit o.t o.sat (isrc h g o.t f o.a - isrc h g o.t f o.b)) ∧
   (∀ h o s g, CanIssue (.mul h o) .none s g → Result (.mul h o) h s g (tyReg o.t) o.d fun _ f =>
     tyFit o.t o.sat (isrc h g o.t f o.a * isrc h g o.t f o.b)) ∧
   (∀ h o s g, CanIssue (.mulhi h o) .none s g → Result (.mulhi h o) h s g (tyReg o.t) o.d fun _ f =>
     tyFit o.t false (Int.fdiv (isrc h g o.t f o.a * isrc h g o.t f o.b) (2 ^ tyBits o.t))) ∧
   (∀ h o s g, CanIssue (.mad h o) .none s g → Result (.mad h o) h s g (tyReg o.t) o.d fun _ f =>
     tyFit o.t o.sat (isrc h g o.t f o.a * isrc h g o.t f o.b + isrc h g o.t f o.c)) ∧
   (∀ h o s g, CanIssue (.neg h o) .none s g → Result (.neg h o) h s g (tyReg o.t) o.d fun _ f =>
     tyFit o.t o.sat (- isrc h g o.t f o.a)) ∧
   (∀ h o s g, CanIssue (.abs h o) .none s g → Result (.abs h o) h s g (tyReg o.t) o.d fun _ f =>
     tyFit o.t o.sat |isrc h g o.t f o.a|) ∧
   (∀ h o s g, CanIssue (.min h o) .none s g → Result (.min h o) h s g (tyReg o.t) o.d fun _ f =>
     tyFit o.t false (min (isrc h g o.t f o.a) (isrc h g o.t f o.b))) ∧
   (∀ h o s g, CanIssue (.max h o) .none s g → Result (.max h o) h s g (tyReg o.t) o.d fun _ f =>
     tyFit o.t false (max (isrc h g o.t f o.a) (isrc h g o.t f o.b)))) ∧
  (∀ h o s g, CanIssue (.addc h o) .none s g →
     let sum := fun f => nsrc h g o.t f o.a + nsrc h g o.t f o.b + if psrc h g f o.c then 1 else 0
     Did (.addc h o) h s g
       (fun _ f => writeReg 32 o.c (if 2 ^ tyBits o.t ≤ sum f then 1 else 0)
         (writeReg (tyReg o.t) o.d (BitVec.ofNat 64 (sum f % 2 ^ tyBits o.t)) f))
       (writeScalar (tyReg o.t) o.d (fun _ f => BitVec.ofNat 64 (sum f % 2 ^ tyBits o.t)) h s g))

/-- R87: div truncates toward zero, with the stated quotients for b = 0 and for the least value by −1; rem is a − b × q
modulo 2^w. Neither faults, and neither sets a flag: all else is as the issue leaves it. -/
def Obligations.Division : Prop :=
  let q := fun (t : Ty) (a b : Int) =>
    if b = 0 then (if tySigned t then -1 else 2 ^ tyBits t - 1)
    else if tySigned t = true ∧ a = -(2 ^ (tyBits t - 1)) ∧ b = -1 then -(2 ^ (tyBits t - 1))
    else Int.tdiv a b
  (∀ h o s g, CanIssue (.div h o) .none s g → Result (.div h o) h s g (tyReg o.t) o.d fun _ f =>
    tyFit o.t false (q o.t (isrc h g o.t f o.a) (isrc h g o.t f o.b))) ∧
  (∀ h o s g, CanIssue (.rem h o) .none s g → Result (.rem h o) h s g (tyReg o.t) o.d fun _ f =>
    tyFit o.t false (isrc h g o.t f o.a - isrc h g o.t f o.b * q o.t (isrc h g o.t f o.a) (isrc h g o.t f o.b)))

/-- R88: the five shifts, their count read as n32. R89: popc, clz and ctz write a count as n32, clz and ctz of zero being
w; brev reverses the w bits. R90: bfe takes the field of l' bits at q, sign-extended for i types; bfi replaces it in
the old D. `bfi` beyond the width is read as log 19 says. -/
def Obligations.ShiftsAndBits : Prop :=
  ((∀ h o s g, CanIssue (.shl h o) .none s g → Result (.shl h o) h s g (tyReg o.t) o.d fun _ f =>
     if o.sat then tyFit o.t true (isrc h g o.t f o.a * 2 ^ count h g f o.b)
     else tyFit o.t false ((nsrc h g o.t f o.a * 2 ^ count h g f o.b % 2 ^ tyBits o.t : Nat) : Int)) ∧
   (∀ h o s g, CanIssue (.shr h o) .none s g → Result (.shr h o) h s g (tyReg o.t) o.d fun _ f =>
     tyFit o.t false ((nsrc h g o.t f o.a / 2 ^ count h g f o.b : Nat) : Int)) ∧
   (∀ h o s g, CanIssue (.sar h o) .none s g → Result (.sar h o) h s g (tyReg o.t) o.d fun _ f =>
     tyFit o.t false (Int.fdiv (sgn (tyBits o.t) (nsrc h g o.t f o.a)) (2 ^ count h g f o.b))) ∧
   (∀ h o s g, CanIssue (.rol h o) .none s g → Result (.rol h o) h s g (tyReg o.t) o.d fun _ f =>
     let k := count h g f o.b % tyBits o.t
     tyFit o.t false ((nsrc h g o.t f o.a * 2 ^ k % 2 ^ tyBits o.t + nsrc h g o.t f o.a / 2 ^ (tyBits o.t - k) : Nat) : Int)) ∧
   (∀ h o s g, CanIssue (.ror h o) .none s g → Result (.ror h o) h s g (tyReg o.t) o.d fun _ f =>
     let k := count h g f o.b % tyBits o.t
     tyFit o.t false ((nsrc h g o.t f o.a / 2 ^ k + nsrc h g o.t f o.a % 2 ^ k * 2 ^ (tyBits o.t - k) : Nat) : Int))) ∧
  ((∀ h o s g, CanIssue (.popc h o) .none s g → Result (.popc h o) h s g 32 o.d fun _ f =>
     BitVec.ofNat 64 ((List.range (tyBits o.t)).countP (nsrc h g o.t f o.a).testBit)) ∧
   (∀ h o s g, CanIssue (.clz h o) .none s g → ∃ n : Fibre → Nat,
     Result (.clz h o) h s g 32 o.d (fun _ f => BitVec.ofNat 64 (n f)) ∧
     ∀ f, n f ≤ tyBits o.t ∧ nsrc h g o.t f o.a < 2 ^ (tyBits o.t - n f) ∧
       (n f < tyBits o.t → 2 ^ (tyBits o.t - n f - 1) ≤ nsrc h g o.t f o.a)) ∧
   (∀ h o s g, CanIssue (.ctz h o) .none s g → ∃ n : Fibre → Nat,
     Result (.ctz h o) h s g 32 o.d (fun _ f => BitVec.ofNat 64 (n f)) ∧
     ∀ f, n f ≤ tyBits o.t ∧ nsrc h g o.t f o.a % 2 ^ n f = 0 ∧
       (n f < tyBits o.t → (nsrc h g o.t f o.a).testBit (n f) = true)) ∧
   (∀ h o s g, CanIssue (.brev h o) .none s g → ∃ n : Fibre → Nat,
     Result (.brev h o) h s g (tyReg o.t) o.d (fun _ f => tyFit o.t false (n f)) ∧
     ∀ f, n f < 2 ^ tyBits o.t ∧
       ∀ j, j < tyBits o.t → (n f).testBit j = (nsrc h g o.t f o.a).testBit (tyBits o.t - 1 - j))) ∧
  ((∀ h o s g, CanIssue (.bfe h o) .none s g → Result (.bfe h o) h s g (tyReg o.t) o.d fun _ f =>
     let q := count h g f o.b
     let l := min o.len.val (tyBits o.t - q)
     if tyBits o.t ≤ q then 0
     else
       let x := nsrc h g o.t f o.a / 2 ^ q % 2 ^ l
       tyFit o.t false (if tySigned o.t = true ∧ 1 ≤ l ∧ x.testBit (l - 1) = true then (x : Int) - 2 ^ l else x)) ∧
   (∀ h o s g, CanIssue (.bfi h o) .none s g → ∃ n : Fibre → Nat,
     Result (.bfi h o) h s g (tyReg o.t) o.d (fun _ f => tyFit o.t false (n f)) ∧
     ∀ f, n f < 2 ^ tyBits o.t ∧ ∀ j, j < tyBits o.t →
       (n f).testBit j =
         if count h g f o.b ≤ j ∧ j < count h g f o.b + min o.len.val (tyBits o.t - count h g f o.b) then
           (nsrc h g o.t f o.a).testBit (j - count h g f o.b)
         else (nsrc h g o.t f o.d).testBit j))

/-- R86, R91: and, or, xor and not on the low w bits; sel by its predicate; mov, also into a predicate register. R92:
setp compares at the instruction's type; plog combines two predicates. Both write the predicate D. R94: lea adds a to
b, extended by its sign for i64 and by zeros for n64, times 2^s; a shift above 4 is ILLEGAL. -/
def Obligations.LogicAndPredicates : Prop :=
  ((∀ h o s g, CanIssue (.and h o) .none s g → Result (.and h o) h s g (tyReg o.t) o.d fun _ f =>
     tyFit o.t false ((src h g o.t f o.a &&& src h g o.t f o.b).toNat : Int)) ∧
   (∀ h o s g, CanIssue (.or h o) .none s g → Result (.or h o) h s g (tyReg o.t) o.d fun _ f =>
     tyFit o.t false ((src h g o.t f o.a ||| src h g o.t f o.b).toNat : Int)) ∧
   (∀ h o s g, CanIssue (.xor h o) .none s g → Result (.xor h o) h s g (tyReg o.t) o.d fun _ f =>
     tyFit o.t false ((src h g o.t f o.a ^^^ src h g o.t f o.b).toNat : Int)) ∧
   (∀ h o s g, CanIssue (.not h o) .none s g → Result (.not h o) h s g (tyReg o.t) o.d fun _ f =>
     tyFit o.t false ((~~~(src h g o.t f o.a)).toNat : Int)) ∧
   (∀ h o s g, CanIssue (.sel h o) .none s g → Result (.sel h o) h s g (tyReg o.t) o.d fun _ f =>
     tyFit o.t false ((if psrc h g f o.c then src h g o.t f o.a else src h g o.t f o.b).toNat : Int)) ∧
   (∀ h o s g, CanIssue (.mov h o) .none s g → Result (.mov h o) h s g (tyReg o.t) o.d fun _ f =>
     tyFit o.t false ((src h g o.t f o.a).toNat : Int))) ∧
  ((∀ h o s g, CanIssue (.setp h o) .none s g → ∃ b : Fibre → Bool,
     Result (.setp h o) h s g 32 o.d (fun _ f => if b f then 1 else 0) ∧
     ∀ f, let x := isrc h g o.t f o.a
       let y := isrc h g o.t f o.b
       (o.cmp = .eq → (b f = true ↔ x = y)) ∧ (o.cmp = .ne → (b f = true ↔ x ≠ y)) ∧ (o.cmp = .lt → (b f = true ↔ x < y)) ∧
       (o.cmp = .le → (b f = true ↔ x ≤ y)) ∧ (o.cmp = .gt → (b f = true ↔ y < x)) ∧ (o.cmp = .ge → (b f = true ↔ y ≤ x))) ∧
   (∀ h op d a b s g, CanIssue (.plog h op d a b) .none s g → ∃ r : Fibre → Bool,
     Result (.plog h op d a b) h s g 32 d (fun _ f => if r f then 1 else 0) ∧
     ∀ f, let x := psrc h g f a = true
       let y := psrc h g f b = true
       (op = .and → (r f = true ↔ x ∧ y)) ∧ (op = .or → (r f = true ↔ x ∨ y)) ∧ (op = .xor → (r f = true ↔ ¬(x ↔ y))) ∧
       (op = .andn → (r f = true ↔ x ∧ ¬y)) ∧ (op = .orn → (r f = true ↔ x ∨ ¬y)) ∧ (op = .nand → (r f = true ↔ ¬(x ∧ y))) ∧
       (op = .nor → (r f = true ↔ ¬(x ∨ y))) ∧ (op = .xnor → (r f = true ↔ (x ↔ y))))) ∧
  ((∀ h o sc s g, CanIssue (.lea h o sc) .none s g →
     Result (.lea h o sc) h s g 64 o.d fun _ f =>
       let b : Int := if o.t = .i64 then sgn 32 (count h g f o.b) else count h g f o.b
       BitVec.ofInt 64 ((src h g o.t f o.a).toNat + b * 2 ^ sc.val)) ∧
   (∀ h o sc, 4 < sc.val → legal (.lea h o sc) = false))

/-! ## Control and system registers -/

/-- R99: nop and yield change nothing but the accounts of the issue. R96: br and call to a label go to PC + sext(IMM32)
modulo 2^48; call links PC + 12, the 64-bit sum; a distance whose bits 1:0 are not both zero is ILLEGAL; an inactive
fibre of the group falls through. R97: brx, ret and call to a register, where every acting fibre's target has bits
63:48 and 1:0 zero: each goes to its target, read before the link PC + 8, the 64-bit sum, is written. R97, R382: a
register target of 2^48 or more raises RANGE, and one that is no multiple of 4 MISALIGN, with the target in TADDR.
The link of a register call in a longer form rests on the model's reading of log 17. -/
def Obligations.Branches : Prop :=
  ((∀ h s g, CanIssue (.nop h) .none s g → Did (.nop h) h s g keep id) ∧
   (∀ h s g, CanIssue (.yield h) .none s g → Did (.yield h) h s g keep id)) ∧
  ((∀ h off s g, CanIssue (.br h off) .none s g →
     Did (.br h off) h s g (fun _ f => { f with pc := BitVec.ofInt 48 (s.cur.pc.toNat + off.toInt) }) id) ∧
   (∀ h d off s g, CanIssue (.callLabel h d off) .none s g →
     Did (.callLabel h d off) h s g
       (fun _ f => { writeReg 64 d (num64 (s.cur.pc.toNat + 12)) f with pc := BitVec.ofInt 48 (s.cur.pc.toNat + off.toInt) })
       (writeScalar 64 d (fun _ _ => num64 (s.cur.pc.toNat + 12)) h s g)) ∧
   (∀ h d off, off.toNat % 4 ≠ 0 → legal (.br h off) = false ∧ legal (.callLabel h d off) = false)) ∧
  (let good := fun (h : Hd) (s : State) (g : Gang) (a : Opnd) => ∀ l f, laneIn (acting h s g) l = true → fibreAt g l = some f →
     (src h g .n64 f a).toNat < 2 ^ 48 ∧ (src h g .n64 f a).toNat % 4 = 0
   (∀ h a s g, CanIssue (.brx h a) .none s g → good h s g a →
     Did (.brx h a) h s g (fun _ f => { f with pc := (src h g .n64 f a).setWidth 48 }) id) ∧
   (∀ h a s g, CanIssue (.ret h a) .none s g → good h s g a →
     Did (.ret h a) h s g (fun _ f => { f with pc := (src h g .n64 f a).setWidth 48 }) id) ∧
   (∀ h d a s g, CanIssue (.callRegister h d a) .none s g → good h s g a →
     Did (.callRegister h d a) h s g
       (fun _ f => { writeReg 64 d (num64 (s.cur.pc.toNat + 8)) f with pc := (src h g .n64 f a).setWidth 48 })
       (writeScalar 64 d (fun _ _ => num64 (s.cur.pc.toNat + 8)) h s g))) ∧
  (∀ (h : Hd) (d a : Opnd) (s : State) (g : Gang) (i : Instr), (i = .brx h a ∨ i = .ret h a ∨ i = .callRegister h d a) →
     CanIssue i .none s g → GroupReady s g →
     ∃ (t : State) (g' : Gang), exec i s = .next t ∧ t.mem = s.mem ∧ look s.cur.gang t.gangs = some g' ∧
       ∀ (l : Nat) (f : Fibre), laneIn (acting h s g) l = true → fibreAt g l = some f →
         let v := src h g .n64 f a
         (2 ^ 48 ≤ v.toNat → FaultRaised g' ⟨l, cause cRANGE, v, s.cur.pc⟩) ∧
         (v.toNat < 2 ^ 48 → v.toNat % 4 ≠ 0 → FaultRaised g' ⟨l, cause cMISALIGN, v, s.cur.pc⟩))

/-- R18, R98: exit ends every active fibre; inactive ones keep their registers, and all else of memory is as it was; a
gang left without fibres is gone. -/
def Obligations.ExitEndsFibres : Prop :=
  ∀ h s g, CanIssue (.exit h) .none s g →
    ∃ t, exec (.exit h) s = .next t ∧ t.mem = s.mem ∧ t.desc = s.desc ∧
      ((∃ l f, fibreAt g l = some f ∧ notEnded f = true ∧ laneIn (acting h s g) l = false) →
        ∃ g', look s.cur.gang t.gangs = some g' ∧ ∀ l f, fibreAt g l = some f → ∃ f', fibreAt g' l = some f' ∧
          (laneIn (acting h s g) l = true → ended f' = true) ∧
          (laneIn (acting h s g) l = false → f'.v = f.v ∧ f'.bank0 = f.bank0 ∧ f'.bank1 = f.bank1 ∧ f'.p = f.p ∧
            f'.fst = f.fst ∧ f'.key = f.key ∧ f'.ctr = f.ctr ∧ f'.w0 = f.w0 ∧ f'.w1 = f.w1 ∧
            (g.frames = [] → f'.life = f.life))) ∧
      ((∀ l f, fibreAt g l = some f → notEnded f = true → laneIn (acting h s g) l = true) →
        t.gangs.map (·.1) = (s.gangs.map (·.1)).erase s.cur.gang)

/-- R20, R100, R101, R182, R236, R385: getsr reads, for each active fibre, the value its register has at issue; the
values are those the machine holds for the fibre, its gang, crew, core and device: CREW and IDXX to IDXZ those of
R182, PSTATE that of R236, and the trap registers those of the top frame, all 0 where there is none. R20, R100, R101:
setsr of FST and CTR writes each active fibre's; of KEY also clears CTR; TVEC takes the highest active lane's value,
its bits 1:0 read as zero; `setsr.n32` writes the value zero-extended. R101, R385: setsr of TPC sets, in the top
frame, the TPC of each active lane's record, and nothing else. R439 to R441: in a core whose counters the gang's
context holds, getsr of PERFk reads the counter as it stood when the cycle began, and setsr gives it the written
COUNT and OVF, from the highest active lane, as the cycle ends: the cycle's events of that counter are lost, and what
stood there when it began is still read in it. The bits of TVEC and TPC that a write ignores are read as log 20 says. -/
def Obligations.SystemRegisters : Prop :=
  ((∀ h w d idx s g, CanIssue (.getsr h w d idx) .none s g → idx.val < 0x30 → (idx.val = 0 → NoReplay s g) →
     Did (.getsr h w d idx) h s g (fun l f => writeReg (if w then 64 else 32) d (srValue s g l f idx) f)
       (writeScalar (if w then 64 else 32) d (fun l f => srValue s g l f idx) h s g)) ∧
   (∀ s g l f, srValue s g l f 0x00 = s.clk ∧ srValue s g l f 0x01 = f.fst.setWidth 64 ∧ srValue s g l f 0x02 = BitVec.ofNat 64 l ∧
     srValue s g l f 0x03 = f.fid ∧ srValue s g l f 0x04 = g.gid ∧ srValue s g l f 0x06 = BitVec.ofNat 64 g.core ∧
     srValue s g l f 0x07 = BitVec.ofNat 64 (g.core / 32) ∧ srValue s g l f 0x08 = BitVec.ofNat 64 (g.core / 384) ∧
     srValue s g l f 0x09 = BitVec.ofNat 64 g.width ∧ srValue s g l f 0x10 = f.bound ∧ srValue s g l f 0x11 = f.incsel.setWidth 64 ∧
     srValue s g l f 0x12 = f.pcnt.setWidth 64 ∧ srValue s g l f 0x13 = f.acnt.setWidth 64 ∧ srValue s g l f 0x14 = f.key ∧
     srValue s g l f 0x15 = f.ctr ∧ srValue s g l f 0x1C = BitVec.ofNat 64 g.frames.length ∧ srValue s g l f 0x1D = g.tvec.setWidth 64 ∧
     srValue s g l f 0x24 = BitVec.ofNat 64 g.held ∧ srValue s g l f 0x28 = BitVec.ofNat 64 g.ldcnt ∧
     srValue s g l f 0x29 = BitVec.ofNat 64 g.stcnt ∧ srValue s g l f 0x2A = BitVec.ofNat 64 g.cpcnt ∧
     srValue s g l f 0x2B = BitVec.ofNat 64 g.mtcnt ∧ srValue s g l f 0x0D = f.fidx.setWidth 64 ∧
     srValue s g l f 0x0E = f.fidy.setWidth 64 ∧ srValue s g l f 0x0F = f.fidz.setWidth 64) ∧
   (∀ s g l f, let p := srValue s g l f 0x16
     p.toNat < 4 ∧ p.getLsbD 1 = f.psel ∧ p.getLsbD 0 = f.popen) ∧
   (∀ s g l f c, look g.crew s.crews = some c →
     srValue s g l f 0x05 = (if c.spawned then 0xFFFFFFFF else BitVec.ofNat 64 c.index) ∧
     ∀ e, gangLaunch s g = some e →
       (c.spawned = true → srValue s g l f 0x0A = 0 ∧ srValue s g l f 0x0B = 0 ∧ srValue s g l f 0x0C = 0) ∧
       (c.spawned = false → e.sym.isSome = true →
         srValue s g l f 0x0A = BitVec.ofNat 64 c.index ∧ srValue s g l f 0x0B = 0 ∧ srValue s g l f 0x0C = 0) ∧
       (c.spawned = false → e.sym = none → 0 < e.pkt.gx → 0 < e.pkt.gy → ∃ x y z : Nat, x < e.pkt.gx ∧ y < e.pkt.gy ∧
         z * (e.pkt.gx * e.pkt.gy) + y * e.pkt.gx + x = c.index ∧ srValue s g l f 0x0A = BitVec.ofNat 64 x ∧
         srValue s g l f 0x0B = BitVec.ofNat 64 y ∧ srValue s g l f 0x0C = BitVec.ofNat 64 z)) ∧
   (∀ s g l f, g.frames = [] → ∀ k ∈ [0x18, 0x19, 0x1A, 0x1B], srValue s g l f k = 0) ∧
   (∀ s g l f fr frs, g.frames = fr :: frs → srValue s g l f 0x1A = fr.tmask ∧
     (∀ r, fr.recs.find? (fun r => r.lane = l) = some r →
       srValue s g l f 0x18 = r.cause.setWidth 64 ∧ srValue s g l f 0x1B = r.addr ∧ srValue s g l f 0x19 = r.tpc.setWidth 64) ∧
     (fr.recs.find? (fun r => r.lane = l) = none → srValue s g l f 0x18 = 0 ∧ srValue s g l f 0x1B = 0 ∧
       ∀ p, fr.pcs.find? (fun p => p.1 = l) = some p → srValue s g l f 0x19 = p.2.setWidth 64))) ∧
  (let v := fun (h : Hd) (g : Gang) (w : Bool) (f : Fibre) (a : Opnd) => if w then src h g .n64 f a else src h g .n32 f a
   (∀ h w a s g, CanIssue (.setsr h w a 0x01) .none s g →
     Did (.setsr h w a 0x01) h s g (fun _ f => { f with fst := (v h g w f a).setWidth 5 }) id) ∧
   (∀ h w a s g, CanIssue (.setsr h w a 0x15) .none s g →
     Did (.setsr h w a 0x15) h s g (fun _ f => { f with ctr := v h g w f a }) id) ∧
   (∀ h w a s g, CanIssue (.setsrKey h w a) .none s g →
     Did (.setsrKey h w a) h s g (fun _ f => { f with key := v h g w f a, ctr := 0 }) id) ∧
   (∀ h w a s g l f, CanIssue (.setsr h w a 0x1D) .none s g → Highest h s g l f →
     DidG (.setsr h w a 0x1D) h s g keep { g with tvec := BitVec.ofNat 48 ((v h g w f a).toNat / 4 * 4) })) ∧
  (∀ h w a s g fr frs, CanIssue (.setsr h w a 0x19) .none s g → g.frames = fr :: frs →
     let newPc := fun f => BitVec.ofNat 48 ((if w then src h g .n64 f a else src h g .n32 f a).toNat / 4 * 4)
     let newRec := fun r : TrapRec =>
       match fibreAt g r.lane, laneIn (acting h s g) r.lane with
       | some f, true => { r with tpc := newPc f }
       | _, _ => r
     DidG (.setsr h w a 0x19) h s g keep { g with frames := { fr with recs := fr.recs.map newRec } :: frs }) ∧
  ((∀ h w d (k : Fin 16) s g, CanIssue (.getsr h w d ⟨0x30 + k.val, by omega⟩) .none s g → NoReplay s g →
     (coreOf s g.core).perf.owner = some g.ctx →
     Result (.getsr h w d ⟨0x30 + k.val, by omega⟩) h s g (if w then 64 else 32) d fun _ _ =>
       find 0 k.val (coreOf s g.core).perf.ctr) ∧
   (∀ h w a (k : Fin 16) s g l f, CanIssue (.setsrPerf h w a k) .none s g → Highest h s g l f →
     (coreOf s g.core).perf.owner = some g.ctx → wf 0 (coreOf s g.core).perf.ctr = true →
     ((coreOf s g.core).perf.wrote.map (·.1)).Pairwise (· < ·) →
     ∃ t, exec (.setsrPerf h w a k) s = .next t ∧ t.mem = s.mem ∧ (coreOf t g.core).perf.ctr = (coreOf s g.core).perf.ctr ∧
       find 0 k.val (coreOf t g.core).perf.endCycle.ctr =
         (if w then src h g .n64 f a else src h g .n32 f a) &&& 0x8000FFFFFFFFFFFF))

/-! ## Floating instructions -/

/-- R30 to R32: the one rounding of the device: of a nonzero exact value, in each format and mode, the result is the
value that the mode asks for, with NX where it differs and UF where it is tiny too; where the magnitude rounded with
an unbounded exponent exceeds the largest finite value, and only there, the result is that of R31, and OF and NX are
set. -/
def Obligations.RoundingIsCorrect : Prop :=
  ∀ t rm n m e, tyFloat t = true → m ≠ 0 →
    CorrectlyRounded (tyF t) rm (((FVal.fin n m e).q : ℚ) : ℝ) (fRnd (tyF t) rm n m e)

/-- R114 to R117: fadd, fsub, fmul, ffma, fnfma, and the mixed forms fdot2 and fpfma of R126: each element is one exact
value rounded once, with the special operands, zeros and flags of R115 and R117 (of fdot2's quiet NaNs beside
infinities, what the result is). -/
def Obligations.FloatSumsAndProducts : Prop :=
  (∀ h o s g, CanIssue (.fadd h o) .none s g → ∃ op, Float3 (.fadd h o) h s g o op ∧
    ∀ x y, SumIs (tyF o.t) o.rm (fDec (tyF o.t) x) (fDec (tyF o.t) y) (op x y)) ∧
  (∀ h o s g, CanIssue (.fsub h o) .none s g → ∃ op, Float3 (.fsub h o) h s g o op ∧
    ∀ x y, SumIs (tyF o.t) o.rm (fDec (tyF o.t) x) (fDec (tyF o.t) y).flip (op x y)) ∧
  (∀ h o s g, CanIssue (.fmul h o) .none s g → ∃ op, Float3 (.fmul h o) h s g o op ∧
    ∀ x y, ProductIs (tyF o.t) o.rm (fDec (tyF o.t) x) (fDec (tyF o.t) y) (op x y)) ∧
  (∀ h o s g, CanIssue (.ffma h o) .none s g → ∃ op, Float4 (.ffma h o) h s g o op ∧
    ∀ x y z, FusedIs (tyF o.t) o.rm false (fDec (tyF o.t) x) (fDec (tyF o.t) y) (fDec (tyF o.t) z) (op x y z)) ∧
  (∀ h o s g, CanIssue (.fnfma h o) .none s g → ∃ op, Float4 (.fnfma h o) h s g o op ∧
    ∀ x y z, FusedIs (tyF o.t) o.rm true (fDec (tyF o.t) x) (fDec (tyF o.t) y) (fDec (tyF o.t) z) (op x y z)) ∧
  (∀ h o s g, CanIssue (.fdot2 h o) .none s g → ∃ r : Fibre → Dword × Flags, FloatResult (.fdot2 h o) h s g 32 o.d r ∧
    ∀ f, let F := tyF o.t
      let x := fsrc h g o.t true f o.a
      let y := fsrc h g o.t true f o.b
      let a0 := fDec F x
      let a1 := fDec F (x >>> 16)
      let b0 := fDec F y
      let b1 := fDec F (y >>> 16)
      let c := fDec f32F (src h g .f32 f o.c)
      let e := a0.q * b0.q + a1.q * b1.q + c.q
      let vs := [a0, b0, a1, b1, c]
      let zi := fun (a b : FVal) => (a.isInf && b.isZero) || (a.isZero && b.isInf)
      let inf := fun (a b : FVal) => (a.isInf && !b.isNan && !b.isZero) || (b.isInf && !a.isNan && !a.isZero)
      let some' := fun (n : Bool) => (inf a0 b0 = true ∧ (a0.neg? != b0.neg?) = n) ∨ (inf a1 b1 = true ∧ (a1.neg? != b1.neg?) = n) ∨ c = .inf n
      ((∃ v ∈ vs, v.isNan = true) ∨ zi a0 b0 = true ∨ zi a1 b1 = true → (r f).1 = fNaN f32F) ∧
      ((∃ v ∈ vs, v.isSnan = true) ∨ zi a0 b0 = true ∨ zi a1 b1 = true → (r f).2 = fIV) ∧
      ((∀ v ∈ vs, v.isSnan = false ∧ v.isInf = false) → (∃ v ∈ vs, v.isNan = true) → (r f).2 = 0) ∧
      ((∀ v ∈ vs, v.isNan = false) → zi a0 b0 = false → zi a1 b1 = false →
        (some' true → some' false → r f = (fNaN f32F, fIV)) ∧ ∀ n, some' n → ¬ some' (!n) → r f = (fInf f32F n, 0)) ∧
      ((∀ v ∈ vs, v.isFin = true) → (e ≠ 0 → Rounded f32F o.rm e (r f)) ∧
        (e = 0 → let n := a0.neg? != b0.neg?
          r f = (fZero f32F (if n = (a1.neg? != b1.neg?) ∧ n = c.neg? then n else decide (o.rm = .rdn)), 0)))) ∧
  (∀ h o s g, CanIssue (.fpfma h o) .none s g → ∃ r : Fibre → Dword × Flags,
    FloatResult (.fpfma h o) h s g (tyReg (widerTy o.t)) o.d r ∧
    ∀ f, FusedIs (tyF (widerTy o.t)) o.rm false (fDec (tyF o.t) (src h g o.t f o.a)) (fDec (tyF o.t) (src h g o.t f o.b))
      (fDec (tyF (widerTy o.t)) (src h g (widerTy o.t) f o.c)) (r f))

/-- R115 to R117: fdiv, fsqrt, frcp and frsq are correctly rounded in every mode and format, with DZ for a division by
zero and IV for the invalid ones. -/
def Obligations.FloatDivisionAndRoots : Prop :=
  let quotient := fun (F : FFmt) (rm : Rm) (a b : FVal) (r : Dword × Flags) =>
    (a.isNan = true ∨ b.isNan = true → r = (fNaN F, if a.isSnan || b.isSnan then fIV else 0)) ∧
    ((a.isInf = true ∧ b.isInf = true) ∨ (a.isZero = true ∧ b.isZero = true) → r = (fNaN F, fIV)) ∧
    (a.isInf = true → b.isFin = true → r = (fInf F (a.neg? != b.neg?), 0)) ∧
    (a.isFin = true → b.isInf = true → r = (fZero F (a.neg? != b.neg?), 0)) ∧
    (a.isFin = true → a.isZero = false → b.isZero = true → r = (fInf F (a.neg? != b.neg?), fDZ)) ∧
    (a.isZero = true → b.isFin = true → b.isZero = false → r = (fZero F (a.neg? != b.neg?), 0)) ∧
    (a.isFin = true → a.isZero = false → b.isFin = true → b.isZero = false →
      CorrectlyRounded F rm ((a.q : ℝ) / (b.q : ℝ)) r)
  (∀ h o s g, CanIssue (.fdiv h o) .none s g → ∃ op, Float3 (.fdiv h o) h s g o op ∧
    ∀ x y, quotient (tyF o.t) o.rm (fDec (tyF o.t) x) (fDec (tyF o.t) y) (op x y)) ∧
  (∀ h o s g, CanIssue (.frcp h o) .none s g → ∃ op, Float2 (.frcp h o) h s g o op ∧
    ∀ x, quotient (tyF o.t) o.rm (.fin false 1 0) (fDec (tyF o.t) x) (op x)) ∧
  (∀ h o s g, CanIssue (.fsqrt h o) .none s g → ∃ op, Float2 (.fsqrt h o) h s g o op ∧
    ∀ x, let F := tyF o.t
      let a := fDec F x
      (a.isNan = true → op x = (fNaN F, if a.isSnan then fIV else 0)) ∧ (a.isZero = true → op x = (fZero F a.neg?, 0)) ∧
      (a = .inf false → op x = (fInf F false, 0)) ∧ (a.isNan = false → a.isZero = false → a.neg? = true → op x = (fNaN F, fIV)) ∧
      (a.isFin = true → a.isZero = false → a.neg? = false → CorrectlyRounded F o.rm (Real.sqrt (a.q : ℝ)) (op x))) ∧
  (∀ h o s g, CanIssue (.frsq h o) .none s g → ∃ op, Float2 (.frsq h o) h s g o op ∧
    ∀ x, let F := tyF o.t
      let a := fDec F x
      (a.isNan = true → op x = (fNaN F, if a.isSnan then fIV else 0)) ∧ (a.isZero = true → op x = (fInf F a.neg?, fDZ)) ∧
      (a = .inf false → op x = (fZero F false, 0)) ∧ (a.isNan = false → a.isZero = false → a.neg? = true → op x = (fNaN F, fIV)) ∧
      (a.isFin = true → a.isZero = false → a.neg? = false → CorrectlyRounded F o.rm (1 / Real.sqrt (a.q : ℝ)) (op x)))

/-- R118: fmin and fmax: one NaN gives the other operand, two the canonical NaN; −0 counts as less than +0; a signalling
NaN sets IV; a returned operand is copied unchanged, also of two equal ones, and no other flag is set. R119: fabs
clears the sign bit, fneg inverts it, and fcpsgn gives a with the sign bit of b; a NaN is copied unchanged and no
flag is set. R120, R121: fsetp's comparisons and their IV; fclass sets the one bit of the operand's class. -/
def Obligations.FloatMinMaxSignsCompare : Prop :=
  ((∀ h o s g, CanIssue (.fmin h o) .none s g → ∃ op, Float3 (.fmin h o) h s g o op ∧ ∀ x y, MinMaxIs (tyF o.t) false x y (op x y)) ∧
   (∀ h o s g, CanIssue (.fmax h o) .none s g → ∃ op, Float3 (.fmax h o) h s g o op ∧ ∀ x y, MinMaxIs (tyF o.t) true x y (op x y))) ∧
  ((∀ h o s g, CanIssue (.fabs h o) .none s g → ∃ op, Float2 (.fabs h o) h s g o op ∧ ∀ x, (op x).2 = 0 ∧
     ∀ j, j < 64 → (op x).1.getLsbD j = (decide (j < tyBits o.t - 1) && x.getLsbD j)) ∧
   (∀ h o s g, CanIssue (.fneg h o) .none s g → ∃ op, Float2 (.fneg h o) h s g o op ∧ ∀ x, (op x).2 = 0 ∧
     ∀ j, j < 64 → (op x).1.getLsbD j = (decide (j < tyBits o.t) && (x.getLsbD j != decide (j = tyBits o.t - 1)))) ∧
   (∀ h o s g, CanIssue (.fcpsgn h o) .none s g → ∃ op, Float3 (.fcpsgn h o) h s g o op ∧ ∀ x y, (op x y).2 = 0 ∧
     ∀ j, j < 64 → (op x y).1.getLsbD j = (decide (j < tyBits o.t) && if j = tyBits o.t - 1 then y.getLsbD j else x.getLsbD j))) ∧
  ((∀ h o s g, CanIssue (.fsetp h o) .none s g → ∃ b iv : Fibre → Bool,
     FloatResult (.fsetp h o) h s g 32 o.d (fun f => (if b f then 1 else 0, if iv f then fIV else 0)) ∧
     ∀ f, let x := fDec (tyF o.t) (src h g o.t f o.a)
       let y := fDec (tyF o.t) (src h g o.t f o.b)
       let nan := x.isNan = true ∨ y.isNan = true
       (iv f = true ↔ if o.cmp = .lt ∨ o.cmp = .le ∨ o.cmp = .gt ∨ o.cmp = .ge then nan else x.isSnan = true ∨ y.isSnan = true) ∧
       (o.cmp = .eq → (b f = true ↔ ¬nan ∧ x.same y)) ∧ (o.cmp = .ne → (b f = true ↔ nan ∨ ¬x.same y)) ∧
       (o.cmp = .lt → (b f = true ↔ ¬nan ∧ x.below y)) ∧ (o.cmp = .le → (b f = true ↔ ¬nan ∧ (x.below y ∨ x.same y))) ∧
       (o.cmp = .gt → (b f = true ↔ ¬nan ∧ y.below x)) ∧ (o.cmp = .ge → (b f = true ↔ ¬nan ∧ (y.below x ∨ x.same y))) ∧
       (o.cmp = .un → (b f = true ↔ nan)) ∧ (o.cmp = .ord → (b f = true ↔ ¬nan))) ∧
   (∀ h o s g, CanIssue (.fclass h o) .none s g → ∃ k : Fibre → Nat,
     Result (.fclass h o) h s g 32 o.d (fun _ f => BitVec.ofNat 64 (2 ^ k f)) ∧
     ∀ f, let F := tyF o.t
       let a := fDec F (src h g o.t f o.a)
       let n := a.neg?
       let sub := a.q ≠ 0 ∧ |a.q| < 2 ^ (1 - (F.bias : ℤ))
       (a.isNan = true → k f = if a.isSnan then 0 else 1) ∧ (a.isInf = true → k f = if n then 2 else 9) ∧
       (a.isZero = true → k f = if n then 5 else 6) ∧ (a.isFin = true → sub → k f = if n then 4 else 7) ∧
       (a.isFin = true → a.q ≠ 0 → ¬sub → k f = if n then 3 else 8)))

/-- R122, R123: frnd to an integral value, never NX; fscale by a power of two, rounded once; fexpo and fmant take a value
apart. R124, R125: f2sum and f2prod write the rounded result, with its flags, to D, and then the exact error, +0
where it is zero or the result is not finite, to C; f2prod raises NX and UF where the error itself is rounded. -/
def Obligations.FloatScalingAndErrorFree : Prop :=
  ((∀ h o s g, CanIssue (.frnd h o) .none s g → ∃ op, Float2 (.frnd h o) h s g o op ∧
     ∀ x, let F := tyF o.t
       let a := fDec F x
       (a.isNan = true → op x = (fNaN F, if a.isSnan then fIV else 0)) ∧ (∀ n, a = .inf n → op x = (fInf F n, 0)) ∧
       (a.isFin = true → (op x).2 = 0 ∧ ∃ k : ℤ, (fDec F (op x).1).isFin = true ∧ (fDec F (op x).1).q = k ∧
         (fDec F (op x).1).neg? = a.neg? ∧
         match o.rm with
         | .rne => |a.q - k| ≤ 1 / 2 ∧ (|a.q - k| = 1 / 2 → k % 2 = 0)
         | .rtz => |(k : ℚ)| ≤ |a.q| ∧ |a.q| < |(k : ℚ)| + 1
         | .rdn => k = ⌊a.q⌋
         | .rup => k = ⌈a.q⌉)) ∧
   (∀ h o s g, CanIssue (.fscale h o) .none s g → ∃ r : Fibre → Dword × Flags, FloatResult (.fscale h o) h s g (tyReg o.t) o.d r ∧
     ∀ f, let F := tyF o.t
       let a := fDec F (src h g o.t f o.a)
       let b := isrc h g .i32 f o.b
       (a.isNan = true → r f = (fNaN F, if a.isSnan then fIV else 0)) ∧ (∀ n, a = .inf n → r f = (fInf F n, 0)) ∧
       (a.isZero = true → r f = (fZero F a.neg?, 0)) ∧ (a.isFin = true → a.q ≠ 0 → Rounded F o.rm (a.q * 2 ^ b) (r f))) ∧
   (∀ h o s g, CanIssue (.fexpo h o) .none s g → ∃ k : Fibre → ℤ, ∃ iv : Fibre → Bool,
     FloatResult (.fexpo h o) h s g 32 o.d (fun f => (tyFit .i32 false (k f), if iv f then fIV else 0)) ∧
     ∀ f, let a := fDec (tyF o.t) (src h g o.t f o.a)
       (a.isFin = true → a.q ≠ 0 → iv f = false ∧ (2 : ℚ) ^ k f ≤ |a.q| ∧ |a.q| < 2 ^ (k f + 1)) ∧
       (a.isZero = true → iv f = true ∧ k f = -2 ^ 31) ∧ (a.isFin = false → iv f = true ∧ k f = 2 ^ 31 - 1)) ∧
   (∀ h o s g, CanIssue (.fmant h o) .none s g → ∃ op, Float2 (.fmant h o) h s g o op ∧
     ∀ x, let F := tyF o.t
       let a := fDec F x
       (a.isNan = true → op x = (fNaN F, if a.isSnan then fIV else 0)) ∧ (∀ n, a = .inf n → op x = (fInf F n, 0)) ∧
       (a.isZero = true → op x = (fZero F a.neg?, 0)) ∧
       (a.isFin = true → a.q ≠ 0 → (op x).2 = 0 ∧ ∃ k : ℤ, (fDec F (op x).1).q = a.q * 2 ^ (-k) ∧
         1 ≤ |(fDec F (op x).1).q| ∧ |(fDec F (op x).1).q| < 2))) ∧
  (let error := fun (F : FFmt) (e : ℚ) (c : Dword) => (e = 0 → c = fZero F false) ∧
     (e ≠ 0 → ∃ r, Rounded F .rne e r ∧ c = r.1)
   let both := fun (i : Instr) (h : Hd) (o : Fl4) (s : State) (g : Gang) (r : Fibre → Dword × Dword × Flags) =>
     Did i h s g (fun _ f => raise (r f).2.2 (writeReg (tyReg o.t) o.c (r f).2.1 (writeReg (tyReg o.t) o.d (r f).1 f)))
       (match o.d, o.c with
         | .s n, .s m => fun x => (lanesOf (acting h s g)).foldl (fun x l => match fibreAt g l with
             | some f => put 0 m (if tyReg o.t = 64 then (r f).2.1 else lo32 (r f).2.1)
                 (put 0 n (if tyReg o.t = 64 then (r f).1 else lo32 (r f).1) x)
             | none => x) x
         | .s _, _ => writeScalar (tyReg o.t) o.d (fun _ f => (r f).1) h s g
         | _, _ => writeScalar (tyReg o.t) o.c (fun _ f => (r f).2.1) h s g)
   (∀ h o s g, CanIssue (.f2sum h o) .none s g → ∃ r : Fibre → Dword × Dword × Flags, both (.f2sum h o) h o s g r ∧
     ∀ f, let F := tyF o.t
       let a := fDec F (src h g o.t f o.a)
       let b := fDec F (src h g o.t f o.b)
       SumIs F .rne a b ((r f).1, (r f).2.2) ∧
       (a.isFin = true → b.isFin = true → (fDec F (r f).1).isFin = true → error F (a.q + b.q - (fDec F (r f).1).q) (r f).2.1) ∧
       ((fDec F (r f).1).isFin = false → (r f).2.1 = fZero F false)) ∧
   (∀ h o s g, CanIssue (.f2prod h o) .none s g → ∃ r : Fibre → Dword × Dword × Flags, ∃ fl : Fibre → Flags,
     both (.f2prod h o) h o s g r ∧
     ∀ f, let F := tyF o.t
       let a := fDec F (src h g o.t f o.a)
       let b := fDec F (src h g o.t f o.b)
       let e := a.q * b.q - (fDec F (r f).1).q
       ProductIs F .rne a b ((r f).1, fl f) ∧
       (a.isFin = true → b.isFin = true → (fDec F (r f).1).isFin = true → error F e (r f).2.1 ∧
         (r f).2.2 = fl f ||| if (fDec F (r f).2.1).q = e then 0 else fNX ||| fUF) ∧
       ((fDec F (r f).1).isFin = false → (r f).2.1 = fZero F false ∧ (r f).2.2 = fl f)))

/-- R35, R129, R130: cvt by the kinds of its formats, an overflow into F8E4 or F8E5 giving 0x80 with IV and NX, or with
`.sat` the largest finite value with OF and NX; pack and unpk. R36, R131: qnt gives the code whose level times the
scale lies nearest a, the even one of two, or code 8 with IV; its `.ins` form replaces one nibble of D. R127: fexp2
and flog2: the special cases, an exact power of two for an integral argument of fexp2, and the exact logarithm of a
power of two. R132 to R135: a draw is D(KEY, CTR), and advances CTR; rand by its type; seed sets KEY, with `.fid`
XORed with FID, and clears CTR. How the model computes the two functions is log 11. -/
def Obligations.ConversionsAndQuantising : Prop :=
  (let intoFloat := fun (F : FFmt) (rm : Rm) (a : FVal) (r : Dword × Flags) =>
     (a.isNan = true → r = (fNaN F, if a.isSnan then fIV else 0)) ∧ (∀ n, a = .inf n → r = (fInf F n, 0)) ∧
     (a.isZero = true → r = (fZero F a.neg?, 0)) ∧ (a.isFin = true → a.q ≠ 0 → Rounded F rm a.q r)
   let intoInt := fun (t : Ty) (rm : Rm) (a : FVal) (r : Dword × Flags) =>
     (a.isNan = true → r = (0, fIV)) ∧
     (∀ n, a = .inf n → r = (tyFit t false (if n then tyMin t else tyMax t), fIV)) ∧
     (a.isFin = true → ∃ k : ℤ, (match rm with
         | .rne => |a.q - k| ≤ 1 / 2 ∧ (|a.q - k| = 1 / 2 → k % 2 = 0)
         | .rtz => |(k : ℚ)| ≤ |a.q| ∧ |a.q| < |(k : ℚ)| + 1 ∧ 0 ≤ k * a.q
         | .rdn => k = ⌊a.q⌋
         | .rup => k = ⌈a.q⌉) ∧
       r = (if k < tyMin t then (tyFit t false (tyMin t), fIV) else if tyMax t < k then (tyFit t false (tyMax t), fIV)
         else (tyFit t false k, if (k : ℚ) = a.q then 0 else fNX)))
   (∀ h o s g, CanIssue (.cvt h o) .none s g → ∃ r : Fibre → Dword × Flags,
     FloatResult (.cvt h o) h s g (fmtReg o.dst) o.d r ∧
     ∀ f, let x := rd g h.ext ⟨o.src, false⟩ f o.a
       let a := fmtDec o.src x
       (∀ t, o.dst = .ty t → tyFloat t = true → intoFloat (tyF t) o.rm a (r f)) ∧
       (∀ t, o.dst = .ty t → tyFloat t = false → cvtFloat o.src = true → intoInt t o.rm a (r f)) ∧
       (∀ t u, o.dst = .ty t → tyFloat t = false → o.src = .ty u → tyFloat u = false → r f = (tyFit t o.sat (tyVal u x), 0)) ∧
       ∀ F, (o.dst = .f8e4 ∧ F = f8e4F ∨ o.dst = .f8e5 ∧ F = f8e5F) → (a.isNan = true → r f = (0x80, if a.isSnan then fIV else 0)) ∧
         (∀ n, a = .inf n → r f = if o.sat then (if n then 0xFF else 0x7F, fOF ||| fNX) else (0x80, fIV ||| fNX)) ∧
         (a.isZero = true → r f = (0, 0)) ∧ (a.isFin = true → a.q ≠ 0 → CorrectlyRounded8 F o.rm o.sat (a.q : ℝ) (r f))) ∧
   (∀ h o s g, CanIssue (.pack h o) .none s g → ∃ c : Dword → Dword × Flags,
     FloatResult (.pack h o) h s g 32 o.d (fun f =>
       let lo := c (src h g .f32 f o.a)
       let hi := c (src h g .f32 f o.b)
       (hi.1 <<< 16 ||| lo.1, lo.2 ||| hi.2)) ∧
     ∀ x, intoFloat (tyF o.t) o.rm (fDec f32F x) (c x)) ∧
   (∀ h hi o s g, CanIssue (.unpk h hi o) .none s g → ∃ c : Dword → Dword × Flags,
     FloatResult (.unpk h hi o) h s g 32 o.d (fun f =>
       c (if hi then fsrc h g o.t true f o.a >>> 16 else fsrc h g o.t true f o.a)) ∧
     ∀ x, intoFloat f32F .rne (fDec (tyF o.t) x) (c x))) ∧
  (let level := fun c : Nat => (q4nLevels.getD c 0 : ℤ)
   let codeIs := fun (a b : FVal) (c : Nat) (fl : Flags) =>
     c < 16 ∧
     (a.isNan = true ∨ b.isNan = true ∨ b.isZero = true ∨ b.isInf = true → c = 8 ∧ fl = fIV) ∧
     (a.isInf = true → b.isFin = true → b.isZero = false → fl = 0 ∧ c = if a.neg? = b.neg? then 15 else 0) ∧
     (a.isFin = true → b.isFin = true → b.isZero = false → fl = 0 ∧
       ∀ k, k < 16 → |a.q - b.q * level c / 128| ≤ |a.q - b.q * level k / 128| ∧
         (|a.q - b.q * level c / 128| = |a.q - b.q * level k / 128| → k ≠ c → c % 2 = 0))
   (∀ h d a b s g, CanIssue (.qnt h d a b) .none s g → ∃ c : Fibre → Nat, ∃ fl : Fibre → Flags,
     FloatResult (.qnt h d a b) h s g 32 d (fun f => (BitVec.ofNat 64 (c f), fl f)) ∧
     ∀ f, codeIs (fDec f32F (src h g .f32 f a)) (fDec f32F (src h g .f32 f b)) (c f) (fl f)) ∧
   (∀ h d a b j s g, CanIssue (.qntIns h d a b j) .none s g → ∃ c : Fibre → Nat, ∃ fl : Fibre → Flags,
     FloatResult (.qntIns h d a b j) h s g 32 d (fun f =>
       ((src h g .n32 f d &&& ~~~((15 : Dword) <<< (4 * j.val))) ||| (BitVec.ofNat 64 (c f) <<< (4 * j.val)), fl f)) ∧
     ∀ f, codeIs (fDec f32F (src h g .f32 f a)) (fDec f32F (src h g .f32 f b)) (c f) (fl f))) ∧
  ((∀ h o s g, CanIssue (.fexp2 h o) .none s g → ∃ op, Float2 (.fexp2 h o) h s g o op ∧
     ∀ x, let a := fDec f32F x
       (a.isNan = true → op x = (fNaN f32F, if a.isSnan then fIV else 0)) ∧
       (a = .inf true → op x = (fZero f32F false, 0)) ∧ (a = .inf false → op x = (fInf f32F false, 0)) ∧
       (∀ k : ℤ, a.isFin = true → a.q = k → -149 ≤ k → k ≤ 127 → op x = fRnd f32F o.rm false 1 k ∧
         (fDec f32F (op x).1).q = 2 ^ k ∧ (op x).2 = 0)) ∧
   (∀ h o s g, CanIssue (.flog2 h o) .none s g → ∃ op, Float2 (.flog2 h o) h s g o op ∧
     ∀ x, let a := fDec f32F x
       (a.isNan = true → op x = (fNaN f32F, if a.isSnan then fIV else 0)) ∧ (a.isZero = true → op x = (fInf f32F true, fDZ)) ∧
       (a = .inf false → op x = (fInf f32F false, 0)) ∧ (a.isNan = false → a.isZero = false → a.neg? = true → op x = (fNaN f32F, fIV)) ∧
       (a.isFin = true → a.q = 1 → op x = (fZero f32F false, 0)) ∧
       (∀ k : ℤ, a.isFin = true → a.q = 2 ^ k → (fDec f32F (op x).1).q = k ∧ (op x).2 = 0))) ∧
  (let D := fun (k n : Dword) =>
     let z := k + n * 0x8C4B12F9E3A75D61
     let z := (z ^^^ (z >>> 31)) * 0xB7E04A9D2C63F185
     let z := (z ^^^ (z >>> 27)) * 0xD33A6E0591BF4C27
     let z := z ^^^ (z >>> 33)
     (z >>> 32).toNat
   (∀ h d s g, CanIssue (.rand h .n32 d) .none s g →
     Did (.rand h .n32 d) h s g (fun _ f => writeReg 32 d (BitVec.ofNat 64 (D f.key f.ctr)) { f with ctr := f.ctr + 1 })
       (writeScalar 32 d (fun _ f => BitVec.ofNat 64 (D f.key f.ctr)) h s g)) ∧
   (∀ h d s g, CanIssue (.rand h .n64 d) .none s g →
     let v := fun f : Fibre => BitVec.ofNat 64 (D f.key (f.ctr + 1) * 2 ^ 32 + D f.key f.ctr)
     Did (.rand h .n64 d) h s g (fun _ f => writeReg 64 d (v f) { f with ctr := f.ctr + 2 }) (writeScalar 64 d (fun _ f => v f) h s g)) ∧
   (∀ h d s g, CanIssue (.rand h .f32 d) .none s g → ∃ v : Fibre → Dword,
     Did (.rand h .f32 d) h s g (fun _ f => writeReg 32 d (v f) { f with ctr := f.ctr + 1 }) (writeScalar 32 d (fun _ f => v f) h s g) ∧
     ∀ f, (fDec f32F (v f)).isFin = true ∧ (fDec f32F (v f)).q = (D f.key f.ctr / 2 ^ 8 : Nat) / 2 ^ 24) ∧
   (∀ h d s g, CanIssue (.rand h .f64 d) .none s g → ∃ v : Fibre → Dword,
     Did (.rand h .f64 d) h s g (fun _ f => writeReg 64 d (v f) { f with ctr := f.ctr + 2 }) (writeScalar 64 d (fun _ f => v f) h s g) ∧
     ∀ f, (fDec f64F (v f)).isFin = true ∧
       (fDec f64F (v f)).q = (D f.key f.ctr * 2 ^ 21 + D f.key (f.ctr + 1) / 2 ^ 11 : Nat) / 2 ^ 53) ∧
   (∀ h fid a s g, CanIssue (.seed h fid a) .none s g →
     Did (.seed h fid a) h s g (fun _ f => { f with key := if fid then src h g .n64 f a ^^^ f.fid else src h g .n64 f a, ctr := 0 }) id))

/-! ## Wide accumulators -/

/-- R47, R141, R142: wclr, wadd, wsub, wmul2 and wmul3: each active fibre's exact value is added to its accumulator,
truncated toward −∞ with LOSS, wrapped with OVF; a NaN or an infinity among the operands sets NAN and leaves W. R143
to R145: wmov copies, negates, adds or subtracts accumulators exactly, with OVF where the sum leaves the range; wsgn
gives the sign of W and whether it is exact; wrnd rounds W × 2^-512 once. -/
def Obligations.WideAccumulators : Prop :=
  (let add := fun (x : Option ℚ) (a : Wide) (b : Wide) =>
     match x with
     | none => b = { a with nan := true }
     | some x =>
       let k : ℤ := ⌊x * 2 ^ (512 : ℕ)⌋
       let z := a.w.toInt + k
       b = ⟨BitVec.ofInt 1024 z, a.loss || decide ((k : ℚ) ≠ x * 2 ^ (512 : ℕ)),
         a.ovf || decide (z < -2 ^ 1023 ∨ 2 ^ 1023 - 1 < z), a.nan⟩
   let num := fun (h : Hd) (g : Gang) (t : Ty) (f : Fibre) (o : Opnd) =>
     let v := fmtDec (.ty t) (src h g t f o)
     if v.isFin then some v.q else none
   let times := fun (a b : Option ℚ) => a.bind fun x => b.map fun y => x * y
   let signed := fun (n : Bool) (a : Option ℚ) => a.map fun x => if n then -x else x
   let adds := fun (i : Instr) (h : Hd) (s : State) (g : Gang) (d : Fin 2) (x : Fibre → Option ℚ) =>
     ∃ w : Fibre → Wide, Did i h s g (fun _ f => setWide d (w f) f) id ∧ ∀ f, add (x f) (getWide f d) (w f)
   (∀ h d s g, CanIssue (.wclr h d) .none s g →
     Did (.wclr h d) h s g (fun _ f => setWide d ⟨0, false, false, false⟩ f) id) ∧
   (∀ h d s g, CanIssue (.wclrStat h d) .none s g →
     Did (.wclrStat h d) h s g (fun _ f => setWide d ⟨(getWide f d).w, false, false, false⟩ f) id) ∧
   (∀ h t d a s g, CanIssue (.wadd h t d a) .none s g → adds (.wadd h t d a) h s g d fun f => num h g t f a) ∧
   (∀ h t d a s g, CanIssue (.wsub h t d a) .none s g → adds (.wsub h t d a) h s g d fun f => signed true (num h g t f a)) ∧
   (∀ h o s g, CanIssue (.wmul2 h o) .none s g → adds (.wmul2 h o) h s g o.d fun f =>
     signed o.neg (times (num h g o.t f o.a) (num h g o.t f o.b))) ∧
   (∀ h o c s g, CanIssue (.wmul3 h o c) .none s g → adds (.wmul3 h o c) h s g o.d fun f =>
     signed o.neg (times (times (num h g o.t f o.a) (num h g o.t f o.b)) (num h g o.t f c)))) ∧
  ((∀ h op d a s g, CanIssue (.wmov h op d a) .none s g →
     Did (.wmov h op d a) h s g (fun _ f =>
       let x := getWide f d
       let y := getWide f a
       let z : ℤ := match op with
         | .copy => y.w.toInt
         | .neg => -y.w.toInt
         | .add => x.w.toInt + y.w.toInt
         | .sub => x.w.toInt - y.w.toInt
       let out := decide (z < -2 ^ 1023 ∨ 2 ^ 1023 - 1 < z)
       let old : Wide := if op = .add ∨ op = .sub then x else ⟨0, false, false, false⟩
       setWide d ⟨BitVec.ofInt 1024 z, old.loss || y.loss, old.ovf || y.ovf || out, old.nan || y.nan⟩ f) id) ∧
   (∀ h w d a p s g, CanIssue (.wsgn h w d a p) .none s g →
     let sign := fun f : Fibre => BitVec.ofInt 64 (getWide f a).w.toInt.sign
     Did (.wsgn h w d a p) h s g (fun _ f =>
         writeReg 32 p (if (getWide f a).loss || (getWide f a).ovf || (getWide f a).nan then 0 else 1)
           (writeReg (if w then 64 else 32) d (sign f) f))
       (writeScalar (if w then 64 else 32) d (fun _ f => sign f) h s g)) ∧
   (∀ h w rm d a s g, CanIssue (.wrnd h w rm d a) .none s g → ∃ r : Fibre → Dword × Flags,
     FloatResult (.wrnd h w rm d a) h s g (if w then 64 else 32) d r ∧
     ∀ f, let F := if w then f64F else f32F
       let x : ℚ := ((getWide f a).w.toInt : ℚ) / 2 ^ (512 : ℕ)
       (x = 0 → r f = (fZero F false, 0)) ∧ (x ≠ 0 → Rounded F rm x (r f))))

/-! ## Completion of the register forms -/

/-- R6, R14, R100, R101, R112, R127 to R130, R134, R143, R441: each of the 41 forms named here, of the system registers,
the floating instructions and the wide accumulators, completes in every state in which it can issue: whatever its
operands, the acting fibres go on to the next instruction and trap at nothing, and every other fibre of the gang,
every other gang and all of memory is as it was. A counter is read or written by the context that holds it, and a
logged read needs a launch with no replay log. -/
def Obligations.FormsComplete : Prop :=
  let completes := fun (i : Instr) (h : Hd) (s : State) (g : Gang) => ∃ (t : State) (g' : Gang), exec i s = .next t ∧
    look s.cur.gang t.gangs = some g' ∧ SameBut s.cur.gang s t ∧ g'.pend = [] ∧ g'.frames.length = g.frames.length ∧
    ∀ (l : Nat) (f : Fibre), fibreAt g l = some f → ∃ f', fibreAt g' l = some f' ∧
      (laneIn (acting h s g) l = true → f'.pc = s.cur.pc + BitVec.ofNat 48 (lenBytes i) ∧ f'.life = f.life ∧ f'.wait = f.wait ∧
        f'.gwait = f.gwait ∧ f'.fid = f.fid) ∧
      (laneIn (acting h s g) l = false → f' = if laneIn s.cur.group l = true then past i s g f else f)
  let always := fun (i : Instr) (h : Hd) => ∀ (s : State) (g : Gang), CanIssue i .none s g → completes i h s g
  (∀ (h : Hd) (w : Bool) (d : Opnd) (k : Fin 64) (s : State) (g : Gang), CanIssue (.getsr h w d k) .none s g →
    (0x30 ≤ k.val → holdsPerf s g = true) → (k.val = 0 ∨ 0x30 ≤ k.val → NoReplay s g) → completes (.getsr h w d k) h s g) ∧
  (∀ (h : Hd) (w : Bool) (a : Opnd) (k : Fin 16) (s : State) (g : Gang), CanIssue (.setsrPerf h w a k) .none s g →
    holdsPerf s g = true → completes (.setsrPerf h w a k) h s g) ∧
  (∀ (h : Hd) (w : Bool) (a : Opnd), (∀ k : Fin 64, always (.setsr h w a k) h) ∧ always (.setsrKey h w a) h) ∧
  (∀ (h : Hd) (o : Fl2), always (.fsqrt h o) h ∧ always (.frcp h o) h ∧ always (.frsq h o) h ∧ always (.fabs h o) h ∧
    always (.fneg h o) h ∧ always (.fclass h o) h ∧ always (.frnd h o) h ∧ always (.fexpo h o) h ∧ always (.fmant h o) h ∧
    always (.fexp2 h o) h ∧ always (.flog2 h o) h ∧ ∀ hi : Bool, always (.unpk h hi o) h) ∧
  (∀ (h : Hd) (o : Fl3), always (.fdiv h o) h ∧ always (.fmin h o) h ∧ always (.fmax h o) h ∧ always (.fcpsgn h o) h ∧
    always (.fscale h o) h ∧ always (.pack h o) h) ∧
  (∀ (h : Hd) (o : Fl4), always (.f2sum h o) h ∧ always (.f2prod h o) h ∧ always (.fdot2 h o) h ∧ always (.fpfma h o) h) ∧
  (∀ (h : Hd) (o : CmpOps), always (.fsetp h o) h) ∧ (∀ (h : Hd) (o : Cvt), always (.cvt h o) h) ∧
  (∀ (h : Hd) (d a b : Opnd), always (.qnt h d a b) h ∧ ∀ j : Fin 512, always (.qntIns h d a b j) h) ∧
  (∀ (h : Hd) (t : Ty) (d : Opnd), always (.rand h t d) h) ∧ (∀ (h : Hd) (fid : Bool) (a : Opnd), always (.seed h fid a) h) ∧
  (∀ (h : Hd) (d : Fin 2), always (.wclr h d) h ∧ always (.wclrStat h d) h) ∧
  (∀ (h : Hd) (t : Ty) (d : Fin 2) (a : Opnd), always (.wadd h t d a) h ∧ always (.wsub h t d a) h) ∧
  (∀ (h : Hd) (o : WMul), always (.wmul2 h o) h ∧ ∀ c : Opnd, always (.wmul3 h o c) h) ∧
  (∀ (h : Hd) (w : Bool) (d : Opnd) (a : Fin 2) (p : Opnd), always (.wsgn h w d a p) h) ∧
  (∀ (h : Hd) (w : Bool) (rm : Rm) (d : Opnd) (a : Fin 2), always (.wrnd h w rm d a) h) ∧
  (∀ (h : Hd) (op : WMov) (d a : Fin 2), always (.wmov h op d a) h)

/-! ## Memory instructions -/

/-- R102 to R107, R109, R111: a load, store or descriptor access of the crew's scratchpad, and an atomic there (R294,
R295), complete where they issue: loads write each active fibre's destination with the bytes at its address, stores
write those bytes and no other, atomics run in ascending lane order, each on what the lower lanes left. -/
def Obligations.ScratchpadAccesses : Prop :=
  (∀ h o s g, o.space = .scratch → CanIssue (.ld h o) .ld s g → GroupReady s g →
    AllPass s g .scratch needR (memAccs o (theIss h s g)) →
    let bytes := fun (_ : Nat) f => findAll 0 (scratchBase s g + (rdAddr g h.ext f o.a o.b).toNat) (memBytes o) (coreOf s g.core).spad
    DidWith (.ld h o) h s g (fun l f => loadReg o (bytes l f) f) { g with s := loadScalar o h s g bytes }
      fun t => MemFrame s.cur.gang g.core s t ∧ SpadSame g.core s t) ∧
  (∀ h o s g, o.space = .scratch → CanIssue (.st h o) .st s g → GroupReady s g → wf 0 (coreOf s g.core).spad = true →
    (o.str = .sync → Released h s g o.scope) → AllPass s g .scratch needW (memAccs o (theIss h s g)) →
    DidWith (.st h o) h s g keep g fun t => MemFrame s.cur.gang g.core s t ∧
      StoredIn (coreOf s g.core).spad (coreOf t g.core).spad (partsOf s g .scratch needW (memAccs o (theIss h s g)))
        (storeData o (theIss h s g))) ∧
  (∀ h o s g, o.space = .scratch → CanIssue (.wld h o) .ld s g → GroupReady s g →
    AllPass s g .scratch needR (wideAccs o (theIss h s g)) →
    DidWith (.wld h o) h s g (fun _ f =>
        let st := src h g .n32 f o.c
        setWide o.w ⟨BitVec.ofNat 1024 (leNat (findAll 0 (scratchBase s g + (rdAddr g h.ext f o.a o.b).toNat) 128
          (coreOf s g.core).spad)), st.getLsbD 0, st.getLsbD 1, st.getLsbD 2⟩ f) g
      fun t => MemFrame s.cur.gang g.core s t ∧ SpadSame g.core s t) ∧
  (∀ h o s g, o.space = .scratch → CanIssue (.wst h o) .st s g → GroupReady s g → wf 0 (coreOf s g.core).spad = true →
    AllPass s g .scratch needW (wideAccs o (theIss h s g)) →
    let st := fun f => wideStatus (getWide f o.w)
    DidWith (.wst h o) h s g (fun _ f => writeReg 32 o.c (st f) f)
      { g with s := writeScalar 32 o.c (fun _ f => st f) h s g g.s } fun t => MemFrame s.cur.gang g.core s t ∧
      StoredIn (coreOf s g.core).spad (coreOf t g.core).spad (partsOf s g .scratch needW (wideAccs o (theIss h s g)))
        (fun l => leBytes 128 (wideOut o (theIss h s g) l).w.toNat)) ∧
  (∀ h o s g, o.space = .scratch → CanIssue (.ldesc h o) .ld s g → GroupReady s g → NoReplay s g →
    AllPass s g .scratch needR (byteAccs o.a o.b (theIss h s g)) →
    let v := fun f => (find resetDesc ((scratchBase s g + (rdAddr g h.ext f o.a o.b).toNat) / 64) (coreOf s g.core).spadDesc).setWidth 64
    DidWith (.ldesc h o) h s g (fun _ f => bringReg 32 o.d (v f) f) { g with s := bringScalar 32 o.d (fun _ f => v f) h s g }
      fun t => MemFrame s.cur.gang g.core s t ∧ SpadSame g.core s t) ∧
  (∀ h o s g, o.space = .scratch → CanIssue (.sdesc h o) .st s g → GroupReady s g → wf resetDesc (coreOf s g.core).spadDesc = true →
    AllPass s g .scratch needW (byteAccs o.a o.b (theIss h s g)) →
    let sector := fun f => (scratchBase s g + (rdAddr g h.ext f o.a o.b).toNat) / 64
    DidWith (.sdesc h o) h s g keep g fun t => MemFrame s.cur.gang g.core s t ∧
      (coreOf t g.core).spad = (coreOf s g.core).spad ∧
      ∀ x, find resetDesc x (coreOf t g.core).spadDesc =
        match topLane (acting h s g &&& lanesWhere (fun f => sector f = x) g) with
        | some l => ((fibreAt g l).map fun f => (src h g .n32 f o.d).setWidth 16).getD 0
        | none => find resetDesc x (coreOf s g.core).spadDesc) ∧
  (∀ h o s g isCas i, (i = .atom h o ∧ isCas = false ∨ i = .cas h o ∧ isCas = true) → o.space = .scratch →
    CanIssue i (atomCtr o) s g → GroupReady s g → NoReplay s g → wf 0 (coreOf s g.core).spad = true →
    (o.str = .sync → Released h s g o.scope) → AllPass s g .scratch needRW (atomAccs o (theIss h s g)) →
    ∃ (mem : Nat → Nat → Byte) (old : Nat → Dword),
      (∀ a, mem 0 a = find 0 a (coreOf s g.core).spad) ∧
      (∀ l a, laneIn (acting h s g) l = false → mem (l + 1) a = mem l a) ∧
      (∀ l f, laneIn (acting h s g) l = true → fibreAt g l = some f →
        let at' := scratchBase s g + (src h g .n64 f o.a).toNat
        let b := src h g o.t f o.b
        let new := if isCas then (if low (tyBits o.t) (old l) = low (tyBits o.t) b then src h g o.t f o.c else old l)
          else atomNew o.t o.op (old l) b
        old l = num64 (leNat ((List.range (tyBytes o.t)).map fun j => mem l (at' + j))) ∧
        ∀ a, mem (l + 1) a = if at' ≤ a ∧ a < at' + tyBytes o.t then BitVec.ofNat 8 (new.toNat / 256 ^ (a - at')) else mem l a) ∧
      DidWith i h s g (fun l f => bringReg (tyReg o.t) o.d (old l) f)
        { g with s := bringScalar (tyReg o.t) o.d (fun l _ => old l) h s g }
        fun t => MemFrame s.cur.gang g.core s t ∧ ∀ a, find 0 a (coreOf t g.core).spad = mem 64 a)

/-- R106, R111, R251, R252, R292, R293: a load or a store of memory issues, and is outstanding until its home answers;
memory stays as it is until then. A load whose bytes are in neither L1 nor, for a remote line, the RDC, or that
leaves them out (R253), asks the home for the sectors it touches; a store sends its bytes, lane after lane. -/
def Obligations.MemoryAccessesIssue : Prop :=
  (∀ h o s g, o.space = .glob ∨ o.space = .priv → CanIssue (.ld h o) .ld s g → GroupReady s g → acting h s g ≠ 0 →
    AllPass s g o.space needR (memAccs o (theIss h s g)) →
    let ps := partsOf s g o.space needR (memAccs o (theIss h s g))
    let bypass := atHome o.str o.scope
    bypass = true ∨ Cold s g.core ps →
    Outstanding (.ld h o) h s g keep .ld (acqOf o.str o.scope) (some (o.d, if o.two then .dbl else .ty o.t)) ps
      ((linesTouched ps).map fun l => (l, .read (!bypass) (!bypass && isRemote g.core l) (sectorsTouched ps l)))) ∧
  (∀ h o s g, o.space = .glob ∨ o.space = .priv → CanIssue (.st h o) .st s g → GroupReady s g → acting h s g ≠ 0 →
    (o.str = .sync → Released h s g o.scope) → AllPass s g o.space needW (memAccs o (theIss h s g)) →
    let ps := partsOf s g o.space needW (memAccs o (theIss h s g))
    Outstanding (.st h o) h s g keep .st none none ps
      ((linesTouched ps).map fun l => (l, .write ((storedBytes ps (storeData o (theIss h s g))).filter fun x => lineOf x.1 = l)))) ∧
  (∀ h o s g, o.space = .glob ∨ o.space = .priv → CanIssue (.wld h o) .ld s g → GroupReady s g → acting h s g ≠ 0 →
    AllPass s g o.space needR (wideAccs o (theIss h s g)) →
    let ps := partsOf s g o.space needR (wideAccs o (theIss h s g))
    Cold s g.core ps →
    Outstanding (.wld h o) h s g keep .ld none (some (.w o.w, .wide (wideIn o (theIss h s g)))) ps
      ((linesTouched ps).map fun l => (l, .read true (isRemote g.core l) (sectorsTouched ps l)))) ∧
  (∀ h o s g, o.space = .glob ∨ o.space = .priv → CanIssue (.wst h o) .st s g → GroupReady s g → acting h s g ≠ 0 →
    AllPass s g o.space needW (wideAccs o (theIss h s g)) →
    let ps := partsOf s g o.space needW (wideAccs o (theIss h s g))
    let st := fun f => wideStatus (getWide f o.w)
    let data := fun l => leBytes 128 (wideOut o (theIss h s g) l).w.toNat
    DidWith (.wst h o) h s g (fun _ f => writeReg 32 o.c (st f) f)
      { g with stcnt := g.stcnt + 1, s := writeScalar 32 o.c (fun _ f => st f) h s g g.s } fun t =>
        MemFrame s.cur.gang g.core s t ∧ SpadSame g.core s t ∧
        (∀ l ∈ linesTouched ps, Asked t s.nextId g.core l (.write ((storedBytes ps data).filter fun x => lineOf x.1 = l))) ∧
        ∃ o', look s.nextId t.ops = some o' ∧ o'.gang = s.cur.gang ∧ o'.ctr = .st ∧ o'.parts = ps ∧ o'.left = (linesTouched ps).length) ∧
  (∀ h t map d a b s g, CanIssue (.imageStore h t map d a b) .st s g → GroupReady s g →
    let x := theIss h s g
    (∀ l f, laneIn (acting h s g) l = true → fibreAt g l = some f → imageFault s x t map d a b f = none) →
    AllPass s g .glob needW (imageAccs s t map d a b x) →
    let lanes := (lanesOf (acting h s g)).filterMap fun l => (fibreAt g l).map fun f => (l, imageBytes s x t map d a b f)
    let bytes := lanes.flatMap (·.2)
    bytes ≠ [] →
    Outstanding (.imageStore h t map d a b) h s g keep .st none none (lanes.map fun l => ⟨l.1, l.2.map (·.1)⟩)
      ((distinct (bytes.map fun y => lineOf y.1)).map fun l => (l, .write (bytes.filter fun y => lineOf y.1 = l)))) ∧
  (∀ h o s g, o.space = .glob ∨ o.space = .priv → o.str = .weak → CanIssue (.ld h o) .ld s g → GroupReady s g → NoReplay s g →
    AllPass s g o.space needR (memAccs o (theIss h s g)) → (coreOf s g.core).uo = [] →
    (∀ p ∈ partsOf s g o.space needR (memAccs o (theIss h s g)), ∀ k ∈ p.keys, inL1 (coreOf s g.core) (sectorOf k) = true) →
    let bytes := fun l f => (keysOf s g o.space needR ⟨l, rdAddr g h.ext f o.a o.b, memBytes o, memBytes o⟩).map
      fun k => (look k (coreOf s g.core).l1).getD 0
    DidWith (.ld h o) h s g (fun l f => loadReg o (bytes l f) f) { g with s := loadScalar o h s g bytes }
      fun t => MemFrame s.cur.gang g.core s t ∧ SpadSame g.core s t ∧ t.reqs = s.reqs)

/-- R216, R217: an access to another core's scratchpad issues, one request per active fibre in lane order, and the gang's
next issue waits for them. R216, R217: a peer access arrives, those of one instruction in lane order: where every
byte lies in a region its crew may reach it is performed at the target's scratchpad, and what a load, an atomic or an
`ldesc` brings back is the value found there; else its fibre takes PROT and nothing is written. That the gang's next
issue waits for them is the model's reading of log 32. -/
def Obligations.PeerAccesses : Prop :=
  (let ok := fun (h : Hd) (s : State) (g : Gang) (need : Need) (as : List Acc) =>
     GroupReady s g ∧ acting h s g ≠ 0 ∧ AllPass s g .peer need as
   (∀ h o s g, o.space = .peer → CanIssue (.ld h o) .ld s g → ok h s g needR (memAccs o (theIss h s g)) →
     PeerIssued (.ld h o) h s g .ld (some (o.d, if o.two then .dbl else .ty o.t)) (memAccs o (theIss h s g)) fun _ => .read) ∧
   (∀ h o s g, o.space = .peer → CanIssue (.st h o) .st s g → (o.str = .sync → Released h s g o.scope) →
     ok h s g needW (memAccs o (theIss h s g)) →
     PeerIssued (.st h o) h s g .st none (memAccs o (theIss h s g)) fun a => .write (storeData o (theIss h s g) a.lane)) ∧
   (∀ h o s g, o.space = .peer → CanIssue (.wld h o) .ld s g → ok h s g needR (wideAccs o (theIss h s g)) →
     PeerIssued (.wld h o) h s g .ld (some (.w o.w, .wide (wideIn o (theIss h s g)))) (wideAccs o (theIss h s g)) fun _ => .read) ∧
   (∀ h o s g, o.space = .peer → CanIssue (.wst h o) .st s g → ok h s g needW (wideAccs o (theIss h s g)) →
     PeerIssued (.wst h o) h s g .st (some (o.c, .raw32)) (wideAccs o (theIss h s g))
       fun a => .write (leBytes 128 (wideOut o (theIss h s g) a.lane).w.toNat)) ∧
   (∀ h o s g, o.space = .peer → CanIssue (.ldesc h o) .ld s g → ok h s g needR (byteAccs o.a o.b (theIss h s g)) →
     PeerIssued (.ldesc h o) h s g .ld (some (o.d, .raw32)) (byteAccs o.a o.b (theIss h s g)) fun _ => .readDesc) ∧
   (∀ h o s g, o.space = .peer → CanIssue (.sdesc h o) .st s g → ok h s g needW (byteAccs o.a o.b (theIss h s g)) →
     PeerIssued (.sdesc h o) h s g .st none (byteAccs o.a o.b (theIss h s g))
       fun a => .writeDesc (((fibreAt g a.lane).map fun f => (src h g .n32 f o.d).setWidth 16).getD 0)) ∧
   (∀ h o s g isCas i, (i = .atom h o ∧ isCas = false ∨ i = .cas h o ∧ isCas = true) → o.space = .peer →
     CanIssue i (atomCtr o) s g → (o.str = .sync → Released h s g o.scope) → ok h s g needRW (atomAccs o (theIss h s g)) →
     let discards := match o.d with | .p _ => true | _ => false
     PeerIssued i h s g (if discards then .st else .ld) (if discards then none else some (o.d, if tyBits o.t = 64 then .raw64 else .raw32))
       (atomAccs o (theIss h s g)) fun a => .atomic (atomFor o isCas (theIss h s g) a.lane 0))) ∧
  (∀ s p, s.peers.find? (fun q => q.id = p.id) = some p → (∀ q ∈ s.peers, q.op = p.op → p.id ≤ q.id) →
     let core := peerCore p.core p.ea
     let ok := (List.range p.n).all fun i => (reachCrews s p.crew p.ens).any fun c =>
       c.core = core && c.base ≤ peerOff p.ea + i && peerOff p.ea + i < c.base + c.size
     ∃ t, exec (.peerAccessArrival p.id) s = .next t ∧ (∀ q ∈ t.peers, q.id ≠ p.id) ∧
       (∀ c, c ≠ core → (coreOf t c).spad = (coreOf s c).spad) ∧
       (ok = false → (coreOf t core).spad = (coreOf s core).spad ∧ (coreOf t core).spadDesc = (coreOf s core).spadDesc) ∧
       (p.act = .read → (coreOf t core).spad = (coreOf s core).spad) ∧
       (∀ bs, p.act = .write bs → ok = true → wf 0 (coreOf s core).spad = true → ∀ a, find 0 a (coreOf t core).spad =
         if peerOff p.ea ≤ a ∧ a < peerOff p.ea + bs.length then bs.getD (a - peerOff p.ea) 0 else find 0 a (coreOf s core).spad) ∧
       let word := fun (a : AtomOp) => num64 (leNat ((List.range (tyBytes a.t)).map fun j => spadByte s core (peerOff p.ea + j)))
       (∀ a, p.act = .atomic a → ok = true → wf 0 (coreOf s core).spad = true →
         let new := match a.op with
           | some op => atomNew a.t op (word a) a.b
           | none => if low (tyBits a.t) (word a) = low (tyBits a.t) a.b then a.c else word a
         ∀ x, find 0 x (coreOf t core).spad = if peerOff p.ea ≤ x ∧ x < peerOff p.ea + tyBytes a.t
           then BitVec.ofNat 8 (new.toNat / 256 ^ (x - peerOff p.ea)) else find 0 x (coreOf s core).spad) ∧
       (∀ (o : MemOp) (g : Gang) (f : Fibre) d fmt bits v, ok = true → p.lost = false → look p.op s.ops = some o → o.gang = p.gang →
         o.left = 1 → o.sub = none → o.lines = [] → o.vals = [] → o.got = [] →
         o.parts = [⟨p.lane, (List.range p.n).map fun i => peerKey p.lane (p.ea.toNat + i)⟩] → o.dst = some (.v d, fmt) →
         o.regs = dstRegs (.v d) (dstWords fmt) [p.lane] → look p.gang s.gangs = some g → g.pend = [] → fibreAt g p.lane = some f →
         notEnded f = true →
         ((∃ ty, p.act = .read ∧ fmt = .ty ty ∧ bits = tyReg ty ∧
             v = tyWrap ty (leNat ((List.range p.n).map fun i => spadByte s core (peerOff p.ea + i)))) ∨
           (p.act = .readDesc ∧ fmt = .raw32 ∧ bits = 32 ∧ v = (find resetDesc (peerOff p.ea / 64) (coreOf s core).spadDesc).setWidth 64) ∨
           ∃ a, p.act = .atomic a ∧ (fmt = if tyBits a.t = 64 then .raw64 else .raw32) ∧ bits = tyReg a.t ∧ v = word a) →
         ∃ g', look p.gang t.gangs = some g' ∧ fibreAt g' p.lane = some (writeReg bits (.v d) v f)) ∧
       (∀ d, p.act = .writeDesc d → ok = true → wf resetDesc (coreOf s core).spadDesc = true → ∀ x,
         find resetDesc x (coreOf t core).spadDesc = if x = peerOff p.ea / 64 then d else find resetDesc x (coreOf s core).spadDesc) ∧
       (∀ g f, ok = false → look p.gang s.gangs = some g → g.pend = [] → fibreAt g p.lane = some f → f.life = .live →
         let r : TrapRec := ⟨p.lane, cause cPROT, p.ea, p.tpc⟩
         ∃ g', look p.gang t.gangs = some g' ∧ FaultRaised g' r))

/-- R251, R253, R254, R294 to R300, R305, R306: an atomic issues with one request per line for its home, and discards its
core's copy of the line; `ldesc` and `sdesc` make one request per line too; a reduction is accumulated in an
update-only line of the core while L1 has room, without a count, where the lanes' values for one address combine in
ascending lane order. -/
def Obligations.AtomicsReductionsDescriptors : Prop :=
  (∀ h o s g isCas i, (i = .atom h o ∧ isCas = false ∨ i = .cas h o ∧ isCas = true) → o.space = .glob →
    CanIssue i (atomCtr o) s g → GroupReady s g → acting h s g ≠ 0 → (o.str = .sync → Released h s g o.scope) →
    AllPass s g .glob needRW (atomAccs o (theIss h s g)) →
    let ps := partsOf s g .glob needRW (atomAccs o (theIss h s g))
    let as := ps.map fun p => atomFor o isCas (theIss h s g) p.lane (p.keys.headD 0)
    let lines := distinct (as.map fun a => lineOf a.addr)
    let discards := match o.d with | .p _ => true | _ => false
    Outstanding i h s g keep (if discards then .st else .ld) (acqOf o.str o.scope)
        (if discards then none else some (o.d, if tyBits o.t = 64 then .raw64 else .raw32)) ps
        (lines.map fun l => (l, .atomic (as.filter fun a => lineOf a.addr = l))) ∧
      ∀ t, exec i s = .next t → ∀ l ∈ lines, ∀ k, lineOf k = l → look k (coreOf t g.core).l1 = none) ∧
  (∀ h o s g, o.space = .glob ∨ o.space = .priv → CanIssue (.ldesc h o) .ld s g → GroupReady s g → acting h s g ≠ 0 →
    AllPass s g o.space needR (byteAccs o.a o.b (theIss h s g)) →
    let ps := partsOf s g o.space needR (byteAccs o.a o.b (theIss h s g))
    let secs := distinct (ps.map partSector)
    Outstanding (.ldesc h o) h s g keep .ld none (some (o.d, .raw32)) ps
      ((distinct (secs.map (· / 2))).map fun l => (l, .readDesc (secs.filter fun x => x / 2 = l)))) ∧
  (∀ h o s g, o.space = .glob ∨ o.space = .priv → CanIssue (.sdesc h o) .st s g → GroupReady s g → acting h s g ≠ 0 →
    AllPass s g o.space needW (byteAccs o.a o.b (theIss h s g)) →
    let ps := partsOf s g o.space needW (byteAccs o.a o.b (theIss h s g))
    let last := fun x => ((ps.filter fun p => partSector p = x).getLast?.bind fun p =>
      (fibreAt g p.lane).map fun f => (src h g .n32 f o.d).setWidth 16).getD 0
    let secs := distinct (ps.map partSector)
    Outstanding (.sdesc h o) h s g keep .st none none ps ((distinct (secs.map (· / 2))).map fun l =>
      (l, .writeDesc ((secs.filter fun x => x / 2 = l).map fun x => (x, last x))))) ∧
  (∀ h o s g, CanIssue (.red h o) .st s g → GroupReady s g → (o.rel = true → Released h s g o.scope) →
    AllPass s g .glob needRW (redAccs o (theIss h s g)) → (coreOf s g.core).uo = [] →
    let ps := partsOf s g .glob needRW (redAccs o (theIss h s g))
    (linesIn (coreOf s g.core)).length + (linesTouched ps).length ≤ l1Lines →
    let at' := fun (a : Nat) => (ps.filter fun p => p.keys.headD 0 = a).filterMap fun p => (fibreAt g p.lane).map fun f => src h g o.t f o.d
    DidWith (.red h o) h s g keep g fun t => MemFrame s.cur.gang g.core s t ∧ SpadSame g.core s t ∧ t.reqs = s.reqs ∧ t.ops = s.ops ∧
      (∀ u ∈ (coreOf t g.core).uo, u.op = o.op ∧ u.t = o.t ∧ u.line ∈ linesTouched ps) ∧
      ∀ a v vs, at' a = v :: vs → ∃ u ∈ (coreOf t g.core).uo, u.line = lineOf a ∧
        look a u.els = some (vs.foldl (fun old b => atomNew o.t o.op old b) v))

/-! ## The memory system -/

/-- R259, R260, R274, R411: a request that its way delivers, and that no earlier one of its core to its line or over its
link is ahead of, enters its slice's queue, or the router while the queue has no room; a lookup performs a request
whose line the slice holds, starts the fill of an absent line, and parks a request behind a fill under way. R294,
R297: the new word of an atomic or a reduction, at each type: a sum modulo 2^w, or one float addition rounded to
nearest; the lesser or the greater, of floats as `fmin` and `fmax`; AND, OR, XOR; the value given. R253, R262, R274,
R294, R295, R298, R305, R306: what a request does at its home, at one instant: a read takes the bytes and descriptors
of its sectors; a write stores its bytes, a later one over an earlier; atomics run one after another, each on what
the last left; a merge applies each element; a descriptor is read or written. Requests parked behind a fill are the
model's reading of log 30. -/
def Obligations.HomeRequests : Prop :=
  (let plain := fun (u : State) (id : Nat) => (look id u.ops).map fun o => { o with smp := none }
   (∀ s r, reqById s r.id = some r → r.stage = .mesh → sendUp s (dieOf r.core) (reqDie r) = true →
     (∀ q ∈ s.reqs, (q.core = r.core ∧ q.line = r.line) ∨ (dieOf q.core = dieOf r.core ∧ reqDie q = reqDie r ∧ dieOf r.core ≠ reqDie r) →
       q.stage = .mesh → r.id ≤ q.id) →
     let room := (sliceReqs s (reqDie r) (sliceOf (128 * r.line)) .queue).length < 16 ∧
       sliceReqs s (reqDie r) (sliceOf (128 * r.line)) .router = []
     ∃ t, exec (.meshRequestArrival r.id) s = .next t ∧ t = { s with reqs := t.reqs, ops := t.ops } ∧ (∀ id, plain t id = plain s id) ∧
       t.reqs = (s.reqs.filter fun q => q.id ≠ r.id) ++ [{ r with stage := if room then .queue else .router, since := s.clk }]) ∧
   (∀ s die slice r rest, islandUp s (cacheIsland die) = true → sliceReqs s die slice .queue = r :: rest →
     sliceReqs s die slice .router = [] →
     let done := perform (reqUnit s r) r.act s
     let answer := { done.1 with seq := s.nextId }
     (r.line ∉ s.fills → r.line ∈ s.l2 → (sliceLines s die slice).length ≤ 16 →
       ∃ t, exec (.l2Lookup die slice) s = .next t ∧ t.mem = done.2.mem ∧ t.desc = done.2.desc ∧
         t.gangs = s.gangs ∧ (∀ id, plain t id = plain s id) ∧ { r with stage := answered r.act answer } ∈ t.reqs) ∧
     (r.line ∉ s.fills → r.line ∉ s.l2 →
       ∃ t, exec (.l2Lookup die slice) s = .next t ∧ t.mem = s.mem ∧ t.desc = s.desc ∧ t.fills = s.fills ++ [r.line] ∧
         { r with stage := .parked, since := s.clk } ∈ t.reqs) ∧
     (r.line ∈ s.fills → parkedCount s die slice < 64 →
       ∃ t, exec (.l2Lookup die slice) s = .next t ∧ t.mem = s.mem ∧ t.desc = s.desc ∧ t.fills = s.fills ∧
         { r with stage := .parked, since := s.clk } ∈ t.reqs))) ∧
  ((∀ (t : Ty) (old b : Dword), tyFloat t = false →
     (tyVal t (atomNew t .add old b) - (tyVal t old + tyVal t b)) % 2 ^ tyBits t = 0 ∧
     tyVal t (atomNew t .min old b) = min (tyVal t old) (tyVal t b) ∧ tyVal t (atomNew t .max old b) = max (tyVal t old) (tyVal t b)) ∧
   (∀ (t : Ty) (old b : Dword), tyFloat t = true →
     (∃ fl, SumIs (tyF t) .rne (fDec (tyF t) old) (fDec (tyF t) b) (atomNew t .add old b, fl)) ∧
     (∃ fl, MinMaxIs (tyF t) false old b (atomNew t .min old b, fl)) ∧ ∃ fl, MinMaxIs (tyF t) true old b (atomNew t .max old b, fl)) ∧
   ∀ (t : Ty) (old b : Dword), atomNew t .and old b = old &&& b ∧ atomNew t .or old b = old ||| b ∧ atomNew t .xor old b = old ^^^ b ∧
     atomNew t .exch old b = b) ∧
  ((∀ s unit l1 rdc secs, (perform unit (.read l1 rdc secs) s).2 = s ∧
     (∀ x ∈ secs, ∀ i, i < 64 → (64 * x + i, memByte s (64 * x + i)) ∈ (perform unit (.read l1 rdc secs) s).1.bytes) ∧
     ∀ x ∈ secs, (x, memDesc s x) ∈ (perform unit (.read l1 rdc secs) s).1.descs) ∧
   (∀ s bs a unit, wf 0 s.mem = true → memByte (perform unit (.write bs) s).2 a =
     match (bs.filter fun x => x.1 = a).getLast? with
     | some x => x.2
     | none => memByte s a) ∧
   (∀ s as unit, wf 0 s.mem = true → ∃ mem : Nat → Nat → Byte, (∀ x, mem 0 x = memByte s x) ∧
     (∀ x, memByte (perform unit (.atomic as) s).2 x = mem as.length x) ∧
     ∀ i (a : AtomOp), as[i]? = some a →
       let old := num64 (leNat ((List.range (tyBytes a.t)).map fun j => mem i (a.addr + j)))
       let new := match a.op with
         | some op => atomNew a.t op old a.b
         | none => if low (tyBits a.t) old = low (tyBits a.t) a.b then a.c else old
       (perform unit (.atomic as) s).1.olds[i]? = some (a.lane, old) ∧
       ∀ x, mem (i + 1) x =
         if a.addr ≤ x ∧ x < a.addr + tyBytes a.t then BitVec.ofNat 8 (new.toNat / 256 ^ (x - a.addr)) else mem i x) ∧
   (∀ s u unit, wf 0 s.mem = true → u.els.Pairwise (fun a b => a.1 + tyBytes u.t ≤ b.1 ∨ b.1 + tyBytes u.t ≤ a.1) →
     (∀ e ∈ u.els, ∀ i, i < tyBytes u.t → memByte (perform unit (.merge u) s).2 (e.1 + i) =
       BitVec.ofNat 8 ((atomNew u.t u.op (num64 (memNat s e.1 (tyBytes u.t))) e.2).toNat / 256 ^ i)) ∧
     ∀ x, (∀ e ∈ u.els, x < e.1 ∨ e.1 + tyBytes u.t ≤ x) → memByte (perform unit (.merge u) s).2 x = memByte s x) ∧
   (∀ s xs unit, (perform unit (.readDesc xs) s).2 = s ∧ (perform unit (.readDesc xs) s).1.descs = xs.map fun x => (x, memDesc s x)) ∧
   (∀ s ds y unit, wf resetDesc s.desc = true → memDesc (perform unit (.writeDesc ds) s).2 y =
     match (ds.filter fun d => d.1 = y).getLast? with
     | some d => d.2
     | none => memDesc s y))

/-- R252, R260 to R262, R267, R269, R451: a completed fill performs the parked requests in their order; a fill's arrival
places it in the caches it is meant for; a finished walk enters both TLBs, or its failure, a permission that the
access lacks among them, is kept for the instruction that needs it and cached nowhere; a line leaves L1, merged first
where it is update-only. R21, R109, R111, R275, R279, R280, R314: the last reply of a load writes each active fibre
that is still there, and lowers LDCNT; the last acknowledgement of a store lowers STCNT; either frees the request;
the acquire that the operation ends with empties L1, and at die scope or wider the RDC. Where an entry of a TLB goes,
when a write counts as acknowledged and what a racing load returns are the model's readings of log 27, 28, 30, 31 and
74. -/
def Obligations.FillsWalksReplies : Prop :=
  ((∀ s line, line ∈ s.fills → islandUp s (hbmIsland line) = true →
     ∃ t, exec (.hbmFillComplete line) s = .next t ∧ line ∈ t.l2 ∧ t.fills = s.fills.filter (· ≠ line) ∧
       t.mem = ((s.reqs.filter fun r => r.line = line ∧ r.stage = .parked).foldl (fun s r => (perform (reqUnit s r) r.act s).2) s).mem ∧
       t.gangs = s.gangs ∧
       ∀ r ∈ s.reqs, r.line = line → r.stage = .parked → ∃ q ∈ t.reqs, q.id = r.id ∧ q.stage ≠ .parked ∧ q.stage ≠ .mesh) ∧
   (∀ s r a l1 rdc secs, reqById s r.id = some r → r.stage = .filled a → r.act = .read l1 rdc secs → replyUp s r = true →
     (a.fill.map (·.1)).Nodup →
     ∃ t, exec (.cacheFillArrival r.id) s = .next t ∧ t.mem = s.mem ∧ t.gangs = s.gangs ∧
       (if l1 then ∀ x ∈ a.fill, look x.1 (coreOf t r.core).l1 = some x.2 else (coreOf t r.core).l1 = (coreOf s r.core).l1) ∧
       (if rdc then ∀ x ∈ a.fill, look x.1 (rdcOf t (dieOf r.core)) = some x.2 else t.rdc = s.rdc) ∧
       { r with stage := .answered a } ∈ t.reqs) ∧
   (∀ s id w, look id s.walks = some w → walkReady s id w = true →
     (∀ e, walk s w.ctx w.va.toNat = .ok e → w.need.met e = true → ∃ t, exec (.pageWalkComplete id) s = .next t ∧ t.mem = s.mem ∧ t.gangs = s.gangs ∧
       (coreOf t w.core).tlb.head? = some e ∧ ((look (clusterOf w.core) t.ctlb).getD []).head? = some e) ∧
     (∀ kind level g, (walk s w.ctx w.va.toNat = .error (kind, level) ∨
         ∃ e, walk s w.ctx w.va.toNat = .ok e ∧ w.need.met e = false ∧ kind = 3 ∧ level = e.level) → look w.gang s.gangs = some g →
       exec (.pageWalkComplete id) s = .next { s with
         walks := del id s.walks
         gangs := adj w.gang (fun g => { g with walkFaults := (w.va, kind, level) :: g.walkFaults }) s.gangs })) ∧
   (∀ s core line, (∃ x ∈ (coreOf s core).l1, lineOf x.1 = line) ∨ (∃ u ∈ (coreOf s core).uo, u.line = line) →
     ∃ t, exec (.l1Eviction core line) s = .next t ∧ t.mem = s.mem ∧ t.gangs = s.gangs ∧
       (∀ x ∈ (coreOf t core).l1, lineOf x.1 ≠ line) ∧ (∀ u ∈ (coreOf t core).uo, u.line ≠ line) ∧
       ∀ u ∈ (coreOf s core).uo, u.line = line → Asked t 0 core line (.merge u))) ∧
  ((∀ s r a o g t d sc, reqById s r.id = some r → r.stage = .answered a → isRead r = true → replyUp s r = true → r.id ∉ s.statuses →
     s.ops.filter (fun x => x.1 = r.op || x.2.deps.contains r.id) = [(r.op, o)] → o.left = 1 → o.ctr = .ld → o.lines = [] → o.vals = [] →
     o.sub = none →
     look o.gang s.gangs = some g → o.dst = some (.v d, .ty t) → o.acq = sc →
     o.regs = dstRegs (.v d) (dstWords (.ty t)) (o.parts.map (·.lane)) → (o.parts.map (·.lane)).Nodup →
     ∃ u g', exec (.loadReply r.id) s = .next u ∧ (o.smp = none → u.mem = s.mem) ∧ look o.gang u.gangs = some g' ∧ g'.ldcnt = g.ldcnt - 1 ∧
       r.op ∉ g'.holdOps ∧ g'.s = g.s ∧ (∀ q ∈ u.reqs, q.id ≠ r.id) ∧
       (∀ p ∈ o.parts, ∀ f, fibreAt g p.lane = some f → fibreAt g' p.lane = some (if notEnded f then
         writeReg (tyReg t) (.v d) (tyWrap t (leNat (p.keys.map (byteAt (o.got ++ a.bytes))))) f else f)) ∧
       (∀ l, l ∉ o.parts.map (·.lane) → fibreAt g' l = fibreAt g l) ∧
       (∀ c, sc = some c → wideScope c = true → (coreOf u o.core).l1 = []) ∧
       (∀ c, sc = some c → wideScope c = true → c ≠ .clu → rdcOf u (dieOf o.core) = [])) ∧
   (∀ s r a o g, reqById s r.id = some r → r.stage = .answered a → bringsValue s r = false → replyUp s r = true →
     s.ops.filter (fun x => x.1 = r.op || x.2.deps.contains r.id) = [(r.op, o)] → o.left = 1 → o.ctr = .st → o.lines = [] →
     o.dst = none → o.acq = none → o.sub = none → o.logv = false → look o.gang s.gangs = some g →
     ∃ u, exec (.storeAcknowledgement r.id) s = .next u ∧ (o.smp = none → u.mem = s.mem) ∧ (∀ q ∈ u.reqs, q.id ≠ r.id) ∧
       look o.gang u.gangs = some { g with stcnt := g.stcnt - 1, holdOps := g.holdOps.filter (· ≠ r.op) }))

/-! ## Fences, caches and the allocator -/

/-- R280, R301: an acquire fence issues once the earlier loads of its fibres have returned; of cluster scope or wider it
empties L1, of die scope or wider the RDC too. At a release or full fence the issuing group waits at the instruction,
and goes on behind it. R279 to R281, R301: a waiting fence completes when the accesses before it have been performed:
loads returned, and at cluster scope or wider the core's writes acknowledged; a full fence of cluster scope or wider
then empties L1, one of die scope or wider the RDC; its fibres go on. The wait of the whole group and the holding
acquire fence are the model's readings of log 8 and 13. -/
def Obligations.Fences : Prop :=
  ((∀ h sc s g, CanIssue (.fenceAcq h sc) .none s g → loadsDone s s.cur.gang (acting h s g) s.nextId = true →
     DidWith (.fenceAcq h sc) h s g keep g fun t => MemFrame s.cur.gang g.core s t ∧
       (acting h s g ≠ 0 → wideScope sc = true → (coreOf t g.core).l1 = []) ∧
       (acting h s g ≠ 0 → wideScope sc = true → sc ≠ .clu → rdcOf t (dieOf g.core) = [])) ∧
   (∀ h sc s g i kind, (i = .fenceRel h sc ∧ kind = .rel ∨ i = .fenceFull h sc ∧ kind = .full) →
     CanIssue i .none s g → GroupReady s g →
     (acting h s g = 0 ∨ sc = .fib → DidWith i h s g keep g fun t => MemFrame s.cur.gang g.core s t ∧ t.reqs = s.reqs) ∧
     (acting h s g ≠ 0 → sc ≠ .fib → ∃ t g' id, exec i s = .next t ∧ MemFrame s.cur.gang g.core s t ∧
       look s.cur.gang t.gangs = some g' ∧ (wideScope sc = true → (coreOf t g.core).uo = []) ∧
       (∀ u ∈ (coreOf s g.core).uo, wideScope sc = true → Asked t 0 g.core u.line (.merge u)) ∧
       ∀ l f, fibreAt g l = some f → fibreAt g' l = some (if laneIn s.cur.group l then
         { past i s g f with wait := some ⟨.fence kind sc id, (past i s g f).pc, none⟩, pc := s.cur.pc } else f)))) ∧
  (∀ s k g id kind sc, look k s.gangs = some g → fenceAt g id = some (kind, sc) →
     let m := waiting (isFence id) g
     (sc = .fib ∨ (loadsDone s k m id = true ∧ (wideScope sc = true → writesDone s g.core id = true))) →
     ∃ t g', exec (.fenceComplete k id) s = .next t ∧ t.mem = s.mem ∧ look k t.gangs = some g' ∧
       (kind = .full → wideScope sc = true → (coreOf t g.core).l1 = []) ∧
       (kind = .full → wideScope sc = true → sc ≠ .clu → rdcOf t (dieOf g.core) = []) ∧
       (kind = .rel → t = { s with gangs := t.gangs }) ∧
       ∀ l f, l < 64 → fibreAt g l = some f → ∃ f', fibreAt g' l = some f' ∧ f'.v = f.v ∧ f'.p = f.p ∧ f'.life = f.life ∧
         match f.wait with
         | some ⟨.fence _ _ n, nxt, _⟩ => if n = id then f'.wait = none ∧ f'.pc = nxt else f' = f
         | _ => f' = f)

/-- R302, R303, R304: a prefetch asks for both sectors of the active fibres' lines, but for those that the device drops,
and writes nothing; an invalidation leaves L1 without the lines, or without any, and the RDC too where it says so,
update-only lines being merged first; a flush merges the lines and counts in STCNT until its writes are acknowledged.
The discards at a merge and what a flush awaits are the model's readings of log 29 and 33; which `pref` is dropped is
a free choice (log 92). -/
def Obligations.CacheControl : Prop :=
  let lines := fun (h : Hd) (s : State) (g : Gang) (need : Need) (a b : Opnd) =>
    linesTouched (partsOf s g .glob need (byteAccs a b (theIss h s g)))
  let pass := fun (h : Hd) (s : State) (g : Gang) (need : Need) (a b : Opnd) => AllPass s g .glob need (byteAccs a b (theIss h s g))
  (∀ h a b s g, CanIssue (.prefL1 h a b) .none s g → pass h s g needR a b →
    Cold s g.core ((lines h s g needR a b).map fun l => ⟨0, [128 * l, 128 * l + 64]⟩) →
    DidWith (.prefL1 h a b) h s g keep g fun t => MemFrame s.cur.gang g.core s t ∧ SpadSame g.core s t ∧
      ∃ kept : List Nat, kept.Sublist (lines h s g needR a b) ∧
        (∀ l ∈ kept, Asked t s.nextId g.core l (.read true (isRemote g.core l) [2 * l, 2 * l + 1])) ∧
        ∀ r ∈ t.reqs, isRead r = true → (∃ q ∈ s.reqs, q.id = r.id) ∨ r.line ∈ kept) ∧
  (∀ h a b s g, CanIssue (.prefL2 h a b) .none s g → pass h s g needR a b →
    DidWith (.prefL2 h a b) h s g keep g fun t => MemFrame s.cur.gang g.core s t ∧ SpadSame g.core s t ∧
      ∃ kept : List Nat, kept.Sublist (lines h s g needR a b) ∧
        (∀ l ∈ kept, Asked t s.nextId g.core l (.read false (isRemote g.core l) [2 * l, 2 * l + 1])) ∧
        ∀ r ∈ t.reqs, isRead r = true → (∃ q ∈ s.reqs, q.id = r.id) ∨ r.line ∈ kept) ∧
  (∀ h a b s g i, (i = .invalL1 h a b ∨ i = .invalRdc h a b) → CanIssue i .none s g → pass h s g needNone a b →
    DidWith i h s g keep g fun t => MemFrame s.cur.gang g.core s t ∧ SpadSame g.core s t ∧
      (∀ x ∈ (coreOf t g.core).l1, lineOf x.1 ∉ lines h s g needNone a b) ∧
      (∀ x ∈ (coreOf s g.core).l1, lineOf x.1 ∉ lines h s g needNone a b → x ∈ (coreOf t g.core).l1) ∧
      (∀ u ∈ (coreOf s g.core).uo, u.line ∈ lines h s g needNone a b → Asked t 0 g.core u.line (.merge u)) ∧
      (i = .invalRdc h a b → ∀ x ∈ rdcOf t (dieOf g.core), lineOf x.1 ∉ lines h s g needNone a b) ∧
      (i = .invalL1 h a b → t.rdc = s.rdc)) ∧
  (∀ h s g, CanIssue (.invalAll h) .none s g → acting h s g ≠ 0 →
    DidWith (.invalAll h) h s g keep g fun t => MemFrame s.cur.gang g.core s t ∧ SpadSame g.core s t ∧
      (coreOf t g.core).l1 = [] ∧ (coreOf t g.core).uo = [] ∧ t.rdc = s.rdc ∧
      ∀ u ∈ (coreOf s g.core).uo, Asked t 0 g.core u.line (.merge u)) ∧
  (∀ h s g i hit, ((∃ a b, i = .flush h a b ∧ pass h s g needNone a b ∧ hit = fun l => (lines h s g needNone a b).contains l) ∨
      (i = .flushAll h ∧ hit = fun _ => true)) →
    CanIssue i .st s g → (∃ u ∈ (coreOf s g.core).uo, hit u.line = true) → acting h s g ≠ 0 →
    DidWith i h s g keep { g with stcnt := g.stcnt + 1 } fun t => MemFrame s.cur.gang g.core s t ∧ SpadSame g.core s t ∧
      (∀ u ∈ (coreOf s g.core).uo, hit u.line = true → Asked t 0 g.core u.line (.merge u)) ∧
      ∃ id o, look id t.ops = some o ∧ o.gang = s.cur.gang ∧ o.ctr = .st ∧ o.left = o.deps.length ∧
        ∀ r ∈ t.reqs, r.core = g.core → hit r.line = true → (∃ u, r.act = .merge u) → r.id ∈ o.deps)

/-- R307 to R311: one fibre's `dalloc` of 1 to 2^20 bytes takes the newest block of its class's magazine, which becomes
allocated, and returns its address, each word of the block keeping its value or reading 0; a size out of range is
ALLOC with sub-cause 2, and an exhausted class ALLOC with sub-cause 1, or the address 0 with `.z`; a magazine
refilled by the puppeteer takes up to 16 blocks of the free list, or of a newly carved slab, and the waiting fibre
receives its address and goes on; `dfree` releases first, and puts the block in the freeing core's magazine; what is
no allocated block is ALLOC with sub-cause 3. The order in which waiting fibres are served is the model's reading of
log 34, the block a refill takes a free choice (log 9). -/
def Obligations.Allocation : Prop :=
  (∀ h d a s g c l f b rest i, (i = .dalloc h d a ∨ i = .dallocZ h d a) → CanIssue i .ld s g → GroupReady s g → NoReplay s g →
    acting h s g = 1 <<< l → l < 64 → fibreAt g l = some f →
    let n := (src h g .n64 f a).toNat
    1 ≤ n → n ≤ 2 ^ 20 → magazine s g.core g.ctx (classOf n) = b :: rest → look g.ctx s.ctxs = some c →
    (∀ j e w, fibreAt g j = some e → e.wait = some w → w.kind ≠ .dalloc s.nextId) →
    DidWith i h s g (fun _ f => bringReg 64 d (num64 b) f) { g with s := bringScalar 64 d (fun _ _ => num64 b) h s g } fun t =>
      (wf 0 s.mem = true → ∀ y, ¬ inRing s g.core y → memByte t y = memByte s y ∨ memByte t y = 0 ∧
        ∃ j a, j < 2 ^ classOf n / 4 ∧ translateNow s g.ctx needNone (b + 4 * j) = .pa a ∧ a ≤ y ∧ y < a + 4) ∧
      magazine t g.core g.ctx (classOf n) = rest ∧ (wf false c.heap.alloc = true → find false b (heapOf t g.ctx).alloc = true)) ∧
  (∀ h d a s g i, (i = .dalloc h d a ∨ i = .dallocZ h d a) → CanIssue i .ld s g → GroupReady s g →
    ∃ t g', exec i s = .next t ∧ look s.cur.gang t.gangs = some g' ∧
      ∀ l f, laneIn (acting h s g) l = true → fibreAt g l = some f →
        let n := src h g .n64 f a
        (n = 0 ∨ 2 ^ 20 < n.toNat) → FaultRaised g' ⟨l, causeSub cALLOC 2, n, s.cur.pc⟩) ∧
  (∀ h d a s g l f i z, (i = .dalloc h d a ∧ z = false ∨ i = .dallocZ h d a ∧ z = true) → CanIssue i .ld s g → GroupReady s g → NoReplay s g →
    acting h s g = 1 <<< l → l < 64 → fibreAt g l = some f →
    let n := src h g .n64 f a
    n ≠ 0 → n.toNat ≤ 2 ^ 20 → magazine s g.core g.ctx (classOf n.toNat) = [] → freeList (heapOf s g.ctx) (classOf n.toNat) = [] →
    (heapOf s g.ctx).slabs ≤ (heapOf s g.ctx).carved.length →
    (z = false → ∃ t g', exec i s = .next t ∧ look s.cur.gang t.gangs = some g' ∧ FaultRaised g' ⟨l, causeSub cALLOC 1, n, s.cur.pc⟩) ∧
    (z = true → (∀ j e w, fibreAt g j = some e → e.wait = some w → w.kind ≠ .dalloc s.nextId) →
      DidWith i h s g (fun _ f => bringReg 64 d 0 f) { g with s := bringScalar 64 d (fun _ _ => 0) h s g } fun t =>
        wf 0 s.mem = true → ∀ y, ¬ inRing s g.core y → memByte t y = memByte s y)) ∧
  (∀ n, 1 ≤ n → n ≤ 2 ^ 20 → 4 ≤ classOf n ∧ classOf n ≤ 20 ∧ n ≤ 2 ^ classOf n ∧ (classOf n = 4 ∨ 2 ^ (classOf n - 1) < n)) ∧
  (∀ s core ctx cls r, (coreOf s core).refills = [r] → r.ctx = ctx → r.cls = cls → magazine s core ctx cls = [] →
    let hp := heapOf s ctx
    freeList hp cls = [] → hp.carved.length < hp.slabs → cls ≤ 20 → look ctx s.ctxs ≠ none →
    (∃ x ∈ s.gangs, x.2.core = core ∧ x.2.ctx = ctx ∧ x.2.stop ≠ .saved) →
    let first := hp.base + 2 ^ 20 * hp.carved.length
    ∃ t, exec (.magazineRefill core ctx cls) s = .next t ∧ (heapOf t ctx).carved = hp.carved ++ [cls] ∧ (coreOf t core).refills = [] ∧
      magazine t core ctx cls = (((List.range (2 ^ (20 - cls))).map fun i => first + i * 2 ^ cls).take 16).tail ∧
      ∀ (o : MemOp) (g : Gang) (f : Fibre) d nxt, look r.op s.ops = some o → o.gang = r.gang → o.left = 1 → o.sub = none → o.lines = [] →
        o.vals = [] → o.parts = [⟨r.lane, []⟩] → o.dst = some (.v d, .raw64) → o.regs = dstRegs (.v d) 2 [r.lane] →
        look r.gang s.gangs = some g → r.lane < 64 → fibreAt g r.lane = some f → notEnded f = true → f.gwait = none →
        f.wait = some ⟨.dalloc r.op, nxt, none⟩ →
        ∃ g', look r.gang t.gangs = some g' ∧ fibreAt g' r.lane = some { setV64 d (num64 first) f with wait := none, pc := nxt }) ∧
  (∀ h a s g l f cls, CanIssue (.dfree h a) .st s g → GroupReady s g → Released h s g .dev → acting h s g = 1 <<< l → l < 64 →
    fibreAt g l = some f →
    let p := src h g .n64 f a
    (p = 0 → DidWith (.dfree h a) h s g keep g fun t => MemFrame s.cur.gang g.core s t) ∧
    (p ≠ 0 → blockClass (heapOf s g.ctx) p.toNat = some cls → (magazine s g.core g.ctx cls).length < 32 →
      DidWith (.dfree h a) h s g keep g fun t => t.reqs = s.reqs ∧
        magazine t g.core g.ctx cls = p.toNat :: magazine s g.core g.ctx cls ∧
        (wf false (heapOf s g.ctx).alloc = true → find false p.toNat (heapOf t g.ctx).alloc = false)) ∧
    (p ≠ 0 → blockClass (heapOf s g.ctx) p.toNat = none → ∃ t g', exec (.dfree h a) s = .next t ∧ look s.cur.gang t.gangs = some g' ∧
      FaultRaised g' ⟨l, causeSub cALLOC 3, p, s.cur.pc⟩))

/-! ## Gangs, crews and their registers -/

/-- R203 to R207: the participants are the active fibres of the issuing group: `vote` combines their predicates, `shfl`
reads the source lane where it participates, `match` gives each the mask of the participants with its own value.
R205: `gred` and `gscan` combine the participants' values left to right in ascending lane order; every participant's
FST takes the flags of every step; an exclusive scan starts from the identity. -/
def Obligations.LanesTogether : Prop :=
  (let fib := fun (h : Hd) (s : State) (g : Gang) (l : Nat) (f : Fibre) => laneIn (acting h s g) l = true ∧ fibreAt g l = some f
   (∀ h d a s g, CanIssue (.voteAll h d a) .none s g → ∃ b : Bool, (b = true ↔ ∀ l f, fib h s g l f → psrc h g f a = true) ∧
     Did (.voteAll h d a) h s g (fun _ f => writeReg 32 d (if b then 1 else 0) f) id) ∧
   (∀ h d a s g, CanIssue (.voteAny h d a) .none s g → ∃ b : Bool, (b = true ↔ ∃ l f, fib h s g l f ∧ psrc h g f a = true) ∧
     Did (.voteAny h d a) h s g (fun _ f => writeReg 32 d (if b then 1 else 0) f) id) ∧
   (∀ h d a s g, CanIssue (.voteBallot h d a) .none s g → ∃ m : Dword,
     (∀ l, m.getLsbD l = true ↔ ∃ f, fib h s g l f ∧ psrc h g f a = true) ∧
     Result (.voteBallot h d a) h s g 64 d (fun _ _ => m)) ∧
   (∀ h w d a s g, CanIssue (.voteUni h w d a) .none s g → ∃ b : Bool,
     (b = true ↔ ∃ x, ∀ l f, fib h s g l f → src h g (bitsTy w) f a = x) ∧
     Did (.voteUni h w d a) h s g (fun _ f => writeReg 32 d (if b then 1 else 0) f) id) ∧
   (∀ h w mode d a b c s g, CanIssue (.shfl h w mode d a b c) .none s g →
     let from' : Nat → Fibre → Int := fun l f =>
       let n : Nat := nsrc h g .n32 f b
       match mode with
       | .idx => (n : Int)
       | .up => (l : Int) - n
       | .down => (l : Int) + n
       | .xor => ((l ^^^ n : Nat) : Int)
     let hit := fun (l : Nat) (f : Fibre) => decide (0 ≤ from' l f) && decide (from' l f < g.width) && laneIn (acting h s g) (from' l f).toNat
     let val := fun (l : Nat) (f : Fibre) =>
       if hit l f then ((fibreAt g (from' l f).toNat).map fun e => src h g (bitsTy w) e a).getD 0 else src h g (bitsTy w) f a
     Did (.shfl h w mode d a b c) h s g
       (fun l f => writeReg 32 c (if hit l f then 1 else 0) (writeReg (if w then 64 else 32) d (val l f) f))
       (writeScalar (if w then 64 else 32) d val h s g)) ∧
   (∀ h w d a s g, CanIssue (.matchAny h w d a) .none s g → ∃ m : Nat → Fibre → Dword,
     (∀ l f j, (m l f).getLsbD j = true ↔ ∃ e, fib h s g j e ∧ src h g (bitsTy w) e a = src h g (bitsTy w) f a) ∧
     Result (.matchAny h w d a) h s g 64 d m) ∧
   (∀ h w d a c s g, CanIssue (.matchAll h w d a c) .none s g → ∃ b : Bool,
     (b = true ↔ ∃ x, ∀ l f, fib h s g l f → src h g (bitsTy w) f a = x) ∧
     Did (.matchAll h w d a c) h s g
       (fun _ f => writeReg 32 c (if b then 1 else 0) (writeReg 64 d (if b then acting h s g else 0) f))
       (writeScalar 64 d (fun _ _ => if b then acting h s g else 0) h s g))) ∧
  ((∀ (o : Comb) r x, tyFloat o.t = false → combStep o r x = match o.op with
     | .add => (tyFit o.t o.sat (tyVal o.t r + tyVal o.t x), 0)
     | .min => (if tyVal o.t x < tyVal o.t r then x else r, 0)
     | .max => (if tyVal o.t r < tyVal o.t x then x else r, 0)
     | .and => (r &&& x, 0)
     | .or => (r ||| x, 0)
     | .xor => (r ^^^ x, 0)
     | .exch => (x, 0)) ∧
   (∀ (o : Comb) r x, tyFloat o.t = true → o.op = .add →
     SumIs (tyF o.t) o.rm (fDec (tyF o.t) r) (fDec (tyF o.t) x) (combStep o r x)) ∧
   (∀ (o : Comb) r x mx, tyFloat o.t = true → (o.op = .min ∧ mx = false ∨ o.op = .max ∧ mx = true) →
     MinMaxIs (tyF o.t) mx r x (combStep o r x)) ∧
   (∀ (o : Comb), combId o = match tyFloat o.t, o.op with
     | true, .min => fInf (tyF o.t) false
     | true, .max => fInf (tyF o.t) true
     | true, _ => fZero (tyF o.t) true
     | false, .min => tyWrap o.t (tyMax o.t)
     | false, .max => tyWrap o.t (tyMin o.t)
     | false, .and => tyWrap o.t (-1)
     | false, _ => 0) ∧
   (∀ h (o : Comb) s g i excl, (i = .gred h o ∧ excl = none ∨ (∃ e, i = .gscan h o e ∧ excl = some e)) → CanIssue i .none s g →
     ∀ v vs, ((lanesOf (acting h s g)).filterMap fun l => (fibreAt g l).map fun f => narrow o.t (src h g o.t f o.a)) = v :: vs →
     ∃ (r : Nat → Dword) (fl : Nat → Flags), r 0 = v ∧ fl 0 = 0 ∧
       (∀ j x, vs[j]? = some x → r (j + 1) = (combStep o (r j) x).1 ∧ fl (j + 1) = fl j ||| (combStep o (r j) x).2) ∧
       let val := fun l => match excl, (lanesOf (acting h s g)).idxOf l with
         | none, _ => r vs.length
         | some false, j => r j
         | some true, 0 => combId o
         | some true, j + 1 => r j
       Did i h s g (fun l f => writeReg (tyReg o.t) o.d (val l) (raise (fl vs.length) f))
         (writeScalar (tyReg o.t) o.d (fun l _ => val l) h s g)))

/-- R199 to R202: the arrivals of one issue at one barrier are counted together: the first issue of a phase, or of its
cycle the first by core, slot and offset, sets the target; those beyond it in the issue that reaches it are
discarded; `sync` and `esync` wait at the instruction, `arv` and `earv` go on. A phase completes when its count has
reached the target and every release counted in it has completed: count and target return to 0, its waiters go on,
those of an ensemble with an acquire at cluster scope. `bar.rgn` gives the peer address of the crew's region.
Arrivals beyond the target in one issue are read as log 35 says. -/
def Obligations.Barriers : Prop :=
  (∀ h s g i a b ens sync owner idx bar cnt, (i = .barSync h a b ∧ ens = false ∧ sync = true ∨ i = .barArv h a b ∧ ens = false ∧ sync = false ∨
      i = .barEsync h b ∧ ens = true ∧ sync = true ∨ i = .barEarv h b ∧ ens = true ∧ sync = false) →
    CanIssue i .none s g → acting h s g ≠ 0 →
    (if ens then ∃ c e, look g.crew s.crews = some c ∧ c.ens = some owner ∧ look owner s.ens = some e ∧ e.bar = bar ∧ idx = 0
      else ∃ c, look g.crew s.crews = some c ∧ owner = g.crew ∧ c.bars[idx]? = some bar) →
    1 ≤ cnt → cnt ≤ (if ens then 32768 else 1024) →
    (∀ l f, laneIn (acting h s g) l = true → fibreAt g l = some f →
      nsrc h g .n32 f b = cnt ∧ (ens = false → nsrc h g .n32 f a = idx)) →
    recount bar.issues bar = bar →
    let n := (lanesOf (acting h s g)).length
    let later := fun (j : BarIssue) => j.clk.toNat < s.clk.toNat ∨ j.clk = s.clk ∧ j.place ≤ barPlace g
    DidWith i h s g (fun _ f => if sync then { f with wait := some ⟨.bar ens owner idx bar.phase, f.pc, none⟩, pc := s.cur.pc } else f) g
      fun t => ∃ bar', barAt t ens owner idx = some bar' ∧ bar'.phase = bar.phase ∧
        (bar.issues = [] → bar'.target = cnt ∧ bar'.count = Nat.min n cnt) ∧
        (bar.issues ≠ [] → (∀ j ∈ bar.issues, later j) → bar'.target = bar.target ∧
          bar'.count = bar.count + if bar.count < bar.target then Nat.min n (bar.target - bar.count) else n) ∧
        ((∀ j ∈ bar.issues, j.clk = s.clk ∧ barPlace g < j.place) → bar'.target = cnt)) ∧
  (∀ s ens owner idx bar, barAt s ens owner idx = some bar → 0 < bar.target → bar.target ≤ bar.count →
    (∀ i, bar.issues.head? = some i → i.clk ≠ s.clk) →
    (∀ a ∈ bar.arrived, loadsDone s a.gang (maskOf [a.lane]) a.id = true ∧ (ens = true → writesDone s a.core a.id = true)) →
    ∃ t, exec (.barrierPhaseComplete ens owner idx) s = .next t ∧ t.mem = s.mem ∧
      (∃ bar', barAt t ens owner idx = some bar' ∧ bar'.count = 0 ∧ bar'.target = 0 ∧ bar'.arrived = [] ∧ bar'.phase = bar.phase + 1) ∧
      ∀ k g, look k s.gangs = some g → ∃ g', look k t.gangs = some g' ∧
        ∀ l f, l < 64 → fibreAt g l = some f → ∃ f', fibreAt g' l = some f' ∧
          (if (f.wait.any fun w => w.kind = .bar ens owner idx bar.phase) then f'.wait = none ∧ f.wait.map (·.nxt) = some f'.pc ∧ f'.v = f.v else f' = f) ∧
          ((f.wait.any fun w => w.kind = .bar ens owner idx bar.phase) = true → ens = true → (coreOf t g.core).l1 = [])) ∧
  (∀ h d s g, CanIssue (.barRgn h d) .none s g →
    Result (.barRgn h d) h s g 32 d fun _ _ =>
      if scratchSize s g = 0 then 0xFFFFFFFF else num64 (g.core % 32 * 2 ^ 18 + scratchBase s g))

/-- R170 to R172, R208, R209: `racq` of chunks already held changes nothing; else its active fibres wait in the core's
queue, whose head is granted when the pool holds what it needs: the holdings rise, the new registers read 0, its
fibres go on. `rrel` lowers the holdings and discards the registers. When every fibre of the core waits in `racq`,
the head's take REGDEADLOCK. Parked fibres and roles are the model's readings of log 36 and 37. -/
def Obligations.ExtensionRegisters : Prop :=
  (∀ h k s g, CanIssue (.racq h k) .none s g → k.val ≤ g.held → Did (.racq h k) h s g keep id) ∧
  (∀ h k s g, CanIssue (.racq h k) .none s g → acting h s g ≠ 0 → g.held < k.val → racqHopeless s g k.val = false →
    DidWith (.racq h k) h s g (fun _ f => { f with wait := some ⟨.racq k.val, f.pc, none⟩, pc := s.cur.pc }) g
      fun t => (coreOf t g.core).racq = (coreOf s g.core).racq ++ [⟨s.cur.gang, acting h s g, k.val, s.cur.pc⟩] ∧ t.mem = s.mem) ∧
  (∀ core s r rs g, (coreOf s core).racq = r :: rs → look r.gang s.gangs = some g →
    r.k ≤ g.held ∨ racqNeed g r.k ≤ regsFree s core →
    ∃ t g', exec (.racqGrant core) s = .next t ∧ t.mem = s.mem ∧ (coreOf t core).racq = rs ∧ look r.gang t.gangs = some g' ∧
      g'.held = Nat.max g.held r.k ∧
      ∀ l f, l < 64 → fibreAt g l = some f → ∃ f', fibreAt g' l = some f' ∧
        (g.held < r.k → ∀ n, 64 * (g.held + 1) ≤ n → n < 224 → getV f' n = 0) ∧
        (laneIn r.lanes l = true → (f.wait.any fun w => isRacq w.kind) = true → f'.wait = none ∧ f.wait.map (·.nxt) = some f'.pc)) ∧
  (∀ h k s g, CanIssue (.rrel h k) .none s g → g.held ≤ k.val → Did (.rrel h k) h s g keep id) ∧
  (∀ h k s g, CanIssue (.rrel h k) .none s g → acting h s g ≠ 0 → k.val < g.held → (∀ f ∈ g.fibres, f.Canonical) →
    (k.val < 3 → g.held = 3 → ∀ f ∈ g.fibres, notEnded f = true → f.popen = false) →
    ∃ t g', exec (.rrel h k) s = .next t ∧ t.mem = s.mem ∧ look s.cur.gang t.gangs = some g' ∧ g'.held = k.val ∧ g'.s = g.s ∧
      ∀ l f, fibreAt g l = some f → ∃ f', fibreAt g' l = some f' ∧ f'.p = f.p ∧ f'.life = f.life ∧
        (∀ n, n < 64 * (k.val + 1) → n < 224 → getV f' n = getV f n) ∧ ∀ n, 64 * (k.val + 1) ≤ n → n < 256 → getV f' n = 0) ∧
  (∀ core s r rs g, (coreOf s core).racq = r :: rs → allInRacq s core = true → look r.gang s.gangs = some g → g.pend = [] →
    ∃ t g', exec (.regdeadlockDetect core) s = .next t ∧ (coreOf t core).racq = rs ∧ look r.gang t.gangs = some g' ∧
      ∀ l f, l < 64 → laneIn r.lanes l = true → fibreAt g l = some f → f.life = .live → (f.wait.any fun w => isRacq w.kind) = true →
        let e : TrapRec := ⟨l, cause cREGDEADLOCK, num64 r.k, r.pc⟩
        (fibreAt g' l).map (·.wait) = some none ∧ FaultRaised g' e)

/-- R190 to R193, R210 to R213, R433: `incu` sends the fibres' keys to the home in ascending lane order, behind its
release; the hub keeps the best and answers each fibre the key before its own; a change is broadcast; a core's copy
merges it, dominated fibres and records of the core go; `incrd` reads the copy, `incrd.home` the home; `bnd` and
`defer` set the fibre's own. When a reply comes is the model's reading of log 41; other modules are not shown (log
42). -/
def Obligations.Incumbents : Prop :=
  (∀ h rel d a k s g, CanIssue (.incu h rel d a k) (incuCtr d) s g → acting h s g ≠ 0 →
    (rel = true → Released h s g .dev) →
    let keys := (lanesOf (acting h s g)).filterMap fun l => (fibreAt g l).map fun f => (l, src h g .i64 f a)
    let silent := match d with | .p _ => true | _ => false
    DidWith (.incu h rel d a k) h s g keep { g with ldcnt := g.ldcnt + if silent then 0 else 1 } fun t => t.mem = s.mem ∧
      (if silent then t.incMsgs = s.incMsgs ++ [⟨s.nextId, g.core, g.ctx, k.val, .update keys, none⟩]
        else t.incMsgs = s.incMsgs ++ [⟨s.nextId + 1, g.core, g.ctx, k.val, .update keys, some s.nextId⟩] ∧
          ∃ o, look s.nextId t.ops = some o ∧ o.gang = s.cur.gang ∧ o.dst = some (d, .raw64) ∧ o.left = 1)) ∧
  (∀ s m c, s.incMsgs.find? (fun n => n.id = m.id) = some m → look m.ctx s.ctxs = some c →
    (∀ n ∈ s.incMsgs, (n.core = m.core ∧ n.ctx = m.ctx ∧ n.k = m.k) ∨
      (dieOf n.core = dieOf m.core ∧ n.k % 4 = m.k % 4 ∧ dieOf m.core ≠ m.k % 4) → m.id ≤ n.id) →
    sendUp s (dieOf m.core) (m.k % 4) = true → (m.op = none ∨ sendUp s (m.k % 4) (dieOf m.core) = true) →
    (∀ keys, m.act = .update keys → ∃ t, exec (.incumbentCommit m.id) s = .next t ∧
      let old := homeInc s m.ctx m.k
      let new := keys.foldl (fun key v => incBest old key v.2) old.key
      homeInc t m.ctx m.k = { old with key := new } ∧ (∀ n ∈ t.incMsgs, n.id ≠ m.id) ∧
      (new ≠ old.key → ∃ b ∈ t.bcasts, b.2.ctx = m.ctx ∧ b.2.k = m.k ∧ b.2.inc = { old with key := new } ∧ b.2.init = false ∧ b.2.time = s.clk)) ∧
    (∀ ls, m.act = .read ls → ∃ t, exec (.incumbentCommit m.id) s = .next t ∧ homeInc t m.ctx m.k = homeInc s m.ctx m.k ∧
      t.bcasts = s.bcasts ∧
      ∀ op o g d, m.op = some op → look op s.ops = some o → look o.gang s.gangs = some g → o.left = 1 → o.sub = none →
        o.dst = some (.v d, .raw64) → ls.Nodup → o.parts = ls.map (fun l => ⟨l, []⟩) → o.regs = dstRegs (.v d) 2 ls → ∃ g', look o.gang t.gangs = some g' ∧
        ∀ l ∈ ls, ∀ f, fibreAt g l = some f → notEnded f = true →
          fibreAt g' l = some (setV64 d (homeInc s m.ctx m.k).key f))) ∧
  (∀ i u v, i.f64 = false → (incBest i u v).toInt = if i.max then max u.toInt v.toInt else min u.toInt v.toInt) ∧
  (∀ s core id b, look id s.bcasts = some b → core < 1536 → core ∉ b.got → sendUp s (b.k % 4) (dieOf core) = true →
    (∀ o ∈ s.bcasts, o.1 < id → o.2.k % 4 = b.k % 4 → core ∈ o.2.got) → (s.gangs.map (·.1)).Nodup →
    (∀ x ∈ s.gangs, x.2.fibres.length ≤ 64) →
    ∃ t, exec (.incumbentBroadcastArrival core id) s = .next t ∧
      coreInc t core b.ctx b.k = (if b.init then b.inc
        else { coreInc s core b.ctx b.k with key := incBest (coreInc s core b.ctx b.k) (coreInc s core b.ctx b.k).key b.inc.key }) ∧
      (∀ k g, look k t.gangs = some g → g.core = core → ∀ f ∈ g.fibres, guardCancels t g f = false) ∧
      (∀ x ∈ (coreOf t core).bins, ∀ r ∈ x.recs, recDominated t core r = false) ∧
      ∀ r ∈ (coreOf t core).unbinned, recDominated t core r = false) ∧
  (∀ s ctx k key c, look ctx s.ctxs = some c → k < 16 → c.system.getLsbD k = true →
    ∃ t, exec (.systemIncumbentForward ctx k key) s = .next t ∧
      homeInc t ctx k = { homeInc s ctx k with key := incBest (homeInc s ctx k) (homeInc s ctx k).key key }) ∧
  (∀ h d k s g, CanIssue (.incrd h d k) .none s g → NoReplay s g →
    Result (.incrd h d k) h s g 64 d fun _ _ => (coreInc s g.core g.ctx k.val).key) ∧
  (∀ h acq d k s g, CanIssue (.incrdHome h acq d k) .ld s g → acting h s g ≠ 0 →
    DidWith (.incrdHome h acq d k) h s g keep { g with ldcnt := g.ldcnt + 1, holdOps := if acq then [s.nextId] else [] } fun t =>
      t.mem = s.mem ∧
      t.incMsgs = s.incMsgs ++ [⟨s.nextId + 1, g.core, g.ctx, k.val, .read (lanesOf (acting h s g)), some s.nextId⟩] ∧
      ∃ o, look s.nextId t.ops = some o ∧ o.gang = s.cur.gang ∧ o.dst = some (d, .raw64) ∧ o.left = 1 ∧
        o.acq = if acq then some .dev else none) ∧
  (∀ h a k s g, CanIssue (.bnd h a k) .none s g →
    Did (.bnd h a k) h s g (fun _ f => { f with bound := src h g .i64 f a, incsel := BitVec.ofNat 4 k.val }) id) ∧
  (∀ h n s g, CanIssue (.defer h n) .none s g →
    Did (.defer h n) h s g (fun l f => if (fibreAt g l).any fun e => e.defer ≠ 0 then f else { f with defer := n.val }) id)

/-- R223, R234, R237 to R242: `popen` copies the live window to the shadow and opens a proposal; `accept` takes one draw,
makes the shadow live where A is not a NaN and not below LN24 of the draw's upper 24 bits, and counts; `pclose`
closes it. `orbit` gives the size of the point's orbit, the mask of the elements that fix it, and its image under
one. -/
def Obligations.ProposalsAndOrbits : Prop :=
  let opened := fun (b : Bool) (h : Hd) (s : State) (g : Gang) =>
    ∀ l f, laneIn (acting h s g) l = true → fibreAt g l = some f → f.popen = b
  (∀ h s g, CanIssue (.popen h) .none s g → opened false h s g →
    Did (.popen h) h s g (fun _ f => if f.psel then { f with bank0 := f.bank1, popen := true } else { f with bank1 := f.bank0, popen := true }) id) ∧
  (∀ h d a s g, CanIssue (.accept h d a) .none s g → opened true h s g → ∃ ok : Fibre → Bool,
    (∀ f, let x := fDec f32F (src h g .f32 f a)
      ok f = true ↔ x.isNan = false ∧ ¬ x.below (fDec f32F (ln24 (draw f.key f.ctr / 2 ^ 8)))) ∧
    Did (.accept h d a) h s g (fun _ f => writeReg 32 d (if ok f then 1 else 0)
      { f with ctr := f.ctr + 1, psel := f.psel != ok f, popen := false, pcnt := f.pcnt + 1
               acnt := if ok f then f.acnt + 1 else f.acnt }) id) ∧
  (∀ h s g, CanIssue (.pclose h) .none s g → opened true h s g → Did (.pclose h) h s g (fun _ f => { f with popen := false }) id) ∧
  (∀ h d s g y e, CanIssue (.orbitSize h d) .none s g → symOf s g = some (y, e) →
    (∀ l f, laneIn (acting h s g) l = true → fibreAt g l = some f → f.point ≠ none) →
    Result (.orbitSize h d) h s g 32 d fun _ f => match f.point with
      | some p => num64 (y.elems.length / (y.elems.filter fun m => act e m p = p).length)
      | none => 0) ∧
  (∀ h d s g y e, CanIssue (.orbitStab h d) .none s g → symOf s g = some (y, e) →
    (∀ l f, laneIn (acting h s g) l = true → fibreAt g l = some f → f.point ≠ none) → ∃ m : Fibre → Dword,
    Result (.orbitStab h d) h s g 64 d (fun _ f => m f) ∧
    ∀ f p j, f.point = some p → j < 64 → ((m f).getLsbD j = true ↔ ∃ x, y.elems[j]? = some x ∧ act e x p = p)) ∧
  (∀ h d j s g y e x, CanIssue (.orbitImg h d j) .none s g → symOf s g = some (y, e) → y.elems[j.val]? = some x →
    (∀ l f, laneIn (acting h s g) l = true → fibreAt g l = some f → f.point ≠ none) →
    Result (.orbitImg h d j) h s g 64 d fun _ f => match f.point with
      | some p => num64 (lin e (act e x p))
      | none => 0)

/-! ## Continuation records and launches -/

/-- R182, R183, R193, R195 to R198: `spawn` places one record per active fibre in the core's pool, in ascending lane
order, and gives each fibre its record's number; the record takes the fibre's arguments, its launch, and the tighter
of its own bound and its parent's; one that orders a release waits for it. R182, R183, R185, R198: the bin that is
chosen forms a gang of its most recent records, one per lane, as a crew of its own; the records leave the bin, and
the timer restarts. The choice of a bin (log 38, and log 79 for the PCs of a gang) and the child's acquire (log 39)
are the model's readings. -/
def Obligations.SpawnAndBins : Prop :=
  (∀ h o s g i target, ((∃ off, i = .spawnLabel h o off ∧ target = fun _ => BitVec.ofInt 48 (s.cur.pc.toNat + off.toInt)) ∨
       (∃ c, i = .spawnRegister h o c ∧ (∀ l f, laneIn (acting h s g) l = true → fibreAt g l = some f →
           (src h g .n64 f c).toNat < 2 ^ 48 ∧ (src h g .n64 f c).toNat % 4 = 0) ∧
         target = fun f => (src h g .n64 f c).setWidth 48)) →
     CanIssue i .none s g → (o.order = .clu → Released h s g .clu) → (o.order = .dev → Released h s g .dev) →
     poolCount (coreOf s g.core) + (lanesOf (acting h s g)).length ≤ 4096 → ((coreOf s g.core).bins.map (·.key)).Nodup →
     let number := fun l => num64 (2 ^ 63 + g.core * 2 ^ 40 +
       (spawnSeqOf s g.core g.ctx + BitVec.ofNat 40 ((lanesOf (acting h s g)).idxOf l)).toNat)
     DidWith i h s g (fun l f => writeReg 64 o.d (number l) f)
       { g with s := writeScalar 64 o.d (fun l _ => number l) h s g g.s } fun t => t.mem = s.mem ∧
         spawnSeqOf t g.core g.ctx = spawnSeqOf s g.core g.ctx + BitVec.ofNat 40 (lanesOf (acting h s g)).length ∧
         poolCount (coreOf t g.core) = poolCount (coreOf s g.core) + (lanesOf (acting h s g)).length ∧
         ∀ l f, laneIn (acting h s g) l = true → fibreAt g l = some f →
           ∃ r, (r ∈ (coreOf t g.core).unbinned ∨ ∃ b ∈ (coreOf t g.core).bins, r ∈ b.recs ∧ b.key = ⟨r.ctx, r.ltag, r.entry, r.wcode⟩) ∧
             r.task = number l ∧ r.entry = target f ∧ r.parent = f.fid ∧ r.ctx = g.ctx ∧ r.ltag = g.ltag ∧ r.wcode = o.wcode ∧
             r.incsel = f.incsel ∧ r.args = spawnArgs o f ∧
             r.bound = (if f.incsel = 15 then src h g .i64 f o.b
               else tighten (coreInc s g.core g.ctx f.incsel.toNat) f.bound (src h g .i64 f o.b))) ∧
  (let forms := fun (s : State) (core : Nat) (b : Bin) (l : Launch) (slot off : Nat) (t : State) =>
     ∃ g, look (s.nextId + 1) t.gangs = some g ∧ g.core = core ∧ g.ctx = b.key.ctx ∧ g.ltag = b.key.ltag ∧ g.slot = slot ∧ g.off = off ∧
       g.width = widthOf b.key.wcode ∧ g.fibres.length = widthOf b.key.wcode ∧ getS g 0 = l.pkt.arg ∧
       g.gid = num64 (2 ^ 63 + core * 2 ^ 40 + (gangSeqOf s core b.key.ctx).toNat) ∧
       (∀ i r, (b.recs.take (widthOf b.key.wcode))[i]? = some r → ∃ f, fibreAt g i = some f ∧ f.life = .live ∧ f.pc = r.entry ∧
         f.fid = r.task ∧ f.fidx = BitVec.ofNat 32 i ∧ f.fidy = 0 ∧ f.fidz = 0 ∧ f.bound = r.bound ∧ f.incsel = r.incsel ∧ f.key = l.pkt.seed ^^^ r.task ∧ f.ctr = 0 ∧
         ∀ j x, r.args[j]? = some x → j < 224 → getV f j = x) ∧
       (∀ i, b.recs.length ≤ i → i < widthOf b.key.wcode → ∃ f, fibreAt g i = some f ∧ f.life = .empty) ∧
       ∃ c, look s.nextId t.crews = some c ∧ c.spawned = true ∧ c.gangs = [s.nextId + 1] ∧ c.core = core
   (∀ s core k b l slot off, (coreOf s core).bins[k]? = some b →
     bestBin ((((coreOf s core).bins.filter fun a => binTimed s.clk a && (binReady s core a).isSome)).map fun a => (1, a)) = some b →
     binReady s core b = some (l, slot, off) → (∀ r ∈ b.recs.take (widthOf b.key.wcode), recDominated s core r = false) →
     ∃ t, exec (.binTimerExpiry core k) s = .next t ∧ forms s core b l slot off t) ∧
   (∀ s core b l slot off, (∀ a ∈ (binChoices core s).1, a.1 ≠ 1) → bestBin (binChoices core s).1 = some b →
     binReady s core b = some (l, slot, off) → (∀ r ∈ b.recs.take (widthOf b.key.wcode), recDominated s core r = false) →
     ∃ t, exec (.spawnGangPlacement core) s = .next t ∧ forms s core b l slot off t))

/-- R188, R189, R320: an idle core reserves room and asks a victim of its cluster, or after four refusals of another; the
victim sends up to eight of the records around its oldest, or refuses; records enter the thief's pool unless they are
dominated, a refusal counts and delays the next request by 32 cycles. A record that overflowed returns to its core's
pool while that holds fewer than 2,048. The victim is found as log 73 says; that a vacated core does not steal is the
model's choice (log 80). -/
def Obligations.StealingAndOverflow : Prop :=
  (∀ s core ctx, stealReady s core ctx = true → ∃ t victim, exec (.stealRequest core ctx) s = .next t ∧ t.mem = s.mem ∧
    look s.nextId t.steals = some (.request core victim ctx) ∧ (coreOf t core).steal.pending = true ∧ (coreOf t core).steal.reserved = 8 ∧
    let x := (coreOf t core).steal.x
    ((coreOf s core).steal.refusals < 4 → victim = clusterOf core * 32 + x.toNat % 32) ∧
    (4 ≤ (coreOf s core).steal.refusals → x = stealAdvance (stealAdvance (coreOf s core).steal.x) ∧
      victim = (clusterOf core + 1 + (stealAdvance (coreOf s core).steal.x).toNat % 47) % 48 * 32 + x.toNat % 32)) ∧
  (∀ x : BitVec 16, stealAdvance x =
    let a := x ^^^ (x <<< 7)
    let b := a ^^^ (a >>> 9)
    b ^^^ (b <<< 8)) ∧
  (∀ s id thief victim ctx, look id s.steals = some (.request thief victim ctx) → stealUp s thief victim = true →
    ∃ t, exec (.stealReply id) s = .next t ∧ t.mem = s.mem ∧
      ((look id t.steals = some (.refusal thief) ∧ oldestRec (coreOf (purgePool victim s) victim) ctx = none) ∨
        ∃ rs, look id t.steals = some (.records thief rs) ∧ rs ≠ [] ∧ rs.length ≤ 8 ∧
          ∀ r ∈ rs, r ∉ (coreOf t victim).unbinned ∧ ∀ b ∈ (coreOf t victim).bins, r ∉ b.recs)) ∧
  (∀ s id thief, look id s.steals = some (.refusal thief) → islandUp s (clusterOf thief) = true →
    exec (.stealRefusalArrival id) s = .next { s with
    steals := del id s.steals
    cores := ins thief { coreOf s thief with steal := { (coreOf s thief).steal with
      pending := false, reserved := 0, refusals := (coreOf s thief).steal.refusals + 1, next := s.clk + 32 } } s.cores }) ∧
  (∀ s id thief rs, look id s.steals = some (.records thief rs) → islandUp s (clusterOf thief) = true →
    (coreOf s thief).vacated = [] → ∃ t, exec (.stolenRecordsArrival id) s = .next t ∧ t.mem = s.mem ∧
    t.steals = del id s.steals ∧ (coreOf t thief).steal.pending = false ∧ (coreOf t thief).steal.refusals = 0 ∧
    ∀ r ∈ rs, recDominated s thief r = false → ∃ n, { r with ord := n } ∈ (coreOf t thief).unbinned ∨
      ∃ b ∈ (coreOf t thief).bins, { r with ord := n } ∈ b.recs) ∧
  (∀ s core ctx g r rs, segOf s ctx core = some g → g.recs = r :: rs → isVacated s core ctx = false →
    islandUp s (clusterOf core) = true → poolRecords (coreOf s core) < 2048 → ∃ t, exec (.overflowReturn core ctx core) s = .next t ∧ t.mem = s.mem ∧
      (segOf t ctx core).map (·.recs) = some rs ∧ (recDominated s core r = false → ∃ n, { r with ord := n } ∈ (coreOf t core).unbinned ∨
        ∃ b ∈ (coreOf t core).bins, { r with ord := n } ∈ b.recs))

/-- R178, R184, R214, R411: `launch` reads the packet of one active fibre, where it and what the puppeteer reads can be
reached, which counts in LDCNT until its status has come back: 0 where the launch is accepted, into the lowest free
slot, 1 where a check rejects it, 2 where 64 launches by the instruction are outstanding, 3 where no slot is free.
R215: `signal` is a store with release of its value, `signal.add` an atomic add with release that returns nothing:
both issue with their request and count in STCNT. R180, R182, R185 to R187, R223, R285: the first core of the
rotation that can claims a launch's next ticket: a crew starts there, or of an ensemble each of its crews on a core
of the cluster, its region zero and its gangs' fibres as R182 numbers them; before the first every L1 and every RDC
is emptied; memory changes at most in that words of new private spans read 0 (R270). R181, R286: a launch whose
tickets are spent, whose crews have ended and which no record names completes once the writes have been made visible:
its slot is free, and its signal value written, or its page reported where it can no longer be written. The rotation
of claims, what completion awaits, the instant of the initialising write and the PC of an entry past 2^48 are the
model's readings of log 43, 46, 82 and 81. -/
def Obligations.Launches : Prop :=
  ((∀ h d a s g l f c ks, CanIssue (.launch h d a) .ld s g → GroupReady s g → Released h s g .dev →
     acting h s g = 1 <<< l → l < 64 → fibreAt g l = some f → look g.ctx s.ctxs = some c →
     check s g .glob needR ⟨l, src h g .i64 f a, 128, 128⟩ = .ok ks → (s.cores.map (·.1)).Pairwise (· < ·) →
     let p := readPacket (leNat (ks.map (memByte s)))
     linesUp s (some (dieOf g.core)) (distinct (ks.map lineOf)) = true → linesUp s none (launchLines s g.ctx p) = true →
     DidWith (.launch h d a) h s g keep { g with ldcnt := g.ldcnt + 1 } fun t =>
       s.nextId ∈ t.statuses ∧ ∃ o st, look s.nextId t.ops = some o ∧ o.gang = s.cur.gang ∧ o.ctr = .ld ∧
       o.dst = some (d, .raw32) ∧ o.parts.map (·.lane) = [l] ∧ o.vals = [(l, st)] ∧
       (checkPacket s g.ctx p = none → st = 1 ∧ t.ctxs = s.ctxs ∧ t.mem = s.mem) ∧
       ∀ acc, checkPacket s g.ctx p = some acc →
         if 64 ≤ (c.launches.filter fun x => x.2.byLaunch).length then st = 2 ∧ t.ctxs = s.ctxs ∧ t.mem = s.mem
         else match freeSlot c with
           | none => st = 3 ∧ t.ctxs = s.ctxs ∧ t.mem = s.mem
           | some k => st = 0 ∧
             launchOf t g.ctx k = some { acc.launch with uid := s.nextId + 1, after := none, byLaunch := true, queue := none }) ∧
   (∀ s id o g l f d st, id ∈ s.statuses → look id s.ops = some o → o.dst = some (.v d, .raw32) → o.parts.map (·.lane) = [l] →
     o.vals = [(l, st)] → o.ctr = .ld → o.acq = none → o.sub = none → o.lines = [] → o.regs = dstRegs (.v d) 1 [l] →
     look o.gang s.gangs = some g → NoReplay s g → fibreAt g l = some f → notEnded f = true →
     ∃ t g', exec (.loadReply id) s = .next t ∧ t.statuses = s.statuses.filter (· ≠ id) ∧ look o.gang t.gangs = some g' ∧
       g'.ldcnt = g.ldcnt - 1 ∧ fibreAt g' l = some (setV d (st.setWidth 32) f) ∧ ∀ j, j ≠ l → fibreAt g' j = fibreAt g j)) ∧
  ((∀ h sc a b s g, CanIssue (.signal h sc a b) .st s g → GroupReady s g → acting h s g ≠ 0 → Released h s g sc →
     AllPass s g .glob needW (signalAccs a (theIss h s g)) →
     let ps := partsOf s g .glob needW (signalAccs a (theIss h s g))
     let data := fun l => ((fibreAt g l).map fun f => leBytes 8 (src h g .i64 f b).toNat).getD []
     Outstanding (.signal h sc a b) h s g keep .st none none ps
       ((linesTouched ps).map fun l => (l, .write ((storedBytes ps data).filter fun x => lineOf x.1 = l)))) ∧
   (∀ h sc a b s g, CanIssue (.signalAdd h sc a b) .st s g → GroupReady s g → acting h s g ≠ 0 → Released h s g sc →
     AllPass s g .glob needRW (signalAccs a (theIss h s g)) →
     let ps := partsOf s g .glob needRW (signalAccs a (theIss h s g))
     let as := ps.map fun p => (⟨p.lane, p.keys.headD 0, .n64, some .add,
       ((fibreAt g p.lane).map fun f => src h g .i64 f b).getD 0, 0⟩ : AtomOp)
     let lines := distinct (as.map fun x => lineOf x.addr)
     Outstanding (.signalAdd h sc a b) h s g keep .st none none ps (lines.map fun l => (l, .atomic (as.filter fun x => lineOf x.addr = l)))) ∧
   (∀ old b : Dword, atomNew .n64 .add old b = old + b)) ∧
  (let begun := fun (s t : State) (ctx ltag core : Nat) (l : Launch) =>
     (l.pkt.priv = 0 → t.mem = s.mem) ∧ (wf 0 s.mem = true → ∀ a, memByte t a = memByte s a ∨ memByte t a = 0) ∧
     launchOf t ctx ltag = some { l with ticket := l.ticket + 1, prev := some core, started := true } ∧
     (l.started = false → (∀ k, (coreOf t k).l1 = []) ∧ ∀ die, die < 4 → rdcOf t die = [])
   let pts := fun (l : Launch) => match l.sym with | none => [] | some y => reps (l.pkt.gx, l.pkt.gy, l.pkt.gz) y
   let placed := fun (t : State) (ctx ltag core : Nat) (l : Launch) (index : Nat) (crew : Crew) =>
     crew.ctx = ctx ∧ crew.ltag = ltag ∧ crew.index = index ∧ crew.core = core ∧ crew.spawned = false ∧
     crew.size = l.hd.scratch ∧ crew.bars = List.replicate l.hd.barriers Barrier.idle ∧
     (∀ a, crew.base ≤ a → a < crew.base + crew.size → find 0 a (coreOf t core).spad = 0) ∧
     crew.gangs.length = gangsFor l (pts l) index ∧
     ∀ (j k : Nat), crew.gangs[j]? = some k → ∃ g, look k t.gangs = some g ∧ g.num = j ∧ g.core = core ∧ g.width = l.hd.width ∧
       g.gid = num64 (index * gangCount l.hd + j) ∧ getS g 0 = l.pkt.arg ∧ g.tvec = 0 ∧ g.frames = [] ∧
       g.fibres = (List.range l.hd.width).map fun i => crewFibre l (pts l) index j i
         ((l.pkt.text + (((startRole l.roles j).bind fun r => l.roles[r]?).map (·.entry)).getD l.hd.entry).setWidth 48)
   (∀ s ctx ltag core c l, look ctx s.ctxs = some c → look ltag c.launches = some l → turnCome c l = true →
     (rotation l).find? (canClaim s ctx ltag c l) = some core → (l.started = false → uoCores s = [] ∧ mergesOut s = false) →
     ∃ t, exec (.ticketClaim ctx ltag core) s = .next t ∧ begun s t ctx ltag core l ∧
       (l.pkt.ens = 0 → ∃ crew, look s.nextId t.crews = some crew ∧ placed t ctx ltag core l l.ticket crew) ∧
       (l.pkt.ens ≠ 0 → ∃ e, look s.nextId t.ens = some e ∧ e.bar = Barrier.idle ∧ e.crews.length = (ticketCrews l).length ∧
         ∀ (i k : Nat), e.crews[i]? = some k → ∃ crew, look k t.crews = some crew ∧ crew.ens = some s.nextId ∧
           clusterOf crew.core = clusterOf core ∧ placed t ctx ltag crew.core l (l.pkt.ens * l.ticket + i) crew)) ∧
   ∀ (l : Launch) ps c j i pc, l.sym = none → 0 < l.hd.cx → 0 < l.hd.cy → j * l.hd.width + i < crewSize l.hd →
     let f := crewFibre l ps c j i pc
     f.pc = pc ∧ f.life = .live ∧ f.fid = num64 (c * crewSize l.hd + (j * l.hd.width + i)) ∧ f.key = l.pkt.seed ^^^ f.fid ∧
     f.bound = l.pkt.bound ∧ f.incsel = l.pkt.incsel ∧ ∃ x y z, x < l.hd.cx ∧ y < l.hd.cy ∧
       z * (l.hd.cx * l.hd.cy) + y * l.hd.cx + x = j * l.hd.width + i ∧ f.fidx = BitVec.ofNat 32 x ∧ f.fidy = BitVec.ofNat 32 y ∧
       f.fidz = BitVec.ofNat 32 z) ∧
  (∀ s ctx ltag l, launchOf s ctx ltag = some l → ticketCrews l = [] → (∀ c ∈ s.crews, c.2.ctx ≠ ctx ∨ c.2.ltag ≠ ltag) →
     recsLeft s ctx ltag = false →
     (uoCores s ≠ [] → (s.cores.map (·.1)).Pairwise (· < ·) → ∃ t, exec (.launchCompletion ctx ltag) s = .next t ∧ uoCores t = [] ∧ t.ctxs = s.ctxs ∧ t.mem = s.mem) ∧
     (uoCores s = [] → writesOut s ctx = false → l.pkt.sigaddr = 0 → ∃ t, exec (.launchCompletion ctx ltag) s = .next t ∧
       t.mem = s.mem ∧ ∃ c c', look ctx s.ctxs = some c ∧ look ctx t.ctxs = some c' ∧ c'.launches = del ltag c.launches) ∧
     (uoCores s = [] → writesOut s ctx = false → l.pkt.sigaddr ≠ 0 → linesUp s none (rangeLines s ctx (l.pkt.sigaddr.toNat, 8)) = true →
       (∀ pa, reach s ctx needW l.pkt.sigaddr.toNat = .pa pa → ∃ t, exec (.launchCompletion ctx ltag) s = .next t ∧
         t.mem = (writeVirt ctx l.pkt.sigaddr.toNat (leBytes 8 l.pkt.sigval.toNat) s).mem ∧
         ∃ c c', look ctx s.ctxs = some c ∧ look ctx t.ctxs = some c' ∧ c'.launches = del ltag c.launches) ∧
       ∀ w, reach s ctx needW l.pkt.sigaddr.toNat = .bad w → ∃ t, exec (.launchCompletion ctx ltag) s = .next t ∧ t.mem = s.mem ∧
         t.reports = s.reports ++ [⟨none, ctx, w, l.pkt.sigaddr, []⟩] ∧
         ∃ c c', look ctx s.ctxs = some c ∧ look ctx t.ctxs = some c' ∧ c'.launches = del ltag c.launches))

/-! ## Copy engines, waits, roles, streams -/

/-- R321, R323 to R326: a `copy` that passes its checks waits for its engine; the engine translates the range, accepts it
with a promise, which D receives, counts it in CPCNT, and the group goes on; a range that does not translate faults
its active fibres. `gath` and `scat` are accepted where they issue, one element of each active fibre. R287, R327 to
R329, R393: an accepted request starts once what its issuer loaded before has returned and what its core asked of its
lines before has been performed. A started request moves word by word, and completes unless it is frozen: with
nothing changed since it started, the bytes of its source stand at its destination, with `.desc` the descriptors of
its sectors too, and nothing else changes in memory or in any scratchpad; its count is removed in the order of
acceptance. When each word of a copy that has started moves, before its completion, is free (log 47). -/
def Obligations.Copies : Prop :=
  ((∀ (h : Hd) desc d a b c (s : State) (g : Gang) i g2s, (i = .copyG2s h desc d a b c ∧ g2s = true ∨ i = .copyS2g h desc d a b c ∧ g2s = false) →
     CanIssue i .cp s g → acting h s g ≠ 0 → engineLoad (coreOf s g.core) < 32 → g.cpcnt + pendOf (coreOf s g.core) s.cur.gang < 31 →
     let dst := rdUni g h.ext .n64 a
     let sr := rdUni g h.ext .n64 b
     let len := (rdUni g h.ext .n32 c).toNat
     let va := if g2s then sr else dst
     let sa := if g2s then dst else sr
     let al := if desc then 64 else 4
     1 ≤ len → len ≤ 262144 → va.toNat + len ≤ 2 ^ 52 → sa.toNat + len ≤ scratchSize s g →
     dst.toNat % al = 0 → sr.toNat % al = 0 → len % al = 0 →
     ∃ (t : State) (g' : Gang), exec i s = .next t ∧ t.mem = s.mem ∧ look s.cur.gang t.gangs = some g' ∧
       (coreOf t g.core).copyPend = (coreOf s g.core).copyPend ++ [⟨s.cur.gang, g.ctx, g.crew, s.cur.group, acting h s g, g2s, desc,
         scratchBase s g + sa.toNat, va, len, d⟩] ∧
       ∀ l f, fibreAt g l = some f → fibreAt g' l = some (if laneIn s.cur.group l then
         { past i s g f with wait := some ⟨.copy, (past i s g f).pc, none⟩, pc := s.cur.pc } else f)) ∧
   (∀ (s : State) k (core : Nat) p (g : Gang), oldestPend s k = some (core, p) → look k s.gangs = some g →
     (s.cores.map (·.1)).Pairwise (· < ·) →
     linesUp s (some (dieOf core)) (missLines s core p.ctx ((pieces p.va.toNat p.len).map (·.1))) = true →
     (∀ ms, findMoves s p.ctx (if p.g2s then needR else needW) p.scratch (pieces p.va.toNat p.len) = .ok ms →
       ∃ (t : State) (g' : Gang) (r : CopyReq), exec (.copyAcceptance k) s = .next t ∧ t.mem = s.mem ∧ look k t.gangs = some g' ∧ g'.cpcnt = g.cpcnt + 1 ∧
         (coreOf t core).copies = (coreOf s core).copies ++ [r] ∧ r.gang = k ∧ r.moves = ms ∧ r.g2s = p.g2s ∧ r.desc = p.desc ∧
         r.part = [] ∧ r.done = false ∧ (coreOf t core).promise = r.promise ∧
         r.promise = num64 (Nat.max s.clk.toNat (coreOf s core).promise.toNat + 40 + ((ms.map (·.n)).sum + 63) / 64) ∧
         g'.s = (match p.d with | .s n => put 0 n r.promise g.s | _ => g.s) ∧
         (Calm g → ∀ l f, l < 64 → laneIn p.lanes l = true → fibreAt g l = some f → (f.wait.map (·.kind)) = some .copy →
           ∃ f', fibreAt g' l = some f' ∧ f'.wait = none ∧ f.wait.map (·.nxt) = some f'.pc)) ∧
     (∀ c addr, findMoves s p.ctx (if p.g2s then needR else needW) p.scratch (pieces p.va.toNat p.len) = .error (c, addr) →
       g.pend = [] → ∃ (t : State) (g' : Gang), exec (.copyAcceptance k) s = .next t ∧ look k t.gangs = some g' ∧ g'.cpcnt = g.cpcnt ∧
         ∀ l f, l < 64 → laneIn p.act l = true → fibreAt g l = some f → f.life = .live → (f.wait.map (·.kind)) = some .copy →
           FaultRaised g' ⟨l, c, addr, f.pc⟩)) ∧
   (∀ (h : Hd) t d a b (s : State) (g : Gang) i g2s, (i = .gath h t d a b ∧ g2s = true ∨ i = .scat h t d a b ∧ g2s = false) →
     CanIssue i .cp s g → GroupReady s g → acting h s g ≠ 0 → engineLoad (coreOf s g.core) < 32 →
     g.cpcnt + pendOf (coreOf s g.core) s.cur.gang < 31 →
     let x := theIss h s g
     let need := if g2s then needR else needW
     let base := (rdUni g h.ext .n64 a).toNat
     slotCheck s x (tyBytes t) (rdUni g h.ext .n64 a) = none → AllPass s g .glob need (elemAccs t b x) →
     let moves := (elemAccs t b x).map fun e => (⟨e.ea.toNat, (keysOf s g .glob need e).headD 0,
       scratchBase s g + base + tyBytes t * e.lane, tyBytes t⟩ : CopyMove)
     let promise := num64 (Nat.max s.clk.toNat (coreOf s g.core).promise.toNat + 40 + ((moves.map (·.n)).sum + 63) / 64)
     DidWith i h s g keep { g with cpcnt := g.cpcnt + 1, s := match d with | .s n => put 0 n promise g.s | _ => g.s } fun u =>
       u.mem = s.mem ∧ ∃ r : CopyReq, (coreOf u g.core).copies = (coreOf s g.core).copies ++ [r] ∧ r.gang = s.cur.gang ∧ r.moves = moves ∧
         r.g2s = g2s ∧ r.desc = false ∧ r.promise = promise ∧ r.done = false)) ∧
  ((∀ (s : State) (core : Nat) r, r ∈ (coreOf s core).copies → r.started = false → r.done = false → r.dropped = false →
     loadsDone s r.gang r.act r.id = true → linesClear s core r.id (moveLines r.moves).contains = true →
     ∃ q ∈ (coreOf (startCopies s) core).copies, q.id = r.id ∧ q.moves = r.moves ∧ q.started = true ∧
       q.src = r.moves.map (moveSrc s core r.g2s)) ∧
   (∀ (s : State) (core : Nat) (r : CopyReq) (w : Nat × (CopyMove × List Byte)), r.hits = [] → w ∈ copyLeft r →
     (∀ a, w.2.1.pa ≤ a → a < w.2.1.pa + w.2.1.n → standsAt r w.1 a = true) → w.2.2 = moveSrc s core r.g2s w.2.1 →
     wf 0 (coreOf s core).spad = true → wf 0 s.mem = true →
     let t := copyWord core r w s
     w.2.1.n ≤ 4 ∧ (r.g2s = true → t.mem = s.mem ∧ ∀ a, find 0 a (coreOf t core).spad =
       if w.2.1.scratch ≤ a ∧ a < w.2.1.scratch + w.2.1.n then engineByte s (dieOf core) (w.2.1.pa + (a - w.2.1.scratch))
       else find 0 a (coreOf s core).spad) ∧
     (r.g2s = false → (coreOf t core).spad = (coreOf s core).spad ∧ ∀ a, memByte t a =
       if w.2.1.pa ≤ a ∧ a < w.2.1.pa + w.2.1.n then spadByte s core (w.2.1.scratch + (a - w.2.1.pa)) else memByte s a)) ∧
   ∀ (s : State) (core : Nat) id r, (coreOf s core).copies.find? (fun r => r.id = id) = some r → r.done = false → r.dropped = false →
     r.started = true → r.held = false → linesUp s (some (dieOf core)) (moveLines r.moves) = true →
     r.src = r.moves.map (moveSrc s core r.g2s) → r.hits = [] → r.part = [] →
     (r.g2s = false ∨ ∀ g, (look r.gang s.gangs).or (look r.gang s.gone) = some g → NoReplay s g) →
     let apart := r.moves.Pairwise fun m n =>
       if r.g2s then m.scratch + m.n ≤ n.scratch ∨ n.scratch + n.n ≤ m.scratch else m.pa + m.n ≤ n.pa ∨ n.pa + n.n ≤ m.pa
     ∃ (t : State), exec (.copyComplete core id) s = .next t ∧
       (∀ c, c ≠ core → (coreOf t c).spad = (coreOf s c).spad ∧ (coreOf t c).spadDesc = (coreOf s c).spadDesc) ∧
       (r.g2s = true → t.mem = s.mem ∧ t.desc = s.desc ∧ (wf 0 (coreOf s core).spad = true →
         (apart → ∀ m ∈ r.moves, ∀ i, i < m.n → find 0 (m.scratch + i) (coreOf t core).spad = engineByte s (dieOf core) (m.pa + i)) ∧
         ∀ a, (∀ m ∈ r.moves, a < m.scratch ∨ m.scratch + m.n ≤ a) → find 0 a (coreOf t core).spad = find 0 a (coreOf s core).spad)) ∧
       (r.g2s = false → (coreOf t core).spad = (coreOf s core).spad ∧ (coreOf t core).spadDesc = (coreOf s core).spadDesc ∧
         (wf 0 s.mem = true →
           (apart → ∀ m ∈ r.moves, ∀ i, i < m.n → memByte t (m.pa + i) = spadByte s core (m.scratch + i)) ∧
           ∀ a, (∀ m ∈ r.moves, a < m.pa ∨ m.pa + m.n ≤ a) → memByte t a = memByte s a)) ∧
       (r.desc = false → t.desc = s.desc ∧ (coreOf t core).spadDesc = (coreOf s core).spadDesc) ∧
       (r.desc = true → apart → (∀ m ∈ r.moves, m.pa % 64 = 0 ∧ m.scratch % 64 = 0 ∧ m.n % 64 = 0) →
         ∀ m ∈ r.moves, ∀ i, i < m.n / 64 →
           (r.g2s = true → wf resetDesc (coreOf s core).spadDesc = true →
             find resetDesc (m.scratch / 64 + i) (coreOf t core).spadDesc = engineDesc s (dieOf core) (m.pa / 64 + i)) ∧
           (r.g2s = false → wf resetDesc s.desc = true →
             memDesc t (m.pa / 64 + i) = find resetDesc (m.scratch / 64 + i) (coreOf s core).spadDesc)) ∧
       ∀ g, look r.gang s.gangs = some g → ((coreOf s core).copies.filter fun q => q.gang = r.gang) = [r] →
         (∀ q ∈ (coreOf t core).copies, q.gang ≠ r.gang) ∧
         ∃ g', look r.gang t.gangs = some g' ∧ g'.cpcnt = g.cpcnt - 1 ∧ ∃ ls, g'.cpDone = g.cpDone ++ [(r.promise, ls)])

/-- R155, R321, R330, R331, R336, R338: `wait`, `sleep` and `stgw` make the whole gang wait; the wait ends when the
counts have come within the limits, when CLK has reached the time with no copy promised by then outstanding (else the
active fibres take PROMISE), or when the phase word's bit 0 has come; a wait of counts acquires what finished copies
and tile operations wrote. R332 to R337: `role` of a whole gang whose counts are 0 enters the role at once: its
holdings become the role's, and its fibres go to the role's entry; else the gang waits for its counts, and then
enters. `stga` flips bit 0 of the phase word, behind what its fibres issued before. What the acquire discards is the
model's reading of log 49. -/
def Obligations.WaitsRolesPhases : Prop :=
  ((∀ (h : Hd) l st c m (s : State) (g : Gang), CanIssue (.wait h l st c m) .none s g → acting h s g ≠ 0 →
     GangWaits (.wait h l st c m) s g g (.counters l st c m) fun t => t.mem = s.mem) ∧
   (∀ (h : Hd) a (s : State) (g : Gang), CanIssue (.sleep h a) .none s g → acting h s g ≠ 0 →
     GangWaits (.sleep h a) s g g (.sleep (rdUni g h.ext .n64 a) (acting h s g)) fun t => t.mem = s.mem) ∧
   (∀ (h : Hd) a b ph w (s : State) (g : Gang), CanIssue (.stgw h a b ph) .none s g → acting h s g ≠ 0 → phaseWord s (theIss h s g) a b = .ok w →
     GangWaits (.stgw h a b ph) s g g (.stgw w (ph.val = 1)) fun t => t.mem = s.mem) ∧
   (∀ (s : State) k (g : Gang) l st c m, look k s.gangs = some g → Calm g →
     ((gwaitsOf g).find? fun w => g.stop ≠ .saved && waitHolds g w) = some (.counters l st c m) →
     g.ldcnt ≤ l ∧ g.stcnt ≤ st ∧ g.cpcnt ≤ c ∧ g.mtcnt ≤ m ∧
     ∃ (t : State) (g' : Gang), exec (.waitComplete k) s = .next t ∧ t.mem = s.mem ∧ look k t.gangs = some g' ∧ g'.cpDone = [] ∧
       g'.mtSeen = g.mtSeen ++ g.mtDone.map (·.1) ∧ g'.mtDone = [] ∧
       (∀ x ∈ (coreOf t g.core).l1, (∀ d ∈ g.cpDone, lineOf x.1 ∉ d.2) ∧ ∀ d ∈ g.mtDone, lineOf x.1 ∉ d.2) ∧ GwaitEnded (· = .counters l st c m) g g') ∧
   (∀ (s : State) k (g : Gang) a act, look k s.gangs = some g → Calm g →
     ((gwaitsOf g).find? fun w => decide (g.stop = .running) && sleepOver s w) = some (.sleep a act) →
     ((∀ r ∈ (coreOf s g.core).copies, r.gang = k → r.promise.toNat ≤ a.toNat → r.done = true ∨ r.dropped = true) →
       ∃ (t : State) (g' : Gang), exec (.sleepWake k) s = .next t ∧ t.mem = s.mem ∧ look k t.gangs = some g' ∧ GwaitEnded (· = .sleep a act) g g' ∧
         ∀ d ∈ g'.cpDone, a.toNat < d.1.toNat) ∧
     (∀ r ∈ (coreOf s g.core).copies, r.gang = k → r.promise.toNat ≤ a.toNat → r.done = false → r.dropped = false →
       ∃ (t : State) (g' : Gang) (least : Dword), exec (.sleepWake k) s = .next t ∧ look k t.gangs = some g' ∧ least.toNat ≤ r.promise.toNat ∧
         ∀ l f, l < 64 → laneIn act l = true → fibreAt g l = some f → f.life = .live → (f.gwait.map (·.kind)) = some (.sleep a act) →
           FaultRaised g' ⟨l, cause cPROMISE, least, f.pc⟩)) ∧
   (∀ (s : State) k (g : Gang) w, look k s.gangs = some g → Calm g → ((gwaitsOf g).find? fun w => g.stop ≠ .saved && phaseCome s k g w) = some w →
     ∃ (t : State) (g' : Gang), exec (.stgwPass k) s = .next t ∧ t.mem = s.mem ∧ look k t.gangs = some g' ∧ GwaitEnded (· = w) g g' ∧
       ∀ x ∈ (coreOf t g.core).l1, lineOf x.1 ∉ (coreOf s g.core).pulled)) ∧
  (let entered := fun (g g' : Gang) (l : Launch) (k : Nat) => ∃ e, l.roles[k]? = some e ∧ g'.role = some k ∧ g'.held = e.chunks ∧
     ∀ j f, fibreAt g j = some f → ∃ f', fibreAt g' j = some f' ∧ f'.life = f.life ∧
       (notEnded f = true → f'.pc = (l.pkt.text + e.entry).setWidth 48 ∧ f'.gwait = none)
   (∀ (h : Hd) k (s : State) (g : Gang) l, CanIssue (.role h k) .none s g → gangLaunch s g = some l → acting h s g ≠ 0 → GroupReady s g →
     (∀ j f, fibreAt g j = some f → j < 64 ∧ (notEnded f = true → laneIn (acting h s g) j = true ∧ f.popen = false)) →
     g.ldcnt = 0 → g.stcnt = 0 → g.cpcnt = 0 → g.mtcnt = 0 →
     ∃ (t : State) (g' : Gang), exec (.role h k) s = .next t ∧ t.mem = s.mem ∧ look s.cur.gang t.gangs = some g' ∧ entered g g' l k.val) ∧
   (∀ (h : Hd) k (s : State) (g : Gang), CanIssue (.role h k) .none s g → acting h s g ≠ 0 → GroupReady s g →
     (∀ j f, fibreAt g j = some f → j < 64 ∧ (notEnded f = true → laneIn (acting h s g) j = true ∧ f.popen = false)) →
     g.ldcnt ≠ 0 ∨ g.stcnt ≠ 0 ∨ g.cpcnt ≠ 0 ∨ g.mtcnt ≠ 0 →
     GangWaits (.role h k) s g g (.role k.val) fun t => t.mem = s.mem) ∧
   (∀ (s : State) k (g : Gang) l r, look k s.gangs = some g → Calm g → gangLaunch s g = some l → r < l.roles.length →
     ((gwaitsOf g).find? fun w => g.stop ≠ .saved && waitHolds g w) = some (.role r) →
     (∀ f ∈ g.fibres, notEnded f = true → (f.gwait.map (·.kind)) = some (.role r)) →
     ∃ (t : State) (g' : Gang), exec (.waitComplete k) s = .next t ∧ t.mem = s.mem ∧ look k t.gangs = some g' ∧ entered g g' l r) ∧
   (∀ (h : Hd) a b w (s : State) (g : Gang), CanIssue (.stga h a b) .none s g → acting h s g ≠ 0 → Released h s g .crew →
     phaseWord s (theIss h s g) a b = .ok w → wf 0 (coreOf s g.core).spad = true →
     DidWith (.stga h a b) h s g keep g fun t => t.mem = s.mem ∧
       ∀ x, find 0 x (coreOf t g.core).spad = if x = w then spadByte s g.core w ^^^ 1 else spadByte s g.core x))

/-- R337, R340 to R344: `subs` reads its descriptor, and its group waits for the controller's answer: a handle with a
free slot, 0xFFFFFFFE for a bad descriptor, 0xFFFFFFFF with no slot free; a tile moves when the phase of its slot
allows it and what the core asked of its lines before has been performed, or the stream freezes where its range does
not translate; a moved tile stands in the ring and flips the phase; `unsub` answers how many tiles have moved, after
the tile in motion. The order of the checks of `subs`, the sectors that move with a tile, the slot taken and the
number in a handle are the model's readings of log 50, 51, 83 and 84. -/
def Obligations.Streams : Prop :=
  let waits := fun (i : Instr) (s : State) (g g' : Gang) (w : WaitKind) => ∀ l f, fibreAt g l = some f → fibreAt g' l =
    some (if laneIn s.cur.group l then { past i s g f with wait := some ⟨w, (past i s g f).pc, none⟩, pc := s.cur.pc } else f)
  (∀ (h : Hd) d a ks (s : State) (g : Gang), CanIssue (.subs h d a) .none s g → acting h s g ≠ 0 → Released h s g .clu →
    check s g .glob needR ⟨0, rdUni g h.ext .n64 a, 64, 64⟩ = .ok ks →
    ∃ (t : State) (g' : Gang) (o : MemOp), exec (.subs h d a) s = .next t ∧ t.mem = s.mem ∧ look s.cur.gang t.gangs = some g' ∧
      waits (.subs h d a) s g g' (.subs s.nextId d) ∧ look s.nextId t.ops = some o ∧ o.gang = s.cur.gang ∧ o.sub = some (g.crew, d) ∧
      o.fib = acting h s g ∧ o.parts = (lanesOf (acting h s g)).map fun l => ⟨l, ks⟩) ∧
  (∀ (s : State) id o crew d w p ps (g : Gang), look id s.ops = some o → o.sub = some (crew, d) → o.left = 0 → o.load = true → o.fib ≠ 0 →
    o.parts = p :: ps → look crew s.crews = some w → look o.gang s.gangs = some g → Calm g →
    let sub := readSub crew w.size (leNat (partBytes o p))
    let c := coreOf s w.core
    let v : Dword := match sub, subSlot c with
      | none, _ => 0xFFFFFFFE
      | some _, none => 0xFFFFFFFF
      | some _, some k => num64 (c.subSeq % 2 ^ 28 * 16 + k)
    ∃ g', look o.gang (subsDone id s).gangs = some g' ∧ (subsDone id s).mem = s.mem ∧
      g'.s = (match d with | .s n => put 0 n v g.s | _ => g.s) ∧
      (coreOf (subsDone id s) w.core).subs = (match sub, subSlot c with
        | some u, some k => ins k { u with seq := c.subSeq % 2 ^ 28 } c.subs
        | _, _ => c.subs) ∧
      ∀ l f, l < 64 → fibreAt g l = some f → (f.wait.map (·.kind)) = some (.subs id d) →
        ∃ f', fibreAt g' l = some f' ∧ f'.wait = none ∧ f.wait.map (·.nxt) = some f'.pc) ∧
  (∀ (s : State) (core : Nat) slot u c, look slot (coreOf s core).subs = some u → look u.crew s.crews = some c → u.moving = false → u.frozen = false →
    u.stopping = false → u.next < u.count → crewHalted s u.crew = false →
    (find 0 (c.base + u.phase + 4 * (u.next % u.nslots)) (coreOf s core).spad).getLsbD 0 = u.pull →
    let va := u.mem + num64 u.next * u.stride
    linesUp s (some (dieOf core)) (missLines s core c.ctx ((pieces va.toNat u.tbytes).map (·.1))) = true →
    (∀ ms, va.toNat + u.tbytes ≤ 2 ^ 52 → findMoves s c.ctx (if u.pull then needW else needR)
        (c.base + u.ring + u.next % u.nslots * u.tbytes) (pieces va.toNat u.tbytes) = .ok ms →
      linesUp s (some (dieOf core)) (moveLines ms) = true → linesClear s core s.nextId (moveLines ms).contains = true →
      ∃ (t : State), exec (.subscriptionTile core slot) s = .next t ∧ t.mem = s.mem ∧
        look slot (coreOf t core).subs = some { u with moving := true, pas := ms, src := ms.map (moveSrc s core (!u.pull)), part := [] }) ∧
    (∀ e, va.toNat + u.tbytes ≤ 2 ^ 52 → findMoves s c.ctx (if u.pull then needW else needR)
        (c.base + u.ring + u.next % u.nslots * u.tbytes) (pieces va.toNat u.tbytes) = .error e →
      ∃ (t : State), exec (.subscriptionTile core slot) s = .next t ∧ t.mem = s.mem ∧
        look slot (coreOf t core).subs = some { u with frozen := true } ∧
        t.reports = s.reports ++ [⟨some (.stream core slot), c.ctx, e.1, e.2, []⟩]) ∧
    (2 ^ 52 < va.toNat + u.tbytes →
      ∃ (t : State), exec (.subscriptionTile core slot) s = .next t ∧ t.mem = s.mem ∧
        look slot (coreOf t core).subs = some { u with frozen := true } ∧
        t.reports = s.reports ++ [⟨some (.stream core slot), c.ctx, cause cRANGE, va, []⟩])) ∧
  (∀ (s : State) (core : Nat) slot u c m, look slot (coreOf s core).subs = some u → look u.crew s.crews = some c → u.moving = true → u.stopping = false →
    u.pas = [m] → u.src = [moveSrc s core (!u.pull) m] → u.part = [] → linesUp s (some (dieOf core)) (moveLines u.pas) = true → wf 0 (coreOf s core).spad = true → wf 0 s.mem = true →
    let ph := c.base + u.phase + 4 * (u.next % u.nslots)
    ph < m.scratch ∨ m.scratch + m.n ≤ ph →
    ∃ (t : State), exec (.subscriptionTileComplete core slot) s = .next t ∧
      look slot (coreOf t core).subs = some { u with next := u.next + 1, moving := false, pas := [], src := [], part := [] } ∧
      find 0 ph (coreOf t core).spad = spadByte s core ph ^^^ 1 ∧
      (u.pull = false → t.mem = s.mem ∧ ∀ i, i < m.n → find 0 (m.scratch + i) (coreOf t core).spad = engineByte s (dieOf core) (m.pa + i)) ∧
      (u.pull = true → ∀ i, i < m.n → memByte t (m.pa + i) = spadByte s core (m.scratch + i))) ∧
  (∀ (h : Hd) d a (s : State) (g : Gang), CanIssue (.unsub h d a) .none s g → acting h s g ≠ 0 →
    let v := rdUni g h.ext .n32 a
    let slot := v.toNat % 16
    let live := (look slot (coreOf s g.core).subs).filter fun u => u.crew = g.crew && subHandle slot u.seq = v
    let res : Option Subscription → Dword := fun u => match u with
      | none => 0x200000000
      | some u => num64 (u.next % 2 ^ 32) + if u.frozen then 0x100000000 else 0
    ((∀ u, live = some u → u.moving = false) →
      DidWith (.unsub h d a) h s g keep { g with s := match d with | .s n => put 0 n (res live) g.s | _ => g.s } fun t => t.mem = s.mem ∧
        (coreOf t g.core).subs = (if live.isSome then del slot (coreOf s g.core).subs else (coreOf s g.core).subs) ∧
        (live.isSome = true → ∀ x ∈ (coreOf t g.core).l1, lineOf x.1 ∉ (coreOf s g.core).pulled)) ∧
    ∀ u, live = some u → u.moving = true → ∃ (t : State) (g' : Gang), exec (.unsub h d a) s = .next t ∧ t.mem = s.mem ∧
      look s.cur.gang t.gangs = some g' ∧ waits (.unsub h d a) s g g' (.unsub slot s.nextId d) ∧
      look slot (coreOf t g.core).subs = some { u with stopping := true })

/-! ## The matrix engine -/

/-- R349, R350, R360, R288: `troupe` by a whole gang whose context holds the engine, with a legal mask of its crew, sets
the gang's troupe; `mopf` makes the group wait until the gang's scratch accesses are performed, and then fixes the
crew's region as later operations read it. R349, R351, R356 to R358, R364, R366: an `mma` that passes its checks
waits at the latch for its troupe; the gang that arrives last, with the fields and the values of the others, has the
operation accepted: each gang of the troupe counts it in MTCNT and goes on. `mcont` of a faulted operation resumes
it. What `mopf` fixes is the model's reading of log 53. -/
def Obligations.MatrixRendezvous : Prop :=
  ((∀ (h : Hd) a (s : State) (g : Gang) c, CanIssue (.troupe h a) .none s g → acting h s g ≠ 0 → holdsEngine s g = true →
     (∀ l f, fibreAt g l = some f → l < 64 ∧ (notEnded f = true → laneIn (acting h s g) l = true)) →
     look g.crew s.crews = some c → c.spawned = false →
     let m := rdUni g h.ext .n32 a
     2 ≤ (lanesOf m).length → (lanesOf m).length ≤ 6 → m.getLsbD g.num = true →
     (∀ n, m.getLsbD n = true → n < 16 ∧ n < c.ngangs) →
     DidG (.troupe h a) h s g keep { g with trp := m.setWidth 16 }) ∧
   (∀ (h : Hd) (s : State) (g : Gang), CanIssue (.mopf h) .none s g → acting h s g ≠ 0 → holdsEngine s g = true →
     ∃ (t : State) (g' : Gang), exec (.mopf h) s = .next t ∧ t.mem = s.mem ∧ look s.cur.gang t.gangs = some g' ∧
       ∀ l f, fibreAt g l = some f → fibreAt g' l = some (if laneIn s.cur.group l then
         { past (.mopf h) s g f with wait := some ⟨.mopf s.nextId, (past (.mopf h) s g f).pc, none⟩, pc := s.cur.pc } else f)) ∧
   (∀ (s : State) k (g : Gang) n, look k s.gangs = some g → Calm g → oldestMopf g = some n → g.stop ≠ .saved →
     loadsDone s k (waiting (isMopf n) g) n = true → wf 0 (coreOf s g.core).spad = true →
     ∃ (t : State) (g' : Gang), exec (.mopfComplete k) s = .next t ∧ t.mem = s.mem ∧ look k t.gangs = some g' ∧
       (∀ a, a < scratchSize s g → find 0 a g'.opRows = spadByte s g.core (scratchBase s g + a)) ∧
       ∀ l f, l < 64 → fibreAt g l = some f → (f.wait.map (·.kind)) = some (.mopf n) →
         ∃ f', fibreAt g' l = some f' ∧ f'.wait = none ∧ f.wait.map (·.nxt) = some f'.pc)) ∧
  (let good := fun (h : Hd) (o : Mma) (s : State) (g : Gang) =>
     CanIssue (.mma h o) .mt s g ∧ acting h s g ≠ 0 ∧ holdsEngine s g = true ∧
     (∀ l f, fibreAt g l = some f → l < 64 ∧ (notEnded f = true → laneIn (acting h s g) l = true)) ∧ g.trp ≠ 0 ∧
     let a := rdUni g h.ext .n32 o.a
     let b := rdUni g h.ext .n32 o.b
     let k := rdUni g h.ext .n32 o.c
     k ≠ 0 ∧ k.toNat % 32 = 0 ∧ k.toNat ≤ 65536 ∧ a.toNat % 64 = 0 ∧ b.toNat < 262144 ∧ b.toNat % 64 = 0 ∧
     (getS g o.q).toNat < 2 ^ 52 ∧ (getS g (o.q + 1)).toNat < 2 ^ 52 ∧ (getS g o.q).toNat % 4 = 0 ∧ (getS g (o.q + 1)).toNat % 4 = 0
   let vals := fun (h : Hd) (o : Mma) (g : Gang) =>
     [rdUni g h.ext .n32 o.b, rdUni g h.ext .n32 o.c, getS g o.q, getS g (o.q + 1), getS g (o.q + 2)]
   (∀ (h : Hd) o (s : State) (g : Gang), good h o s g → (∀ e ∈ (mxOf s g.core).latch, e.crew = g.crew → e.mask &&& g.trp = 0) →
     ∃ (t : State) (g' : Gang), exec (.mma h o) s = .next t ∧ t.mem = s.mem ∧ look s.cur.gang t.gangs = some g' ∧ g'.mtcnt = g.mtcnt ∧
       (mxOf t g.core).latch = (mxOf s g.core).latch ++
         [⟨g.crew, g.trp, mmaFields o, vals h o g, [(g.num, (rdUni g h.ext .n32 o.a).toNat)]⟩] ∧
       (mxOf t g.core).queue = (mxOf s g.core).queue ∧
       ∀ l f, fibreAt g l = some f → fibreAt g' l = some (if laneIn s.cur.group l then
         { past (.mma h o) s g f with wait := some ⟨.rendezvous, (past (.mma h o) s g f).pc, none⟩, pc := s.cur.pc } else f)) ∧
   (∀ (h : Hd) o (s : State) (g : Gang) e, good h o s g → e ∈ (mxOf s g.core).latch → e.crew = g.crew → e.mask = g.trp →
     (∀ d ∈ (mxOf s g.core).latch, d.crew = g.crew → d.mask &&& g.trp ≠ 0 → d = e) → e.cmp = mmaFields o → e.vals = vals h o g →
     (∀ n ∈ troupeNums g.trp, n = g.num ∨ ∃ a ∈ e.arrived, a.1 = n) → (s.gangs.map (·.1)).Pairwise (· < ·) →
     gangOfCrew s g.crew g.num = some s.cur.gang → g.trp.getLsbD g.num = true → (∀ x ∈ s.gangs, x.2.fibres.length ≤ 64) →
     ∃ (t : State) (op : MxOp) (c : ContBlock) (x : MmaSide), exec (.mma h o) s = .next t ∧ t.mem = s.mem ∧ (mxOf t g.core).queue = (mxOf s g.core).queue ++ [op] ∧
       op.id = s.nextId ∧ op.ctx = g.ctx ∧ op.crew = g.crew ∧ op.done = false ∧ op.kind = .mma c x ∧ op.owed = x.members ∧
       c.st = 0 ∧ c.tile = o.tile.val ∧ c.z = o.z ∧ c.slab = 0 ∧ c.kb = 0 ∧ c.nslab = (troupeNums g.trp).length ∧
       c.nkb = (rdUni g h.ext .n32 o.c).toNat / 32 ∧ c.boff = (rdUni g h.ext .n32 o.b).toNat ∧ c.mask = g.trp ∧
       c.gsa = getS g o.q ∧ c.gsb = getS g (o.q + 1) ∧ c.seedb = getS g (o.q + 2) ∧
       x.members = (troupeNums g.trp).filterMap (gangOfCrew s g.crew) ∧
       (∀ d ∈ (mxOf t g.core).latch, d ∈ (mxOf s g.core).latch ∧ d ≠ e) ∧
       ∀ n ∈ troupeNums g.trp, ∀ k gk, gangOfCrew s g.crew n = some k → look k s.gangs = some gk →
         ∃ gk', look k t.gangs = some gk' ∧ gk'.mtcnt = gk.mtcnt + 1 ∧
           ∀ l f, fibreAt gk' l = some f → (f.wait.map (·.kind)) ≠ some .rendezvous) ∧
   (∀ (h : Hd) tile (s : State) (g : Gang) o c x, CanIssue (.mcont h tile) .mt s g → acting h s g ≠ 0 → holdsEngine s g = true →
     (∀ l f, fibreAt g l = some f → l < 64 ∧ (notEnded f = true → laneIn (acting h s g) l = true)) →
     contOf s (theIss h s g) tile = some o → o.kind = .mma c x →
     DidWith (.mcont h tile) h s g keep g fun t => t.mem = s.mem ∧
       { o with kind := .mma { c with st := 0 } x } ∈ (mxOf t g.core).queue ∧
       (mxOf t g.core).queue.length = (mxOf s g.core).queue.length))

/-- R44, R358, R359, R362 to R365: each step of the array adds the terms of one k-block to the sixteen rows of a slab, in
f32 pairs of a sum and its compensation; a step whose operands do not pass their checks splits the operation, whose
fault is delivered to the lead gang, whose fibres stand past their fill words; after the last step the counts are
removed. The order in which the counts are removed, the cause of a split operation, and a group scale past the
address space are the model's readings of log 52, 55 and 85. -/
def Obligations.MatrixSteps : Prop :=
  (∀ pair t : Dword, let a := addTerm pair t
    (∃ fl, SumIs f32F .rne (val32 (lo32 pair)) (val32 t) (lo32 a, fl)) ∧
    (isFin (val32 (lo32 a)) = true → ∃ d fl, d.isFin = true ∧ d.q = (val32 (lo32 pair)).q + (val32 t).q - (val32 (lo32 a)).q ∧
      SumIs f32F .rne (val32 (pair >>> 32)) d (a >>> 32, fl)) ∧
    (isFin (val32 (lo32 a)) = false → a >>> 32 = 0)) ∧
  (∀ (xs ys : List FVal) (ba bb : Nat) (ga gb : FVal), (∀ v ∈ xs, v.isFin = true) → (∀ v ∈ ys, v.isFin = true) →
    ∃ (v : FVal) (gs pm : Dword) (f1 f2 f3 : Flags), v.isFin = true ∧ v.q = (List.zipWith (fun x y => x.q * y.q) xs ys).sum ∧
      ProductIs f32F .rne ga gb (gs, f1) ∧ ProductIs f32F .rne (val32 (rne32 v)) (.fin false (ba * bb) (-14)) (pm, f2) ∧
      ProductIs f32F .rne (val32 pm) (val32 gs) (mxTerm xs ys ba bb ga gb, f3)) ∧
  (∀ (s : State) (core : Nat) o c x i, runningOp s core = some o → o.kind = .mma c x → scalesClear s core o c x = true → (stepIn s core o.ctx c x).1 = .ok i →
    wf 0 (mxOf s core).tiles = true →
    (x.started = true ∨ ∀ p ∈ (mxOf s core).queue, ∀ m, p.kind = .move m → p.done = true ∨ m.tile ≠ c.tile) →
    ∃ (t : State), exec (.matrixStep core) s = .next t ∧ t.mem = s.mem ∧ t.gangs = s.gangs ∧
      (∀ r col, r < 16 → col < 64 →
        let key := pairKey c.tile (16 * c.slab + r) col
        find 0 key (mxOf t core).tiles = addTerm (if c.z = true ∧ c.kb = 0 then 0 else find 0 key (mxOf s core).tiles)
          (mxTerm ((i.a[r]?.map fun q => blockVals i.fa 0 q c.kb).getD []) ((i.b[col]?.map fun q => blockVals i.fb c.seedb q c.kb).getD [])
            (scaleOf i.fa ((i.a[r]?.map (·.desc)).getD 0)) (scaleOf i.fb ((i.b[col]?.map (·.desc)).getD 0))
            ((i.ga[r]?).getD (.fin false 1 0)) ((i.gb[col]?).getD (.fin false 1 0)))) ∧
      (∀ k, (∀ r col, r < 16 → col < 64 → k ≠ pairKey c.tile (16 * c.slab + r) col) →
        find 0 k (mxOf t core).tiles = find 0 k (mxOf s core).tiles) ∧
      ∃ p ∈ (mxOf t core).queue, ∃ x', p.id = o.id ∧ p.kind = .mma (advance c) x' ∧ x'.started = true) ∧
  (∀ (s : State) (core : Nat) o c x e, runningOp s core = some o → o.kind = .mma c x → scalesClear s core o c x = true → (stepIn s core o.ctx c x).1 = .error e →
    ∃ (t : State), exec (.matrixStep core) s = .next t ∧ t.mem = s.mem ∧ t.gangs = s.gangs ∧ (mxOf t core).tiles = (mxOf s core).tiles ∧
      ∃ p ∈ (mxOf t core).queue, ∃ x', p.id = o.id ∧ p.kind = .mma { c with st := 2, cause := e.1, taddr := e.2 } x') ∧
  (∀ (s : State) (core : Nat) o, (mxOf s core).queue.find? mmaEnded = some o → ∃ (t : State), exec (.mmaComplete core) s = .next t ∧ t.mem = s.mem ∧
    (mxOf t core).tiles = (mxOf s core).tiles ∧ ∀ k g, k ∈ o.owed → look k s.gangs = some g →
      ((mxOf s core).queue.filter fun p => p.owed.contains k) = [o] →
      (∀ p ∈ (mxOf t core).queue, k ∉ p.owed) ∧ ∃ g', look k t.gangs = some g' ∧ g'.mtcnt = g.mtcnt - 1) ∧
  (∀ (s : State) k (g : Gang) (core : Nat) o c x group pc, let u := settleFills k s
    look k u.gangs = some g → (u.cores.findSome? fun c => (splitOf u c.2.mx.queue k).map fun o => (c.1, o)) = some (core, o) →
    o.kind = .mma c x → g.stop = .running → gangRuns u k g = true → pendDue u k g = false → issueSettled u k g = true →
    faultGroup u k g = some (group, pc) →
    ∃ (t : State) (g' : Gang), exec (.matrixFaultDelivery k) s = .next t ∧ t.mem = s.mem ∧ look k t.gangs = some g' ∧
      ∀ l, l < 64 → laneIn group l = true → FaultRaised g' ⟨l, c.cause, c.taddr, pc⟩)

/-- R362, R368 to R370: `mld`, `mst` and `wbload` that pass their checks are accepted and count in MTCNT; they start once
what their gang loaded before has returned and what their core asked of their lines has been performed, unless their
crew is being stopped; a move of a tile that nothing else is at work on moves each element, S + C being rounded into
f32 or f64; a weight load brings its bytes; the count is removed at the end. Uncovered moves and the translation of a
tile's range are the model's readings of log 53 and 54. -/
def Obligations.TileMoves : Prop :=
  (∀ (s : State) (core : Nat) o, o ∈ (mxOf s core).queue → o.done = false → o.started = false → crewHalted s o.crew = false → loadsDone s o.gang o.act o.id = true →
    linesClear s core o.id (mxLines o.kind).contains = true → (∀ c x, o.kind ≠ .mma c x) →
    ∃ q ∈ (mxOf (startMoves s) core).queue, q.id = o.id ∧ q.kind = o.kind ∧ q.started = true ∧ q.src = mxSrc s core o.kind) ∧
  (∀ (h : Hd) o (s : State) (g : Gang) i load, (i = .mld h o ∧ load = true ∨ i = .mst h o ∧ load = false) → CanIssue i .mt s g → acting h s g ≠ 0 →
    holdsEngine s g = true → (s.cores.map (·.1)).Pairwise (· < ·) →
    let e := tyBytes o.t
    let ea := rdUni g h.ext .n64 o.a + tileOff (theIss h s g) o.b
    let bytes := 1024 * (o.n1.val + 1) * e
    ea.toNat % e = 0 → (o.scratch = true → ea.toNat + bytes ≤ scratchSize s g) →
    (o.scratch = false → ea.toNat < 2 ^ 52 ∧
      linesUp s (some (dieOf g.core)) (missLines s g.core g.ctx ((pieces ea.toNat bytes).map (·.1))) = true ∧
      ∃ ms, findMoves s g.ctx (if load then needR else needW) 0 (pieces ea.toNat bytes) = .ok ms) →
    DidWith i h s g keep { g with mtcnt := g.mtcnt + 1 } fun t => t.mem = s.mem ∧
      ∃ op m, (mxOf t g.core).queue = (mxOf s g.core).queue ++ [op] ∧ op.owed = [s.cur.gang] ∧ op.done = false ∧ op.kind = .move m ∧
        m.load = load ∧ m.part = [] ∧ m.tile = o.tile.val ∧ m.f = o.f.val ∧ m.n = o.n1.val + 1 ∧ m.t = o.t ∧
        (o.scratch = true → m.scratch = some (scratchBase s g + ea.toNat)) ∧
        (o.scratch = false → m.scratch = none ∧
          findMoves s g.ctx (if load then needR else needW) 0 (pieces ea.toNat bytes) = .ok m.pas)) ∧
  (∀ (s : State) (core : Nat) id o m, (mxOf s core).queue.find? (fun o => o.id = id) = some o → o.kind = .move m → moveReady s core o = true →
    m.part = [] → o.src = mxSrc s core o.kind → tilesBefore (mxOf s core) m = [] → wf 0 (mxOf s core).tiles = true → wf 0 (coreOf s core).spad = true → wf 0 s.mem = true →
    (∀ p ∈ (mxOf s core).queue, (∀ m', p.kind = .move m' → p.id = id ∨ p.done = true ∨ m'.tile ≠ m.tile) ∧
      ∀ c x, p.kind = .mma c x → p.done = true ∨ c.tile ≠ m.tile ∨ midRun c x = false) →
    let e := tyBytes m.t
    (m.scratch = none → (m.pas.flatMap fun p => (List.range p.n).map (p.pa + ·)) =
      (List.range (1024 * m.n)).flatMap fun i => (List.range e).map (moveByte m (e * i) + ·)) →
    ∃ (t : State), exec (.tileMoveComplete core id) s = .next t ∧
      (m.load = true → t.mem = s.mem ∧ (coreOf t core).spad = (coreOf s core).spad ∧ ∀ i, i < 1024 * m.n →
        find 0 (pairKey m.tile (16 * m.f + i / 64) (i % 64)) (mxOf t core).tiles = pairIn m.t (num64 (leNat
          (if m.scratch.isSome then spadRun s core (moveByte m (e * i)) e else memRun s (dieOf core) (moveByte m (e * i)) e)))) ∧
      (m.load = false → (mxOf t core).tiles = (mxOf s core).tiles ∧
        let out := fun i => leBytes e (pairOut m.t (find 0 (pairKey m.tile (16 * m.f + i / 64) (i % 64)) (mxOf s core).tiles)).toNat
        (m.scratch.isSome = true → t.mem = s.mem ∧ ∀ i j, i < 1024 * m.n → j < e →
          (out i)[j]? = some (spadByte t core (moveByte m (e * i) + j))) ∧
        (m.scratch = none → (coreOf t core).spad = (coreOf s core).spad ∧
          (((List.range (1024 * m.n)).flatMap fun i => (List.range e).map (moveByte m (e * i) + ·)).Nodup →
            ∀ i j, i < 1024 * m.n → j < e → (out i)[j]? = some (memByte t (moveByte m (e * i) + j))))) ∧
      ∀ k g, o.owed = [k] → look k s.gangs = some g → ((mxOf s core).queue.filter fun p => p.owed.contains k) = [o] →
        ∃ g', look k t.gangs = some g' ∧ g'.mtcnt = g.mtcnt - 1) ∧
  (∀ p : Dword, (∃ fl, SumIs f32F .rne (val32 (lo32 p)) (val32 (p >>> 32)) (pairOut .f32 p, fl)) ∧
    (∃ fl, SumIs f64F .rne (val32 (lo32 p)) (val32 (p >>> 32)) (pairOut .f64 p, fl)) ∧ pairOut .b64 p = p ∧ pairIn .b64 p = p ∧
    pairIn .f32 p = lo32 p) ∧
  (∀ (h : Hd) a b c (s : State) (g : Gang), CanIssue (.wbload h a b c) .mt s g → acting h s g ≠ 0 → holdsEngine s g = true →
    (s.cores.map (·.1)).Pairwise (· < ·) →
    let off := rdUni g h.ext .n32 a
    let va := rdUni g h.ext .n64 b
    let len := (rdUni g h.ext .n32 c).toNat
    len ≠ 0 → off.toNat + len ≤ 262144 → va.toNat < 2 ^ 52 → off.toNat % 64 = 0 → va.toNat % 64 = 0 → len % 64 = 0 →
    linesUp s (some (dieOf g.core)) (missLines s g.core g.ctx ((pieces va.toNat len).map (·.1))) = true →
    ∀ ms, findMoves s g.ctx needR off.toNat (pieces va.toNat len) = .ok ms →
    DidWith (.wbload h a b c) h s g keep { g with mtcnt := g.mtcnt + 1 } fun t => t.mem = s.mem ∧
      ∃ op, (mxOf t g.core).queue = (mxOf s g.core).queue ++ [op] ∧ op.owed = [s.cur.gang] ∧ op.done = false ∧
        op.kind = .wbload off.toNat ms []) ∧
  (∀ (s : State) (core : Nat) id o off ms, (mxOf s core).queue.find? (fun o => o.id = id) = some o → o.kind = .wbload off ms [] →
    moveReady s core o = true → o.src = mxSrc s core o.kind → wf 0 (mxOf s core).wbuf = true →
    (ms.Pairwise fun m n => m.scratch + m.n ≤ n.scratch ∨ n.scratch + n.n ≤ m.scratch) →
    ∃ (t : State), exec (.wbloadComplete core id) s = .next t ∧ t.mem = s.mem ∧ (mxOf t core).tiles = (mxOf s core).tiles ∧
      (∀ m ∈ ms, ∀ i, i < m.n → find 0 (m.scratch + i) (mxOf t core).wbuf = engineByte s (dieOf core) (m.pa + i)) ∧
      ∀ a, (∀ m ∈ ms, a < m.scratch ∨ m.scratch + m.n ≤ a) → find 0 a (mxOf t core).wbuf = find 0 a (mxOf s core).wbuf)

/-! ## Collectives -/

/-- R372, R373, R376: `cgrp` with a bad mask answers 0xFFFFFFFE; where no slot is free, or the tag is held, 0xFFFFFFFF;
else the crew joins the group of its mask and tag under a handle of the cluster's join sequence and the slot; groups
that its join contradicts are dissolved. `cgrp.free` dissolves the group of a handle, and what is pending there ends
with status 2. The order of the checks is the model's reading of log 56. -/
def Obligations.GroupsFormAndDissolve : Prop :=
  (∀ (h : Hd) d a b (s : State) (g : Gang), CanIssue (.cgrp h d a b) .none s g → acting h s g ≠ 0 →
    (s.groups.map (·.1)).Pairwise (· < ·) → (∀ x ∈ s.groups, x.1 < s.nextId) →
    let mask := rdUni g h.ext .n64 a
    let tag : Word := (rdUni g h.ext .n32 b).setWidth 32
    let cl := clusterOf g.core
    let ok := groupMaskOk s g.ctx cl mask = true
    let clash := clashing s g.ctx cl (mask.setWidth 48) tag
    let answers := fun (v : Dword) => DidG (.cgrp h d a b) h s g keep { g with s := match d with | .s n => put 0 n v g.s | _ => g.s }
    (¬ ok → answers 0xFFFFFFFE) ∧
    (ok → clash = [] → (freeUnit s cl = none ∨ tagHeld s g.ctx cl tag = true) → answers 0xFFFFFFFF) ∧
    (∀ slot, ok → clash = [] → freeUnit s cl = some slot → tagHeld s g.ctx cl tag = false →
      let handle := BitVec.ofNat 32 (joinSeq s cl % 2 ^ 29 * 8 + slot)
      DidWith (.cgrp h d a b) h s g keep { g with s := match d with | .s n => put 0 n (handle.setWidth 64) g.s | _ => g.s } fun t =>
        t.mem = s.mem ∧ joinSeq t cl = joinSeq s cl + 1 ∧ ∃ (k : Nat) (gr : Group), look k t.groups = some gr ∧ gr.ctx = g.ctx ∧ gr.tag = tag ∧
          gr.mask = mask.setWidth 48 ∧ gr.dissolved = false ∧ (⟨cl, g.crew, handle, 0⟩ : Member) ∈ gr.members) ∧
    (ok → ∃ (t : State), exec (.cgrp h d a b) s = .next t ∧ t.mem = s.mem ∧
      ∀ k ∈ clash, ∀ gr, look k t.groups = some gr → gr.dissolved = true ∧ gr.reqs = [])) ∧
  (∀ (h : Hd) b (s : State) (g : Gang), CanIssue (.cgrpFree h b) .none s g → acting h s g ≠ 0 →
    let held := heldGroup s g.crew ((rdUni g h.ext .n32 b).setWidth 32)
    (held = none → DidG (.cgrpFree h b) h s g keep g) ∧
    (∀ (k : Nat) (m : Member) (gr : Group), held = some (k, m) → look k s.groups = some gr → ∃ (t : State) (gr' : Group), exec (.cgrpFree h b) s = .next t ∧ t.mem = s.mem ∧
      look k t.groups = some gr' ∧ gr'.dissolved = true ∧ gr'.reqs = [] ∧ ∀ r ∈ gr.reqs, (r.cluster, r.k, 2) ∈ gr'.status))

/-- R375, R377, R381: a data collective that passes its checks issues its member's next request and answers its ticket;
`cbar` makes the gang wait for its own request; `cwait` answers the status of a finished request, or 4 for a ticket
of none, and makes the gang wait for one that is not over. R378 to R381: a request starts once what its gang issued
before has been performed; when every member of a formed group has issued request k and they have started, it is
performed: requests that differ end with status 1 and move nothing; a barrier ends with status 0, and each member's
core has acquired at device scope; else every member receives, in rank order, the members' blocks, its own block of
each, or their combination; no memory changes, and the gangs that wait for it go on. What overlapping or changed
buffers give is the free choice of log 57. -/
def Obligations.Collectives : Prop :=
  ((∀ (h : Hd) (s : State) (g : Gang) (i : Instr) (kind : Nat) (t : Ty) (d a b : Opnd), ((i = .cag h t d a b ∧ kind = 0) ∨ (i = .ca2a h t d a b ∧ kind = 2) ∨
       (∃ o : Comb, i = .crs h o b ∧ kind = 1 ∧ t = o.t ∧ d = o.d ∧ a = o.a)) → CanIssue i .none s g → acting h s g ≠ 0 →
     let handle := rdUni g h.ext .n32 a
     let w := rdUni g h.ext .n64 b
     let e := tyBytes t
     let cnt := w.toNat / 2 ^ 36 % 2 ^ 17
     let src := w.toNat % 2 ^ 18
     let dst := w.toNat / 2 ^ 18 % 2 ^ 18
     w.toNat < 2 ^ 53 → 1 ≤ cnt → cnt ≤ 65536 →
     ∀ (grp : Nat) (mem : Member) (gr : Group), heldGroup s g.crew (handle.setWidth 32) = some (grp, mem) → look grp s.groups = some gr →
     let m := (lanesOf (gr.mask.setWidth 64)).length
     let srcLen := if kind = 0 then cnt * e else m * (cnt * e)
     let dstLen := if kind = 1 then cnt * e else m * (cnt * e)
     src + srcLen ≤ scratchSize s g → dst + dstLen ≤ scratchSize s g → src % e = 0 → dst % e = 0 →
     DidWith i h s g keep { g with s := match d with | .s n => put 0 n (num64 mem.next <<< 32 ||| handle) g.s | _ => g.s } fun u =>
       u.mem = s.mem ∧ ∃ gr' : Group, look grp u.groups = some gr' ∧ (∀ q ∈ gr'.members, q.cluster = mem.cluster →
           ∃ q0 ∈ gr.members, q0.crew = q.crew ∧ q.next = q0.next + 1) ∧
         (gr.dissolved = true → gr'.reqs = gr.reqs ∧ gr'.status = gr.status ++ [(mem.cluster, mem.next, 2)]) ∧
         (gr.dissolved = false → gr'.status = gr.status ∧ ∃ r : CReq, gr'.reqs = gr.reqs ++ [r] ∧ r.k = mem.next ∧ r.gang = s.cur.gang ∧
           r.core = g.core ∧ r.crew = g.crew ∧ r.cluster = mem.cluster ∧ r.op = kind ∧ r.ty = t ∧ r.cnt = cnt ∧ r.src = src ∧ r.dst = dst ∧
           r.srcLen = srcLen ∧ r.dstLen = dstLen ∧ r.started = false ∧ r.hits = [])) ∧
   (∀ (h : Hd) d a (s : State) (g : Gang), CanIssue (.cbar h d a) .none s g → acting h s g ≠ 0 →
     let held := heldGroup s g.crew ((rdUni g h.ext .n32 a).setWidth 32)
     (held = none → DidG (.cbar h d a) h s g keep { g with s := match d with | .s n => put 0 n 4 g.s | _ => g.s }) ∧
     (∀ (grp : Nat) (mem : Member) (gr : Group), held = some (grp, mem) → look grp s.groups = some gr → gr.dissolved = false →
       statusAt s grp (clusterOf g.core) mem.next = none → (∀ x ∈ s.gangs, ∀ w ∈ gwaitsOf x.2, collDone s x.2 w = none) →
       GangWaits (.cbar h d a) s g g (.cbar grp mem.next d) fun t => t.mem = s.mem ∧ (coreOf t g.core).uo = [] ∧
         ∃ (gr' : Group) (r : CReq), look grp t.groups = some gr' ∧ gr'.reqs = gr.reqs ++ [r] ∧ r.op = 3 ∧ r.k = mem.next ∧ r.gang = s.cur.gang ∧
           r.cluster = mem.cluster)) ∧
   (∀ (h : Hd) d a (s : State) (g : Gang), CanIssue (.cwait h d a) .none s g → acting h s g ≠ 0 →
     let t := rdUni g h.ext .n64 a
     let held := heldGroup s g.crew (t.setWidth 32)
     let answers := fun (v : Dword) => DidG (.cwait h d a) h s g keep { g with s := match d with | .s n => put 0 n v g.s | _ => g.s }
     (held = none → answers 4) ∧
     (∀ (grp : Nat) (mem : Member), held = some (grp, mem) → mem.next ≤ t.toNat / 2 ^ 32 → answers 4) ∧
     (∀ (grp : Nat) (mem : Member) (st : Nat), held = some (grp, mem) → t.toNat / 2 ^ 32 < mem.next →
       statusAt s grp mem.cluster (t.toNat / 2 ^ 32) = some st → answers (num64 st)) ∧
     (∀ (grp : Nat) (mem : Member), held = some (grp, mem) → t.toNat / 2 ^ 32 < mem.next → statusAt s grp mem.cluster (t.toNat / 2 ^ 32) = none →
       GangWaits (.cwait h d a) s g g (.cwait t d) fun t => t.mem = s.mem))) ∧
  ((∀ (s : State) (grp : Nat) (gr : Group) (r : CReq), look grp s.groups = some gr → r ∈ gr.reqs → r.started = false → reqReady s r = true →
     ∃ gr', look grp (startColls s).groups = some gr' ∧
       { r with started := true, srcOld := spadRun s r.core (reqBase s r + r.src) r.srcLen } ∈ gr'.reqs) ∧
   ∀ (s : State) (grp k : Nat) (gr : Group) (r : CReq) (rs : List CReq), collReady s grp k = true → look grp s.groups = some gr → reqsOf gr k = r :: rs →
     ∃ (t : State) (gr' : Group), exec (.collectivePerform grp k) s = .next t ∧ t.mem = s.mem ∧ look grp t.groups = some gr' ∧ (∀ q ∈ gr'.reqs, q.k ≠ k) ∧
       (∀ q ∈ r :: rs, (q.cluster, k, if rs.all (sameReq r) then 0 else 1) ∈ gr'.status) ∧
       (∀ kg gg w d, (s.gangs.map (·.1)).Pairwise (· < ·) → look kg s.gangs = some gg → w ∈ gwaitsOf gg →
         collOf s gg w = some (grp, k, d) → (∃ q ∈ r :: rs, q.cluster = clusterOf gg.core) →
         statusAt s grp (clusterOf gg.core) k = none → ∃ gg', look kg t.gangs = some gg' ∧ w ∉ gwaitsOf gg') ∧
       (rs.all (sameReq r) = false → ∀ c, (coreOf t c).spad = (coreOf s c).spad) ∧
       (rs.all (sameReq r) = true → r.op = 3 → ∀ q ∈ r :: rs, (coreOf t q.core).l1 = [] ∧ rdcOf t (dieOf q.core) = []) ∧
       (rs.all (sameReq r) = true → r.op ≠ 3 → ((r :: rs).map (·.core)).Nodup →
         (∀ q ∈ r :: rs, (q.src + q.srcLen ≤ q.dst ∨ q.dst + q.dstLen ≤ q.src) ∧ q.hits = [] ∧ wf 0 (coreOf s q.core).spad = true ∧
           spadRun s q.core (reqBase s q + q.src) q.srcLen = q.srcOld) →
         ∀ (j : Nat) q, (r :: rs)[j]? = some q →
           let e := tyBytes r.ty
           let n := r.cnt * e
           let bufs := (r :: rs).map (·.srcOld)
           let got : List Byte :=
             if r.op = 0 then bufs.flatMap (·.take n)
             else if r.op = 2 then bufs.flatMap fun b => (b.drop (n * j)).take n
             else (List.range r.cnt).flatMap fun x =>
               let els := bufs.map fun b => num64 (leNat ((b.drop (n * j + e * x)).take e))
               leBytes e (match els with
                 | [] => 0
                 | y :: ys => ys.foldl (fun acc z => (combStep ⟨r.ty, r.red, r.rm, r.sat, .ic 32, .ic 32⟩ acc z).1) y).toNat
           (∀ (i : Nat) b, got[i]? = some b → spadByte t q.core (reqBase s q + q.dst + i) = b) ∧
           ∀ a, (a < reqBase s q + q.dst ∨ reqBase s q + q.dst + got.length ≤ a) → spadByte t q.core a = spadByte s q.core a))

/-! ## Checkpoints, counters, samples, breakpoints, the replay log -/

/-- R434, R446, R450: `ckpt` ends the gang's interval, opens the next one and answers its number; `ckpt.hold` does so
after a device-scope release, and the gang waits until it is resumed, when it acquires at device scope; while its
work is drained (R400) its image is kept as it then stands. R439 to R444: `perf.sel` and `perf.smp` of a context that
holds its core's counters set an event or the sampling word and answer the old one; a grant gives a core's counters,
clear, to a context, and no record of an instruction under way goes into the new ring; a stall sample that is due is
written in the ring, or counted as dropped where the ring is full. The events of a cycle enter the counters as it
ends, modulo 2^48 with a sticky overflow; a counter written in the cycle then holds what was written. R436, R449:
Zalner writes an entry of a context's breakpoint table, and empties its replay log between replay launches. The order
of the checks and the instant of a count, the image of `ckpt.hold`, the unused tag and a free stall reason are the
model's readings of log 58 to 60 and 86. -/
def Obligations.DebugUnit : Prop :=
  (let opened := fun (h : Hd) (d : Opnd) (s : State) (g : Gang) =>
     ({ g with interval := g.interval + 1, intervalOrd := if h.stop then ordinalAt s g s.cur.pc else BitVec.allOnes 32, logged := []
               s := match d with | .s n => put 0 n ((g.interval + 1).setWidth 64) g.s | _ => g.s } : Gang)
   (∀ h d a s g, CanIssue (.ckpt h d a) .none s g → acting h s g ≠ 0 → DidG (.ckpt h d a) h s g keep (opened h d s g)) ∧
   (∀ h d a s g, CanIssue (.ckptHold h d a) .none s g → acting h s g ≠ 0 → Released h s g .dev →
     GangWaits (.ckptHold h d a) s g (opened h d s g) .ckptHold fun t => t.mem = s.mem ∧
       ∀ c, look g.crew s.crews = some c → g.stop ≠ .saved → drained s s.cur.gang g = true →
         (∃ l f, l < 64 ∧ fibreAt g l = some f ∧ f.life = .live) → ∃ im, look s.cur.gang t.ckpts = some im ∧ im.crew = c ∧ im.gang.interval = g.interval + 1) ∧
   (∀ s k g c, look k s.gangs = some g → look g.crew s.crews = some c → Calm g → .ckptHold ∈ gwaitsOf g →
     loadsDone s k allLanes s.nextId = true → g.stop ≠ .saved →
     ∃ t g', exec (.ckptResume k) s = .next t ∧ t.mem = s.mem ∧ look k t.gangs = some g' ∧ GwaitEnded (· = .ckptHold) g g' ∧
       (coreOf t g.core).l1 = [] ∧ rdcOf t (dieOf g.core) = [] ∧
       (drained s k g = true → ∃ im, look k t.ckpts = some im ∧ im.gang = g ∧ im.crew = c ∧ im.taken = s.seq ∧
         ∀ a, c.base ≤ a → a < c.base + c.size → wf 0 (coreOf s g.core).spad = true → find 0 a im.bytes = spadByte s g.core a) ∧
       (drained s k g = false → look k t.ckpts = look k s.ckpts))) ∧
  ((∀ h d a k s g, CanIssue (.perfSel h d a k) .none s g → acting h s g ≠ 0 → holdsPerf s g = true →
     let v := rdUni g h.ext .n32 a
     v.toNat ≤ 0x1D → v.toNat ≠ 0x0F →
     let old := (find 0 k.val (coreOf s g.core).perf.sel).setWidth 64
     DidWith (.perfSel h d a k) h s g keep { g with s := match d with | .s n => put 0 n old g.s | _ => g.s } fun t =>
       t.mem = s.mem ∧ (coreOf t g.core).perf.sel = put 0 k.val (v.setWidth 8) (coreOf s g.core).perf.sel ∧
       ∀ c, c ≠ g.core → coreOf t c = coreOf s c) ∧
   (∀ h d a s g, CanIssue (.perfSmp h d a) .none s g → acting h s g ≠ 0 → holdsPerf s g = true →
     let v := rdUni g h.ext .n32 a
     v.toNat < 2 ^ 18 →
     let old := (coreOf s g.core).perf.smp.setWidth 64
     DidWith (.perfSmp h d a) h s g keep { g with s := match d with | .s n => put 0 n old g.s | _ => g.s } fun t =>
       t.mem = s.mem ∧ (coreOf t g.core).perf.smp = v.setWidth 18 ∧ ∀ c, c ≠ g.core → coreOf t c = coreOf s c) ∧
   (∀ s core ctx ring size, core < coreCount → (∀ c, ctx = some c → (look c s.ctxs).isSome = true) →
     ∃ t, exec (.counterGrant core ctx ring size) s = .next t ∧ t.mem = s.mem ∧ t.gangs = s.gangs ∧
       coreOf t core = { coreOf s core with perf := { Perf.reset with owner := ctx, ring := ring, size := size } } ∧
       (∀ q ∈ t.ops, q.2.core = core → q.2.smp = none) ∧ ∀ c, c ≠ core → coreOf t c = coreOf s c) ∧
   (∀ s core ctx k g, let p := (coreOf s core).perf
     p.owner = some ctx → smpOn p = true → smpStall p = true → p.nextAt.toNat ≤ s.clk.toNat → sampleTurn s core ctx = some (k, g) →
     ∃ t, exec (.stallSample core) s = .next t ∧ t.gangs = s.gangs ∧
       let p' := (coreOf t core).perf
       p'.nextAt = p.nextAt + num64 (Nat.max 1 (smpPeriod p)) ∧ p'.cursor = placeOf g + 1 ∧
       (p.fill + 64 ≤ p.size → p'.fill = p.fill + 64 ∧ (wf 0 s.mem = true →
         (∀ i, i < 64 → (sampleRec ⟨core, sampleBase s g 2 (stallReason s k g) 0 0 0 g.lord, 0, 0, 0, 0, 0, 0⟩)[i]? = some (memByte t (p.ring + p.fill + i))) ∧
         ∀ a, (a < p.ring + p.fill ∨ p.ring + p.fill + 64 ≤ a) → memByte t a = memByte s a)) ∧
       (p.size < p.fill + 64 → p'.fill = p.fill ∧ t.mem = s.mem ∧
         ∀ j, j < 16 → find 0 j p.sel = 0x0E → look j p.wrote = none → wf 0 p.now = true → find 0 j p'.now = find 0 j p.now + 1)) ∧
   ∀ p : Perf, wf 0 p.ctr = true → wf 0 p.now = true → (p.wrote.map (·.1)).Pairwise (· < ·) →
     p.endCycle.now = [] ∧ p.endCycle.wrote = [] ∧ ∀ j, let n := find 0 j p.now
     (∀ v, look j p.wrote = some v → find 0 j p.endCycle.ctr = v) ∧
     (look j p.wrote = none → n = 0 → find 0 j p.endCycle.ctr = find 0 j p.ctr) ∧
     (look j p.wrote = none → n ≠ 0 → low 48 (find 0 j p.endCycle.ctr) = (low 48 (find 0 j p.ctr) + n) % 2 ^ 48 ∧
       ((find 0 j p.endCycle.ctr).getLsbD 63 = true ↔ (find 0 j p.ctr).getLsbD 63 = true ∨ 2 ^ 48 ≤ low 48 (find 0 j p.ctr) + n))) ∧
  ((∀ s ctx c idx hdr ord en, look ctx s.ctxs = some c → ∃ t c', exec (.breakpointTableWrite ctx idx hdr ord en) s = .next t ∧
     t = { s with ctxs := t.ctxs } ∧ look ctx t.ctxs = some c' ∧ c' = { c with breaks := c'.breaks } ∧
     (idx.val < c.breaks.length → c'.breaks[idx.val]? = some ⟨hdr, ord, en⟩) ∧ ∀ j, j ≠ idx.val → c'.breaks[j]? = c.breaks[j]?) ∧
   (∀ s ctx c l, look ctx s.ctxs = some c → c.log = some l → (∀ x ∈ c.launches, x.2.pkt.replay = false) →
     ∃ t, exec (.emptyReplayLog ctx) s = .next t ∧ t = { s with ctxs := t.ctxs } ∧
       look ctx t.ctxs = some { c with log := some { l with fill := 0, closed := false } }))

/-! ## Queues and connections -/

/-- R178, R180, R184, R429: a mapped queue whose entry is awaited, the lines of which can be reached (R411, R417),
fetches the packet at RDPTR, consuming the wakes that have come; one that fails its checks is rejected at once and
its error word written; a checked one takes the lowest free slot, behind the queue's previous launch. R407 to R409,
R426, R428, R429: a write to a queue's wake register is a wake, and so is one that raises the value at WADDR to WVAL;
a wake of a mapped queue is held by its slot, and one that comes while the queue is being unmapped or is not mapped
sets PENDWAKE; unmapping takes four steps: UNMAPPING is set, fetching stops, the slot's state is written back, MAPPED
and UNMAPPING are cleared and a wake still held becomes PENDWAKE; then a PENDWAKE that is found set is cleared, and
the queue is runnable; a descriptor that keeps its limits can be mapped, in the order of the run tree, and its
PENDWAKE is a wake that the slot holds. Addresses of queues and the order of unmapping are the model's readings of
log 63 and 64. -/
def Obligations.Queues : Prop :=
  ((∀ (s : State) (q : Nat) (u : Queue) (i : Nat), look q s.queues = some u → u.mapped = true → u.step < 2 → u.fetched = none →
     queueNat s u.ctx u.wake 4 = some i → i ≠ u.rdptr.toNat →
     (u.waddr = 0 ∨ ∃ v, queueNat s u.ctx u.waddr 8 = some v ∧ u.wval.toNat ≤ v) → linesUp s none (fetchLines s u) = true →
     let z := if u.step = 0 then stateBits u 0 bPendWake s else s
     let u' := { u with rdptr := u.rdptr + 1, held := if u.step = 0 then false else u.held }
     let entry := queueNat z u.ctx (u.ring + num64 (128 * (u.rdptr.toNat % u.nent))) 128
     ∃ t : State, exec (.queueFetch q) s = .next t ∧ t.gangs = s.gangs ∧ t.ctxs = s.ctxs ∧
       (∀ (n : Nat) (a : Accepted), entry = some n → checkPacket z u.ctx (readPacket n) = some a →
         (∃ p, look q t.queues = some { u' with fetched := some (a.launch, a.incs), poked := p }) ∧ t.mem = z.mem) ∧
       ((entry = none ∨ ∃ n, entry = some n ∧ checkPacket z u.ctx (readPacket n) = none) → (∃ p, look q t.queues = some { u' with poked := p }) ∧
         t.mem = if u.erraddr = 0 then z.mem else (queuePut u.ctx u.erraddr 8 (u.rdptr.toNat * 2 ^ 32 + 1) z).mem)) ∧
   (∀ (s : State) (q : Nat) (u : Queue) (l : Launch) (incs : List (Nat × Inc)) (c : Ctx) (k : Nat), look q s.queues = some u →
     u.fetched = some (l, incs) → look u.ctx s.ctxs = some c → freeSlot c = some k →
     linesUp s none (launchLines s u.ctx l.pkt) = true →
     ∃ t : State, exec (.launchAcceptance q) s = .next t ∧ t.gangs = s.gangs ∧ (l.sym = none → t.mem = s.mem) ∧
       (∃ p, look q t.queues = some { u with fetched := none, prev := some s.nextId, poked := p }) ∧
       launchOf t u.ctx k = some { l with uid := s.nextId, after := u.prev, byLaunch := false, queue := some q })) ∧
  ((∀ (s : State) (unit : Nat) (bs : List (Nat × Byte)) (q : Nat) (u : Queue) (a : Nat), look q s.queues = some u →
     (translateNow s u.ctx needNone u.wake.toNat = .pa a ∧ (∃ x ∈ bs, a ≤ x.1 ∧ x.1 < a + 8) ∨
       u.waddr ≠ 0 ∧ translateNow s u.ctx needNone u.waddr.toNat = .pa a ∧ memNat s a 8 < u.wval.toNat ∧
         u.wval.toNat ≤ memNat (writeHome unit bs s) a 8) →
     look q (writeHome unit bs s).queues = some { u with poked := true }) ∧
   (∀ (s : State) (q : Nat) (u : Queue), look q s.queues = some u → u.poked = true → linesUp s none (descLines s u) = true →
     ∃ t : State, exec (.queueWake q) s = .next t ∧
       look q t.queues = some { u with poked := false, held := u.held || u.mapped
                                       runnable := u.runnable || (!u.mapped && decide (u.step = 0)) } ∧
       (u.mapped = true → u.step = 0 → t.mem = s.mem) ∧
       (u.mapped = false ∨ u.step ≠ 0 → t.mem = (stateBits u bPendWake 0 s).mem)) ∧
   (∀ (s : State) (q : Nat) (u : Queue), look q s.queues = some u → u.mapped = true → linesUp s none (descLines s u) = true →
     (u.step = 2 → u.fetched = none) → ∃ (t : State) (p : Bool), exec (.queueUnmap q) s = .next t ∧
       (u.step = 0 → look q t.queues = some { u with step := 1, poked := p } ∧ t.mem = (stateBits u bUnmapping 0 s).mem) ∧
       (u.step = 1 → look q t.queues = some { u with step := 2 } ∧ t.mem = s.mem) ∧
       (u.step = 2 → look q t.queues = some { u with step := 3, poked := p } ∧
         t.mem = (queuePut u.ctx (u.desc + 24) 8 u.wval.toNat (queuePut u.ctx (u.desc + 16) 8 u.waddr.toNat
           (queuePut u.ctx (u.desc + 12) 4 u.rdptr.toNat s))).mem) ∧
       (3 ≤ u.step → look q t.queues = some { u with mapped := false, step := 4, held := false, poked := p } ∧
         t.mem = (stateBits u (if u.held then bPendWake else 0) (bMapped + bUnmapping) s).mem)) ∧
   (∀ (s : State) (q : Nat) (u : Queue), look q s.queues = some u → u.mapped = false → u.step = 4 → linesUp s none (descLines s u) = true →
     let set := (stateWord s u).testBit 2
     ∃ (t : State) (p : Bool), exec (.queueUnmap q) s = .next t ∧
       look q t.queues = some { u with step := 0, runnable := set, poked := p } ∧
       t.mem = if set then (stateBits u 0 bPendWake s).mem else s.mem) ∧
   (∀ (s : State) (q ctx : Nat) (desc : Dword) (weight n : Nat) (c : Ctx), look ctx s.ctxs = some c →
     queueNat s ctx desc 64 = some n → descOk n = true → 1 ≤ weight → weight ≤ 1024 → look q s.queues = none →
     admitted s q ctx = true → linesUp s none (rangeLines s ctx (desc.toNat, 64)) = true →
     ∃ (t : State) (u : Queue), exec (.queueMap q ctx desc weight) s = .next t ∧ look q t.queues = some u ∧ u.ctx = ctx ∧ u.desc = desc ∧
       u.mapped = true ∧ u.step = 0 ∧ u.held = (field n 448 32).testBit 2 ∧ u.fetched = none ∧ u.ring = num64 (field n 0 64) ∧
       u.nent = field n 64 32 ∧ u.rdptr = BitVec.ofNat 32 (field n 96 32) ∧ u.waddr = num64 (field n 128 64) ∧
       u.wval = num64 (field n 192 64) ∧ u.tol = field n 256 32 ∧ u.wake = num64 (field n 320 64) ∧
       u.erraddr = num64 (field n 384 64) ∧
       t.mem = (stateBits u bMapped 0 s).mem ∧ (look (leafNode q) t.runTree).map (·.weight) = some weight))

/-- R393, R407, R430, R431: on an open connection, an RDMA write whose bytes lie in its windows and translate is
performed at the homes, as far as these can be reached (R411, R417; else it stays first), and wakes the queues whose
wake register it writes; a read returns the homes' bytes, once the update-only lines are merged; an operation that
fails freezes the connection, stays first in its order and is reported, and so does a send to a byte of the ring with
no translation (a design choice, assumption 87); a send fills the posted ring, around its end, or is refused with a
NAK, as every unsupported operation is; a frozen connection keeps what is posted, in order. R411, R432: a flit that
is sent again changes no value; a link that fails is reported, and one that recovers carries again; a PTP message is
stamped with the PTP time and sets it, and not CLK, once the module is booted; between messages that time runs on, 10
ns in 7 cycles (a design choice, assumption 90). That an operation performs whole, and the form of a link's report,
are the model's readings of log 65 and 67. -/
def Obligations.RdmaAndLinks : Prop :=
  (let live := fun (s : State) (k : Nat) (c : Conn) (op : Instr) =>
     look k s.conns = some c ∧ c.closed = false ∧ c.frozen = false ∧ linesUp s none (opLines s c op) = true
   let froze := fun (s t : State) (k : Nat) (c : Conn) (op : Instr) (e : Word × Dword) =>
     look k t.conns = some { c with frozen := true, queued := op :: c.queued } ∧ t.mem = s.mem ∧
       t.reports = s.reports ++ [⟨some (.conn k), c.ctx, e.1, e.2, []⟩]
   (∀ (s : State) (c : Conn) (w : Bool) (vas as : List Nat), rdmaWalk s c w vas = .ok as ↔ as.length = vas.length ∧
     ∀ (i va a : Nat), vas[i]? = some va → as[i]? = some a →
       (∃ x ∈ c.windows, x.base ≤ va ∧ va < x.base + x.size ∧ (if w then x.w else x.r) = true) ∧
         reach s c.ctx (if w then needW else needR) va = .pa a) ∧
   (∀ (s : State) (k : Nat) (c : Conn) (va : Dword) (data : List Byte) (as : List Nat), live s k c (.rdmaWrite k va data) →
     rdmaWalk s c true ((List.range data.length).map (va.toNat + ·)) = .ok as → as.Nodup → wf 0 s.mem = true →
     ∃ t : State, exec (.rdmaWrite k va data) s = .next t ∧ t.gangs = s.gangs ∧ t.conns = s.conns ∧
       (∀ (i a : Nat), as[i]? = some a → data[i]? = some (memByte t a)) ∧ (∀ a : Nat, a ∉ as → memByte t a = memByte s a) ∧
       ∀ (q : Nat) (u : Queue) (a : Nat), look q s.queues = some u → translateNow s u.ctx needNone u.wake.toNat = .pa a →
         (∃ x ∈ as, a ≤ x ∧ x < a + 8) → look q t.queues = some { u with poked := true }) ∧
   (∀ (s : State) (k : Nat) (c : Conn) (va : Dword) (data : List Byte) (e : Word × Dword), live s k c (.rdmaWrite k va data) →
     rdmaWalk s c true ((List.range data.length).map (va.toNat + ·)) = .error e →
     ∃ t : State, exec (.rdmaWrite k va data) s = .next t ∧ froze s t k c (.rdmaWrite k va data) e) ∧
   (∀ (s : State) (k : Nat) (c : Conn) (va : Dword) (len : Nat) (as : List Nat), live s k c (.rdmaRead k va len) →
     rdmaWalk s c false ((List.range len).map (va.toNat + ·)) = .ok as →
     let lines := distinct (as.map lineOf)
     (uoOver s lines = false → mergesOver s lines = false → ∃ t : State, exec (.rdmaRead k va len) s = .next t ∧ t.mem = s.mem ∧
       look k t.conns = some { c with reply := as.map (memByte s) }) ∧
     (uoOver s lines = true → (s.cores.map (·.1)).Pairwise (· < ·) → ∃ t : State, exec (.rdmaRead k va len) s = .next t ∧
       t.mem = s.mem ∧ look k t.conns = some { c with queued := .rdmaRead k va len :: c.queued } ∧ uoOver t lines = false)) ∧
   (∀ (s : State) (k : Nat) (c : Conn) (va : Dword) (len : Nat) (e : Word × Dword), live s k c (.rdmaRead k va len) →
     rdmaWalk s c false ((List.range len).map (va.toNat + ·)) = .error e →
     ∃ t : State, exec (.rdmaRead k va len) s = .next t ∧ froze s t k c (.rdmaRead k va len) e) ∧
   (∀ (s : State) (k : Nat) (c : Conn) (data : List Byte), live s k c (.rdmaSend k data) →
     (c.ring = none ∨ ∃ r, c.ring = some r ∧ r.2 < data.length) → ∃ t : State, exec (.rdmaSend k data) s = .next t ∧
       look k t.conns = some { c with naks := c.naks + 1 } ∧ t.mem = s.mem) ∧
   (∀ (s : State) (k : Nat) (c : Conn) (data : List Byte) (base size : Nat), live s k c (.rdmaSend k data) → c.ring = some (base, size) →
     data.length ≤ size →
     let spot := fun i => base + (c.fill + i) % size
     (∀ as : List Nat, as.length = data.length → as.Nodup → wf 0 s.mem = true →
       (∀ (i a : Nat), as[i]? = some a → reach s c.ctx needW (spot i) = .pa a) →
       ∃ t : State, exec (.rdmaSend k data) s = .next t ∧ t.gangs = s.gangs ∧
         look k t.conns = some { c with fill := (c.fill + data.length) % size } ∧
         (∀ (i a : Nat), as[i]? = some a → data[i]? = some (memByte t a)) ∧ ∀ a : Nat, a ∉ as → memByte t a = memByte s a) ∧
     (∀ (j : Nat) (w : Word), j < data.length → reach s c.ctx needW (spot j) = .bad w →
       (∀ i, i < j → ∃ a, reach s c.ctx needW (spot i) = .pa a) →
       ∃ t : State, exec (.rdmaSend k data) s = .next t ∧ froze s t k c (.rdmaSend k data) (w, num64 (spot j)))) ∧
   (∀ (s : State) (k : Nat) (c : Conn) (kind : Refusable), live s k c (.rdmaRefused k kind) → ∃ t : State, exec (.rdmaRefused k kind) s = .next t ∧
     look k t.conns = some { c with naks := c.naks + 1 } ∧ t.mem = s.mem) ∧
   (∀ (s : State) (k : Nat) (c : Conn) (op : Instr), look k s.conns = some c → c.closed = false →
     ((∃ (va : Dword) (d : List Byte), op = .rdmaWrite k va d) ∨ (∃ (va : Dword) (n : Nat), op = .rdmaRead k va n) ∨
       (∃ d : List Byte, op = .rdmaSend k d) ∨ ∃ r : Refusable, op = .rdmaRefused k r) →
     (c.frozen = true → ∃ t : State, exec op s = .next t ∧ t.mem = s.mem ∧ look k t.conns = some { c with queued := c.queued ++ [op] }) ∧
     (c.frozen = false → linesUp s none (opLines s c op) = false →
       ∃ t : State, exec op s = .next t ∧ t.mem = s.mem ∧ look k t.conns = some { c with queued := op :: c.queued }))) ∧
  ((∀ (s : State) (a b : Nat), a < 4 → b < 4 → a ≠ b →
     ∃ t : State, exec (.flitRetransmit a b) s = .next t ∧ t = { s with resent := t.resent }) ∧
   (∀ (s : State) (a b : Nat), a < 4 → b < 4 → a ≠ b → (a, b) ∉ s.links → ∃ t : State, exec (.linkFailure a b) s = .next t ∧
     t = { s with links := t.links, reports := t.reports } ∧ (a, b) ∈ t.links ∧ t.reports.length = s.reports.length + 1) ∧
   (∀ (s : State) (a b : Nat), (a, b) ∈ s.links → ∃ t : State, exec (.linkRecovery a b) s = .next t ∧
     t = { s with links := t.links } ∧ ∀ x, x ∈ t.links ↔ x ∈ s.links ∧ x ≠ (a, b)) ∧
   (∀ (s : State) (p : Fin 2) (v : Dword), exec (.ptpMessageArrival p v) s =
     .next (if booted s = true then { s with ptp := { time := v, frac := 0, stamps := ins p.val (v, s.ptp.time) s.ptp.stamps } } else s)) ∧
   (∀ (p : Ptp) (n : Nat), p.frac < 7 → let p' := p.run n
     p'.stamps = p.stamps ∧ p'.frac < 7 ∧ ∃ ns, p'.time = p.time + num64 ns ∧ 7 * ns + p'.frac = 10 * n + p.frac))

/-! ## Pre-emption -/

/-- R396 to R400, R402, R403: a request vacates the named cores of a context: the crews there, and whole ensembles, stop
issuing; the operation the array runs for them splits; the merges of their release leave. A stopped gang is saved
once its release is done and its engines rest, and a crew with its last gang. R398, R402, R404, R405: an urgent
context that claims storage of a vacated core, a range of scratch, a gang's rows or lane slots, or the engine, has
what saved crews keep there scanned out once no engine writes it; a core that may take a saved crew back gives it
places, and its scratch bytes stand at their own offset again. The save area, the core a crew returns to, what a
claim of rows names and where a pending `racq` stands are the model's readings of log 61, 62, 75 and 78. -/
def Obligations.Preemption : Prop :=
  ((∀ (s : State) (ctx urgent : Nat) (cores : List Nat), (look ctx s.ctxs).isSome = true → (look urgent s.ctxs).isSome = true →
     ctx ≠ urgent → (∀ c ∈ cores, c < coreCount) → (s.gangs.map (·.1)).Pairwise (· < ·) →
     (∀ x ∈ s.crews, x.2.ctx = ctx → x.2.core ∈ cores → x.2.saved = false → x.1 ∈ victims s ctx cores) ∧
     ∃ t : State, exec (.preemptRequest ctx cores urgent) s = .next t ∧ t.crews = s.crews ∧
       (∀ c ∈ cores, (ctx, urgent) ∈ (coreOf t c).vacated ∧ (coreOf t c).uo = [] ∧
         ∀ o ∈ (mxOf t c).queue, o.ctx = ctx → startedOp o = false) ∧
       ∀ (k : Nat) (g : Gang), look k s.gangs = some g →
         if g.crew ∈ victims s ctx cores then ∃ g', look k t.gangs = some g' ∧ g'.stop = .stopping ∧ g'.latch = []
         else look k t.gangs = some g) ∧
   (∀ (s : State) (k : Nat) (g : Gang), look k s.gangs = some g → g.stop = .stopping →
     (s.gangs.map (·.1)).Pairwise (· < ·) →
     ((coreOf s g.core).uo ≠ [] → ∃ t : State, exec (.stopReleaseComplete k) s = .next t ∧ t.mem = s.mem ∧ t.gangs = s.gangs ∧
       (coreOf t g.core).uo = [] ∧ ∀ u ∈ (coreOf s g.core).uo, Asked t 0 g.core u.line (.merge u)) ∧
     ((coreOf s g.core).uo = [] → stopDone s k g = true → ∃ t : State, exec (.stopReleaseComplete k) s = .next t ∧ t.mem = s.mem ∧
       look k t.gangs = some { g with stop := .saved } ∧
       ∀ c : Crew, look g.crew s.crews = some c → k ∈ c.gangs →
         ((∀ x ∈ s.gangs, x.2.crew = g.crew → x.1 = k ∨ x.2.stop = .saved) → look g.crew t.crews = some { c with saved := true }) ∧
         ((∃ x ∈ s.gangs, x.2.crew = g.crew ∧ x.1 ≠ k ∧ x.2.stop ≠ .saved) → look g.crew t.crews = some c)))) ∧
  ((∀ (s : State) (core ctx b n ck : Nat) (cr : Crew), let vs := ((coreOf s core).vacated.filter fun v => v.2 = ctx).map (·.1)
     vs ≠ [] → (s.crews.filter fun c => c.2.core = core && vs.contains c.2.ctx) = [(ck, cr)] → look ck s.crews = some cr →
     cr.saved = true → regionWritten s core ck = false →
     (b % 64 = 0 → n % 64 = 0 → ∃ (t : State) (cr' : Crew), exec (.storageClaimScanOut core ctx (.scratch b n)) s = .next t ∧ t.mem = s.mem ∧
       look ck t.crews = some cr' ∧ (∀ x ∈ (coreOf s core).spad,
         if ((regionLeft cr).any fun r => decide (r.1 ≤ x.1) && decide (x.1 < r.1 + r.2)) = true ∧ b ≤ x.1 ∧ x.1 < b + n
         then x ∈ cr'.moved ∧ x ∉ (coreOf t core).spad else x ∈ (coreOf t core).spad)) ∧
     (∀ (cl : Claim) (k : Nat), k ∈ cr.gangs → (cl = .rows k ∨ cl = .wide k ∨ cl = .prop k) → ∃ (t : State) (cr' : Crew),
       exec (.storageClaimScanOut core ctx cl) s = .next t ∧ t.mem = s.mem ∧ look ck t.crews = some cr' ∧ cl ∈ cr'.scanned) ∧
     (∀ v : Nat, (mxOf s core).owner = some v → v ∈ vs → v ≠ ctx → engineWritten s core = false →
       ∃ t : State, exec (.storageClaimScanOut core ctx .matrix) s = .next t ∧
       t.mem = s.mem ∧ (mxOf s core) ∈ (coreOf t core).mxSaved ∧
       ((∀ m ∈ (coreOf s core).mxSaved, m.owner ≠ some ctx) → mxOf t core = freshEngine ctx))) ∧
   (∀ (s : State) (crew core : Nat) (c : Crew) (l : Launch) (r : Room), look crew s.crews = some c →
     c.ens = none → launchOf s c.ctx c.ltag = some l → nextSaved s c.ctx c.ltag core = some crew →
     restoreRoom s crew c l core = some r → (s.gangs.map (·.1)).Pairwise (· < ·) →
     (∀ x ∈ s.gangs, x.2.crew = crew → ∀ f ∈ x.2.fibres, f.incsel = 15) →
     ∃ t : State, exec (.crewRestore crew core) s = .next t ∧ t.mem = s.mem ∧ (coreOf t core).l1 = [] ∧ isVacated t core c.ctx = false ∧
       look crew t.crews = some { c with core := core, barSlots := r.bars, saved := false, scanned := [], moved := [], movedDesc := [] } ∧
       (∀ (i : Nat) (x : Nat × Gang) (p : Nat × Nat), (s.gangs.filter fun g => g.2.crew = crew)[i]? = some x → r.slots[i]? = some p →
         ∃ g', look x.1 t.gangs = some g' ∧ g'.core = core ∧ g'.slot = p.1 ∧ g'.off = p.2 ∧ g'.stop = .running ∧ g'.s = x.2.s ∧
           g'.fibres.map (·.v) = x.2.fibres.map (·.v) ∧ g'.fibres.map (·.pc) = x.2.fibres.map (·.pc)) ∧
       (wf 0 (coreOf s core).spad = true → wf 0 (coreOf s c.core).spad = true → wf 0 c.moved = true →
         let left := fun a => (regionLeft c).any fun r => decide (r.1 ≤ a) && decide (a < r.1 + r.2)
         (∀ x ∈ c.moved, c.base ≤ x.1 ∧ x.1 < c.base + c.size ∧ left x.1 = false) →
         ∀ a, a < c.size → spadByte t core (c.base + a) =
           if left (c.base + a) = true then spadByte s c.core (c.base + a) else find 0 (c.base + a) c.moved)))

/-! ## Power -/

/-- R420: once the module is booted, Zalner sets the cap from 1,200 W to 3,200 W; the power of the latest 100 µs is
averaged, and each island's draw is kept; over the cap, the cluster island above P4 of the greatest draw goes down
one operating point, or with no work on one that can, the memory rate is limited; after 100 measurements 10% below
the cap, the latest of these steps is undone. R417 to R419: an island that is needed goes back to S0, when its exit
completes; one that is not goes to the deepest state that its kind permits and every queue tolerates, and off it
keeps nothing of what R419 says it loses. Who moves an island, what it loses, and the incumbents of a core that comes
back are the model's readings of log 66 and 88. -/
def Obligations.PowerManagement : Prop :=
  ((∀ (s : State) (w : Nat), booted s = true → 1200 ≤ w → w ≤ 3200 → ∃ t : State, exec (.setPowerCap w) s = .next t ∧
     t = { s with power := t.power } ∧ t.power.cap = w ∧ t.power.window = s.power.window ∧ t.power.limited = s.power.limited ∧
     t.power.lowered = s.power.lowered) ∧
   (∀ (s : State) (p : PowerSample), ∃ t : State, exec (.powerMeasurement p) s = .next t ∧
     t = { s with power := t.power, islands := t.islands } ∧
     (∀ i : Nat, islandOf t i = { islandOf s i with draw := (islandOf t i).draw }) ∧
     (∀ i w : Nat, i < 64 → p.draws = [(i, w)] → (islandOf t i).draw = w ∧ ∀ j, j ≠ i → islandOf t j = islandOf s j) ∧
     t.power.cap = s.power.cap ∧ t.power.lowered = s.power.lowered ∧ t.power.window = (p.module :: s.power.window).take 100 ∧
     let low := t.power.window.length = 100 ∧ t.power.window.sum / 100 * 10 ≤ s.power.cap * 900 * 10
     (low → t.power.under = s.power.under + 1) ∧ (¬ low → t.power.under = 0)) ∧
   (∀ s : State, booted s = true → ∃ t : State, exec .powerThrottleStep s = .next t ∧
     t = { s with power := t.power, islands := t.islands, fresh := t.fresh } ∧ t.power.window = s.power.window ∧
     let hot := s.power.cap * 1000 < averagePower s.power
     let busy := ∃ i < 48, (islandOf s i).point < 4 ∧ clusterBusy s i = true
     (hot → busy → ∃ i < 48, (islandOf s i).point < 4 ∧
       (∀ j < 48, (islandOf s j).point < 4 → (islandOf s j).draw ≤ (islandOf s i).draw) ∧ islandOf t i = { islandOf s i with point := (islandOf s i).point + 1 } ∧
       (∀ j, j ≠ i → islandOf t j = islandOf s j) ∧ t.power.lowered = i :: s.power.lowered) ∧
     (hot → ¬ busy → t.power.limited = true ∧ t.islands = s.islands) ∧
     (¬ hot → 100 ≤ s.power.under → s.power.limited = true → t.power.limited = false ∧ t.islands = s.islands) ∧
     (∀ (i : Nat) (is : List Nat), ¬ hot → 100 ≤ s.power.under → s.power.limited = false → s.power.lowered = i :: is →
       t.power.lowered = is ∧ (islandOf t i).point = (islandOf s i).point - 1 ∧ ∀ j, j ≠ i → islandOf t j = islandOf s j) ∧
     (¬ hot → s.power.under < 100 → t = s))) ∧
  ((∀ (s : State) (i : Nat), i < 64 → (islandOf s i).exiting = false → islandTarget s i ≠ (islandOf s i).st →
     ∃ t : State, exec (.islandStateChange i) s = .next t ∧ t.mem = s.mem ∧ t.gangs = s.gangs ∧
       (∀ j, j ≠ i → islandOf t j = islandOf s j) ∧
       (islandTarget s i < (islandOf s i).st → islandOf t i = { islandOf s i with exiting := true } ∧ t.cores = s.cores) ∧
       ((islandOf s i).st < islandTarget s i → islandOf t i = { islandOf s i with st := islandTarget s i } ∧
         (islandTarget s i < 3 → t.cores = s.cores ∧ t.rdc = s.rdc ∧ t.l2 = s.l2) ∧
         (islandTarget s i = 3 → (i < 48 → look i t.ctlb = none ∨ ¬ (s.ctlb.map (·.1)).Pairwise (· < ·)) ∧
           (i < 48 → ∀ c : Nat, clusterOf c = i → (coreOf t c).spad = [] ∧ (coreOf t c).l1 = [] ∧ (coreOf t c).tlb = [] ∧
             (mxOf t c).tiles = [] ∧ (mxOf t c).owner = (mxOf s c).owner) ∧
           (48 ≤ i → i < 52 → ∀ x ∈ t.l2, homeDie (128 * x) ≠ i - 48)))) ∧
   (∀ (s : State) (i : Nat), islandNeeded s i = true → islandTarget s i = 0) ∧
   (∀ (s : State) (i : Nat), i < 48 → clusterBusy s i = true → islandNeeded s i = true) ∧
   (∀ (s : State) (i : Nat) (u : Nat × Queue), u ∈ s.queues → bearing s i u.2 = true →
     (u.2.tol < 200000 → islandTarget s i ≤ 2) ∧ (u.2.tol < 2000 → islandTarget s i ≤ 1) ∧ (u.2.tol < 15 → islandTarget s i = 0)) ∧
   (∀ (s : State) (i : Nat), (islandOf s i).exiting = true → ∃ t : State, exec (.islandExitComplete i) s = .next t ∧
     t = { s with islands := t.islands, cores := t.cores } ∧ islandOf t i = { islandOf s i with st := 0, exiting := false } ∧
     ((islandOf s i).st ≠ 3 ∨ 48 ≤ i → t.cores = s.cores) ∧ (∀ c : Nat, clusterOf c ≠ i → coreOf t c = coreOf s c) ∧
     (∀ c : Nat, coreOf t c = { coreOf s c with incs := (coreOf t c).incs }) ∧
     ∀ j, j ≠ i → islandOf t j = islandOf s j))

/-! ## Boot, contexts, memory management, frozen masters, recovery -/

/-- R421, R422: at power-on the four stages are verified, measured and run in order, and the first whose signature fails
leaves the module in recovery mode, nothing after it having run; each of the four registers holds its stage's
measurement, that of a stage that has not run 0 (the bytes' order in a register and in a report is a design choice,
assumptions 10 and 106); an attestation report is the nonce, the measurements, the versions and the device key, with
their signature. -/
def Obligations.BootAndAttestation : Prop :=
  (∀ (s : State) (st : List Sys2Proof.Stage), st.length = 4 → ∃ t : State, exec (.powerOn st) s = .next t ∧
    t = { State.reset with boot := t.boot, inbox := s.inbox, nextId := s.nextId, fresh := s.fresh, seq := s.seq } ∧
    ∀ n, n ≤ 4 → (∀ (i : Nat) (x : Sys2Proof.Stage), i < n → st[i]? = some x → Config.verify x.bytes x.sig = true) →
      (n = 4 ∨ ∃ x, st[n]? = some x ∧ Config.verify x.bytes x.sig = false) →
      t.boot.done = n ∧ (t.boot.recovery = true ↔ n ≠ 4) ∧ t.boot.meas.length = 4 ∧
        (∀ (i : Nat) (x : Sys2Proof.Stage), st[i]? = some x →
          t.boot.meas[i]? = some (if i < n then shake256 x.bytes else 0)) ∧
        t.boot.versions = (st.take n).map (·.version)) ∧
  (∀ (s : State) (nonce : List Byte), nonce.length = 32 → s.boot.done = 4 → s.boot.recovery = false →
    ∃ t : State, exec (.attestationReport nonce) s = .next t ∧
      let body := nonce ++ s.boot.meas.flatMap (fun m => leBytes 64 m.toNat) ++
        s.boot.versions.flatMap (fun v => leBytes 4 v.toNat) ++ leBytes 57 Config.deviceKey.toNat
      t = { s with boot := { s.boot with reports := s.boot.reports ++ [body ++ leBytes 114 (Config.sign body).toNat] } })

/-- R270, R307, R345, R346, R419, R423, R426, R430: a context is created with its table root, its partition, an empty
heap and an arena whose mapped pages hold zeros, a save area, clear breakpoints, no launch, incumbents at their
default, clear engines, open connections and its nodes of the run tree, and the fabric's islands are in S0; a launch
made before every item is set is rejected (what counts as unset is a design choice, assumption 93); a context with
nothing left on the module is destroyed with all it held. R326, R393, R424, R425: an invalidation leaves no entry of
the context that overlaps the range in any TLB of its partition, and every other entry stays; a revocation clears the
entries of a page of any size, invalidates it, and freezes each copy engine with a request that still needs the page,
with a report: that request and the later ones are held, and the earlier ones are not. What a revocation freezes and
what creation writes are the model's readings of log 68 and 69. -/
def Obligations.ContextsAndPages : Prop :=
  ((∀ (s : State) (cfg : CtxCfg), booted s = true → look cfg.id s.ctxs = none → cfgOk s cfg = true →
     ∃ (t : State) (c : Ctx), exec (.createContext cfg) s = .next t ∧ t.gangs = s.gangs ∧ t.desc = s.desc ∧
       (cfg.tables = [] →
         let z := { s with ctxs := ins cfg.id (newCtx cfg) s.ctxs }
         let z' := clearPages cfg.id c.heap.base (2 ^ 20 * c.heap.slabs) z
         (∀ (x : Nat × Nat) (a i : Nat), i < x.2 →
           (x ∈ pieces c.heap.base (2 ^ 20 * c.heap.slabs) ∧ translateNow z cfg.id needNone x.1 = .pa a ∨
             x ∈ pieces c.arena c.arenaSize ∧ translateNow z' cfg.id needNone x.1 = .pa a) → memByte t (a + i) = 0) ∧
         (wf 0 s.mem = true → ∀ a, memByte t a = memByte s a ∨ memByte t a = 0)) ∧
       look cfg.id t.ctxs = some c ∧ c.root = cfg.root ∧ c.partition = cfg.partition ∧
       (∀ x, cfg.heap = some x → c.heap.base = x.1.toNat ∧ c.heap.slabs = x.2) ∧
       (∀ x, cfg.arena = some x → c.arena = x.1 ∧ c.arenaSize = x.2) ∧
       (∀ x, cfg.saveArea = some x → c.saveArea = x.1 ∧ c.saveSize = x.2) ∧ c.ready = itemsSet cfg ∧ c.heap.carved = [] ∧ c.heap.alloc = [] ∧ c.heap.free = [] ∧
       c.launches = [] ∧ c.breaks = List.replicate 8 ⟨0, 0, false⟩ ∧ (∀ k, homeInc t cfg.id k = ⟨0x7FFFFFFFFFFFFFFF, false, false⟩) ∧
       (∀ k ∈ cfg.engines, mxOf t k = { Matrix.reset with owner := some cfg.id }) ∧
       (∀ k : Nat, k ∉ cfg.engines → coreOf t k = coreOf s k) ∧
       (∀ k ∈ cfg.conns, ∃ x ∈ cfg.conns, x.id = k.id ∧ look k.id t.conns = some (newConn cfg.id x)) ∧
       (∀ i ∈ [48, 49, 50, 51, 60, 61, 62, 63], (islandOf t i).st = 0) ∧
       look (procNode cfg.id) t.runTree = some ⟨none, cfg.weight, 0, none, none⟩ ∧
       (∀ x ∈ cfg.threads, ∃ y ∈ cfg.threads, y.1 = x.1 ∧
         look (threadNode x.1) t.runTree = some ⟨some (procNode cfg.id), y.2, 0, none, some x.1⟩)) ∧
   (∀ (s : State) (ctx : Nat) (c : Ctx) (p : Packet), look ctx s.ctxs = some c → c.ready = false → checkPacket s ctx p = none) ∧
   (∀ (s : State) (ctx : Nat) (c : Ctx), look ctx s.ctxs = some c → c.launches = [] → (∀ g ∈ s.gangs, g.2.ctx ≠ ctx) →
     (∀ k ∈ s.crews, k.2.ctx ≠ ctx) → (s.ctxs.map (·.1)).Pairwise (· < ·) →
     ∃ t : State, exec (.destroyContext ctx) s = .next t ∧ t.mem = s.mem ∧ t.gangs = s.gangs ∧ look ctx t.ctxs = none ∧
       (∀ k, k ≠ ctx → look k t.ctxs = look k s.ctxs) ∧ (∀ q ∈ t.queues, q.2.ctx ≠ ctx) ∧ (∀ q ∈ t.conns, q.2.ctx ≠ ctx) ∧
       ∀ k : Nat, (mxOf t k).owner ≠ some ctx ∧ (coreOf t k).perf.owner ≠ some ctx ∧ ∀ e ∈ (coreOf t k).tlb, e.ctx ≠ ctx)) ∧
  (let opened := fun (ctx : Nat) (r : CopyReq) => r.ctx = ctx ∧ r.done = false ∧ r.dropped = false
   let needs := fun (ctx va size : Nat) (r : CopyReq) => opened ctx r ∧ ∃ m ∈ r.moves, m.va < va + size ∧ va < m.va + m.n
   let clear := fun (s t : State) (ctx : Nat) (c : Ctx) (va size : Nat) =>
     ∀ k : Nat, c.partition.getLsbD (clusterOf k) = true → ∀ e : TlbEnt, e ∈ (coreOf t k).tlb ↔
       e ∈ (coreOf s k).tlb ∧ ¬ (e.ctx = ctx ∧ e.va < va + size ∧ va < e.va + e.size)
   (∀ (s : State) (ctx : Nat) (c : Ctx) (va : Dword) (size : Nat), look ctx s.ctxs = some c →
     ∃ t : State, exec (.tlbInvalidation ctx va size) s = .next t ∧ t.mem = s.mem ∧ t.ctxs = s.ctxs ∧ clear s t ctx c va.toNat size ∧
       (∀ k : Nat, c.partition.getLsbD (clusterOf k) = false → (coreOf t k).tlb = (coreOf s k).tlb) ∧
       (∀ (k : Nat) (l : List TlbEnt), c.partition.getLsbD k = true → look k s.ctlb = some l → ∃ l', look k t.ctlb = some l' ∧
         ∀ e, e ∈ l' ↔ e ∈ l ∧ ¬ (e.ctx = ctx ∧ e.va < va.toNat + size ∧ va.toNat < e.va + e.size)) ∧
       ∀ k : Nat, c.partition.getLsbD k = false → look k t.ctlb = look k s.ctlb) ∧
   (∀ (s : State) (ctx : Nat) (c : Ctx) (va : Dword) (size : Nat), look ctx s.ctxs = some c → (size = 65536 ∨ size = 2 ^ 21 ∨ size = 2 ^ 30) →
     va.toNat % size = 0 → c.root % 8 = 0 → (s.cores.map (·.1)).Pairwise (· < ·) → wf 0 s.mem = true →
     ∃ t : State, exec (.pageRevoke ctx va size) s = .next t ∧ clear s t ctx c va.toNat size ∧
       (let leaf := fun (a : Nat) => ∃ i, 65536 * i < size ∧ leafFrom s (va.toNat + 65536 * i) 3 c.root = some a
       (∀ x ∈ s.cores, ∀ r ∈ x.2.copies, opened ctx r → r.g2s = true ∨ r.started = false) →
         (∀ a, leaf a → memNat t a 8 = 0) ∧ ∀ x, (∀ a, leaf a → x < a ∨ a + 8 ≤ x) → memByte t x = memByte s x) ∧
       ∀ (k : Nat) (o : Core), look k s.cores = some o →
         (∀ r ∈ o.copies, needs ctx va.toNat size r →
           ctx ∈ (coreOf t k).copyFrozen ∧ ∃ rep ∈ t.reports, rep.master = some (.copyEngine k ctx) ∧ rep.ctx = ctx) ∧
         ∀ (l1 l2 : List CopyReq) (r : CopyReq), o.copies = l1 ++ r :: l2 → needs ctx va.toNat size r → (o.copies.map (·.id)).Nodup →
           (∀ x ∈ r :: l2, opened ctx x → ∃ y ∈ (coreOf t k).copies, y.id = x.id ∧ y.held = true) ∧
           ((∀ x ∈ l1, opened ctx x → x.held = false ∧ ¬ needs ctx va.toNat size x) → ∀ x ∈ l1, opened ctx x →
             ∃ y ∈ (coreOf t k).copies, y.id = x.id ∧ y.held = false)))

/-- R326, R393, R425: a frozen gang, copy engine, stream or connection goes on where Zalner resumes it (an engine once
its pages are mapped again and its tables can be reached); where Zalner discards it, the gang's fibres end, the
engine's held requests for the context are dropped, the stream stops, and the connection closes with nothing kept.
R434: after a failure the job's fault is reported, with every island's point, state and draw, and a crew of it with
checkpoints of all its gangs goes back to them: its gangs end, and a crew with the saved gangs, and with the scratch
bytes of the latest of them, waits for a core, with nothing under way (what has no checkpoint runs on: a design
choice, assumption 60). What goes back to a checkpoint, and the report of a discarded engine, are the model's
readings of log 60 and 68. -/
def Obligations.FrozenMastersAndRecovery : Prop :=
  ((∀ (s : State) (k : Nat) (g : Gang) (r : Report), look k s.gangs = some g → g.frozen = some r →
     (∃ t : State, exec (.resumeFrozenMaster (.gang k)) s = .next t ∧ t = { s with gangs := t.gangs } ∧
       look k t.gangs = some { g with frozen := none }) ∧
     (g.fibres.length ≤ 64 → (s.gangs.map (·.1)).Pairwise (· < ·) →
       ∃ t : State, exec (.discardFrozenMaster (.gang k)) s = .next t ∧ look k t.gangs = none)) ∧
   (∀ (s : State) (core ctx : Nat), ctx ∈ (coreOf s core).copyFrozen → linesUp s (some (dieOf core)) (heldLines s core ctx) = true →
     (∀ rs : List CopyReq, (coreOf s core).copies.mapM (retranslate s ctx) = .ok rs →
       ∃ t : State, exec (.resumeFrozenMaster (.copyEngine core ctx)) s = .next t ∧ t.mem = s.mem ∧ (coreOf t core).copies = rs ∧
         ctx ∉ (coreOf t core).copyFrozen) ∧
     (∀ e : Word × Dword, (coreOf s core).copies.mapM (retranslate s ctx) = .error e →
       ∃ t : State, exec (.resumeFrozenMaster (.copyEngine core ctx)) s = .next t ∧ t.cores = s.cores ∧
         t.reports = s.reports ++ [⟨some (.copyEngine core ctx), ctx, e.1, e.2, []⟩]) ∧
     ∃ t : State, exec (.discardFrozenMaster (.copyEngine core ctx)) s = .next t ∧ ctx ∉ (coreOf t core).copyFrozen ∧
       ∀ r ∈ (coreOf t core).copies, r.ctx = ctx → r.held = true → r.done = true ∨ r.dropped = true) ∧
   (∀ (s : State) (core slot : Nat) (u : Subscription), look slot (coreOf s core).subs = some u → u.frozen = true →
     (u.stopping = false → ∃ t : State, exec (.resumeFrozenMaster (.stream core slot)) s = .next t ∧ t.mem = s.mem ∧
       look slot (coreOf t core).subs = some { u with frozen := false }) ∧
     ∃ t : State, exec (.discardFrozenMaster (.stream core slot)) s = .next t ∧ t.mem = s.mem ∧
       look slot (coreOf t core).subs = some { u with stopping := true }) ∧
   (∀ (s : State) (k : Nat) (c : Conn), look k s.conns = some c → c.frozen = true → c.closed = false →
     (∃ t : State, exec (.resumeFrozenMaster (.conn k)) s = .next t ∧ t = { s with conns := t.conns } ∧
       look k t.conns = some { c with frozen := false }) ∧
     ∃ t : State, exec (.discardFrozenMaster (.conn k)) s = .next t ∧ t = { s with conns := t.conns } ∧
       look k t.conns = some { c with queued := [], closed := true })) ∧
  (∀ (s : State) (job ck : Nat) (why : Sys2Proof.Failure) (x : Ctx) (im : Image) (is : List (Nat × Image)),
     look job s.ctxs = some x → failureSeen s x why = true →
     (s.ckpts.filter fun i => i.2.crewKey = ck) = is → (∃ k, (k, im) ∈ is) → (∀ i ∈ is, i.2 = im ∨ i.2.taken < im.taken) →
     (∀ x ∈ s.ckpts, x.2.gang.ctx = job ↔ x.2.crewKey = ck) → (∀ x ∈ is, (launchOf s job x.2.gang.ltag).isSome = true) →
     (∀ x ∈ s.gangs, x.2.crew = ck → ∃ i ∈ is, i.1 = x.1) → (s.ckpts.map (·.1)).Pairwise (· < ·) →
     (s.gangs.map (·.1)).Pairwise (· < ·) → (∀ x ∈ s.gangs, x.1 < s.nextId ∧ x.2.fibres.length ≤ 64) →
     ∃ (t : State) (n : Nat) (c : Crew), exec (.failureRecovery ⟨job, why⟩) s = .next t ∧ t.mem = s.mem ∧
       t.faults = s.faults ++ [⟨job, why, (List.range 64).map (islandOf s)⟩] ∧
       (∀ x ∈ s.gangs, x.2.crew = ck → look x.1 t.gangs = none) ∧
       look n t.crews = some c ∧ c.saved = true ∧ c.moved = im.bytes ∧ c.movedDesc = im.descs ∧ c.ctx = im.crew.ctx ∧ c.ltag = im.crew.ltag ∧
       ∀ (i : Nat) (x : Nat × Image), is[i]? = some x → ∃ k ∈ c.gangs, ∃ m : Nat,
         look k t.gangs = some { x.2.gang with crew := n, stop := .saved, frozen := none, ldcnt := 0, stcnt := 0, cpcnt := 0, mtcnt := m
                                               holdOps := [] })

/-! ## Traps -/

/-- R385, R386, R388, R391, R394, R437, R438: `trap` raises SWTRAP with A in TADDR, and `brk` BREAK with the ordinal of
its safe point; the active fibres take the trap at the instruction. R69, R382, R383, R386, R388, R394: the trap that
is due of earlier faults is taken for the live fibres of the earliest issue that faulted, one trap for each faulting
issue; a decode-class fault, of the bits fetched, of the PC's translation or of the gang, is taken by every fibre of
the group that would issue, with DEC set and TADDR as R70 says. Faults of parked fibres and the first record of a
report are the model's readings of log 22 and 24. -/
def Obligations.Traps : Prop :=
  (let raises := fun (i : Instr) (h : Hd) (s : State) (g : Gang) (recs : List TrapRec) =>
     ∃ (t : State) (g' : Gang), exec i s = .next t ∧ t.mem = s.mem ∧ look s.cur.gang t.gangs = some g' ∧
       TrapTaken s g (acting h s g) recs (atIssue i s g (acting h s g)) t g'
   (∀ (h : Hd) (a : Opnd) (s : State) (g : Gang), CanIssue (.trap h a) .none s g → GroupReady s g → g.frozen = none →
     acting h s g ≠ 0 →
     raises (.trap h a) h s g (recsFor g (acting h s g) (cause cSWTRAP) (fun f => src h g .n32 f a) s.cur.pc)) ∧
   (∀ (h : Hd) (s : State) (g : Gang), CanIssue (.brk h) .none s g → GroupReady s g → g.frozen = none → acting h s g ≠ 0 →
     let ord := if h.stop then ordinalAt s g s.cur.pc else BitVec.allOnes 32
     raises (.brk h) h s g (recsFor g (acting h s g) (cause cBREAK)
       (fun _ => ord.setWidth 64 + if ord = BitVec.allOnes 32 then 0x200000000 else 0) s.cur.pc)) ∧
   (∀ (i : Instr) (h : Hd) (s : State) (g : Gang), (i = .brk h ∨ ∃ a, i = .trap h a) → CanIssue i .none s g → acting h s g = 0 →
     Did i h s g keep id)) ∧
  ((∀ (s : State) (k : Nat) (g : Gang), look k s.gangs = some g → pendDue s k g = true →
     ∃ (t : State) (g' : Gang), exec (.takeTrap k) s = .next t ∧ t.mem = s.mem ∧ look k t.gangs = some g' ∧
       let recs := g.pend.filter fun r => match fibreAt g r.lane with
         | some f => decide (f.life = .live) && g.pend.all fun q => match fibreAt g q.lane with
           | some e => decide (e.life ≠ .live) || decide (f.li ≤ e.li)
           | none => true
         | none => false
       TrapTaken s g (recMask recs) recs (fun _ f => f) t g') ∧
   (∀ (s : State) (k : Nat) (g : Gang) (group : BitVec 64) (pc : Pc) (c : Word) (a : Dword), look k s.gangs = some g →
     pendDue s k g = false → decodeDue s k g = some (group, pc, c, a) →
     ∃ (t : State) (g' : Gang), exec (.takeTrap k) s = .next t ∧ t.mem = s.mem ∧ look k t.gangs = some g' ∧
       TrapTaken s g group ((lanesOf group).map fun l => ⟨l, c ||| 0x10000, a, pc⟩)
         (fun l f => (fibreAt (settledGang s g) l).getD f) t g') ∧
   (∀ (i : Instr) (s : State) (g : Gang) (c : Nat), legal i = true → look s.cur.gang s.gangs = some g → decodeFault s g i = some c → g.frozen = none →
     (∀ l, laneIn s.cur.group l = true → ∃ f, fibreAt g l = some f ∧ ready f = true) → s.cur.group ≠ 0 →
     ∃ (t : State) (g' : Gang), exec i s = .next t ∧ t.mem = s.mem ∧ look s.cur.gang t.gangs = some g' ∧
       TrapTaken s g s.cur.group ((lanesOf s.cur.group).map fun l => ⟨l, cause c ||| 0x10000, 0, s.cur.pc⟩) (fun _ f => f) t g'))

/-- R389: `tret` sets each active fibre's PC to its TPC and parks it; when every fibre of the frame has returned or
ended, the frame is popped, and all that it parked or that returned runs again. What an exit leaves in a frame is the
model's reading of log 18. -/
def Obligations.TrapReturns : Prop :=
  ∀ (h : Hd) (s : State) (g : Gang) (fr : Frame) (frs : List Frame), CanIssue (.tret h) .none s g → GroupReady s g →
    acting h s g ≠ 0 → g.frames = fr :: frs → frs.length ≤ 3 →
    let tpc := fun (l : Nat) => match fr.recs.find? fun r => r.lane = l with
      | some r => r.tpc
      | none => ((fr.pcs.find? fun p => p.1 = l).map (·.2)).getD 0
    let back := fun (l : Nat) (f : Fibre) => if laneIn (acting h s g) l then { past (.tret h) s g f with pc := tpc l, life := .parked }
      else if laneIn s.cur.group l then past (.tret h) s g f else f
    let last := ∀ l, laneIn fr.tmask l = true → laneIn (acting h s g) l = true ∨ laneIn fr.returned l = true ∨
      ∀ f, fibreAt g l = some f → ended f = true
    ∃ (t : State) (g' : Gang), exec (.tret h) s = .next t ∧ t.mem = s.mem ∧ t.reports = s.reports ∧
      look s.cur.gang t.gangs = some g' ∧ g'.s = g.s ∧ g'.tvec = g.tvec ∧
      (¬ last → g'.frames = { fr with returned := fr.returned ||| acting h s g } :: frs ∧
        ∀ (l : Nat) (f : Fibre), fibreAt g l = some f → fibreAt g' l = some (back l f)) ∧
      (last → (∀ f2, frs.head? = some f2 → frameDone g f2 = false) → g'.frames = frs ∧
        ∀ (l : Nat) (f : Fibre), l < 64 → fibreAt g l = some f → fibreAt g' l = some (
          if (laneIn fr.parked l || laneIn fr.returned l || laneIn (acting h s g) l) = true ∧ (back l f).life = .parked
          then { back l f with life := .live } else back l f))

/-! ## Encoding -/

/-- R49 to R51, R58, R67, R68: the words of a legal instruction decode to it, whatever follows them: no operand, type,
guard or immediate is lost. Which lengths are legal is the model's reading of log 15, and immediates of `mma` of log
16. -/
def Obligations.DecodeOfEncode : Prop :=
  ∀ (i : Instr) (rest : List Word), i.WellFormed → decodeWords (encode i ++ rest) = .ok i

/-- R58, R68: what decodes is a legal instruction, and its words are that instruction's own: no two words stand for one
instruction, and no bit that an entry does not use is set. R49 to R51: an instruction is 8, 12 or 16 bytes long, as
LEN says, and a fill word, LEN = 11 and a reserved opcode are none. Which lengths are legal is the model's reading of
log 15, and immediates of `mma` of log 16. -/
def Obligations.EncodeOfDecode : Prop :=
  (∀ (ws : List Word) (i : Instr), decodeWords ws = .ok i → i.WellFormed ∧ ∃ rest, ws = encode i ++ rest) ∧
  ((∀ i : Instr, i.WellFormed → 4 * (encode i).length = lenBytes i ∧ (lenBytes i = 8 ∨ lenBytes i = 12 ∨ lenBytes i = 16) ∧
     ∀ w ws, encode i = w :: ws → lenOf w = some (lenBytes i)) ∧
   (∀ ws : List Word, decodeWords (3 :: ws) = .error .fill) ∧
   (∀ (w : Word) (ws : List Word), w ≠ 3 → w.toNat % 4 = 3 → decodeWords (w :: ws) = .error .badLen) ∧
   (∀ (w0 w1 : Word) (ws : List Word), 0xAA ≤ w0.toNat / 2 ^ 7 % 2 ^ 8 → w0.toNat % 4 = 0 → decodeWords (w0 :: w1 :: ws) = .error .illegal))

/-- R11, R50, R55, R57, R59 to R64, R67: the words that the spec writes out for its worked encodings, of every block of
the opcode map, decode to the instructions they stand for. -/
def Obligations.DecodeWords : Prop :=
  let H : Hd := ⟨7, false, false, 0, .none⟩
  decodeWords [0x01800870, 0x00000502] = .ok (.add H ⟨.i32, false, .v 6, .v 4, .v 5⟩) ∧
  decodeWords [0x82101939, 0x3001FF04, 0x3FC00000] =
    .ok (.fmul ⟨3, true, false, 0, .imm32 0x3FC00000⟩ ⟨.f32, .rup, false, .v 8, .v 9, .imm⟩) ∧
  decodeWords [0x000000F1, 0x00000000, 0xFFFFFFE0] = .ok (.br H 0xFFFFFFE0) ∧
  decodeWords [0x0106B070, 0x2001B081] = .ok (.ld H ⟨.n32, .dev, .sync, .glob, false, .v 4, .s 2, .ic 48⟩) ∧
  decodeWords [0x0040A470, 0x80080001] = .ok (.cvt H ⟨.f8e4, .ty .f32, .rne, true, .v 1, .v 2⟩) ∧
  decodeWords [0x5214A9F0, 0x00000A00] = .ok (.wmul2 H ⟨.f64, true, 0, .v 0, .v 10⟩) ∧
  decodeWords [0x800038F0, 0x0001B0D1] = .ok (.barSync H (.ic 35) (.ic 48)) ∧
  decodeWords [0x051430F0, 0x3001A00C] = .ok (.imageStore H .f64 0 (.v 20) (.v 24) (.ic 32)) ∧
  decodeWords [0x0180C170, 0x00000000] = .ok (.orbitStab H (.v 6)) ∧
  decodeWords [0xD0803F70, 0x00000004] = .ok (.accept H (.p 2) (.v 9)) ∧
  decodeWords [0x0106B170, 0x2001A181] = .ok (.atom H ⟨.n32, .dev, .sync, .glob, .add, .v 4, .s 2, .ic 33, .ic 32⟩) ∧
  decodeWords [0x0002B2F0, 0x00020000] = .ok (.fenceRel H .dev) ∧
  decodeWords [0x42804871, 0x43FF0282, 0x00001000] =
    .ok (.copyG2s ⟨7, false, false, 0, .imm32 0x1000⟩ true (.s 10) (.s 4) (.s 2) .imm) ∧
  decodeWords [0x80004270, 0x0003A480] = .ok (.stgw H (.s 1) (.ic 36) 1) ∧
  decodeWords [0x80004BF0, 0x000000D3] = .ok (.troupe H (.ic 39)) ∧
  decodeWords [0x53404E70, 0x00000000] = .ok (.mcont H 3) ∧
  decodeWords [0xD2D04DF0, 0x8011A081] = .ok (.mst H ⟨.f32, true, 1, .s 3, .ic 32, 0, 1⟩) ∧
  decodeWords [0x00004CF2, 0x020D0582, 0x00000000, 0x0000008A] = .ok (.mma H ⟨true, 2, 8, .s 4, .s 5, .s 6⟩) ∧
  decodeWords [0x42905170, 0x00010582] = .ok (.crs H ⟨.f32, .add, .rne, false, .s 10, .s 4⟩ (.s 5)) ∧
  decodeWords [0x80000370, 0x000000D2] = .ok (.trap H (.ic 37)) ∧
  decodeWords [0xD1C05474, 0x000000D1] = .ok (.ckpt ⟨7, false, true, 0, .none⟩ (.p 7) (.ic 35))

/-! ## The step -/

/-- R3, R6, R49, R156, R157, R250: the gang whose turn it is issues the instruction whose bytes stand at its PC: with no
trap due, a step after which time has passed runs the decoded instruction for the group at that PC, its fibres being
past their fill words and the blocks at their PCs in the core's instruction cache, which takes them from their homes
and keeps to its size. The order of the agents and the elapsed cycles are free (log 1), and when an old copy leaves
the instruction cache is a free choice (log 25). -/
def Obligations.StepRunsDecoded : Prop :=
  (∀ (s : State) (k : Nat) (g g' : Gang) (group : BitVec 64) (pc : Pc) (i : Instr), let u := tick s
    choose u.seq (moves u) = some (.gang k) → look k u.gangs = some g → pendDue u k g = false →
    let v := fetchBlocks k (settleFills k (fetchBlocks k (guardGang k (dropStale g.core u))))
    look k v.gangs = some g' → gangRuns v k g' = true → pendDue v k g' = false → pickGroup v k g' = some (group, pc) →
    fetch v g' pc = .instr i → decodeFault v g' i = none → deliverFault k v = none →
    step s = exec i { v with cur := ⟨k, group, pc⟩ }) ∧
  (∀ (s : State) (g : Gang) (pc : Pc) (pa : Nat) (i : Instr), i.WellFormed →
    pc.toNat / 32 = (pc.toNat + lenBytes i - 1) / 32 → pa % 32 = pc.toNat % 32 →
    (look (blockOf pa) (coreOf s g.core).icache = none ∨
      look (blockOf pa) (coreOf s g.core).icache = some (homeBlock s (blockOf pa))) →
    (∀ j, j < (encode i).length → translate s g needX (pc.toNat + 4 * j) = .pa (pa + 4 * j)) →
    (∀ (j : Nat) (b : Byte), (encodeBytes i)[j]? = some b → memByte s (pa + j) = b) → fetch s g pc = .instr i) ∧
  (∀ (s : State) (core b : Nat), look b (coreOf s core).icache = none → let t := fetchBlock core b s
    look b (coreOf t core).icache = some (homeBlock s b) ∧ t.mem = s.mem ∧
      ((coreOf s core).icache.length ≤ icBlocks → (coreOf t core).icache.length ≤ icBlocks))

/-- R156, R382: the machine never stops: whatever the state, where connections keep only their own operations, a step has
a next state. Which of the moves that are due is made, and how much time passes, are free (log 1). -/
def Obligations.StepAlwaysGoes : Prop := ∀ s : State, s.KeptOk → ∃ t : State, step s = .next t ∧ t.KeptOk

/-- Every step keeps memory and its block descriptors in the canonical form (assumption 2 says what an unlisted byte
reads as). -/
def Obligations.StepsKeepMemory : Prop := ∀ s t : State, s.MemWf → step s = .next t → t.MemWf

/-- R386, R394: every step keeps the limit of four trap frames, in every gang and in every saved image. -/
def Obligations.StepsKeepFrames : Prop := ∀ s t : State, s.FramesFit → step s = .next t → t.FramesFit

/-- R4, R100, R417, R421, R426: no instruction moves CLK, or touches the boot state, the connections, the power limits,
the links, the PTP time, the run tree or a fault of the module; of the islands it only makes those start their exit
that its accesses need; a queue only notes the wakes that reach it. -/
def Obligations.InstructionsLeaveTheModule : Prop :=
  ∀ (i : Instr) (s t : State), i.WellFormed → exec i s = .next t → t.clk = s.clk ∧ t.boot = s.boot ∧ t.conns = s.conns ∧
    (∀ j : Nat, islandOf t j = { islandOf s j with exiting := (islandOf t j).exiting } ∧
      ((islandOf s j).exiting = true ∨ (islandOf s j).st = 0 → (islandOf t j).exiting = (islandOf s j).exiting)) ∧ t.power = s.power ∧ t.links = s.links ∧ t.ptp = s.ptp ∧ t.runTree = s.runTree ∧ t.faults = s.faults ∧
    t.inbox = s.inbox ∧ ∀ q : Nat, look q t.queues = (look q s.queues).map fun u => { u with poked := (look q t.queues).any (·.poked) }

/-- R10 to R12, R235, R236: a register reads what was written to it last, a 64-bit one through its even-numbered pair,
and a write leaves every other register as it is; p7 reads as 1. -/
def Obligations.RegistersHoldWhatIsWritten : Prop :=
  (∀ (f : Fibre) (n m : Nat) (x : Word), f.Canonical →
    getV (setV n x f) m = (if m = n then x else getV f m) ∧ (setV n x f).Canonical) ∧
  (∀ (f : Fibre) (n : Nat) (x : Dword), f.Canonical → getV64 (setV64 n x f) n = x) ∧
  (∀ (g : Gang) (n m : Nat) (x : Dword), wf 0 g.s = true → getS (setS n x g) m = if m = n then x else getS g m) ∧
  (∀ (f : Fibre) (k j : Nat) (b : Bool), j < 8 → getP (setP k b f) j = if j = 7 then true else if j = k then b else getP f j)

/-- R9, R17, R188, R345, R421, R425: after reset no context, gang, crew, queue or connection is there, CLK, every event
counter and every sequence of gang, task, subscription and join numbers is 0 (a design choice of assumption 4), every
core's steal state is its number plus 1, no engine has an owner, the power cap is 3,200 W, and the invariants hold. -/
def Obligations.ResetState : Prop :=
  let s := State.reset
  s.gangs = [] ∧ s.crews = [] ∧ s.ctxs = [] ∧ s.queues = [] ∧ s.conns = [] ∧ s.reqs = [] ∧ s.reports = [] ∧ s.boot.done = 0 ∧
    s.clk = 0 ∧ s.power.cap = 3200 ∧ s.boot.meas = List.replicate 4 0 ∧ s.statuses = [] ∧ s.faults = [] ∧ (∀ a, memByte s a = 0 ∧ memDesc s a = 0x8000) ∧
    (∀ c, (coreOf s c).steal.x = BitVec.ofNat 16 (c + 1) ∧ (coreOf s c).mx.owner = none ∧ (coreOf s c).perf.owner = none ∧
      (∀ k, find 0 k (coreOf s c).perf.ctr = 0) ∧ (∀ ctx, gangSeqOf s c ctx = 0 ∧ spawnSeqOf s c ctx = 0) ∧ (coreOf s c).subSeq = 0) ∧
    (∀ cluster, joinSeq s cluster = 0) ∧
    s.MemWf ∧ s.FramesFit ∧ s.KeptOk
end

