-- ==== Sys2Proof/Laws/Assoc.lean ====
section
/-! SUPPORT. What sparse tables do: a read after a write, and the canonical form. -/

namespace Sys2Proof.Machine

variable {β : Type} [DecidableEq β]

theorem wfFrom_mono {d : β} {lo lo' : Nat} {m : AMap β} (h : wfFrom d lo m = true) (hl : lo' ≤ lo) : wfFrom d lo' m = true := by
  cases m with
  | nil => rfl
  | cons a m =>
    simp only [wfFrom, Bool.and_eq_true, decide_eq_true_eq] at h ⊢
    exact ⟨⟨by omega, h.1.2⟩, h.2⟩

/-- A write keeps the canonical form. -/
theorem wfFrom_put {d : β} {k : Nat} {x : β} : ∀ {m : AMap β} {lo : Nat}, wfFrom d lo m = true → lo ≤ k →
    wfFrom d lo (put d k x m) = true
  | [], lo, _, hl => by
    unfold put
    split
    · rfl
    · simp [wfFrom, *]
  | (j, y) :: m, lo, h, hl => by
    simp only [wfFrom, Bool.and_eq_true, decide_eq_true_eq] at h
    unfold put
    split_ifs with h1 h2 h3 h4
    · simp [wfFrom, h]
    · simp [wfFrom, h, h2, hl]; omega
    · exact wfFrom_mono h.2 (by omega)
    · subst h3; simp [wfFrom, h, h4]
    · have := wfFrom_put (x := x) h.2 (show j + 1 ≤ k by omega)
      simp [wfFrom, h, this]

theorem wf_put {d : β} {k : Nat} {x : β} {m : AMap β} (h : wf d m = true) : wf d (put d k x m) = true :=
  wfFrom_put h (Nat.zero_le _)

theorem find_below {d : β} {k lo : Nat} {m : AMap β} (h : wfFrom d lo m = true) (hk : k < lo) : find d k m = d := by
  cases m with
  | nil => rfl
  | cons a m =>
    simp only [wfFrom, Bool.and_eq_true, decide_eq_true_eq] at h
    unfold find
    rw [if_neg (by omega), if_pos (by omega)]

/-- A read after a write to the same place gives the value written. -/
theorem find_put_same {d : β} {k : Nat} {x : β} : ∀ {m : AMap β} {lo : Nat}, wfFrom d lo m = true →
    find d k (put d k x m) = x
  | [], _, _ => by
    unfold put
    split
    · simp [find, *]
    · simp [find]
  | (j, y) :: m, lo, h => by
    simp only [wfFrom, Bool.and_eq_true, decide_eq_true_eq] at h
    unfold put
    split_ifs with h1 h2 h3 h4
    · unfold find
      rw [if_neg (by omega), if_pos h1, h2]
    · simp [find]
    · subst h3; rw [find_below h.2 (by omega), h4]
    · simp [find]
    · unfold find
      rw [if_neg h3, if_neg h1]
      exact find_put_same h.2

/-- A write leaves every other place alone. -/
theorem find_put_other {d : β} {k l : Nat} {x : β} (hkl : l ≠ k) : ∀ {m : AMap β} {lo : Nat}, wfFrom d lo m = true →
    find d l (put d k x m) = find d l m
  | [], _, _ => by
    unfold put
    split
    · rfl
    · simp [find, Ne.symm hkl]
  | (j, y) :: m, lo, h => by
    simp only [wfFrom, Bool.and_eq_true, decide_eq_true_eq] at h
    unfold put
    by_cases h1 : k < j
    · rw [if_pos h1]
      by_cases h2 : x = d
      · rw [if_pos h2]
      · rw [if_neg h2]
        by_cases h5 : l < k
        · rw [find, if_neg (Ne.symm hkl), if_pos h5, find, if_neg (by omega), if_pos (by omega)]
        · rw [find, if_neg (Ne.symm hkl), if_neg h5]
    · rw [if_neg h1]
      by_cases h3 : j = k
      · subst h3
        rw [if_pos rfl]
        have hr : find d l ((j, y) :: m) = if l < j then d else find d l m := by rw [find, if_neg (Ne.symm hkl)]
        have hb : l < j → find d l m = d := fun hl => find_below h.2 (by omega)
        by_cases h4 : x = d
        · rw [if_pos h4, hr]; split
          · next hl => exact hb hl
          · rfl
        · rw [if_neg h4, find, if_neg (Ne.symm hkl), hr]
      · rw [if_neg h3, find, find_put_other (x := x) hkl h.2, find]

theorem find_put {d : β} {k l : Nat} {x : β} {m : AMap β} (h : wf d m = true) :
    find d l (put d k x m) = if l = k then x else find d l m := by
  split
  · next e => subst e; exact find_put_same h
  · next e => exact find_put_other e h

theorem wf_putAll {d : β} : ∀ {xs : List β} {k : Nat} {m : AMap β}, wf d m = true → wf d (putAll d k xs m) = true
  | [], _, _, h => h
  | _ :: xs, _, _, h => by rw [putAll]; exact wf_putAll (xs := xs) (wf_put h)

omit [DecidableEq β] in
/-- A change of the object at one key leaves the others. -/
theorem look_adj_other {k l : Nat} {f : β → β} (h : l ≠ k) : ∀ {m : AMap β}, look l (adj k f m) = look l m
  | [] => rfl
  | (j, y) :: m => by
    unfold adj
    split
    · next e => subst e; simp [look, Ne.symm h]
    · simp [look, look_adj_other h]

omit [DecidableEq β] in
/-- A change of the object at a key is a change of what stands there. -/
theorem look_adj_same {k : Nat} {f : β → β} : ∀ {m : AMap β}, look k (adj k f m) = (look k m).map f
  | [] => rfl
  | (j, y) :: m => by
    unfold adj
    split
    · next e => simp [look, e]
    · next e => simp [look, e, look_adj_same]

omit [DecidableEq β] in
/-- Only what the change does to the object that stands there counts. -/
theorem adj_congr {k : Nat} {f f' : β → β} {x : β} : ∀ {m : AMap β}, look k m = some x → f x = f' x → adj k f m = adj k f' m
  | [], h, _ => by cases h
  | (j, y) :: m, h, hf => by
    unfold look at h
    unfold adj
    split at h
    · next e => cases h; simp [e, hf]
    · next e => simp [e, adj_congr h hf]

omit [DecidableEq β] in
theorem look_ins_same {k : Nat} {x : β} : ∀ {m : AMap β}, look k (ins k x m) = some x
  | [] => by simp [ins, look]
  | (j, y) :: m => by
    unfold ins
    split
    · simp [look]
    · split
      · simp [look]
      · next h => simp [look, h, look_ins_same]

omit [DecidableEq β] in
theorem look_ins_other {k l : Nat} {x : β} (hn : l ≠ k) : ∀ {m : AMap β}, look l (ins k x m) = look l m
  | [] => by simp [ins, look, Ne.symm hn]
  | (j, y) :: m => by
    unfold ins
    split
    · simp [look, Ne.symm hn]
    · split
      · next h => subst h; simp [look, Ne.symm hn]
      · simp [look, look_ins_other hn]

end Sys2Proof.Machine
end

