-- ==== Sys2Proof/Laws/Fields.lean ====
section
/-! SUPPORT. Every field of an instruction's words fits its place in word0 (R50). -/

namespace Sys2Proof.Laws

/-- R50: the fields of word0 fit their widths. -/
def Fits (r : Raw) : Prop :=
  r.s < 2 ∧ r.n < 2 ∧ r.g < 8 ∧ r.op < 256 ∧ r.v < 8 ∧ r.t < 16 ∧ r.d < 512 ∧ r.a < 512 ∧ r.b < 512 ∧ r.c < 512 ∧
    r.hl < 4 ∧ r.m < 4 ∧ r.x < 4

@[simp] theorem opndCode_lt (o : Opnd) : opndCode o < 512 := by cases o <;> simp [opndCode] <;> omega
@[simp] theorem ty_lt (t : Ty) : ty t < 16 := by cases t <;> decide
@[simp] theorem rm_lt (m : Rm) : codeIn rmTable m < 4 := by cases m <;> decide
@[simp] theorem scope_lt (c : Scope) : codeIn scopeTable c < 8 := by cases c <;> decide
@[simp] theorem space_lt (c : Space) : codeIn spaceTable c < 4 := by cases c <;> decide
@[simp] theorem str_lt (c : Strength) : codeIn strTable c < 4 := by cases c <;> decide
@[simp] theorem cmp_lt (c : Cmp) : codeIn cmpTable c < 8 := by cases c <;> decide
@[simp] theorem plog_lt (c : Plog) : codeIn plogTable c < 8 := by cases c <;> decide
@[simp] theorem red_lt (c : Red) : codeIn redTable c < 8 := by cases c <;> decide
@[simp] theorem shfl_lt (c : Shfl) : codeIn shflTable c < 8 := by cases c <;> decide
@[simp] theorem order_lt (c : Order) : codeIn orderTable c < 4 := by cases c <;> decide
@[simp] theorem wmov_lt (c : WMov) : codeIn wmovTable c < 8 := by cases c <;> decide
@[simp] theorem bit_lt (b : Bool) : b.toNat < 2 := by cases b <;> decide

@[simp] theorem fmtSrc_lt (f : Fmt) : fmtSrc f < 512 := by
  cases f with
  | ty t => have := ty_lt t; simp only [ty] at this; simp only [fmtSrc]; omega
  | _ => decide

@[simp] theorem fmtDst1_lt (f : Fmt) : (fmtDst f).1 < 8 := by cases f <;> simp [fmtDst]
@[simp] theorem fmtDst2_lt (f : Fmt) : (fmtDst f).2 < 16 := by cases f with
  | ty t => exact ty_lt t
  | _ => decide
@[simp] theorem space_lt8 (c : Space) : codeIn spaceTable c < 8 := by cases c <;> decide

@[simp] theorem bit_le (b : Bool) : b.toNat ≤ 1 := by cases b <;> decide
@[simp] theorem bit_lt4 (b : Bool) : b.toNat < 4 := by cases b <;> decide
@[simp] theorem bit_lt8 (b : Bool) : b.toNat < 8 := by cases b <;> decide
@[simp] theorem bit_lt512 (b : Bool) : b.toNat < 512 := by cases b <;> decide
@[simp] theorem red_lt512 (c : Red) : codeIn redTable c < 512 := by cases c <;> decide
@[simp] theorem fin2_lt (d : Fin 2) : 0x148 + d.val < 512 := by omega
@[simp] theorem fin8_lt (d : Fin 8) : 0x14A + d.val < 512 := by omega
@[simp] theorem fin4_lt8 (d : Fin 4) : d.val < 8 := by omega
@[simp] theorem fin64_lt (d : Fin 64) : d.val < 512 := by omega
@[simp] theorem fin16_lt (d : Fin 16) : 0x30 + d.val < 512 := by omega
@[simp] theorem tile_lt (f n : Fin 8) : f.val + 8 * n.val < 512 := by omega
@[simp] theorem if_lt (p : Prop) [Decidable p] (x y n : Nat) (hx : x < n) (hy : y < n) : (if p then x else y) < n := by
  split <;> assumption

/-- R348: the tile's number goes to D or to FW. -/
theorem rawTile_fits (h : Hd) (op : Nat) (tile : Fin 8) (hop : op < 256) : Fits (rawTile h op tile) := by
  unfold rawTile
  split <;> simp [Fits, raw, hop]

end Sys2Proof.Laws
end

