-- ==== Sys2Proof/Laws/State.lean ====
section
/-! SUPPORT. What each update of the state leaves as it is: one lemma per field per update. -/

namespace Sys2Proof.Machine

variable (s : State)

/-! ## `updGang` -/

@[simp] theorem updGang_clk (k : Nat) (f : Gang → Gang) : (updGang k f s).clk = s.clk := rfl
@[simp] theorem updGang_mem (k : Nat) (f : Gang → Gang) : (updGang k f s).mem = s.mem := rfl
@[simp] theorem updGang_desc (k : Nat) (f : Gang → Gang) : (updGang k f s).desc = s.desc := rfl
@[simp] theorem updGang_gangs (k : Nat) (f : Gang → Gang) : (updGang k f s).gangs = adj k f s.gangs := rfl
@[simp] theorem updGang_crews (k : Nat) (f : Gang → Gang) : (updGang k f s).crews = s.crews := rfl
@[simp] theorem updGang_ens (k : Nat) (f : Gang → Gang) : (updGang k f s).ens = s.ens := rfl
@[simp] theorem updGang_gone (k : Nat) (f : Gang → Gang) : (updGang k f s).gone = s.gone := rfl
@[simp] theorem updGang_cores (k : Nat) (f : Gang → Gang) : (updGang k f s).cores = s.cores := rfl
@[simp] theorem updGang_ctxs (k : Nat) (f : Gang → Gang) : (updGang k f s).ctxs = s.ctxs := rfl
@[simp] theorem updGang_ctlb (k : Nat) (f : Gang → Gang) : (updGang k f s).ctlb = s.ctlb := rfl
@[simp] theorem updGang_walks (k : Nat) (f : Gang → Gang) : (updGang k f s).walks = s.walks := rfl
@[simp] theorem updGang_reqs (k : Nat) (f : Gang → Gang) : (updGang k f s).reqs = s.reqs := rfl
@[simp] theorem updGang_ops (k : Nat) (f : Gang → Gang) : (updGang k f s).ops = s.ops := rfl
@[simp] theorem updGang_peers (k : Nat) (f : Gang → Gang) : (updGang k f s).peers = s.peers := rfl
@[simp] theorem updGang_statuses (k : Nat) (f : Gang → Gang) : (updGang k f s).statuses = s.statuses := rfl
@[simp] theorem updGang_l2 (k : Nat) (f : Gang → Gang) : (updGang k f s).l2 = s.l2 := rfl
@[simp] theorem updGang_fills (k : Nat) (f : Gang → Gang) : (updGang k f s).fills = s.fills := rfl
@[simp] theorem updGang_rdc (k : Nat) (f : Gang → Gang) : (updGang k f s).rdc = s.rdc := rfl
@[simp] theorem updGang_rdcDesc (k : Nat) (f : Gang → Gang) : (updGang k f s).rdcDesc = s.rdcDesc := rfl
@[simp] theorem updGang_incMsgs (k : Nat) (f : Gang → Gang) : (updGang k f s).incMsgs = s.incMsgs := rfl
@[simp] theorem updGang_bcasts (k : Nat) (f : Gang → Gang) : (updGang k f s).bcasts = s.bcasts := rfl
@[simp] theorem updGang_groups (k : Nat) (f : Gang → Gang) : (updGang k f s).groups = s.groups := rfl
@[simp] theorem updGang_joins (k : Nat) (f : Gang → Gang) : (updGang k f s).joins = s.joins := rfl
@[simp] theorem updGang_steals (k : Nat) (f : Gang → Gang) : (updGang k f s).steals = s.steals := rfl
@[simp] theorem updGang_queues (k : Nat) (f : Gang → Gang) : (updGang k f s).queues = s.queues := rfl
@[simp] theorem updGang_conns (k : Nat) (f : Gang → Gang) : (updGang k f s).conns = s.conns := rfl
@[simp] theorem updGang_links (k : Nat) (f : Gang → Gang) : (updGang k f s).links = s.links := rfl
@[simp] theorem updGang_resent (k : Nat) (f : Gang → Gang) : (updGang k f s).resent = s.resent := rfl
@[simp] theorem updGang_islands (k : Nat) (f : Gang → Gang) : (updGang k f s).islands = s.islands := rfl
@[simp] theorem updGang_power (k : Nat) (f : Gang → Gang) : (updGang k f s).power = s.power := rfl
@[simp] theorem updGang_boot (k : Nat) (f : Gang → Gang) : (updGang k f s).boot = s.boot := rfl
@[simp] theorem updGang_runTree (k : Nat) (f : Gang → Gang) : (updGang k f s).runTree = s.runTree := rfl
@[simp] theorem updGang_ptp (k : Nat) (f : Gang → Gang) : (updGang k f s).ptp = s.ptp := rfl
@[simp] theorem updGang_reports (k : Nat) (f : Gang → Gang) : (updGang k f s).reports = s.reports := rfl
@[simp] theorem updGang_ckpts (k : Nat) (f : Gang → Gang) : (updGang k f s).ckpts = s.ckpts := rfl
@[simp] theorem updGang_faults (k : Nat) (f : Gang → Gang) : (updGang k f s).faults = s.faults := rfl
@[simp] theorem updGang_inbox (k : Nat) (f : Gang → Gang) : (updGang k f s).inbox = s.inbox := rfl
@[simp] theorem updGang_cur (k : Nat) (f : Gang → Gang) : (updGang k f s).cur = s.cur := rfl
@[simp] theorem updGang_nextId (k : Nat) (f : Gang → Gang) : (updGang k f s).nextId = s.nextId := rfl
@[simp] theorem updGang_fresh (k : Nat) (f : Gang → Gang) : (updGang k f s).fresh = s.fresh := rfl
@[simp] theorem updGang_seq (k : Nat) (f : Gang → Gang) : (updGang k f s).seq = s.seq := rfl

/-! ## `updCore` -/

@[simp] theorem updCore_clk (c : Nat) (f : Core → Core) : (updCore c f s).clk = s.clk := rfl
@[simp] theorem updCore_mem (c : Nat) (f : Core → Core) : (updCore c f s).mem = s.mem := rfl
@[simp] theorem updCore_desc (c : Nat) (f : Core → Core) : (updCore c f s).desc = s.desc := rfl
@[simp] theorem updCore_gangs (c : Nat) (f : Core → Core) : (updCore c f s).gangs = s.gangs := rfl
@[simp] theorem updCore_crews (c : Nat) (f : Core → Core) : (updCore c f s).crews = s.crews := rfl
@[simp] theorem updCore_ens (c : Nat) (f : Core → Core) : (updCore c f s).ens = s.ens := rfl
@[simp] theorem updCore_gone (c : Nat) (f : Core → Core) : (updCore c f s).gone = s.gone := rfl
@[simp] theorem updCore_cores (c : Nat) (f : Core → Core) : (updCore c f s).cores = ins c (f (coreOf s c)) s.cores := rfl
@[simp] theorem updCore_ctxs (c : Nat) (f : Core → Core) : (updCore c f s).ctxs = s.ctxs := rfl
@[simp] theorem updCore_ctlb (c : Nat) (f : Core → Core) : (updCore c f s).ctlb = s.ctlb := rfl
@[simp] theorem updCore_walks (c : Nat) (f : Core → Core) : (updCore c f s).walks = s.walks := rfl
@[simp] theorem updCore_reqs (c : Nat) (f : Core → Core) : (updCore c f s).reqs = s.reqs := rfl
@[simp] theorem updCore_ops (c : Nat) (f : Core → Core) : (updCore c f s).ops = s.ops := rfl
@[simp] theorem updCore_peers (c : Nat) (f : Core → Core) : (updCore c f s).peers = s.peers := rfl
@[simp] theorem updCore_statuses (c : Nat) (f : Core → Core) : (updCore c f s).statuses = s.statuses := rfl
@[simp] theorem updCore_l2 (c : Nat) (f : Core → Core) : (updCore c f s).l2 = s.l2 := rfl
@[simp] theorem updCore_fills (c : Nat) (f : Core → Core) : (updCore c f s).fills = s.fills := rfl
@[simp] theorem updCore_rdc (c : Nat) (f : Core → Core) : (updCore c f s).rdc = s.rdc := rfl
@[simp] theorem updCore_rdcDesc (c : Nat) (f : Core → Core) : (updCore c f s).rdcDesc = s.rdcDesc := rfl
@[simp] theorem updCore_incMsgs (c : Nat) (f : Core → Core) : (updCore c f s).incMsgs = s.incMsgs := rfl
@[simp] theorem updCore_bcasts (c : Nat) (f : Core → Core) : (updCore c f s).bcasts = s.bcasts := rfl
@[simp] theorem updCore_groups (c : Nat) (f : Core → Core) : (updCore c f s).groups = s.groups := rfl
@[simp] theorem updCore_joins (c : Nat) (f : Core → Core) : (updCore c f s).joins = s.joins := rfl
@[simp] theorem updCore_steals (c : Nat) (f : Core → Core) : (updCore c f s).steals = s.steals := rfl
@[simp] theorem updCore_queues (c : Nat) (f : Core → Core) : (updCore c f s).queues = s.queues := rfl
@[simp] theorem updCore_conns (c : Nat) (f : Core → Core) : (updCore c f s).conns = s.conns := rfl
@[simp] theorem updCore_links (c : Nat) (f : Core → Core) : (updCore c f s).links = s.links := rfl
@[simp] theorem updCore_resent (c : Nat) (f : Core → Core) : (updCore c f s).resent = s.resent := rfl
@[simp] theorem updCore_islands (c : Nat) (f : Core → Core) : (updCore c f s).islands = s.islands := rfl
@[simp] theorem updCore_power (c : Nat) (f : Core → Core) : (updCore c f s).power = s.power := rfl
@[simp] theorem updCore_boot (c : Nat) (f : Core → Core) : (updCore c f s).boot = s.boot := rfl
@[simp] theorem updCore_runTree (c : Nat) (f : Core → Core) : (updCore c f s).runTree = s.runTree := rfl
@[simp] theorem updCore_ptp (c : Nat) (f : Core → Core) : (updCore c f s).ptp = s.ptp := rfl
@[simp] theorem updCore_reports (c : Nat) (f : Core → Core) : (updCore c f s).reports = s.reports := rfl
@[simp] theorem updCore_ckpts (c : Nat) (f : Core → Core) : (updCore c f s).ckpts = s.ckpts := rfl
@[simp] theorem updCore_faults (c : Nat) (f : Core → Core) : (updCore c f s).faults = s.faults := rfl
@[simp] theorem updCore_inbox (c : Nat) (f : Core → Core) : (updCore c f s).inbox = s.inbox := rfl
@[simp] theorem updCore_cur (c : Nat) (f : Core → Core) : (updCore c f s).cur = s.cur := rfl
@[simp] theorem updCore_nextId (c : Nat) (f : Core → Core) : (updCore c f s).nextId = s.nextId := rfl
@[simp] theorem updCore_fresh (c : Nat) (f : Core → Core) : (updCore c f s).fresh = s.fresh := rfl
@[simp] theorem updCore_seq (c : Nat) (f : Core → Core) : (updCore c f s).seq = s.seq := rfl

/-! ## `updCrew` -/

@[simp] theorem updCrew_clk (k : Nat) (f : Crew → Crew) : (updCrew k f s).clk = s.clk := rfl
@[simp] theorem updCrew_mem (k : Nat) (f : Crew → Crew) : (updCrew k f s).mem = s.mem := rfl
@[simp] theorem updCrew_desc (k : Nat) (f : Crew → Crew) : (updCrew k f s).desc = s.desc := rfl
@[simp] theorem updCrew_gangs (k : Nat) (f : Crew → Crew) : (updCrew k f s).gangs = s.gangs := rfl
@[simp] theorem updCrew_crews (k : Nat) (f : Crew → Crew) : (updCrew k f s).crews = adj k f s.crews := rfl
@[simp] theorem updCrew_ens (k : Nat) (f : Crew → Crew) : (updCrew k f s).ens = s.ens := rfl
@[simp] theorem updCrew_gone (k : Nat) (f : Crew → Crew) : (updCrew k f s).gone = s.gone := rfl
@[simp] theorem updCrew_cores (k : Nat) (f : Crew → Crew) : (updCrew k f s).cores = s.cores := rfl
@[simp] theorem updCrew_ctxs (k : Nat) (f : Crew → Crew) : (updCrew k f s).ctxs = s.ctxs := rfl
@[simp] theorem updCrew_ctlb (k : Nat) (f : Crew → Crew) : (updCrew k f s).ctlb = s.ctlb := rfl
@[simp] theorem updCrew_walks (k : Nat) (f : Crew → Crew) : (updCrew k f s).walks = s.walks := rfl
@[simp] theorem updCrew_reqs (k : Nat) (f : Crew → Crew) : (updCrew k f s).reqs = s.reqs := rfl
@[simp] theorem updCrew_ops (k : Nat) (f : Crew → Crew) : (updCrew k f s).ops = s.ops := rfl
@[simp] theorem updCrew_peers (k : Nat) (f : Crew → Crew) : (updCrew k f s).peers = s.peers := rfl
@[simp] theorem updCrew_statuses (k : Nat) (f : Crew → Crew) : (updCrew k f s).statuses = s.statuses := rfl
@[simp] theorem updCrew_l2 (k : Nat) (f : Crew → Crew) : (updCrew k f s).l2 = s.l2 := rfl
@[simp] theorem updCrew_fills (k : Nat) (f : Crew → Crew) : (updCrew k f s).fills = s.fills := rfl
@[simp] theorem updCrew_rdc (k : Nat) (f : Crew → Crew) : (updCrew k f s).rdc = s.rdc := rfl
@[simp] theorem updCrew_rdcDesc (k : Nat) (f : Crew → Crew) : (updCrew k f s).rdcDesc = s.rdcDesc := rfl
@[simp] theorem updCrew_incMsgs (k : Nat) (f : Crew → Crew) : (updCrew k f s).incMsgs = s.incMsgs := rfl
@[simp] theorem updCrew_bcasts (k : Nat) (f : Crew → Crew) : (updCrew k f s).bcasts = s.bcasts := rfl
@[simp] theorem updCrew_groups (k : Nat) (f : Crew → Crew) : (updCrew k f s).groups = s.groups := rfl
@[simp] theorem updCrew_joins (k : Nat) (f : Crew → Crew) : (updCrew k f s).joins = s.joins := rfl
@[simp] theorem updCrew_steals (k : Nat) (f : Crew → Crew) : (updCrew k f s).steals = s.steals := rfl
@[simp] theorem updCrew_queues (k : Nat) (f : Crew → Crew) : (updCrew k f s).queues = s.queues := rfl
@[simp] theorem updCrew_conns (k : Nat) (f : Crew → Crew) : (updCrew k f s).conns = s.conns := rfl
@[simp] theorem updCrew_links (k : Nat) (f : Crew → Crew) : (updCrew k f s).links = s.links := rfl
@[simp] theorem updCrew_resent (k : Nat) (f : Crew → Crew) : (updCrew k f s).resent = s.resent := rfl
@[simp] theorem updCrew_islands (k : Nat) (f : Crew → Crew) : (updCrew k f s).islands = s.islands := rfl
@[simp] theorem updCrew_power (k : Nat) (f : Crew → Crew) : (updCrew k f s).power = s.power := rfl
@[simp] theorem updCrew_boot (k : Nat) (f : Crew → Crew) : (updCrew k f s).boot = s.boot := rfl
@[simp] theorem updCrew_runTree (k : Nat) (f : Crew → Crew) : (updCrew k f s).runTree = s.runTree := rfl
@[simp] theorem updCrew_ptp (k : Nat) (f : Crew → Crew) : (updCrew k f s).ptp = s.ptp := rfl
@[simp] theorem updCrew_reports (k : Nat) (f : Crew → Crew) : (updCrew k f s).reports = s.reports := rfl
@[simp] theorem updCrew_ckpts (k : Nat) (f : Crew → Crew) : (updCrew k f s).ckpts = s.ckpts := rfl
@[simp] theorem updCrew_faults (k : Nat) (f : Crew → Crew) : (updCrew k f s).faults = s.faults := rfl
@[simp] theorem updCrew_inbox (k : Nat) (f : Crew → Crew) : (updCrew k f s).inbox = s.inbox := rfl
@[simp] theorem updCrew_cur (k : Nat) (f : Crew → Crew) : (updCrew k f s).cur = s.cur := rfl
@[simp] theorem updCrew_nextId (k : Nat) (f : Crew → Crew) : (updCrew k f s).nextId = s.nextId := rfl
@[simp] theorem updCrew_fresh (k : Nat) (f : Crew → Crew) : (updCrew k f s).fresh = s.fresh := rfl
@[simp] theorem updCrew_seq (k : Nat) (f : Crew → Crew) : (updCrew k f s).seq = s.seq := rfl

/-! ## `updCtx` -/

@[simp] theorem updCtx_clk (k : Nat) (f : Ctx → Ctx) : (updCtx k f s).clk = s.clk := rfl
@[simp] theorem updCtx_mem (k : Nat) (f : Ctx → Ctx) : (updCtx k f s).mem = s.mem := rfl
@[simp] theorem updCtx_desc (k : Nat) (f : Ctx → Ctx) : (updCtx k f s).desc = s.desc := rfl
@[simp] theorem updCtx_gangs (k : Nat) (f : Ctx → Ctx) : (updCtx k f s).gangs = s.gangs := rfl
@[simp] theorem updCtx_crews (k : Nat) (f : Ctx → Ctx) : (updCtx k f s).crews = s.crews := rfl
@[simp] theorem updCtx_ens (k : Nat) (f : Ctx → Ctx) : (updCtx k f s).ens = s.ens := rfl
@[simp] theorem updCtx_gone (k : Nat) (f : Ctx → Ctx) : (updCtx k f s).gone = s.gone := rfl
@[simp] theorem updCtx_cores (k : Nat) (f : Ctx → Ctx) : (updCtx k f s).cores = s.cores := rfl
@[simp] theorem updCtx_ctxs (k : Nat) (f : Ctx → Ctx) : (updCtx k f s).ctxs = adj k f s.ctxs := rfl
@[simp] theorem updCtx_ctlb (k : Nat) (f : Ctx → Ctx) : (updCtx k f s).ctlb = s.ctlb := rfl
@[simp] theorem updCtx_walks (k : Nat) (f : Ctx → Ctx) : (updCtx k f s).walks = s.walks := rfl
@[simp] theorem updCtx_reqs (k : Nat) (f : Ctx → Ctx) : (updCtx k f s).reqs = s.reqs := rfl
@[simp] theorem updCtx_ops (k : Nat) (f : Ctx → Ctx) : (updCtx k f s).ops = s.ops := rfl
@[simp] theorem updCtx_peers (k : Nat) (f : Ctx → Ctx) : (updCtx k f s).peers = s.peers := rfl
@[simp] theorem updCtx_statuses (k : Nat) (f : Ctx → Ctx) : (updCtx k f s).statuses = s.statuses := rfl
@[simp] theorem updCtx_l2 (k : Nat) (f : Ctx → Ctx) : (updCtx k f s).l2 = s.l2 := rfl
@[simp] theorem updCtx_fills (k : Nat) (f : Ctx → Ctx) : (updCtx k f s).fills = s.fills := rfl
@[simp] theorem updCtx_rdc (k : Nat) (f : Ctx → Ctx) : (updCtx k f s).rdc = s.rdc := rfl
@[simp] theorem updCtx_rdcDesc (k : Nat) (f : Ctx → Ctx) : (updCtx k f s).rdcDesc = s.rdcDesc := rfl
@[simp] theorem updCtx_incMsgs (k : Nat) (f : Ctx → Ctx) : (updCtx k f s).incMsgs = s.incMsgs := rfl
@[simp] theorem updCtx_bcasts (k : Nat) (f : Ctx → Ctx) : (updCtx k f s).bcasts = s.bcasts := rfl
@[simp] theorem updCtx_groups (k : Nat) (f : Ctx → Ctx) : (updCtx k f s).groups = s.groups := rfl
@[simp] theorem updCtx_joins (k : Nat) (f : Ctx → Ctx) : (updCtx k f s).joins = s.joins := rfl
@[simp] theorem updCtx_steals (k : Nat) (f : Ctx → Ctx) : (updCtx k f s).steals = s.steals := rfl
@[simp] theorem updCtx_queues (k : Nat) (f : Ctx → Ctx) : (updCtx k f s).queues = s.queues := rfl
@[simp] theorem updCtx_conns (k : Nat) (f : Ctx → Ctx) : (updCtx k f s).conns = s.conns := rfl
@[simp] theorem updCtx_links (k : Nat) (f : Ctx → Ctx) : (updCtx k f s).links = s.links := rfl
@[simp] theorem updCtx_resent (k : Nat) (f : Ctx → Ctx) : (updCtx k f s).resent = s.resent := rfl
@[simp] theorem updCtx_islands (k : Nat) (f : Ctx → Ctx) : (updCtx k f s).islands = s.islands := rfl
@[simp] theorem updCtx_power (k : Nat) (f : Ctx → Ctx) : (updCtx k f s).power = s.power := rfl
@[simp] theorem updCtx_boot (k : Nat) (f : Ctx → Ctx) : (updCtx k f s).boot = s.boot := rfl
@[simp] theorem updCtx_runTree (k : Nat) (f : Ctx → Ctx) : (updCtx k f s).runTree = s.runTree := rfl
@[simp] theorem updCtx_ptp (k : Nat) (f : Ctx → Ctx) : (updCtx k f s).ptp = s.ptp := rfl
@[simp] theorem updCtx_reports (k : Nat) (f : Ctx → Ctx) : (updCtx k f s).reports = s.reports := rfl
@[simp] theorem updCtx_ckpts (k : Nat) (f : Ctx → Ctx) : (updCtx k f s).ckpts = s.ckpts := rfl
@[simp] theorem updCtx_faults (k : Nat) (f : Ctx → Ctx) : (updCtx k f s).faults = s.faults := rfl
@[simp] theorem updCtx_inbox (k : Nat) (f : Ctx → Ctx) : (updCtx k f s).inbox = s.inbox := rfl
@[simp] theorem updCtx_cur (k : Nat) (f : Ctx → Ctx) : (updCtx k f s).cur = s.cur := rfl
@[simp] theorem updCtx_nextId (k : Nat) (f : Ctx → Ctx) : (updCtx k f s).nextId = s.nextId := rfl
@[simp] theorem updCtx_fresh (k : Nat) (f : Ctx → Ctx) : (updCtx k f s).fresh = s.fresh := rfl
@[simp] theorem updCtx_seq (k : Nat) (f : Ctx → Ctx) : (updCtx k f s).seq = s.seq := rfl

/-! ## `updOp` -/

@[simp] theorem updOp_clk (k : Nat) (f : MemOp → MemOp) : (updOp k f s).clk = s.clk := rfl
@[simp] theorem updOp_mem (k : Nat) (f : MemOp → MemOp) : (updOp k f s).mem = s.mem := rfl
@[simp] theorem updOp_desc (k : Nat) (f : MemOp → MemOp) : (updOp k f s).desc = s.desc := rfl
@[simp] theorem updOp_gangs (k : Nat) (f : MemOp → MemOp) : (updOp k f s).gangs = s.gangs := rfl
@[simp] theorem updOp_crews (k : Nat) (f : MemOp → MemOp) : (updOp k f s).crews = s.crews := rfl
@[simp] theorem updOp_ens (k : Nat) (f : MemOp → MemOp) : (updOp k f s).ens = s.ens := rfl
@[simp] theorem updOp_gone (k : Nat) (f : MemOp → MemOp) : (updOp k f s).gone = s.gone := rfl
@[simp] theorem updOp_cores (k : Nat) (f : MemOp → MemOp) : (updOp k f s).cores = s.cores := rfl
@[simp] theorem updOp_ctxs (k : Nat) (f : MemOp → MemOp) : (updOp k f s).ctxs = s.ctxs := rfl
@[simp] theorem updOp_ctlb (k : Nat) (f : MemOp → MemOp) : (updOp k f s).ctlb = s.ctlb := rfl
@[simp] theorem updOp_walks (k : Nat) (f : MemOp → MemOp) : (updOp k f s).walks = s.walks := rfl
@[simp] theorem updOp_reqs (k : Nat) (f : MemOp → MemOp) : (updOp k f s).reqs = s.reqs := rfl
@[simp] theorem updOp_ops (k : Nat) (f : MemOp → MemOp) : (updOp k f s).ops = adj k f s.ops := rfl
@[simp] theorem updOp_peers (k : Nat) (f : MemOp → MemOp) : (updOp k f s).peers = s.peers := rfl
@[simp] theorem updOp_statuses (k : Nat) (f : MemOp → MemOp) : (updOp k f s).statuses = s.statuses := rfl
@[simp] theorem updOp_l2 (k : Nat) (f : MemOp → MemOp) : (updOp k f s).l2 = s.l2 := rfl
@[simp] theorem updOp_fills (k : Nat) (f : MemOp → MemOp) : (updOp k f s).fills = s.fills := rfl
@[simp] theorem updOp_rdc (k : Nat) (f : MemOp → MemOp) : (updOp k f s).rdc = s.rdc := rfl
@[simp] theorem updOp_rdcDesc (k : Nat) (f : MemOp → MemOp) : (updOp k f s).rdcDesc = s.rdcDesc := rfl
@[simp] theorem updOp_incMsgs (k : Nat) (f : MemOp → MemOp) : (updOp k f s).incMsgs = s.incMsgs := rfl
@[simp] theorem updOp_bcasts (k : Nat) (f : MemOp → MemOp) : (updOp k f s).bcasts = s.bcasts := rfl
@[simp] theorem updOp_groups (k : Nat) (f : MemOp → MemOp) : (updOp k f s).groups = s.groups := rfl
@[simp] theorem updOp_joins (k : Nat) (f : MemOp → MemOp) : (updOp k f s).joins = s.joins := rfl
@[simp] theorem updOp_steals (k : Nat) (f : MemOp → MemOp) : (updOp k f s).steals = s.steals := rfl
@[simp] theorem updOp_queues (k : Nat) (f : MemOp → MemOp) : (updOp k f s).queues = s.queues := rfl
@[simp] theorem updOp_conns (k : Nat) (f : MemOp → MemOp) : (updOp k f s).conns = s.conns := rfl
@[simp] theorem updOp_links (k : Nat) (f : MemOp → MemOp) : (updOp k f s).links = s.links := rfl
@[simp] theorem updOp_resent (k : Nat) (f : MemOp → MemOp) : (updOp k f s).resent = s.resent := rfl
@[simp] theorem updOp_islands (k : Nat) (f : MemOp → MemOp) : (updOp k f s).islands = s.islands := rfl
@[simp] theorem updOp_power (k : Nat) (f : MemOp → MemOp) : (updOp k f s).power = s.power := rfl
@[simp] theorem updOp_boot (k : Nat) (f : MemOp → MemOp) : (updOp k f s).boot = s.boot := rfl
@[simp] theorem updOp_runTree (k : Nat) (f : MemOp → MemOp) : (updOp k f s).runTree = s.runTree := rfl
@[simp] theorem updOp_ptp (k : Nat) (f : MemOp → MemOp) : (updOp k f s).ptp = s.ptp := rfl
@[simp] theorem updOp_reports (k : Nat) (f : MemOp → MemOp) : (updOp k f s).reports = s.reports := rfl
@[simp] theorem updOp_ckpts (k : Nat) (f : MemOp → MemOp) : (updOp k f s).ckpts = s.ckpts := rfl
@[simp] theorem updOp_faults (k : Nat) (f : MemOp → MemOp) : (updOp k f s).faults = s.faults := rfl
@[simp] theorem updOp_inbox (k : Nat) (f : MemOp → MemOp) : (updOp k f s).inbox = s.inbox := rfl
@[simp] theorem updOp_cur (k : Nat) (f : MemOp → MemOp) : (updOp k f s).cur = s.cur := rfl
@[simp] theorem updOp_nextId (k : Nat) (f : MemOp → MemOp) : (updOp k f s).nextId = s.nextId := rfl
@[simp] theorem updOp_fresh (k : Nat) (f : MemOp → MemOp) : (updOp k f s).fresh = s.fresh := rfl
@[simp] theorem updOp_seq (k : Nat) (f : MemOp → MemOp) : (updOp k f s).seq = s.seq := rfl

/-! ## `setByte` -/

@[simp] theorem setByte_clk (a : Nat) (b : Byte) : (setByte a b s).clk = s.clk := rfl
@[simp] theorem setByte_mem (a : Nat) (b : Byte) : (setByte a b s).mem = put 0 a b s.mem := rfl
@[simp] theorem setByte_desc (a : Nat) (b : Byte) : (setByte a b s).desc = s.desc := rfl
@[simp] theorem setByte_gangs (a : Nat) (b : Byte) : (setByte a b s).gangs = s.gangs := rfl
@[simp] theorem setByte_crews (a : Nat) (b : Byte) : (setByte a b s).crews = s.crews := rfl
@[simp] theorem setByte_ens (a : Nat) (b : Byte) : (setByte a b s).ens = s.ens := rfl
@[simp] theorem setByte_gone (a : Nat) (b : Byte) : (setByte a b s).gone = s.gone := rfl
@[simp] theorem setByte_cores (a : Nat) (b : Byte) : (setByte a b s).cores = s.cores := rfl
@[simp] theorem setByte_ctxs (a : Nat) (b : Byte) : (setByte a b s).ctxs = s.ctxs := rfl
@[simp] theorem setByte_ctlb (a : Nat) (b : Byte) : (setByte a b s).ctlb = s.ctlb := rfl
@[simp] theorem setByte_walks (a : Nat) (b : Byte) : (setByte a b s).walks = s.walks := rfl
@[simp] theorem setByte_reqs (a : Nat) (b : Byte) : (setByte a b s).reqs = s.reqs := rfl
@[simp] theorem setByte_ops (a : Nat) (b : Byte) : (setByte a b s).ops = s.ops := rfl
@[simp] theorem setByte_peers (a : Nat) (b : Byte) : (setByte a b s).peers = s.peers := rfl
@[simp] theorem setByte_statuses (a : Nat) (b : Byte) : (setByte a b s).statuses = s.statuses := rfl
@[simp] theorem setByte_l2 (a : Nat) (b : Byte) : (setByte a b s).l2 = s.l2 := rfl
@[simp] theorem setByte_fills (a : Nat) (b : Byte) : (setByte a b s).fills = s.fills := rfl
@[simp] theorem setByte_rdc (a : Nat) (b : Byte) : (setByte a b s).rdc = s.rdc := rfl
@[simp] theorem setByte_rdcDesc (a : Nat) (b : Byte) : (setByte a b s).rdcDesc = s.rdcDesc := rfl
@[simp] theorem setByte_incMsgs (a : Nat) (b : Byte) : (setByte a b s).incMsgs = s.incMsgs := rfl
@[simp] theorem setByte_bcasts (a : Nat) (b : Byte) : (setByte a b s).bcasts = s.bcasts := rfl
@[simp] theorem setByte_groups (a : Nat) (b : Byte) : (setByte a b s).groups = s.groups := rfl
@[simp] theorem setByte_joins (a : Nat) (b : Byte) : (setByte a b s).joins = s.joins := rfl
@[simp] theorem setByte_steals (a : Nat) (b : Byte) : (setByte a b s).steals = s.steals := rfl
@[simp] theorem setByte_queues (a : Nat) (b : Byte) : (setByte a b s).queues = s.queues := rfl
@[simp] theorem setByte_conns (a : Nat) (b : Byte) : (setByte a b s).conns = s.conns := rfl
@[simp] theorem setByte_links (a : Nat) (b : Byte) : (setByte a b s).links = s.links := rfl
@[simp] theorem setByte_resent (a : Nat) (b : Byte) : (setByte a b s).resent = s.resent := rfl
@[simp] theorem setByte_islands (a : Nat) (b : Byte) : (setByte a b s).islands = s.islands := rfl
@[simp] theorem setByte_power (a : Nat) (b : Byte) : (setByte a b s).power = s.power := rfl
@[simp] theorem setByte_boot (a : Nat) (b : Byte) : (setByte a b s).boot = s.boot := rfl
@[simp] theorem setByte_runTree (a : Nat) (b : Byte) : (setByte a b s).runTree = s.runTree := rfl
@[simp] theorem setByte_ptp (a : Nat) (b : Byte) : (setByte a b s).ptp = s.ptp := rfl
@[simp] theorem setByte_reports (a : Nat) (b : Byte) : (setByte a b s).reports = s.reports := rfl
@[simp] theorem setByte_ckpts (a : Nat) (b : Byte) : (setByte a b s).ckpts = s.ckpts := rfl
@[simp] theorem setByte_faults (a : Nat) (b : Byte) : (setByte a b s).faults = s.faults := rfl
@[simp] theorem setByte_inbox (a : Nat) (b : Byte) : (setByte a b s).inbox = s.inbox := rfl
@[simp] theorem setByte_cur (a : Nat) (b : Byte) : (setByte a b s).cur = s.cur := rfl
@[simp] theorem setByte_nextId (a : Nat) (b : Byte) : (setByte a b s).nextId = s.nextId := rfl
@[simp] theorem setByte_fresh (a : Nat) (b : Byte) : (setByte a b s).fresh = s.fresh := rfl
@[simp] theorem setByte_seq (a : Nat) (b : Byte) : (setByte a b s).seq = s.seq := rfl

/-! ## `setDesc` -/

@[simp] theorem setDesc_clk (a : Nat) (d : BitVec 16) : (setDesc a d s).clk = s.clk := rfl
@[simp] theorem setDesc_mem (a : Nat) (d : BitVec 16) : (setDesc a d s).mem = s.mem := rfl
@[simp] theorem setDesc_desc (a : Nat) (d : BitVec 16) : (setDesc a d s).desc = put resetDesc a d s.desc := rfl
@[simp] theorem setDesc_gangs (a : Nat) (d : BitVec 16) : (setDesc a d s).gangs = s.gangs := rfl
@[simp] theorem setDesc_crews (a : Nat) (d : BitVec 16) : (setDesc a d s).crews = s.crews := rfl
@[simp] theorem setDesc_ens (a : Nat) (d : BitVec 16) : (setDesc a d s).ens = s.ens := rfl
@[simp] theorem setDesc_gone (a : Nat) (d : BitVec 16) : (setDesc a d s).gone = s.gone := rfl
@[simp] theorem setDesc_cores (a : Nat) (d : BitVec 16) : (setDesc a d s).cores = s.cores := rfl
@[simp] theorem setDesc_ctxs (a : Nat) (d : BitVec 16) : (setDesc a d s).ctxs = s.ctxs := rfl
@[simp] theorem setDesc_ctlb (a : Nat) (d : BitVec 16) : (setDesc a d s).ctlb = s.ctlb := rfl
@[simp] theorem setDesc_walks (a : Nat) (d : BitVec 16) : (setDesc a d s).walks = s.walks := rfl
@[simp] theorem setDesc_reqs (a : Nat) (d : BitVec 16) : (setDesc a d s).reqs = s.reqs := rfl
@[simp] theorem setDesc_ops (a : Nat) (d : BitVec 16) : (setDesc a d s).ops = s.ops := rfl
@[simp] theorem setDesc_peers (a : Nat) (d : BitVec 16) : (setDesc a d s).peers = s.peers := rfl
@[simp] theorem setDesc_statuses (a : Nat) (d : BitVec 16) : (setDesc a d s).statuses = s.statuses := rfl
@[simp] theorem setDesc_l2 (a : Nat) (d : BitVec 16) : (setDesc a d s).l2 = s.l2 := rfl
@[simp] theorem setDesc_fills (a : Nat) (d : BitVec 16) : (setDesc a d s).fills = s.fills := rfl
@[simp] theorem setDesc_rdc (a : Nat) (d : BitVec 16) : (setDesc a d s).rdc = s.rdc := rfl
@[simp] theorem setDesc_rdcDesc (a : Nat) (d : BitVec 16) : (setDesc a d s).rdcDesc = s.rdcDesc := rfl
@[simp] theorem setDesc_incMsgs (a : Nat) (d : BitVec 16) : (setDesc a d s).incMsgs = s.incMsgs := rfl
@[simp] theorem setDesc_bcasts (a : Nat) (d : BitVec 16) : (setDesc a d s).bcasts = s.bcasts := rfl
@[simp] theorem setDesc_groups (a : Nat) (d : BitVec 16) : (setDesc a d s).groups = s.groups := rfl
@[simp] theorem setDesc_joins (a : Nat) (d : BitVec 16) : (setDesc a d s).joins = s.joins := rfl
@[simp] theorem setDesc_steals (a : Nat) (d : BitVec 16) : (setDesc a d s).steals = s.steals := rfl
@[simp] theorem setDesc_queues (a : Nat) (d : BitVec 16) : (setDesc a d s).queues = s.queues := rfl
@[simp] theorem setDesc_conns (a : Nat) (d : BitVec 16) : (setDesc a d s).conns = s.conns := rfl
@[simp] theorem setDesc_links (a : Nat) (d : BitVec 16) : (setDesc a d s).links = s.links := rfl
@[simp] theorem setDesc_resent (a : Nat) (d : BitVec 16) : (setDesc a d s).resent = s.resent := rfl
@[simp] theorem setDesc_islands (a : Nat) (d : BitVec 16) : (setDesc a d s).islands = s.islands := rfl
@[simp] theorem setDesc_power (a : Nat) (d : BitVec 16) : (setDesc a d s).power = s.power := rfl
@[simp] theorem setDesc_boot (a : Nat) (d : BitVec 16) : (setDesc a d s).boot = s.boot := rfl
@[simp] theorem setDesc_runTree (a : Nat) (d : BitVec 16) : (setDesc a d s).runTree = s.runTree := rfl
@[simp] theorem setDesc_ptp (a : Nat) (d : BitVec 16) : (setDesc a d s).ptp = s.ptp := rfl
@[simp] theorem setDesc_reports (a : Nat) (d : BitVec 16) : (setDesc a d s).reports = s.reports := rfl
@[simp] theorem setDesc_ckpts (a : Nat) (d : BitVec 16) : (setDesc a d s).ckpts = s.ckpts := rfl
@[simp] theorem setDesc_faults (a : Nat) (d : BitVec 16) : (setDesc a d s).faults = s.faults := rfl
@[simp] theorem setDesc_inbox (a : Nat) (d : BitVec 16) : (setDesc a d s).inbox = s.inbox := rfl
@[simp] theorem setDesc_cur (a : Nat) (d : BitVec 16) : (setDesc a d s).cur = s.cur := rfl
@[simp] theorem setDesc_nextId (a : Nat) (d : BitVec 16) : (setDesc a d s).nextId = s.nextId := rfl
@[simp] theorem setDesc_fresh (a : Nat) (d : BitVec 16) : (setDesc a d s).fresh = s.fresh := rfl
@[simp] theorem setDesc_seq (a : Nat) (d : BitVec 16) : (setDesc a d s).seq = s.seq := rfl

end Sys2Proof.Machine
end

