-- ==== Sys2Proof/Laws/Issue.lean ====
section
/-! SUPPORT. What an issue does, said once: lane by lane, and for an instruction on registers alone. -/

namespace Sys2Proof.Machine

/-- The scalar registers after the lanes `ls` have written theirs, in order. -/
def scalarsAfter (fn : Nat → Fibre → Lane) (fs : List Fibre) (ls : List Nat) (m : AMap Dword) : AMap Dword :=
  ls.foldl (fun m l => match fs[l]? with
    | some f => (fn l f).sc.foldl (fun m x => put 0 x.1 x.2 m) m
    | none => m) m

theorem setS_fold (xs : List (Nat × Dword)) : ∀ g : Gang,
    xs.foldl (fun g x => setS x.1 x.2 g) g = { g with s := xs.foldl (fun m x => put 0 x.1 x.2 m) g.s } := by
  induction xs with
  | nil => intro g; rfl
  | cons x xs ih => intro g; rw [List.foldl_cons, ih]; rfl

theorem scalarsAfter_set {fn : Nat → Fibre → Lane} {l : Nat} {f : Fibre} : ∀ {ls : List Nat} {fs : List Fibre} {m : AMap Dword},
    l ∉ ls → scalarsAfter fn (fs.set l f) ls m = scalarsAfter fn fs ls m
  | [], _, _, _ => rfl
  | i :: is, fs, m, h => by
    have hi : l ≠ i := fun e => h (e ▸ List.mem_cons_self)
    simp only [scalarsAfter, List.foldl_cons, List.getElem?_set_ne hi]
    exact scalarsAfter_set (fun hm => h (List.mem_cons_of_mem _ hm))

/-- R11, R14: with no fault, each lane of the list gets its own result, and the scalar results stand in order. -/
theorem lanesGo_ok {pc : Pc} {fn : Nat → Fibre → Lane} : ∀ {ls : List Nat} {g : Gang}, ls.Nodup →
    (∀ l ∈ ls, ∀ f, g.fibres[l]? = some f → (fn l f).fault = none) →
    lanesGo pc fn ls g = { g with
      fibres := g.fibres.mapIdx (fun l f => if l ∈ ls then (fn l f).f else f)
      s := scalarsAfter fn g.fibres ls g.s }
  | [], g, _, _ => by
    have h : g.fibres.mapIdx (fun _ f => f) = g.fibres := by apply List.ext_getElem?; intro n; simp
    simp only [lanesGo, scalarsAfter, List.foldl_nil, List.not_mem_nil, if_false, h]
  | i :: is, g, hn, hf => by
    have hi := List.nodup_cons.mp hn
    unfold lanesGo
    cases hg : fibreAt g i with
    | none =>
      have hg' : g.fibres[i]? = none := hg
      simp only
      rw [lanesGo_ok hi.2 (fun l hl f h => hf l (List.mem_cons_of_mem _ hl) f h)]
      congr 1
      · apply List.ext_getElem?
        intro n
        simp only [List.getElem?_mapIdx, List.mem_cons]
        by_cases hni : n = i
        · subst hni; simp [hg']
        · simp [hni]
      · simp [scalarsAfter, hg']
    | some f =>
      have hg' : g.fibres[i]? = some f := hg
      have hnf := hf i List.mem_cons_self f hg'
      simp only [hnf, setS_fold]
      rw [lanesGo_ok hi.2 (fun l hl f' h => by
        have hne : i ≠ l := fun e => hi.1 (e ▸ hl)
        simp only [List.getElem?_set_ne hne] at h
        exact hf l (List.mem_cons_of_mem _ hl) f' h)]
      congr 1
      · apply List.ext_getElem?
        intro n
        simp only [List.getElem?_mapIdx, List.mem_cons]
        by_cases hni : n = i
        · subst hni
          have hlt : n < g.fibres.length := by
            rcases Nat.lt_or_ge n g.fibres.length with h | h
            · exact h
            · rw [List.getElem?_eq_none h] at hg'; cases hg'
          simp [hg', hi.1, List.getElem?_set_self hlt]
        · simp [hni, List.getElem?_set_ne (Ne.symm hni)]
      · rw [scalarsAfter_set hi.1]
        simp [scalarsAfter, hg']

theorem mem_lanesOf {m : BitVec 64} {l : Nat} : l ∈ lanesOf m ↔ laneIn m l = true := by
  simp only [lanesOf, laneIn, List.mem_filter, List.mem_range, and_iff_right_iff_imp]
  intro h
  exact BitVec.lt_of_getLsbD h

theorem nodup_lanesOf (m : BitVec 64) : (lanesOf m).Nodup := List.Nodup.filter _ List.nodup_range

/-- An event count changes nothing but the counters of its core. -/
theorem perfCount_sameBut (core ctx code n k : Nat) (s : State) : SameBut k s (perfCount core ctx code n s) := by
  unfold perfCount
  split
  · exact ⟨rfl, fun _ _ => rfl, fun _ => rfl⟩
  · refine ⟨rfl, fun _ _ => rfl, fun c => ?_⟩
    by_cases h : c = core
    · subst h; simp [coreOf, updCore, look_ins_same]
    · simp [coreOf, updCore, look_ins_other h]

@[simp] theorem perfCount_gangs (core ctx code n : Nat) (s : State) : (perfCount core ctx code n s).gangs = s.gangs := by
  unfold perfCount; split <;> rfl

theorem SameBut.trans {k : Nat} {s t u : State} (h : SameBut k s t) (h' : SameBut k t u) : SameBut k s u := by
  refine ⟨?_, fun j hj => (h'.gangs j hj).trans (h.gangs j hj), fun c => ?_⟩
  · rw [h'.rest, h.rest]
  · rw [h'.cores c, h.cores c]

theorem updGang_sameBut (k : Nat) (f : Gang → Gang) (s : State) : SameBut k s (updGang k f s) :=
  ⟨rfl, fun _ hj => look_adj_other hj, fun _ => rfl⟩

/-- R159: what follows an issue touches only the escalation record and AGE. -/
theorem afterIssue_eq (s : State) (i : Instr) (group : BitVec 64) (g : Gang) :
    afterIssue s i group g = { g with esc := (afterIssue s i group g).esc, age := (afterIssue s i group g).age } := by
  unfold afterIssue
  cases he : g.esc <;> dsimp only
  · split
    · cases hs : starved (settledGang s g) <;> cases g <;> simp_all
    · cases g; simp_all
  · split <;> (split <;> [(split <;> cases g <;> simp_all); (cases g; simp_all)])

/-- R156, R159, R213: the accounts of an issue. -/
theorem noteIssue_eq (i : Instr) (h : Hd) (group : BitVec 64) (pc : Pc) (g : Gang) :
    noteIssue i h group pc g = { g with
      esc := (noteIssue i h group pc g).esc, age := (noteIssue i h group pc g).age, issues := g.issues + 1
      latch := latchAfter h i g.latch
      fibres := g.fibres.mapIdx fun l f => if laneIn group l then
        { f with pc := pc + BitVec.ofNat 48 (lenBytes i), li := g.issues + 1, defer := f.defer - 1 } else f } := by
  unfold noteIssue onLanes
  cases escActive g <;> simp

/-- R435: LORD alone moves. -/
theorem noteLord_eq (s : State) (h : Hd) (pc : Pc) (g : Gang) : noteLord s h pc g = { g with lord := (noteLord s h pc g).lord } := by
  unfold noteLord; split <;> rfl

theorem finish_eq {i : Instr} {h : Hd} {k : Nat} {group act : BitVec 64} {s : State} {g : Gang}
    (hg : look k s.gangs = some g) (hp : g.pend = []) (hb : NoBreaks s g) :
    ∃ t g', finish i h k group act s = t ∧ look k t.gangs = some g' ∧ SameBut k s t ∧
      g' = { g with esc := g'.esc, age := g'.age, walkFaults := [] } := by
  have ha := afterIssue_eq s i group { g with walkFaults := [] }
  have hl : look k (updGang k (fun g => afterIssue s i group { g with walkFaults := [] }) s).gangs =
      some (afterIssue s i group { g with walkFaults := [] }) := by
    rw [updGang_gangs, look_adj_same, hg]; rfl
  have hsame := updGang_sameBut k (fun g => afterIssue s i group { g with walkFaults := [] }) s
  generalize hs1 : updGang k (fun g => afterIssue s i group { g with walkFaults := [] }) s = s1 at *
  generalize hg1 : afterIssue s i group { g with walkFaults := [] } = g1 at *
  have hbr : breakAt s1 g1 g1.lord = false := by
    unfold breakAt
    cases hc : look g1.ctx s1.ctxs with
    | none => rfl
    | some c =>
      have hc' : look g.ctx s.ctxs = some c := by rw [ha] at hc; rw [← hs1] at hc; exact hc
      have := hb c hc'
      rw [List.any_eq_false] at this
      cases gangLaunch s1 g1 with
      | none => rfl
      | some l =>
        dsimp only
        rw [List.any_eq_false]
        intro b hbm
        have hbo := this b hbm
        rw [Bool.not_eq_true] at hbo
        rw [hbo]; simp
  have hset : settle k s1 = s1 := by
    unfold settle; rw [hl]; dsimp only; rw [if_pos (Or.inl (by rw [ha]; exact hp))]
  refine ⟨s1, g1, ?_, hl, hsame, by rw [ha]⟩
  unfold finish
  rw [hs1]
  cases h.stop
  · simpa using hset
  · simpa [hl, hbr] using hset

/-- The gang after the accounts of an issue now. -/
abbrev issued (i : Instr) (h : Hd) (s : State) (g : Gang) : Gang :=
  noteLord s h s.cur.pc (noteIssue i h s.cur.group s.cur.pc { g with issuedAt := some s.clk })

/-- R156, R159, R213, R435: the accounts of an issue are all that has changed. -/
theorem issued_eq (i : Instr) (h : Hd) (s : State) (g : Gang) :
    issued i h s g = { g with
      esc := (issued i h s g).esc, age := (issued i h s g).age, lord := (issued i h s g).lord, issues := g.issues + 1
      issuedAt := some s.clk, latch := latchAfter h i g.latch
      fibres := g.fibres.mapIdx fun l f => if laneIn s.cur.group l then
        { f with pc := s.cur.pc + BitVec.ofNat 48 (lenBytes i), li := g.issues + 1, defer := f.defer - 1 } else f } := by
  unfold issued
  rw [noteLord_eq, noteIssue_eq]

/-- An instruction that may issue, and that `gate` does not hold, does its body between the accounts and the end. -/
theorem issue_goes {i : Instr} {h : Hd} {c : CtrKind} {gate : Iss → State → Option State} {body : Iss → State → State}
    {s : State} {g : Gang} (hc : CanIssue i c s g) (hh : hdOf i = some h)
    (hgate : gate ⟨s.cur.gang, g, h, s.cur.group, acting h s g, s.cur.pc⟩ s = none) :
    issue i h c gate body s =
      let g' := issued i h s g
      .next (finish i h s.cur.gang s.cur.group (acting h s g)
        (body ⟨s.cur.gang, g', h, s.cur.group, acting h s g, s.cur.pc⟩
          (perfCount g.core g.ctx 3 (lanesOf (acting h s g)).length
            (perfCount g.core g.ctx 2 1 (updGang s.cur.gang (fun _ => g') s))))) := by
  unfold issue
  simp only [hc.gang, hc.allowed]
  rw [if_neg (by simp [hc.free, hc.ready, hc.room, hc.arrivals h hh]), show activeOf h s.cur.group g = acting h s g from rfl, hgate]

/-- The effect of an instruction that works lane by lane, never faulting, on registers alone. -/
theorem issue_lanes_did {i : Instr} {h : Hd} {c : CtrKind} {s : State} {g : Gang} {fn : Gang → Nat → Fibre → Lane}
    (hc : CanIssue i c s g) (hh : hdOf i = some h) (hx : exec i s = issue i h c noGate (fun x => perLane x (fn x.g)) s)
    (hok : ∀ g l f, (fn g l f).fault = none) :
    Did i h s g (fun l f => (fn (issued i h s g) l f).f)
      (scalarsAfter (fn (issued i h s g)) (issued i h s g).fibres
        (lanesOf (acting h s g))) := by
  have hi := issue_goes (gate := noGate) (body := fun x => perLane x (fn x.g)) hc hh rfl
  have hn := issued_eq i h s g
  generalize hgn : issued i h s g = gn at *
  generalize hs1 : perfCount g.core g.ctx 3 (lanesOf (acting h s g)).length
    (perfCount g.core g.ctx 2 1 (updGang s.cur.gang (fun _ => gn) s)) = s1 at *
  have hsame : SameBut s.cur.gang s s1 := by
    rw [← hs1]
    exact ((updGang_sameBut _ _ _).trans (perfCount_sameBut _ _ _ _ _ _)).trans (perfCount_sameBut _ _ _ _ _ _)
  have hl1 : look s.cur.gang s1.gangs = some gn := by
    rw [← hs1, perfCount_gangs, perfCount_gangs, updGang_gangs, look_adj_same, hc.gang]; rfl
  have hlanes := lanesGo_ok (pc := s.cur.pc) (fn := fn gn) (g := gn) (nodup_lanesOf (acting h s g)) (fun l _ f _ => hok gn l f)
  generalize hg2 : lanesGo s.cur.pc (fn gn) (lanesOf (acting h s g)) gn = g2 at *
  have hl2 : look s.cur.gang (updGang s.cur.gang (lanesGo s.cur.pc (fn gn) (lanesOf (acting h s g))) s1).gangs = some g2 := by
    rw [updGang_gangs, look_adj_same, hl1, ← hg2]; rfl
  have hb2 : NoBreaks (updGang s.cur.gang (lanesGo s.cur.pc (fn gn) (lanesOf (acting h s g))) s1) g2 := by
    intro cx hcx
    refine hc.noBreak cx ?_
    rw [updGang_ctxs, hsame.rest, hlanes, hn] at hcx
    exact hcx
  obtain ⟨t, g', ht, hl, hst, hg'⟩ := finish_eq (i := i) (h := h) (group := s.cur.group) (act := acting h s g)
    hl2 (by rw [hlanes, hn]; exact hc.noFault) hb2
  refine ⟨t, g', ?_, hl, (hsame.trans (updGang_sameBut _ _ _)).trans hst, ?_, ?_, ?_⟩
  · rw [hx, hi]; dsimp only; rw [hs1]; exact congrArg _ ht
  · rw [hg', hlanes, hn]; rfl
  · rw [hg', hlanes]
    have hfib : gn.fibres = _ := congrArg Gang.fibres hn
    rw [hfib]
    unfold fibresAfter
    apply List.ext_getElem?
    intro n
    simp only [List.getElem?_mapIdx, mem_lanesOf]
    cases g.fibres[n]? with
    | none => rfl
    | some f =>
      by_cases ha : laneIn (acting h s g) n = true
      · have hgrp : laneIn s.cur.group n = true := by
          simp only [acting, activeOf, laneIn, BitVec.getLsbD_and, Bool.and_eq_true] at ha
          exact ha.1
        simp [ha, hgrp, past]
      · simp [ha, past]
  · rw [hg', hlanes, hn]

/-! ## Results in registers -/

theorem issued_s (i : Instr) (h : Hd) (s : State) (g : Gang) : (issued i h s g).s = g.s := by
  rw [issued_eq]

/-- A source reads the same before and after the accounts of the issue. -/
theorem rd_past (i : Instr) (s : State) (g g' : Gang) (e : Ext) (r : RdFmt) (f : Fibre) (o : Opnd) (hs : g'.s = g.s) :
    rd g' e r (past i s g f) o = rd g e r f o := by
  cases o <;> simp [rd, getV64, getV, getP, getS, winBank, past, hs]

theorem rd_past' (i : Instr) (s : State) (g : Gang) (e : Ext) (r : RdFmt) (f : Fibre) (o : Opnd) :
    rd g e r (past i s g f) o = rd g e r f o := rd_past i s g g e r f o rfl

/-- Two effects that agree on what an issue gives them are one. -/
theorem Did.congr {i : Instr} {h : Hd} {s : State} {g : Gang} {u u' : Nat → Fibre → Fibre} {c c' : AMap Dword → AMap Dword}
    (hd : Did i h s g u c) (hu : ∀ l f, u l (past i s g f) = u' l (past i s g f)) (hc : c g.s = c' g.s) : Did i h s g u' c' := by
  obtain ⟨t, g', h1, h2, h3, h4, h5, h6⟩ := hd
  refine ⟨t, g', h1, h2, h3, h4, h5.trans ?_, h6.trans hc⟩
  unfold fibresAfter
  apply List.ext_getElem?
  intro n
  simp only [List.getElem?_mapIdx, hu]

/-- The scalar registers after lanes that each write one result to `d`. -/
theorem scalarsAfter_wr {i : Instr} {h : Hd} {s : State} {g : Gang} {bits : Nat} {d : Opnd} {val : Nat → Fibre → Dword}
    {fn : Nat → Fibre → Lane} (hsc : ∀ l f, (fn l (past i s g f)).sc = (wr bits d (val l f) (.ok f)).sc) (m : AMap Dword) :
    scalarsAfter fn (issued i h s g).fibres (lanesOf (acting h s g)) m =
      writeScalar bits d val h s g m := by
  have hfib : (issued i h s g).fibres = _ := congrArg Gang.fibres (issued_eq i h s g)
  have hact : ∀ l ∈ lanesOf (acting h s g), laneIn s.cur.group l = true := by
    intro l hl
    have ha := mem_lanesOf.mp hl
    simp only [acting, activeOf, laneIn, BitVec.getLsbD_and, Bool.and_eq_true] at ha
    exact ha.1
  have key : ∀ l ∈ lanesOf (acting h s g), ∀ m : AMap Dword,
      (match (issued i h s g).fibres[l]? with
        | some f => (fn l f).sc.foldl (fun (m : AMap Dword) (x : Nat × Dword) => put 0 x.1 x.2 m) m
        | none => m) = (match g.fibres[l]? with
        | some f => (wr bits d (val l f) (.ok f)).sc.foldl (fun (m : AMap Dword) (x : Nat × Dword) => put 0 x.1 x.2 m) m
        | none => m) := by
    intro l hl m
    rw [hfib, List.getElem?_mapIdx]
    cases g.fibres[l]? with
    | none => rfl
    | some f =>
      simp only [Option.map_some, hact l hl, if_true]
      have := hsc l f
      unfold past at this
      rw [this]
  unfold scalarsAfter
  have hfold : ∀ (ls : List Nat) (m : AMap Dword), (∀ l ∈ ls, l ∈ lanesOf (acting h s g)) →
      ls.foldl (fun m l => match (issued i h s g).fibres[l]? with
        | some f => (fn l f).sc.foldl (fun m x => put 0 x.1 x.2 m) m
        | none => m) m = ls.foldl (fun m l => match g.fibres[l]? with
        | some f => (wr bits d (val l f) (.ok f)).sc.foldl (fun m x => put 0 x.1 x.2 m) m
        | none => m) m := by
    intro ls
    induction ls with
    | nil => intro m _; rfl
    | cons l ls ih =>
      intro m hm
      rw [List.foldl_cons, List.foldl_cons, key l (hm l List.mem_cons_self),
        ih _ (fun x hx => hm x (List.mem_cons_of_mem _ hx))]
  rw [hfold _ _ (fun _ hl => hl)]
  cases d with
  | s n =>
    simp only [writeScalar, fibreAt, wr, Lane.ok, List.nil_append, List.foldl_cons, List.foldl_nil]
    all_goals congr 1
  | _ =>
    simp only [writeScalar, wr, Lane.ok, List.foldl_nil]
    induction lanesOf (acting h s g) generalizing m with
    | nil => rfl
    | cons l ls ih => rw [List.foldl_cons]; rw [show (match g.fibres[l]? with | some f => m | none => m) = m by cases g.fibres[l]? <;> rfl]; exact ih m

/-- A fibre's own register after a result. -/
theorem wr_f (bits : Nat) (d : Opnd) (x : Dword) (f : Fibre) : (wr bits d x (.ok f)).f = writeReg bits d x f := by
  cases d <;> rfl

theorem wr_fault (bits : Nat) (d : Opnd) (x : Dword) (l : Lane) : (wr bits d x l).fault = l.fault := by
  cases d <;> rfl

/-- An instruction on registers whose one result is written to `d`. -/
theorem regOp_result {i : Instr} {h : Hd} {s : State} {g : Gang} {bits : Nat} {d : Opnd} {fn : Gang → Fibre → Lane}
    {v : Gang → Fibre → Dword} {val : Fibre → Dword} (hc : CanIssue i .none s g) (hh : hdOf i = some h) (hx : exec i s = regOp i h fn s)
    (hfn : ∀ g f, fn g f = wr bits d (v g f) (.ok f))
    (hv : ∀ f, v (issued i h s g) (past i s g f) = val f) (hval : ∀ f, val (past i s g f) = val f) :
    Result i h s g bits d (fun _ f => val f) := by
  have hd := issue_lanes_did (fn := fun g _ f => fn g f) hc hh hx (fun g l f => by simp only [hfn, wr_fault]; rfl)
  refine hd.congr (fun l f => ?_) ?_
  · simp only [hfn, wr_f, hv, hval]
  · exact scalarsAfter_wr (val := fun _ f => val f) (fun l f => by simp only [hfn, hv]; cases d <;> rfl) _

/-- An instruction on registers whose one floating result is written to `d`, and whose flags are added to FST. -/
theorem regOp_float {i : Instr} {h : Hd} {s : State} {g : Gang} {bits : Nat} {d : Opnd} {fn : Gang → Fibre → Lane}
    {v : Gang → Fibre → Dword × Flags} {val : Fibre → Dword × Flags} (hc : CanIssue i .none s g) (hh : hdOf i = some h) (hx : exec i s = regOp i h fn s)
    (hfn : ∀ g f, fn g f = wrFl (v g f).2 (wr bits d (v g f).1 (.ok f)))
    (hv : ∀ f, v (issued i h s g) (past i s g f) = val f) (hval : ∀ f, val (past i s g f) = val f) :
    FloatResult i h s g bits d val := by
  have hd := issue_lanes_did (fn := fun g _ f => fn g f) hc hh hx (fun g l f => by simp only [hfn, wrFl, wr_fault]; rfl)
  refine hd.congr (fun l f => ?_) ?_
  · simp only [hfn, wrFl, wr_f, hv, hval]
  · exact scalarsAfter_wr (val := fun _ f => (val f).1) (fun l f => by simp only [hfn, hv, wrFl]; cases d <;> rfl) _

/-- An instruction that changes one fibre at a time, and writes no scalar register. -/
theorem regOp_fibre {i : Instr} {h : Hd} {s : State} {g : Gang} {fn : Gang → Fibre → Lane} {u : Fibre → Fibre}
    (hc : CanIssue i .none s g) (hh : hdOf i = some h) (hx : exec i s = regOp i h fn s) (hfn : ∀ g f, (fn g f).sc = [] ∧ (fn g f).fault = none)
    (hu : ∀ f, (fn (issued i h s g) (past i s g f)).f = u (past i s g f)) :
    Did i h s g (fun _ f => u f) id := by
  have hd := issue_lanes_did (fn := fun g _ f => fn g f) hc hh hx (fun g l f => (hfn g f).2)
  refine hd.congr (fun l f => hu f) ?_
  rw [scalarsAfter_wr (i := i) (h := h) (s := s) (g := g) (bits := 32) (d := .imm) (val := fun _ _ => 0)
    (fun l f => by rw [(hfn _ _).1]; rfl)]
  rfl

end Sys2Proof.Machine
end

