-- ==== Sys2Proof/Laws/Memory.lean ====
section
/-! SUPPORT. Memory, sector descriptors and scratchpads: every operation keeps the canonical form, a read after a write
gives the value written, and a write leaves every other byte. -/

namespace Sys2Proof.Machine

theorem wf_setByte {s : State} (h : Memory.wf s.mem = true) (a : Nat) (b : Byte) : Memory.wf (setByte a b s).mem = true := wf_put h

/-- A store of bytes keeps memory in canonical form. -/
theorem wf_setBytes : ∀ (bs : List (Nat × Byte)) {s : State}, Memory.wf s.mem = true → Memory.wf (setBytes bs s).mem = true
  | [], _, h => h
  | x :: bs, _, h => wf_setBytes bs (wf_setByte h x.1 x.2)

theorem wf_setDesc {s : State} (h : wf resetDesc s.desc = true) (a : Nat) (d : BitVec 16) :
    wf resetDesc (setDesc a d s).desc = true := wf_put h

/-- A store of bytes leaves the descriptors, and a store of a descriptor the bytes. -/
theorem setBytes_desc : ∀ (bs : List (Nat × Byte)) (s : State), (setBytes bs s).desc = s.desc
  | [], _ => rfl
  | x :: bs, s => setBytes_desc bs (setByte x.1 x.2 s)

theorem memByte_setByte {s : State} (h : Memory.wf s.mem = true) (a k : Nat) (b : Byte) :
    memByte (setByte k b s) a = if a = k then b else memByte s a := find_put h

/-- A store of bytes leaves every byte of another address. -/
theorem memByte_setBytes_other : ∀ (bs : List (Nat × Byte)) {s : State} {a : Nat}, Memory.wf s.mem = true →
    (∀ x ∈ bs, x.1 ≠ a) → memByte (setBytes bs s) a = memByte s a
  | [], _, _, _, _ => rfl
  | x :: bs, s, a, h, hx => by
    have h1 := memByte_setBytes_other bs (a := a) (wf_setByte h x.1 x.2) fun y hy => hx y (.tail _ hy)
    have h2 := memByte_setByte h a x.1 x.2
    rw [if_neg fun e => hx x (.head _) e.symm] at h2
    exact h1.trans h2

/-- A store to distinct addresses leaves at each the byte stored. -/
theorem memByte_setBytes_same : ∀ (bs : List (Nat × Byte)) {s : State} {x : Nat × Byte}, Memory.wf s.mem = true →
    (bs.map (·.1)).Nodup → x ∈ bs → memByte (setBytes bs s) x.1 = x.2
  | y :: bs, s, x, h, hn, hx => by
    rw [List.map_cons, List.nodup_cons] at hn
    have hw := wf_setByte h y.1 y.2
    rcases List.mem_cons.mp hx with rfl | hx
    · have h1 := memByte_setBytes_other bs (a := x.1) hw fun z hz e => hn.1 (List.mem_map.mpr ⟨z, hz, e⟩)
      exact h1.trans ((memByte_setByte h x.1 x.1 x.2).trans (if_pos rfl))
    · exact memByte_setBytes_same bs hw hn.2 hx

theorem memDesc_setDesc {s : State} (h : wf resetDesc s.desc = true) (a k : Nat) (d : BitVec 16) :
    memDesc (setDesc k d s) a = if a = k then d else memDesc s a := find_put h

/-- A write to a scratchpad keeps its canonical form. -/
theorem wf_spadWrites : ∀ (bs : List (Nat × Byte)) {m : AMap Byte}, wf 0 m = true →
    wf 0 (bs.foldl (fun m x => put 0 x.1 x.2 m) m) = true
  | [], _, h => h
  | _ :: bs, _, h => wf_spadWrites bs (wf_put h)

theorem wf_setSpad (bs : List (Nat × Byte)) {s : State} {c : Nat} (h : wf 0 (coreOf s c).spad = true) :
    wf 0 (coreOf (setSpad c bs s) c).spad = true := by
  have : (coreOf (setSpad c bs s) c).spad = bs.foldl (fun m x => put 0 x.1 x.2 m) (coreOf s c).spad := by
    simp [setSpad, coreOf, updCore, look_ins_same]
  rw [this]
  exact wf_spadWrites bs h

/-! ## A write at the home -/

/-- A store of bytes touches memory alone. -/
theorem setBytes_eq : ∀ (bs : List (Nat × Byte)) (s : State), setBytes bs s = { s with mem := (setBytes bs s).mem }
  | [], _ => rfl
  | x :: bs, s => setBytes_eq bs (setByte x.1 x.2 s)

/-- A free choice of some numbers moves the count of free values alone. -/
theorem pickSome_eq : ∀ (ns : List Nat) (s : State), (pickSome ns s).2 = { s with fresh := (pickSome ns s).2.fresh }
  | [], _ => rfl
  | _ :: ns, s => pickSome_eq ns (freshCoin s).2

theorem retake_eq (old : State) (ul uw : Nat) (w : List (Nat × Byte)) (a : Answer) (x : Nat) (s : State) :
    (retake old ul uw w a x s).2 = { s with fresh := (retake old ul uw w a x s).2.fresh } := by
  unfold retake
  dsimp only
  split <;> exact pickSome_eq _ _

theorem retakes_eq (old : State) (ul uw : Nat) (w : List (Nat × Byte)) : ∀ (xs : List Nat) (r : Answer × State),
    let t := (xs.foldl (fun r x => retake old ul uw w r.1 x r.2) r).2
    t = { r.2 with fresh := t.fresh }
  | [], _ => rfl
  | x :: xs, r => by
    have h := retakes_eq old ul uw w xs (retake old ul uw w r.1 x r.2)
    have h1 := retake_eq old ul uw w r.1 x r.2
    dsimp only at h ⊢
    rw [List.foldl_cons, h, h1]

/-- R108, R148: the loads that a write meets: their answers alone change, by free choices. -/
theorem meetLoads_eq (unit : Nat) (old : State) (w : List (Nat × Byte)) (s : State) :
    meetLoads unit old w s = { s with reqs := (meetLoads unit old w s).reqs, fresh := (meetLoads unit old w s).fresh } := by
  unfold meetLoads
  generalize (s.reqs.filter fun q => isRead q && !q.shut && w.any fun b => b.1 / 128 = q.line) = qs
  induction qs generalizing s with
  | nil => rfl
  | cons q qs ih =>
    rw [List.foldl_cons]
    refine (ih _).trans ?_
    dsimp only
    split
    · rw [setStage, mapReqs, retakes_eq]
    · rw [setStage, mapReqs, retakes_eq]
    · rfl

/-- A write at the homes writes its bytes of memory; besides, loads under way meet it, and engines and queues take note of it. -/
theorem writeHome_eq (unit : Nat) (bs : List (Nat × Byte)) (s : State) :
    writeHome unit bs s = { s with
      mem := (setBytes bs s).mem, cores := (writeHome unit bs s).cores, queues := (writeHome unit bs s).queues
      reqs := (writeHome unit bs s).reqs, fresh := (writeHome unit bs s).fresh } := by
  unfold writeHome
  dsimp only
  rw [meetLoads_eq, setBytes_eq]

theorem writeHome_mem (unit : Nat) (bs : List (Nat × Byte)) (s : State) : (writeHome unit bs s).mem = (setBytes bs s).mem :=
  (congrArg State.mem (writeHome_eq unit bs s) :)

theorem writeHome_desc (unit : Nat) (bs : List (Nat × Byte)) (s : State) : (writeHome unit bs s).desc = s.desc :=
  (congrArg State.desc (writeHome_eq unit bs s) :)

/-- Every write at the homes keeps memory in canonical form. -/
theorem wf_writeHome (unit : Nat) (bs : List (Nat × Byte)) {s : State} (h : Memory.wf s.mem = true) :
    Memory.wf (writeHome unit bs s).mem = true := by rw [writeHome_mem]; exact wf_setBytes bs h

/-- R411, R417: what can be reached is reached at once. -/
theorem comeUp_of_linesUp {die : Option Nat} {ls : List Nat} {s : State} (go : State → Outc) (h : linesUp s die ls = true) :
    comeUp die ls go s = go s := by rw [comeUp, if_pos h]

/-- R417: an access that waits makes islands start their exit, and changes nothing else. -/
theorem rouse_eq (die : Option Nat) (ls : List Nat) (s : State) : rouse die ls s = { s with islands := (rouse die ls s).islands } := rfl

/-- Memory after reset is in canonical form. -/
theorem reset_mem : Memory.wf State.reset.mem = true ∧ wf resetDesc State.reset.desc = true := ⟨rfl, rfl⟩

end Sys2Proof.Machine
end

