-- ==== Sys2Proof/Laws/PerInstr.lean ====
section
/-! SUPPORT. The statement made of every instruction, one lemma per constructor. -/

namespace Sys2Proof.Laws.Encoding

open Sys2Proof.Laws

/-- R50: the fields that the encoder gives the instruction fit their places in word0. -/
def Statement (i : Instr) : Prop := Fits (rawOf i)


/-- The fields that stand for a step of the device. -/
theorem device : Fits (raw ⟨7, false, false, 0, .none⟩ 0xFF) := by simp [Fits, raw]


theorem nop (h : Hd) : Statement (.nop h) := by
  change Fits (raw h 0x00)
  simp [Fits, raw]

theorem br (h : Hd) (off : Word) : Statement (.br h off) := by
  change Fits ({ raw h 0x01 with ext := .imm32 off })
  simp [Fits, raw]

theorem brx (h : Hd) (a : Opnd) : Statement (.brx h a) := by
  change Fits (rawA h 0x02 0 a)
  simp [Fits, raw, rawA]

theorem callLabel (h : Hd) (d : Opnd) (off : Word) : Statement (.callLabel h d off) := by
  change Fits ({ rawD h 0x03 0 d with ext := .imm32 off })
  simp [Fits, raw, rawD]

theorem callRegister (h : Hd) (d a : Opnd) : Statement (.callRegister h d a) := by
  change Fits (rawDA h 0x03 1 d a)
  simp [Fits, raw, rawDA, rawD]

theorem ret (h : Hd) (a : Opnd) : Statement (.ret h a) := by
  change Fits (rawA h 0x04 0 a)
  simp [Fits, raw, rawA]

theorem exit (h : Hd) : Statement (.exit h) := by
  change Fits (raw h 0x05)
  simp [Fits, raw]

theorem trap (h : Hd) (a : Opnd) : Statement (.trap h a) := by
  change Fits (rawA h 0x06 0 a)
  simp [Fits, raw, rawA]

theorem tret (h : Hd) : Statement (.tret h) := by
  change Fits (raw h 0x07)
  simp [Fits, raw]

theorem getsr (h : Hd) (wide : Bool) (d : Opnd) (idx : Fin 64) : Statement (.getsr h wide d idx) := by
  change Fits ({ rawSr h 0x08 wide idx with d := opndCode d })
  simp [Fits, raw, rawSr]

theorem setsr (h : Hd) (wide : Bool) (a : Opnd) (idx : Fin 64) : Statement (.setsr h wide a idx) := by
  change Fits ({ rawSr h 0x09 wide idx with a := opndCode a })
  simp [Fits, raw, rawSr]

theorem setsrKey (h : Hd) (wide : Bool) (a : Opnd) : Statement (.setsrKey h wide a) := by
  change Fits ({ rawSr h 0x09 wide 0x14 with a := opndCode a })
  simp [Fits, raw, rawSr]

theorem setsrPerf (h : Hd) (wide : Bool) (a : Opnd) (k : Fin 16) : Statement (.setsrPerf h wide a k) := by
  change Fits ({ rawSr h 0x09 wide (0x30 + k) with a := opndCode a })
  simp [Fits, raw, rawSr]

theorem yield (h : Hd) : Statement (.yield h) := by
  change Fits (raw h 0x0A)
  simp [Fits, raw]

theorem brk (h : Hd) : Statement (.brk h) := by
  change Fits (raw h 0x0B)
  simp [Fits, raw]

theorem add (h : Hd) (o : Int3) : Statement (.add h o) := by
  change Fits (rawI3 h 0x10 o)
  simp [Fits, raw, rawI3]

theorem sub (h : Hd) (o : Int3) : Statement (.sub h o) := by
  change Fits (rawI3 h 0x11 o)
  simp [Fits, raw, rawI3]

theorem mul (h : Hd) (o : Int3) : Statement (.mul h o) := by
  change Fits (rawI3 h 0x12 o)
  simp [Fits, raw, rawI3]

theorem mulhi (h : Hd) (o : Int3) : Statement (.mulhi h o) := by
  change Fits (rawI3 h 0x13 o)
  simp [Fits, raw, rawI3]

theorem mad (h : Hd) (o : Int4) : Statement (.mad h o) := by
  change Fits (rawI4 h 0x14 o)
  simp [Fits, raw, rawI4]

theorem div (h : Hd) (o : Int3) : Statement (.div h o) := by
  change Fits (rawI3 h 0x15 o)
  simp [Fits, raw, rawI3]

theorem rem (h : Hd) (o : Int3) : Statement (.rem h o) := by
  change Fits (rawI3 h 0x16 o)
  simp [Fits, raw, rawI3]

theorem neg (h : Hd) (o : Int2) : Statement (.neg h o) := by
  change Fits (rawI2 h 0x17 o)
  simp [Fits, raw, rawI2]

theorem abs (h : Hd) (o : Int2) : Statement (.abs h o) := by
  change Fits (rawI2 h 0x18 o)
  simp [Fits, raw, rawI2]

theorem min (h : Hd) (o : Int3) : Statement (.min h o) := by
  change Fits (rawI3 h 0x19 o)
  simp [Fits, raw, rawI3]

theorem max (h : Hd) (o : Int3) : Statement (.max h o) := by
  change Fits (rawI3 h 0x1A o)
  simp [Fits, raw, rawI3]

theorem and (h : Hd) (o : Int3) : Statement (.and h o) := by
  change Fits (rawI3 h 0x1B o)
  simp [Fits, raw, rawI3]

theorem or (h : Hd) (o : Int3) : Statement (.or h o) := by
  change Fits (rawI3 h 0x1C o)
  simp [Fits, raw, rawI3]

theorem xor (h : Hd) (o : Int3) : Statement (.xor h o) := by
  change Fits (rawI3 h 0x1D o)
  simp [Fits, raw, rawI3]

theorem not (h : Hd) (o : Int2) : Statement (.not h o) := by
  change Fits (rawI2 h 0x1E o)
  simp [Fits, raw, rawI2]

theorem shl (h : Hd) (o : Int3) : Statement (.shl h o) := by
  change Fits (rawI3 h 0x1F o)
  simp [Fits, raw, rawI3]

theorem shr (h : Hd) (o : Int3) : Statement (.shr h o) := by
  change Fits (rawI3 h 0x20 o)
  simp [Fits, raw, rawI3]

theorem sar (h : Hd) (o : Int3) : Statement (.sar h o) := by
  change Fits (rawI3 h 0x21 o)
  simp [Fits, raw, rawI3]

theorem rol (h : Hd) (o : Int3) : Statement (.rol h o) := by
  change Fits (rawI3 h 0x22 o)
  simp [Fits, raw, rawI3]

theorem ror (h : Hd) (o : Int3) : Statement (.ror h o) := by
  change Fits (rawI3 h 0x23 o)
  simp [Fits, raw, rawI3]

theorem popc (h : Hd) (o : Int2) : Statement (.popc h o) := by
  change Fits (rawI2 h 0x24 o)
  simp [Fits, raw, rawI2]

theorem clz (h : Hd) (o : Int2) : Statement (.clz h o) := by
  change Fits (rawI2 h 0x25 o)
  simp [Fits, raw, rawI2]

theorem ctz (h : Hd) (o : Int2) : Statement (.ctz h o) := by
  change Fits (rawI2 h 0x26 o)
  simp [Fits, raw, rawI2]

theorem brev (h : Hd) (o : Int2) : Statement (.brev h o) := by
  change Fits (rawI2 h 0x27 o)
  simp [Fits, raw, rawI2]

theorem bfe (h : Hd) (o : Bits) : Statement (.bfe h o) := by
  change Fits (rawBits h 0x28 o)
  simp [Fits, raw, rawBits]

theorem bfi (h : Hd) (o : Bits) : Statement (.bfi h o) := by
  change Fits (rawBits h 0x29 o)
  simp [Fits, raw, rawBits]

theorem sel (h : Hd) (o : Int4) : Statement (.sel h o) := by
  change Fits (rawI4 h 0x2A o)
  simp [Fits, raw, rawI4]

theorem mov (h : Hd) (o : Int2) : Statement (.mov h o) := by
  change Fits (rawI2 h 0x2B o)
  simp [Fits, raw, rawI2]

theorem setp (h : Hd) (o : CmpOps) : Statement (.setp h o) := by
  change Fits (rawCmp h 0x2C o)
  simp [Fits, raw, rawCmp]

theorem plog (h : Hd) (op : Plog) (d a b : Opnd) : Statement (.plog h op d a b) := by
  change Fits (rawDAB h 0x2D (codeIn plogTable op) d a b)
  simp [Fits, raw, rawDAB, rawDA, rawD]

theorem addc (h : Hd) (o : Int4) : Statement (.addc h o) := by
  change Fits (rawI4 h 0x2E o)
  simp [Fits, raw, rawI4]

theorem lea (h : Hd) (o : Int3) (scale : Fin 8) : Statement (.lea h o scale) := by
  change Fits ({ rawI3 h 0x2F o with v := scale })
  simp [Fits, raw, rawI3]

theorem fadd (h : Hd) (o : Fl3) : Statement (.fadd h o) := by
  change Fits (rawF3 h 0x30 o)
  simp [Fits, raw, rawF3]

theorem fsub (h : Hd) (o : Fl3) : Statement (.fsub h o) := by
  change Fits (rawF3 h 0x31 o)
  simp [Fits, raw, rawF3]

theorem fmul (h : Hd) (o : Fl3) : Statement (.fmul h o) := by
  change Fits (rawF3 h 0x32 o)
  simp [Fits, raw, rawF3]

theorem ffma (h : Hd) (o : Fl4) : Statement (.ffma h o) := by
  change Fits (rawF4 h 0x33 o)
  simp [Fits, raw, rawF4]

theorem fnfma (h : Hd) (o : Fl4) : Statement (.fnfma h o) := by
  change Fits (rawF4 h 0x34 o)
  simp [Fits, raw, rawF4]

theorem fdiv (h : Hd) (o : Fl3) : Statement (.fdiv h o) := by
  change Fits (rawF3 h 0x35 o)
  simp [Fits, raw, rawF3]

theorem fsqrt (h : Hd) (o : Fl2) : Statement (.fsqrt h o) := by
  change Fits (rawF2 h 0x36 o)
  simp [Fits, raw, rawF2]

theorem frcp (h : Hd) (o : Fl2) : Statement (.frcp h o) := by
  change Fits (rawF2 h 0x37 o)
  simp [Fits, raw, rawF2]

theorem frsq (h : Hd) (o : Fl2) : Statement (.frsq h o) := by
  change Fits (rawF2 h 0x38 o)
  simp [Fits, raw, rawF2]

theorem fmin (h : Hd) (o : Fl3) : Statement (.fmin h o) := by
  change Fits (rawF3 h 0x39 o)
  simp [Fits, raw, rawF3]

theorem fmax (h : Hd) (o : Fl3) : Statement (.fmax h o) := by
  change Fits (rawF3 h 0x3A o)
  simp [Fits, raw, rawF3]

theorem fabs (h : Hd) (o : Fl2) : Statement (.fabs h o) := by
  change Fits (rawF2 h 0x3B o)
  simp [Fits, raw, rawF2]

theorem fneg (h : Hd) (o : Fl2) : Statement (.fneg h o) := by
  change Fits (rawF2 h 0x3C o)
  simp [Fits, raw, rawF2]

theorem fsetp (h : Hd) (o : CmpOps) : Statement (.fsetp h o) := by
  change Fits (rawCmp h 0x3D o)
  simp [Fits, raw, rawCmp]

theorem fclass (h : Hd) (o : Fl2) : Statement (.fclass h o) := by
  change Fits (rawF2 h 0x3E o)
  simp [Fits, raw, rawF2]

theorem frnd (h : Hd) (o : Fl2) : Statement (.frnd h o) := by
  change Fits (rawF2 h 0x3F o)
  simp [Fits, raw, rawF2]

theorem fcpsgn (h : Hd) (o : Fl3) : Statement (.fcpsgn h o) := by
  change Fits (rawF3 h 0x40 o)
  simp [Fits, raw, rawF3]

theorem fscale (h : Hd) (o : Fl3) : Statement (.fscale h o) := by
  change Fits (rawF3 h 0x41 o)
  simp [Fits, raw, rawF3]

theorem fexpo (h : Hd) (o : Fl2) : Statement (.fexpo h o) := by
  change Fits (rawF2 h 0x42 o)
  simp [Fits, raw, rawF2]

theorem fmant (h : Hd) (o : Fl2) : Statement (.fmant h o) := by
  change Fits (rawF2 h 0x43 o)
  simp [Fits, raw, rawF2]

theorem f2sum (h : Hd) (o : Fl4) : Statement (.f2sum h o) := by
  change Fits (rawF4 h 0x44 o)
  simp [Fits, raw, rawF4]

theorem f2prod (h : Hd) (o : Fl4) : Statement (.f2prod h o) := by
  change Fits (rawF4 h 0x45 o)
  simp [Fits, raw, rawF4]

theorem fdot2 (h : Hd) (o : Fl4) : Statement (.fdot2 h o) := by
  change Fits (rawF4 h 0x46 o)
  simp [Fits, raw, rawF4]

theorem fpfma (h : Hd) (o : Fl4) : Statement (.fpfma h o) := by
  change Fits (rawF4 h 0x47 o)
  simp [Fits, raw, rawF4]

theorem cvt (h : Hd) (o : Cvt) : Statement (.cvt h o) := by
  change Fits ({ rawDA h 0x48 (fmtDst o.dst).1 o.d o.a with t := (fmtDst o.dst).2, c := fmtSrc o.src, m := codeIn rmTable o.rm, x := if o.sat then 2 else 0 })
  simp [Fits, raw, rawDA, rawD]

theorem pack (h : Hd) (o : Fl3) : Statement (.pack h o) := by
  change Fits (rawF3 h 0x49 o)
  simp [Fits, raw, rawF3]

theorem unpk (h : Hd) (hi : Bool) (o : Fl2) : Statement (.unpk h hi o) := by
  change Fits ({ rawF2 h 0x4A o with v := hi.toNat })
  simp [Fits, raw, rawF2]

theorem qnt (h : Hd) (d a b : Opnd) : Statement (.qnt h d a b) := by
  change Fits ({ rawDAB h 0x4B 0 d a b with t := ty .f32 })
  simp [Fits, raw, rawDAB, rawDA, rawD]

theorem qntIns (h : Hd) (d a b : Opnd) (j : Fin 512) : Statement (.qntIns h d a b j) := by
  change Fits ({ rawDAB h 0x4B 1 d a b with t := ty .f32, c := j })
  simp [Fits, raw, rawDAB, rawDA, rawD]

theorem fexp2 (h : Hd) (o : Fl2) : Statement (.fexp2 h o) := by
  change Fits (rawF2 h 0x4C o)
  simp [Fits, raw, rawF2]

theorem flog2 (h : Hd) (o : Fl2) : Statement (.flog2 h o) := by
  change Fits (rawF2 h 0x4D o)
  simp [Fits, raw, rawF2]

theorem rand (h : Hd) (t : Ty) (d : Opnd) : Statement (.rand h t d) := by
  change Fits ({ rawD h 0x4E 0 d with t := ty t })
  simp [Fits, raw, rawD]

theorem seed (h : Hd) (fid : Bool) (a : Opnd) : Statement (.seed h fid a) := by
  change Fits ({ rawA h 0x4F fid.toNat a with t := ty .n64 })
  simp [Fits, raw, rawA]

theorem wclr (h : Hd) (d : Fin 2) : Statement (.wclr h d) := by
  change Fits (rawD h 0x50 0 (.w d))
  simp [Fits, raw, rawD]

theorem wclrStat (h : Hd) (d : Fin 2) : Statement (.wclrStat h d) := by
  change Fits (rawD h 0x50 1 (.w d))
  simp [Fits, raw, rawD]

theorem wadd (h : Hd) (t : Ty) (d : Fin 2) (a : Opnd) : Statement (.wadd h t d a) := by
  change Fits ({ rawDA h 0x51 0 (.w d) a with t := ty t })
  simp [Fits, raw, rawDA, rawD]

theorem wsub (h : Hd) (t : Ty) (d : Fin 2) (a : Opnd) : Statement (.wsub h t d a) := by
  change Fits ({ rawDA h 0x52 0 (.w d) a with t := ty t })
  simp [Fits, raw, rawDA, rawD]

theorem wmul2 (h : Hd) (o : WMul) : Statement (.wmul2 h o) := by
  change Fits (rawMul h 0x53 o)
  simp [Fits, raw, rawMul]

theorem wmul3 (h : Hd) (o : WMul) (c : Opnd) : Statement (.wmul3 h o c) := by
  change Fits ({ rawMul h 0x54 o with c := opndCode c })
  simp [Fits, raw, rawMul]

theorem wsgn (h : Hd) (wide : Bool) (d : Opnd) (a : Fin 2) (p : Opnd) : Statement (.wsgn h wide d a p) := by
  change Fits ({ rawDA h 0x55 0 d (.w a) with t := t2 .i32 .i64 wide, c := opndCode p })
  simp [Fits, raw, rawDA, rawD, t2]

theorem wrnd (h : Hd) (wide : Bool) (rm : Rm) (d : Opnd) (a : Fin 2) : Statement (.wrnd h wide rm d a) := by
  change Fits ({ rawDA h 0x56 0 d (.w a) with t := t2 .f32 .f64 wide, m := codeIn rmTable rm })
  simp [Fits, raw, rawDA, rawD, t2]

theorem wmov (h : Hd) (op : WMov) (d a : Fin 2) : Statement (.wmov h op d a) := by
  change Fits (rawDA h 0x57 (codeIn wmovTable op) (.w d) (.w a))
  simp [Fits, raw, rawDA, rawD]

theorem wld (h : Hd) (o : WMem) : Statement (.wld h o) := by
  change Fits (rawWMem h 0x58 o)
  simp [Fits, raw, rawWMem]

theorem wst (h : Hd) (o : WMem) : Statement (.wst h o) := by
  change Fits (rawWMem h 0x59 o)
  simp [Fits, raw, rawWMem]

theorem ld (h : Hd) (o : Mem) : Statement (.ld h o) := by
  change Fits (rawMem h 0x60 o)
  simp [Fits, raw, rawMem]

theorem st (h : Hd) (o : Mem) : Statement (.st h o) := by
  change Fits (rawMem h 0x61 o)
  simp [Fits, raw, rawMem]

theorem imageStore (h : Hd) (t : Ty) (map : Fin 4) (d a b : Opnd) : Statement (.imageStore h t map d a b) := by
  change Fits ({ rawDAB h 0x61 map d a b with t := ty t, m := 3 })
  simp [Fits, raw, rawDAB, rawDA, rawD]

theorem atom (h : Hd) (o : Atom) : Statement (.atom h o) := by
  change Fits (rawAtom h 0x62 o (codeIn redTable o.op))
  simp [Fits, raw, rawAtom]

theorem cas (h : Hd) (o : Atom) : Statement (.cas h o) := by
  change Fits (rawAtom h 0x63 o (opndCode o.c))
  simp [Fits, raw, rawAtom]

theorem red (h : Hd) (o : RedOps) : Statement (.red h o) := by
  change Fits ({ rawDAB h 0x64 (codeIn scopeTable o.scope) o.d o.a o.b with t := ty o.t, m := if o.rel then 2 else 0, c := codeIn redTable o.op })
  simp [Fits, raw, rawDAB, rawDA, rawD]

theorem fenceAcq (h : Hd) (sc : Scope) : Statement (.fenceAcq h sc) := by
  change Fits ({ raw h 0x65 with v := codeIn scopeTable sc, c := 0 })
  simp [Fits, raw]

theorem fenceRel (h : Hd) (sc : Scope) : Statement (.fenceRel h sc) := by
  change Fits ({ raw h 0x65 with v := codeIn scopeTable sc, c := 1 })
  simp [Fits, raw]

theorem fenceFull (h : Hd) (sc : Scope) : Statement (.fenceFull h sc) := by
  change Fits ({ raw h 0x65 with v := codeIn scopeTable sc, c := 2 })
  simp [Fits, raw]

theorem fenceComplete (g id : Nat) : Statement (.fenceComplete g id) := device

theorem prefL1 (h : Hd) (a b : Opnd) : Statement (.prefL1 h a b) := by
  change Fits (rawAB h 0x66 0 a b)
  simp [Fits, raw, rawAB, rawA]

theorem prefL2 (h : Hd) (a b : Opnd) : Statement (.prefL2 h a b) := by
  change Fits ({ rawAB h 0x66 0 a b with c := 1 })
  simp [Fits, raw, rawAB, rawA]

theorem invalL1 (h : Hd) (a b : Opnd) : Statement (.invalL1 h a b) := by
  change Fits (rawAB h 0x67 0 a b)
  simp [Fits, raw, rawAB, rawA]

theorem invalAll (h : Hd) : Statement (.invalAll h) := by
  change Fits ({ raw h 0x67 with c := 1 })
  simp [Fits, raw]

theorem invalRdc (h : Hd) (a b : Opnd) : Statement (.invalRdc h a b) := by
  change Fits ({ rawAB h 0x67 0 a b with c := 2 })
  simp [Fits, raw, rawAB, rawA]

theorem flush (h : Hd) (a b : Opnd) : Statement (.flush h a b) := by
  change Fits (rawAB h 0x68 0 a b)
  simp [Fits, raw, rawAB, rawA]

theorem flushAll (h : Hd) : Statement (.flushAll h) := by
  change Fits ({ raw h 0x68 with c := 1 })
  simp [Fits, raw]

theorem ldesc (h : Hd) (o : Desc) : Statement (.ldesc h o) := by
  change Fits (rawDesc h 0x69 o)
  simp [Fits, raw, rawDesc]

theorem sdesc (h : Hd) (o : Desc) : Statement (.sdesc h o) := by
  change Fits (rawDesc h 0x6A o)
  simp [Fits, raw, rawDesc]

theorem dalloc (h : Hd) (d a : Opnd) : Statement (.dalloc h d a) := by
  change Fits (rawDA h 0x6B 0 d a)
  simp [Fits, raw, rawDA, rawD]

theorem dallocZ (h : Hd) (d a : Opnd) : Statement (.dallocZ h d a) := by
  change Fits ({ rawDA h 0x6B 0 d a with c := 1 })
  simp [Fits, raw, rawDA, rawD]

theorem magazineRefill (core ctx cls : Nat) : Statement (.magazineRefill core ctx cls) := device

theorem dfree (h : Hd) (a : Opnd) : Statement (.dfree h a) := by
  change Fits (rawA h 0x6C 0 a)
  simp [Fits, raw, rawA]

theorem spawnLabel (h : Hd) (o : Spawn) (off : Word) : Statement (.spawnLabel h o off) := by
  change Fits ({ rawSpawn h 0 0 o with ext := .imm32 off })
  simp [Fits, raw, rawSpawn]

theorem spawnRegister (h : Hd) (o : Spawn) (c : Opnd) : Statement (.spawnRegister h o c) := by
  change Fits (rawSpawn h 1 (opndCode c) o)
  simp [Fits, raw, rawSpawn]

theorem binTimerExpiry (core bin : Nat) : Statement (.binTimerExpiry core bin) := device

theorem spawnGangPlacement (core : Nat) : Statement (.spawnGangPlacement core) := device

theorem overflowReturn (core ctx seg : Nat) : Statement (.overflowReturn core ctx seg) := device

theorem barSync (h : Hd) (a b : Opnd) : Statement (.barSync h a b) := by
  change Fits (rawAB h 0x71 0 a b)
  simp [Fits, raw, rawAB, rawA]

theorem barArv (h : Hd) (a b : Opnd) : Statement (.barArv h a b) := by
  change Fits (rawAB h 0x71 1 a b)
  simp [Fits, raw, rawAB, rawA]

theorem barEsync (h : Hd) (b : Opnd) : Statement (.barEsync h b) := by
  change Fits ({ raw h 0x71 with v := 2, a := 0x1A0, b := opndCode b })
  simp [Fits, raw]

theorem barEarv (h : Hd) (b : Opnd) : Statement (.barEarv h b) := by
  change Fits ({ raw h 0x71 with v := 3, a := 0x1A0, b := opndCode b })
  simp [Fits, raw]

theorem barRgn (h : Hd) (d : Opnd) : Statement (.barRgn h d) := by
  change Fits (rawD h 0x71 4 d)
  simp [Fits, raw, rawD]

theorem barrierPhaseComplete (ens : Bool) (owner idx : Nat) : Statement (.barrierPhaseComplete ens owner idx) := device

theorem voteAll (h : Hd) (d a : Opnd) : Statement (.voteAll h d a) := by
  change Fits (rawDA h 0x72 0 d a)
  simp [Fits, raw, rawDA, rawD]

theorem voteAny (h : Hd) (d a : Opnd) : Statement (.voteAny h d a) := by
  change Fits (rawDA h 0x72 1 d a)
  simp [Fits, raw, rawDA, rawD]

theorem voteBallot (h : Hd) (d a : Opnd) : Statement (.voteBallot h d a) := by
  change Fits (rawDA h 0x72 2 d a)
  simp [Fits, raw, rawDA, rawD]

theorem voteUni (h : Hd) (wide : Bool) (d a : Opnd) : Statement (.voteUni h wide d a) := by
  change Fits ({ rawDA h 0x72 3 d a with t := t2 .b32 .b64 wide })
  simp [Fits, raw, rawDA, rawD, t2]

theorem shfl (h : Hd) (wide : Bool) (mode : Shfl) (d a b c : Opnd) : Statement (.shfl h wide mode d a b c) := by
  change Fits ({ rawDABC h 0x73 (codeIn shflTable mode) d a b c with t := t2 .b32 .b64 wide })
  simp [Fits, raw, rawDABC, rawDAB, rawDA, rawD, t2]

theorem gred (h : Hd) (o : Comb) : Statement (.gred h o) := by
  change Fits (rawComb h 0x74 o)
  simp [Fits, raw, rawComb]

theorem gscan (h : Hd) (o : Comb) (excl : Bool) : Statement (.gscan h o excl) := by
  change Fits ({ rawComb h 0x75 o with x := excl.toNat })
  simp [Fits, raw, rawComb]

theorem matchAny (h : Hd) (wide : Bool) (d a : Opnd) : Statement (.matchAny h wide d a) := by
  change Fits ({ rawDA h 0x76 0 d a with t := t2 .b32 .b64 wide })
  simp [Fits, raw, rawDA, rawD, t2]

theorem matchAll (h : Hd) (wide : Bool) (d a c : Opnd) : Statement (.matchAll h wide d a c) := by
  change Fits ({ rawDA h 0x76 1 d a with t := t2 .b32 .b64 wide, c := opndCode c })
  simp [Fits, raw, rawDA, rawD, t2]

theorem racq (h : Hd) (k : Fin 512) : Statement (.racq h k) := by
  change Fits ({ raw h 0x77 with c := k })
  simp [Fits, raw]

theorem racqGrant (core : Nat) : Statement (.racqGrant core) := device

theorem regdeadlockDetect (core : Nat) : Statement (.regdeadlockDetect core) := device

theorem rrel (h : Hd) (k : Fin 512) : Statement (.rrel h k) := by
  change Fits ({ raw h 0x78 with c := k })
  simp [Fits, raw]

theorem incu (h : Hd) (rel : Bool) (d a : Opnd) (k : Fin 512) : Statement (.incu h rel d a k) := by
  change Fits ({ rawDA h 0x79 0 d a with m := if rel then 2 else 0, c := k })
  simp [Fits, raw, rawDA, rawD]

theorem incumbentCommit (msg : Nat) : Statement (.incumbentCommit msg) := device

theorem incumbentBroadcastArrival (core bcast : Nat) : Statement (.incumbentBroadcastArrival core bcast) := device

theorem systemIncumbentForward (ctx k : Nat) (key : Dword) : Statement (.systemIncumbentForward ctx k key) := device

theorem incrd (h : Hd) (d : Opnd) (k : Fin 512) : Statement (.incrd h d k) := by
  change Fits ({ rawD h 0x7A 0 d with c := k })
  simp [Fits, raw, rawD]

theorem incrdHome (h : Hd) (acq : Bool) (d : Opnd) (k : Fin 512) : Statement (.incrdHome h acq d k) := by
  change Fits ({ rawD h 0x7A 1 d with m := if acq then 2 else 0, c := k })
  simp [Fits, raw, rawD]

theorem bnd (h : Hd) (a : Opnd) (k : Fin 512) : Statement (.bnd h a k) := by
  change Fits ({ rawA h 0x7B 0 a with c := k })
  simp [Fits, raw, rawA]

theorem defer (h : Hd) (n : Fin 512) : Statement (.defer h n) := by
  change Fits ({ raw h 0x7C with c := n })
  simp [Fits, raw]

theorem popen (h : Hd) : Statement (.popen h) := by
  change Fits (raw h 0x7D)
  simp [Fits, raw]

theorem accept (h : Hd) (d a : Opnd) : Statement (.accept h d a) := by
  change Fits (rawDA h 0x7E 0 d a)
  simp [Fits, raw, rawDA, rawD]

theorem pclose (h : Hd) : Statement (.pclose h) := by
  change Fits (raw h 0x7F)
  simp [Fits, raw]

theorem launch (h : Hd) (d a : Opnd) : Statement (.launch h d a) := by
  change Fits (rawDA h 0x80 0 d a)
  simp [Fits, raw, rawDA, rawD]

theorem signal (h : Hd) (sc : Scope) (a b : Opnd) : Statement (.signal h sc a b) := by
  change Fits (rawAB h 0x81 (codeIn scopeTable sc) a b)
  simp [Fits, raw, rawAB, rawA]

theorem signalAdd (h : Hd) (sc : Scope) (a b : Opnd) : Statement (.signalAdd h sc a b) := by
  change Fits ({ rawAB h 0x81 (codeIn scopeTable sc) a b with x := 1 })
  simp [Fits, raw, rawAB, rawA]

theorem orbitSize (h : Hd) (d : Opnd) : Statement (.orbitSize h d) := by
  change Fits (rawD h 0x82 0 d)
  simp [Fits, raw, rawD]

theorem orbitStab (h : Hd) (d : Opnd) : Statement (.orbitStab h d) := by
  change Fits (rawD h 0x82 1 d)
  simp [Fits, raw, rawD]

theorem orbitImg (h : Hd) (d : Opnd) (j : Fin 512) : Statement (.orbitImg h d j) := by
  change Fits ({ rawD h 0x82 2 d with c := j })
  simp [Fits, raw, rawD]

theorem role (h : Hd) (k : Fin 512) : Statement (.role h k) := by
  change Fits ({ raw h 0x83 with c := k })
  simp [Fits, raw]

theorem stgw (h : Hd) (a b : Opnd) (ph : Fin 512) : Statement (.stgw h a b ph) := by
  change Fits ({ rawAB h 0x84 0 a b with c := ph })
  simp [Fits, raw, rawAB, rawA]

theorem stgwPass (g : Nat) : Statement (.stgwPass g) := device

theorem stga (h : Hd) (a b : Opnd) : Statement (.stga h a b) := by
  change Fits (rawAB h 0x85 0 a b)
  simp [Fits, raw, rawAB, rawA]

theorem copyG2s (h : Hd) (desc : Bool) (d a b c : Opnd) : Statement (.copyG2s h desc d a b c) := by
  change Fits ({ rawDABC h 0x90 0 d a b c with x := desc.toNat })
  simp [Fits, raw, rawDABC, rawDAB, rawDA, rawD]

theorem copyS2g (h : Hd) (desc : Bool) (d a b c : Opnd) : Statement (.copyS2g h desc d a b c) := by
  change Fits ({ rawDABC h 0x90 1 d a b c with x := desc.toNat })
  simp [Fits, raw, rawDABC, rawDAB, rawDA, rawD]

theorem copyAcceptance (g : Nat) : Statement (.copyAcceptance g) := device

theorem gath (h : Hd) (t : Ty) (d a b : Opnd) : Statement (.gath h t d a b) := by
  change Fits ({ rawDAB h 0x91 0 d a b with t := ty t })
  simp [Fits, raw, rawDAB, rawDA, rawD]

theorem scat (h : Hd) (t : Ty) (d a b : Opnd) : Statement (.scat h t d a b) := by
  change Fits ({ rawDAB h 0x92 0 d a b with t := ty t })
  simp [Fits, raw, rawDAB, rawDA, rawD]

theorem copyComplete (core id : Nat) : Statement (.copyComplete core id) := device

theorem wait (h : Hd) (l s : Fin 64) (c : Fin 32) (m : Fin 8) : Statement (.wait h l s c m) := by
  change Fits ({ raw h 0x93 with ext := .imm32 (BitVec.ofNat 32 (l + 2 ^ 8 * s + 2 ^ 16 * c + 2 ^ 24 * m)) })
  simp [Fits, raw]

theorem waitComplete (g : Nat) : Statement (.waitComplete g) := device

theorem sleep (h : Hd) (a : Opnd) : Statement (.sleep h a) := by
  change Fits (rawA h 0x94 0 a)
  simp [Fits, raw, rawA]

theorem sleepWake (g : Nat) : Statement (.sleepWake g) := device

theorem subs (h : Hd) (d a : Opnd) : Statement (.subs h d a) := by
  change Fits (rawDA h 0x95 0 d a)
  simp [Fits, raw, rawDA, rawD]

theorem subscriptionTile (core slot : Nat) : Statement (.subscriptionTile core slot) := device

theorem unsub (h : Hd) (d a : Opnd) : Statement (.unsub h d a) := by
  change Fits (rawDA h 0x96 0 d a)
  simp [Fits, raw, rawDA, rawD]

theorem troupe (h : Hd) (a : Opnd) : Statement (.troupe h a) := by
  change Fits (rawA h 0x97 0 a)
  simp [Fits, raw, rawA]

theorem mopf (h : Hd) : Statement (.mopf h) := by
  change Fits (raw h 0x98)
  simp [Fits, raw]

theorem mopfComplete (g : Nat) : Statement (.mopfComplete g) := device

theorem mma (h : Hd) (o : Mma) : Statement (.mma h o) := by
  exact ⟨bit_lt _, bit_lt _, h.g.isLt, by change 0x99 < 256; decide, by change 0 < 8; decide, by change 0 < 16; decide,
    by change 0 < 512; decide, opndCode_lt _, opndCode_lt _, opndCode_lt _, h.hold.isLt, by change 0 < 4; decide,
    by change 0 < 4; decide⟩

theorem matrixStep (core : Nat) : Statement (.matrixStep core) := device

theorem mmaComplete (core : Nat) : Statement (.mmaComplete core) := device

theorem matrixFaultDelivery (g : Nat) : Statement (.matrixFaultDelivery g) := device

theorem mld (h : Hd) (o : TileMem) : Statement (.mld h o) := by
  change Fits (rawTileMem h 0x9A o)
  unfold rawTileMem rawTile
  split <;> simp [Fits, raw]

theorem mst (h : Hd) (o : TileMem) : Statement (.mst h o) := by
  change Fits (rawTileMem h 0x9B o)
  unfold rawTileMem rawTile
  split <;> simp [Fits, raw]

theorem tileMoveComplete (core id : Nat) : Statement (.tileMoveComplete core id) := device

theorem mcont (h : Hd) (tile : Fin 8) : Statement (.mcont h tile) := by
  exact rawTile_fits h 0x9C tile (by decide)

theorem wbload (h : Hd) (a b c : Opnd) : Statement (.wbload h a b c) := by
  change Fits ({ rawAB h 0x9D 0 a b with c := opndCode c })
  simp [Fits, raw, rawAB, rawA]

theorem wbloadComplete (core id : Nat) : Statement (.wbloadComplete core id) := device

theorem cgrp (h : Hd) (d a b : Opnd) : Statement (.cgrp h d a b) := by
  change Fits (rawDAB h 0xA0 0 d a b)
  simp [Fits, raw, rawDAB, rawDA, rawD]

theorem cgrpFree (h : Hd) (b : Opnd) : Statement (.cgrpFree h b) := by
  change Fits ({ raw h 0xA0 with v := 1, b := opndCode b })
  simp [Fits, raw]

theorem cag (h : Hd) (t : Ty) (d a b : Opnd) : Statement (.cag h t d a b) := by
  change Fits ({ rawDAB h 0xA1 0 d a b with t := ty t })
  simp [Fits, raw, rawDAB, rawDA, rawD]

theorem crs (h : Hd) (o : Comb) (b : Opnd) : Statement (.crs h o b) := by
  change Fits ({ rawComb h 0xA2 o with b := opndCode b })
  simp [Fits, raw, rawComb]

theorem ca2a (h : Hd) (t : Ty) (d a b : Opnd) : Statement (.ca2a h t d a b) := by
  change Fits ({ rawDAB h 0xA3 0 d a b with t := ty t })
  simp [Fits, raw, rawDAB, rawDA, rawD]

theorem collectivePerform (grp k : Nat) : Statement (.collectivePerform grp k) := device

theorem cbar (h : Hd) (d a : Opnd) : Statement (.cbar h d a) := by
  change Fits (rawDA h 0xA4 0 d a)
  simp [Fits, raw, rawDA, rawD]

theorem cwait (h : Hd) (d a : Opnd) : Statement (.cwait h d a) := by
  change Fits (rawDA h 0xA5 0 d a)
  simp [Fits, raw, rawDA, rawD]

theorem ckpt (h : Hd) (d a : Opnd) : Statement (.ckpt h d a) := by
  change Fits (rawDA h 0xA8 0 d a)
  simp [Fits, raw, rawDA, rawD]

theorem ckptHold (h : Hd) (d a : Opnd) : Statement (.ckptHold h d a) := by
  change Fits (rawDA h 0xA8 1 d a)
  simp [Fits, raw, rawDA, rawD]

theorem ckptResume (g : Nat) : Statement (.ckptResume g) := device

theorem perfSel (h : Hd) (d a : Opnd) (k : Fin 512) : Statement (.perfSel h d a k) := by
  change Fits ({ rawDA h 0xA9 0 d a with c := k })
  simp [Fits, raw, rawDA, rawD]

theorem perfSmp (h : Hd) (d a : Opnd) : Statement (.perfSmp h d a) := by
  change Fits (rawDA h 0xA9 1 d a)
  simp [Fits, raw, rawDA, rawD]

theorem stallSample (core : Nat) : Statement (.stallSample core) := device

theorem takeTrap (g : Nat) : Statement (.takeTrap g) := device

theorem meshRequestArrival (id : Nat) : Statement (.meshRequestArrival id) := device

theorem l2Lookup (die slice : Nat) : Statement (.l2Lookup die slice) := device

theorem hbmFillComplete (line : Nat) : Statement (.hbmFillComplete line) := device

theorem cacheFillArrival (id : Nat) : Statement (.cacheFillArrival id) := device

theorem loadReply (id : Nat) : Statement (.loadReply id) := device

theorem l1Eviction (core line : Nat) : Statement (.l1Eviction core line) := device

theorem peerAccessArrival (id : Nat) : Statement (.peerAccessArrival id) := device

theorem pageWalkComplete (id : Nat) : Statement (.pageWalkComplete id) := device

theorem launchAcceptance (q : Nat) : Statement (.launchAcceptance q) := device

theorem ticketClaim (ctx ltag core : Nat) : Statement (.ticketClaim ctx ltag core) := device

theorem launchCompletion (ctx ltag : Nat) : Statement (.launchCompletion ctx ltag) := device

theorem stealRequest (core ctx : Nat) : Statement (.stealRequest core ctx) := device

theorem stealReply (id : Nat) : Statement (.stealReply id) := device

theorem stolenRecordsArrival (id : Nat) : Statement (.stolenRecordsArrival id) := device

theorem queueFetch (q : Nat) : Statement (.queueFetch q) := device

theorem queueWake (q : Nat) : Statement (.queueWake q) := device

theorem queueUnmap (q : Nat) : Statement (.queueUnmap q) := device

theorem queueMap (q ctx : Nat) (desc : Dword) (weight : Nat) : Statement (.queueMap q ctx desc weight) := device

theorem rdmaWrite (conn : Nat) (va : Dword) (data : List Byte) : Statement (.rdmaWrite conn va data) := device

theorem rdmaRead (conn : Nat) (va : Dword) (len : Nat) : Statement (.rdmaRead conn va len) := device

theorem rdmaSend (conn : Nat) (data : List Byte) : Statement (.rdmaSend conn data) := device

theorem rdmaRefused (conn : Nat) (kind : Refusable) : Statement (.rdmaRefused conn kind) := device

theorem preemptRequest (ctx : Nat) (cores : List Nat) (urgent : Nat) : Statement (.preemptRequest ctx cores urgent) := device

theorem stopReleaseComplete (g : Nat) : Statement (.stopReleaseComplete g) := device

theorem storageClaimScanOut (core ctx : Nat) (claim : Claim) : Statement (.storageClaimScanOut core ctx claim) := device

theorem crewRestore (crew core : Nat) : Statement (.crewRestore crew core) := device

theorem powerOn (stages : List Stage) : Statement (.powerOn stages) := device

theorem attestationReport (nonce : List Byte) : Statement (.attestationReport nonce) := device

theorem createContext (cfg : CtxCfg) : Statement (.createContext cfg) := device

theorem tlbInvalidation (ctx : Nat) (va : Dword) (size : Nat) : Statement (.tlbInvalidation ctx va size) := device

theorem pageRevoke (ctx : Nat) (va : Dword) (size : Nat) : Statement (.pageRevoke ctx va size) := device

theorem resumeFrozenMaster (m : Master) : Statement (.resumeFrozenMaster m) := device

theorem discardFrozenMaster (m : Master) : Statement (.discardFrozenMaster m) := device

theorem counterGrant (core : Nat) (ctx : Option Nat) (ring size : Nat) : Statement (.counterGrant core ctx ring size) := device

theorem breakpointTableWrite (ctx : Nat) (idx : Fin 8) (hdr : Dword) (ord : Word) (enable : Bool) : Statement (.breakpointTableWrite ctx idx hdr ord enable) := device

theorem powerMeasurement (mw : PowerSample) : Statement (.powerMeasurement mw) := device

theorem powerThrottleStep : Statement (.powerThrottleStep) := device

theorem setPowerCap (watts : Nat) : Statement (.setPowerCap watts) := device

theorem islandStateChange (i : Nat) : Statement (.islandStateChange i) := device

theorem islandExitComplete (i : Nat) : Statement (.islandExitComplete i) := device

theorem flitRetransmit (src dst : Nat) : Statement (.flitRetransmit src dst) := device

theorem linkFailure (src dst : Nat) : Statement (.linkFailure src dst) := device

theorem failureRecovery (job : Failed) : Statement (.failureRecovery job) := device

theorem storeAcknowledgement (id : Nat) : Statement (.storeAcknowledgement id) := device

theorem stealRefusalArrival (id : Nat) : Statement (.stealRefusalArrival id) := device

theorem subscriptionTileComplete (core slot : Nat) : Statement (.subscriptionTileComplete core slot) := device

theorem linkRecovery (src dst : Nat) : Statement (.linkRecovery src dst) := device

theorem ptpMessageArrival (port : Fin 2) (time : Dword) : Statement (.ptpMessageArrival port time) := device

theorem destroyContext (ctx : Nat) : Statement (.destroyContext ctx) := device

theorem emptyReplayLog (ctx : Nat) : Statement (.emptyReplayLog ctx) := device

end Sys2Proof.Laws.Encoding
end

