-- ==== Sys2Proof/Tests/Slice0.lean ====
section
/-! SUPPORT. Tests and witnesses: ill-formed terms that the checks refuse, words written out from the spec's encodings, worked
results of the spec, and for the statements a state and operands that meet their hypotheses. -/

namespace Sys2Proof.Tests

open Sys2Proof Sys2Proof.Machine

set_option maxRecDepth 100000
set_option exponentiation.threshold 2000

/-! ## Helpers -/

/-- A plain guard, no stop bit, no hold, no extension. -/
abbrev hd0 : Hd := ⟨7, false, false, 0, .none⟩

/-- Words to the number of R50: the first word in the lowest bits. -/
def wordsNum (ws : List Word) : Nat := ws.foldr (fun w n => w.toNat + 2 ^ 32 * n) 0

/-- The machine about to issue the instruction (log 3). -/
def placed (i : Instr) : State :=
  { State.reset.withFetchWord (8 * lenBytes i) (wordsNum (encode i)) with cur := ⟨1, 1, 0x8000⟩ }

/-- Its gang. -/
abbrev g0 : Gang := placeGangOf

/-- The same, with another gang. -/
def placedG (i : Instr) (g : Gang) : State := { placed i with gangs := [(1, g)] }

/-- The gang with another fibre in lane 0. -/
def withFibre (u : Fibre → Fibre) : Gang := { g0 with fibres := g0.fibres.mapIdx fun l f => if l = 0 then u f else f }

/-- The conditions of CanIssue, as a test. -/
def canIssueB (i : Instr) (c : CtrKind) (s : State) (g : Gang) : Bool :=
  legal i && decide (look s.cur.gang s.gangs = some g) && decide (decodeFault s g i = none) && decide (g.holdOps = []) &&
    !regsPending s s.cur.gang s.cur.group i && !ctrFull c g && decide (g.pend = []) && !copyPending s s.cur.gang g &&
    (match look g.ctx s.ctxs with | some c => !c.breaks.any (·.on) | none => true) &&
    (match hdOf i with | some h => !arvOpen s s.cur.gang g (activeOf h s.cur.group g) i | none => true)

theorem canIssue_of {i : Instr} {c : CtrKind} {s : State} {g : Gang} (h : canIssueB i c s g = true) : CanIssue i c s g := by
  simp only [canIssueB, Bool.and_eq_true, decide_eq_true_eq, Bool.not_eq_true'] at h
  obtain ⟨⟨⟨⟨⟨⟨⟨⟨⟨h1, h2⟩, h3⟩, h4⟩, h5⟩, h6⟩, h7⟩, h8⟩, h9⟩, h10⟩ := h
  refine ⟨h1, h2, h3, h4, h5, h6, fun d hd => ?_, h7, h8, fun c hc => ?_⟩
  · rw [hd] at h10
    simpa using h10
  · rw [hc] at h9
    simpa using h9

/-- What holds of the fibre of lane 0 holds of every fibre of the mask 1. -/
theorem only_lane {g : Gang} {m : BitVec 64} {P : Nat → Fibre → Prop} (hm : m = 1)
    (h : ∀ f, fibreAt g 0 = some f → P 0 f) : ∀ l f, laneIn m l = true → fibreAt g l = some f → P l f := by
  intro l f hl hf
  have : l = 0 := by
    subst hm
    simp only [laneIn] at hl
    simp at hl
    omega
  subst this
  exact h f hf

theorem one_lane_ready {s : State} {g : Gang} (hm : s.cur.group = 1) (h : (fibreAt g 0).all ready = true) : GroupReady s g :=
  only_lane hm fun f hf => by rw [hf] at h; simpa using h

/-- The accesses pass their checks, as a test. -/
def passB (s : State) (g : Gang) (space : Space) (need : Need) (as : List Acc) : Bool :=
  as.all fun a => match check s g space need a with | .ok _ => true | _ => false

theorem allPass_of {s : State} {g : Gang} {space : Space} {need : Need} {as : List Acc} (h : passB s g space need as = true) :
    AllPass s g space need as := by
  intro a ha
  have h := List.all_eq_true.mp h a ha
  revert h
  cases hc : check s g space need a <;> simp

/-- Where every link and every island is up, every line can be reached. -/
theorem linesUp_of {s : State} (hi : s.islands = []) (hl : s.links = []) (die : Option Nat) (ls : List Nat) : linesUp s die ls = true := by
  simp [linesUp, pathUp, sendUp, linkUp, islandUp, islandOf, hi, hl, look]

/-! ## Every instruction can issue somewhere -/

/-- The hypotheses of the statements on these instructions hold on the state that places each. -/
theorem witness_issueControl1 : ∀ x ∈ ([
    (.nop hd0, .none), (.br hd0 8, .none), (.brx hd0 (.v 4), .none), (.callLabel hd0 (.v 2) 8, .none),
    (.callRegister hd0 (.v 2) (.v 4), .none), (.ret hd0 (.v 4), .none), (.exit hd0, .none),
    (.trap hd0 (.ic 33), .none), (.getsr hd0 false (.v 2) 1, .none), (.setsr hd0 false (.v 4) 1, .none),
    (.setsrKey hd0 true (.v 4), .none), (.setsrPerf hd0 true (.v 4) 0, .none), (.yield hd0, .none), (.brk hd0, .none),
    (.ckpt hd0 (.s 10) (.ic 33), .none), (.ckptHold hd0 (.s 10) (.ic 33), .none),
    (.perfSel hd0 (.s 10) (.ic 34) 0, .none), (.perfSmp hd0 (.s 10) (.ic 34), .none)] :
    List (Instr × CtrKind)), canIssueB x.1 x.2 (placed x.1) g0 = true := by decide

/-- The hypotheses of the statements on these instructions hold on the state that places each. -/
theorem witness_issueInteger1 : ∀ x ∈ ([
    (.add hd0 ⟨.n32, false, .v 2, .v 4, .v 6⟩, .none), (.sub hd0 ⟨.n32, false, .v 2, .v 4, .v 6⟩, .none),
    (.mul hd0 ⟨.n32, false, .v 2, .v 4, .v 6⟩, .none), (.mulhi hd0 ⟨.n32, false, .v 2, .v 4, .v 6⟩, .none),
    (.mad hd0 ⟨.n32, false, .v 2, .v 4, .v 6, .v 8⟩, .none), (.div hd0 ⟨.n32, false, .v 2, .v 4, .v 6⟩, .none),
    (.rem hd0 ⟨.n32, false, .v 2, .v 4, .v 6⟩, .none), (.neg hd0 ⟨.n32, false, .v 2, .v 4⟩, .none),
    (.abs hd0 ⟨.n32, false, .v 2, .v 4⟩, .none), (.min hd0 ⟨.n32, false, .v 2, .v 4, .v 6⟩, .none),
    (.max hd0 ⟨.n32, false, .v 2, .v 4, .v 6⟩, .none), (.and hd0 ⟨.n32, false, .v 2, .v 4, .v 6⟩, .none),
    (.or hd0 ⟨.n32, false, .v 2, .v 4, .v 6⟩, .none), (.xor hd0 ⟨.n32, false, .v 2, .v 4, .v 6⟩, .none),
    (.not hd0 ⟨.n32, false, .v 2, .v 4⟩, .none), (.shl hd0 ⟨.n32, false, .v 2, .v 4, .v 6⟩, .none),
    (.shr hd0 ⟨.n32, false, .v 2, .v 4, .v 6⟩, .none), (.sar hd0 ⟨.n32, false, .v 2, .v 4, .v 6⟩, .none),
    (.rol hd0 ⟨.n32, false, .v 2, .v 4, .v 6⟩, .none), (.ror hd0 ⟨.n32, false, .v 2, .v 4, .v 6⟩, .none),
    (.popc hd0 ⟨.n32, false, .v 2, .v 4⟩, .none), (.clz hd0 ⟨.n32, false, .v 2, .v 4⟩, .none),
    (.ctz hd0 ⟨.n32, false, .v 2, .v 4⟩, .none), (.brev hd0 ⟨.n32, false, .v 2, .v 4⟩, .none)] :
    List (Instr × CtrKind)), canIssueB x.1 x.2 (placed x.1) g0 = true := by decide

/-- The hypotheses of the statements on these instructions hold on the state that places each. -/
theorem witness_issueInteger2 : ∀ x ∈ ([
    (.bfe hd0 ⟨.n32, .v 2, .v 4, .v 6, 3⟩, .none), (.bfi hd0 ⟨.n32, .v 2, .v 4, .v 6, 3⟩, .none),
    (.sel hd0 ⟨.n32, false, .v 2, .v 4, .v 6, .p 1⟩, .none), (.mov hd0 ⟨.n32, false, .v 2, .v 4⟩, .none),
    (.setp hd0 ⟨.n32, .lt, .p 0, .v 4, .v 6⟩, .none), (.plog hd0 .and (.p 0) (.p 1) (.p 2), .none),
    (.addc hd0 ⟨.n32, false, .v 2, .v 4, .v 6, .p 1⟩, .none), (.lea hd0 ⟨.n64, false, .v 2, .v 4, .v 6⟩ 2, .none)] :
    List (Instr × CtrKind)), canIssueB x.1 x.2 (placed x.1) g0 = true := by decide

/-- The hypotheses of the statements on these instructions hold on the state that places each. -/
theorem witness_issueFloat1 : ∀ x ∈ ([
    (.fadd hd0 ⟨.f32, .rne, false, .v 2, .v 4, .v 6⟩, .none), (.fsub hd0 ⟨.f32, .rne, false, .v 2, .v 4, .v 6⟩, .none),
    (.fmul hd0 ⟨.f32, .rne, false, .v 2, .v 4, .v 6⟩, .none),
    (.ffma hd0 ⟨.f32, .rne, false, .v 2, .v 4, .v 6, .v 8⟩, .none),
    (.fnfma hd0 ⟨.f32, .rne, false, .v 2, .v 4, .v 6, .v 8⟩, .none),
    (.fdiv hd0 ⟨.f32, .rne, false, .v 2, .v 4, .v 6⟩, .none), (.fsqrt hd0 ⟨.f32, .rne, false, .v 2, .v 4⟩, .none),
    (.frcp hd0 ⟨.f32, .rne, false, .v 2, .v 4⟩, .none), (.frsq hd0 ⟨.f32, .rne, false, .v 2, .v 4⟩, .none),
    (.fmin hd0 ⟨.f32, .rne, false, .v 2, .v 4, .v 6⟩, .none), (.fmax hd0 ⟨.f32, .rne, false, .v 2, .v 4, .v 6⟩, .none),
    (.fabs hd0 ⟨.f32, .rne, false, .v 2, .v 4⟩, .none), (.fneg hd0 ⟨.f32, .rne, false, .v 2, .v 4⟩, .none),
    (.fsetp hd0 ⟨.f32, .lt, .p 0, .v 4, .v 6⟩, .none), (.fclass hd0 ⟨.f32, .rne, false, .v 2, .v 4⟩, .none),
    (.frnd hd0 ⟨.f32, .rne, false, .v 2, .v 4⟩, .none), (.fcpsgn hd0 ⟨.f32, .rne, false, .v 2, .v 4, .v 6⟩, .none),
    (.fscale hd0 ⟨.f32, .rne, false, .v 2, .v 4, .v 6⟩, .none), (.fexpo hd0 ⟨.f32, .rne, false, .v 2, .v 4⟩, .none),
    (.fmant hd0 ⟨.f32, .rne, false, .v 2, .v 4⟩, .none),
    (.f2sum hd0 ⟨.f32, .rne, false, .v 2, .v 4, .v 6, .v 8⟩, .none),
    (.f2prod hd0 ⟨.f32, .rne, false, .v 2, .v 4, .v 6, .v 8⟩, .none),
    (.fdot2 hd0 ⟨.f16, .rne, false, .v 2, .v 4, .v 6, .v 8⟩, .none),
    (.fpfma hd0 ⟨.f16, .rne, false, .v 2, .v 4, .v 6, .v 8⟩, .none)] :
    List (Instr × CtrKind)), canIssueB x.1 x.2 (placed x.1) g0 = true := by decide

/-- The hypotheses of the statements on these instructions hold on the state that places each. -/
theorem witness_issueFloat2 : ∀ x ∈ ([
    (.cvt hd0 ⟨.ty .f32, .ty .i32, .rne, false, .v 2, .v 4⟩, .none),
    (.pack hd0 ⟨.f16, .rne, false, .v 2, .v 4, .v 6⟩, .none), (.unpk hd0 false ⟨.f16, .rne, false, .v 2, .v 4⟩, .none),
    (.qnt hd0 (.v 2) (.v 4) (.v 6), .none), (.qntIns hd0 (.v 2) (.v 4) (.v 6) 3, .none),
    (.fexp2 hd0 ⟨.f32, .rne, false, .v 2, .v 4⟩, .none), (.flog2 hd0 ⟨.f32, .rne, false, .v 2, .v 4⟩, .none),
    (.rand hd0 .n32 (.v 2), .none), (.seed hd0 false (.v 4), .none)] :
    List (Instr × CtrKind)), canIssueB x.1 x.2 (placed x.1) g0 = true := by decide

/-- The hypotheses of the statements on these instructions hold on the state that places each. -/
theorem witness_issueWide1 : ∀ x ∈ ([
    (.wclr hd0 0, .none), (.wclrStat hd0 0, .none), (.wadd hd0 .f32 0 (.v 4), .none), (.wsub hd0 .f32 0 (.v 4), .none),
    (.wmul2 hd0 ⟨.f32, false, 0, .v 4, .v 6⟩, .none), (.wmul3 hd0 ⟨.f32, false, 0, .v 4, .v 6⟩ (.v 8), .none),
    (.wsgn hd0 false (.v 2) 0 (.p 0), .none), (.wrnd hd0 false .rne (.v 2) 0, .none), (.wmov hd0 .copy 0 1, .none)] :
    List (Instr × CtrKind)), canIssueB x.1 x.2 (placed x.1) g0 = true := by decide

/-- The hypotheses of the statements on these instructions hold on the state that places each. -/
theorem witness_issueMemory1 : ∀ x ∈ ([
    (.wld hd0 ⟨.scratch, 0, .v 4, .ic 32, .ic 32⟩, .ld), (.wst hd0 ⟨.scratch, 0, .v 4, .ic 32, .p 7⟩, .st),
    (.ld hd0 ⟨.n32, .fib, .weak, .glob, false, .v 2, .v 4, .ic 32⟩, .ld),
    (.st hd0 ⟨.n32, .fib, .weak, .glob, false, .v 2, .v 4, .ic 32⟩, .st),
    (.imageStore hd0 .n32 0 (.v 2) (.v 4) (.ic 32), .st),
    (.atom hd0 ⟨.n32, .dev, .strong, .glob, .add, .v 2, .v 4, .v 6, .ic 32⟩, .ld),
    (.cas hd0 ⟨.n32, .dev, .strong, .glob, .add, .v 2, .v 4, .v 6, .v 8⟩, .ld),
    (.red hd0 ⟨.n32, .fib, false, .add, .v 2, .v 4, .ic 32⟩, .st), (.fenceAcq hd0 .dev, .none),
    (.fenceRel hd0 .dev, .none), (.fenceFull hd0 .dev, .none), (.prefL1 hd0 (.v 4) (.ic 32), .none),
    (.prefL2 hd0 (.v 4) (.ic 32), .none), (.invalL1 hd0 (.v 4) (.ic 32), .none), (.invalAll hd0, .none),
    (.invalRdc hd0 (.v 4) (.ic 32), .none), (.flush hd0 (.v 4) (.ic 32), .st), (.flushAll hd0, .st),
    (.ldesc hd0 ⟨.glob, .v 2, .v 4, .ic 32⟩, .ld), (.sdesc hd0 ⟨.glob, .v 2, .v 4, .ic 32⟩, .st),
    (.dalloc hd0 (.v 2) (.ic 48), .ld), (.dallocZ hd0 (.v 2) (.ic 48), .ld), (.dfree hd0 (.v 4), .st)] :
    List (Instr × CtrKind)), canIssueB x.1 x.2 (placed x.1) g0 = true := by decide

/-- The hypotheses of the statements on these instructions hold on the state that places each. -/
theorem witness_issueParallel1 : ∀ x ∈ ([
    (.spawnLabel hd0 ⟨0, .none, .v 2, .ic 32, .ic 33⟩ 8, .none),
    (.spawnRegister hd0 ⟨0, .none, .v 2, .ic 32, .ic 33⟩ (.v 4), .none), (.barSync hd0 (.ic 32) (.ic 33), .none),
    (.barArv hd0 (.ic 32) (.ic 33), .none), (.barEsync hd0 (.ic 33), .none), (.barEarv hd0 (.ic 33), .none),
    (.barRgn hd0 (.v 2), .none), (.voteAll hd0 (.p 0) (.p 1), .none), (.voteAny hd0 (.p 0) (.p 1), .none),
    (.voteBallot hd0 (.v 2) (.p 1), .none), (.voteUni hd0 false (.p 0) (.v 4), .none),
    (.shfl hd0 false .idx (.v 2) (.v 4) (.v 6) (.p 0), .none),
    (.gred hd0 ⟨.n32, .add, .rne, false, .v 2, .v 4⟩, .none),
    (.gscan hd0 ⟨.n32, .add, .rne, false, .v 2, .v 4⟩ true, .none), (.matchAny hd0 false (.v 2) (.v 4), .none),
    (.matchAll hd0 false (.v 2) (.v 4) (.p 0), .none), (.racq hd0 1, .none), (.rrel hd0 1, .none),
    (.incu hd0 false (.v 2) (.v 4) 3, .ld), (.incrd hd0 (.v 2) 3, .none), (.incrdHome hd0 false (.v 2) 3, .ld),
    (.bnd hd0 (.v 4) 3, .none), (.defer hd0 4, .none), (.popen hd0, .none)] :
    List (Instr × CtrKind)), canIssueB x.1 x.2 (placed x.1) g0 = true := by decide

/-- The hypotheses of the statements on these instructions hold on the state that places each. -/
theorem witness_issueParallel2 : ∀ x ∈ ([
    (.accept hd0 (.p 0) (.v 4), .none), (.pclose hd0, .none), (.launch hd0 (.v 2) (.v 4), .ld),
    (.signal hd0 .dev (.v 4) (.v 6), .st), (.signalAdd hd0 .dev (.v 4) (.v 6), .st), (.orbitSize hd0 (.v 2), .none),
    (.orbitStab hd0 (.v 2), .none), (.orbitImg hd0 (.v 2) 1, .none)] :
    List (Instr × CtrKind)), canIssueB x.1 x.2 (placed x.1) g0 = true := by decide

/-- The hypotheses of the statements on these instructions hold on the state that places each. -/
theorem witness_issueEngine1 : ∀ x ∈ ([
    (.stgw hd0 (.s 4) (.ic 32) 0, .none), (.stga hd0 (.s 4) (.ic 32), .none),
    (.copyG2s hd0 false (.s 10) (.s 4) (.s 6) (.ic 36), .cp), (.copyS2g hd0 false (.s 10) (.s 4) (.s 6) (.ic 36), .cp),
    (.gath hd0 .n32 (.s 10) (.s 4) (.v 4), .cp), (.scat hd0 .n32 (.s 10) (.s 4) (.v 4), .cp),
    (.wait hd0 0 63 0 7, .none), (.sleep hd0 (.ic 32), .none), (.subs hd0 (.s 10) (.s 4), .none),
    (.unsub hd0 (.s 10) (.s 4), .none), (.troupe hd0 (.ic 35), .none), (.mopf hd0, .none),
    (.mma hd0 ⟨false, 0, 10, .s 4, .s 5, .ic 63⟩, .mt), (.mld hd0 ⟨.b64, true, 0, .s 4, .ic 32, 0, 0⟩, .mt),
    (.mst hd0 ⟨.b64, true, 0, .s 4, .ic 32, 0, 0⟩, .mt), (.mcont hd0 0, .mt), (.wbload hd0 (.s 4) (.s 6) (.s 8), .mt),
    (.cgrp hd0 (.s 10) (.s 4) (.ic 33), .none), (.cgrpFree hd0 (.s 4), .none),
    (.cag hd0 .n32 (.s 10) (.s 4) (.s 6), .none), (.crs hd0 ⟨.n32, .add, .rne, false, .s 10, .s 4⟩ (.s 6), .none),
    (.ca2a hd0 .n32 (.s 10) (.s 4) (.s 6), .none), (.cbar hd0 (.s 10) (.s 4), .none),
    (.cwait hd0 (.s 10) (.s 4), .none)] :
    List (Instr × CtrKind)), canIssueB x.1 x.2 (placed x.1) g0 = true := by decide

/-! ## Witnesses: control, system registers, memory instructions -/

theorem noReplay_of {s : State} {g : Gang} (h : (gangLaunch s g).all (fun l => !l.pkt.replay) = true) : NoReplay s g := by
  intro l hl
  rw [hl] at h
  simpa using h

theorem highest_of {h : Hd} {s : State} {g : Gang} {f : Fibre} (ha : acting h s g = 1) (hf : fibreAt g 0 = some f) :
    Highest h s g 0 f := by
  refine ⟨by rw [ha]; decide, hf, fun j hj => ?_⟩
  rw [ha] at hj
  simp only [laneIn] at hj
  simp at hj
  omega

/-- A trap frame whose only lane, 0, stands at the given place. -/
def frame0 (pc : Pc) : Frame := ⟨1, [⟨0, cause cSWTRAP, 5, pc⟩], [(0, pc)], 0, 0, 0, none⟩

/-- The machine with its core's counters held by its context. -/
def placedPerf (i : Instr) : State :=
  { placed i with cores := [(0, { placeCore with perf := { Perf.reset with owner := some 0, wrote := [(2, 5), (15, 7)] } })] }

/-- A symmetry of two elements over one array at virtual address 0. -/
def sym0 : Sym := ⟨[⟨⟨0, false, 0⟩, ⟨1, false, 0⟩, ⟨2, false, 0⟩, []⟩, ⟨⟨0, true, 0⟩, ⟨1, false, 0⟩, ⟨2, false, 0⟩, [0]⟩],
  [⟨0, 4, 16, 64, 3, 0⟩]⟩

/-- The machine with that symmetry, its fibre at point (1, 0, 0) of a box of 4 by 4 by 4. -/
def placedSym (i : Instr) : State :=
  let p := { placePacket with gx := 4, gy := 4, gz := 4 }
  { placedG i (withFibre fun f => { f with point := some (1, 0, 0) }) with
    ctxs := [(0, { placeCtx with launches := [(0, { placeLaunch with pkt := p, sym := some sym0 })] })] }
abbrev gSym : Gang := withFibre fun f => { f with point := some (1, 0, 0) }

theorem witness_Branches : ∃ (h : Hd) (a : Opnd) (s : State) (g : Gang), CanIssue (.brx h a) .none s g ∧ GroupReady s g ∧
    (∀ l f, laneIn (acting h s g) l = true → fibreAt g l = some f →
      (src h g .n64 f a).toNat < 2 ^ 48 ∧ (src h g .n64 f a).toNat % 4 = 0) ∧ acting h s g ≠ 0 :=
  ⟨hd0, .v 4, placed (.brx hd0 (.v 4)), g0, canIssue_of (by decide), one_lane_ready rfl (by decide),
    only_lane (by decide) (by decide), by decide⟩

theorem witness_SystemRegisterReads : ∃ (h : Hd) (s : State) (g : Gang), CanIssue (.getsr h true (.v 2) 0) .none s g ∧ NoReplay s g :=
  ⟨hd0, placed (.getsr hd0 true (.v 2) 0), g0, canIssue_of (by decide), noReplay_of (by decide)⟩

/-- A crew that a ticket placed, its grid not empty, and a frame with a record of lane 0 and a PC of lane 1. -/
theorem witness_SystemRegisterValues : (look g0.crew (placed (.nop hd0)).crews).map (·.spawned) = some false ∧
    (∃ e, gangLaunch (placed (.nop hd0)) g0 = some e ∧ e.sym = none ∧ 0 < e.pkt.gx ∧ 0 < e.pkt.gy) ∧
    (∃ e, gangLaunch (placedSym (.nop hd0)) gSym = some e ∧ e.sym.isSome = true) ∧
    (let fr := { frame0 0x8000 with pcs := [(1, 0x9000)] }
     (fr.recs.find? fun r => r.lane = 0).isSome = true ∧ (fr.recs.find? fun r => r.lane = 1) = none ∧
       fr.pcs.find? (fun p => p.1 = 1) = some (1, 0x9000)) := ⟨by decide, ⟨_, rfl, rfl, by decide, by decide⟩, ⟨_, rfl, rfl⟩, by decide⟩

/-- The other forms of this statement meet their hypotheses in the tests of issue above. -/
theorem witness_FormsComplete : ∀ x ∈ ([.getsr hd0 true (.v 2) 0x3F, .getsr hd0 false (.v 2) 0, .setsrPerf hd0 true (.v 4) 15] : List Instr),
    canIssueB x .none (placedPerf x) g0 = true ∧ holdsPerf (placedPerf x) g0 = true ∧
      ((gangLaunch (placedPerf x) g0).all fun l => !l.pkt.replay) = true := by decide

theorem witness_VectorBaseWrites : ∃ (h : Hd) (s : State) (g : Gang) (f : Fibre), CanIssue (.setsr h true (.v 4) 0x1D) .none s g ∧
    Highest h s g 0 f :=
  ⟨hd0, placed (.setsr hd0 true (.v 4) 0x1D), g0, _, canIssue_of (by decide), highest_of (by decide) rfl⟩

theorem witness_TrapPcWrites : ∃ (h : Hd) (s : State) (g : Gang) (fr : Frame), CanIssue (.setsr h true (.v 4) 0x19) .none s g ∧
    g.frames = [fr] :=
  ⟨hd0, placedG (.setsr hd0 true (.v 4) 0x19) { g0 with frames := [frame0 0x8000] }, { g0 with frames := [frame0 0x8000] }, _,
    canIssue_of (by decide), rfl⟩

theorem witness_PerformanceCounters : ∃ (h : Hd) (s : State) (g : Gang) (f : Fibre), CanIssue (.setsrPerf h true (.v 4) 15) .none s g ∧
    Highest h s g 0 f ∧ (coreOf s g.core).perf.owner = some g.ctx ∧ wf 0 (coreOf s g.core).perf.ctr = true ∧
    ((coreOf s g.core).perf.wrote.map (·.1)).Pairwise (· < ·) ∧ CanIssue (.getsr h true (.v 2) 0x3F) .none (placedPerf (.getsr h true (.v 2) 0x3F)) g ∧ NoReplay s g :=
  ⟨hd0, placedPerf (.setsrPerf hd0 true (.v 4) 15), g0, _, canIssue_of (by decide), highest_of (by decide) rfl, by decide, by decide, by decide,
    canIssue_of (by decide), noReplay_of (by decide)⟩

/-- A scratch access of lane 0 at address 0, and one that ends at the region's last byte. -/
theorem witness_ScratchpadAccesses : ∃ (o : Mem) (s : State) (g : Gang), o.space = .scratch ∧ CanIssue (.ld hd0 o) .ld s g ∧
    GroupReady s g ∧ AllPass s g .scratch needR (memAccs o (theIss hd0 s g)) ∧ CanIssue (.st hd0 o) .st s g ∧
    wf 0 (coreOf s g.core).spad = true ∧ Released hd0 s g o.scope ∧ AllPass s g .scratch needW (memAccs o (theIss hd0 s g)) :=
  ⟨⟨.n32, .fib, .weak, .scratch, false, .v 2, .v 4, .ic 32⟩, placedG (.nop hd0) (withFibre (setV64 4 4092)), withFibre (setV64 4 4092),
    rfl, canIssue_of (by decide), one_lane_ready rfl (by decide), allPass_of (by decide), canIssue_of (by decide), by decide,
    Or.inr ⟨by decide, by decide⟩, allPass_of (by decide)⟩

theorem witness_ScratchpadWideAccesses : ∃ (o : WMem) (s : State) (g : Gang), o.space = .scratch ∧
    CanIssue (.wld hd0 { o with c := .ic 32 }) .ld s g ∧ CanIssue (.wst hd0 o) .st s g ∧ GroupReady s g ∧ AllPass s g .scratch needR (wideAccs o (theIss hd0 s g)) ∧
    AllPass s g .scratch needW (wideAccs o (theIss hd0 s g)) :=
  ⟨⟨.scratch, 0, .v 4, .ic 32, .p 7⟩, placedG (.nop hd0) (withFibre (setV64 4 3968)), withFibre (setV64 4 3968), rfl,
    canIssue_of (by decide), canIssue_of (by decide), one_lane_ready rfl (by decide), allPass_of (by decide), allPass_of (by decide)⟩

theorem witness_ScratchpadDescriptors : ∃ (o : Desc) (s : State) (g : Gang), o.space = .scratch ∧ CanIssue (.ldesc hd0 o) .ld s g ∧
    CanIssue (.sdesc hd0 o) .st s g ∧ GroupReady s g ∧ NoReplay s g ∧ AllPass s g .scratch needR (byteAccs o.a o.b (theIss hd0 s g)) ∧
    AllPass s g .scratch needW (byteAccs o.a o.b (theIss hd0 s g)) ∧ wf resetDesc (coreOf s g.core).spadDesc = true :=
  ⟨⟨.scratch, .v 2, .v 4, .ic 32⟩, placed (.nop hd0), g0, rfl, canIssue_of (by decide), canIssue_of (by decide),
    one_lane_ready rfl (by decide), noReplay_of (by decide), allPass_of (by decide), allPass_of (by decide), by decide⟩

theorem witness_ScratchpadAtomics : ∃ (o : Atom) (s : State) (g : Gang), o.space = .scratch ∧ CanIssue (.atom hd0 o) (atomCtr o) s g ∧
    CanIssue (.cas hd0 { o with c := .v 8 }) (atomCtr o) s g ∧ GroupReady s g ∧ NoReplay s g ∧ Released hd0 s g o.scope ∧
    AllPass s g .scratch needRW (atomAccs o (theIss hd0 s g)) :=
  ⟨⟨.n32, .crew, .sync, .scratch, .add, .v 2, .v 4, .v 6, .ic 32⟩, placed (.nop hd0), g0, rfl, canIssue_of (by decide),
    canIssue_of (by decide), one_lane_ready rfl (by decide), noReplay_of (by decide), Or.inr ⟨by decide, by decide⟩, allPass_of (by decide)⟩

theorem cold_of {s : State} {core : Nat} {ps : List Part} (h : (coreOf s core).l1 = []) (h' : s.rdc = []) : Cold s core ps := by
  intro p _ k _
  simp [inL1, inRdc, rdcOf, h, h', look]

/-- A global access of lane 0 at virtual address 0, and a private one. -/
theorem witness_MemoryAccessesIssue : ∃ (s : State) (g : Gang), GroupReady s g ∧ acting hd0 s g ≠ 0 ∧ NoReplay s g ∧
    (coreOf s g.core).uo = [] ∧ ∀ sp, (sp = Space.glob ∨ sp = Space.priv) →
      let o : Mem := ⟨.n32, .dev, .sync, sp, false, .v 2, .v 4, .ic 32⟩
      let w : WMem := ⟨sp, 0, .v 4, .ic 32, .p 7⟩
      CanIssue (.ld hd0 o) .ld s g ∧ CanIssue (.st hd0 o) .st s g ∧ Released hd0 s g .dev ∧
      AllPass s g sp needR (memAccs o (theIss hd0 s g)) ∧ AllPass s g sp needW (memAccs o (theIss hd0 s g)) ∧
      CanIssue (.wld hd0 { w with c := .ic 32 }) .ld s g ∧ CanIssue (.wst hd0 w) .st s g ∧ AllPass s g sp needR (wideAccs w (theIss hd0 s g)) ∧
      AllPass s g sp needW (wideAccs w (theIss hd0 s g)) ∧
      Cold s g.core (partsOf s g sp needR (wideAccs w (theIss hd0 s g))) := by
  refine ⟨placed (.nop hd0), g0, one_lane_ready rfl (by decide), by decide, noReplay_of (by decide), by decide, ?_⟩
  rintro sp (rfl | rfl)
  · exact ⟨canIssue_of (by decide), canIssue_of (by decide), Or.inr ⟨by decide, by decide⟩, allPass_of (by decide), allPass_of (by decide),
      canIssue_of (by decide), canIssue_of (by decide), allPass_of (by decide), allPass_of (by decide), cold_of rfl rfl⟩
  · exact ⟨canIssue_of (by decide), canIssue_of (by decide), Or.inr ⟨by decide, by decide⟩, allPass_of (by decide), allPass_of (by decide),
      canIssue_of (by decide), canIssue_of (by decide), allPass_of (by decide), allPass_of (by decide), cold_of rfl rfl⟩

/-- A weak load served by L1. -/
theorem witness_LoadsHitL1 : let o : Mem := ⟨.n32, .fib, .weak, .glob, false, .v 2, .v 4, .ic 32⟩
    ∃ (s : State) (g : Gang), CanIssue (.ld hd0 o) .ld s g ∧ GroupReady s g ∧ NoReplay s g ∧
      AllPass s g .glob needR (memAccs o (theIss hd0 s g)) ∧ (coreOf s g.core).uo = [] ∧
      (∀ p ∈ partsOf s g .glob needR (memAccs o (theIss hd0 s g)), ∀ k ∈ p.keys, inL1 (coreOf s g.core) (sectorOf k) = true) ∧
      partsOf s g .glob needR (memAccs o (theIss hd0 s g)) ≠ [] :=
  let s : State := { placed (.nop hd0) with
    cores := [(0, { placeCore with l1 := (List.range 64).map fun i => (0x100000 + i, BitVec.ofNat 8 i) })] }
  ⟨s, g0, canIssue_of (by decide), one_lane_ready rfl (by decide), noReplay_of (by decide), allPass_of (by decide), by decide,
    by decide, by decide⟩

theorem witness_ImageStores : ∃ (s : State) (g : Gang), CanIssue (.imageStore hd0 .n32 0 (.v 2) (.v 4) (.ic 32)) .st s g ∧ GroupReady s g ∧
    (∀ l f, laneIn (acting hd0 s g) l = true → fibreAt g l = some f →
      imageFault s (theIss hd0 s g) .n32 0 (.v 2) (.v 4) (.ic 32) f = none) ∧
    AllPass s g .glob needW (imageAccs s .n32 0 (.v 2) (.v 4) (.ic 32) (theIss hd0 s g)) ∧
    (fibreAt g 0).map (fun f => (imageBytes s (theIss hd0 s g) .n32 0 (.v 2) (.v 4) (.ic 32) f).length) = some 8 :=
  ⟨placedSym (.nop hd0), gSym, canIssue_of (by decide), one_lane_ready rfl (by decide), only_lane (by decide) (by decide),
    allPass_of (by decide), by decide⟩

theorem witness_PeerAccessesIssue : let o : Mem := ⟨.n32, .fib, .weak, .peer, false, .v 2, .v 4, .ic 32⟩
    ∃ (s : State) (g : Gang), CanIssue (.ld hd0 o) .ld s g ∧ GroupReady s g ∧ acting hd0 s g ≠ 0 ∧
      AllPass s g .peer needR (memAccs o (theIss hd0 s g)) :=
  ⟨placed (.nop hd0), g0, canIssue_of (by decide), one_lane_ready rfl (by decide), by decide, allPass_of (by decide)⟩

theorem witness_AtomicsOfMemory : let o : Atom := ⟨.n32, .dev, .sync, .glob, .add, .v 2, .v 4, .v 6, .ic 32⟩
    ∃ (s : State) (g : Gang), CanIssue (.atom hd0 o) (atomCtr o) s g ∧ CanIssue (.cas hd0 { o with c := .v 8 }) (atomCtr o) s g ∧
      GroupReady s g ∧ acting hd0 s g ≠ 0 ∧ Released hd0 s g .dev ∧ AllPass s g .glob needRW (atomAccs o (theIss hd0 s g)) :=
  ⟨placed (.nop hd0), g0, canIssue_of (by decide), canIssue_of (by decide), one_lane_ready rfl (by decide), by decide,
    Or.inr ⟨by decide, by decide⟩, allPass_of (by decide)⟩

theorem witness_ReductionsAndDescriptors : let o : RedOps := ⟨.n32, .dev, true, .add, .v 2, .v 4, .ic 32⟩
    let d : Desc := ⟨.glob, .v 2, .v 4, .ic 32⟩
    ∃ (s : State) (g : Gang), CanIssue (.red hd0 o) .st s g ∧ GroupReady s g ∧ Released hd0 s g .dev ∧
      AllPass s g .glob needRW (redAccs o (theIss hd0 s g)) ∧ (coreOf s g.core).uo = [] ∧
      (linesIn (coreOf s g.core)).length + (linesTouched (partsOf s g .glob needRW (redAccs o (theIss hd0 s g)))).length ≤ l1Lines ∧ CanIssue (.ldesc hd0 d) .ld s g ∧
      CanIssue (.sdesc hd0 d) .st s g ∧ AllPass s g .glob needW (byteAccs d.a d.b (theIss hd0 s g)) :=
  ⟨placed (.nop hd0), g0, canIssue_of (by decide), one_lane_ready rfl (by decide), Or.inr ⟨by decide, by decide⟩, allPass_of (by decide),
    by decide, by decide, canIssue_of (by decide), canIssue_of (by decide), allPass_of (by decide)⟩

/-! ## Witnesses: the memory system -/

/-- One request of core 0 for the first line of die 0, at a given stage. -/
def aReq (act : ReqAct) (st : Machine.Stage) : Req := ⟨5, 3, 0, 0, 0, act, st, 0, false⟩
def withReq (r : Req) : State := { State.reset with reqs := [r] }

theorem witness_RequestsReachTheirHome : ∃ (s : State) (r : Req), reqById s r.id = some r ∧ r.stage = .mesh ∧
    sendUp s (dieOf r.core) (reqDie r) = true ∧
    (∀ q ∈ s.reqs, q.core = r.core → q.line = r.line → q.stage = .mesh → r.id ≤ q.id) :=
  ⟨withReq (aReq (.read true false [0]) .mesh), aReq (.read true false [0]) .mesh, by decide⟩

theorem witness_Lookups : let r := aReq (.read true false [0]) .queue
    let s := withReq r
    islandUp s (cacheIsland 0) = true ∧ sliceReqs s (reqDie r) (sliceOf (128 * r.line)) .queue = [r] ∧
      sliceReqs s (reqDie r) (sliceOf (128 * r.line)) .router = [] ∧
      (r.line ∉ s.fills ∧ r.line ∉ s.l2) ∧
      (r.line ∉ s.fills ∧ r.line ∈ ({ s with l2 := [0] } : State).l2 ∧
        (sliceLines { s with l2 := [0] } (reqDie r) (sliceOf (128 * r.line))).length ≤ 16) ∧
      (r.line ∈ ({ s with fills := [0] } : State).fills ∧ parkedCount { s with fills := [0] } (reqDie r) (sliceOf (128 * r.line)) < 64) := by
  decide

/-- Two requests of one die over one link: the one that is ahead. -/
theorem witness_LinkOrder : let r := aReq (.read true false [32]) .mesh
    let q := { r with id := 6, core := 1, line := 200 }
    let s := { State.reset with reqs := [r, q] }
    dieOf q.core = dieOf r.core ∧ ∀ x ∈ s.reqs, x.stage = .mesh → r.id ≤ x.id := by decide

/-- Two elements of one merged line that do not overlap, and canonical memory. -/
theorem witness_HomePerformsRequests : let u : UoLine := ⟨0, 0, .add, .n32, [(0, 5), (4, 6)]⟩
    wf 0 State.reset.mem = true ∧ wf resetDesc State.reset.desc = true ∧
      u.els.Pairwise (fun a b => a.1 + tyBytes u.t ≤ b.1 ∨ b.1 + tyBytes u.t ≤ a.1) := by decide

theorem witness_FillsComplete : let s := { withReq (aReq (.read true false [0]) .parked) with fills := [0] }
    0 ∈ s.fills ∧ islandUp s (hbmIsland 0) = true := by decide

theorem witness_FillArrivals : let a : Answer := ⟨[(0, 1), (1, 2)], [(0, 1), (1, 2)], [(0, 0x8000)], [], 0⟩
    let r := aReq (.read true true [0]) (.filled a)
    reqById (withReq r) r.id = some r ∧ replyUp (withReq r) r = true ∧ a.fill ≠ [] ∧ (a.fill.map (·.1)).Nodup := by decide

/-- A context whose root table at 0x200000 leads to a leaf that maps virtual 0 to physical 0x100000. -/
def tables : List (Nat × Byte) :=
  [(0x200000, 1), (0x200002, 0x21), (0x210000, 1), (0x210002, 0x22), (0x220000, 0x73), (0x220002, 0x10)]
def walker : State :=
  { setBytes tables { placed (.nop hd0) with walks := [(9, ⟨0, 0, 1, 0, needR⟩)] } with ctxs := [(0, { placeCtx with root := 0x200000 })] }

theorem witness_WalksFinish : ∃ w e, look 9 walker.walks = some w ∧ walkReady walker 9 w = true ∧
    walk walker w.ctx w.va.toNat = .ok e ∧ e.pa = 0x100000 ∧ e.size = 0x10000 ∧ w.need.met e = true :=
  ⟨_, _, rfl, by decide, rfl, by decide, by decide, by decide⟩

theorem witness_WalksFail : let s := { placed (.nop hd0) with walks := [(9, ⟨0, 0, 1, 0x20000, needR⟩)] }
    ∃ w kind level g, look 9 s.walks = some w ∧ walkReady s 9 w = true ∧ walk s w.ctx w.va.toNat = .error (kind, level) ∧
      look w.gang s.gangs = some g := ⟨_, _, _, _, rfl, by decide, rfl, rfl⟩

/-- A leaf of the tables that may be read only, for a write. -/
theorem witness_WalksLackPermission : let s := setBytes [(0x220000, 0x13)] { walker with walks := [(9, ⟨0, 0, 1, 0, needW⟩)] }
    ∃ w e g, look 9 s.walks = some w ∧ walkReady s 9 w = true ∧ walk s w.ctx w.va.toNat = .ok e ∧ w.need.met e = false ∧ e.level = 3 ∧
      look w.gang s.gangs = some g := ⟨_, _, _, rfl, by decide, rfl, by decide, by decide, rfl⟩

theorem witness_Evictions : let s := { placed (.nop hd0) with cores := [(0, { placeCore with l1 := [(0x100000, 1)] })] }
    ∃ x ∈ (coreOf s 0).l1, lineOf x.1 = 0x2000 := by decide

/-- A load of one fibre whose only reply is at hand. -/
def loadOp : MemOp :=
  { id := 3, gang := 1, core := 0, ctr := .ld, dst := some (.v 2, .ty .n32), parts := [⟨0, [0, 1, 2, 3]⟩], got := [], vals := [], left := 1
    acq := some .dev, fib := 1, regs := dstRegs (.v 2) (dstWords (.ty .n32)) [0], load := true, lines := [], deps := [], unit := 4
    bypass := true, logv := false, smp := none, sub := none }

theorem witness_LoadReplies : let a : Answer := ⟨(List.range 64).map fun i => (i, BitVec.ofNat 8 i), [], [], [], 0⟩
    let r := aReq (.read true false [0]) (.answered a)
    let s := { placed (.nop hd0) with reqs := [r], ops := [(3, loadOp)] }
    reqById s r.id = some r ∧ isRead r = true ∧ replyUp s r = true ∧ r.id ∉ s.statuses ∧ loadOp.sub = none ∧ loadOp.smp = none ∧
      s.ops.filter (fun x => x.1 = r.op || x.2.deps.contains r.id) = [(r.op, loadOp)] ∧ loadOp.left = 1 ∧ loadOp.ctr = .ld ∧
      loadOp.lines = [] ∧ loadOp.vals = [] ∧ look loadOp.gang s.gangs = some g0 ∧
      loadOp.regs = dstRegs (.v 2) (dstWords (.ty .n32)) (loadOp.parts.map (·.lane)) ∧ (loadOp.parts.map (·.lane)).Nodup := by decide

theorem witness_StoreAcknowledgements : let o := { loadOp with ctr := .st, dst := none, acq := none, regs := [], load := false }
    let r := aReq (.write [(0, 7)]) (.answered ⟨[], [], [], [], 0⟩)
    let s := { placed (.nop hd0) with reqs := [r], ops := [(3, o)] }
    reqById s r.id = some r ∧ bringsValue s r = false ∧ replyUp s r = true ∧
      s.ops.filter (fun x => x.1 = r.op || x.2.deps.contains r.id) = [(r.op, o)] ∧ o.sub = none ∧ o.logv = false ∧ o.smp = none ∧
      look o.gang s.gangs = some g0 := by decide

/-- A peer write of four bytes within the crew's own region, and one beyond it. -/
theorem witness_PeerArrivals : let p : PeerReq := ⟨5, 3, 1, 0, 1, none, 0, 0, 4, .write [1, 2, 3, 4], 0x8000, false⟩
    let q : PeerReq := { p with ea := 4096 }
    let s := { placed (.nop hd0) with peers := [p] }
    s.peers.find? (fun q => q.id = p.id) = some p ∧ (∀ q ∈ s.peers, q.op = p.op → p.id ≤ q.id) ∧
      ((List.range p.n).all fun i => (reachCrews s p.crew p.ens).any fun c =>
        c.core = peerCore p.core p.ea && c.base ≤ peerOff p.ea + i && peerOff p.ea + i < c.base + c.size) = true ∧
      ((List.range q.n).all fun i => (reachCrews s q.crew q.ens).any fun c =>
        c.core = peerCore q.core q.ea && c.base ≤ peerOff q.ea + i && peerOff q.ea + i < c.base + c.size) = false ∧
      look p.gang s.gangs = some g0 ∧ g0.pend = [] := by decide

/-- A peer access of four bytes, its fibre waiting for what it brings back. -/
def peerState (act : PeerAct) (fmt : DstFmt) : State :=
  { placed (.nop hd0) with
    peers := [⟨5, 3, 1, 0, 1, none, 0, 0, 4, act, 0x8000, false⟩]
    ops := [(3, { loadOp with dst := some (.v 2, fmt), parts := [⟨0, (List.range 4).map (peerKey 0 ·)⟩], regs := dstRegs (.v 2) (dstWords fmt) [0] })] }

def peerStateOk (act : PeerAct) (fmt : DstFmt) : Bool :=
  let s := peerState act fmt
  decide ((s.peers.find? fun q => q.id = 5).map (·.act) = some act) && decide (look 1 s.gangs = some g0 ∧ g0.pend = []) &&
    (match look 3 s.ops with
      | some o => decide (o.gang = 1 ∧ o.left = 1 ∧ o.sub = none) && decide (o.lines = [] ∧ o.vals = [] ∧ o.got = [])
      | none => false) &&
    decide ((fibreAt g0 0).map notEnded = some true) && wf 0 (coreOf s 0).spad &&
    (reachCrews s 1 none).any fun c => c.core = peerCore 0 0 && c.base ≤ peerOff 0 && peerOff 0 + 4 ≤ c.base + c.size

theorem witness_PeerValues : ∀ x ∈ [(PeerAct.read, DstFmt.ty .n32), (.readDesc, .raw32), (.atomic ⟨0, 0, .n32, some .add, 5, 0⟩, .raw32),
    (.atomic ⟨0, 0, .n32, none, 5, 6⟩, .raw32)], peerStateOk x.1 x.2 = true := by decide

/-! ## Witnesses: fences, caches, the allocator -/

theorem witness_FencesWait : ∃ (s : State) (g : Gang), CanIssue (.fenceFull hd0 .dev) .none s g ∧ GroupReady s g ∧ acting hd0 s g ≠ 0 ∧
    CanIssue (.fenceAcq hd0 .dev) .none s g ∧ loadsDone s s.cur.gang (acting hd0 s g) s.nextId = true :=
  ⟨placed (.nop hd0), g0, canIssue_of (by decide), one_lane_ready rfl (by decide), by decide, canIssue_of (by decide), by decide⟩

theorem witness_FencesComplete : let g := withFibre fun f => { f with wait := some ⟨.fence .full .dev 7, 0x8008, none⟩ }
    let s := placedG (.nop hd0) g
    look 1 s.gangs = some g ∧ fenceAt g 7 = some (.full, .dev) ∧ loadsDone s 1 (waiting (isFence 7) g) 7 = true ∧
      writesDone s g.core 7 = true := by decide

/-- A line of reductions in core 0. -/
def uoCore : State := { placed (.nop hd0) with cores := [(0, { placeCore with uo := [⟨0x2000, 0, .add, .n32, [(0x100000, 5)]⟩] })] }

theorem witness_CacheControl : ∃ (s : State) (g : Gang), CanIssue (.prefL1 hd0 (.v 4) (.ic 32)) .none s g ∧
    CanIssue (.prefL2 hd0 (.v 4) (.ic 32)) .none s g ∧ CanIssue (.invalAll hd0) .none s g ∧
    CanIssue (.invalRdc hd0 (.v 4) (.ic 32)) .none s g ∧ AllPass s g .glob needR (byteAccs (.v 4) (.ic 32) (theIss hd0 s g)) ∧
    AllPass s g .glob needNone (byteAccs (.v 4) (.ic 32) (theIss hd0 s g)) ∧
    Cold s g.core ((linesTouched (partsOf s g .glob needR (byteAccs (.v 4) (.ic 32) (theIss hd0 s g)))).map
      fun l => ⟨0, [128 * l, 128 * l + 64]⟩) ∧ acting hd0 s g ≠ 0 :=
  ⟨placed (.nop hd0), g0, canIssue_of (by decide), canIssue_of (by decide), canIssue_of (by decide), canIssue_of (by decide),
    allPass_of (by decide), allPass_of (by decide), cold_of rfl rfl, by decide⟩

theorem witness_Flushes : ∃ (s : State) (g : Gang), CanIssue (.flush hd0 (.v 4) (.ic 32)) .st s g ∧ CanIssue (.flushAll hd0) .st s g ∧
    AllPass s g .glob needNone (byteAccs (.v 4) (.ic 32) (theIss hd0 s g)) ∧ acting hd0 s g ≠ 0 ∧
    ∃ u ∈ (coreOf s g.core).uo,
      (linesTouched (partsOf s g .glob needNone (byteAccs (.v 4) (.ic 32) (theIss hd0 s g)))).contains u.line = true :=
  ⟨uoCore, g0, canIssue_of (by decide), canIssue_of (by decide), allPass_of (by decide), by decide, by decide⟩

/-- A heap of two slabs, the first carved for class 4 with its block at 0x100000 allocated, and a magazine with the next. -/
def heapCtx : Ctx := { placeCtx with heap := ⟨0x100000, 2, [4], [(0x100000, true)], []⟩ }
def placedHeap (i : Instr) (g : Gang) : State :=
  { placedG i g with ctxs := [(0, heapCtx)], cores := [(0, { placeCore with mags := [(4, [0x100010])] })] }

theorem witness_Allocations : ∃ (s : State) (g : Gang) (f : Fibre) (c : Ctx), CanIssue (.dalloc hd0 (.v 2) (.ic 48)) .ld s g ∧
    GroupReady s g ∧ NoReplay s g ∧ acting hd0 s g = 1 <<< 0 ∧ fibreAt g 0 = some f ∧ (src hd0 g .n64 f (.ic 48)).toNat = 16 ∧
    magazine s g.core g.ctx (classOf 16) = [0x100010] ∧ look g.ctx s.ctxs = some c ∧ wf false c.heap.alloc = true ∧
    (∀ e ∈ g.fibres, e.wait = none) ∧ CanIssue (.dallocZ hd0 (.v 2) (.ic 48)) .ld s g ∧ wf 0 s.mem = true ∧
    translateNow s g.ctx needNone 0x1000 = .pa 0x101000 ∧ ¬ inRing s g.core 0x101000 :=
  ⟨placedHeap (.nop hd0) g0, g0, _, _, canIssue_of (by decide), one_lane_ready rfl (by decide), noReplay_of (by decide), by decide, rfl,
    by decide, by decide, rfl, by decide, by decide, canIssue_of (by decide), by decide, by decide, by
    simp only [inRing]; decide⟩

/-- Sizes at and beyond the ends of the range; a class of which the heap has no block left. -/
theorem witness_AllocationFails : (∀ v ∈ [(0 : Word), 0x100001], let g := withFibre fun f => { f with v := [(6, v)] }
      let s := placedHeap (.nop hd0) g
      canIssueB (.dalloc hd0 (.v 2) (.v 6)) .ld s g = true ∧ canIssueB (.dallocZ hd0 (.v 2) (.v 6)) .ld s g = true ∧ acting hd0 s g = 1 ∧
        (fibreAt g 0).map (fun f => (ready f, src hd0 g .n64 f (.v 6) = 0 ∨ 2 ^ 20 < (src hd0 g .n64 f (.v 6)).toNat)) = some (true, True)) ∧
    ∃ c : Ctx, c.heap = ⟨0x100000, 1, [4], [], []⟩ ∧ let s := { placedHeap (.nop hd0) g0 with ctxs := [(0, c)], cores := [(0, placeCore)] }
      canIssueB (.dalloc hd0 (.v 2) (.ic 48)) .ld s g0 = true ∧ canIssueB (.dallocZ hd0 (.v 2) (.ic 48)) .ld s g0 = true ∧
        ((gangLaunch s g0).all fun l => !l.pkt.replay) = true ∧ (src hd0 g0 .n64 (Fibre.start 0 0 0 0 15) (.ic 48)).toNat = 16 ∧
        magazine s 0 0 (classOf 16) = [] ∧ freeList (heapOf s 0) (classOf 16) = [] ∧ (heapOf s 0).slabs ≤ (heapOf s 0).carved.length := by
  refine ⟨?_, { placeCtx with heap := ⟨0x100000, 1, [4], [], []⟩ }, rfl, by decide⟩
  intro v hv
  simp only [List.mem_cons, List.not_mem_nil, or_false] at hv
  rcases hv with rfl | rfl
  · exact ⟨by decide, by decide, by decide, by simp; decide⟩
  · exact ⟨by decide, by decide, by decide, by simp; decide⟩

theorem witness_Frees : ∃ (s : State) (g : Gang) (f : Fibre), CanIssue (.dfree hd0 (.v 4)) .st s g ∧ GroupReady s g ∧
    Released hd0 s g .dev ∧ acting hd0 s g = 1 <<< 0 ∧ fibreAt g 0 = some f ∧ src hd0 g .n64 f (.v 4) ≠ 0 ∧
    blockClass (heapOf s g.ctx) (src hd0 g .n64 f (.v 4)).toNat = some 4 ∧ (magazine s g.core g.ctx 4).length < 32 ∧
    blockClass (heapOf s g.ctx) 0x100008 = none :=
  ⟨placedHeap (.nop hd0) (withFibre (setV64 4 0x100000)), withFibre (setV64 4 0x100000), _, canIssue_of (by decide),
    one_lane_ready rfl (by decide), Or.inr ⟨by decide, by decide⟩, by decide, rfl, by decide, by decide, by decide, by decide⟩

theorem witness_Refills : let r : DallocReq := ⟨3, 1, 0, 0, 7, 100, false⟩
    let s := { placedHeap (.nop hd0) g0 with cores := [(0, { placeCore with refills := [r] })] }
    (coreOf s 0).refills = [r] ∧ magazine s 0 0 7 = [] ∧ freeList (heapOf s 0) 7 = [] ∧
      (heapOf s 0).carved.length < (heapOf s 0).slabs ∧ look 0 s.ctxs ≠ none ∧
      ∃ x ∈ s.gangs, x.2.core = 0 ∧ x.2.ctx = 0 ∧ x.2.stop ≠ .saved := by decide

/-- The fibre that waits for that refill, and its operation. -/
theorem witness_RefillsServe : let r : DallocReq := ⟨3, 1, 0, 0, 7, 100, false⟩
    let g := withFibre fun f => { f with wait := some ⟨.dalloc 3, 0x8008, none⟩ }
    let o := { loadOp with dst := some (.v 2, .raw64), parts := [⟨0, []⟩], regs := dstRegs (.v 2) 2 [0] }
    let s := { placedHeap (.nop hd0) g with cores := [(0, { placeCore with refills := [r] })], ops := [(3, o)] }
    look r.op s.ops = some o ∧ o.gang = r.gang ∧ o.left = 1 ∧ o.sub = none ∧ o.lines = [] ∧ o.vals = [] ∧ look r.gang s.gangs = some g ∧
      (fibreAt g 0).map (fun f => (notEnded f, f.gwait.isNone, f.wait)) = some (true, true, some ⟨.dalloc 3, 0x8008, none⟩) := by decide

/-! ## Witnesses: gangs, crews and their registers -/

/-- Three issues at a barrier of six arrivals: one of an earlier cycle, one of this cycle at a lower place, one at a higher. -/
def barOf (clk : Dword) (place : Nat) : Barrier := recount [⟨clk, place, 6, [⟨2, 0, 0, 2⟩, ⟨2, 1, 0, 2⟩]⟩] Barrier.idle
def barState (b : Barrier) : State := { placed (.nop hd0) with crews := [(1, { placeCrewOf with bars := [b, Barrier.idle] })], clk := 9 }

/-- A barrier of the crew, idle, and one at which others have arrived, before and after this gang's place. -/
theorem witness_BarrierArrivals : ∃ (s : State) (g : Gang), CanIssue (.barSync hd0 (.ic 32) (.ic 33)) .none s g ∧
    CanIssue (.barArv hd0 (.ic 32) (.ic 33)) .none s g ∧ acting hd0 s g ≠ 0 ∧
    (∃ c, look g.crew s.crews = some c ∧ c.bars[0]? = some Barrier.idle) ∧ recount Barrier.idle.issues Barrier.idle = Barrier.idle ∧
    (∀ b ∈ [barOf 5 3, barOf 9 0, barOf 9 200], recount b.issues b = b ∧ canIssueB (.barSync hd0 (.ic 32) (.ic 33)) .none (barState b) g0 = true ∧
      ((look g0.crew (barState b).crews).bind fun c => c.bars[0]?) = some b) ∧
    (∀ j ∈ (barOf 5 3).issues, j.clk.toNat < (barState Barrier.idle).clk.toNat) ∧
    (∀ j ∈ (barOf 9 0).issues, j.clk = (barState Barrier.idle).clk ∧ j.place ≤ barPlace g0) ∧
    (∀ j ∈ (barOf 9 200).issues, j.clk = (barState Barrier.idle).clk ∧ barPlace g0 < j.place) ∧
    ∀ l f, laneIn (acting hd0 s g) l = true → fibreAt g l = some f → nsrc hd0 g .n32 f (.ic 33) = 1 ∧ nsrc hd0 g .n32 f (.ic 32) = 0 :=
  ⟨placed (.nop hd0), g0, canIssue_of (by decide), canIssue_of (by decide), by decide, ⟨_, rfl, rfl⟩, by decide, by decide, by decide, by decide,
    by decide, only_lane (by decide) (by decide)⟩

theorem witness_EnsembleArrivals : let s := { placed (.nop hd0) with
      crews := [(1, { placeCrewOf with ens := some 4 })], ens := [(4, ⟨Barrier.idle, [1]⟩)] }
    canIssueB (.barEsync hd0 (.ic 33)) .none s g0 = true ∧ canIssueB (.barEarv hd0 (.ic 33)) .none s g0 = true ∧
      (look g0.crew s.crews).bind (·.ens) = some 4 ∧ (look 4 s.ens).map (·.bar) = some Barrier.idle := by decide

theorem witness_BarrierPhases : let b : Barrier := recount [⟨4, 0, 1, [⟨1, 0, 0, 2⟩]⟩] Barrier.idle
    let g := withFibre fun f => { f with wait := some ⟨.bar false 1 0 0, 0x8008, none⟩ }
    let s := { placedG (.nop hd0) g with crews := [(1, { placeCrewOf with bars := [b] })] }
    barAt s false 1 0 = some b ∧ 0 < b.target ∧ b.target ≤ b.count ∧ (b.issues.head?.map (·.clk)) ≠ some s.clk ∧
      ∀ a ∈ b.arrived, loadsDone s a.gang (maskOf [a.lane]) a.id = true ∧ writesDone s a.core a.id = true := by decide

theorem witness_Racq : let g := { g0 with held := 0 }
    canIssueB (.racq hd0 1) .none (placedG (.nop hd0) g) g = true ∧ acting hd0 (placedG (.nop hd0) g) g ≠ 0 ∧ g.held < 1 ∧
      racqHopeless (placedG (.nop hd0) g) g 1 = false ∧ canIssueB (.racq hd0 3) .none (placed (.nop hd0)) g0 = true ∧ 3 ≤ g0.held := by
  decide

/-- The gang of `witness_Racq` waits in its core's queue. -/
def racqGang : Gang := { withFibre (fun f => { f with wait := some ⟨.racq 1, 0x8008, none⟩ }) with held := 0 }
def racqState : State :=
  { placedG (.nop hd0) racqGang with cores := [(0, { placeCore with racq := [⟨1, 1, 1, 0x8000⟩] })] }

theorem witness_RacqGrants : (coreOf racqState 0).racq = [⟨1, 1, 1, 0x8000⟩] ∧ look 1 racqState.gangs = some racqGang ∧
    racqNeed racqGang 1 ≤ regsFree racqState 0 := by decide

/-- Nine more gangs, whose fibres have ended, hold the rest of the pool. -/
def crowded : State :=
  { racqState with gangs := (1, racqGang) :: (List.range 9).map fun k => (k + 2, { g0 with width := 64, fibres := [] }) }

theorem witness_Regdeadlock : (coreOf crowded 0).racq = [⟨1, 1, 1, 0x8000⟩] ∧ allInRacq crowded 0 = true ∧
    look 1 crowded.gangs = some racqGang ∧ racqGang.pend = [] := by decide

theorem canonical_of {g : Gang} (h : (g.fibres.all fun f => wf 0 f.v && wf 0 f.bank0 && wf 0 f.bank1) = true) :
    ∀ f ∈ g.fibres, f.Canonical := by
  intro f hf
  have := List.all_eq_true.mp h f hf
  simp only [Bool.and_eq_true] at this
  exact ⟨this.1.1, this.1.2, this.2⟩

theorem witness_Rrel : ∃ (s : State) (g : Gang), CanIssue (.rrel hd0 1) .none s g ∧ acting hd0 s g ≠ 0 ∧ 1 < g.held ∧ g.held = 3 ∧
    (∀ f ∈ g.fibres, f.Canonical) ∧ ∀ f ∈ g.fibres, notEnded f = true → f.popen = false :=
  ⟨placed (.nop hd0), g0, canIssue_of (by decide), by decide, by decide, rfl, canonical_of (by decide), by decide⟩

theorem witness_IncumbentUpdates : ∃ (s : State) (g : Gang), CanIssue (.incu hd0 true (.v 2) (.v 4) 3) .ld s g ∧
    CanIssue (.incu hd0 true (.p 7) (.v 4) 3) .none s g ∧ acting hd0 s g ≠ 0 ∧ Released hd0 s g .dev ∧ NoReplay s g ∧
    CanIssue (.incrdHome hd0 true (.v 2) 3) .ld s g :=
  ⟨placed (.nop hd0), g0, canIssue_of (by decide), canIssue_of (by decide), by decide, Or.inr ⟨by decide, by decide⟩,
    noReplay_of (by decide), canIssue_of (by decide)⟩

/-- An update and a read on their way, every link and fabric being up. -/
theorem witness_IncumbentCommits : let m : IncMsg := ⟨7, 0, 0, 3, .update [(0, 41), (2, 17)], none⟩
    let n : IncMsg := ⟨7, 0, 0, 3, .read [0], some 3⟩
    let o := { loadOp with dst := some (.v 2, .raw64), parts := [⟨0, []⟩], regs := dstRegs (.v 2) 2 [0] }
    let s := { placed (.nop hd0) with incMsgs := [m] }
    let t := { placed (.nop hd0) with incMsgs := [n], ops := [(3, o)] }
    s.incMsgs.find? (fun n => n.id = m.id) = some m ∧ (look m.ctx s.ctxs).isSome = true ∧
      (∀ n ∈ s.incMsgs, (n.core = m.core ∧ n.ctx = m.ctx ∧ n.k = m.k) ∨
        (dieOf n.core = dieOf m.core ∧ n.k % 4 = m.k % 4 ∧ dieOf m.core ≠ m.k % 4) → m.id ≤ n.id) ∧
      sendUp s (dieOf m.core) (m.k % 4) = true ∧ sendUp s (m.k % 4) (dieOf m.core) = true ∧ o.sub = none ∧
      t.incMsgs.find? (fun n => n.id = n.id) = some n ∧ look 3 t.ops = some o ∧ look o.gang t.gangs = some g0 ∧ o.left = 1 := by decide

theorem witness_IncumbentBroadcasts : let b : Bcast := ⟨0, 3, ⟨17, false, false⟩, false, 0, []⟩
    let s := { placed (.nop hd0) with bcasts := [(7, b)] }
    look 7 s.bcasts = some b ∧ 0 ∉ b.got ∧ sendUp s (b.k % 4) (dieOf 0) = true ∧ (∀ o ∈ s.bcasts, o.1 < 7 → o.2.k % 4 = b.k % 4 → 0 ∈ o.2.got) ∧
      (s.gangs.map (·.1)).Nodup ∧ (∀ x ∈ s.gangs, x.2.fibres.length ≤ 64) := by decide

theorem witness_SystemForwards : let s := { placed (.nop hd0) with ctxs := [(0, { placeCtx with system := 0x8000 })] }
    ∃ c, look 0 s.ctxs = some c ∧ c.system.getLsbD 15 = true := ⟨_, rfl, by decide⟩

theorem witness_Proposals : let g := withFibre fun f => { f with popen := true }
    (∃ (s : State), CanIssue (.popen hd0) .none s g0 ∧ acting hd0 s g0 ≠ 0 ∧
      ∀ l f, laneIn (acting hd0 s g0) l = true → fibreAt g0 l = some f → f.popen = false) ∧
    ∃ (s : State), CanIssue (.accept hd0 (.p 0) (.v 4)) .none s g ∧ CanIssue (.pclose hd0) .none s g ∧ acting hd0 s g ≠ 0 ∧
      ∀ l f, laneIn (acting hd0 s g) l = true → fibreAt g l = some f → f.popen = true :=
  ⟨⟨placed (.nop hd0), canIssue_of (by decide), by decide, only_lane (by decide) (by decide)⟩,
    ⟨placedG (.nop hd0) (withFibre fun f => { f with popen := true }), canIssue_of (by decide), canIssue_of (by decide), by decide,
      only_lane (by decide) (by decide)⟩⟩

theorem witness_Orbits : ∃ (s : State) (g : Gang) (y : Sym) (e : Extents) (x : Element), CanIssue (.orbitSize hd0 (.v 2)) .none s g ∧
    CanIssue (.orbitStab hd0 (.v 2)) .none s g ∧ CanIssue (.orbitImg hd0 (.v 2) 1) .none s g ∧ symOf s g = some (y, e) ∧
    y.elems[1]? = some x ∧ ∀ l f, laneIn (acting hd0 s g) l = true → fibreAt g l = some f → f.point ≠ none :=
  ⟨placedSym (.nop hd0), gSym, sym0, (4, 4, 4), _, canIssue_of (by decide), canIssue_of (by decide), canIssue_of (by decide), rfl, rfl,
    only_lane (by decide) (by decide)⟩

/-! ## Witnesses: records and launches -/

theorem witness_Spawns : let o : Spawn := ⟨0, .dev, .v 2, .ic 32, .ic 33⟩
    ∃ (s : State) (g : Gang), CanIssue (.spawnLabel hd0 o 8) .none s g ∧ CanIssue (.spawnRegister hd0 o (.v 4)) .none s g ∧
      Released hd0 s g .clu ∧ Released hd0 s g .dev ∧ poolCount (coreOf s g.core) + (lanesOf (acting hd0 s g)).length ≤ 4096 ∧
      ((coreOf s g.core).bins.map (·.key)).Nodup ∧ ∀ l f, laneIn (acting hd0 s g) l = true → fibreAt g l = some f →
        (src hd0 g .n64 f (.v 4)).toNat < 2 ^ 48 ∧ (src hd0 g .n64 f (.v 4)).toNat % 4 = 0 :=
  ⟨placed (.nop hd0), g0, canIssue_of (by decide), canIssue_of (by decide), Or.inr ⟨by decide, by decide⟩, Or.inr ⟨by decide, by decide⟩,
    by decide, by decide, only_lane (by decide) (by decide)⟩

/-- A record of the launch, in a bin whose timer has run out. -/
def aRec : Rec := ⟨[1, 2], 5, 0, 0, 0, 0, 15, 0x8000, 0, .none, 0⟩
def arenaCtx : Ctx := { placeCtx with partition := 1, arena := 0x1000000, arenaSize := 0x1000000 }
def binCore (n : Nat) : Core := { placeCore with bins := [⟨⟨0, 0, 0x8000, 0⟩, List.replicate n aRec, 0⟩] }

theorem witness_BinTimers : let s := { placed (.nop hd0) with cores := [(0, binCore 1)], ctxs := [(0, arenaCtx)], clk := 100000 }
    ∃ b l slot off, (coreOf s 0).bins[0]? = some b ∧
      bestBin ((((coreOf s 0).bins.filter fun a => binTimed s.clk a && (binReady s 0 a).isSome)).map fun a => (1, a)) = some b ∧
      binReady s 0 b = some (l, slot, off) ∧ ∀ r ∈ b.recs.take (widthOf b.key.wcode), recDominated s 0 r = false :=
  ⟨_, _, _, _, rfl, rfl, rfl, by decide⟩

theorem witness_SpawnPlacement : let s := { placed (.nop hd0) with cores := [(0, binCore 8)], ctxs := [(0, arenaCtx)] }
    ∃ b l slot off, (∀ a ∈ (binChoices 0 s).1, a.1 ≠ 1) ∧ bestBin (binChoices 0 s).1 = some b ∧ binReady s 0 b = some (l, slot, off) ∧
      ∀ r ∈ b.recs.take (widthOf b.key.wcode), recDominated s 0 r = false :=
  ⟨_, _, _, _, by decide, rfl, rfl, by decide⟩

theorem witness_Steals : let s := { placed (.nop hd0) with
      cores := [(0, binCore 1)], gangs := [], ctxs := [(0, arenaCtx)], steals := [(9, .request 1 0 0)] }
    stealReady { s with steals := [] } 1 0 = true ∧ look 9 s.steals = some (.request 1 0 0) ∧ stealUp s 1 0 = true ∧
      islandUp s (clusterOf 1) = true ∧ (coreOf s 1).vacated = [] ∧
      look 9 ({ s with steals := [(9, .refusal 1)] } : State).steals = some (.refusal 1) ∧
      look 9 ({ s with steals := [(9, .records 1 [aRec])] } : State).steals = some (.records 1 [aRec]) ∧ recDominated s 1 aRec = false := by
  decide

theorem witness_OverflowReturns : let g : Segment := ⟨0x300000, 8, [aRec], 0⟩
    let s := { placed (.nop hd0) with ctxs := [(0, { placeCtx with segs := [(0, g)] })] }
    segOf s 0 0 = some g ∧ isVacated s 0 0 = false ∧ poolRecords (coreOf s 0) < 2048 ∧ islandUp s (clusterOf 0) = true ∧ recDominated s 0 aRec = false := by decide

theorem witness_Launches : ∃ (s : State) (g : Gang) (f : Fibre) (c : Ctx) (ks : List Nat), CanIssue (.launch hd0 (.v 2) (.v 4)) .ld s g ∧
    GroupReady s g ∧ NoReplay s g ∧ Released hd0 s g .dev ∧ acting hd0 s g = 1 <<< 0 ∧ fibreAt g 0 = some f ∧ look g.ctx s.ctxs = some c ∧
    check s g .glob needR ⟨0, src hd0 g .i64 f (.v 4), 128, 128⟩ = .ok ks ∧ (s.cores.map (·.1)).Pairwise (· < ·) ∧
    linesUp s (some (dieOf g.core)) (distinct (ks.map lineOf)) = true ∧
    linesUp s none (launchLines s g.ctx (readPacket (leNat (ks.map (memByte s))))) = true :=
  ⟨placed (.nop hd0), g0, _, _, _, canIssue_of (by decide), one_lane_ready rfl (by decide), noReplay_of (by decide),
    Or.inr ⟨by decide, by decide⟩, by decide, rfl, rfl, rfl, by decide, linesUp_of rfl rfl _ _, linesUp_of rfl rfl _ _⟩

/-- A `launch` whose status 2 comes back. -/
theorem witness_LaunchStatuses : let o := { loadOp with dst := some (.v 2, .raw32), acq := none, vals := [(0, 2)], left := 0, regs := dstRegs (.v 2) 1 [0] }
    let s := { placed (.nop hd0) with ops := [(3, o)], statuses := [3] }
    3 ∈ s.statuses ∧ look 3 s.ops = some o ∧ o.parts.map (·.lane) = [0] ∧ o.sub = none ∧ o.lines = [] ∧ look o.gang s.gangs = some g0 ∧
      (fibreAt g0 0).map notEnded = some true := by decide

theorem witness_Signals : ∃ (s : State) (g : Gang), CanIssue (.signal hd0 .dev (.v 4) (.v 6)) .st s g ∧
    CanIssue (.signalAdd hd0 .dev (.v 4) (.v 6)) .st s g ∧ GroupReady s g ∧ acting hd0 s g ≠ 0 ∧ Released hd0 s g .dev ∧
    AllPass s g .glob needRW (signalAccs (.v 4) (theIss hd0 s g)) ∧ AllPass s g .glob needW (signalAccs (.v 4) (theIss hd0 s g)) :=
  ⟨placed (.nop hd0), g0, canIssue_of (by decide), canIssue_of (by decide), one_lane_ready rfl (by decide), by decide,
    Or.inr ⟨by decide, by decide⟩, allPass_of (by decide), allPass_of (by decide)⟩

/-- A launch of two crews, the first of which has started, in a partition of cluster 0. -/
def ticketState : State :=
  { placed (.nop hd0) with
    ctxs := [(0, { arenaCtx with launches := [(0, { placeLaunch with ncrews := 2, pkt := { placePacket with gx := 2 } })] })] }

theorem witness_Tickets : ∃ (c : Ctx) (l : Launch) (core : Nat), look 0 ticketState.ctxs = some c ∧ look 0 c.launches = some l ∧ l.pkt.ens = 0 ∧
    turnCome c l = true ∧ (rotation l).find? (canClaim ticketState 0 0 c l) = some core ∧ uoCores ticketState = [] ∧ mergesOut ticketState = false :=
  ⟨_, _, _, rfl, rfl, rfl, rfl, rfl, by decide, by decide⟩

/-- The first ticket of a launch of ensembles of two crews, on the 32 idle cores of cluster 0. -/
def ensState : State :=
  { ticketState with
    gangs := [], crews := []
    ctxs := [(0, { arenaCtx with launches := [(0, { placeLaunch with
      ticket := 0, started := false, prev := none, ncrews := 2, pkt := { placePacket with gx := 2, ens := 2, priv := 0 } })] })] }

theorem witness_EnsembleTickets : ∃ (c : Ctx) (l : Launch) (core : Nat), look 0 ensState.ctxs = some c ∧ look 0 c.launches = some l ∧ l.pkt.ens ≠ 0 ∧
    l.started = false ∧ turnCome c l = true ∧ (rotation l).find? (canClaim ensState 0 0 c l) = some core ∧ uoCores ensState = [] ∧
    mergesOut ensState = false ∧ wf 0 ensState.mem = true := ⟨_, _, 0, rfl, rfl, by decide, rfl, rfl, by decide, by decide, by decide, by decide⟩

theorem witness_Completions : let s := { placed (.nop hd0) with gangs := [], crews := [] }
    ∃ l, launchOf s 0 0 = some l ∧ ticketCrews l = [] ∧ (∀ c ∈ s.crews, c.2.ctx ≠ 0 ∨ c.2.ltag ≠ 0) ∧ recsLeft s 0 0 = false ∧
      uoCores s = [] ∧ writesOut s 0 = false ∧ l.pkt.sigaddr = 0 ∧ (uoCores { uoCore with gangs := [], crews := [] } ≠ []) :=
  ⟨_, rfl, rfl, by decide, by decide, by decide, by decide, rfl, by decide⟩

theorem witness_CompletionSignals : let l := { placeLaunch with pkt := { placePacket with sigaddr := 0x40 } }
    let s := { walker with gangs := [], crews := [], ctxs := [(0, { placeCtx with root := 0x200000, launches := [(0, l)] })] }
    launchOf s 0 0 = some l ∧ uoCores s = [] ∧ writesOut s 0 = false ∧ l.pkt.sigaddr ≠ 0 ∧
      linesUp s none (rangeLines s 0 (l.pkt.sigaddr.toNat, 8)) = true ∧ reach s 0 needW l.pkt.sigaddr.toNat = .pa 0x100040 := by decide

/-- The page of the signal is no longer mapped; there is a line of reductions still to merge. -/
theorem witness_CompletionReports : (let l := { placeLaunch with pkt := { placePacket with sigaddr := 0x20000 } }
      let s := { walker with gangs := [], crews := [], ctxs := [(0, { placeCtx with root := 0x200000, launches := [(0, l)] })] }
      launchOf s 0 0 = some l ∧ linesUp s none (rangeLines s 0 (l.pkt.sigaddr.toNat, 8)) = true ∧
        ∃ w, reach s 0 needW l.pkt.sigaddr.toNat = .bad w) ∧
    (uoCore.cores.map (·.1)).Pairwise (· < ·) ∧ uoCores uoCore ≠ [] := ⟨⟨rfl, by decide, ⟨_, rfl⟩⟩, by decide, by decide⟩

/-! ## Witnesses: copy engines, waits, roles, streams -/

/-- A gang with two scalar registers set: s4 the scratch side, s6 the memory side. -/
def gCopy : Gang := { g0 with s := [(6, 0x40)] }
/-- The machine with tables that map virtual 0 to physical 0x100000, and that gang or another. -/
def walkerG (g : Gang) : State := { walker with gangs := [(1, g)] }

theorem witness_Copies : ∃ (s : State) (g : Gang), CanIssue (.copyG2s hd0 false (.s 10) (.s 4) (.s 6) (.ic 36)) .cp s g ∧
    CanIssue (.copyS2g hd0 false (.s 10) (.s 6) (.s 4) (.ic 36)) .cp s g ∧ acting hd0 s g ≠ 0 ∧
    engineLoad (coreOf s g.core) < 32 ∧ g.cpcnt + pendOf (coreOf s g.core) s.cur.gang < 31 ∧ (rdUni g .none .n32 (.ic 36)).toNat = 4 ∧
    (rdUni g .none .n64 (.s 6)).toNat + 4 ≤ 2 ^ 52 ∧ (rdUni g .none .n64 (.s 4)).toNat + 4 ≤ scratchSize s g ∧
    (rdUni g .none .n64 (.s 4)).toNat % 4 = 0 ∧ (rdUni g .none .n64 (.s 6)).toNat % 4 = 0 :=
  ⟨walkerG gCopy, gCopy, canIssue_of (by decide), canIssue_of (by decide), by decide, by decide, by decide, by decide, by decide, by decide,
    by decide, by decide⟩

/-- A copy that waits for its engine. -/
def pend0 : CopyPend := ⟨1, 0, 1, 1, 1, true, false, 0, 0x40, 4, .s 10⟩
def gWait (w : WaitKind) : Gang := withFibre fun f => { f with wait := some ⟨w, 0x8008, none⟩ }
def gGwait (w : WaitKind) : Gang := withFibre fun f => { f with gwait := some ⟨w, 0x8008, none⟩ }

theorem calm_of {g : Gang} (h : (decide (g.pend = []) && g.fibres.all fun f =>
    (f.wait.all fun w => w.brk.isNone) && (f.gwait.all fun w => w.brk.isNone)) = true) : Calm g := by
  simp only [Bool.and_eq_true, decide_eq_true_eq] at h
  refine ⟨h.1, fun f hf => ?_⟩
  have := List.all_eq_true.mp h.2 f hf
  simp only [Bool.and_eq_true] at this
  refine ⟨fun w hw => ?_, fun w hw => ?_⟩
  · simpa [hw] using this.1
  · simpa [hw] using this.2

theorem witness_CopyAcceptance : let s := { walkerG (gWait .copy) with cores := [(0, { placeCore with copyPend := [pend0] })] }
    ∃ ms, oldestPend s 1 = some (0, pend0) ∧ look 1 s.gangs = some (gWait .copy) ∧ Calm (gWait .copy) ∧
      (s.cores.map (·.1)).Pairwise (· < ·) ∧ linesUp s (some (dieOf 0)) (missLines s 0 0 ((pieces 0x40 4).map (·.1))) = true ∧
      findMoves s 0 needR 0 (pieces 0x40 4) = .ok ms ∧ ms ≠ [] :=
  ⟨_, rfl, rfl, calm_of (by decide), by decide, by decide, rfl, by decide⟩

/-- A range that no table maps. -/
theorem witness_CopyFaults : let p := { pend0 with va := 0x20000 }
    let s := { placedG (.nop hd0) (gWait .copy) with cores := [(0, { placeCore with copyPend := [p] })] }
    ∃ e, oldestPend s 1 = some (0, p) ∧ (s.cores.map (·.1)).Pairwise (· < ·) ∧
      linesUp s (some (dieOf 0)) (missLines s 0 0 ((pieces 0x20000 4).map (·.1))) = true ∧
      findMoves s 0 needR 0 (pieces 0x20000 4) = .error e ∧ (gWait .copy).pend = [] ∧
      (fibreAt (gWait .copy) 0).map (fun f => (decide (f.life = .live), f.wait.map (·.kind))) = some (true, some .copy) :=
  ⟨_, rfl, by decide, by decide, rfl, rfl, by decide⟩

theorem witness_Gathers : ∃ (s : State) (g : Gang), CanIssue (.gath hd0 .n32 (.s 10) (.s 4) (.v 4)) .cp s g ∧
    CanIssue (.scat hd0 .n32 (.s 10) (.s 4) (.v 4)) .cp s g ∧ GroupReady s g ∧ acting hd0 s g ≠ 0 ∧
    slotCheck s (theIss hd0 s g) 4 (rdUni g .none .n64 (.s 4)) = none ∧ AllPass s g .glob needR (elemAccs .n32 (.v 4) (theIss hd0 s g)) ∧
    AllPass s g .glob needW (elemAccs .n32 (.v 4) (theIss hd0 s g)) :=
  ⟨placed (.nop hd0), g0, canIssue_of (by decide), canIssue_of (by decide), one_lane_ready rfl (by decide), by decide, by decide,
    allPass_of (by decide), allPass_of (by decide)⟩

/-- An accepted copy of four bytes, each way, nothing having changed since. -/
def copy0 (g2s : Bool) : CopyReq :=
  ⟨5, 1, 0, 1, 1, g2s, false, [⟨0x40, 0x100040, 0, 4⟩], false, true, false, [[0, 0, 0, 0]], [], [], 41, false, false⟩
def copyState (g2s : Bool) : State := { placed (.nop hd0) with cores := [(0, { placeCore with copies := [copy0 g2s] })] }

theorem witness_CopiesComplete : ∀ g2s, (coreOf (copyState g2s) 0).copies.find? (fun r => r.id = 5) = some (copy0 g2s) ∧
    (copy0 g2s).started = true ∧ (copy0 g2s).held = false ∧ (copy0 g2s).hits = [] ∧
    linesUp (copyState g2s) (some (dieOf 0)) (moveLines (copy0 g2s).moves) = true ∧ (copy0 g2s).part = [] ∧
    ((gangLaunch (copyState g2s) g0).all fun l => !l.pkt.replay) = true ∧
    (copy0 g2s).src = (copy0 g2s).moves.map (moveSrc (copyState g2s) 0 g2s) ∧
    look 1 (copyState g2s).gangs = some g0 ∧
    ((coreOf (copyState g2s) 0).copies.filter fun q => q.gang = 1) = [copy0 g2s] ∧ wf 0 (copyState g2s).mem = true := by decide

/-- One word of it is moved; a request with the descriptors of one sector, each way. -/
theorem witness_CopyWords : ∀ g2s, ∃ w ∈ copyLeft (copy0 g2s), (copy0 g2s).hits = [] ∧
    (∀ a < 4, standsAt (copy0 g2s) w.1 (w.2.1.pa + a) = true) ∧ w.2.2 = moveSrc (copyState g2s) 0 g2s w.2.1 ∧ w.2.1.n = 4 ∧
    wf 0 (coreOf (copyState g2s) 0).spad = true ∧ wf 0 (copyState g2s).mem = true := by decide

theorem witness_CopyDescriptors : ∀ g2s, let r := { copy0 g2s with desc := true, moves := [⟨0x40, 0x100040, 0, 64⟩], src := [List.replicate 64 0] }
    let s := { placed (.nop hd0) with cores := [(0, { placeCore with copies := [r] })] }
    r.src = r.moves.map (moveSrc s 0 g2s) ∧ (∀ m ∈ r.moves, m.pa % 64 = 0 ∧ m.scratch % 64 = 0 ∧ m.n % 64 = 0) ∧
      wf resetDesc s.desc = true ∧ wf resetDesc (coreOf s 0).spadDesc = true := by decide

/-- The same request before it has started. -/
theorem witness_CopiesStart : let r := { copy0 true with started := false, src := [] }
    let s := { placed (.nop hd0) with cores := [(0, { placeCore with copies := [r] })] }
    r ∈ (coreOf s 0).copies ∧ loadsDone s r.gang r.act r.id = true ∧ linesClear s 0 r.id (moveLines r.moves).contains = true := by decide

theorem witness_WholeGangWaits : ∃ (s : State) (g : Gang) (w : Nat), CanIssue (.wait hd0 0 63 0 7) .none s g ∧
    CanIssue (.sleep hd0 (.ic 32)) .none s g ∧ CanIssue (.stgw hd0 (.s 4) (.ic 32) 0) .none s g ∧ acting hd0 s g ≠ 0 ∧
    phaseWord s (theIss hd0 s g) (.s 4) (.ic 32) = .ok w ∧ CanIssue (.stga hd0 (.s 4) (.ic 32)) .none s g ∧ Released hd0 s g .crew ∧
    wf 0 (coreOf s g.core).spad = true :=
  ⟨placed (.nop hd0), g0, 0, canIssue_of (by decide), canIssue_of (by decide), canIssue_of (by decide), by decide, rfl,
    canIssue_of (by decide), Or.inr ⟨by decide, by decide⟩, by decide⟩

theorem witness_CounterWaits : ∃ g, look 1 (placedG (.nop hd0) g).gangs = some g ∧ Calm g ∧
    ((gwaitsOf g).find? fun w => g.stop ≠ .saved && waitHolds g w) = some (.counters 0 63 0 7) :=
  ⟨gGwait (.counters 0 63 0 7), rfl, calm_of (by decide), by decide⟩

/-- A sleep whose time has come, with no copy outstanding, and with one that was promised by then. -/
theorem witness_Sleeps : ∃ g, Calm g ∧ ((gwaitsOf g).find? fun w => decide (g.stop = .running) && sleepOver { copyState true with clk := 50 } w) =
      some (.sleep 45 1) ∧ look 1 (placedG (.nop hd0) g).gangs = some g ∧ (∀ r ∈ (coreOf (placed (.nop hd0)) g.core).copies, r.gang ≠ 1) ∧
    ∃ r ∈ (coreOf (copyState true) 0).copies, r.gang = 1 ∧ r.promise.toNat ≤ (45 : Dword).toNat ∧ r.done = false ∧ r.dropped = false :=
  ⟨gGwait (.sleep 45 1), calm_of (by decide), by decide, rfl, by decide, by decide⟩

theorem witness_PhaseWaits : ∃ g, Calm g ∧ ((gwaitsOf g).find? fun w => g.stop ≠ .saved && phaseCome (placedG (.nop hd0) g) 1 g w) =
    some (.stgw 0 false) := ⟨gGwait (.stgw 0 false), calm_of (by decide), by decide⟩

/-- A launch with one role, and its gang. -/
def roleCtx : Ctx := { placeCtx with launches := [(0, { placeLaunch with roles := [⟨1, 2, 1, 0x100⟩] })] }
def roleState (g : Gang) : State := { placedG (.nop hd0) g with ctxs := [(0, roleCtx)] }
def gRole : Gang := { g0 with role := some 0 }

theorem roles_of {m : BitVec 64} {g : Gang} (hm : m = 1) (hl : g.fibres.length ≤ 64)
    (h : ((List.range g.fibres.length).all fun j => match fibreAt g j with
      | some f => ended f || (decide (j = 0) && !f.popen)
      | none => true) = true) :
    ∀ j f, fibreAt g j = some f → j < 64 ∧ (notEnded f = true → laneIn m j = true ∧ f.popen = false) := by
  intro j f hf
  have hj : j < g.fibres.length := by
    by_contra hc
    rw [fibreAt, List.getElem?_eq_none (by omega)] at hf
    exact absurd hf (by simp)
  refine ⟨by omega, fun hn => ?_⟩
  have := List.all_eq_true.mp h j (by simpa using hj)
  rw [hf] at this
  subst hm
  rw [notEnded] at hn
  simp_all [laneIn]

theorem witness_Roles : ∃ (s : State) (g : Gang) (l : Launch), CanIssue (.role hd0 0) .none s g ∧ gangLaunch s g = some l ∧
    acting hd0 s g ≠ 0 ∧ GroupReady s g ∧
    (∀ j f, fibreAt g j = some f → j < 64 ∧ (notEnded f = true → laneIn (acting hd0 s g) j = true ∧ f.popen = false)) ∧
    g.ldcnt = 0 ∧ g.stcnt = 0 ∧ g.cpcnt = 0 ∧ g.mtcnt = 0 :=
  ⟨roleState gRole, gRole, _, canIssue_of (by decide), rfl, by decide, one_lane_ready rfl (by decide),
    roles_of (by decide) (by decide) (by decide), rfl, rfl, rfl, rfl⟩

theorem witness_RoleWaits : ∃ (s : State) (g : Gang) (l : Launch), look 1 s.gangs = some g ∧ Calm g ∧ gangLaunch s g = some l ∧
    0 < l.roles.length ∧ ((gwaitsOf g).find? fun w => g.stop ≠ .saved && waitHolds g w) = some (.role 0) ∧
    ∀ f ∈ g.fibres, notEnded f = true → (f.gwait.map (·.kind)) = some (.role 0) :=
  ⟨roleState (gGwait (.role 0)), gGwait (.role 0), _, rfl, calm_of (by decide), rfl, by decide, by decide, by decide⟩

theorem witness_Subscriptions : ∃ (s : State) (g : Gang) (ks : List Nat), CanIssue (.subs hd0 (.s 10) (.s 4)) .none s g ∧
    acting hd0 s g ≠ 0 ∧ Released hd0 s g .clu ∧ check s g .glob needR ⟨0, rdUni g .none .n64 (.s 4), 64, 64⟩ = .ok ks :=
  ⟨placed (.nop hd0), g0, _, canIssue_of (by decide), by decide, Or.inr ⟨by decide, by decide⟩, rfl⟩

/-- A `subs` whose descriptor has come back, a bad one of zeros: tiles of no bytes. -/
theorem witness_SubscriptionAnswers : let g := gWait (.subs 3 (.s 10))
    let o := { loadOp with dst := none, acq := none, regs := [], left := 0, parts := [⟨0, [0]⟩], got := [(0, 0)], sub := some (1, .s 10) }
    let s := { placedG (.nop hd0) g with ops := [(3, o)] }
    (look 3 s.ops = some o ∧ o.left = 0 ∧ o.load = true ∧ o.fib ≠ 0 ∧ (look 1 s.crews).isSome = true ∧ look o.gang s.gangs = some g) ∧
      Calm g := ⟨by decide, calm_of (by decide)⟩

/-- A push stream of two tiles of 64 bytes into a ring of two slots, between tiles and in one. -/
def sub0 : Subscription := ⟨1, 0, 0, 64, 2, 64, 64, 0, 2, false, false, 0, false, [], [], [], false, false⟩
def subMoving : Subscription := { sub0 with moving := true, pas := [⟨0, 0x100000, 64, 64⟩], src := [List.replicate 64 0] }
def subState (u : Subscription) : State := { walker with cores := [(0, { placeCore with subs := [(3, u)] })] }

theorem witness_StreamTiles : ∃ c ms, look 3 (coreOf (subState sub0) 0).subs = some sub0 ∧ look sub0.crew (subState sub0).crews = some c ∧
    crewHalted (subState sub0) sub0.crew = false ∧
    (find 0 (c.base + sub0.phase) (coreOf (subState sub0) 0).spad).getLsbD 0 = sub0.pull ∧
    sub0.mem.toNat + sub0.tbytes ≤ 2 ^ 52 ∧ linesUp (subState sub0) (some (dieOf 0)) (missLines (subState sub0) 0 c.ctx ((pieces 0 64).map (·.1))) = true ∧
    findMoves (subState sub0) c.ctx needR (c.base + sub0.ring) (pieces 0 64) = .ok ms ∧ linesUp (subState sub0) (some (dieOf 0)) (moveLines ms) = true ∧
    linesClear (subState sub0) 0 (subState sub0).nextId (moveLines ms).contains = true :=
  ⟨_, _, rfl, rfl, by decide, by decide, by decide, by decide, rfl, by decide, by decide⟩

/-- A stream whose range has no translation; one whose range passes the end of the address space. -/
theorem witness_StreamFreezes : let u := { sub0 with mem := 0x20000 }
    let v := { sub0 with mem := 0xFFFFFFFFFFFF0 }
    ∃ c e, look u.crew (subState u).crews = some c ∧ linesUp (subState u) (some (dieOf 0)) (missLines (subState u) 0 c.ctx ((pieces 0x20000 64).map (·.1))) = true ∧
      findMoves (subState u) c.ctx needR (c.base + u.ring) (pieces 0x20000 64) = .error e ∧ 2 ^ 52 < v.mem.toNat + v.tbytes ∧
      linesUp (subState v) (some (dieOf 0)) (missLines (subState v) 0 c.ctx ((pieces v.mem.toNat 64).map (·.1))) = true :=
  ⟨_, _, rfl, by decide, rfl, by decide, by decide⟩

theorem witness_StreamTilesComplete : ∃ c, look 3 (coreOf (subState subMoving) 0).subs = some subMoving ∧
    look subMoving.crew (subState subMoving).crews = some c ∧ subMoving.stopping = false ∧ c.base + subMoving.phase < 64 ∧
    wf 0 (subState subMoving).mem = true ∧ subMoving.src = subMoving.pas.map (moveSrc (subState subMoving) 0 (!subMoving.pull)) ∧
    (∃ m, subMoving.pas = [m] ∧ (c.base + subMoving.phase < m.scratch ∨ m.scratch + m.n ≤ c.base + subMoving.phase)) ∧ subMoving.part = [] ∧
    linesUp (subState subMoving) (some (dieOf 0)) (moveLines subMoving.pas) = true :=
  ⟨_, rfl, rfl, rfl, by decide, by decide, by decide, ⟨_, rfl, by decide⟩, by decide, by decide⟩

theorem witness_Unsubscribes : let g := { g0 with s := [(4, 3)] }
    let s := { subState sub0 with gangs := [(1, g)] }
    canIssueB (.unsub hd0 (.s 10) (.s 4)) .none s g = true ∧ acting hd0 s g ≠ 0 ∧
      (look 3 (coreOf s g.core).subs).filter (fun u => u.crew = g.crew && subHandle 3 u.seq = rdUni g .none .n32 (.s 4)) = some sub0 := by
  decide

/-! ## Witnesses: the matrix engine and collectives -/

/-- A gang of a crew of two gangs, its troupe being both. -/
def crew2 : Crew := { placeCrewOf with ngangs := 2, gangs := [1, 2] }
def gTrp (n : Nat) : Gang := { g0 with num := n, trp := 3, s := [(5, 64)] }
def troupeState : State :=
  { placed (.nop hd0) with gangs := [(1, gTrp 0), (2, gTrp 1)], crews := [(1, crew2)] }
def mma0 : Mma := ⟨false, 0, 10, .s 4, .s 4, .s 5⟩

theorem whole_of {m : BitVec 64} {g : Gang} (hm : m = 1) (hl : g.fibres.length ≤ 64)
    (h : ((List.range g.fibres.length).all fun j => match fibreAt g j with
      | some f => ended f || decide (j = 0)
      | none => true) = true) : ∀ j f, fibreAt g j = some f → j < 64 ∧ (notEnded f = true → laneIn m j = true) := by
  intro j f hf
  have hj : j < g.fibres.length := by
    by_contra hc
    rw [fibreAt, List.getElem?_eq_none (by omega)] at hf
    exact absurd hf (by simp)
  refine ⟨by omega, fun hn => ?_⟩
  have := List.all_eq_true.mp h j (by simpa using hj)
  rw [hf] at this
  subst hm
  rw [notEnded] at hn
  simp_all [laneIn]

theorem witness_Troupes : ∃ (c : Crew), CanIssue (.troupe hd0 (.ic 35)) .none troupeState (gTrp 0) ∧ acting hd0 troupeState (gTrp 0) ≠ 0 ∧
    holdsEngine troupeState (gTrp 0) = true ∧
    (∀ l f, fibreAt (gTrp 0) l = some f → l < 64 ∧ (notEnded f = true → laneIn (acting hd0 troupeState (gTrp 0)) l = true)) ∧
    look (gTrp 0).crew troupeState.crews = some c ∧ c.spawned = false ∧ (rdUni (gTrp 0) .none .n32 (.ic 35)) = 3 ∧
    (lanesOf (rdUni (gTrp 0) .none .n32 (.ic 35))).length = 2 ∧
    (∀ n, (rdUni (gTrp 0) .none .n32 (.ic 35)).getLsbD n = true → n < 16 ∧ n < c.ngangs) :=
  ⟨crew2, canIssue_of (by decide), by decide, by decide, whole_of (by decide) (by decide) (by decide), rfl, rfl, by decide, by decide,
    by
      intro n hn
      by_cases h : n < 64
      · exact (by decide : ∀ n, n < 64 → (rdUni (gTrp 0) .none .n32 (.ic 35)).getLsbD n = true → n < 16 ∧ n < crew2.ngangs) n h hn
      · exact absurd hn (by simp [BitVec.getLsbD_of_ge _ n (by omega : 64 ≤ n)])⟩

theorem witness_OperandFences : ∃ g n, look 1 (placedG (.nop hd0) g).gangs = some g ∧ Calm g ∧ oldestMopf g = some n ∧ g.stop ≠ .saved ∧
    loadsDone (placedG (.nop hd0) g) 1 (waiting (isMopf n) g) n = true ∧ wf 0 (coreOf (placedG (.nop hd0) g) g.core).spad = true ∧ canIssueB (.mopf hd0) .none (placed (.nop hd0)) g0 = true ∧
    holdsEngine (placed (.nop hd0)) g0 = true :=
  ⟨gWait (.mopf 2), 2, rfl, calm_of (by decide), by decide, by decide, by decide, by decide, by decide, by decide⟩

theorem witness_MatrixArrivals : CanIssue (.mma hd0 mma0) .mt troupeState (gTrp 0) ∧ acting hd0 troupeState (gTrp 0) ≠ 0 ∧
    holdsEngine troupeState (gTrp 0) = true ∧
    (∀ l f, fibreAt (gTrp 0) l = some f → l < 64 ∧ (notEnded f = true → laneIn (acting hd0 troupeState (gTrp 0)) l = true)) ∧
    (gTrp 0).trp ≠ 0 ∧ rdUni (gTrp 0) .none .n32 (.s 5) = 64 ∧ rdUni (gTrp 0) .none .n32 (.s 4) = 0 ∧ getS (gTrp 0) 10 = 0 ∧
    getS (gTrp 0) 11 = 0 ∧ (mxOf troupeState 0).latch = [] :=
  ⟨canIssue_of (by decide), by decide, by decide, whole_of (by decide) (by decide) (by decide), by decide, by decide, by decide, by decide,
    by decide, rfl⟩

/-- The other gang of the troupe has arrived. -/
def arrived1 : Rendezvous := ⟨1, 3, mmaFields mma0, [0, 64, 0, 0, 0], [(1, 64)]⟩
def meetState : State := { troupeState with cores := [(0, { placeCore with mx := { Matrix.reset with owner := some 0, latch := [arrived1] } })] }

theorem witness_MatrixMeetings : canIssueB (.mma hd0 mma0) .mt meetState (gTrp 0) = true ∧ arrived1 ∈ (mxOf meetState 0).latch ∧
    arrived1.crew = (gTrp 0).crew ∧ arrived1.mask = (gTrp 0).trp ∧
    (∀ d ∈ (mxOf meetState 0).latch, d.crew = (gTrp 0).crew → d.mask &&& (gTrp 0).trp ≠ 0 → d = arrived1) ∧ arrived1.cmp = mmaFields mma0 ∧
    arrived1.vals = [rdUni (gTrp 0) .none .n32 mma0.b, rdUni (gTrp 0) .none .n32 mma0.c, getS (gTrp 0) 10, getS (gTrp 0) 11, getS (gTrp 0) 12] ∧
    (∀ n ∈ troupeNums (gTrp 0).trp, n = (gTrp 0).num ∨ ∃ a ∈ arrived1.arrived, a.1 = n) ∧ (meetState.gangs.map (·.1)).Pairwise (· < ·) ∧
    gangOfCrew meetState 1 0 = some 1 ∧ (gTrp 0).trp.getLsbD 0 = true ∧ ∀ x ∈ meetState.gangs, x.2.fibres.length ≤ 64 := by decide

/-- An accepted operation of one k-block over two slabs. -/
def cont0 (st : Nat) : ContBlock := ⟨st, 0, 2, 0, false, 0, 1, 0, 0, [0, 1024], 3, 0, 0, 0, 0⟩
def side0 : MmaSide := ⟨[1, 2], 0, 4096, [], [], [], [], 0, [], false, false⟩
def mxOp0 (st : Nat) : MxOp := ⟨5, 0, 1, 1, 1, [1, 2], false, false, [], .mma (cont0 st) side0⟩
def mxState (q : List MxOp) (tiles : AMap Dword) (wdesc : AMap (BitVec 16)) : State :=
  { troupeState with cores := [(0, { placeCore with
      spadDesc := (List.range 64).map fun i => (i, 0x0000)
      mx := { Matrix.reset with owner := some 0, queue := q, tiles := tiles, wdesc := wdesc } })] }

theorem witness_Continuations : let s := mxState [mxOp0 2] [] []
    ∃ o, canIssueB (.mcont hd0 0) .mt s (gTrp 0) = true ∧ holdsEngine s (gTrp 0) = true ∧ contOf s (theIss hd0 s (gTrp 0)) 0 = some o ∧
      o.kind = .mma (cont0 2) side0 := ⟨_, by decide, by decide, rfl, rfl⟩

/-- Every sector of both operands holds f16. -/
def f16Descs : AMap (BitVec 16) := (List.range 64).map fun i => (i, 0x8002)
def side1 : MmaSide := ⟨[1, 2], 0, 4096, [([], f16Descs), ([], f16Descs)], [], [], f16Descs, 0, [], false, false⟩
def stepState : State :=
  { troupeState with cores := [(0, { placeCore with
      spadDesc := f16Descs
      mx := { Matrix.reset with owner := some 0, queue := [{ mxOp0 0 with kind := .mma (cont0 0) side1 }], wdesc := f16Descs } })] }

theorem witness_MatrixSteps : ∃ o, runningOp stepState 0 = some o ∧ o.kind = .mma (cont0 0) side1 ∧
    (match (stepIn stepState 0 o.ctx (cont0 0) side1).1 with | .ok i => decide (i.fa = .f16 ∧ i.a.length = 16) | .error _ => false) = true ∧
    scalesClear stepState 0 o (cont0 0) side1 = true ∧ wf 0 (mxOf stepState 0).tiles = true ∧
    ∀ p ∈ (mxOf stepState 0).queue, ∀ m, p.kind = .move m → p.done = true ∨ m.tile ≠ (cont0 0).tile := by
  refine ⟨_, rfl, rfl, by decide, by decide, by decide, ?_⟩
  intro p hp m hm
  simp [stepState, mxOf, coreOf, look] at hp
  subst hp
  exact absurd hm (by simp)

theorem witness_MatrixStepFaults : let s := mxState [{ mxOp0 0 with kind := .mma { cont0 0 with abase := [8192, 8192] } side0 }] [] []
    ∃ o c e, runningOp s 0 = some o ∧ o.kind = .mma c side0 ∧ scalesClear s 0 o c side0 = true ∧ (stepIn s 0 o.ctx c side0).1 = .error e ∧ e.1 = cause cRANGE :=
  ⟨_, _, _, rfl, rfl, rfl, rfl, rfl⟩

theorem witness_MatrixEnds : let o := { mxOp0 0 with kind := .mma { cont0 0 with slab := 2 } side0 }
    let s := mxState [o] [] []
    (mxOf s 0).queue.find? mmaEnded = some o ∧ look 1 s.gangs = some (gTrp 0) ∧
      ((mxOf s 0).queue.filter fun p => p.owed.contains 1) = [o] := by decide

theorem witness_MatrixFaults : let u := settleFills 1 (mxState [mxOp0 2] [] [])
    look 1 u.gangs = some (gTrp 0) ∧ (u.cores.findSome? fun c => (splitOf u c.2.mx.queue 1).map fun o => (c.1, o)) = some (0, mxOp0 2) ∧
      (gTrp 0).stop = .running ∧ gangRuns u 1 (gTrp 0) = true ∧ pendDue u 1 (gTrp 0) = false ∧ issueSettled u 1 (gTrp 0) = true ∧
      faultGroup u 1 (gTrp 0) = some (1, 0x8000) := by decide

theorem witness_TileMoves : canIssueB (.mld hd0 ⟨.b64, true, 0, .s 4, .ic 32, 0, 0⟩) .mt (placed (.nop hd0)) { g0 with s := [] } = true ∧
    canIssueB (.mst hd0 ⟨.f32, true, 0, .s 4, .ic 32, 0, 0⟩) .mt (placed (.nop hd0)) g0 = true ∧
    holdsEngine (placed (.nop hd0)) g0 = true ∧
    ((placed (.nop hd0)).cores.map (·.1)).Pairwise (· < ·) ∧
    (rdUni g0 .none .n64 (.s 4) + tileOff (theIss hd0 (placed (.nop hd0)) g0) (.ic 32)).toNat + 4096 ≤ scratchSize (placed (.nop hd0)) g0 := by
  decide

/-- The same of memory, both ways. -/
theorem witness_TileMovesOfMemory : let s := walkerG g0
    ∃ ms ns, canIssueB (.mld hd0 ⟨.f32, false, 0, .s 4, .ic 32, 0, 0⟩) .mt s g0 = true ∧
      canIssueB (.mst hd0 ⟨.f32, false, 0, .s 4, .ic 32, 0, 0⟩) .mt s g0 = true ∧ holdsEngine s g0 = true ∧
      (rdUni g0 .none .n64 (.s 4) + tileOff (theIss hd0 s g0) (.ic 32)).toNat = 0 ∧
      linesUp s (some (dieOf g0.core)) (missLines s g0.core g0.ctx ((pieces 0 4096).map (·.1))) = true ∧
      findMoves s 0 needR 0 (pieces 0 4096) = .ok ms ∧ findMoves s 0 needW 0 (pieces 0 4096) = .ok ns :=
  ⟨_, _, by decide, by decide, by decide, by decide, by decide, rfl, rfl⟩

/-- A started transfer, and a store of eight rows of a tile to the scratchpad. -/
def tileOp (k : MxKind) (src : List (List Byte)) : MxOp := ⟨5, 0, 1, 1, 1, [1], false, true, src, k⟩
def tileMove0 : TileMove := ⟨false, 0, 0, 1, .f32, some 0, [], [], []⟩

theorem witness_TileMovesComplete : let o := tileOp (.move tileMove0) []
    let s := mxState [o] [] []
    (mxOf s 0).queue.find? (fun o => o.id = 5) = some o ∧ moveReady s 0 o = true ∧ tileMove0.part = [] ∧
      o.src = mxSrc s 0 o.kind ∧ tilesBefore (mxOf s 0) tileMove0 = [] ∧ wf 0 (mxOf s 0).tiles = true ∧ wf 0 s.mem = true ∧
      wf 0 (coreOf s 0).spad = true ∧ (∀ p ∈ (mxOf s 0).queue, p.id = 5) ∧ look 1 s.gangs = some (gTrp 0) := by decide

/-- A transfer of memory, whose bytes come piece after piece. -/
theorem witness_TileMovesThroughMemory : let m : TileMove := { tileMove0 with scratch := none, pas := [⟨0, 0x100000, 0, 4096⟩] }
    let o := tileOp (.move m) []
    let s := mxState [o] [] []
    moveReady s 0 o = true ∧ o.src = mxSrc s 0 o.kind ∧ tilesBefore (mxOf s 0) m = [] ∧
      ∀ i < 4096, moveByte m i = 0x100000 + i := by
  refine ⟨by decide, by decide, by decide, fun i hi => ?_⟩
  simp [moveByte, hi]

theorem witness_TileMovesStart : let o := { tileOp (.move { tileMove0 with load := true }) [] with started := false }
    let s := mxState [o] [] []
    o ∈ (mxOf s 0).queue ∧ crewHalted s o.crew = false ∧ loadsDone s o.gang o.act o.id = true ∧
      linesClear s 0 o.id (mxLines o.kind).contains = true := by decide

theorem witness_WeightLoads : let g := { g0 with s := [(8, 64)] }
    let s := walkerG g
    ∃ ms, canIssueB (.wbload hd0 (.s 4) (.s 6) (.s 8)) .mt s g = true ∧ holdsEngine s g = true ∧
      (s.cores.map (·.1)).Pairwise (· < ·) ∧ linesUp s (some (dieOf g.core)) (missLines s g.core g.ctx ((pieces 0 64).map (·.1))) = true ∧
      (rdUni g .none .n32 (.s 8)).toNat = 64 ∧ findMoves s 0 needR 0 (pieces 0 64) = .ok ms ∧
      (let o := tileOp (.wbload 0 ms []) [List.replicate 64 0]
       let u := mxState [o] [] []
       wf 0 (mxOf u 0).wbuf = true ∧ moveReady u 0 o = true ∧ o.src = mxSrc u 0 o.kind ∧ ms.Pairwise fun m n => m.scratch + m.n ≤ n.scratch ∨ n.scratch + n.n ≤ m.scratch) :=
  ⟨_, by decide, by decide, by decide, by decide, by decide, rfl, by decide⟩

/-- A partition of clusters 0 and 1, and a group of both with one member. -/
def collCtx : Ctx := { placeCtx with partition := 3 }
def group0 : Group := ⟨0, 3, 1, [⟨0, 1, 16, 0⟩], false, [], []⟩
def gColl : Gang := { g0 with s := [(4, 3), (5, 16), (6, 0x1000000000)] }
def collState (gs : AMap Group) : State :=
  { placedG (.nop hd0) gColl with ctxs := [(0, collCtx)], groups := gs, nextId := 9 }

theorem witness_GroupsForm : let s := collState []
    canIssueB (.cgrp hd0 (.s 10) (.s 4) (.ic 33)) .none s gColl = true ∧ acting hd0 s gColl ≠ 0 ∧
      groupMaskOk s 0 0 (rdUni gColl .none .n64 (.s 4)) = true ∧ clashing s 0 0 3 1 = [] ∧ freeUnit s 0 = some 0 ∧
      tagHeld s 0 0 1 = false ∧ groupMaskOk s 0 0 (rdUni gColl .none .n64 (.s 7)) = false ∧ tagHeld (collState [(3, group0)]) 0 0 1 = true ∧
      clashing (collState [(3, { group0 with mask := 5 })]) 0 0 3 1 = [3] ∧ (∀ x ∈ (collState [(3, group0)]).groups, x.1 < 9) := by decide

theorem witness_GroupsDissolve : let s := collState [(3, group0)]
    canIssueB (.cgrpFree hd0 (.s 5)) .none s gColl = true ∧
      heldGroup s gColl.crew ((rdUni gColl .none .n32 (.s 5)).setWidth 32) = some (3, ⟨0, 1, 16, 0⟩) ∧ look 3 s.groups = some group0 ∧
      heldGroup s gColl.crew ((rdUni gColl .none .n32 (.s 7)).setWidth 32) = none := by decide

theorem witness_CollectivesIssue : let s := collState [(3, group0)]
    canIssueB (.cag hd0 .n32 (.s 10) (.s 5) (.s 6)) .none s gColl = true ∧ canIssueB (.ca2a hd0 .n32 (.s 10) (.s 5) (.s 6)) .none s gColl = true ∧
      canIssueB (.crs hd0 ⟨.n32, .add, .rne, false, .s 10, .s 5⟩ (.s 6)) .none s gColl = true ∧
      (rdUni gColl .none .n64 (.s 6)).toNat / 2 ^ 36 % 2 ^ 17 = 1 ∧ 0 + 2 * 4 ≤ scratchSize s gColl ∧ group0.dissolved = false := by decide

theorem witness_CollectiveWaits : let s := collState [(3, group0)]
    let gr := { group0 with members := [⟨0, 1, 16, 1⟩] }
    canIssueB (.cbar hd0 (.s 10) (.s 5)) .none s gColl = true ∧ statusAt s 3 (clusterOf gColl.core) 0 = none ∧
      (∀ x ∈ s.gangs, ∀ w ∈ gwaitsOf x.2, collDone s x.2 w = none) ∧ canIssueB (.cwait hd0 (.s 10) (.s 5)) .none s gColl = true ∧
      heldGroup (collState [(3, gr)]) 1 16 = some (3, ⟨0, 1, 16, 1⟩) ∧ statusAt (collState [(3, gr)]) 3 0 0 = none ∧
      statusAt (collState [(3, { gr with status := [(0, 0, 2)] })]) 3 0 0 = some 2 := by decide

/-- Both members have issued request 0 for one n32 element each way. -/
def cReq0 (core crew cluster : Nat) : CReq :=
  ⟨0, 2, crew, 1, core, crew, true, 8, [1, 0, 0, 0, 2, 0, 0, 0], 4, [], cluster, 1, .n32, .add, .rne, false, 1, 0, 16⟩
def performState : State :=
  { collState [(3, { group0 with members := [⟨0, 1, 16, 1⟩, ⟨1, 2, 8, 1⟩], reqs := [cReq0 0 1 0, cReq0 32 2 1] })] with
    crews := [(1, placeCrewOf), (2, { placeCrewOf with core := 32, gangs := [2] })]
    cores := [(0, { placeCore with spad := [(0, 1), (4, 2)] }), (32, { Core.reset 32 with spad := [(0, 1), (4, 2)] })] }

theorem witness_CollectivesPerform : collReady performState 3 0 = true ∧
    (look 3 performState.groups).map (fun g => reqsOf g 0) = some [cReq0 0 1 0, cReq0 32 2 1] ∧
    ([cReq0 0 1 0, cReq0 32 2 1].all (sameReq (cReq0 0 1 0))) = true ∧ ([cReq0 0 1 0, cReq0 32 2 1].map (·.core)).Nodup ∧
    ∀ q ∈ [cReq0 0 1 0, cReq0 32 2 1], (q.src + q.srcLen ≤ q.dst ∨ q.dst + q.dstLen ≤ q.src) ∧ q.hits = [] ∧
      wf 0 (coreOf performState q.core).spad = true ∧ spadRun performState q.core (reqBase performState q + q.src) q.srcLen = q.srcOld := by
  decide

theorem witness_CollectivesStart : let r := { cReq0 0 1 0 with started := false, srcOld := [] }
    let s := collState [(3, { group0 with members := [⟨0, 1, 16, 1⟩], reqs := [r] })]
    (look 3 s.groups).map (·.reqs) = some [r] ∧ reqReady s r = true := by decide

/-! ## Witnesses: checkpoints, counters, queues, connections -/

theorem witness_Checkpoints : let g := gGwait .ckptHold
    (∃ c, look g.crew (placedG (.nop hd0) g).crews = some c) ∧ Calm g ∧ .ckptHold ∈ gwaitsOf g ∧
      loadsDone (placedG (.nop hd0) g) 1 allLanes (placedG (.nop hd0) g).nextId = true ∧
      canIssueB (.ckptHold hd0 (.s 10) (.ic 33)) .none (placed (.nop hd0)) g0 = true ∧ Released hd0 (placed (.nop hd0)) g0 .dev ∧
      drained (placed (.nop hd0)) 1 g0 = true ∧ (fibreAt g0 0).map (·.life) = some .live ∧ g.stop = .running ∧
      wf 0 (coreOf (placedG (.nop hd0) g) 0).spad = true ∧ drained (placedG (.nop hd0) g) 1 g = true ∧
      drained (placedG (.nop hd0) { g with cpcnt := 1 }) 1 { g with cpcnt := 1 } = false :=
  ⟨⟨_, rfl⟩, calm_of (by decide), by decide, by decide, by decide, Or.inr ⟨by decide, by decide⟩, by decide, by decide, by decide, by decide,
    by decide, by decide⟩

theorem witness_CountersAndSamples : let s := placedPerf (.nop hd0)
    canIssueB (.perfSel hd0 (.s 10) (.ic 61) 15) .none s g0 = true ∧ canIssueB (.perfSmp hd0 (.s 10) (.ic 34)) .none s g0 = true ∧
      holdsPerf s g0 = true ∧ (look 0 s.ctxs).isSome = true ∧ (rdUni g0 .none .n32 (.ic 61)).toNat = 0x1D ∧ (rdUni g0 .none .n32 (.ic 34)).toNat < 2 ^ 18 := by decide

/-- A cycle's events that take a counter of 48 bits past its end. -/
theorem witness_CycleEnds : let p := { Perf.reset with ctr := [(2, 0xFFFFFFFFFFFF)], now := [(2, 1), (4, 1)], wrote := [(4, 7), (5, 0)] }
    wf 0 p.ctr = true ∧ wf 0 p.now = true ∧ (p.wrote.map (·.1)).Pairwise (· < ·) ∧ look 2 p.wrote = none ∧ look 4 p.wrote = some 7 ∧ 2 ^ 48 ≤ low 48 (find 0 2 p.ctr) + find 0 2 p.now := by decide

/-- A core that samples stalls, with room for one record, and with none. -/
def smpState (size : Nat) : State :=
  { placed (.nop hd0) with cores := [(0, { placeCore with perf :=
      { Perf.reset with owner := some 0, smp := 0x30001, ring := 0x500000, size := size, sel := [(3, 0x0E)] } })] }

theorem witness_StallSamples : ∀ size, size = 64 ∨ size = 0 → let p := (coreOf (smpState size) 0).perf
    find 0 3 p.sel = 0x0E ∧ look 3 p.wrote = none ∧ wf 0 p.now = true ∧ p.owner = some 0 ∧ smpOn p = true ∧ smpStall p = true ∧ p.nextAt.toNat ≤ (smpState size).clk.toNat ∧
      (sampleTurn (smpState size) 0 0).isSome = true := by
  rintro size (rfl | rfl) <;> decide

theorem witness_Breakpoints : ∃ c l, look 0 ({ placed (.nop hd0) with ctxs := [(0, { placeCtx with log := some ⟨0, 64, 64, true⟩ })] } :
    State).ctxs = some c ∧ c.log = some l ∧ (∀ x ∈ c.launches, x.2.pkt.replay = false) ∧ (7 : Fin 8).val < c.breaks.length :=
  ⟨_, _, rfl, rfl, by decide, by decide⟩

/-- A mapped queue with its descriptor at virtual 0x1000 and its wake register at 0x1100, which reads 1. -/
def queue0 : Queue :=
  { ctx := 0, desc := 0x1000, ring := 0x2000, nent := 2, rdptr := 0, wake := 0x1100, waddr := 0, wval := 0, erraddr := 0x1200, tol := 15
    mapped := true, step := 0, held := true, poked := true, runnable := false, fetched := none, prev := none }
def queueState (u : Queue) : State := { setBytes [(0x101100, 1)] walker with queues := [(4, u)] }

/-- The same on tables that map the first GiB. -/
def queueSmall (u : Queue) : State :=
  { setBytes [(0x1100, 1), (0x200000, 1), (0x200002, 0x21), (0x210000, 0x7B)] State.reset with
    ctxs := [(0, { placeCtx with root := 0x200000, partition := 1 })], queues := [(4, u)] }

/-- A packet of one crew whose header, at 0x3000, has WIDTH 8, a crew of one point and REGS 1, and one of zeros. -/
theorem witness_Packets : let s := setBytes [(0x3008, 8), (0x300A, 1), (0x300C, 1), (0x300E, 1), (0x3010, 1)] (queueSmall queue0)
    (checkPacket s 0 (readPacket (0x3000 + 2 ^ 256 + 2 ^ 288 + 2 ^ 320 + 5 * 2 ^ 440))).isSome = true ∧ checkPacket s 0 (readPacket 0) = none := by
  decide

/-- A queue whose entry is all zeros, and one whose ring is not mapped. -/
theorem witness_QueueFetches : let v := { queue0 with ring := 0x40000000 }
    ∃ i, look 4 (queueSmall queue0).queues = some queue0 ∧ queueNat (queueSmall queue0) 0 0x1100 4 = some i ∧
      i ≠ queue0.rdptr.toNat ∧ queue0.waddr = 0 ∧ linesUp (queueSmall queue0) none (fetchLines (queueSmall queue0) queue0) = true ∧
      queueEntry (queueSmall v) v = none ∧ linesUp (queueSmall v) none (fetchLines (queueSmall v) v) = true :=
  ⟨1, rfl, by decide, by decide, by decide, linesUp_of rfl rfl _ _, by decide, linesUp_of rfl rfl _ _⟩

theorem witness_QueueAcceptances : let u := { queue0 with fetched := some (placeLaunch, []) }
    ∃ c, look 4 (queueSmall u).queues = some u ∧ look 0 (queueSmall u).ctxs = some c ∧ freeSlot c = some 1 ∧
      linesUp (queueSmall u) none (launchLines (queueSmall u) 0 placeLaunch.pkt) = true := ⟨_, by decide, rfl, by decide, linesUp_of rfl rfl _ _⟩

/-- A wake of a mapped queue, and of one that is not mapped; a write to the wake register, and one that takes the value at WADDR to
WVAL; an unmapping at each of its steps, and after them. -/
theorem witness_QueueWakes : let u := { queue0 with waddr := 0x1108, wval := 5 }
    queue0.poked = true ∧ (∀ m : Bool, ∀ n ≤ 4, look 4 (queueState { queue0 with mapped := m, step := n }).queues = some { queue0 with mapped := m, step := n }) ∧
      translateNow (queueState queue0) 0 needNone queue0.wake.toNat = .pa 0x101100 ∧
      u.waddr ≠ 0 ∧ translateNow (queueState u) 0 needNone u.waddr.toNat = .pa 0x101108 ∧ memNat (queueState u) 0x101108 8 < u.wval.toNat ∧
      u.wval.toNat ≤ memNat (writeHome 4 [(0x101108, 5)] (queueState u)) 0x101108 8 ∧
      linesUp (queueState queue0) none (descLines (queueState queue0) queue0) = true :=
  ⟨rfl, fun _ _ _ => rfl, by decide, by decide, by decide, by decide, by decide, by decide⟩

/-- A descriptor of a ring of two entries, all else 0, in a page of 1 GiB. -/
theorem witness_QueueMaps :
    let s := { setBytes [(0x200000, 1), (0x200002, 0x21), (0x210000, 0x7B), (0x1008, 2)] State.reset with ctxs := [(0, { placeCtx with root := 0x200000 })] }
    ∃ c n, look 0 s.ctxs = some c ∧ queueNat s 0 0x1000 64 = some n ∧ descOk n = true ∧ look 4 s.queues = none ∧ admitted s 4 0 = true ∧
      linesUp s none (rangeLines s 0 (0x1000, 64)) = true := ⟨_, _, rfl, rfl, by decide, rfl, by decide, by decide⟩

/-- A connection whose window is the last page byte range of the tables, and the page after it, which is not mapped. -/
def conn0 (frozen : Bool) : Conn := ⟨0, [⟨0xFF00, 0x200, true, true⟩], some (0x4000, 16), 8, frozen, false, 0, [], []⟩
def connState (c : Conn) : State := { walker with conns := [(2, c)] }

theorem witness_Rdma : ∃ as e, look 2 (connState (conn0 false)).conns = some (conn0 false) ∧
    rdmaWalk (connState (conn0 false)) (conn0 false) true ((List.range 2).map (0xFFFE + ·)) = .ok as ∧ as.Nodup ∧
    wf 0 (connState (conn0 false)).mem = true ∧
    rdmaWalk (connState (conn0 false)) (conn0 false) true ((List.range 2).map (0xFFFF + ·)) = .error e ∧ e.2 = 0x10000 ∧
    rdmaWalk (connState (conn0 false)) (conn0 false) false ((List.range 2).map (0xFFFE + ·)) = .ok as ∧
    (conn0 false).closed = false ∧ (conn0 true).frozen = true :=
  ⟨_, _, rfl, rfl, by decide, by decide, rfl, rfl, rfl, rfl, rfl⟩

/-- Each kind of operation can be reached; where the home's fabric island is in S2, the write waits. -/
theorem witness_RdmaReaches : let s := connState (conn0 false)
    (∀ op ∈ [Instr.rdmaWrite 2 0xFFFE [1, 2], .rdmaWrite 2 0xFFFF [1, 2], .rdmaRead 2 0xFFFE 2, .rdmaRead 2 0xFFFF 2, .rdmaSend 2 [1, 2],
      .rdmaRefused 2 .rdmaAtomic], linesUp s none (opLines s (conn0 false) op) = true) ∧
    (let t := { s with islands := [(60, ⟨0, 2, false, 0⟩)] }
     linesUp t none (opLines t (conn0 false) (.rdmaWrite 2 0xFFFE [1, 2])) = false) := by decide

/-- A send into a mapped part of the ring, around its end, and one whose second byte has no translation. -/
theorem witness_RdmaSends : let spot := fun (c : Conn) (i : Nat) => (c.ring.getD (0, 1)).1 + (c.fill + i) % (c.ring.getD (0, 1)).2
    let c := { conn0 false with fill := 15 }
    let d := { conn0 false with ring := some (0xFFFF, 16), fill := 0 }
    (reach (connState c) 0 needW (spot c 0) = .pa 0x10400F ∧ reach (connState c) 0 needW (spot c 1) = .pa 0x104000) ∧
      reach (connState d) 0 needW (spot d 0) = .pa 0x10FFFF ∧
      (∃ w, reach (connState d) 0 needW (spot d 1) = .bad w) ∧ ({ d with ring := none } : Conn).ring = none := by
  refine ⟨by decide, by decide, ⟨_, rfl⟩, rfl⟩

theorem witness_RdmaReads : let s := connState (conn0 false)
    ∃ as, rdmaWalk s (conn0 false) false [0xFF00] = .ok as ∧ uoOver s (distinct (as.map lineOf)) = false ∧
      mergesOver s (distinct (as.map lineOf)) = false ∧
      uoOver { s with cores := [(0, { placeCore with uo := [⟨lineOf 0x10FF00, 0, .add, .n32, [(0x10FF00, 5)]⟩] })] } (distinct (as.map lineOf)) = true :=
  ⟨_, rfl, by decide, by decide, by decide⟩

theorem witness_Links : (0, 3) ∉ State.reset.links ∧ (3, 0) ∈ ({ State.reset with links := [(3, 0)] } : State).links ∧
    booted State.reset = false ∧ booted { State.reset with boot := ⟨4, false, List.replicate 4 0, [], []⟩ } = true := by decide

/-! ## Witnesses: pre-emption, power, the system -/

theorem witness_Preempts : let s := { placed (.nop hd0) with ctxs := [(0, placeCtx), (1, placeCtx)] }
    (look 0 s.ctxs).isSome = true ∧ (look 1 s.ctxs).isSome = true ∧ (s.gangs.map (·.1)).Pairwise (· < ·) ∧ 1 ∈ victims s 0 [0] ∧
      (∀ c ∈ [0], c < coreCount) := by decide

theorem witness_StopsComplete : let g := { g0 with stop := .stopping }
    look 1 (placedG (.nop hd0) g).gangs = some g ∧ (coreOf (placedG (.nop hd0) g) g.core).uo = [] ∧
      stopDone (placedG (.nop hd0) g) 1 g = true ∧ (coreOf { uoCore with gangs := [(1, g)] } 0).uo ≠ [] := by decide

/-- The crew is saved, in favour of context 1. -/
def savedState : State :=
  { placedG (.nop hd0) { g0 with stop := .saved } with
    crews := [(1, { placeCrewOf with saved := true })], ctxs := [(0, { placeCtx with partition := 1 }), (1, placeCtx)]
    cores := [(0, { placeCore with vacated := [(0, 1)], spad := [(5, 9)] })] }

theorem witness_ScanOuts : (((coreOf savedState 0).vacated.filter fun v => v.2 = 1).map (·.1)) = [0] ∧
    (savedState.crews.filter fun c => c.2.core = 0 && [0].contains c.2.ctx) = [(1, { placeCrewOf with saved := true })] ∧
    regionWritten savedState 0 1 = false ∧ engineWritten savedState 0 = false ∧ 1 ∈ placeCrewOf.gangs ∧
    (mxOf savedState 0).owner = some 0 ∧ (∀ m ∈ (coreOf savedState 0).mxSaved, m.owner ≠ some 1) := by decide

/-- Context 1 is gone. -/
def returnState : State := { savedState with ctxs := [(0, { placeCtx with partition := 1 })], cores := [(0, { placeCore with spad := [(5, 9)] })] }

theorem witness_Restores : ∃ c l r, look 1 returnState.crews = some c ∧ c.ens = none ∧ launchOf returnState c.ctx c.ltag = some l ∧
    nextSaved returnState c.ctx c.ltag 0 = some 1 ∧ restoreRoom returnState 1 c l 0 = some r ∧
    (returnState.gangs.map (·.1)).Pairwise (· < ·) ∧ (∀ x ∈ returnState.gangs, x.2.crew = 1 → ∀ f ∈ x.2.fibres, f.incsel = 15) ∧
    wf 0 (coreOf returnState 0).spad = true ∧ wf 0 c.moved = true ∧ c.moved = [] :=
  ⟨_, _, _, rfl, rfl, rfl, by decide, rfl, by decide, by decide, by decide, by decide, rfl⟩

/-- Over the cap, and well below it for 100 measurements with an island lowered. -/
theorem witness_PowerSteps : (3200 * 1000 < averagePower { State.reset.power with window := [3200001] }) ∧
    (∃ i < 48, (islandOf (placed (.nop hd0)) i).point < 4 ∧ clusterBusy (placed (.nop hd0)) i = true) ∧
    ¬ (3200 * 1000 < averagePower { State.reset.power with window := [2880000], under := 100, lowered := [5] }) ∧
    booted { placed (.nop hd0) with boot := ⟨4, false, List.replicate 4 0, [], []⟩ } = true := by
  refine ⟨by decide, ⟨0, by decide⟩, by decide, by decide⟩

theorem witness_Islands : let s := { State.reset with islands := [(0, ⟨0, 3, true, 0⟩), (1, ⟨0, 3, false, 0⟩)], queues := [(4, queue0)], ctxs := [(0, placeCtx)] }
    (islandOf s 0).exiting = true ∧ (islandOf s 1).exiting = false ∧ islandTarget State.reset 2 ≠ (islandOf State.reset 2).st ∧
      bearing s 48 queue0 = true ∧ islandNeeded (placed (.nop hd0)) 0 = true ∧ clusterBusy (placed (.nop hd0)) 0 = true := by decide

theorem witness_Attestation : let s := { State.reset with boot := ⟨4, false, List.replicate 4 0, [], []⟩ }
    s.boot.done = 4 ∧ s.boot.recovery = false ∧ (List.replicate 32 (0 : Byte)).length = 32 := by decide

/-- Whichever way the signature of a stage verifies, the four stages have a first that fails, or none. -/
theorem witness_Boot : let st := List.replicate 4 (⟨[1], [7], 2⟩ : Sys2Proof.Stage)
    ∃ n ≤ 4, (∀ i x, i < n → st[i]? = some x → Config.verify x.bytes x.sig = true) ∧
      (n = 4 ∨ ∃ x, st[n]? = some x ∧ Config.verify x.bytes x.sig = false) := by
  intro st
  have same : ∀ i x, st[i]? = some x → x = (⟨[1], [7], 2⟩ : Sys2Proof.Stage) := fun i x h => List.eq_of_mem_replicate (List.mem_of_getElem? h)
  cases h : Config.verify (⟨[1], [7], 2⟩ : Sys2Proof.Stage).bytes (⟨[1], [7], 2⟩ : Sys2Proof.Stage).sig with
  | false => exact ⟨0, by decide, fun i x hi => absurd hi (by omega), Or.inr ⟨_, rfl, h⟩⟩
  | true => exact ⟨4, by decide, fun i x _ hx => by rw [same i x hx]; exact h, Or.inl rfl⟩

def cfg0 : CtxCfg :=
  { id := 3, root := 0x200000, partition := 1, heap := some (0x800000000, 2), arena := some (0x10000, 0x10000), overflow := []
    saveArea := none, system := 0, modules := [], engines := [7], log := none, safemaps := [], conns := [], weight := 1024, threads := [(1, 7)]
    tables := [] }

theorem witness_Contexts : let s := { State.reset with boot := ⟨4, false, List.replicate 4 0, [], []⟩ }
    booted s = true ∧ look cfg0.id s.ctxs = none ∧ cfgOk s cfg0 = true ∧
      (let t := { s with ctxs := [(3, { placeCtx with launches := [] })] }
       (look 3 t.ctxs).isSome = true ∧ (look 3 t.ctxs).map (·.launches) = some [] ∧ (t.ctxs.map (·.1)).Pairwise (· < ·)) ∧
      (newCtx cfg0).ready = false := by decide

/-- An engine with an earlier request of another page, the one that needs the page, and a later one. -/
theorem witness_PageRevocations : (∃ rs : List CopyReq, rs = [{ copy0 true with id := 4, moves := [⟨0x20000, 0x120000, 0, 4⟩] }, copy0 true, { copy0 true with id := 6 }] ∧
      (rs.map (·.id)).Nodup ∧ ∃ r ∈ rs, r.ctx = 0 ∧ r.done = false ∧ r.dropped = false ∧ ∃ m ∈ r.moves, m.va < 0 + 65536 ∧ 0 < m.va + m.n) ∧
    (look 0 walker.ctxs).isSome = true ∧ (0 : Dword).toNat % 65536 = 0 ∧ wf 0 walker.mem = true ∧
    (walker.cores.map (·.1)).Pairwise (· < ·) ∧ 0x200000 % 8 = 0 ∧ leafFrom walker 0 3 0x200000 = some 0x220000 ∧
    (∀ r ∈ (coreOf walker 0).copies, r.g2s = true ∨ r.started = false) := ⟨⟨_, rfl, by decide, by decide⟩, by decide⟩

/-- Pages of the other sizes; entries of the cluster TLB that go and that stay. -/
theorem witness_LargePages : (∀ size ∈ [2 ^ 21, 2 ^ 30], (0x40000000 : Dword).toNat % size = 0) ∧
    (let e : TlbEnt := ⟨0, 0, 0x10000, 0x100000, true, true, true, 3⟩
     let s := { walker with ctlb := [(0, [e, { e with va := 0x10000 }, { e with ctx := 1 }])], ctxs := [(0, { placeCtx with partition := 1 })] }
     (look 0 s.ctxs).map (fun c => c.partition.getLsbD 0) = some true ∧ (look 0 s.ctlb).map (·.length) = some 3) := by decide

theorem witness_FrozenMasters : let rep : Report := ⟨none, 0, 0, 0, []⟩
    let s := { subState { sub0 with frozen := true } with conns := [(2, conn0 true)] }
    look 1 (placedG (.nop hd0) { g0 with frozen := some rep }).gangs = some { g0 with frozen := some rep } ∧
      (look 3 (coreOf s 0).subs).map (fun u => u.frozen && !u.stopping) = some true ∧ look 2 s.conns = some (conn0 true) ∧
      g0.fibres.length ≤ 64 ∧ (conn0 true).closed = false ∧
      (let t := { copyState true with cores := [(0, { placeCore with copies := [{ copy0 true with held := true }], copyFrozen := [0] })] }
       0 ∈ (coreOf t 0).copyFrozen ∧ linesUp t (some (dieOf 0)) (heldLines t 0 0) = true) := by
  decide

/-- The engine's pages are mapped, and are not. -/
theorem witness_FrozenEngines : ∃ rs e, [{ copy0 true with held := true }].mapM (retranslate walker 0) = .ok rs ∧ [{ copy0 true with held := true, moves := [⟨0x20000, 0x120000, 0, 4⟩] }].mapM (retranslate walker 0) = .error e :=
  ⟨_, _, rfl, rfl⟩

/-- A crew of two gangs, each with its checkpoint, one of which was taken later. -/
theorem witness_Recovery : let im : Image := ⟨4, g0, 1, placeCrewOf, [(4, 9)], [], [], [], none⟩
    let old : Image := { im with taken := 2, bytes := [] }
    let s := { placed (.nop hd0) with ckpts := [(1, im), (2, old)], gangs := [(1, g0), (2, { g0 with num := 1 })], nextId := 3 }
    (look 0 s.ctxs).isSome = true ∧ failureSeen s placeCtx (.portDown 0) = true ∧ (launchOf s 0 im.gang.ltag).isSome = true ∧
      (s.gangs.map (·.1)).Pairwise (· < ·) ∧ (s.ckpts.filter fun i => i.2.crewKey = 1) = [(1, im), (2, old)] ∧
      (∀ i ∈ s.ckpts, i.2 = im ∨ i.2.taken < im.taken) ∧ (∀ x ∈ s.gangs, x.2.crew = 1 → ∃ i ∈ s.ckpts, i.1 = x.1) ∧
      (∀ x ∈ s.ckpts, x.2.gang.ctx = 0 ↔ x.2.crewKey = 1) ∧ (s.ckpts.map (·.1)).Pairwise (· < ·) ∧
      ∀ x ∈ s.gangs, x.1 < s.nextId ∧ x.2.fibres.length ≤ 64 := by decide

/-! ## Witnesses: traps, the step, the invariants -/

theorem witness_SoftwareTraps : ∃ (s : State) (g : Gang), CanIssue (.trap hd0 (.ic 33)) .none s g ∧ CanIssue (.brk hd0) .none s g ∧
    GroupReady s g ∧ acting hd0 s g ≠ 0 ∧ g.frozen = none ∧ g.tvec = 0x9000 ∧ g.frames.length < 4 :=
  ⟨placedG (.nop hd0) { g0 with tvec := 0x9000 }, { g0 with tvec := 0x9000 }, canIssue_of (by decide), canIssue_of (by decide),
    one_lane_ready rfl (by decide), by decide, rfl, rfl, by decide⟩

/-- Records of two issues: those of the earlier are due first. -/
theorem witness_TrapsInTurn : let f := Fibre.start 0x8000 0 0 0 15
    let g := { g0 with fibres := { f with li := 2 } :: { f with li := 1 } :: List.replicate 6 Fibre.blank
                       pend := [⟨0, cause cPROT, 0, 0x8000⟩, ⟨1, cause cBREAK, 0, 0x8008⟩] }
    pendDue (placedG (.nop hd0) g) 1 g = true ∧ (g.pend.filter fun r => match fibreAt g r.lane with
      | some f => decide (f.life = .live) && g.pend.all fun q => match fibreAt g q.lane with
        | some e => decide (e.life ≠ .live) || decide (f.li ≤ e.li)
        | none => true
      | none => false) = [⟨1, cause cBREAK, 0, 0x8008⟩] := by decide

theorem witness_TrapsDue : let g := { g0 with pend := [⟨0, cause cPROT, 0, 0x8000⟩] }
    pendDue (placedG (.nop hd0) g) 1 g = true ∧ pendDue (placed (.trap hd0 (.v 4))) 1 g0 = false ∧
      decodeDue { placed (.nop hd0) with mem := [] } 1 g0 = none ∧
      (decodeDue (setBytes [(0x108000, 0xFF)] (placed (.nop hd0))) 1 g0).map (fun d => (d.1, d.2.1)) = some (1, 0x8000) := by decide

/-- `tret` with no frame is ILLEGAL for its group. -/
theorem witness_GangFaults : let s := placed (.tret hd0)
    legal (.tret hd0) = true ∧ look s.cur.gang s.gangs = some g0 ∧ decodeFault s g0 (.tret hd0) = some cILLEGAL ∧ s.cur.group = 1 ∧ g0.frozen = none ∧
      (fibreAt g0 0).map ready = some true := by decide

theorem witness_TrapReturns : let g := { g0 with tvec := 0x9000, frames := [frame0 0x8000] }
    let s := placedG (.tret hd0) g
    canIssueB (.tret hd0) .none s g = true ∧ (fibreAt g 0).map ready = some true ∧ acting hd0 s g = 1 ∧
      ∀ l ∈ List.range 64, laneIn (frame0 0x8000).tmask l = true → laneIn (acting hd0 s g) l = true := by decide

theorem witness_StepRunsDecoded : let i : Instr := .add hd0 ⟨.i32, false, .v 6, .v 4, .v 5⟩
    let s := State.reset.withFetchWord 64 (wordsNum (encode i))
    let u := tick s
    let v := fetchBlocks 1 (settleFills 1 (fetchBlocks 1 (guardGang 1 (dropStale 0 u))))
    (match choose u.seq (moves u) with | some (.gang 1) => true | _ => false) = true ∧ look 1 u.gangs = some g0 ∧ pendDue u 1 g0 = false ∧
      look 1 v.gangs = some g0 ∧ gangRuns v 1 g0 = true ∧ pendDue v 1 g0 = false ∧ pickGroup v 1 g0 = some (1, 0x8000) ∧
      (match fetch v g0 0x8000 with | .instr j => decide (j = i) | _ => false) = true ∧ decodeFault v g0 i = none ∧
      (deliverFault 1 v).isNone = true := by decide

theorem witness_Fetches : let i : Instr := .add hd0 ⟨.i32, false, .v 6, .v 4, .v 5⟩
    legal i = true ∧ (0x8000 : Pc).toNat / 32 = ((0x8000 : Pc).toNat + lenBytes i - 1) / 32 ∧
      0x108000 % 32 = (0x8000 : Pc).toNat % 32 ∧ look (blockOf 0x108000) (coreOf (placed i) 0).icache = none ∧ (coreOf (placed i) 0).icache.length ≤ icBlocks ∧
      (∀ j, j < (encode i).length → translate (placed i) g0 needX ((0x8000 : Pc).toNat + 4 * j) = .pa (0x108000 + 4 * j)) ∧
      ∀ j, j < 8 → (encodeBytes i)[j]? = some (memByte (placed i) (0x108000 + j)) := by decide

theorem witness_Invariants : State.reset.MemWf ∧ State.reset.FramesFit ∧ State.reset.KeptOk :=
  ⟨⟨by decide, by decide⟩, ⟨fun _ _ h => absurd h (by simp [State.reset]), fun _ _ h => absurd h (by simp [State.reset])⟩,
    ⟨by simp [State.reset], fun _ h => absurd h (by simp [State.reset])⟩⟩

/-- A kept operation of the connection that keeps it. -/
theorem witness_KeptOperations : ({ State.reset with conns := [(2, { conn0 true with queued := [.rdmaWrite 2 0 [1]] })] } : State).KeptOk := by
  refine ⟨by decide, ?_⟩
  decide

theorem witness_InstructionsLeaveTheModule : (Instr.nop hd0).WellFormed ∧ (∃ t, exec (.nop hd0) (placed (.nop hd0)) = .next t) :=
  ⟨rfl, ⟨_, rfl⟩⟩

theorem witness_Canonical : (Fibre.start 0 0 0 0 15).Canonical ∧ wf 0 g0.s = true ∧ (Instr.nop hd0).WellFormed ∧
    decodeWords [0x3F0, 0] = .ok (.tret hd0) := ⟨⟨by decide, by decide, by decide⟩, by decide, rfl, rfl⟩


/-! ## Worked results of the spec -/

/-- Fibre 0 after `i`, when the gang is `g`. -/
def lane0 (i : Instr) (g : Gang) : Option Fibre :=
  match exec i (placedG i g) with
  | .next t => (look 1 t.gangs).bind fun g => fibreAt g 0
  | _ => none

/-- What `i` leaves in v0, v1 and FST, from vector registers `r`. -/
def work (i : Instr) (r : AMap Word) : Option (Word × Word × BitVec 5) :=
  (lane0 i (withFibre fun f => { f with v := r })).map fun f => (find 0 0 f.v, find 0 1 f.v, f.fst)

/-- A two-source integer form over v0, v1, with result v0. -/
abbrev i3 (t : Ty) (sat : Bool) : Int3 := ⟨t, sat, .v 0, .v 0, .v 1⟩
abbrev f3 (t : Ty) : Fl3 := ⟨t, .rne, false, .v 0, .v 0, .v 1⟩
abbrev f2 (t : Ty) (rm : Rm) : Fl2 := ⟨t, rm, false, .v 0, .v 0⟩
abbrev c2 (d s : Fmt) (rm : Rm) (sat : Bool) : Cvt := ⟨d, s, rm, sat, .v 0, .v 0⟩

/-- R94. -/
theorem test_add_wraps : work (.add hd0 (i3 .i8 false)) [(0, 100), (1, 100)] = some (0xFFFFFFC8, 100, 0) := by decide

/-- R94. -/
theorem test_add_sat : work (.add hd0 (i3 .i8 true)) [(0, 100), (1, 100)] = some (127, 100, 0) := by decide

/-- R94. -/
theorem test_sub_sat : work (.sub hd0 (i3 .n8 true)) [(0, 3), (1, 5)] = some (0, 5, 0) := by decide

/-- R94. -/
theorem test_mulhi_signed : work (.mulhi hd0 (i3 .i32 false)) [(0, 0xFFFFFFFF), (1, 1)] = some (0xFFFFFFFF, 1, 0) := by decide

/-- R94. -/
theorem test_mulhi_unsigned : work (.mulhi hd0 (i3 .n32 false)) [(0, 0xFFFFFFFF), (1, 2)] = some (1, 2, 0) := by decide

/-- R94. -/
theorem test_div : work (.div hd0 (i3 .i32 false)) [(0, 0xFFFFFFF9), (1, 2)] = some (0xFFFFFFFD, 2, 0) := by decide

/-- R87. -/
theorem test_div_least : work (.div hd0 (i3 .i32 false)) [(0, 0x80000000), (1, 0xFFFFFFFF)] = some (0x80000000, 0xFFFFFFFF, 0) := by decide

/-- R94. -/
theorem test_rem : work (.rem hd0 (i3 .i32 false)) [(0, 0xFFFFFFF9), (1, 2)] = some (0xFFFFFFFF, 2, 0) := by decide

/-- R87. -/
theorem test_rem_zero : work (.rem hd0 (i3 .i32 false)) [(0, 7)] = some (7, 0, 0) := by decide

/-- R94. -/
theorem test_shl_narrow : work (.shl hd0 (i3 .i8 false)) [(0, 64), (1, 1)] = some (0xFFFFFF80, 1, 0) := by decide

/-- R94. -/
theorem test_sar_beyond : work (.sar hd0 (i3 .i8 false)) [(0, 0xFFFFFF80), (1, 9)] = some (0xFFFFFFFF, 9, 0) := by decide

/-- R94. -/
theorem test_bfe_signed :
    work (.bfe hd0 ⟨.i32, .v 0, .v 0, .ic 40, 4⟩) [(0, 0xF00)] = some (0xFFFFFFFF, 0, 0) := by decide

/-- R94. -/
theorem test_bfe_unsigned :
    work (.bfe hd0 ⟨.n32, .v 0, .v 0, .ic 40, 4⟩) [(0, 0xF00)] = some (15, 0, 0) := by decide

/-- The registers, predicates and FST that `i` leaves in fibre 0, from registers `r` and predicates `p`. -/
def workAll (i : Instr) (r : AMap Word) (p : BitVec 7) : Option (AMap Word × BitVec 7 × BitVec 5) :=
  (lane0 i (withFibre fun f => { f with v := r, p := p })).map fun f => (f.v, f.p, f.fst)

/-- R94: the carry chain, low half. -/
theorem test_addc_low :
    workAll (.addc hd0 ⟨.n64, false, .v 0, .v 4, .v 8, .p 1⟩) [(4, 0xFFFFFFFF), (5, 0xFFFFFFFF), (6, 1), (8, 1)] 0 =
      some ([(4, 0xFFFFFFFF), (5, 0xFFFFFFFF), (6, 1), (8, 1)], 2, 0) := by decide

/-- R94: the carry chain, high half. -/
theorem test_addc_high :
    workAll (.addc hd0 ⟨.n64, false, .v 2, .v 6, .v 10, .p 1⟩) [(4, 0xFFFFFFFF), (5, 0xFFFFFFFF), (6, 1), (8, 1)] 2 =
      some ([(2, 2), (4, 0xFFFFFFFF), (5, 0xFFFFFFFF), (6, 1), (8, 1)], 0, 0) := by decide

/-- R127: DZ. -/
theorem test_fdiv_by_zero :
    work (.fdiv hd0 (f3 .f32)) [(0, 0x3F800000)] = some (0x7F800000, 0, 8) := by decide

/-- R127: IV. -/
theorem test_fdiv_zeros :
    work (.fdiv hd0 (f3 .f32)) [] = some (0x7FC00000, 0, 16) := by decide

/-- R127: IV. -/
theorem test_fsqrt_negative :
    work (.fsqrt hd0 (f2 .f32 .rne)) [(0, 0xC0800000)] = some (0x7FC00000, 0, 16) := by decide

/-- R127. -/
theorem test_fsqrt_minus_zero :
    work (.fsqrt hd0 (f2 .f64 .rne)) [(1, 0x80000000)] = some (0, 0x80000000, 0) := by decide

/-- R127. -/
theorem test_fmin_nan :
    work (.fmin hd0 (f3 .f32)) [(0, 0x7FC00000), (1, 0x40000000)] = some (0x40000000, 0x40000000, 0) := by decide

/-- R127. -/
theorem test_fmin_zeros :
    work (.fmin hd0 (f3 .f32)) [(0, 0x80000000)] = some (0x80000000, 0, 0) := by decide

/-- R127. -/
theorem test_frnd_rne :
    work (.frnd hd0 (f2 .f32 .rne)) [(0, 0xC0200000)] = some (0xC0000000, 0, 0) := by decide

/-- R127. -/
theorem test_frnd_rdn :
    work (.frnd hd0 (f2 .f32 .rdn)) [(0, 0xC0200000)] = some (0xC0400000, 0, 0) := by decide

/-- R127: an ordered comparison with a NaN is false and sets IV. -/
theorem test_fsetp_lt :
    workAll (.fsetp hd0 ⟨.f32, .lt, .p 1, .v 0, .v 1⟩) [(0, 0x7FC00000), (1, 0x3F800000)] 2 =
      some ([(0, 0x7FC00000), (1, 0x3F800000)], 0, 16) := by decide

/-- R127: `ne` with a quiet NaN is true and sets nothing. -/
theorem test_fsetp_ne :
    workAll (.fsetp hd0 ⟨.f32, .ne, .p 1, .v 0, .v 1⟩) [(0, 0x7FC00000), (1, 0x3F800000)] 0 =
      some ([(0, 0x7FC00000), (1, 0x3F800000)], 2, 0) := by decide

/-- R127. -/
theorem test_fexpo_subnormal :
    work (.fexpo hd0 (f2 .f32 .rne)) [(0, 1)] = some (0xFFFFFF6B, 0, 0) := by decide

/-- R127: UF and NX. -/
theorem test_fexp2_tie :
    work (.fexp2 hd0 (f2 .f32 .rne)) [(0, 0xC3160000)] = some (0, 0, 3) := by decide

/-- R127: 1 + 2^-30 squared. -/
theorem test_f2prod :
    workAll (.f2prod hd0 ⟨.f64, .rne, false, .v 0, .v 4, .v 4, .v 2⟩) [(4, 0x00400000), (5, 0x3FF00000)] 0 =
      some ([(0, 0x00800000), (1, 0x3FF00000), (3, 0x3C300000), (4, 0x00400000), (5, 0x3FF00000)], 0, 1) := by decide

/-- R127: the first addition of the compensated sum. -/
theorem test_f2sum :
    workAll (.f2sum hd0 ⟨.f32, .rne, false, .v 0, .v 0, .fc 1, .v 2⟩) [(0, 0x4B800000)] 0 =
      some ([(0, 0x4B800000), (2, 0x3F800000)], 0, 1) := by decide

/-- R127: the last line of the compensated sum. -/
theorem test_fpfma :
    workAll (.fpfma hd0 ⟨.f32, .rne, false, .v 4, .v 1, .fc 1, .v 4⟩) [(1, 0x40400000), (5, 0x41700000)] 0 =
      some ([(1, 0x40400000), (4, 0x30000000), (5, 0x41700000)], 0, 0) := by decide

abbrev dot (rm : Rm) : Instr := .fdot2 hd0 ⟨.f16, rm, false, .v 0, .v 1, .v 2, .v 3⟩

/-- R115, R126: a quiet NaN; an infinity times zero; infinities of opposite signs. -/
theorem test_fdot2_nan : work (dot .rne) [(1, 0x7E00)] = some (0x7FC00000, 0x7E00, 0) := by decide
theorem test_fdot2_invalid : work (dot .rne) [(1, 0x7C000000)] = some (0x7FC00000, 0x7C000000, 16) ∧
    work (dot .rne) [(1, 0x3C00), (2, 0x7C00), (3, 0xFF800000)] = some (0x7FC00000, 0x3C00, 16) := by decide

/-- R117, R126: an exact sum of zero from zeros of both signs. -/
theorem test_fdot2_zero : work (dot .rne) [(3, 0x80000000)] = some (0, 0, 0) ∧ work (dot .rdn) [(3, 0x80000000)] = some (0x80000000, 0, 0) := by
  decide

/-- R129: 1000.0 toward zero, IV and NX. -/
theorem test_cvt_f8_overflow :
    work (.cvt hd0 (c2 .f8e4 (.ty .f32) .rtz false)) [(0, 0x447A0000)] = some (0x80, 0, 17) := by decide

/-- R129: -0.7, IV. -/
theorem test_cvt_out_of_range :
    work (.cvt hd0 (c2 (.ty .n32) (.ty .f32) .rne false)) [(0, 0xBF333333)] = some (0, 0, 16) := by decide

/-- R131. -/
theorem test_qnt_nearest :
    work (.qnt hd0 (.v 0) (.v 0) (.v 1)) [(0, 0x3E99999A), (1, 0x3F800000)] = some (11, 0x3F800000, 0) := by decide

/-- R131. -/
theorem test_qnt_tie :
    work (.qnt hd0 (.v 0) (.v 0) (.v 1)) [(1, 0x3F800000)] = some (8, 0x3F800000, 0) := by decide

/-- The accumulator w0 that `i` leaves, from an accumulator and vector registers. -/
def workW (i : Instr) (w : Wide) (r : AMap Word) : Option Wide :=
  (lane0 i (withFibre fun f => { f with w0 := w, v := r })).map (·.w0)

/-- R48, step 1: 2^-300 times itself falls below the window. -/
theorem test_wmul2_loss :
    workW (.wmul2 hd0 ⟨.f64, false, 0, .v 0, .v 0⟩) Wide.zero [(1, 0x2D300000)] = some ⟨0, true, false, false⟩ := by decide

/-- R48, step 2: its negation moves down. -/
theorem test_wmul2_floor :
    workW (.wmul2 hd0 ⟨.f64, true, 0, .v 0, .v 0⟩) ⟨0, true, false, false⟩ [(1, 0x2D300000)] = some ⟨-1, true, false, false⟩ := by decide

/-- R48, step 3: 3 × 2^-512. -/
theorem test_wadd_small :
    workW (.wadd hd0 .f64 0 (.v 0)) ⟨-1, true, false, false⟩ [(1, 0x20080000)] = some ⟨2, true, false, false⟩ := by decide

/-- R48, step 5: 2^510 wraps. -/
theorem test_wadd_wraps :
    workW (.wadd hd0 .f64 0 (.v 0)) ⟨2 ^ 1022 + 2, true, false, false⟩ [(1, 0x5FD00000)] = some ⟨2 ^ 1023 + 2, true, true, false⟩ := by decide

/-! ### R207: a gang of width 8, whose fibres 3 and 6 stand elsewhere and whose fibre 2 has p1 = 0 -/

def sample8 : List Word := [5, 3, 9, 8, 3, 1, 2, 3]
def g8 : Gang :=
  { g0 with fibres := sample8.mapIdx fun l x =>
      { Fibre.start 0x8000 0 0 0 15 with
        v := [(1, x)], p := (if l = 2 then 0 else 2) + (if 2 < x then 4 else 0) } }
def hp1 : Hd := ⟨1, false, false, 0, .none⟩
/-- What `i` leaves, by `get`, in lanes 0, 1, 4, 5 and 7, when the group is all lanes but 3 and 6. -/
def coll8 {β : Type} (i : Instr) (get : Fibre → β) : List (Option β) :=
  match exec i { placedG i g8 with cur := ⟨1, 0xB7, 0x8000⟩ } with
  | .next t => [0, 1, 4, 5, 7].map fun l => ((look 1 t.gangs).bind (fibreAt · l)).map get
  | _ => []

/-- R207. -/
theorem test_ballot :
    (match exec (.voteBallot hp1 (.s 4) (.p 2)) { placedG (.nop hd0) g8 with cur := ⟨1, 0xB7, 0x8000⟩ } with
      | .next t => (look 1 t.gangs).map fun g => find 0 4 g.s
      | _ => none) = some 0x93 := by decide

/-- R207. -/
theorem test_gscan :
    coll8 (.gscan hp1 ⟨.i32, .add, .rne, false, .v 2, .v 1⟩ false) (fun f => find 0 2 f.v) = [some 5, some 8, some 11, some 12, some 15] := by decide

/-- R207. -/
theorem test_gscan_excl :
    coll8 (.gscan hp1 ⟨.i32, .add, .rne, false, .v 3, .v 1⟩ true) (fun f => find 0 3 f.v) = [some 0, some 5, some 8, some 11, some 12] := by decide

/-- R207. -/
theorem test_gred_max :
    coll8 (.gred hp1 ⟨.i32, .max, .rne, false, .v 8, .v 1⟩) (fun f => find 0 8 f.v) = [some 5, some 5, some 5, some 5, some 5] := by decide

/-- R207. -/
theorem test_match_any :
    coll8 (.matchAny hp1 false (.v 10) (.v 1)) (fun f => find 0 10 f.v) = [some 1, some 0x92, some 0x92, some 0x20, some 0x92] := by decide

/-- R207. -/
theorem test_shfl_down :
    coll8 (.shfl hp1 false .down (.v 12) (.v 1) (.ic 33) (.p 3)) (fun f => (find 0 12 f.v, f.p.getLsbD 3)) =
      [some (3, true), some (3, false), some (1, true), some (1, false), some (3, false)] := by decide

/-! ## Ill-formed instructions, one for each check -/

abbrev imm0 : Hd := ⟨7, false, false, 0, .imm32 5⟩
abbrev fl3 (t : Ty) (rm : Rm) (pk : Bool) : Fl3 := ⟨t, rm, pk, .v 0, .v 0, .v 1⟩
abbrev fl4 (t : Ty) (rm : Rm) (pk : Bool) : Fl4 := ⟨t, rm, pk, .v 0, .v 0, .v 1, .v 2⟩
abbrev mem0 : Mem := ⟨.n32, .fib, .weak, .glob, false, .v 2, .v 4, .ic 32⟩
abbrev atom0 : Atom := ⟨.n32, .fib, .weak, .glob, .add, .v 2, .v 4, .v 6, .ic 32⟩
abbrev tile0 : TileMem := ⟨.f32, false, 0, .s 3, .ic 32, 0, 0⟩

/-- The terms that these tests spoil are well formed. -/
theorem test_legal_base : [Instr.add hd0 (i3 .i32 true), .fadd hd0 (fl3 .f16 .rup true), .ffma hd0 (fl4 .f32 .rdn false), .ld hd0 mem0,
    .st hd0 mem0, .atom hd0 { atom0 with c := .ic 32 }, .mst hd0 tile0].all legal = true := by decide

/-- The device's own steps have no words. -/
theorem test_illegal_event : (legal (.launchAcceptance 0) || legal (.regdeadlockDetect 0)) = false := by decide

/-- R55, R86: a type, saturation or field that an integer entry does not list. -/
theorem test_illegal_integer : [Instr.add hd0 (i3 .b32 false), .add hd0 (i3 .f32 false), .mulhi hd0 (i3 .i32 true), .and hd0 (i3 .f32 false),
    .shr hd0 (i3 .i32 true), .not hd0 ⟨.i32, true, .v 0, .v 0⟩, .bfe hd0 ⟨.i8, .v 0, .v 0, .ic 32, 9⟩, .bfi hd0 ⟨.i8, .v 0, .v 0, .ic 32, 0⟩,
    .setp hd0 ⟨.b32, .lt, .p 1, .v 0, .v 1⟩, .setp hd0 ⟨.i32, .un, .p 1, .v 0, .v 1⟩, .addc hd0 ⟨.i32, false, .v 0, .v 0, .v 1, .p 1⟩,
    .lea hd0 ⟨.n64, false, .v 0, .v 2, .v 4⟩ 5, .lea hd0 ⟨.n32, false, .v 0, .v 2, .v 4⟩ 0].any legal = false := by decide

/-- R112 to R126: the same of floating entries, conversions and draws. -/
theorem test_illegal_floating : [Instr.fadd hd0 (fl3 .i32 .rne false), .fadd hd0 (fl3 .f32 .rne true), .fmin hd0 (fl3 .f32 .rup false),
    .fdiv hd0 (fl3 .f16 .rne true), .fsetp hd0 ⟨.n32, .lt, .p 1, .v 0, .v 1⟩, .fclass hd0 (f2 .f32 .rup), .f2sum hd0 (fl4 .f16 .rne false),
    .fdot2 hd0 (fl4 .f32 .rne false), .fpfma hd0 (fl4 .f64 .rne false), .cvt hd0 (c2 (.ty .b32) (.ty .f32) .rne false),
    .cvt hd0 (c2 (.ty .i32) (.ty .i64) .rup false), .pack hd0 (fl3 .f32 .rne false), .unpk hd0 false (f2 .f16 .rup), .fexp2 hd0 (f2 .f64 .rne),
    .qntIns hd0 (.v 0) (.v 1) (.v 2) 8, .rand hd0 .i32 (.v 0), .wadd hd0 .i8 0 (.v 0), .wmul2 hd0 ⟨.f16, false, 0, .v 0, .v 0⟩].any legal =
    false := by decide

/-- R100: system registers that do not exist, or that cannot be written. -/
theorem test_illegal_system : [Instr.getsr hd0 false (.v 0) 0x17, .setsr hd0 false (.v 0) 0x00, .br hd0 2, .callLabel hd0 (.s 1) 6,
    .spawnLabel hd0 ⟨0, .none, .p 7, .ic 32, .s 2⟩ 1].any legal = false := by decide

/-- R57, R105, R291, R294, R298: scopes, strengths, spaces and types of memory instructions. -/
theorem test_illegal_memory : [Instr.ld hd0 { mem0 with scope := .dev }, .ld hd0 { mem0 with two := true },
    .atom hd0 { atom0 with t := .i8, c := .ic 32 }, .atom hd0 { atom0 with space := .priv, c := .ic 32 }, .atom hd0 { atom0 with op := .and, t := .f32, c := .ic 32 },
    .cas hd0 { atom0 with op := .min }, .red hd0 ⟨.n32, .dev, false, .add, .v 2, .v 4, .ic 32⟩, .red hd0 ⟨.n32, .fib, false, .exch, .v 2, .v 4, .ic 32⟩,
    .ldesc hd0 ⟨.priv, .v 2, .v 4, .ic 32⟩, .signal hd0 .crew (.v 2) (.v 4)].any legal = false := by decide

/-- R205, R208 to R214, R337, R348: operations, chunks, kinds, roles, phases and tiles. -/
theorem test_illegal_parallel : [Instr.gred hd0 ⟨.f32, .and, .rne, false, .v 2, .v 1⟩, .gred hd0 ⟨.i32, .exch, .rne, false, .v 2, .v 1⟩,
    .gscan hd0 ⟨.i32, .min, .rne, true, .v 2, .v 1⟩ false, .crs hd0 ⟨.i32, .add, .rup, false, .s 2, .s 4⟩ (.s 6), .racq hd0 0, .rrel hd0 3, .defer hd0 0,
    .bnd hd0 (.v 2) 16, .orbitImg hd0 (.v 2) 48, .role hd0 3, .stgw hd0 (.s 1) (.ic 32) 2, .mma hd0 ⟨false, 0, 62, .s 4, .s 5, .s 6⟩,
    .mst hd0 { tile0 with t := .i32 }, .mst hd0 { tile0 with f := 5, n1 := 1 }, .mst hd0 { tile0 with tile := 6 }, .mcont hd0 7].any legal = false := by decide

/-- R10, R59, R64: operands of a kind that the place does not accept, or on an unaligned register. -/
theorem test_illegal_operands : [Instr.add hd0 { i3 .i32 false with d := .ic 32 }, .add hd0 { i3 .i32 false with a := .fc 0 },
    .add hd0 { i3 .i64 false with b := .v 3 }, .add hd0 { i3 .i32 false with b := .t 0 }, .ld hd0 { mem0 with a := .v 3 },
    .ld hd0 { mem0 with t := .n64, two := true, d := .v 2 }, .plog hd0 .and (.v 0) (.p 1) (.p 2), .voteAll hd0 (.p 1) (.v 0),
    .copyG2s hd0 false (.v 0) (.s 2) (.s 4) (.s 6), .sleep hd0 (.v 0)].any legal = false := by decide

/-- R58, R62, R80: an immediate that nothing reads, an operand that reads an immediate which is not there, a fixed length. -/
theorem test_illegal_immediates : [Instr.add imm0 (i3 .i32 false), .add hd0 { i3 .i32 false with a := .imm }, .tret imm0, .brk imm0,
    .add ⟨7, false, false, 0, .ext64 5 1⟩ { i3 .i32 false with a := .imm }].any legal = false := by decide

/-! ## Words written out from the spec's encodings -/

/-- Control (R95, R97) and the mnemonics of fixed length (R80). -/
theorem test_word_br : decodeWords [0x000000F1, 0x00000000, 0xFFFFFFE0] = .ok (.br hd0 0xFFFFFFE0) := rfl
theorem test_word_tret : decodeWords [0x000003F0, 0] = .ok (.tret hd0) := rfl
/-- R67: the integer, float, conversion and wide blocks. -/
theorem test_word_add : decodeWords [0x01800870, 0x00000502] = .ok (.add hd0 ⟨.i32, false, .v 6, .v 4, .v 5⟩) := rfl
theorem test_word_fmul : decodeWords [0x82101939, 0x3001FF04, 0x3FC00000] =
    .ok (.fmul ⟨3, true, false, 0, .imm32 0x3FC00000⟩ ⟨.f32, .rup, false, .v 8, .v 9, .imm⟩) := rfl
theorem test_word_cvt : decodeWords [0x0040A470, 0x80080001] = .ok (.cvt hd0 ⟨.f8e4, .ty .f32, .rne, true, .v 1, .v 2⟩) := rfl
theorem test_word_wmul2 : decodeWords [0x5214A9F0, 0x00000A00] = .ok (.wmul2 hd0 ⟨.f64, true, 0, .v 0, .v 10⟩) := rfl
/-- Memory, parallel and launch. -/
theorem test_word_ld : decodeWords [0x0106B070, 0x2001B081] = .ok (.ld hd0 ⟨.n32, .dev, .sync, .glob, false, .v 4, .s 2, .ic 48⟩) := rfl
theorem test_word_bar : decodeWords [0x800038F0, 0x0001B0D1] = .ok (.barSync hd0 (.ic 35) (.ic 48)) := rfl
theorem test_word_orbit : decodeWords [0x0180C170, 0x00000000] = .ok (.orbitStab hd0 (.v 6)) := rfl
/-- The engines, the collectives and the debug block. -/
theorem test_word_copy : decodeWords [0x42804871, 0x43FF0282, 0x00001000] =
    .ok (.copyG2s ⟨7, false, false, 0, .imm32 0x1000⟩ true (.s 10) (.s 4) (.s 2) .imm) := rfl
theorem test_word_mopf : decodeWords [0x00004C70, 0] = .ok (.mopf hd0) := rfl
theorem test_word_mma : decodeWords [0x00004CF2, 0x020D0582, 0x00000000, 0x0000008A] = .ok (.mma hd0 ⟨true, 2, 8, .s 4, .s 5, .s 6⟩) := rfl
/-- R62, R63: K of an `mma` in the immediate word. -/
theorem test_word_mma_imm : decodeWords [0x00004CF2, 0x03FF0582, 128, 0x0000008A] =
    .ok (.mma ⟨7, false, false, 0, .imm32 128⟩ ⟨true, 2, 8, .s 4, .s 5, .imm⟩) := by rfl
theorem test_word_crs : decodeWords [0x42905170, 0x00010582] = .ok (.crs hd0 ⟨.f32, .add, .rne, false, .s 10, .s 4⟩ (.s 5)) := rfl
theorem test_word_ckpt : decodeWords [0xD1C05474, 0x000000D1] = .ok (.ckpt ⟨7, false, true, 0, .none⟩ (.p 7) (.ic 35)) := rfl

/-- R51, R68: what is no instruction, each by its name. -/
theorem test_rejects : decodeWords [3, 0] = .error .fill ∧ decodeWords [0x73, 0] = .error .badLen ∧ decodeWords [0x01800870] = .error .short ∧
    decodeWords [0x00005870, 0] = .error .illegal ∧ decodeWords [0x01B80870, 0x00000502] = .error .illegal ∧
    decodeWords [0x01800870, 0x00020502] = .error .illegal ∧ decodeWords [0x01800870, 0x0001C102] = .error .illegal := by decide

end Sys2Proof.Tests
end

section
/-! Proof of O15: an issue whose body works on registers alone completes, and the register forms have such bodies. -/

namespace Sys2Proof.Machine

/-! ## Completion of the register forms -/

/-- R6, R14: the instruction completes: the acting fibres go on past it, nothing traps, and the rest is as it was. -/
def Completes (i : Instr) (h : Hd) (s : State) (g : Gang) : Prop :=
  ∃ (t : State) (g' : Gang), exec i s = .next t ∧
    look s.cur.gang t.gangs = some g' ∧ SameBut s.cur.gang s t ∧ g'.pend = [] ∧ g'.frames.length = g.frames.length ∧
    ∀ (l : Nat) (f : Fibre), fibreAt g l = some f → ∃ f', fibreAt g' l = some f' ∧
      (laneIn (acting h s g) l = true → f'.pc = s.cur.pc + BitVec.ofNat 48 (lenBytes i) ∧ f'.life = f.life ∧ f'.wait = f.wait ∧
        f'.gwait = f.gwait ∧ f'.fid = f.fid) ∧
      (laneIn (acting h s g) l = false → f' = if laneIn s.cur.group l = true then past i s g f else f)

/-- A fibre that neither leaves its place nor begins or ends to wait. -/
structure SameCourse (f f' : Fibre) : Prop where
  pc : f'.pc = f.pc
  life : f'.life = f.life
  wait : f'.wait = f.wait
  gwait : f'.gwait = f.gwait
  fid : f'.fid = f.fid

/-- A gang whose fibres of a mask keep their course, the others being untouched, with no new fault and as many frames. -/
structure KeepsCourse (m : BitVec 64) (g g' : Gang) : Prop where
  pend : g'.pend = g.pend
  ctx : g'.ctx = g.ctx
  frames : g'.frames.length = g.frames.length
  fibres : ∀ l f, fibreAt g l = some f → ∃ f', fibreAt g' l = some f' ∧
    (laneIn m l = true → SameCourse f f') ∧ (laneIn m l = false → f' = f)

theorem SameCourse.refl (f : Fibre) : SameCourse f f := ⟨rfl, rfl, rfl, rfl, rfl⟩

theorem SameCourse.trans {f f' f'' : Fibre} (h : SameCourse f f') (h' : SameCourse f' f'') : SameCourse f f'' :=
  ⟨h'.pc.trans h.pc, h'.life.trans h.life, h'.wait.trans h.wait, h'.gwait.trans h.gwait, h'.fid.trans h.fid⟩

theorem KeepsCourse.trans {m : BitVec 64} {g g' g'' : Gang} (h : KeepsCourse m g g') (h' : KeepsCourse m g' g'') :
    KeepsCourse m g g'' := by
  refine ⟨h'.pend.trans h.pend, h'.ctx.trans h.ctx, h'.frames.trans h.frames, fun l f hf => ?_⟩
  obtain ⟨f1, hf1, ha1, hr1⟩ := h.fibres l f hf
  obtain ⟨f2, hf2, ha2, hr2⟩ := h'.fibres l f1 hf1
  exact ⟨f2, hf2, fun ha => (ha1 ha).trans (ha2 ha), fun hr => (hr2 hr).trans (hr1 hr)⟩

/-- A gang with the fibres that it had keeps their course. -/
theorem KeepsCourse.of_fibres {m : BitVec 64} {g g' : Gang} (hp : g'.pend = g.pend) (hc : g'.ctx = g.ctx)
    (hr : g'.frames.length = g.frames.length) (hf : g'.fibres = g.fibres) : KeepsCourse m g g' :=
  ⟨hp, hc, hr, fun l f h => ⟨f, by rw [fibreAt, hf]; exact h, fun _ => .refl f, fun _ => rfl⟩⟩

theorem KeepsCourse.refl (m : BitVec 64) (g : Gang) : KeepsCourse m g g := .of_fibres rfl rfl rfl rfl

/-- R14: only fibres of the issuing group act. -/
theorem laneIn_group_of_acting {h : Hd} {s : State} {g : Gang} {l : Nat} (ha : laneIn (acting h s g) l = true) :
    laneIn s.cur.group l = true := by
  simp only [acting, activeOf, laneIn, BitVec.getLsbD_and, Bool.and_eq_true] at ha
  exact ha.1

/-- R156: the accounts move each fibre of the group past the instruction. -/
theorem fibreAt_issued {i : Instr} {h : Hd} {s : State} {g : Gang} {l : Nat} {f : Fibre} (hf : fibreAt g l = some f) :
    fibreAt (issued i h s g) l = some (if laneIn s.cur.group l = true then past i s g f else f) := by
  have hfib : (issued i h s g).fibres = _ := congrArg Gang.fibres (issued_eq i h s g)
  have hl : g.fibres[l]? = some f := hf
  rw [fibreAt, hfib, List.getElem?_mapIdx, hl]
  rfl

/-- What the body of an issue is given. -/
abbrev bodyIss (i : Instr) (h : Hd) (s : State) (g : Gang) : Iss :=
  ⟨s.cur.gang, issued i h s g, h, s.cur.group, acting h s g, s.cur.pc⟩

/-- The state in which the body of an issue runs: the accounts of the gang and the counters have moved. -/
abbrev bodyState (i : Instr) (h : Hd) (s : State) (g : Gang) : State :=
  perfCount g.core g.ctx 3 (lanesOf (acting h s g)).length
    (perfCount g.core g.ctx 2 1 (updGang s.cur.gang (fun _ => issued i h s g) s))

theorem bodyState_sameBut (i : Instr) (h : Hd) (s : State) (g : Gang) : SameBut s.cur.gang s (bodyState i h s g) :=
  ((updGang_sameBut _ _ _).trans (perfCount_sameBut _ _ _ _ _ _)).trans (perfCount_sameBut _ _ _ _ _ _)

theorem look_bodyState (i : Instr) (h : Hd) {s : State} {g : Gang} (hg : look s.cur.gang s.gangs = some g) :
    look s.cur.gang (bodyState i h s g).gangs = some (issued i h s g) := by
  rw [bodyState, perfCount_gangs, perfCount_gangs, updGang_gangs, look_adj_same, hg]
  rfl

/-- From s to t the body of an issue has changed its own gang alone, whose fibres keep their course, and event counters. -/
def QuietBody (x : Iss) (s t : State) : Prop :=
  ∃ g', look x.k t.gangs = some g' ∧ SameBut x.k s t ∧ KeepsCourse x.act x.g g'

/-- An instruction that may issue, and whose body works on its own gang's registers alone, completes. -/
theorem issue_completes {i : Instr} {h : Hd} {c : CtrKind} {body : Iss → State → State} {s : State} {g : Gang}
    (hc : CanIssue i c s g) (hh : hdOf i = some h) (hx : exec i s = issue i h c noGate body s)
    (hb : look s.cur.gang (bodyState i h s g).gangs = some (issued i h s g) →
      QuietBody (bodyIss i h s g) (bodyState i h s g) (body (bodyIss i h s g) (bodyState i h s g))) : Completes i h s g := by
  obtain ⟨g2, hl2, hsame2, hk⟩ := hb (look_bodyState i h hc.gang)
  have hgo := issue_goes (gate := noGate) (body := body) hc hh rfl
  dsimp only at hgo hl2 hsame2
  generalize body _ _ = s2 at hgo hl2 hsame2
  have hn := issued_eq i h s g
  change KeepsCourse (acting h s g) (issued i h s g) g2 at hk
  have hpend : g2.pend = [] := by rw [hk.pend, hn]; exact hc.noFault
  have hsame := (bodyState_sameBut i h s g).trans hsame2
  have hbreak : NoBreaks s2 g2 := by
    intro cx hcx
    rw [hk.ctx, hn, hsame.rest] at hcx
    exact hc.noBreak cx hcx
  obtain ⟨t, g', ht, hl, hst, hg'⟩ := finish_eq (i := i) (h := h) (group := s.cur.group) (act := acting h s g) hl2 hpend hbreak
  refine ⟨t, g', by rw [hx, hgo, ht], hl, hsame.trans hst, by rw [hg']; exact hpend, by rw [hg', hk.frames, hn], ?_⟩
  intro l f hf
  obtain ⟨f', hf', hact, hrest⟩ := hk.fibres l _ (fibreAt_issued hf)
  refine ⟨f', by rw [hg']; exact hf', fun ha => ?_, hrest⟩
  have hcourse := hact ha
  rw [if_pos (laneIn_group_of_acting ha)] at hcourse
  exact ⟨hcourse.pc, hcourse.life, hcourse.wait, hcourse.gwait, hcourse.fid⟩

/-! ## Bodies that keep the course -/

/-- A fibre's part of an instruction that does not fault and keeps its course. -/
structure Lane.Steady (f : Fibre) (r : Lane) : Prop where
  fault : r.fault = none
  course : SameCourse f r.f

theorem Lane.Steady.ok {f f' : Fibre} (h : SameCourse f f') : Lane.Steady f (.ok f') := ⟨rfl, h⟩

theorem sameCourse_setV (n : Nat) (x : Word) (f : Fibre) : SameCourse f (setV n x f) := by
  unfold setV; split_ifs <;> exact ⟨rfl, rfl, rfl, rfl, rfl⟩

theorem sameCourse_setP (k : Nat) (b : Bool) (f : Fibre) : SameCourse f (setP k b f) := by
  unfold setP; split_ifs <;> exact ⟨rfl, rfl, rfl, rfl, rfl⟩

theorem sameCourse_setWide (n : Fin 2) (x : Wide) (f : Fibre) : SameCourse f (setWide n x f) := by
  unfold setWide; split_ifs <;> exact ⟨rfl, rfl, rfl, rfl, rfl⟩

/-- R10 to R12: a result in a register keeps the fibre's course. -/
theorem Lane.Steady.wr {f : Fibre} {r : Lane} (h : Lane.Steady f r) (bits : Nat) (d : Opnd) (x : Dword) :
    Lane.Steady f (wr bits d x r) := by
  refine ⟨(wr_fault bits d x r).trans h.fault, h.course.trans ?_⟩
  cases d with
  | v n =>
    simp only [Machine.wr]
    split
    · exact (sameCourse_setV _ _ _).trans (sameCourse_setV _ _ _)
    · exact sameCourse_setV _ _ _
  | p k => exact sameCourse_setP _ _ _
  | _ => exact .refl _

theorem Lane.Steady.wrTy {f : Fibre} {r : Lane} (h : Lane.Steady f r) (t : Ty) (d : Opnd) (x : Dword) :
    Lane.Steady f (wrTy t d x r) := h.wr _ d x

theorem Lane.Steady.wrP {f : Fibre} {r : Lane} (h : Lane.Steady f r) (d : Opnd) (b : Bool) :
    Lane.Steady f (wrP d b r) := h.wr _ d _

/-- R19: flags raised keep the fibre's course. -/
theorem Lane.Steady.wrFl {f : Fibre} {r : Lane} (h : Lane.Steady f r) (fl : Flags) : Lane.Steady f (wrFl fl r) :=
  ⟨h.fault, h.course.trans ⟨rfl, rfl, rfl, rfl, rfl⟩⟩

theorem Lane.Steady.refl (f : Fibre) : Lane.Steady f (.ok f) := .ok (.refl f)

/-- Lanes that are steady make a quiet body. -/
theorem perLane_quiet {x : Iss} {fn : Nat → Fibre → Lane} {s : State} (hg : look x.k s.gangs = some x.g)
    (hfn : ∀ l f, Lane.Steady f (fn l f)) : QuietBody x s (perLane x fn s) := by
  have hlanes := lanesGo_ok (pc := x.pc) (g := x.g) (nodup_lanesOf x.act) fun l _ f _ => (hfn l f).fault
  refine ⟨lanesGo x.pc fn (lanesOf x.act) x.g, by rw [perLane, updGang_gangs, look_adj_same, hg]; rfl,
    updGang_sameBut _ _ _, by rw [hlanes], by rw [hlanes], by rw [hlanes], fun l f hf => ?_⟩
  have hl : x.g.fibres[l]? = some f := hf
  rw [hlanes]
  refine ⟨if laneIn x.act l = true then (fn l f).f else f, by simp [fibreAt, hl, mem_lanesOf], fun ha => ?_, fun ha => ?_⟩
  · rw [if_pos ha]; exact (hfn l f).course
  · rw [if_neg (by simp [ha])]

/-- A change of the gang beside its fibres makes a quiet body. -/
theorem updGang_quiet {x : Iss} {fn : Gang → Gang} {s : State} (hg : look x.k s.gangs = some x.g)
    (hfn : KeepsCourse x.act x.g (fn x.g)) : QuietBody x s (updGang x.k fn s) :=
  ⟨fn x.g, by rw [updGang_gangs, look_adj_same, hg]; rfl, updGang_sameBut _ _ _, hfn⟩

theorem quietBody_refl {x : Iss} {s : State} (hg : look x.k s.gangs = some x.g) : QuietBody x s s :=
  ⟨x.g, hg, ⟨rfl, fun _ _ => rfl, fun _ => rfl⟩, .refl _ _⟩

/-- An instruction on registers whose lanes are steady completes. -/
theorem regOp_completes {i : Instr} {h : Hd} {s : State} {g : Gang} {fn : Gang → Fibre → Lane} (hc : CanIssue i .none s g)
    (hh : hdOf i = some h) (hx : exec i s = regOp i h fn s) (hfn : ∀ g f, Lane.Steady f (fn g f)) : Completes i h s g :=
  issue_completes hc hh hx fun hl => perLane_quiet hl fun _ f => hfn _ f

/-! ## The lanes of the forms -/

theorem flt2_steady (h : Hd) (o : Fl2) (op : Dword → Dword × Flags) (g : Gang) (f : Fibre) : Lane.Steady f (flt2 h o op g f) :=
  ((Lane.Steady.refl f).wrTy _ _ _).wrFl _

theorem flt3_steady (h : Hd) (o : Fl3) (op : Dword → Dword → Dword × Flags) (g : Gang) (f : Fibre) :
    Lane.Steady f (flt3 h o op g f) :=
  ((Lane.Steady.refl f).wrTy _ _ _).wrFl _

theorem errFree_steady (h : Hd) (o : Fl4) (op : Dword → Dword → Dword × Dword × Flags) (g : Gang) (f : Fibre) :
    Lane.Steady f (errFree h o op g f) :=
  (((Lane.Steady.refl f).wrTy _ _ _).wrTy _ _ _).wrFl _

theorem wideUpd_steady (d : Fin 2) (fn : Wide → Wide) (f : Fibre) : Lane.Steady f (wideUpd d fn f) :=
  .ok (sameCourse_setWide _ _ _)

/-- R133: a draw advances the counter alone. -/
theorem sameCourse_randVal (t : Ty) (f : Fibre) : SameCourse f (randVal t f).2 := by
  unfold randVal
  cases t <;> exact ⟨rfl, rfl, rfl, rfl, rfl⟩

/-! ## System registers -/

/-- R447: a launch with no replay log has nothing logged. -/
theorem logAppend_of_noReplay {s : State} {g : Gang} (hn : NoReplay s g) (va : Dword) (kind lane : Nat) (payload : List Byte) :
    logAppend g va kind lane payload s = s := by
  unfold logAppend
  cases look g.ctx s.ctxs with
  | none => rfl
  | some c =>
    cases hl : gangLaunch s g with
    | none => rfl
    | some l => simp [hn l hl]

theorem logValue_of_noReplay {k : Nat} {s : State} {g : Gang} (hg : look k s.gangs = some g) (hn : NoReplay s g)
    (lane : Nat) (v : Dword) : logValue k lane v s = s := by
  rw [logValue, hg]
  exact logAppend_of_noReplay hn ..

/-- R447: where the read is one that is logged, the launch has no replay log: nothing is logged. -/
theorem logGetsr_of_noReplay {x : Iss} {idx : Nat} {s : State} (hg : look x.k s.gangs = some x.g)
    (hn : idx = 0 ∨ 0x30 ≤ idx → NoReplay s x.g) (v : Dword) : logGetsr x idx v s = s := by
  unfold logGetsr
  split_ifs with hi
  · exact List.foldlRecOn (motive := (· = s)) _ _ rfl fun b hb a _ => by rw [hb]; exact logValue_of_noReplay hg (hn hi) a v
  · rfl

/-- R182: the accounts of an issue leave the gang in its launch. -/
theorem noReplay_issued {i : Instr} {h : Hd} {s : State} {g : Gang} (hn : NoReplay s g) :
    NoReplay (bodyState i h s g) (issued i h s g) := by
  intro l hl
  refine hn l ?_
  rw [gangLaunch, launchOf, (bodyState_sameBut i h s g).rest, issued_eq] at hl
  exact hl

theorem holdsPerf_issued (i : Instr) (h : Hd) (s : State) (g : Gang) : holdsPerf s (issued i h s g) = holdsPerf s g := by
  unfold holdsPerf
  rw [issued_eq]

/-- R100, R101, R441: the value at issue, a counter's by the context that holds it. -/
theorem getsr_completes {h : Hd} {w : Bool} {d : Opnd} {k : Fin 64} {s : State} {g : Gang} (hc : CanIssue (.getsr h w d k) .none s g)
    (hperf : 0x30 ≤ k.val → holdsPerf s g = true) (hlog : k.val = 0 ∨ 0x30 ≤ k.val → NoReplay s g) :
    Completes (.getsr h w d k) h s g := by
  refine issue_completes hc rfl (rfl : execGetsr h w d k s = _) fun hl => ?_
  have hn : k.val = 0 ∨ 0x30 ≤ k.val → NoReplay (bodyState (.getsr h w d k) h s g) (issued (.getsr h w d k) h s g) :=
    fun hk => noReplay_issued (hlog hk)
  have hl' := logGetsr_of_noReplay (x := bodyIss (.getsr h w d k) h s g) hl hn
  by_cases hk : 0x30 ≤ k.val
  · have hp : holdsPerf s (issued (.getsr h w d k) h s g) = true := by rw [holdsPerf_issued]; exact hperf hk
    dsimp only
    rw [if_pos hk, if_pos hp, hl']
    exact perLane_quiet hl fun _ f => (Lane.Steady.refl f).wr _ _ _
  · dsimp only
    rw [if_neg hk, hl']
    exact perLane_quiet hl fun _ f => (Lane.Steady.refl f).wr _ _ _

/-- R441: a change of a core's counters changes nothing else. -/
theorem updPerf_sameBut (k core : Nat) (fn : Perf → Perf) (s : State) :
    SameBut k s (updCore core (fun c => { c with perf := fn c.perf }) s) := by
  refine ⟨rfl, fun _ _ => rfl, fun c => ?_⟩
  by_cases h : c = core
  · subst h; simp [coreOf, updCore, look_ins_same]
  · simp [coreOf, updCore, look_ins_other h]

/-- R385: a write of TPC keeps the course of every fibre. -/
theorem keepsCourse_setTpc (m : BitVec 64) (i : Nat) (v : Dword) (g : Gang) : KeepsCourse m g (setTpc i v g) := by
  unfold setTpc
  dsimp only
  split
  · exact .refl m g
  · next hfr => exact .of_fibres rfl rfl (by simp [hfr]) rfl


/-- R385: writes of TPC, one after another, keep the course of every fibre. -/
theorem keepsCourse_setTpcs (m : BitVec 64) (g : Gang) (v : Fibre → Dword) (ls : List Nat) (g' : Gang) (h : KeepsCourse m g g') :
    KeepsCourse m g (ls.foldl (fun g' l => match fibreAt g l with | some f => setTpc l (v f) g' | none => g') g') :=
  List.foldlRecOn (motive := KeepsCourse m g) ls _ h fun g'' hg l _ => by
    cases fibreAt g l with
    | none => exact hg
    | some f => exact hg.trans (keepsCourse_setTpc m l (v f) g'')

/-- R100, R385: the four registers that plain `setsr` writes. -/
theorem setsr_completes {h : Hd} {w : Bool} {a : Opnd} {k : Fin 64} {s : State} {g : Gang}
    (hc : CanIssue (.setsr h w a k) .none s g) : Completes (.setsr h w a k) h s g := by
  refine issue_completes hc rfl (rfl : execSetsr h w a k s = _) fun hl => ?_
  dsimp only
  split
  · exact perLane_quiet hl fun _ f => .ok ⟨rfl, rfl, rfl, rfl, rfl⟩
  · exact perLane_quiet hl fun _ f => .ok ⟨rfl, rfl, rfl, rfl, rfl⟩
  · exact updGang_quiet hl (keepsCourse_setTpcs _ _ _ _ _ (.refl _ _))
  · split
    · exact updGang_quiet hl (.of_fibres rfl rfl rfl rfl)
    · exact quietBody_refl hl

/-- R439 to R441: a counter is the core's, and its write leaves the gang as it is. -/
theorem setsrPerf_completes {h : Hd} {w : Bool} {a : Opnd} {k : Fin 16} {s : State} {g : Gang}
    (hc : CanIssue (.setsrPerf h w a k) .none s g) (hperf : holdsPerf s g = true) : Completes (.setsrPerf h w a k) h s g := by
  refine issue_completes hc rfl (rfl : execSetsrPerf h w a k s = _) fun hl => ?_
  have hp : ¬(!holdsPerf s (issued (.setsrPerf h w a k) h s g)) = true := by rw [holdsPerf_issued, hperf]; decide
  dsimp only
  rw [if_neg hp]
  split
  · exact ⟨_, hl, updPerf_sameBut _ _ _ _, .refl _ _⟩
  · exact quietBody_refl hl
/-! ## The forms, block by block -/

/-- The form completes wherever it can issue. -/
def AlwaysCompletes (i : Instr) (h : Hd) : Prop := ∀ (s : State) (g : Gang), CanIssue i .none s g → Completes i h s g

/-- An instruction on registers, whose arm of `exec` is `run`, completes wherever it can issue when its lanes are steady. -/
theorem regOp_alwaysCompletes {i : Instr} {h : Hd} {fn : Gang → Fibre → Lane} (run : State → Outc) (hr : ∀ s, run s = regOp i h fn s)
    (hfn : ∀ g f, Lane.Steady f (fn g f)) (hh : hdOf i = some h := by rfl) (hx : ∀ s, exec i s = run s := by intro s; rfl) :
    AlwaysCompletes i h :=
  fun s _ hc => regOp_completes hc hh ((hx s).trans (hr s)) hfn

/-- R20: the write of KEY. -/
theorem setsrKey_completes (h : Hd) (w : Bool) (a : Opnd) : AlwaysCompletes (.setsrKey h w a) h :=
  regOp_alwaysCompletes (fn := fun g f => .ok { f with key := srSource g h w f a, ctr := 0 }) (execSetsrKey h w a) (fun _ => rfl)
    fun _ _ => .ok ⟨rfl, rfl, rfl, rfl, rfl⟩

/-- A result and its flags keep the fibre's course. -/
theorem flagged_steady (fl : Flags) (bits : Nat) (d : Opnd) (x : Dword) (f : Fibre) :
    Lane.Steady f (wrFl fl (wr bits d x (.ok f))) := ((Lane.Steady.refl f).wr _ _ _).wrFl _

theorem fl2Forms_complete (h : Hd) (o : Fl2) : AlwaysCompletes (.fsqrt h o) h ∧ AlwaysCompletes (.frcp h o) h ∧
    AlwaysCompletes (.frsq h o) h ∧ AlwaysCompletes (.fabs h o) h ∧ AlwaysCompletes (.fneg h o) h ∧ AlwaysCompletes (.fclass h o) h ∧
    AlwaysCompletes (.frnd h o) h ∧ AlwaysCompletes (.fexpo h o) h ∧ AlwaysCompletes (.fmant h o) h ∧
    AlwaysCompletes (.fexp2 h o) h ∧ AlwaysCompletes (.flog2 h o) h ∧ ∀ hi : Bool, AlwaysCompletes (.unpk h hi o) h :=
  ⟨regOp_alwaysCompletes (execFsqrt h o) (fun _ => rfl) (flt2_steady _ _ _),
    regOp_alwaysCompletes (execFrcp h o) (fun _ => rfl) (flt2_steady _ _ _),
    regOp_alwaysCompletes (execFrsq h o) (fun _ => rfl) (flt2_steady _ _ _),
    regOp_alwaysCompletes (execFabs h o) (fun _ => rfl) (flt2_steady _ _ _),
    regOp_alwaysCompletes (execFneg h o) (fun _ => rfl) (flt2_steady _ _ _),
    regOp_alwaysCompletes (execFclass h o) (fun _ => rfl) fun _ f => (Lane.Steady.refl f).wr _ _ _,
    regOp_alwaysCompletes (execFrnd h o) (fun _ => rfl) (flt2_steady _ _ _),
    regOp_alwaysCompletes (execFexpo h o) (fun _ => rfl) fun _ f => flagged_steady _ _ _ _ f,
    regOp_alwaysCompletes (execFmant h o) (fun _ => rfl) (flt2_steady _ _ _),
    regOp_alwaysCompletes (execFexp2 h o) (fun _ => rfl) (flt2_steady _ _ _),
    regOp_alwaysCompletes (execFlog2 h o) (fun _ => rfl) (flt2_steady _ _ _),
    fun hi => regOp_alwaysCompletes (execUnpk h hi o) (fun _ => rfl) fun _ f => flagged_steady _ _ _ _ f⟩

theorem fl3Forms_complete (h : Hd) (o : Fl3) : AlwaysCompletes (.fdiv h o) h ∧ AlwaysCompletes (.fmin h o) h ∧
    AlwaysCompletes (.fmax h o) h ∧ AlwaysCompletes (.fcpsgn h o) h ∧ AlwaysCompletes (.fscale h o) h ∧ AlwaysCompletes (.pack h o) h :=
  ⟨regOp_alwaysCompletes (execFdiv h o) (fun _ => rfl) (flt3_steady _ _ _),
    regOp_alwaysCompletes (execFmin h o) (fun _ => rfl) (flt3_steady _ _ _),
    regOp_alwaysCompletes (execFmax h o) (fun _ => rfl) (flt3_steady _ _ _),
    regOp_alwaysCompletes (execFcpsgn h o) (fun _ => rfl) (flt3_steady _ _ _),
    regOp_alwaysCompletes (execFscale h o) (fun _ => rfl) fun _ f => flagged_steady _ _ _ _ f,
    regOp_alwaysCompletes (execPack h o) (fun _ => rfl) fun _ f => flagged_steady _ _ _ _ f⟩

theorem fl4Forms_complete (h : Hd) (o : Fl4) : AlwaysCompletes (.f2sum h o) h ∧ AlwaysCompletes (.f2prod h o) h ∧
    AlwaysCompletes (.fdot2 h o) h ∧ AlwaysCompletes (.fpfma h o) h :=
  ⟨regOp_alwaysCompletes (execF2sum h o) (fun _ => rfl) (errFree_steady _ _ _),
    regOp_alwaysCompletes (execF2prod h o) (fun _ => rfl) (errFree_steady _ _ _),
    regOp_alwaysCompletes (execFdot2 h o) (fun _ => rfl) fun _ f => flagged_steady _ _ _ _ f,
    regOp_alwaysCompletes (execFpfma h o) (fun _ => rfl) fun _ f => flagged_steady _ _ _ _ f⟩

theorem fsetp_completes (h : Hd) (o : CmpOps) : AlwaysCompletes (.fsetp h o) h :=
  regOp_alwaysCompletes (execFsetp h o) (fun _ => rfl) fun _ f => flagged_steady _ _ _ _ f

theorem cvt_completes (h : Hd) (o : Cvt) : AlwaysCompletes (.cvt h o) h :=
  regOp_alwaysCompletes (execCvt h o) (fun _ => rfl) fun _ f => flagged_steady _ _ _ _ f

theorem qntForms_complete (h : Hd) (d a b : Opnd) : AlwaysCompletes (.qnt h d a b) h ∧ ∀ j : Fin 512, AlwaysCompletes (.qntIns h d a b j) h :=
  ⟨regOp_alwaysCompletes (execQnt h d a b) (fun _ => rfl) fun _ f => flagged_steady _ _ _ _ f,
    fun j => regOp_alwaysCompletes (execQntIns h d a b j) (fun _ => rfl) fun _ f => flagged_steady _ _ _ _ f⟩

/-- R132 to R134: a draw is written, and the counter alone moves. -/
theorem rand_completes (h : Hd) (t : Ty) (d : Opnd) : AlwaysCompletes (.rand h t d) h :=
  regOp_alwaysCompletes (execRand h t d) (fun _ => rfl) fun _ f => (Lane.Steady.ok (sameCourse_randVal t f)).wrTy _ _ _

theorem seed_completes (h : Hd) (fid : Bool) (a : Opnd) : AlwaysCompletes (.seed h fid a) h :=
  regOp_alwaysCompletes (execSeed h fid a) (fun _ => rfl) fun _ _ => .ok ⟨rfl, rfl, rfl, rfl, rfl⟩

theorem wclrForms_complete (h : Hd) (d : Fin 2) : AlwaysCompletes (.wclr h d) h ∧ AlwaysCompletes (.wclrStat h d) h :=
  ⟨regOp_alwaysCompletes (execWclr h d) (fun _ => rfl) fun _ f => wideUpd_steady _ _ f,
    regOp_alwaysCompletes (execWclrStat h d) (fun _ => rfl) fun _ f => wideUpd_steady _ _ f⟩

theorem waddForms_complete (h : Hd) (t : Ty) (d : Fin 2) (a : Opnd) :
    AlwaysCompletes (.wadd h t d a) h ∧ AlwaysCompletes (.wsub h t d a) h :=
  ⟨regOp_alwaysCompletes (execWadd h t d a) (fun _ => rfl) fun _ f => wideUpd_steady _ _ f,
    regOp_alwaysCompletes (execWsub h t d a) (fun _ => rfl) fun _ f => wideUpd_steady _ _ f⟩

theorem wmulForms_complete (h : Hd) (o : WMul) : AlwaysCompletes (.wmul2 h o) h ∧ ∀ c : Opnd, AlwaysCompletes (.wmul3 h o c) h :=
  ⟨regOp_alwaysCompletes (execWmul2 h o) (fun _ => rfl) fun _ f => wideUpd_steady _ _ f,
    fun c => regOp_alwaysCompletes (execWmul3 h o c) (fun _ => rfl) fun _ f => wideUpd_steady _ _ f⟩

theorem wsgn_completes (h : Hd) (w : Bool) (d : Opnd) (a : Fin 2) (p : Opnd) : AlwaysCompletes (.wsgn h w d a p) h :=
  regOp_alwaysCompletes (execWsgn h w d a p) (fun _ => rfl) fun _ f => ((Lane.Steady.refl f).wr _ _ _).wrP _ _

theorem wrnd_completes (h : Hd) (w : Bool) (rm : Rm) (d : Opnd) (a : Fin 2) : AlwaysCompletes (.wrnd h w rm d a) h :=
  regOp_alwaysCompletes (execWrnd h w rm d a) (fun _ => rfl) fun _ f => flagged_steady _ _ _ _ f

theorem wmov_completes (h : Hd) (op : WMov) (d a : Fin 2) : AlwaysCompletes (.wmov h op d a) h :=
  regOp_alwaysCompletes (execWmov h op d a) (fun _ => rfl) fun _ f => wideUpd_steady _ _ f

/-- Settles O15: the lanes of each form are steady, so its body is quiet, and an issue with a quiet body completes. -/
theorem formsComplete : Obligations.FormsComplete :=
  ⟨fun _ _ _ _ _ _ hc hperf hlog => getsr_completes hc hperf hlog, fun _ _ _ _ _ _ hc hperf => setsrPerf_completes hc hperf,
    fun h w a => ⟨fun _ _ _ hc => setsr_completes hc, setsrKey_completes h w a⟩, fl2Forms_complete, fl3Forms_complete,
    fl4Forms_complete, fsetp_completes, cvt_completes, qntForms_complete, rand_completes, seed_completes, wclrForms_complete,
    waddForms_complete, wmulForms_complete, wsgn_completes, wrnd_completes, wmov_completes⟩

end Sys2Proof.Machine
end

section
/-! The round trip through the words, first part: the parser reads from the fields of a legal instruction that instruction. -/

namespace Sys2Proof.Laws

open Sys2Proof.Machine (legal hdOf entryOk uses Use.ok extOk fixedLen)

/-! ## Codes and what they stand for -/

@[simp] theorem ty_getElem (t : Ty) : tyTable[ty t]? = some t := by cases t <;> rfl
@[simp] theorem tyTable_getElem (t : Ty) : tyTable[codeIn tyTable t]? = some t := ty_getElem t
@[simp] theorem rmTable_getElem (m : Rm) : rmTable[codeIn rmTable m]? = some m := by cases m <;> rfl
@[simp] theorem scopeTable_getElem (c : Scope) : scopeTable[codeIn scopeTable c]? = some c := by cases c <;> rfl
@[simp] theorem spaceTable_getElem (c : Space) : spaceTable[codeIn spaceTable c]? = some c := by cases c <;> rfl
@[simp] theorem strTable_getElem (c : Strength) : strTable[codeIn strTable c]? = some c := by cases c <;> rfl
@[simp] theorem cmpTable_getElem (c : Cmp) : cmpTable[codeIn cmpTable c]? = some c := by cases c <;> rfl
@[simp] theorem plogTable_getElem (c : Plog) : plogTable[codeIn plogTable c]? = some c := by cases c <;> rfl
@[simp] theorem redTable_getElem (c : Red) : redTable[codeIn redTable c]? = some c := by cases c <;> rfl
@[simp] theorem shflTable_getElem (c : Shfl) : shflTable[codeIn shflTable c]? = some c := by cases c <;> rfl
@[simp] theorem orderTable_getElem (c : Order) : orderTable[codeIn orderTable c]? = some c := by cases c <;> rfl
@[simp] theorem wmovTable_getElem (c : WMov) : wmovTable[codeIn wmovTable c]? = some c := by cases c <;> rfl

/-- R59: each operand has a code of its own. -/
@[simp] theorem opndOf_opndCode (o : Opnd) : opndOf (opndCode o) = some o := by
  cases o with
  | v n => rw [opndCode, opndOf, dif_pos n.isLt]
  | s n =>
    rw [opndCode, opndOf, dif_neg (by omega), dif_pos (by omega)]
    simp only [Nat.add_sub_cancel_left]
  | p n =>
    rw [opndCode, opndOf, dif_neg (by omega), dif_neg (by omega), dif_pos (by omega)]
    simp only [Nat.add_sub_cancel_left]
  | w n =>
    rw [opndCode, opndOf, dif_neg (by omega), dif_neg (by omega), dif_neg (by omega), dif_pos (by omega)]
    simp only [Nat.add_sub_cancel_left]
  | t n =>
    rw [opndCode, opndOf, dif_neg (by omega), dif_neg (by omega), dif_neg (by omega), dif_neg (by omega), dif_pos (by omega)]
    simp only [Nat.add_sub_cancel_left]
  | ic k =>
    rw [opndCode, opndOf, dif_neg (by omega), dif_neg (by omega), dif_neg (by omega), dif_neg (by omega), dif_neg (by omega),
      if_neg (by omega), dif_pos (by omega)]
    simp only [Nat.add_sub_cancel_left]
  | fc k =>
    rw [opndCode, opndOf, dif_neg (by omega), dif_neg (by omega), dif_neg (by omega), dif_neg (by omega), dif_neg (by omega),
      if_neg (by omega), dif_neg (by omega), dif_pos (by omega)]
    simp only [Nat.add_sub_cancel_left]
  | imm => rfl

@[simp] theorem fmtOfSrc_fmtSrc (f : Fmt) : fmtOfSrc (fmtSrc f) = some f := by
  cases f with
  | ty t => cases t <;> rfl
  | _ => rfl

@[simp] theorem fmtOfDst_fmtDst (f : Fmt) : fmtOfDst (fmtDst f).1 (fmtDst f).2 = some f := by
  cases f with
  | ty t => cases t <;> rfl
  | _ => rfl

@[simp] theorem decide_toNat_eq_one (b : Bool) : decide (b.toNat = 1) = b := by cases b <;> rfl

theorem opndCode_w (n : Fin 2) : opndCode (.w n) = 0x148 + n := rfl

@[simp] theorem getW_add (n : Fin 2) : getW (0x148 + n) = n := by simp [getW]

@[simp] theorem t2_i64 (w : Bool) : decide (t2 .i32 .i64 w = ty .i64) = w := by cases w <;> rfl
@[simp] theorem t2_f64 (w : Bool) : decide (t2 .f32 .f64 w = ty .f64) = w := by cases w <;> rfl
@[simp] theorem t2_b64 (w : Bool) : decide (t2 .b32 .b64 w = ty .b64) = w := by cases w <;> rfl

/-- R105: the field that names an image store is no strength. -/
@[simp] theorem strCode_ne_image (c : Strength) : codeIn strTable c ≠ 3 := by cases c <;> decide

/-- R62: only the code of an immediate is the immediate's. -/
theorem opndCode_eq_imm {o : Opnd} : opndCode o = 0x1FF ↔ o = .imm := by
  cases o <;> simp [opndCode] <;> omega

theorem fin_ofNat_eq {n m : Nat} [NeZero n] {k : Fin n} (h : m % n = k) : Fin.ofNat n m = k := Fin.ext h

/-! ## What legality says of the forms that keep words or fields for themselves -/

section
variable {i : Instr} {h : Hd}

theorem entryOk_of_legal (hl : legal i = true) : entryOk i = true := by
  unfold legal at hl
  split at hl
  · cases hl
  · simp only [Bool.and_eq_true] at hl
    exact hl.1.1

theorem usesOk_of_legal (hl : legal i = true) : (uses i).all Use.ok = true := by
  unfold legal at hl
  split at hl
  · cases hl
  · simp only [Bool.and_eq_true] at hl
    exact hl.1.2

theorem extOk_of_legal (hh : hdOf i = some h) (hl : legal i = true) : extOk i h = true := by
  simp only [legal, hh, Bool.and_eq_true] at hl
  exact hl.2

/-- R80: a form of fixed length other than 128 bits has no further words of its header. -/
theorem ext_none_of_fixedLen {n : Nat} (hh : hdOf i = some h) (hl : legal i = true) (hf : fixedLen i = some n) (hn : n ≠ 128) :
    h.ext = .none := by
  have he := extOk_of_legal hh hl
  unfold extOk at he
  simp only [hf] at he
  split at he
  · simp_all
  · simp only [Bool.and_eq_true, decide_eq_true_eq] at he
    exact he.1
  all_goals simp_all

end

/-! ## The operands of the common shapes are read back -/

section
variable (h : Hd) (op : Nat)

@[simp] theorem rawI2_op (o : Int2) : (rawI2 h op o).op = op := rfl
@[simp] theorem hdOfRaw_rawI2 (o : Int2) : hdOfRaw (rawI2 h op o) = h := by simp [hdOfRaw, rawI2, raw]
@[simp] theorem getI2_rawI2 (o : Int2) : getI2 (rawI2 h op o) = some o := by simp [getI2, rawI2]

@[simp] theorem rawI3_op (o : Int3) : (rawI3 h op o).op = op := rfl
@[simp] theorem hdOfRaw_rawI3 (o : Int3) : hdOfRaw (rawI3 h op o) = h := by simp [hdOfRaw, rawI3, raw]
@[simp] theorem getI3_rawI3 (o : Int3) : getI3 (rawI3 h op o) = some o := by simp [getI3, rawI3]

@[simp] theorem rawI4_op (o : Int4) : (rawI4 h op o).op = op := rfl
@[simp] theorem hdOfRaw_rawI4 (o : Int4) : hdOfRaw (rawI4 h op o) = h := by simp [hdOfRaw, rawI4, raw]
@[simp] theorem getI4_rawI4 (o : Int4) : getI4 (rawI4 h op o) = some o := by simp [getI4, rawI4]

@[simp] theorem rawF2_op (o : Fl2) : (rawF2 h op o).op = op := rfl
@[simp] theorem hdOfRaw_rawF2 (o : Fl2) : hdOfRaw (rawF2 h op o) = h := by simp [hdOfRaw, rawF2, raw]
@[simp] theorem getF2_rawF2 (o : Fl2) : getF2 (rawF2 h op o) = some o := by simp [getF2, rawF2]

@[simp] theorem rawF3_op (o : Fl3) : (rawF3 h op o).op = op := rfl
@[simp] theorem hdOfRaw_rawF3 (o : Fl3) : hdOfRaw (rawF3 h op o) = h := by simp [hdOfRaw, rawF3, raw]
@[simp] theorem getF3_rawF3 (o : Fl3) : getF3 (rawF3 h op o) = some o := by simp [getF3, rawF3]

@[simp] theorem rawF4_op (o : Fl4) : (rawF4 h op o).op = op := rfl
@[simp] theorem hdOfRaw_rawF4 (o : Fl4) : hdOfRaw (rawF4 h op o) = h := by simp [hdOfRaw, rawF4, raw]
@[simp] theorem getF4_rawF4 (o : Fl4) : getF4 (rawF4 h op o) = some o := by simp [getF4, rawF4]

@[simp] theorem rawCmp_op (o : CmpOps) : (rawCmp h op o).op = op := rfl
@[simp] theorem hdOfRaw_rawCmp (o : CmpOps) : hdOfRaw (rawCmp h op o) = h := by simp [hdOfRaw, rawCmp, raw]
@[simp] theorem getCmp_rawCmp (o : CmpOps) : getCmp (rawCmp h op o) = some o := by simp [getCmp, rawCmp]

@[simp] theorem rawBits_op (o : Bits) : (rawBits h op o).op = op := rfl
@[simp] theorem hdOfRaw_rawBits (o : Bits) : hdOfRaw (rawBits h op o) = h := by simp [hdOfRaw, rawBits, raw]
@[simp] theorem getBits_rawBits (o : Bits) : getBits (rawBits h op o) = some o := by simp [getBits, rawBits]

@[simp] theorem rawMul_op (o : WMul) : (rawMul h op o).op = op := rfl
@[simp] theorem hdOfRaw_rawMul (o : WMul) : hdOfRaw (rawMul h op o) = h := by simp [hdOfRaw, rawMul, raw]
@[simp] theorem getMul_rawMul (o : WMul) : getMul (rawMul h op o) = some o := by simp [getMul, rawMul]

@[simp] theorem rawWMem_op (o : WMem) : (rawWMem h op o).op = op := rfl
@[simp] theorem hdOfRaw_rawWMem (o : WMem) : hdOfRaw (rawWMem h op o) = h := by simp [hdOfRaw, rawWMem, raw]
@[simp] theorem getWMem_rawWMem (o : WMem) : getWMem (rawWMem h op o) = some o := by simp [getWMem, rawWMem]

@[simp] theorem rawMem_op (o : Mem) : (rawMem h op o).op = op := rfl
@[simp] theorem hdOfRaw_rawMem (o : Mem) : hdOfRaw (rawMem h op o) = h := by simp [hdOfRaw, rawMem, raw]
@[simp] theorem getMem_rawMem (o : Mem) : getMem (rawMem h op o) = some o := by simp [getMem, rawMem]

@[simp] theorem rawDesc_op (o : Desc) : (rawDesc h op o).op = op := rfl
@[simp] theorem hdOfRaw_rawDesc (o : Desc) : hdOfRaw (rawDesc h op o) = h := by simp [hdOfRaw, rawDesc, raw]
@[simp] theorem getDesc_rawDesc (o : Desc) : getDesc (rawDesc h op o) = some o := by simp [getDesc, rawDesc]

theorem rawMem_m (o : Mem) : (rawMem h op o).m = codeIn strTable o.str := rfl

end

/-! ## The parser, block by block -/

section
variable {h : Hd}

theorem parse_br {off : Word} (he : h.ext = .none) : parse (rawOf (.br h off)) = some (.br h off) := by
  obtain ⟨g, neg, stop, hold, ext⟩ := h
  subst he
  unfold rawOf
  simp [parse, parseControl, raw, bare, getImm, hdOfRaw]

theorem parse_callLabel {d : Opnd} {off : Word} (he : h.ext = .none) :
    parse (rawOf (.callLabel h d off)) = some (.callLabel h d off) := by
  obtain ⟨g, neg, stop, hold, ext⟩ := h
  subst he
  unfold rawOf
  simp [parse, parseControl, raw, rawD, bare, getImm, hdOfRaw]

theorem parse_spawnLabel {o : Spawn} {off : Word} (he : h.ext = .none) :
    parse (rawOf (.spawnLabel h o off)) = some (.spawnLabel h o off) := by
  obtain ⟨g, neg, stop, hold, ext⟩ := h
  subst he
  unfold rawOf
  simp [parse, parseParallel, raw, rawSpawn, getSpawn, bare, getImm, hdOfRaw]

/-- R330: the four counters' thresholds stand in the bytes of one word. -/
theorem parse_wait {l s : Fin 64} {c : Fin 32} {m : Fin 8} (he : h.ext = .none) :
    parse (rawOf (.wait h l s c m)) = some (.wait h l s c m) := by
  obtain ⟨g, neg, stop, hold, ext⟩ := h
  subst he
  have hw : (BitVec.ofNat 32 (l + 2 ^ 8 * s + 2 ^ 16 * c + 2 ^ 24 * m)).toNat = l + 2 ^ 8 * s + 2 ^ 16 * c + 2 ^ 24 * m := by
    rw [BitVec.toNat_ofNat]; omega
  have hl : Fin.ofNat 64 (l + 2 ^ 8 * s + 2 ^ 16 * c + 2 ^ 24 * m) = l := fin_ofNat_eq (by omega)
  have hs : Fin.ofNat 64 ((l + 2 ^ 8 * s + 2 ^ 16 * c + 2 ^ 24 * m) / 2 ^ 8) = s := fin_ofNat_eq (by omega)
  have hc : Fin.ofNat 32 ((l + 2 ^ 8 * s + 2 ^ 16 * c + 2 ^ 24 * m) / 2 ^ 16) = c := fin_ofNat_eq (by omega)
  have hm : Fin.ofNat 8 ((l + 2 ^ 8 * s + 2 ^ 16 * c + 2 ^ 24 * m) / 2 ^ 24) = m := fin_ofNat_eq (by omega)
  unfold rawOf
  simp only [parse, parseEngines, raw, bare, getImm, hdOfRaw, Option.bind_eq_bind, Option.bind_some, hw, hl, hs, hc, hm]
  simp

theorem parse_setsr {w : Bool} {a : Opnd} {k : Fin 64} (hk : Machine.srWritable k = true) :
    parse (rawOf (.setsr h w a k)) = some (.setsr h w a k) := by
  have hkey : k.val ≠ 0x14 := by rintro hk'; rw [hk'] at hk; cases hk
  have hperf : ¬0x30 ≤ k.val := by simp [Machine.srWritable] at hk; omega
  unfold rawOf
  simp [parse, parseControl, raw, rawSr, hkey, hperf, hdOfRaw]

theorem parse_setsrPerf {w : Bool} {a : Opnd} {k : Fin 16} : parse (rawOf (.setsrPerf h w a k)) = some (.setsrPerf h w a k) := by
  have hkey : 0x30 + k.val ≠ 0x14 := by omega
  unfold rawOf
  simp [parse, parseControl, raw, rawSr, hkey, hdOfRaw]

theorem parse_atom {o : Atom} (hc : o.c = .ic 32) : parse (rawOf (.atom h o)) = some (.atom h o) := by
  obtain ⟨t, sc, str, sp, op, d, a, b, c⟩ := o
  subst hc
  unfold rawOf
  simp [parse, parseMemory, raw, rawAtom, getAtom, hdOfRaw]

theorem parse_cas {o : Atom} (hop : o.op = .add) : parse (rawOf (.cas h o)) = some (.cas h o) := by
  obtain ⟨t, sc, str, sp, op, d, a, b, c⟩ := o
  subst hop
  unfold rawOf
  simp [parse, parseMemory, raw, rawAtom, getAtom, hdOfRaw]

/-- R57: the field M of a reduction is a rounding or a saturation, as the type says. -/
theorem getComb_rawComb {o : Comb} {op : Nat} (ho : Machine.combOk o = true) (b x : Nat) :
    getComb { rawComb h op o with b := b, x := x } = some o := by
  obtain ⟨t, op', rm, sat, d, a⟩ := o
  simp only [Machine.combOk, Bool.and_eq_true, Bool.or_eq_true, Bool.not_eq_true', decide_eq_true_eq] at ho
  obtain ⟨⟨-, hsat⟩, hrm⟩ := ho
  cases hf : Machine.tyFloat t with
  | true =>
    have hs : sat = false := by
      refine hsat.resolve_right fun h => ?_
      cases t <;> simp_all [Machine.tyFloat, Machine.tyInt]
    simp [getComb, rawComb, rawComb.tyFloatT, raw, hf, hs]
  | false =>
    have hr : rm = .rne := hrm.resolve_right fun h => by simp [hf] at h
    simp [getComb, rawComb, rawComb.tyFloatT, raw, hf, hr]

@[simp] theorem hdOfRaw_rawComb {o : Comb} {op : Nat} (b x : Nat) : hdOfRaw { rawComb h op o with b := b, x := x } = h := by
  simp [hdOfRaw, rawComb, raw]

theorem parse_gred {o : Comb} (ho : Machine.combOk o = true) : parse (rawOf (.gred h o)) = some (.gred h o) := by
  change (getComb { rawComb h 0x74 o with b := 0, x := 0 }).bind
    (fun c => some (Instr.gred (hdOfRaw { rawComb h 0x74 o with b := 0, x := 0 }) c)) = _
  rw [getComb_rawComb ho, hdOfRaw_rawComb]
  rfl

theorem parse_gscan {o : Comb} {ex : Bool} (ho : Machine.combOk o = true) : parse (rawOf (.gscan h o ex)) = some (.gscan h o ex) := by
  change (getComb { rawComb h 0x75 o with b := 0, x := ex.toNat }).bind
    (fun c => some (Instr.gscan (hdOfRaw { rawComb h 0x75 o with b := 0, x := ex.toNat }) c (ex.toNat = 1))) = _
  rw [getComb_rawComb ho, hdOfRaw_rawComb, decide_toNat_eq_one]
  rfl

theorem parse_crs {o : Comb} {b : Opnd} (ho : Machine.combOk o = true) : parse (rawOf (.crs h o b)) = some (.crs h o b) := by
  change (getComb { rawComb h 0xA2 o with b := opndCode b, x := 0 }).bind
    (fun c => (opndOf (opndCode b)).bind fun b' => some (Instr.crs (hdOfRaw { rawComb h 0xA2 o with b := opndCode b, x := 0 }) c b')) = _
  rw [getComb_rawComb ho, hdOfRaw_rawComb, opndOf_opndCode]
  rfl

/-- R348: the tile's number stands in D, or in the field word of a 128-bit form. -/
theorem getTile_rawTile {tile : Fin 8} {op : Nat} (ht : Machine.tileForm h tile = true) (t x a b c : Nat) :
    getTile { rawTile h op tile with t := t, x := x, a := a, b := b, c := c } = (h, tile) := by
  obtain ⟨g, neg, stop, hold, ext⟩ := h
  cases ext with
  | ext64 lo hi =>
    obtain rfl : hi = 0 := by simpa [Machine.tileForm] using ht
    have htile : (BitVec.ofNat 32 tile.val).toNat = tile := by rw [BitVec.toNat_ofNat]; omega
    simp [getTile, rawTile, raw, hdOfRaw, htile]
  | none => simp [getTile, rawTile, raw, hdOfRaw]
  | imm32 w => simp [getTile, rawTile, raw, hdOfRaw]

theorem getTile_rawTileMem {o : TileMem} {op : Nat} (ht : Machine.tileForm h o.tile = true) :
    getTile (rawTileMem h op o) = (h, o.tile) := getTile_rawTile ht ..

theorem getTileMem_rawTileMem {o : TileMem} {op : Nat} (ht : Machine.tileForm h o.tile = true) :
    getTileMem (rawTileMem h op o) = some o := by
  have hg := getTile_rawTileMem (op := op) ht
  obtain ⟨t, scr, tile, a, b, f, n1⟩ := o
  have hf : Fin.ofNat 8 (f + 8 * n1) = f := fin_ofNat_eq (by omega)
  have hn : Fin.ofNat 8 ((f + 8 * n1) / 8) = n1 := fin_ofNat_eq (by omega)
  unfold getTileMem
  rw [hg]
  simp only [rawTileMem, hf, hn]
  simp

@[simp] theorem rawTile_op (h : Hd) (op tile : Nat) : (rawTile h op tile).op = op := by
  unfold rawTile
  split <;> rfl

theorem rawTileMem_op (h : Hd) (op : Nat) (o : TileMem) : (rawTileMem h op o).op = op := rawTile_op h op o.tile

theorem parse_mld {o : TileMem} (ht : Machine.tileForm h o.tile = true) : parse (rawOf (.mld h o)) = some (.mld h o) := by
  have hp {r : Raw} (hr : r.op = 0x9A) : parse r = (getTileMem r).bind fun m => some (Instr.mld (getTile r).1 m) := by
    simp [parse, parseEngines, hr]
  change parse (rawTileMem h 0x9A o) = _
  rw [hp (rawTileMem_op h 0x9A o), getTileMem_rawTileMem ht, getTile_rawTileMem ht]
  rfl

theorem parse_mst {o : TileMem} (ht : Machine.tileForm h o.tile = true) : parse (rawOf (.mst h o)) = some (.mst h o) := by
  have hp {r : Raw} (hr : r.op = 0x9B) : parse r = (getTileMem r).bind fun m => some (Instr.mst (getTile r).1 m) := by
    simp [parse, parseEngines, hr]
  change parse (rawTileMem h 0x9B o) = _
  rw [hp (rawTileMem_op h 0x9B o), getTileMem_rawTileMem ht, getTile_rawTileMem ht]
  rfl

theorem parse_mcont {tile : Fin 8} (ht : Machine.tileForm h tile = true) : parse (rawOf (.mcont h tile)) = some (.mcont h tile) := by
  have hg : getTile (rawTile h 0x9C tile) = (h, tile) := getTile_rawTile ht ..
  have hp {r : Raw} (hr : r.op = 0x9C) : parse r = some (.mcont (getTile r).1 (getTile r).2) := by
    simp [parse, parseEngines, hr]
  change parse (rawTile h 0x9C tile) = _
  rw [hp (rawTile_op h 0x9C tile), hg]

/-- R63: the header of an `mma` has an immediate where one of its operands is the immediate, and nothing else. -/
theorem mma_slot {o : Mma} (hl : legal (.mma h o) = true) :
    h.ext = if opndCode o.b = 0x1FF ∨ opndCode o.c = 0x1FF then .imm32 (slotOf h.ext) else .none := by
  have he : extOk (.mma h o) h = true := extOk_of_legal rfl hl
  have ha : o.a ≠ .imm := by
    have hu : Use.ok (Machine.r32 [.s] o.a) = true := (List.all_eq_true.mp (usesOk_of_legal hl)) _ List.mem_cons_self
    intro ha
    rw [ha] at hu
    exact absurd hu (by decide)
  have himm : (uses (.mma h o)).filter (fun u => u.o = .imm) = [] ↔ ¬(o.b = .imm ∨ o.c = .imm) := by
    have hu : uses (.mma h o) = [Machine.r32 [.s] o.a, Machine.r32 Machine.kUni o.b, Machine.r32 Machine.kUni o.c,
      ⟨.s o.q, false, 0, 1, 3, false, [.s]⟩] := rfl
    simp [hu, Machine.r32, ha]
  have hf : fixedLen (.mma h o) = some 128 := rfl
  simp only [opndCode_eq_imm]
  cases hx : h.ext with
  | none =>
    rw [if_neg]
    refine himm.mp ?_
    simpa [extOk, hf, hx] using he
  | imm32 w =>
    rw [if_pos]
    · rfl
    · by_contra hn
      simp [extOk, hf, hx, himm.mpr hn] at he
  | ext64 lo hi => simp [extOk, hf, hx] at he

theorem parse_mma {o : Mma} (hl : legal (.mma h o) = true) : parse (rawOf (.mma h o)) = some (.mma h o) := by
  have hs := mma_slot hl
  obtain ⟨z, tile, q, a, b, c⟩ := o
  have hz := bit_le z
  have hw : (BitVec.ofNat 32 (tile + 8 * z.toNat + 16 * q)).toNat = tile + 8 * z.toNat + 16 * q := by
    rw [BitVec.toNat_ofNat]; omega
  have hzb : (tile + 8 * z.toNat + 16 * q) / 8 % 2 = z.toNat := by omega
  have htile : Fin.ofNat 8 (tile + 8 * z.toNat + 16 * q) = tile := fin_ofNat_eq (by omega)
  have hq : Fin.ofNat 64 ((tile + 8 * z.toNat + 16 * q) / 16) = q := fin_ofNat_eq (by omega)
  unfold rawOf
  simp only [parse, parseEngines, raw, hdOfRaw, hw, hzb, htile, hq, ← hs, opndOf_opndCode, decide_toNat_eq_one]
  simp

end

/-- R50, R67: the fields of a legal instruction are read back as that instruction. -/
theorem parse_rawOf (i : Instr) (hl : legal i = true) : parse (rawOf i) = some i := by
  cases i with
  | nop | exit | tret | yield | brk | brx | ret | trap | callRegister | getsr =>
    unfold rawOf
    simp [parse, parseControl, raw, rawA, rawD, rawDA, rawSr, hdOfRaw]
  | add | sub | mul | mulhi | mad | div | rem | neg | abs | min | max | and | or | xor | not | shl | shr | sar | rol | ror | popc | clz
  | ctz | brev | bfe | bfi | sel | mov | setp | addc =>
    unfold rawOf
    simp [parse, parseInt]
  | plog | lea =>
    unfold rawOf
    simp [parse, parseInt, raw, rawI3, rawD, rawDA, rawDAB, getI3, hdOfRaw]
  | fadd | fsub | fmul | ffma | fnfma | fdiv | fsqrt | frcp | frsq | fmin | fmax | fabs | fneg | fsetp | fclass | frnd | fcpsgn | fscale
  | fexpo | fmant | f2sum | f2prod | fdot2 | fpfma | pack | fexp2 | flog2 =>
    unfold rawOf
    simp [parse, parseFloat]
  | cvt | unpk | qnt | qntIns | rand | seed =>
    unfold rawOf
    simp [parse, parseFloat, raw, rawF2, rawA, rawD, rawDA, rawDAB, getF2, hdOfRaw]
  | wmul2 | wld | wst =>
    unfold rawOf
    simp [parse, parseWide]
  | wclr | wclrStat | wadd | wsub | wmul3 | wsgn | wrnd | wmov =>
    unfold rawOf
    simp [parse, parseWide, raw, rawMul, rawD, rawDA, getMul, opndCode_w, hdOfRaw]
  | ld | ldesc | sdesc =>
    unfold rawOf
    simp [parse, parseMemory]
  | st =>
    unfold rawOf
    simp [parse, parseMemory, rawMem_m]
  | imageStore | red | fenceAcq | fenceRel | fenceFull | prefL1 | prefL2 | invalL1 | invalAll | invalRdc | flush | flushAll
  | dalloc | dallocZ | dfree =>
    unfold rawOf
    simp [parse, parseMemory, raw, rawA, rawAB, rawD, rawDA, rawDAB, getRed, hdOfRaw]
  | spawnRegister | barSync | barArv | barEsync | barEarv | barRgn | voteAll | voteAny | voteBallot | voteUni | shfl | matchAny | matchAll
  | racq | rrel | incu | incrd | incrdHome | bnd | defer | popen | accept | pclose =>
    unfold rawOf
    simp [parse, parseParallel, raw, rawSpawn, rawA, rawAB, rawD, rawDA, rawDAB, rawDABC, getSpawn, hdOfRaw]
  | launch | signal | signalAdd | orbitSize | orbitStab | orbitImg | role | stgw | stga =>
    unfold rawOf
    simp [parse, parseLaunch, raw, rawA, rawAB, rawD, rawDA, hdOfRaw]
  | copyG2s | copyS2g | gath | scat | sleep | subs | unsub | troupe | mopf | wbload =>
    unfold rawOf
    simp [parse, parseEngines, raw, rawA, rawAB, rawD, rawDA, rawDAB, rawDABC, hdOfRaw]
  | cgrp | cgrpFree | cag | ca2a | cbar | cwait | ckpt | ckptHold | perfSel | perfSmp =>
    unfold rawOf
    simp [parse, parseRest, raw, rawD, rawDA, rawDAB, hdOfRaw]
  | br => exact parse_br (ext_none_of_fixedLen rfl hl rfl (by decide))
  | callLabel => exact parse_callLabel (ext_none_of_fixedLen rfl hl rfl (by decide))
  | spawnLabel => exact parse_spawnLabel (ext_none_of_fixedLen rfl hl rfl (by decide))
  | wait => exact parse_wait (ext_none_of_fixedLen rfl hl rfl (by decide))
  | setsr => exact parse_setsr (entryOk_of_legal hl)
  | setsrKey =>
    unfold rawOf
    simp [parse, parseControl, raw, rawSr, hdOfRaw]
  | setsrPerf => exact parse_setsrPerf
  | atom =>
    have he := entryOk_of_legal hl
    simp only [entryOk, Bool.and_eq_true, decide_eq_true_eq] at he
    exact parse_atom he.2
  | cas =>
    have he := entryOk_of_legal hl
    simp only [entryOk, Bool.and_eq_true, decide_eq_true_eq] at he
    exact parse_cas he.2
  | gred => exact parse_gred (entryOk_of_legal hl)
  | gscan => exact parse_gscan (entryOk_of_legal hl)
  | crs => exact parse_crs (entryOk_of_legal hl)
  | mma => exact parse_mma hl
  | mld => exact parse_mld (Bool.and_eq_true_iff.mp (entryOk_of_legal hl)).2
  | mst => exact parse_mst (Bool.and_eq_true_iff.mp (entryOk_of_legal hl)).2
  | mcont => exact parse_mcont (entryOk_of_legal hl)
  | _ => cases hl

end Sys2Proof.Laws
end

section
/-! The round trip through the words, second part: word0 from its fields and back, and the decoder on encoded words. -/

namespace Sys2Proof.Laws

open Sys2Proof.Machine (legal hdOf fixedLen lenBits lenBytes)

/-! ## Fields of a number -/

/-- Fields that fit their widths are read back. -/
theorem unpackBits_packBits (fs : List (Nat × Nat)) (hf : ∀ f ∈ fs, f.2 < 2 ^ f.1) :
    unpackBits (fs.map (·.1)) (packBits fs) = fs.map (·.2) := by
  induction fs with
  | nil => rfl
  | cons f fs ih =>
    have hx : f.2 < 2 ^ f.1 := hf f List.mem_cons_self
    have hmod : (f.2 + 2 ^ f.1 * packBits fs) % 2 ^ f.1 = f.2 := by rw [Nat.add_mul_mod_self_left, Nat.mod_eq_of_lt hx]
    have hdiv : (f.2 + 2 ^ f.1 * packBits fs) / 2 ^ f.1 = packBits fs := by
      rw [Nat.add_mul_div_left _ _ (Nat.two_pow_pos _), Nat.div_eq_of_lt hx, Nat.zero_add]
    rw [List.map_cons, packBits, unpackBits, hmod, hdiv, ih fun g hg => hf g (List.mem_cons_of_mem _ hg), List.map_cons]

/-- A number of fields that fit takes no more bits than they have together. -/
theorem packBits_lt (fs : List (Nat × Nat)) (hf : ∀ f ∈ fs, f.2 < 2 ^ f.1) : packBits fs < 2 ^ (fs.map (·.1)).sum := by
  induction fs with
  | nil => exact Nat.one_pos
  | cons f fs ih =>
    have hx : f.2 < 2 ^ f.1 := hf f List.mem_cons_self
    have hr : packBits fs + 1 ≤ 2 ^ (fs.map (·.1)).sum := ih fun g hg => hf g (List.mem_cons_of_mem _ hg)
    calc packBits (f :: fs) < 2 ^ f.1 + 2 ^ f.1 * packBits fs := Nat.add_lt_add_right hx _
      _ = 2 ^ f.1 * (packBits fs + 1) := by ring
      _ ≤ 2 ^ f.1 * 2 ^ (fs.map (·.1)).sum := Nat.mul_le_mul_left _ hr
      _ = 2 ^ ((f :: fs).map (·.1)).sum := by rw [List.map_cons, List.sum_cons, Nat.pow_add]

theorem lenCode_lt (e : Ext) : lenCode e < 3 := by cases e <;> simp [lenCode]

/-- R50: the fields of word0 with their widths. -/
def wordFields (r : Raw) : List (Nat × Nat) :=
  [(2, lenCode r.ext), (1, r.s), (1, r.n), (3, r.g), (8, r.op), (3, r.v), (4, r.t), (9, r.d), (9, r.a), (9, r.b), (9, r.c), (2, r.hl),
    (2, r.m), (2, r.x)]

theorem word0_eq (r : Raw) : word0 r = packBits (wordFields r) := rfl

section
variable {r : Raw} (hr : Fits r)
include hr

theorem wordFields_fit : ∀ f ∈ wordFields r, f.2 < 2 ^ f.1 := by
  obtain ⟨hs, hn, hg, hop, hv, ht, hd, ha, hb, hc, hhl, hm, hx⟩ := hr
  have hlen := lenCode_lt r.ext
  simp only [wordFields, List.forall_mem_cons]
  refine ⟨by omega, hs, hn, hg, hop, hv, ht, hd, ha, hb, hc, hhl, hm, hx, ?_⟩
  simp

/-- R50: the fields are read back from word0. -/
theorem fieldsOf_word0 : fieldsOf (word0 r) r.ext = r := by
  have hu : unpackBits [2, 1, 1, 3, 8, 3, 4, 9, 9, 9, 9, 2, 2, 2] (word0 r) = (wordFields r).map (·.2) :=
    unpackBits_packBits _ (wordFields_fit hr)
  unfold fieldsOf
  rw [hu]
  rfl

theorem word0_lt : word0 r < 2 ^ 64 := packBits_lt _ (wordFields_fit hr)

/-- R49: the two words of word0 give it back. -/
theorem word0_halves : (BitVec.ofNat 32 (word0 r)).toNat + 2 ^ 32 * (BitVec.ofNat 32 (word0 r / 2 ^ 32)).toNat = word0 r := by
  have := word0_lt hr
  rw [BitVec.toNat_ofNat, BitVec.toNat_ofNat]
  omega

end

/-- R51: the two low bits of the first word are the length code. -/
theorem word0_mod_four (r : Raw) : (BitVec.ofNat 32 (word0 r)).toNat % 4 = lenCode r.ext := by
  have hw : word0 r = lenCode r.ext + 4 * packBits (wordFields r).tail := rfl
  have := lenCode_lt r.ext
  rw [BitVec.toNat_ofNat]
  omega

/-- R51: the first word of an instruction is no fill word. -/
theorem word0_ne_fill (r : Raw) : BitVec.ofNat 32 (word0 r) ≠ fillWord := by
  intro h
  have h3 : (BitVec.ofNat 32 (word0 r)).toNat % 4 = 3 := by rw [h]; rfl
  have := lenCode_lt r.ext
  rw [word0_mod_four] at h3
  omega

/-- R49 to R51: the words of fields that fit are decoded by these fields. -/
theorem decodeWords_wordsOf {r : Raw} (hr : Fits r) (rest : List Word) : decodeWords (wordsOf r ++ rest) = legalOf (ofRaw r) := by
  have hm := word0_mod_four r
  have hh := word0_halves hr
  have hf := fieldsOf_word0 hr
  unfold wordsOf
  cases he : r.ext with
  | _ =>
    rw [he] at hm hf
    simp only [List.cons_append, List.nil_append, decodeWords, if_neg (word0_ne_fill r), hm, lenCode, hh, hf]

/-- R50: the fields of every instruction fit. -/
theorem fits_rawOf (i : Instr) : Fits (rawOf i) := by
  cases i with
  | nop => exact Encoding.nop ..
  | br => exact Encoding.br ..
  | brx => exact Encoding.brx ..
  | callLabel => exact Encoding.callLabel ..
  | callRegister => exact Encoding.callRegister ..
  | ret => exact Encoding.ret ..
  | exit => exact Encoding.exit ..
  | trap => exact Encoding.trap ..
  | tret => exact Encoding.tret ..
  | getsr => exact Encoding.getsr ..
  | setsr => exact Encoding.setsr ..
  | setsrKey => exact Encoding.setsrKey ..
  | setsrPerf => exact Encoding.setsrPerf ..
  | yield => exact Encoding.yield ..
  | brk => exact Encoding.brk ..
  | add => exact Encoding.add ..
  | sub => exact Encoding.sub ..
  | mul => exact Encoding.mul ..
  | mulhi => exact Encoding.mulhi ..
  | mad => exact Encoding.mad ..
  | div => exact Encoding.div ..
  | rem => exact Encoding.rem ..
  | neg => exact Encoding.neg ..
  | abs => exact Encoding.abs ..
  | min => exact Encoding.min ..
  | max => exact Encoding.max ..
  | and => exact Encoding.and ..
  | or => exact Encoding.or ..
  | xor => exact Encoding.xor ..
  | not => exact Encoding.not ..
  | shl => exact Encoding.shl ..
  | shr => exact Encoding.shr ..
  | sar => exact Encoding.sar ..
  | rol => exact Encoding.rol ..
  | ror => exact Encoding.ror ..
  | popc => exact Encoding.popc ..
  | clz => exact Encoding.clz ..
  | ctz => exact Encoding.ctz ..
  | brev => exact Encoding.brev ..
  | bfe => exact Encoding.bfe ..
  | bfi => exact Encoding.bfi ..
  | sel => exact Encoding.sel ..
  | mov => exact Encoding.mov ..
  | setp => exact Encoding.setp ..
  | plog => exact Encoding.plog ..
  | addc => exact Encoding.addc ..
  | lea => exact Encoding.lea ..
  | fadd => exact Encoding.fadd ..
  | fsub => exact Encoding.fsub ..
  | fmul => exact Encoding.fmul ..
  | ffma => exact Encoding.ffma ..
  | fnfma => exact Encoding.fnfma ..
  | fdiv => exact Encoding.fdiv ..
  | fsqrt => exact Encoding.fsqrt ..
  | frcp => exact Encoding.frcp ..
  | frsq => exact Encoding.frsq ..
  | fmin => exact Encoding.fmin ..
  | fmax => exact Encoding.fmax ..
  | fabs => exact Encoding.fabs ..
  | fneg => exact Encoding.fneg ..
  | fsetp => exact Encoding.fsetp ..
  | fclass => exact Encoding.fclass ..
  | frnd => exact Encoding.frnd ..
  | fcpsgn => exact Encoding.fcpsgn ..
  | fscale => exact Encoding.fscale ..
  | fexpo => exact Encoding.fexpo ..
  | fmant => exact Encoding.fmant ..
  | f2sum => exact Encoding.f2sum ..
  | f2prod => exact Encoding.f2prod ..
  | fdot2 => exact Encoding.fdot2 ..
  | fpfma => exact Encoding.fpfma ..
  | cvt => exact Encoding.cvt ..
  | pack => exact Encoding.pack ..
  | unpk => exact Encoding.unpk ..
  | qnt => exact Encoding.qnt ..
  | qntIns => exact Encoding.qntIns ..
  | fexp2 => exact Encoding.fexp2 ..
  | flog2 => exact Encoding.flog2 ..
  | rand => exact Encoding.rand ..
  | seed => exact Encoding.seed ..
  | wclr => exact Encoding.wclr ..
  | wclrStat => exact Encoding.wclrStat ..
  | wadd => exact Encoding.wadd ..
  | wsub => exact Encoding.wsub ..
  | wmul2 => exact Encoding.wmul2 ..
  | wmul3 => exact Encoding.wmul3 ..
  | wsgn => exact Encoding.wsgn ..
  | wrnd => exact Encoding.wrnd ..
  | wmov => exact Encoding.wmov ..
  | wld => exact Encoding.wld ..
  | wst => exact Encoding.wst ..
  | ld => exact Encoding.ld ..
  | st => exact Encoding.st ..
  | imageStore => exact Encoding.imageStore ..
  | atom => exact Encoding.atom ..
  | cas => exact Encoding.cas ..
  | red => exact Encoding.red ..
  | fenceAcq => exact Encoding.fenceAcq ..
  | fenceRel => exact Encoding.fenceRel ..
  | fenceFull => exact Encoding.fenceFull ..
  | prefL1 => exact Encoding.prefL1 ..
  | prefL2 => exact Encoding.prefL2 ..
  | invalL1 => exact Encoding.invalL1 ..
  | invalAll => exact Encoding.invalAll ..
  | invalRdc => exact Encoding.invalRdc ..
  | flush => exact Encoding.flush ..
  | flushAll => exact Encoding.flushAll ..
  | ldesc => exact Encoding.ldesc ..
  | sdesc => exact Encoding.sdesc ..
  | dalloc => exact Encoding.dalloc ..
  | dallocZ => exact Encoding.dallocZ ..
  | dfree => exact Encoding.dfree ..
  | spawnLabel => exact Encoding.spawnLabel ..
  | spawnRegister => exact Encoding.spawnRegister ..
  | barSync => exact Encoding.barSync ..
  | barArv => exact Encoding.barArv ..
  | barEsync => exact Encoding.barEsync ..
  | barEarv => exact Encoding.barEarv ..
  | barRgn => exact Encoding.barRgn ..
  | voteAll => exact Encoding.voteAll ..
  | voteAny => exact Encoding.voteAny ..
  | voteBallot => exact Encoding.voteBallot ..
  | voteUni => exact Encoding.voteUni ..
  | shfl => exact Encoding.shfl ..
  | gred => exact Encoding.gred ..
  | gscan => exact Encoding.gscan ..
  | matchAny => exact Encoding.matchAny ..
  | matchAll => exact Encoding.matchAll ..
  | racq => exact Encoding.racq ..
  | rrel => exact Encoding.rrel ..
  | incu => exact Encoding.incu ..
  | incrd => exact Encoding.incrd ..
  | incrdHome => exact Encoding.incrdHome ..
  | bnd => exact Encoding.bnd ..
  | defer => exact Encoding.defer ..
  | popen => exact Encoding.popen ..
  | accept => exact Encoding.accept ..
  | pclose => exact Encoding.pclose ..
  | launch => exact Encoding.launch ..
  | signal => exact Encoding.signal ..
  | signalAdd => exact Encoding.signalAdd ..
  | orbitSize => exact Encoding.orbitSize ..
  | orbitStab => exact Encoding.orbitStab ..
  | orbitImg => exact Encoding.orbitImg ..
  | role => exact Encoding.role ..
  | stgw => exact Encoding.stgw ..
  | stga => exact Encoding.stga ..
  | copyG2s => exact Encoding.copyG2s ..
  | copyS2g => exact Encoding.copyS2g ..
  | gath => exact Encoding.gath ..
  | scat => exact Encoding.scat ..
  | wait => exact Encoding.wait ..
  | sleep => exact Encoding.sleep ..
  | subs => exact Encoding.subs ..
  | unsub => exact Encoding.unsub ..
  | troupe => exact Encoding.troupe ..
  | mopf => exact Encoding.mopf ..
  | mma => exact Encoding.mma ..
  | mld => exact Encoding.mld ..
  | mst => exact Encoding.mst ..
  | mcont => exact Encoding.mcont ..
  | wbload => exact Encoding.wbload ..
  | cgrp => exact Encoding.cgrp ..
  | cgrpFree => exact Encoding.cgrpFree ..
  | cag => exact Encoding.cag ..
  | crs => exact Encoding.crs ..
  | ca2a => exact Encoding.ca2a ..
  | cbar => exact Encoding.cbar ..
  | cwait => exact Encoding.cwait ..
  | ckpt => exact Encoding.ckpt ..
  | ckptHold => exact Encoding.ckptHold ..
  | perfSel => exact Encoding.perfSel ..
  | perfSmp => exact Encoding.perfSmp ..
  | _ => exact Encoding.device

/-- R58, R68: the fields of a legal instruction are that instruction's and no other's. -/
theorem ofRaw_rawOf {i : Instr} (hl : legal i = true) : ofRaw (rawOf i) = some i := by
  rw [ofRaw, parse_rawOf i hl]
  exact if_pos ⟨rfl, hl⟩

theorem encode_eq {i : Instr} {h : Hd} (hh : hdOf i = some h) : encode i = wordsOf (rawOf i) := by rw [encode, hh]

theorem hdOf_of_legal {i : Instr} (hl : legal i = true) : ∃ h, hdOf i = some h := by
  cases hh : hdOf i with
  | none => simp [legal, hh] at hl
  | some h => exact ⟨h, rfl⟩

/-- R49 to R51, R58, R67, R68: the words of a legal instruction decode to it, whatever follows them. -/
theorem decodeWords_encode {i : Instr} (hl : legal i = true) (rest : List Word) : decodeWords (encode i ++ rest) = .ok i := by
  obtain ⟨h, hh⟩ := hdOf_of_legal hl
  rw [encode_eq hh, decodeWords_wordsOf (fits_rawOf i), ofRaw_rawOf hl]
  rfl

/-! ## Lengths -/

theorem lenCode_rawTile (h : Hd) (op tile : Nat) : lenCode (rawTile h op tile).ext = lenCode h.ext := by
  unfold rawTile
  split
  · next lo hi he => rw [he]; rfl
  · rfl

/-- R50, R51: an instruction whose header says its length has the words that follow word0 from it. -/
theorem lenBits_of_lenCode {i : Instr} {h : Hd} (hf : fixedLen i = none) (hh : hdOf i = some h)
    (he : lenCode (rawOf i).ext = lenCode h.ext) : lenBits i = 64 + 32 * lenCode (rawOf i).ext := by
  unfold lenBits
  rw [hf, hh, he]
  cases hx : h.ext <;> simp [hx, lenCode]

/-- R49, R80: the length of a legal instruction is that of its words. -/
theorem lenBits_eq {i : Instr} (hl : legal i = true) : lenBits i = 64 + 32 * lenCode (rawOf i).ext := by
  cases i with
  | nop | brx | callRegister | ret | exit | trap | getsr | setsr | setsrKey | setsrPerf | yield | add | sub | mul | mulhi
  | mad | div | rem | neg | abs | min | max | and | or | xor | not | shl | shr | sar | rol | ror | popc | clz | ctz | brev
  | bfe | bfi | sel | mov | setp | plog | addc | lea | fadd | fsub | fmul | ffma | fnfma | fdiv | fsqrt | frcp | frsq | fmin
  | fmax | fabs | fneg | fsetp | fclass | frnd | fcpsgn | fscale | fexpo | fmant | f2sum | f2prod | fdot2 | fpfma | cvt
  | pack | unpk | qnt | qntIns | fexp2 | flog2 | rand | seed | wclr | wclrStat | wadd | wsub | wmul2 | wmul3 | wsgn | wrnd
  | wmov | wld | wst | ld | st | imageStore | atom | cas | red | fenceAcq | fenceRel | fenceFull | prefL1 | prefL2 | invalL1
  | invalAll | invalRdc | flush | flushAll | ldesc | sdesc | dalloc | dallocZ | dfree | spawnRegister | barSync | barArv
  | barEsync | barEarv | barRgn | voteAll | voteAny | voteBallot | voteUni | shfl | gred | gscan | matchAny | matchAll
  | racq | rrel | incu | incrd | incrdHome | bnd | defer | popen | accept | pclose | launch | signal | signalAdd | orbitSize
  | orbitStab | orbitImg | role | stgw | stga | copyG2s | copyS2g | gath | scat | sleep | subs | unsub | troupe | mopf
  | wbload | cgrp | cgrpFree | cag | crs | ca2a | cbar | cwait | ckpt | ckptHold | perfSel | perfSmp =>
    exact lenBits_of_lenCode rfl rfl rfl
  | br | callLabel | spawnLabel | wait | mma => rfl
  | tret h | brk h =>
    have he : h.ext = .none := ext_none_of_fixedLen rfl hl rfl (by decide)
    change 64 = 64 + 32 * lenCode h.ext
    rw [he]
    rfl
  | mld h o => exact lenBits_of_lenCode rfl rfl (lenCode_rawTile ..)
  | mst h o => exact lenBits_of_lenCode rfl rfl (lenCode_rawTile ..)
  | mcont h tile => exact lenBits_of_lenCode rfl rfl (lenCode_rawTile ..)
  | _ => cases hl

theorem lenBytes_eq {i : Instr} (hl : legal i = true) : lenBytes i = 8 + 4 * lenCode (rawOf i).ext := by
  rw [lenBytes, lenBits_eq hl]
  omega

theorem length_wordsOf (r : Raw) : (wordsOf r).length = 2 + lenCode r.ext := by
  unfold wordsOf
  cases r.ext <;> rfl

/-- R49: a legal instruction has a word for each four of its bytes. -/
theorem length_encode {i : Instr} (hl : legal i = true) : 4 * (encode i).length = lenBytes i := by
  obtain ⟨h, hh⟩ := hdOf_of_legal hl
  rw [encode_eq hh, length_wordsOf, lenBytes_eq hl]
  omega

/-- R51: the first word says the length. -/
theorem lenOf_word0 (r : Raw) : lenOf (BitVec.ofNat 32 (word0 r)) = some (8 + 4 * lenCode r.ext) := by
  unfold lenOf
  rw [word0_mod_four]
  cases r.ext <;> rfl

/-- R51: a legal instruction begins with a word that is no fill word and says its length. -/
theorem encode_head {i : Instr} (hl : legal i = true) :
    ∃ w ws, encode i = w :: ws ∧ w ≠ fillWord ∧ lenOf w = some (lenBytes i) := by
  obtain ⟨h, hh⟩ := hdOf_of_legal hl
  exact ⟨_, _, encode_eq hh, word0_ne_fill _, by rw [lenOf_word0, lenBytes_eq hl]⟩

end Sys2Proof.Laws
end

section
/-! Proof of O54: what a fetch finds at the bytes of an instruction, and what the instruction cache takes. -/

namespace Sys2Proof.Machine

open Sys2Proof.Laws

/-! ## Words in memory -/

/-- R6: a word is the little-endian number of its bytes. -/
theorem leNat_wordBytes (w : Word) : BitVec.ofNat 32 (leNat (wordBytes w)) = w := by
  apply BitVec.eq_of_toNat_eq
  simp only [wordBytes, leNat, BitVec.toNat_ofNat, BitVec.extractLsb'_toNat, Nat.shiftRight_eq_div_pow]
  omega

/-- R6: byte k of word j stands at place 4j + k. -/
theorem getElem_wordBytes (ws : List Word) (j k : Nat) (hk : k < 4) :
    (ws.flatMap wordBytes)[4 * j + k]? = (ws[j]?).bind fun w => (wordBytes w)[k]? := by
  induction ws generalizing j with
  | nil => simp
  | cons w ws ih =>
    have hlen : (wordBytes w).length = 4 := rfl
    rw [List.flatMap_cons]
    cases j with
    | zero => rw [List.getElem?_append_left (by omega)]; simp
    | succ j =>
      rw [List.getElem?_append_right (by omega), hlen, show 4 * (j + 1) + k - 4 = 4 * j + k by omega, ih]
      rfl

/-- A run of keys, place by place. -/
theorem getElem_findAll {β : Type} (d : β) (k n i : Nat) (m : AMap β) :
    (findAll d k n m)[i]? = if i < n then some (find d (k + i) m) else none := by
  unfold findAll
  split_ifs with hi
  · simp [hi]
  · simp [Nat.le_of_not_lt hi]

/-- R6: memory that holds the bytes of a word gives the word. -/
theorem memNat_eq_word {s : State} {pa : Nat} {w : Word} (h : ∀ k b, (wordBytes w)[k]? = some b → memByte s (pa + k) = b) :
    BitVec.ofNat 32 (memNat s pa 4) = w := by
  have hb : findAll 0 pa 4 s.mem = wordBytes w := by
    apply List.ext_getElem?
    intro k
    have hr : (findAll (0 : Byte) pa 4 s.mem)[k]? = if k < 4 then some (memByte s (pa + k)) else none := getElem_findAll ..
    rw [hr]
    split_ifs with hk
    · have hlt : k < (wordBytes w).length := hk
      rw [h k _ (List.getElem?_eq_getElem hlt), List.getElem?_eq_getElem hlt]
    · exact (List.getElem?_eq_none (Nat.le_of_not_lt hk)).symm
  rw [memNat, hb, leNat_wordBytes]

/-! ## The instruction cache -/

/-- The words that a home block holds are those of memory. -/
theorem take_homeBlock (s : State) (a : Nat) (ha : a % 32 + 4 ≤ 32) :
    ((homeBlock s (blockOf a)).drop (a % 32)).take 4 = findAll 0 a 4 s.mem := by
  have haddr (k : Nat) : 32 * (a / 32) + (a % 32 + k) = a + k := by omega
  apply List.ext_getElem?
  intro k
  rw [List.getElem?_take, List.getElem?_drop, homeBlock, getElem_findAll, getElem_findAll, blockOf, haddr]
  split_ifs with hk hb
  · rfl
  · omega
  · rfl

/-- R3: a word of a block that the cache does not hold, or holds as the home does, is the home's. -/
theorem instrWord_eq {s : State} {core a : Nat} (ha : a % 32 + 4 ≤ 32)
    (hc : look (blockOf a) (coreOf s core).icache = none ∨ look (blockOf a) (coreOf s core).icache = some (homeBlock s (blockOf a))) :
    instrWord s core a = BitVec.ofNat 32 (memNat s a 4) := by
  unfold instrWord
  obtain hn | hs := hc
  · rw [hn]
  · rw [hs]
    dsimp only
    rw [take_homeBlock s a ha, memNat]

theorem length_ins_le {β : Type} (k : Nat) (x : β) (m : AMap β) : (ins k x m).length ≤ m.length + 1 := by
  induction m with
  | nil => simp [ins]
  | cons u m ih =>
    unfold ins
    split_ifs
    · simp
    · simp
    · simp only [List.length_cons]; omega

/-- R3, R250: a block that the cache does not hold comes from its home, and the cache keeps to its size. -/
theorem fetchBlock_of_miss {s : State} {core b : Nat} (hm : look b (coreOf s core).icache = none) :
    look b (coreOf (fetchBlock core b s) core).icache = some (homeBlock s b) ∧ (fetchBlock core b s).mem = s.mem ∧
      ((coreOf s core).icache.length ≤ icBlocks → (coreOf (fetchBlock core b s) core).icache.length ≤ icBlocks) := by
  unfold fetchBlock
  rw [hm]
  dsimp only
  have hcore (f : Core → Core) (u : State) : coreOf (updCore core f u) core = f (coreOf u core) := by
    simp [coreOf, updCore, look_ins_same]
  split_ifs with hn
  · rw [hcore]
    refine ⟨look_ins_same, rfl, fun _ => ?_⟩
    have := length_ins_le b (homeBlock s b) (coreOf s core).icache
    dsimp only at this ⊢
    omega
  · rw [hcore]
    refine ⟨look_ins_same, rfl, fun hsize => ?_⟩
    have hpos : 0 < (coreOf s core).icache.length := by
      have : icBlocks = 2048 := rfl
      omega
    have hlt := Nat.mod_lt (freshVal s).1.toNat hpos
    have hins := length_ins_le b (homeBlock s b) ((coreOf s core).icache.eraseIdx ((freshVal s).1.toNat % (coreOf s core).icache.length))
    rw [List.length_eraseIdx_of_lt hlt] at hins
    exact hins.trans (by omega)

/-! ## A fetch -/

/-- R70: words that are translated and read one by one are fetched. -/
theorem fetchWords_ok {s : State} {g : Gang} {ws : List Word} {va pa : Nat}
    (ht : ∀ j, j < ws.length → translate s g needX (va + 4 * j) = .pa (pa + 4 * j))
    (hw : ∀ j w, ws[j]? = some w → instrWord s g.core (pa + 4 * j) = w) : fetchWords s g va ws.length = .ok ws := by
  induction ws generalizing va pa with
  | nil => rfl
  | cons w ws ih =>
    have h0 := ht 0 (by simp)
    have hi := hw 0 w rfl
    have hrest : fetchWords s g (va + 4) ws.length = .ok ws := by
      refine ih (pa := pa + 4) (fun j hj => ?_) fun j v hv => ?_
      · have := ht (j + 1) (by simpa using hj)
        rwa [show va + 4 + 4 * j = va + 4 * (j + 1) by ring, show pa + 4 + 4 * j = pa + 4 * (j + 1) by ring]
      · rw [show pa + 4 + 4 * j = pa + 4 * (j + 1) by ring]
        exact hw (j + 1) v hv
    rw [List.length_cons, fetchWords]
    simp only [Nat.mul_zero, Nat.add_zero] at h0 hi
    rw [h0]
    dsimp only
    rw [hrest, hi]

/-- R49 to R51: a fetch finds the legal instruction whose words it reads, where it crosses no block. -/
theorem fetch_instr {s : State} {g : Gang} {pc : Pc} {pa : Nat} {i : Instr} (hl : i.WellFormed)
    (hb : pc.toNat / 32 = (pc.toNat + lenBytes i - 1) / 32)
    (ht : ∀ j, j < (encode i).length → translate s g needX (pc.toNat + 4 * j) = .pa (pa + 4 * j))
    (hw : ∀ j w, (encode i)[j]? = some w → instrWord s g.core (pa + 4 * j) = w) : fetch s g pc = .instr i := by
  obtain ⟨w, ws, he, hfill, hlen⟩ := encode_head hl
  have hall : fetchWords s g pc.toNat (encode i).length = .ok (encode i) := fetchWords_ok ht hw
  have hfirst : fetchWords s g pc.toNat 1 = .ok [w] := by
    refine fetchWords_ok (ws := [w]) (pa := pa) (fun j hj => ht j ?_) fun j v hv => hw j v ?_
    · rw [he]; simp at hj ⊢; omega
    · cases j with
      | zero => rw [he]; exact hv
      | succ j => cases hv
  have hn : lenBytes i / 4 = (encode i).length := by
    have := length_encode hl
    omega
  have hd : decodeWords (encode i) = .ok i := by simpa using decodeWords_encode hl []
  unfold fetch
  dsimp only
  simp only [hfirst, List.headD_cons, if_neg hfill, hlen, ← hb, if_true, hn, hall, ne_eq, not_true, if_false, hd]

/-- R3, R6: the bytes of an instruction in memory are its words at a fetch. -/
theorem fetch_encoded {s : State} {g : Gang} {pc : Pc} {pa : Nat} {i : Instr} (hl : i.WellFormed)
    (hb : pc.toNat / 32 = (pc.toNat + lenBytes i - 1) / 32) (hpa : pa % 32 = pc.toNat % 32)
    (hc : look (blockOf pa) (coreOf s g.core).icache = none ∨
      look (blockOf pa) (coreOf s g.core).icache = some (homeBlock s (blockOf pa)))
    (ht : ∀ j, j < (encode i).length → translate s g needX (pc.toNat + 4 * j) = .pa (pa + 4 * j))
    (hm : ∀ (j : Nat) (b : Byte), (encodeBytes i)[j]? = some b → memByte s (pa + j) = b) : fetch s g pc = .instr i := by
  refine fetch_instr hl hb ht fun j w hw => ?_
  have hlen := length_encode hl
  have hj : j < (encode i).length := (List.getElem?_eq_some_iff.mp hw).1
  have hblock : blockOf (pa + 4 * j) = blockOf pa := by unfold blockOf; omega
  rw [instrWord_eq (by omega) (by rwa [hblock])]
  refine memNat_eq_word fun k b hk => ?_
  have hk4 : k < 4 := (List.getElem?_eq_some_iff.mp hk).1
  rw [Nat.add_assoc]
  refine hm (4 * j + k) b ?_
  rw [encodeBytes, getElem_wordBytes _ _ _ hk4, hw]
  exact hk

/-! ## A step -/

/-- R3, R51, R365, R382: where a decoded instruction has no fault of decoding and no fault of a split operation is due, it runs. -/
theorem issueAt_instr {v : State} {k : Nat} {g : Gang} {group : BitVec 64} {pc : Pc} {i : Instr} (hf : fetch v g pc = .instr i)
    (hdec : decodeFault v g i = none) (hdel : deliverFault k v = none) :
    issueAt k g group pc v = exec i { v with cur := ⟨k, group, pc⟩ } := by
  unfold issueAt
  rw [hf]
  dsimp only
  rw [hdec, hdel]

/-- R156, R157, R383: with no trap due, a gang's turn comes to the issue of the group that is picked, once the dead copies are
dropped, the guards tested, the fill words passed and the blocks fetched. -/
theorem gangTurn_issues {u v : State} {k : Nat} {g g' : Gang} {group : BitVec 64} {pc : Pc} (hg : look k u.gangs = some g)
    (hdue : pendDue u k g = false) (hv : fetchBlocks k (settleFills k (fetchBlocks k (guardGang k (dropStale g.core u)))) = v)
    (hg' : look k v.gangs = some g') (hruns : gangRuns v k g' = true) (hdue' : pendDue v k g' = false)
    (hpick : pickGroup v k g' = some (group, pc)) : gangTurn k u = issueAt k g' group pc v := by
  unfold gangTurn
  simp only [hg, hdue, hv, hg', hruns, hdue', hpick, Bool.not_true, Bool.false_eq_true, if_false]

/-- Settles O54: the step comes to the issue of the decoded instruction; a fetch finds the instruction whose bytes stand at the
PC, since decoding undoes encoding; and a block that misses is taken from its home. -/
theorem stepRunsDecoded : Obligations.StepRunsDecoded := by
  refine ⟨?_, fun s g pc pa i hl hb hpa hc ht hm => fetch_encoded hl hb hpa hc ht hm, fun s core b hm => fetchBlock_of_miss hm⟩
  intro s k g g' group pc i u hmove hg hdue v hg' hruns hdue' hpick hfetch hdec hdel
  have hstep : step s = gangTurn k u := by
    unfold step
    dsimp only
    rw [hmove]
    rfl
  rw [hstep, gangTurn_issues hg hdue rfl hg' hruns hdue' hpick, issueAt_instr hfetch hdec hdel]

end Sys2Proof.Machine
end

section
/-! Proof of O58, first part: what the state operations of the instructions keep of the module. -/

namespace Sys2Proof.Machine

/-! ## The module, seen apart from the machine that computes in it -/

/-- R4, R421, R426, R432: what of the state belongs to the module and not to the programs that run on it; of a queue
everything but the note of a wake. -/
structure ModuleView where
  clk : Dword
  boot : Boot
  conns : AMap Conn
  power : Power
  links : List (Nat × Nat)
  ptp : Ptp
  runTree : AMap RunNode
  faults : List JobFault
  inbox : List Instr
  islands : AMap Island
  queues : AMap Queue

/-- A queue without its note of a wake. -/
def unpoked (q : Queue) : Queue := { q with poked := false }

def moduleOf (s : State) : ModuleView :=
  ⟨s.clk, s.boot, s.conns, s.power, s.links, s.ptp, s.runTree, s.faults, s.inbox, s.islands, s.queues.map fun u => (u.1, unpoked u.2)⟩

variable {s : State}

/-- What each step of a loop keeps, the loop keeps. -/
theorem moduleOf_foldl {α : Type} {f : State → α → State} (h : ∀ s a, moduleOf (f s a) = moduleOf s) (l : List α) (s : State) :
    moduleOf (l.foldl f s) = moduleOf s :=
  List.foldlRecOn (motive := fun t => moduleOf t = moduleOf s) l f rfl fun t ht a _ => (h t a).trans ht

/-- The same of a loop that gathers results on its way. -/
theorem moduleOf_foldl_snd {α β : Type} {f : β × State → α → β × State} (h : ∀ z a, moduleOf (f z a).2 = moduleOf z.2) (l : List α)
    (z : β × State) : moduleOf (l.foldl f z).2 = moduleOf z.2 :=
  List.foldlRecOn (motive := fun t => moduleOf t.2 = moduleOf z.2) l f rfl fun t ht a _ => (h t a).trans ht

theorem moduleOf_ite {c : Prop} [Decidable c] {a b : State} (ha : moduleOf a = moduleOf s) (hb : moduleOf b = moduleOf s) :
    moduleOf (if c then a else b) = moduleOf s := by
  split
  · exact ha
  · exact hb

/-! ## Updates of one object -/

@[simp] theorem moduleOf_updGang (k : Nat) (f : Gang → Gang) : moduleOf (updGang k f s) = moduleOf s := rfl
@[simp] theorem moduleOf_updCore (c : Nat) (f : Core → Core) : moduleOf (updCore c f s) = moduleOf s := rfl
@[simp] theorem moduleOf_updCrew (k : Nat) (f : Crew → Crew) : moduleOf (updCrew k f s) = moduleOf s := rfl
@[simp] theorem moduleOf_updCtx (k : Nat) (f : Ctx → Ctx) : moduleOf (updCtx k f s) = moduleOf s := rfl
@[simp] theorem moduleOf_updOp (k : Nat) (f : MemOp → MemOp) : moduleOf (updOp k f s) = moduleOf s := rfl
@[simp] theorem moduleOf_updGroup (k : Nat) (f : Group → Group) : moduleOf (updGroup k f s) = moduleOf s := rfl
@[simp] theorem moduleOf_mapReqs (f : Req → Req) : moduleOf (mapReqs f s) = moduleOf s := rfl
@[simp] theorem moduleOf_setByte (a : Nat) (b : Byte) : moduleOf (setByte a b s) = moduleOf s := rfl
@[simp] theorem moduleOf_freshId : moduleOf (freshId s).2 = moduleOf s := rfl
@[simp] theorem moduleOf_freshVal : moduleOf (freshVal s).2 = moduleOf s := rfl
@[simp] theorem moduleOf_freshCoin : moduleOf (freshCoin s).2 = moduleOf s := rfl

@[simp] theorem moduleOf_withFresh (n : Nat) : moduleOf { s with fresh := n } = moduleOf s := rfl
@[simp] theorem moduleOf_withNextId (n : Nat) : moduleOf { s with nextId := n } = moduleOf s := rfl

@[simp] theorem moduleOf_setBytes (bs : List (Nat × Byte)) : moduleOf (setBytes bs s) = moduleOf s := by
  refine moduleOf_foldl (fun s b => ?_) bs s
  rfl

/-! ## Counters, traps and the end of an issue -/

@[simp] theorem moduleOf_perfCount (core ctx code n : Nat) : moduleOf (perfCount core ctx code n s) = moduleOf s :=
  moduleOf_ite rfl rfl

@[simp] theorem moduleOf_escalate (k : Nat) (g : Gang) (recs : List TrapRec) : moduleOf (escalate k g recs s) = moduleOf s := rfl

@[simp] theorem moduleOf_takeTrapRecs (k : Nat) (recs : List TrapRec) : moduleOf (takeTrapRecs k recs s) = moduleOf s := by
  unfold takeTrapRecs
  split
  · rfl
  · split
    · rfl
    · split_ifs <;> simp

@[simp] theorem moduleOf_decodeTrap (k : Nat) (group : BitVec 64) (pc : Pc) (c : Word) (addr : Dword) :
    moduleOf (decodeTrap k group pc c addr s) = moduleOf s := moduleOf_takeTrapRecs ..

@[simp] theorem moduleOf_settle (k : Nat) : moduleOf (settle k s) = moduleOf s := by
  unfold settle
  split
  · rfl
  · split_ifs <;> simp

@[simp] theorem moduleOf_finish (i : Instr) (h : Hd) (k : Nat) (group act : BitVec 64) :
    moduleOf (finish i h k group act s) = moduleOf s := by
  unfold finish
  dsimp only
  split_ifs
  · split
    · simp
    · split_ifs <;> simp
  · simp

/-! ## Fibres that end, and what ends with them -/

@[simp] theorem moduleOf_perLane (x : Iss) (fn : Nat → Fibre → Lane) : moduleOf (perLane x fn s) = moduleOf s := rfl
@[simp] theorem moduleOf_faultAll (x : Iss) (c : Word) (addr : Dword) : moduleOf (faultAll x c addr s) = moduleOf s := rfl
@[simp] theorem moduleOf_raiseFaults (x : Iss) (recs : List TrapRec) : moduleOf (raiseFaults x recs s) = moduleOf s := rfl
@[simp] theorem moduleOf_waitAt (x : Iss) (m : BitVec 64) (w : WaitKind) : moduleOf (waitAt x m w s) = moduleOf s := rfl
@[simp] theorem moduleOf_gwaitAt (x : Iss) (w : WaitKind) : moduleOf (gwaitAt x w s) = moduleOf s := rfl
@[simp] theorem moduleOf_settleSaved (k : Nat) : moduleOf (settleSaved k s) = moduleOf s := rfl

@[simp] theorem moduleOf_keepGone (k : Nat) (g : Gang) : moduleOf (keepGone k g s) = moduleOf s := moduleOf_ite rfl rfl

@[simp] theorem moduleOf_leaveLatch (k : Nat) (g : Gang) : moduleOf (leaveLatch k g s) = moduleOf s := by
  unfold leaveLatch
  rw [moduleOf_updCore]
  refine moduleOf_foldl (fun s e => moduleOf_foldl (fun s a => ?_) _ _) _ _
  split
  · exact moduleOf_ite rfl rfl
  · rfl

@[simp] theorem moduleOf_magsHome (core ctx : Nat) : moduleOf (magsHome core ctx s) = moduleOf s := by
  unfold magsHome
  refine moduleOf_ite rfl ?_
  dsimp only
  rw [moduleOf_foldl fun _ _ => moduleOf_updCtx _ _, moduleOf_updCore]

@[simp] theorem moduleOf_crewGone (k : Nat) : moduleOf (crewGone k s) = moduleOf s := by
  unfold crewGone
  split
  · rfl
  · dsimp only
    split_ifs
    · rfl
    · rfl
    · split
      · rfl
      · split
        · split_ifs <;> rfl
        · rfl

@[simp] theorem moduleOf_gangScalar (k : Nat) (d : Opnd) (v : Dword) : moduleOf (gangScalar k d v s) = moduleOf s := by
  unfold gangScalar
  split <;> rfl

@[simp] theorem moduleOf_putScalar (x : Iss) (bits : Nat) (d : Opnd) (v : Dword) : moduleOf (putScalar x bits d v s) = moduleOf s := by
  unfold putScalar
  split <;> rfl

@[simp] theorem moduleOf_wakeColl : moduleOf (wakeColl s) = moduleOf s := by
  refine moduleOf_foldl (fun s g => moduleOf_foldl (fun s w => ?_) _ _) _ _
  split <;> simp

@[simp] theorem moduleOf_dissolve (grp : Nat) : moduleOf (dissolve grp s) = moduleOf s := moduleOf_wakeColl.trans rfl

@[simp] theorem moduleOf_endCrew (k : Nat) : moduleOf (endCrew k s) = moduleOf s :=
  (moduleOf_crewGone k).trans (moduleOf_foldl (fun _ _ => moduleOf_dissolve _) _ s)

theorem moduleOf_gangsWalks (gs : AMap Gang) (ws : AMap Walk) : moduleOf { s with gangs := gs, walks := ws } = moduleOf s := rfl

@[simp] theorem moduleOf_endGang (k : Nat) : moduleOf (endGang k s) = moduleOf s := by
  unfold endGang
  split
  · rfl
  · refine moduleOf_ite rfl ?_
    dsimp only
    split
    · refine moduleOf_ite ?_ ?_ <;>
        simp only [moduleOf_endCrew, moduleOf_settleSaved, moduleOf_magsHome, moduleOf_updCrew, moduleOf_gangsWalks,
          moduleOf_updCore, moduleOf_keepGone, moduleOf_leaveLatch]
    · simp only [moduleOf_magsHome, moduleOf_updCrew, moduleOf_gangsWalks, moduleOf_updCore, moduleOf_keepGone,
        moduleOf_leaveLatch]

@[simp] theorem moduleOf_endLanes (k : Nat) (m : BitVec 64) : moduleOf (endLanes k m s) = moduleOf s := by
  unfold endLanes
  split
  · rfl
  · exact moduleOf_endGang k

/-! ## The replay log -/

@[simp] theorem moduleOf_logAppend (g : Gang) (va : Dword) (kind lane : Nat) (payload : List Byte) :
    moduleOf (logAppend g va kind lane payload s) = moduleOf s := by
  unfold logAppend
  split
  · split
    · split_ifs
      · rfl
      · exact moduleOf_setBytes _
    · rfl
  · rfl

@[simp] theorem moduleOf_logValue (k lane : Nat) (v : Dword) : moduleOf (logValue k lane v s) = moduleOf s := by
  unfold logValue
  split
  · exact moduleOf_logAppend ..
  · rfl

@[simp] theorem moduleOf_logGetsr (x : Iss) (idx : Nat) (v : Dword) : moduleOf (logGetsr x idx v s) = moduleOf s :=
  moduleOf_ite (moduleOf_foldl (fun _ _ => moduleOf_logValue ..) _ s) rfl

@[simp] theorem moduleOf_logRead (k va : Nat) (bytes : List Byte) : moduleOf (logRead k va bytes s) = moduleOf s := by
  unfold logRead
  split
  · rfl
  · split_ifs
    · exact moduleOf_logAppend ..
    · rfl

@[simp] theorem moduleOf_logOp (o : MemOp) : moduleOf (logOp o s) = moduleOf s := by
  have hlines : moduleOf (o.lines.foldl (fun s l => logRead o.gang l.1 (seenLine s o l.2) s) s) = moduleOf s :=
    moduleOf_foldl (fun _ _ => moduleOf_logRead ..) _ s
  exact moduleOf_ite ((moduleOf_foldl (fun _ _ => moduleOf_logValue ..) _ _).trans hlines) hlines

/-! ## Caches and requests -/

@[simp] theorem moduleOf_pushReq (op core ctx line : Nat) (act : ReqAct) : moduleOf (pushReq op core ctx line act s) = moduleOf s :=
  (moduleOf_perfCount ..).trans rfl

@[simp] theorem moduleOf_startWalks (k : Nat) (g : Gang) (need : Need) (vas : List Nat) :
    moduleOf (startWalks k g need vas s) = moduleOf s := by
  refine moduleOf_foldl (fun s va => moduleOf_ite rfl ?_) vas s
  exact (moduleOf_perfCount ..).trans rfl

@[simp] theorem moduleOf_poisonL1 (core : Nat) (hit : Nat → Bool) : moduleOf (poisonL1 core hit s) = moduleOf s := rfl
@[simp] theorem moduleOf_discardL1 (core : Nat) (hit : Nat → Bool) : moduleOf (discardL1 core hit s) = moduleOf s := rfl
@[simp] theorem moduleOf_dropRdc (die line : Nat) : moduleOf (dropRdc die line s) = moduleOf s := rfl
@[simp] theorem moduleOf_discardRdc (die : Nat) (hit : Nat → Bool) : moduleOf (discardRdc die hit s) = moduleOf s := rfl

@[simp] theorem moduleOf_mergeUo (core : Nat) (hit : Nat → Bool) : moduleOf (mergeUo core hit s) = moduleOf s := by
  unfold mergeUo
  dsimp only
  refine moduleOf_ite ?_ ?_
  · refine moduleOf_foldl (fun s u => ?_) _ s
    rw [moduleOf_pushReq, moduleOf_discardL1]
  · rw [moduleOf_updCore]
    refine moduleOf_foldl (fun s u => ?_) _ s
    rw [moduleOf_pushReq, moduleOf_discardL1]

@[simp] theorem moduleOf_evictL1 (core line : Nat) : moduleOf (evictL1 core line s) = moduleOf s := moduleOf_mergeUo ..

@[simp] theorem moduleOf_makeRoom (core line : Nat) : moduleOf (makeRoom core line s) = moduleOf s :=
  moduleOf_ite rfl ((moduleOf_evictL1 ..).trans rfl)

@[simp] theorem moduleOf_serveLine (op core ctx : Nat) (bypass : Bool) (line : Nat) (secs : List Nat) (a : Served × State) :
    moduleOf (serveLine op core ctx bypass line secs a).2 = moduleOf a.2 := by
  unfold serveLine
  dsimp only [freshCoin]
  split_ifs <;>
    simp only [moduleOf_pushReq, moduleOf_dropRdc, moduleOf_withFresh, moduleOf_updCore, moduleOf_makeRoom, moduleOf_perfCount,
      moduleOf_mergeUo]

@[simp] theorem moduleOf_serveLoad (op core ctx : Nat) (bypass : Bool) (keys : List Nat) :
    moduleOf (serveLoad op core ctx bypass keys s).2 = moduleOf s :=
  moduleOf_foldl_snd (fun z _ => moduleOf_serveLine (a := z) ..) _ _

@[simp] theorem moduleOf_acquireAt (core : Nat) (sc : Scope) : moduleOf (acquireAt core sc s) = moduleOf s := by
  cases sc <;> rfl

theorem moduleOf_keepSome : ∀ (ls : List Nat) (s : State), moduleOf (keepSome ls s).2 = moduleOf s
  | [], _ => rfl
  | _ :: ls, s => (moduleOf_keepSome ls (freshCoin s).2).trans rfl

@[simp] theorem moduleOf_writeDescs (op core ctx line : Nat) (ds : List (Nat × BitVec 16)) :
    moduleOf (writeDescs op core ctx line ds s) = moduleOf s := by
  rw [writeDescs, moduleOf_pushReq, moduleOf_poisonL1, moduleOf_updCore]

@[simp] theorem moduleOf_contribute (core ctx : Nat) (op : Red) (t : Ty) (addr : Nat) (v : Dword) :
    moduleOf (contribute core ctx op t addr v s) = moduleOf s := by
  rw [contribute, moduleOf_updCore, moduleOf_makeRoom]
  split
  · exact moduleOf_ite rfl (moduleOf_mergeUo ..)
  · rfl

/-! ## Samples, operations and their ends -/

@[simp] theorem moduleOf_memSample (x : Iss) (code sect hit : Nat) : moduleOf (memSample x code sect hit s).2 = moduleOf s := by
  unfold memSample
  dsimp only
  split_ifs <;> rfl

@[simp] theorem moduleOf_putSample (core : Nat) (bytes : List Byte) : moduleOf (putSample core bytes s) = moduleOf s :=
  moduleOf_ite (moduleOf_setBytes _) (moduleOf_perfCount ..)

@[simp] theorem moduleOf_putSmp (o : Option Smp) : moduleOf (putSmp o s) = moduleOf s := by
  cases o
  · rfl
  · exact moduleOf_putSample ..

@[simp] theorem moduleOf_sampleNow (x : Iss) (code sect hit : Nat) : moduleOf (sampleNow x code sect hit s) = moduleOf s :=
  (moduleOf_putSmp _).trans (moduleOf_memSample ..)

theorem moduleOf_withOps (os : AMap MemOp) : moduleOf { s with ops := os } = moduleOf s := rfl

@[simp] theorem moduleOf_finishOp (id : Nat) : moduleOf (finishOp id s) = moduleOf s := by
  unfold finishOp
  split
  · rfl
  · refine moduleOf_ite rfl ?_
    dsimp only
    split <;> simp only [moduleOf_acquireAt, moduleOf_updGang, moduleOf_putSmp, moduleOf_logOp, moduleOf_withOps]

@[simp] theorem moduleOf_startOp (o : MemOp) (hold : Bool) : moduleOf (startOp o hold s) = moduleOf s :=
  (moduleOf_finishOp _).trans rfl

@[simp] theorem moduleOf_startSampled (x : Iss) (code sect hit : Nat) (o : MemOp) (hold : Bool) :
    moduleOf (startSampled x code sect hit o hold s) = moduleOf s :=
  (moduleOf_startOp ..).trans (moduleOf_memSample ..)

@[simp] theorem moduleOf_prefOp (x : Iss) (id : Nat) (ls : List Nat) (parts : List Part) (r : Served) :
    moduleOf (prefOp x id ls parts r s) = moduleOf s := moduleOf_startSampled ..

@[simp] theorem moduleOf_flushOp (x : Iss) (hit : Nat → Bool) : moduleOf (flushOp x hit s) = moduleOf s := by
  rw [flushOp]
  dsimp only [freshId]
  rw [moduleOf_startSampled, moduleOf_withNextId, moduleOf_mergeUo]

/-! ## Loads, stores and atomics -/

@[simp] theorem moduleOf_pushPeers (x : Iss) (op : Nat) (reqs : List (Acc × PeerAct)) : moduleOf (pushPeers x op reqs s) = moduleOf s := by
  refine moduleOf_foldl (fun s r => ?_) reqs s
  rfl

@[simp] theorem moduleOf_doLoad (x : Iss) (code : Nat) (space : Space) (bypass : Bool) (unit : Nat) (acq : Option Scope)
    (dst : Opnd × DstFmt) (accs : List Acc) : moduleOf (doLoad x code space bypass unit acq dst accs s) = moduleOf s := by
  unfold doLoad
  dsimp only [freshId]
  split <;> simp only [moduleOf_startSampled, moduleOf_serveLoad, moduleOf_pushPeers, moduleOf_withNextId, moduleOf_raiseFaults]

@[simp] theorem moduleOf_storeLine (op core ctx : Nat) (bs : List (Nat × Byte)) (line : Nat) :
    moduleOf (storeLine op core ctx bs line s) = moduleOf s := by
  rw [storeLine, moduleOf_pushReq, moduleOf_poisonL1, moduleOf_updCore, moduleOf_mergeUo]

@[simp] theorem moduleOf_storeBytes (op core ctx : Nat) (bs : List (Nat × Byte)) : moduleOf (storeBytes op core ctx bs s).2 = moduleOf s := by
  refine moduleOf_foldl (fun s l => ?_) _ s
  exact moduleOf_storeLine ..

@[simp] theorem moduleOf_setSpad (core : Nat) (bs : List (Nat × Byte)) : moduleOf (setSpad core bs s) = moduleOf s := rfl
@[simp] theorem moduleOf_setSpadDesc (core sector : Nat) (d : BitVec 16) : moduleOf (setSpadDesc core sector d s) = moduleOf s := rfl
@[simp] theorem moduleOf_flipPhase (core a : Nat) : moduleOf (flipPhase core a s) = moduleOf s := rfl

@[simp] theorem moduleOf_doStore (x : Iss) (code : Nat) (space : Space) (unit : Nat) (back : Option (Opnd × (Nat → Dword)))
    (accs : List Acc) (data : Nat → List Byte) : moduleOf (doStore x code space unit back accs data s) = moduleOf s := by
  unfold doStore
  dsimp only [freshId]
  split <;> simp only [moduleOf_startSampled, moduleOf_storeBytes, moduleOf_setSpad, moduleOf_pushPeers, moduleOf_withNextId,
    moduleOf_raiseFaults]

@[simp] theorem moduleOf_atomLine (op core ctx : Nat) (as : List AtomOp) (line : Nat) :
    moduleOf (atomLine op core ctx as line s) = moduleOf s := by
  rw [atomLine, moduleOf_pushReq, moduleOf_discardL1, moduleOf_mergeUo]

theorem moduleOf_atomLines (op core ctx : Nat) (as : List AtomOp) (lines : List Nat) :
    moduleOf (lines.foldl (fun s l => atomLine op core ctx as l s) s) = moduleOf s := by
  refine moduleOf_foldl (fun s l => ?_) lines s
  exact moduleOf_atomLine ..

@[simp] theorem moduleOf_atomScratch (core : Nat) (as : List AtomOp) : moduleOf (atomScratch core as s).2 = moduleOf s := by
  refine moduleOf_foldl_snd (fun z a => ?_) as ([], s)
  rfl

@[simp] theorem moduleOf_doAtomic (x : Iss) (code : Nat) (o : Atom) (isCas : Bool) (accs : List Acc) :
    moduleOf (doAtomic x code o isCas accs s) = moduleOf s := by
  unfold doAtomic
  dsimp only [freshId]
  split <;> simp only [moduleOf_startSampled, moduleOf_atomLines, moduleOf_atomScratch, moduleOf_pushPeers, moduleOf_withNextId,
    moduleOf_raiseFaults]

@[simp] theorem moduleOf_fenceOp (kind : FenceKind) (sc : Scope) (x : Iss) : moduleOf (fenceOp kind sc x s) = moduleOf s := by
  unfold fenceOp
  dsimp only [freshId]
  split_ifs <;> simp only [moduleOf_waitAt, moduleOf_withNextId, moduleOf_mergeUo, moduleOf_sampleNow]

/-! ## The heap -/

@[simp] theorem moduleOf_gotAddr (op lane : Nat) (v : Dword) : moduleOf (gotAddr op lane v s) = moduleOf s := rfl
@[simp] theorem moduleOf_olderWords (ctx va n : Nat) : moduleOf (olderWords ctx va n s) = moduleOf s := rfl
@[simp] theorem moduleOf_updHeap (ctx : Nat) (f : Heap → Heap) : moduleOf (updHeap ctx f s) = moduleOf s := rfl
@[simp] theorem moduleOf_setMagazine (core ctx cls : Nat) (m : List Nat) : moduleOf (setMagazine core ctx cls m s) = moduleOf s := rfl
@[simp] theorem moduleOf_takeBlock (core ctx cls b : Nat) (rest : List Nat) : moduleOf (takeBlock core ctx cls b rest s) = moduleOf s := by
  rw [takeBlock, moduleOf_olderWords, moduleOf_discardRdc, moduleOf_discardL1, moduleOf_updHeap, moduleOf_setMagazine]

@[simp] theorem moduleOf_allocFault (k op lane sub : Nat) (addr : Dword) : moduleOf (allocFault k op lane sub addr s) = moduleOf s := rfl

@[simp] theorem moduleOf_serveAlloc (core : Nat) (r : DallocReq) : moduleOf (serveAlloc core r s) = moduleOf s := by
  unfold serveAlloc
  split
  · rw [moduleOf_gotAddr, moduleOf_takeBlock]
  · split_ifs
    · exact moduleOf_gotAddr ..
    · exact moduleOf_allocFault ..
    · exact moduleOf_updCore ..

@[simp] theorem moduleOf_allocDone (k op : Nat) : moduleOf (allocDone k op s) = moduleOf s := by
  unfold allocDone
  split
  · split_ifs
    · rw [moduleOf_updGang, moduleOf_finishOp]
    · rfl
  · rfl

@[simp] theorem moduleOf_dallocOp (z : Bool) (d a : Opnd) (x : Iss) : moduleOf (dallocOp z d a x s) = moduleOf s := by
  unfold dallocOp
  dsimp only [freshId]
  rw [moduleOf_allocDone, moduleOf_updOp, moduleOf_foldl fun _ _ => moduleOf_serveAlloc .., moduleOf_waitAt, moduleOf_startSampled,
    moduleOf_withNextId, moduleOf_raiseFaults]

@[simp] theorem moduleOf_freeBlock (core ctx cls a : Nat) : moduleOf (freeBlock core ctx cls a s) = moduleOf s := moduleOf_ite rfl rfl

/-! ## Spawns, barriers and registers -/

@[simp] theorem moduleOf_enterPool (core : Nat) (r : Rec) : moduleOf (enterPool core r s) = moduleOf s := rfl
@[simp] theorem moduleOf_updSeg (ctx core : Nat) (f : Segment → Segment) : moduleOf (updSeg ctx core f s) = moduleOf s := rfl

@[simp] theorem moduleOf_overflowRec (core : Nat) (r : Rec) : moduleOf (overflowRec core r s) = moduleOf s := by
  unfold overflowRec
  split
  · rfl
  · rw [moduleOf_updSeg, moduleOf_setBytes]

@[simp] theorem moduleOf_spawnOne (x : Iss) (o : Spawn) (i : Nat) (f : Fibre) (t : Pc) : moduleOf (spawnOne x o i f t s) = moduleOf s := by
  unfold spawnOne
  dsimp only
  split_ifs <;> simp only [moduleOf_perLane, moduleOf_updCore, moduleOf_enterPool, moduleOf_overflowRec, moduleOf_raiseFaults]

@[simp] theorem moduleOf_spawnOp (o : Spawn) (target : Fibre → Except (Word × Dword) Pc) (x : Iss) :
    moduleOf (spawnOp o target x s) = moduleOf s := by
  refine moduleOf_foldl (fun s i => ?_) _ s
  split
  · rfl
  · split
    · exact moduleOf_raiseFaults ..
    · exact moduleOf_spawnOne ..

@[simp] theorem moduleOf_updBar (ens : Bool) (owner idx : Nat) (f : Barrier → Barrier) : moduleOf (updBar ens owner idx f s) = moduleOf s :=
  moduleOf_ite rfl rfl

@[simp] theorem moduleOf_barOp (ens sync : Bool) (a b : Opnd) (x : Iss) : moduleOf (barOp ens sync a b x s) = moduleOf s := by
  unfold barOp
  dsimp only [freshId]
  refine (moduleOf_foldl (fun s idx => ?_) _ _).trans ?_
  · split
    · rfl
    · exact moduleOf_ite ((moduleOf_waitAt ..).trans (moduleOf_updBar ..)) (moduleOf_updBar ..)
  · rw [moduleOf_withNextId]
    exact moduleOf_ite (moduleOf_mergeUo ..) rfl

@[simp] theorem moduleOf_setHeld (k n : Nat) : moduleOf (setHeld k n s) = moduleOf s := rfl
@[simp] theorem moduleOf_dropWindow (k : Nat) : moduleOf (dropWindow k s) = moduleOf s := rfl

@[simp] theorem moduleOf_enterRole (k r : Nat) : moduleOf (enterRole k r s) = moduleOf s := by
  unfold enterRole
  split
  · rfl
  · split <;> rfl

/-! ## Launches -/

@[simp] theorem moduleOf_toHub (core ctx k : Nat) (act : IncAct) (op : Option Nat) : moduleOf (toHub core ctx k act op s) = moduleOf s := rfl
@[simp] theorem moduleOf_initInc (ctx : Nat) (x : Nat × Inc) : moduleOf (initInc ctx s x) = moduleOf s := rfl

@[simp] theorem moduleOf_meetLoads (unit : Nat) (old : State) (w : List (Nat × Byte)) : moduleOf (meetLoads unit old w s) = moduleOf s := by
  rw [meetLoads_eq]; rfl

/-- Notes of wakes leave the module as it is. -/
theorem moduleOf_withPoked (cs : AMap Core) (p : Queue → Bool) :
    moduleOf { s with cores := cs, queues := s.queues.map fun u => (u.1, { u.2 with poked := p u.2 }) } = moduleOf s := by
  simp only [moduleOf, List.map_map]
  rfl

/-- R429: a wake that a store writes is noted in its queue, and nothing else of the module changes. -/
@[simp] theorem moduleOf_writeHome (unit : Nat) (bs : List (Nat × Byte)) : moduleOf (writeHome unit bs s) = moduleOf s := by
  rw [writeHome, moduleOf_meetLoads, moduleOf_withPoked _ fun q => q.poked || wakes s (setBytes bs s) (bs.map (·.1)) q,
    moduleOf_setBytes]

@[simp] theorem moduleOf_writeVirt (ctx va : Nat) (bs : List Byte) : moduleOf (writeVirt ctx va bs s) = moduleOf s := moduleOf_writeHome ..

@[simp] theorem moduleOf_acceptLaunch (ctx ltag : Nat) (a : Accepted) (byLaunch : Bool) (queue after : Option Nat) :
    moduleOf (acceptLaunch ctx ltag a byLaunch queue after s) = moduleOf s := by
  unfold acceptLaunch
  dsimp only [freshId]
  split <;> simp only [moduleOf_writeVirt, moduleOf_foldl fun _ _ => moduleOf_initInc _ _, moduleOf_updCtx, moduleOf_withNextId]

@[simp] theorem moduleOf_submit (ctx : Nat) (p : Packet) : moduleOf (submit ctx p s).2 = moduleOf s := by
  unfold submit
  split
  · split_ifs
    · rfl
    · split
      · rfl
      · exact moduleOf_acceptLaunch ..
  · rfl

/-! ## Copies and subscriptions -/

@[simp] theorem moduleOf_copyOp (g2s desc : Bool) (d a b c : Opnd) (x : Iss) : moduleOf (copyOp g2s desc d a b c x s) = moduleOf s := by
  unfold copyOp
  dsimp only
  split <;> rfl

@[simp] theorem moduleOf_acceptCopy (core gang ctx crew : Nat) (act : BitVec 64) (g2s desc gath : Bool) (moves : List CopyMove) (d : Opnd) :
    moduleOf (acceptCopy core gang ctx crew act g2s desc gath moves d s) = moduleOf s := by
  unfold acceptCopy
  dsimp only [freshId]
  rw [moduleOf_gangScalar, moduleOf_updGang, moduleOf_updCore, moduleOf_withNextId, moduleOf_mergeUo]

@[simp] theorem moduleOf_gathOp (t : Ty) (g2s : Bool) (d a b : Opnd) (x : Iss) : moduleOf (gathOp t g2s d a b x s) = moduleOf s := by
  unfold gathOp
  dsimp only
  split
  · rfl
  · exact moduleOf_ite (moduleOf_raiseFaults ..) ((moduleOf_acceptCopy ..).trans (moduleOf_raiseFaults ..))

@[simp] theorem moduleOf_subsOp (d a : Opnd) (x : Iss) : moduleOf (subsOp d a x s) = moduleOf s := by
  unfold subsOp
  dsimp only [freshId]
  split
  · rfl
  · rfl
  · rw [moduleOf_startOp, moduleOf_waitAt, moduleOf_serveLoad, moduleOf_withNextId]

@[simp] theorem moduleOf_updSub (core slot : Nat) (f : Subscription → Subscription) : moduleOf (updSub core slot f s) = moduleOf s := rfl

@[simp] theorem moduleOf_acquirePulls (core : Nat) : moduleOf (acquirePulls core s) = moduleOf s := moduleOf_ite rfl rfl

@[simp] theorem moduleOf_unsubOp (d a : Opnd) (x : Iss) : moduleOf (unsubOp d a x s) = moduleOf s := by
  unfold unsubOp
  dsimp only [freshId]
  split
  · exact moduleOf_putScalar ..
  · split_ifs <;> simp only [moduleOf_putScalar, moduleOf_startOp, moduleOf_waitAt, moduleOf_updSub, moduleOf_withNextId,
      moduleOf_acquirePulls, moduleOf_updCore]

/-! ## The matrix engine -/

@[simp] theorem moduleOf_updMx (core : Nat) (f : Matrix → Matrix) : moduleOf (updMx core f s) = moduleOf s := rfl
@[simp] theorem moduleOf_updMxOp (core id : Nat) (f : MxOp → MxOp) : moduleOf (updMxOp core id f s) = moduleOf s := rfl

@[simp] theorem moduleOf_clearEntry (core sub : Nat) (e : Rendezvous) : moduleOf (clearEntry core sub e s) = moduleOf s := by
  refine (moduleOf_foldl (fun s a => ?_) _ _).trans (moduleOf_updMx ..)
  split
  · rw [moduleOf_settle, moduleOf_updGang]
  · rfl

@[simp] theorem moduleOf_acceptMx (x : Iss) (owed : List Nat) (kind : MxKind) : moduleOf (acceptMx x owed kind s) = moduleOf s := by
  unfold acceptMx
  dsimp only [freshId]
  rw [moduleOf_foldl fun _ _ => moduleOf_updGang _ _, moduleOf_updMx, moduleOf_withNextId, moduleOf_mergeUo]

@[simp] theorem moduleOf_acceptMma (x : Iss) (o : Mma) (e : Rendezvous) : moduleOf (acceptMma x o e s) = moduleOf s := by
  refine (moduleOf_foldl (fun s k => ?_) _ _).trans ((moduleOf_acceptMx ..).trans (moduleOf_updMx ..))
  rw [moduleOf_settle, moduleOf_updGang]

@[simp] theorem moduleOf_arrive (x : Iss) (o : Mma) : moduleOf (arrive x o s) = moduleOf s := by
  unfold arrive
  dsimp only
  split
  · rw [moduleOf_faultAll, moduleOf_clearEntry]
  · split
    · rfl
    · refine moduleOf_ite ?_ (moduleOf_ite ?_ rfl)
      · rw [moduleOf_faultAll, moduleOf_clearEntry]
      · rw [moduleOf_acceptMma, moduleOf_updMx, moduleOf_waitAt]

@[simp] theorem moduleOf_mxWalks (x : Iss) (ps : List (Nat × Nat)) (r : Except (Word × Dword) (List CopyMove)) :
    moduleOf (mxWalks x ps r s) = moduleOf s := moduleOf_ite (moduleOf_perfCount ..) rfl

@[simp] theorem moduleOf_tileOp (o : TileMem) (load : Bool) (x : Iss) : moduleOf (tileOp o load x s) = moduleOf s := by
  unfold tileOp
  dsimp only
  split <;> simp only [moduleOf_faultAll, moduleOf_acceptMx, moduleOf_mxWalks]

/-! ## Groups, checkpoints and counters -/

@[simp] theorem moduleOf_joinGroup (ctx crew cluster slot : Nat) (mask : BitVec 48) (tag : Word) :
    moduleOf (joinGroup ctx crew cluster slot mask tag s).2 = moduleOf s := by
  unfold joinGroup
  dsimp only
  split <;> rfl

@[simp] theorem moduleOf_numberReq (grp cluster : Nat) (r : CReq) : moduleOf (numberReq grp cluster r s) = moduleOf s := rfl

@[simp] theorem moduleOf_collOp (kind : Nat) (t : Ty) (red : Red) (rm : Rm) (sat : Bool) (d a b : Opnd) (x : Iss) :
    moduleOf (collOp kind t red rm sat d a b x s) = moduleOf s := by
  unfold collOp
  dsimp only [freshId]
  split
  · rfl
  · rw [moduleOf_gangScalar, moduleOf_numberReq, moduleOf_withNextId]

@[simp] theorem moduleOf_openInterval (x : Iss) (d : Opnd) : moduleOf (openInterval x d s) = moduleOf s := by
  rw [openInterval, moduleOf_putScalar, moduleOf_updGang]

@[simp] theorem moduleOf_takeImage (k : Nat) : moduleOf (takeImage k s) = moduleOf s := by
  unfold takeImage
  split
  · rfl
  · split <;> rfl

@[simp] theorem moduleOf_holdImage (k : Nat) : moduleOf (holdImage k s) = moduleOf s := by
  unfold holdImage
  split
  · rfl
  · exact moduleOf_ite (moduleOf_takeImage ..) rfl

@[simp] theorem moduleOf_updPerf (core : Nat) (f : Perf → Perf) : moduleOf (updPerf core f s) = moduleOf s := rfl

end Sys2Proof.Machine
end

section
/-! Proof of O58, second part: what an issue leaves of the module, and the arms of `exec`. -/

namespace Sys2Proof.Machine

/-! ## What an instruction leaves -/

/-- R417: islands of t are those of s, but that some outside S0 may have begun their exit. -/
def IslandsLeft (s t : State) : Prop :=
  ∀ j, islandOf t j = { islandOf s j with exiting := (islandOf t j).exiting } ∧
    ((islandOf s j).exiting = true ∨ (islandOf s j).st = 0 → (islandOf t j).exiting = (islandOf s j).exiting)

/-- R4, R100, R417: the module of t is that of s, but that islands may have begun their exit. -/
structure LeavesModule (s t : State) : Prop where
  view : moduleOf t = { moduleOf s with islands := t.islands }
  islands : IslandsLeft s t

theorem islandOf_congr {s t : State} (h : t.islands = s.islands) (j : Nat) : islandOf t j = islandOf s j := by
  rw [islandOf, islandOf, h]

theorem IslandsLeft.of_eq {s t : State} (h : ∀ j, islandOf t j = islandOf s j) : IslandsLeft s t := by
  intro j
  rw [h j]
  exact ⟨rfl, fun _ => rfl⟩

theorem IslandsLeft.trans {s t u : State} (h : IslandsLeft s t) (h' : IslandsLeft t u) : IslandsLeft s u := by
  intro j
  obtain ⟨ht, hte⟩ := h j
  obtain ⟨hu, hue⟩ := h' j
  refine ⟨by rw [hu, ht], fun hs => ?_⟩
  have hst : (islandOf t j).st = (islandOf s j).st := by rw [ht]
  rw [hue (by rwa [hte hs, hst]), hte hs]

theorem LeavesModule.of_moduleOf {s t : State} (h : moduleOf t = moduleOf s) : LeavesModule s t where
  view := by rw [← h]; rfl
  islands := .of_eq (islandOf_congr (congrArg ModuleView.islands h :))

theorem LeavesModule.refl (s : State) : LeavesModule s s := .of_moduleOf rfl

theorem LeavesModule.trans {s t u : State} (h : LeavesModule s t) (h' : LeavesModule t u) : LeavesModule s u where
  view := by rw [h'.view, h.view]
  islands := h.islands.trans h'.islands

/-! ## Islands that begin their exit -/

/-- A table with entries of some keys set. -/
theorem look_foldl_ins {β : Type} (v : Nat → β) (j : Nat) (l : List Nat) (m : AMap β) :
    look j (l.foldl (fun m i => ins i (v i) m) m) = if j ∈ l then some (v j) else look j m := by
  induction l generalizing m with
  | nil => simp
  | cons i l ih =>
    rw [List.foldl_cons, ih]
    by_cases hj : j = i
    · subst hj; simp [look_ins_same]
    · simp [look_ins_other hj, hj]

theorem islandOf_rouse (die : Option Nat) (ls : List Nat) (s : State) (j : Nat) :
    islandOf (rouse die ls s) j = if j ∈ asleep s die ls then { islandOf s j with exiting := true } else islandOf s j := by
  rw [islandOf, rouse, look_foldl_ins]
  split
  · rfl
  · rfl

/-- R417: only islands outside S0 whose exit has not begun begin it. -/
theorem asleep_notUp {die : Option Nat} {ls : List Nat} {s : State} {j : Nat} (h : j ∈ asleep s die ls) :
    (islandOf s j).st ≠ 0 ∧ (islandOf s j).exiting = false := by
  simpa [asleep, islandUp] using (List.mem_filter.mp h).2

theorem rouse_leaves (die : Option Nat) (ls : List Nat) (s : State) : LeavesModule s (rouse die ls s) where
  view := rfl
  islands := by
    intro j
    rw [islandOf_rouse]
    split
    · next hj =>
      obtain ⟨hst, hex⟩ := asleep_notUp hj
      exact ⟨rfl, fun h => by simp [hst, hex] at h⟩
    · exact ⟨rfl, fun _ => rfl⟩

/-! ## Gates and issues -/

/-- A gate that holds an instruction leaves the module. -/
def GateLeaves (gate : Iss → State → Option State) : Prop := ∀ x s t, gate x s = some t → LeavesModule s t

theorem noGate_leaves : GateLeaves noGate := fun _ _ _ h => nomatch h

theorem walkGate_leaves (space : Space) (need : Need) (accs : Iss → List Acc) : GateLeaves (walkGate space need accs) := by
  intro x s t h
  unfold walkGate at h
  dsimp only at h
  split_ifs at h
  cases h
  exact .of_moduleOf (moduleOf_startWalks ..)

theorem relGate_leaves (sc : Scope) : GateLeaves (relGate sc) := by
  intro x s t h
  unfold relGate at h
  split_ifs at h <;> cases h
  · exact .of_moduleOf (moduleOf_mergeUo ..)
  · exact .refl s

theorem relOf_leaves (str : Strength) (sc : Scope) (space : Space) (need : Need) (accs : Iss → List Acc) :
    GateLeaves (relOf str sc space need accs) := by
  intro x s t h
  unfold relOf at h
  split_ifs at h
  exact relGate_leaves sc _ s t h

theorem bothGates_leaves {a b : Iss → State → Option State} (ha : GateLeaves a) (hb : GateLeaves b) : GateLeaves (bothGates a b) := by
  intro x s t h
  unfold bothGates at h
  split at h
  · next hx => cases h; exact ha x s _ hx
  · exact hb x s t h

theorem acqGate_leaves (sc : Scope) : GateLeaves (acqGate sc) := by
  intro x s t h
  unfold acqGate at h
  split_ifs at h
  cases h
  exact .refl s

theorem spawnGate_leaves (o : Spawn) : GateLeaves (spawnGate o) := by
  intro x s t h
  unfold spawnGate at h
  split at h
  · cases h
  · exact relGate_leaves .clu x s t h
  · exact relGate_leaves .dev x s t h

theorem engineGate_leaves : GateLeaves engineGate := by
  intro x s t h
  unfold engineGate at h
  dsimp only at h
  split_ifs at h
  cases h
  exact .refl s

theorem gathGate_leaves (ty : Ty) (need : Need) (a b : Opnd) : GateLeaves (gathGate ty need a b) := by
  intro x s t h
  unfold gathGate at h
  split_ifs at h
  exact walkGate_leaves _ _ _ x s t h

/-- R417: a launch that cannot reach what it reads makes the islands on the way begin their exit. -/
theorem launchGate_leaves (a : Opnd) : GateLeaves (launchGate a) := by
  intro x s t h
  unfold launchGate at h
  dsimp only at h
  split_ifs at h
  cases h
  exact (rouse_leaves ..).trans (rouse_leaves ..)

theorem walksGate_leaves (ps : Iss → List (Nat × Nat)) : GateLeaves (walksGate ps) := by
  intro x s t h
  unfold walksGate at h
  dsimp only at h
  split_ifs at h
  cases h
  exact rouse_leaves ..

/-- R4, R100: an issue whose gate and body leave the module leaves it: so do its counters, its traps and its end. -/
theorem issue_leaves {i : Instr} {h : Hd} {c : CtrKind} {gate : Iss → State → Option State} {body : Iss → State → State} {s t : State}
    (hg : GateLeaves gate) (hb : ∀ x s, moduleOf (body x s) = moduleOf s) (ht : issue i h c gate body s = .next t) :
    LeavesModule s t := by
  unfold issue at ht
  dsimp only at ht
  split at ht
  · cases ht
  · split at ht
    · cases ht
      exact .of_moduleOf (moduleOf_decodeTrap ..)
    · split_ifs at ht
      · cases ht
        exact .refl s
      · split at ht
        · next hgate =>
          cases ht
          exact hg _ _ _ hgate
        · cases ht
          exact .of_moduleOf (by simp only [moduleOf_finish, hb, moduleOf_perfCount, moduleOf_updGang])

/-- An instruction on registers leaves the module. -/
theorem regOp_leaves {i : Instr} {h : Hd} {fn : Gang → Fibre → Lane} {s t : State} (ht : regOp i h fn s = .next t) :
    LeavesModule s t := issue_leaves noGate_leaves (fun _ _ => moduleOf_perLane _ _) ht

/-- What is done once for the gang keeps the module where its body does. -/
theorem moduleOf_gangOnce {body : Iss → State → State} (hb : ∀ x s, moduleOf (body x s) = moduleOf s) (x : Iss) (s : State) :
    moduleOf (gangOnce body x s) = moduleOf s := moduleOf_ite rfl (hb x s)

end Sys2Proof.Machine
end

section
/-! Proof of O58, third part: every arm of `exec` leaves the module. -/

namespace Sys2Proof.Machine

/-- A step of an instruction that leaves the module. -/
def RunLeaves (run : State → Outc) : Prop := ∀ s t, run s = .next t → LeavesModule s t

/-- A body's part that works on the lanes of a gang alone. -/
theorem lanes_leave {i : Instr} {h : Hd} {c : CtrKind} {fn : Iss → Nat → Fibre → Lane} {s t : State}
    (ht : issue i h c noGate (fun x => perLane x (fn x)) s = .next t) : LeavesModule s t :=
  issue_leaves noGate_leaves (fun _ _ => moduleOf_perLane _ _) ht

/-- An instruction done once for the gang, with no gate. -/
theorem once_leaves {i : Instr} {h : Hd} {c : CtrKind} {body : Iss → State → State} {s t : State}
    (hb : ∀ x s, moduleOf (body x s) = moduleOf s) (ht : issue i h c noGate (gangOnce body) s = .next t) : LeavesModule s t :=
  issue_leaves noGate_leaves (moduleOf_gangOnce hb) ht

theorem voteOp_leaves {i : Instr} {h : Hd} {a : Opnd} {fn : List (Nat × Bool) → Fibre → Lane} {s t : State}
    (ht : voteOp i h a fn s = .next t) : LeavesModule s t := issue_leaves noGate_leaves (fun _ _ => moduleOf_perLane _ _) ht

theorem orbitOp_leaves {i : Instr} {h : Hd} {fn : Sym → Extents → Point → Fibre → Lane} {s t : State}
    (ht : orbitOp i h fn s = .next t) : LeavesModule s t := issue_leaves noGate_leaves (fun _ _ => moduleOf_perLane _ _) ht

/-! ## Control and system registers -/

theorem execNop_leaves (h : Hd) : RunLeaves (execNop h) := fun _ _ ht => issue_leaves noGate_leaves (fun _ _ => rfl) ht
theorem execYield_leaves (h : Hd) : RunLeaves (execYield h) := fun _ _ ht => issue_leaves noGate_leaves (fun _ _ => rfl) ht

theorem execExit_leaves (h : Hd) : RunLeaves (execExit h) := fun _ _ ht =>
  issue_leaves noGate_leaves (fun _ _ => moduleOf_endLanes _ _) ht

theorem execTret_leaves (h : Hd) : RunLeaves (execTret h) := fun _ _ ht => once_leaves (fun _ _ => moduleOf_updGang _ _) ht

theorem execBrk_leaves (h : Hd) : RunLeaves (execBrk h) := fun _ _ ht =>
  issue_leaves noGate_leaves (fun _ _ => moduleOf_perLane _ _) ht

theorem execGetsr_leaves (h : Hd) (w : Bool) (d : Opnd) (k : Fin 64) : RunLeaves (execGetsr h w d k) := by
  intro s t ht
  refine issue_leaves noGate_leaves (fun x u => ?_) ht
  dsimp only
  split_ifs <;> simp only [moduleOf_perLane, moduleOf_logGetsr, moduleOf_faultAll]

theorem execSetsr_leaves (h : Hd) (w : Bool) (a : Opnd) (k : Fin 64) : RunLeaves (execSetsr h w a k) := by
  intro s t ht
  refine issue_leaves noGate_leaves (fun x u => ?_) ht
  dsimp only
  split
  · exact moduleOf_perLane ..
  · exact moduleOf_perLane ..
  · exact moduleOf_updGang ..
  · split
    · exact moduleOf_updGang ..
    · rfl

theorem execSetsrPerf_leaves (h : Hd) (w : Bool) (a : Opnd) (k : Fin 16) : RunLeaves (execSetsrPerf h w a k) := by
  intro s t ht
  refine issue_leaves noGate_leaves (fun x u => moduleOf_ite (moduleOf_faultAll ..) ?_) ht
  split
  · exact moduleOf_updCore ..
  · rfl

/-! ## Memory -/

theorem execWld_leaves (h : Hd) (o : WMem) : RunLeaves (execWld h o) := fun _ _ ht =>
  issue_leaves (walkGate_leaves _ _ _) (fun _ _ => moduleOf_doLoad ..) ht

theorem execWst_leaves (h : Hd) (o : WMem) : RunLeaves (execWst h o) := fun _ _ ht =>
  issue_leaves (walkGate_leaves _ _ _) (fun _ _ => moduleOf_ite (moduleOf_doStore ..) ((moduleOf_perLane ..).trans (moduleOf_doStore ..))) ht

theorem execLd_leaves (h : Hd) (o : Mem) : RunLeaves (execLd h o) := fun _ _ ht =>
  issue_leaves (walkGate_leaves _ _ _) (fun _ _ => moduleOf_doLoad ..) ht

theorem execSt_leaves (h : Hd) (o : Mem) : RunLeaves (execSt h o) := fun _ _ ht =>
  issue_leaves (bothGates_leaves (walkGate_leaves _ _ _) (relOf_leaves _ _ _ _ _)) (fun _ _ => moduleOf_doStore ..) ht

theorem execImageStore_leaves (h : Hd) (ty : Ty) (map : Fin 4) (d a b : Opnd) : RunLeaves (execImageStore h ty map d a b) := by
  intro s t ht
  refine issue_leaves (fun x u v hv => walkGate_leaves _ _ _ x u v hv) (fun x u => ?_) ht
  dsimp only [freshId]
  rw [moduleOf_startSampled, moduleOf_storeBytes, moduleOf_withNextId, moduleOf_raiseFaults]

theorem execAtom_leaves (h : Hd) (o : Atom) : RunLeaves (execAtom h o) := fun _ _ ht =>
  issue_leaves (bothGates_leaves (walkGate_leaves _ _ _) (relOf_leaves _ _ _ _ _)) (fun _ _ => moduleOf_doAtomic ..) ht

theorem execCas_leaves (h : Hd) (o : Atom) : RunLeaves (execCas h o) := fun _ _ ht =>
  issue_leaves (bothGates_leaves (walkGate_leaves _ _ _) (relOf_leaves _ _ _ _ _)) (fun _ _ => moduleOf_doAtomic ..) ht

theorem execRed_leaves (h : Hd) (o : RedOps) : RunLeaves (execRed h o) := by
  intro s t ht
  refine issue_leaves (bothGates_leaves (walkGate_leaves _ _ _) (relOf_leaves _ _ _ _ _)) (fun x u => ?_) ht
  dsimp only
  rw [moduleOf_sampleNow]
  refine (moduleOf_foldl (fun v p => ?_) _ _).trans (moduleOf_raiseFaults ..)
  split
  · exact moduleOf_contribute ..
  · rfl

theorem execFenceAcq_leaves (h : Hd) (sc : Scope) : RunLeaves (execFenceAcq h sc) := fun _ _ ht =>
  issue_leaves (acqGate_leaves sc)
    (fun _ _ => moduleOf_ite (moduleOf_sampleNow ..) ((moduleOf_acquireAt ..).trans (moduleOf_sampleNow ..))) ht

theorem execFenceRel_leaves (h : Hd) (sc : Scope) : RunLeaves (execFenceRel h sc) := fun _ _ ht =>
  issue_leaves noGate_leaves (fun _ _ => moduleOf_fenceOp ..) ht

theorem execFenceFull_leaves (h : Hd) (sc : Scope) : RunLeaves (execFenceFull h sc) := fun _ _ ht =>
  issue_leaves noGate_leaves (fun _ _ => moduleOf_fenceOp ..) ht

theorem execPrefL1_leaves (h : Hd) (a b : Opnd) : RunLeaves (execPrefL1 h a b) := by
  intro s t ht
  refine issue_leaves (walkGate_leaves _ _ _) (fun x u => ?_) ht
  refine (moduleOf_prefOp ..).trans ((moduleOf_foldl_snd (fun z l => moduleOf_serveLine (a := z) ..) _ _).trans ?_)
  exact moduleOf_keepSome _ u

theorem execPrefL2_leaves (h : Hd) (a b : Opnd) : RunLeaves (execPrefL2 h a b) := by
  intro s t ht
  refine issue_leaves (walkGate_leaves _ _ _) (fun x u => ?_) ht
  refine (moduleOf_prefOp ..).trans ((moduleOf_foldl (fun v l => ?_) _ _).trans (moduleOf_keepSome _ u))
  exact moduleOf_pushReq ..

theorem execInvalL1_leaves (h : Hd) (a b : Opnd) : RunLeaves (execInvalL1 h a b) := by
  intro s t ht
  refine issue_leaves (walkGate_leaves _ _ _) (fun x u => ?_) ht
  dsimp only
  rw [moduleOf_sampleNow, moduleOf_discardL1, moduleOf_mergeUo]

theorem execInvalAll_leaves (h : Hd) : RunLeaves (execInvalAll h) := by
  intro s t ht
  refine issue_leaves noGate_leaves (fun x u => moduleOf_ite (moduleOf_sampleNow ..) ?_) ht
  rw [moduleOf_discardL1, moduleOf_mergeUo, moduleOf_sampleNow]

theorem execInvalRdc_leaves (h : Hd) (a b : Opnd) : RunLeaves (execInvalRdc h a b) := by
  intro s t ht
  refine issue_leaves (walkGate_leaves _ _ _) (fun x u => ?_) ht
  dsimp only
  rw [moduleOf_sampleNow, moduleOf_discardRdc, moduleOf_discardL1, moduleOf_mergeUo]

theorem execFlush_leaves (h : Hd) (a b : Opnd) : RunLeaves (execFlush h a b) := fun _ _ ht =>
  issue_leaves (walkGate_leaves _ _ _) (fun _ _ => moduleOf_flushOp ..) ht

theorem execFlushAll_leaves (h : Hd) : RunLeaves (execFlushAll h) := fun _ _ ht =>
  issue_leaves noGate_leaves (fun _ _ => moduleOf_flushOp ..) ht

theorem execLdesc_leaves (h : Hd) (o : Desc) : RunLeaves (execLdesc h o) := by
  intro s t ht
  refine issue_leaves (walkGate_leaves _ _ _) (fun x u => ?_) ht
  dsimp only [freshId]
  split
  all_goals simp only [moduleOf_startSampled, moduleOf_pushPeers, moduleOf_foldl fun _ _ => moduleOf_pushReq _ _ _ _ _,
    moduleOf_withNextId, moduleOf_raiseFaults]

theorem execSdesc_leaves (h : Hd) (o : Desc) : RunLeaves (execSdesc h o) := by
  intro s t ht
  refine issue_leaves (walkGate_leaves _ _ _) (fun x u => ?_) ht
  dsimp only [freshId]
  split
  all_goals simp only [moduleOf_startSampled, moduleOf_pushPeers, moduleOf_foldl fun _ _ => moduleOf_writeDescs _ _ _ _ _,
    moduleOf_foldl fun _ _ => moduleOf_setSpadDesc _ _ _, moduleOf_withNextId, moduleOf_raiseFaults]

theorem execDalloc_leaves (h : Hd) (d a : Opnd) : RunLeaves (execDalloc h d a) := fun _ _ ht =>
  issue_leaves noGate_leaves (fun _ _ => moduleOf_dallocOp ..) ht

theorem execDallocZ_leaves (h : Hd) (d a : Opnd) : RunLeaves (execDallocZ h d a) := fun _ _ ht =>
  issue_leaves noGate_leaves (fun _ _ => moduleOf_dallocOp ..) ht

theorem execDfree_leaves (h : Hd) (a : Opnd) : RunLeaves (execDfree h a) := by
  intro s t ht
  refine issue_leaves (fun x u v hv => relGate_leaves .dev _ u v hv) (fun x u => ?_) ht
  refine (moduleOf_sampleNow ..).trans (moduleOf_foldl (fun v l => ?_) _ _)
  split
  · rfl
  · refine moduleOf_ite rfl ?_
    split
    · exact moduleOf_freeBlock ..
    · exact moduleOf_raiseFaults ..

/-! ## Spawns, barriers, registers and proposals -/

theorem execSpawnLabel_leaves (h : Hd) (o : Spawn) (off : Word) : RunLeaves (execSpawnLabel h o off) := fun _ _ ht =>
  issue_leaves (spawnGate_leaves o) (fun _ _ => moduleOf_spawnOp ..) ht

theorem execSpawnRegister_leaves (h : Hd) (o : Spawn) (c : Opnd) : RunLeaves (execSpawnRegister h o c) := fun _ _ ht =>
  issue_leaves (spawnGate_leaves o) (fun _ _ => moduleOf_spawnOp ..) ht

theorem execBarSync_leaves (h : Hd) (a b : Opnd) : RunLeaves (execBarSync h a b) := fun _ _ ht =>
  issue_leaves noGate_leaves (fun _ _ => moduleOf_barOp ..) ht

theorem execBarArv_leaves (h : Hd) (a b : Opnd) : RunLeaves (execBarArv h a b) := fun _ _ ht =>
  issue_leaves noGate_leaves (fun _ _ => moduleOf_barOp ..) ht

theorem execBarEsync_leaves (h : Hd) (b : Opnd) : RunLeaves (execBarEsync h b) := fun _ _ ht =>
  issue_leaves noGate_leaves (fun _ _ => moduleOf_barOp ..) ht

theorem execBarEarv_leaves (h : Hd) (b : Opnd) : RunLeaves (execBarEarv h b) := fun _ _ ht =>
  issue_leaves noGate_leaves (fun _ _ => moduleOf_barOp ..) ht

theorem execBarRgn_leaves (h : Hd) (d : Opnd) : RunLeaves (execBarRgn h d) := fun _ _ ht =>
  issue_leaves noGate_leaves (fun _ _ => moduleOf_perLane _ _) ht

theorem execRacq_leaves (h : Hd) (k : Fin 512) : RunLeaves (execRacq h k) := by
  intro s t ht
  refine once_leaves (fun x u => moduleOf_ite rfl (moduleOf_ite ?_ ?_)) ht
  · exact moduleOf_faultAll ..
  · rw [moduleOf_updCore, moduleOf_waitAt]

theorem execRrel_leaves (h : Hd) (k : Fin 512) : RunLeaves (execRrel h k) := fun _ _ ht =>
  once_leaves (fun _ _ => moduleOf_ite rfl (moduleOf_ite (moduleOf_perLane ..) (moduleOf_setHeld ..))) ht

theorem execDefer_leaves (h : Hd) (n : Fin 512) : RunLeaves (execDefer h n) := fun _ _ ht => lanes_leave ht

theorem execPopen_leaves (h : Hd) : RunLeaves (execPopen h) := fun _ _ ht =>
  issue_leaves noGate_leaves (fun _ _ => (moduleOf_perLane ..).trans (moduleOf_dropWindow ..)) ht

theorem execAccept_leaves (h : Hd) (d a : Opnd) : RunLeaves (execAccept h d a) := fun _ _ ht =>
  issue_leaves noGate_leaves (fun _ _ => (moduleOf_perLane ..).trans (moduleOf_dropWindow ..)) ht

theorem execPclose_leaves (h : Hd) : RunLeaves (execPclose h) := fun _ _ ht =>
  issue_leaves noGate_leaves (fun _ _ => (moduleOf_perLane ..).trans (moduleOf_dropWindow ..)) ht

/-! ## Incumbents, launches and signals -/

theorem execIncu_leaves (h : Hd) (rel : Bool) (d a : Opnd) (k : Fin 512) : RunLeaves (execIncu h rel d a k) := by
  intro s t ht
  unfold execIncu at ht
  refine issue_leaves (fun x u v hv => ?_) (fun x u => ?_) ht
  · split_ifs at hv
    exact relGate_leaves .dev x u v hv
  · refine moduleOf_ite rfl (moduleOf_ite (moduleOf_toHub ..) ?_)
    rw [moduleOf_toHub, moduleOf_startOp, moduleOf_freshId]

theorem execIncrd_leaves (h : Hd) (d : Opnd) (k : Fin 512) : RunLeaves (execIncrd h d k) := by
  intro s t ht
  refine issue_leaves noGate_leaves (fun x u => ?_) ht
  dsimp only
  rw [moduleOf_perLane, moduleOf_foldl fun _ _ => moduleOf_logValue _ _ _]

theorem execIncrdHome_leaves (h : Hd) (acq : Bool) (d : Opnd) (k : Fin 512) : RunLeaves (execIncrdHome h acq d k) := by
  intro s t ht
  refine once_leaves (fun x u => ?_) ht
  rw [moduleOf_toHub, moduleOf_startOp, moduleOf_freshId]

theorem execLaunch_leaves (h : Hd) (d a : Opnd) : RunLeaves (execLaunch h d a) := by
  intro s t ht
  refine issue_leaves (bothGates_leaves (walkGate_leaves _ _ _) (bothGates_leaves (launchGate_leaves a) (relOf_leaves _ _ _ _ _)))
    (fun x u => ?_) ht
  have hsub (ps : List Part) (z : List (Nat × Dword) × State) : moduleOf (ps.foldl (fun acc p =>
      let r := submit x.g.ctx (readPacket (leNat (p.keys.map (memByte acc.2)))) acc.2
      (acc.1 ++ [(p.lane, r.1)], r.2)) z).2 = moduleOf z.2 := by
    refine moduleOf_foldl_snd (fun z p => ?_) ps z
    exact moduleOf_submit ..
  dsimp only [freshId] at hsub ⊢
  refine moduleOf_ite ((moduleOf_startOp ..).trans ((hsub _ _).trans rfl)) ((moduleOf_startOp ..).trans ?_)
  exact ((hsub _ _).trans rfl :)

theorem execSignal_leaves (h : Hd) (sc : Scope) (a b : Opnd) : RunLeaves (execSignal h sc a b) := by
  intro s t ht
  refine issue_leaves (bothGates_leaves (walkGate_leaves _ _ _) (relOf_leaves _ _ _ _ _)) (fun x u => ?_) ht
  dsimp only [freshId]
  rw [moduleOf_startOp, moduleOf_storeBytes, moduleOf_withNextId, moduleOf_raiseFaults]

theorem execSignalAdd_leaves (h : Hd) (sc : Scope) (a b : Opnd) : RunLeaves (execSignalAdd h sc a b) := by
  intro s t ht
  refine issue_leaves (bothGates_leaves (walkGate_leaves _ _ _) (relOf_leaves _ _ _ _ _)) (fun x u => ?_) ht
  dsimp only [freshId]
  rw [moduleOf_startOp, moduleOf_atomLines, moduleOf_withNextId, moduleOf_raiseFaults]

/-! ## Roles, stages, copies and waits -/

theorem execRole_leaves (h : Hd) (k : Fin 512) : RunLeaves (execRole h k) := fun _ _ ht =>
  once_leaves (fun _ _ => moduleOf_ite (moduleOf_faultAll ..) (moduleOf_ite (moduleOf_perLane ..)
    (moduleOf_ite (moduleOf_enterRole ..) (moduleOf_gwaitAt ..)))) ht

theorem execStgw_leaves (h : Hd) (a b : Opnd) (ph : Fin 512) : RunLeaves (execStgw h a b ph) := by
  intro s t ht
  refine once_leaves (fun x u => ?_) ht
  split
  · exact moduleOf_faultAll ..
  · exact moduleOf_gwaitAt ..

theorem execStga_leaves (h : Hd) (a b : Opnd) : RunLeaves (execStga h a b) := by
  intro s t ht
  refine issue_leaves (relGate_leaves .crew) (moduleOf_gangOnce fun x u => ?_) ht
  split
  · exact moduleOf_faultAll ..
  · exact moduleOf_flipPhase ..

theorem execCopyG2s_leaves (h : Hd) (desc : Bool) (d a b c : Opnd) : RunLeaves (execCopyG2s h desc d a b c) := fun _ _ ht =>
  issue_leaves engineGate_leaves (moduleOf_gangOnce fun _ _ => moduleOf_copyOp ..) ht

theorem execCopyS2g_leaves (h : Hd) (desc : Bool) (d a b c : Opnd) : RunLeaves (execCopyS2g h desc d a b c) := fun _ _ ht =>
  issue_leaves engineGate_leaves (moduleOf_gangOnce fun _ _ => moduleOf_copyOp ..) ht

theorem execGath_leaves (h : Hd) (ty : Ty) (d a b : Opnd) : RunLeaves (execGath h ty d a b) := fun _ _ ht =>
  issue_leaves (bothGates_leaves engineGate_leaves (gathGate_leaves _ _ _ _)) (moduleOf_gangOnce fun _ _ => moduleOf_gathOp ..) ht

theorem execScat_leaves (h : Hd) (ty : Ty) (d a b : Opnd) : RunLeaves (execScat h ty d a b) := fun _ _ ht =>
  issue_leaves (bothGates_leaves engineGate_leaves (gathGate_leaves _ _ _ _)) (moduleOf_gangOnce fun _ _ => moduleOf_gathOp ..) ht

theorem execWait_leaves (h : Hd) (l st : Fin 64) (c : Fin 32) (m : Fin 8) : RunLeaves (execWait h l st c m) := fun _ _ ht =>
  once_leaves (fun _ _ => moduleOf_gwaitAt ..) ht

theorem execSleep_leaves (h : Hd) (a : Opnd) : RunLeaves (execSleep h a) := fun _ _ ht =>
  once_leaves (fun _ _ => moduleOf_gwaitAt ..) ht

theorem execSubs_leaves (h : Hd) (d a : Opnd) : RunLeaves (execSubs h d a) := fun _ _ ht =>
  issue_leaves (bothGates_leaves (walkGate_leaves _ _ _) (relGate_leaves .clu)) (moduleOf_gangOnce fun _ _ => moduleOf_subsOp ..) ht

theorem execUnsub_leaves (h : Hd) (d a : Opnd) : RunLeaves (execUnsub h d a) := fun _ _ ht =>
  once_leaves (fun _ _ => moduleOf_unsubOp ..) ht

/-! ## The matrix engine -/

theorem execTroupe_leaves (h : Hd) (a : Opnd) : RunLeaves (execTroupe h a) := by
  intro s t ht
  refine once_leaves (fun x u => ?_) ht
  split
  · exact moduleOf_faultAll ..
  · exact moduleOf_ite (moduleOf_updGang ..) (moduleOf_faultAll ..)

theorem execMopf_leaves (h : Hd) : RunLeaves (execMopf h) := by
  intro s t ht
  refine once_leaves (fun x u => ?_) ht
  split
  · exact moduleOf_faultAll ..
  · exact (moduleOf_waitAt ..).trans moduleOf_freshId

theorem execMma_leaves (h : Hd) (o : Mma) : RunLeaves (execMma h o) := by
  intro s t ht
  refine once_leaves (fun x u => ?_) ht
  split
  · exact moduleOf_faultAll ..
  · exact moduleOf_arrive ..

theorem execMld_leaves (h : Hd) (o : TileMem) : RunLeaves (execMld h o) := fun _ _ ht =>
  issue_leaves (walksGate_leaves _) (moduleOf_gangOnce fun _ _ => moduleOf_tileOp ..) ht

theorem execMst_leaves (h : Hd) (o : TileMem) : RunLeaves (execMst h o) := fun _ _ ht =>
  issue_leaves (walksGate_leaves _) (moduleOf_gangOnce fun _ _ => moduleOf_tileOp ..) ht

theorem execMcont_leaves (h : Hd) (tile : Fin 8) : RunLeaves (execMcont h tile) := by
  intro s t ht
  refine once_leaves (fun x u => ?_) ht
  split
  · exact moduleOf_faultAll ..
  · split
    · exact moduleOf_faultAll ..
    · exact moduleOf_updMxOp ..

theorem execWbload_leaves (h : Hd) (a b c : Opnd) : RunLeaves (execWbload h a b c) := by
  intro s t ht
  refine issue_leaves (walksGate_leaves _) (moduleOf_gangOnce fun x u => ?_) ht
  dsimp only
  split
  · exact (moduleOf_faultAll ..).trans (moduleOf_mxWalks ..)
  · exact (moduleOf_acceptMx ..).trans (moduleOf_mxWalks ..)

/-! ## Groups, checkpoints and counters -/

theorem execCgrp_leaves (h : Hd) (d a b : Opnd) : RunLeaves (execCgrp h d a b) := by
  intro s t ht
  refine once_leaves (fun x u => moduleOf_ite (moduleOf_putScalar ..) ?_) ht
  dsimp only
  split
  · exact (moduleOf_putScalar ..).trans (moduleOf_foldl (fun _ _ => moduleOf_dissolve _) _ _)
  · split_ifs
    · exact (moduleOf_putScalar ..).trans (moduleOf_foldl (fun _ _ => moduleOf_dissolve _) _ _)
    · exact (moduleOf_putScalar ..).trans ((moduleOf_joinGroup ..).trans (moduleOf_foldl (fun _ _ => moduleOf_dissolve _) _ _))

theorem execCgrpFree_leaves (h : Hd) (b : Opnd) : RunLeaves (execCgrpFree h b) := by
  intro s t ht
  refine once_leaves (fun x u => ?_) ht
  split
  · exact moduleOf_dissolve ..
  · rfl

theorem execCag_leaves (h : Hd) (ty : Ty) (d a b : Opnd) : RunLeaves (execCag h ty d a b) := fun _ _ ht =>
  once_leaves (fun _ _ => moduleOf_collOp ..) ht

theorem execCrs_leaves (h : Hd) (o : Comb) (b : Opnd) : RunLeaves (execCrs h o b) := fun _ _ ht =>
  once_leaves (fun _ _ => moduleOf_collOp ..) ht

theorem execCa2a_leaves (h : Hd) (ty : Ty) (d a b : Opnd) : RunLeaves (execCa2a h ty d a b) := fun _ _ ht =>
  once_leaves (fun _ _ => moduleOf_collOp ..) ht

theorem execCbar_leaves (h : Hd) (d a : Opnd) : RunLeaves (execCbar h d a) := by
  intro s t ht
  refine once_leaves (fun x u => ?_) ht
  split
  · exact moduleOf_gangScalar ..
  · dsimp only [freshId]
    rw [moduleOf_wakeColl, moduleOf_numberReq, moduleOf_gwaitAt, moduleOf_withNextId, moduleOf_mergeUo]

theorem execCwait_leaves (h : Hd) (d a : Opnd) : RunLeaves (execCwait h d a) := by
  intro s t ht
  refine once_leaves (fun x u => ?_) ht
  dsimp only
  split
  · exact moduleOf_gangScalar ..
  · refine moduleOf_ite (moduleOf_gangScalar ..) ?_
    split
    · exact moduleOf_gangScalar ..
    · exact moduleOf_gwaitAt ..

theorem execCkpt_leaves (h : Hd) (d a : Opnd) : RunLeaves (execCkpt h d a) := fun _ _ ht =>
  once_leaves (fun _ _ => moduleOf_openInterval ..) ht

theorem execCkptHold_leaves (h : Hd) (d a : Opnd) : RunLeaves (execCkptHold h d a) := by
  intro s t ht
  refine issue_leaves (relGate_leaves .dev) (moduleOf_gangOnce fun x u => ?_) ht
  rw [moduleOf_holdImage, moduleOf_gwaitAt, moduleOf_openInterval]

theorem execPerfSel_leaves (h : Hd) (d a : Opnd) (k : Fin 512) : RunLeaves (execPerfSel h d a k) := fun _ _ ht =>
  once_leaves (fun _ _ => moduleOf_ite (moduleOf_faultAll ..) (moduleOf_ite (moduleOf_faultAll ..)
    ((moduleOf_putScalar ..).trans (moduleOf_updPerf ..)))) ht

theorem execPerfSmp_leaves (h : Hd) (d a : Opnd) : RunLeaves (execPerfSmp h d a) := fun _ _ ht =>
  once_leaves (fun _ _ => moduleOf_ite (moduleOf_faultAll ..) (moduleOf_ite (moduleOf_faultAll ..)
    ((moduleOf_putScalar ..).trans (moduleOf_updPerf ..)))) ht

/-! ## The claim -/

/-- R4, R100: every instruction leaves the module: arm by arm, its gate and its body do. -/
theorem exec_leavesModule {i : Instr} {h : Hd} {s t : State} (hh : hdOf i = some h) (ht : exec i s = .next t) : LeavesModule s t := by
  cases i with
  | nop h => exact execNop_leaves h _ _ ht
  | br h off => exact lanes_leave (show execBr h off s = _ from ht)
  | brx h a => exact lanes_leave (show execBrx h a s = _ from ht)
  | callLabel h d off => exact lanes_leave (show execCallLabel h d off s = _ from ht)
  | callRegister h d a => exact lanes_leave (show execCallRegister h d a s = _ from ht)
  | ret h a => exact lanes_leave (show execRet h a s = _ from ht)
  | exit h => exact execExit_leaves h _ _ ht
  | trap h a => exact lanes_leave (show execTrap h a s = _ from ht)
  | tret h => exact execTret_leaves h _ _ ht
  | getsr h wide d idx => exact execGetsr_leaves h wide d idx _ _ ht
  | setsr h wide a idx => exact execSetsr_leaves h wide a idx _ _ ht
  | setsrKey h wide a => exact lanes_leave (show execSetsrKey h wide a s = _ from ht)
  | setsrPerf h wide a k => exact execSetsrPerf_leaves h wide a k _ _ ht
  | yield h => exact execYield_leaves h _ _ ht
  | brk h => exact execBrk_leaves h _ _ ht
  | add h o => exact regOp_leaves (show execAdd h o s = _ from ht)
  | sub h o => exact regOp_leaves (show execSub h o s = _ from ht)
  | mul h o => exact regOp_leaves (show execMul h o s = _ from ht)
  | mulhi h o => exact regOp_leaves (show execMulhi h o s = _ from ht)
  | mad h o => exact regOp_leaves (show execMad h o s = _ from ht)
  | div h o => exact regOp_leaves (show execDiv h o s = _ from ht)
  | rem h o => exact regOp_leaves (show execRem h o s = _ from ht)
  | neg h o => exact regOp_leaves (show execNeg h o s = _ from ht)
  | abs h o => exact regOp_leaves (show execAbs h o s = _ from ht)
  | min h o => exact regOp_leaves (show execMin h o s = _ from ht)
  | max h o => exact regOp_leaves (show execMax h o s = _ from ht)
  | and h o => exact regOp_leaves (show execAnd h o s = _ from ht)
  | or h o => exact regOp_leaves (show execOr h o s = _ from ht)
  | xor h o => exact regOp_leaves (show execXor h o s = _ from ht)
  | not h o => exact regOp_leaves (show execNot h o s = _ from ht)
  | shl h o => exact regOp_leaves (show execShl h o s = _ from ht)
  | shr h o => exact regOp_leaves (show execShr h o s = _ from ht)
  | sar h o => exact regOp_leaves (show execSar h o s = _ from ht)
  | rol h o => exact regOp_leaves (show execRol h o s = _ from ht)
  | ror h o => exact regOp_leaves (show execRor h o s = _ from ht)
  | popc h o => exact regOp_leaves (show execPopc h o s = _ from ht)
  | clz h o => exact regOp_leaves (show execClz h o s = _ from ht)
  | ctz h o => exact regOp_leaves (show execCtz h o s = _ from ht)
  | brev h o => exact regOp_leaves (show execBrev h o s = _ from ht)
  | bfe h o => exact regOp_leaves (show execBfe h o s = _ from ht)
  | bfi h o => exact regOp_leaves (show execBfi h o s = _ from ht)
  | sel h o => exact regOp_leaves (show execSel h o s = _ from ht)
  | mov h o => exact regOp_leaves (show execMov h o s = _ from ht)
  | setp h o => exact regOp_leaves (show execSetp h o s = _ from ht)
  | plog h op d a b => exact regOp_leaves (show execPlog h op d a b s = _ from ht)
  | addc h o => exact regOp_leaves (show execAddc h o s = _ from ht)
  | lea h o scale => exact regOp_leaves (show execLea h o scale s = _ from ht)
  | fadd h o => exact regOp_leaves (show execFadd h o s = _ from ht)
  | fsub h o => exact regOp_leaves (show execFsub h o s = _ from ht)
  | fmul h o => exact regOp_leaves (show execFmul h o s = _ from ht)
  | ffma h o => exact regOp_leaves (show execFfma h o s = _ from ht)
  | fnfma h o => exact regOp_leaves (show execFnfma h o s = _ from ht)
  | fdiv h o => exact regOp_leaves (show execFdiv h o s = _ from ht)
  | fsqrt h o => exact regOp_leaves (show execFsqrt h o s = _ from ht)
  | frcp h o => exact regOp_leaves (show execFrcp h o s = _ from ht)
  | frsq h o => exact regOp_leaves (show execFrsq h o s = _ from ht)
  | fmin h o => exact regOp_leaves (show execFmin h o s = _ from ht)
  | fmax h o => exact regOp_leaves (show execFmax h o s = _ from ht)
  | fabs h o => exact regOp_leaves (show execFabs h o s = _ from ht)
  | fneg h o => exact regOp_leaves (show execFneg h o s = _ from ht)
  | fsetp h o => exact regOp_leaves (show execFsetp h o s = _ from ht)
  | fclass h o => exact regOp_leaves (show execFclass h o s = _ from ht)
  | frnd h o => exact regOp_leaves (show execFrnd h o s = _ from ht)
  | fcpsgn h o => exact regOp_leaves (show execFcpsgn h o s = _ from ht)
  | fscale h o => exact regOp_leaves (show execFscale h o s = _ from ht)
  | fexpo h o => exact regOp_leaves (show execFexpo h o s = _ from ht)
  | fmant h o => exact regOp_leaves (show execFmant h o s = _ from ht)
  | f2sum h o => exact regOp_leaves (show execF2sum h o s = _ from ht)
  | f2prod h o => exact regOp_leaves (show execF2prod h o s = _ from ht)
  | fdot2 h o => exact regOp_leaves (show execFdot2 h o s = _ from ht)
  | fpfma h o => exact regOp_leaves (show execFpfma h o s = _ from ht)
  | cvt h o => exact regOp_leaves (show execCvt h o s = _ from ht)
  | pack h o => exact regOp_leaves (show execPack h o s = _ from ht)
  | unpk h hi o => exact regOp_leaves (show execUnpk h hi o s = _ from ht)
  | qnt h d a b => exact regOp_leaves (show execQnt h d a b s = _ from ht)
  | qntIns h d a b j => exact regOp_leaves (show execQntIns h d a b j s = _ from ht)
  | fexp2 h o => exact regOp_leaves (show execFexp2 h o s = _ from ht)
  | flog2 h o => exact regOp_leaves (show execFlog2 h o s = _ from ht)
  | rand h t d => exact regOp_leaves (show execRand h t d s = _ from ht)
  | seed h fid a => exact regOp_leaves (show execSeed h fid a s = _ from ht)
  | wclr h d => exact regOp_leaves (show execWclr h d s = _ from ht)
  | wclrStat h d => exact regOp_leaves (show execWclrStat h d s = _ from ht)
  | wadd h t d a => exact regOp_leaves (show execWadd h t d a s = _ from ht)
  | wsub h t d a => exact regOp_leaves (show execWsub h t d a s = _ from ht)
  | wmul2 h o => exact regOp_leaves (show execWmul2 h o s = _ from ht)
  | wmul3 h o c => exact regOp_leaves (show execWmul3 h o c s = _ from ht)
  | wsgn h wide d a p => exact regOp_leaves (show execWsgn h wide d a p s = _ from ht)
  | wrnd h wide rm d a => exact regOp_leaves (show execWrnd h wide rm d a s = _ from ht)
  | wmov h op d a => exact regOp_leaves (show execWmov h op d a s = _ from ht)
  | wld h o => exact execWld_leaves h o _ _ ht
  | wst h o => exact execWst_leaves h o _ _ ht
  | ld h o => exact execLd_leaves h o _ _ ht
  | st h o => exact execSt_leaves h o _ _ ht
  | imageStore h t map d a b => exact execImageStore_leaves h t map d a b _ _ ht
  | atom h o => exact execAtom_leaves h o _ _ ht
  | cas h o => exact execCas_leaves h o _ _ ht
  | red h o => exact execRed_leaves h o _ _ ht
  | fenceAcq h sc => exact execFenceAcq_leaves h sc _ _ ht
  | fenceRel h sc => exact execFenceRel_leaves h sc _ _ ht
  | fenceFull h sc => exact execFenceFull_leaves h sc _ _ ht
  | prefL1 h a b => exact execPrefL1_leaves h a b _ _ ht
  | prefL2 h a b => exact execPrefL2_leaves h a b _ _ ht
  | invalL1 h a b => exact execInvalL1_leaves h a b _ _ ht
  | invalAll h => exact execInvalAll_leaves h _ _ ht
  | invalRdc h a b => exact execInvalRdc_leaves h a b _ _ ht
  | flush h a b => exact execFlush_leaves h a b _ _ ht
  | flushAll h => exact execFlushAll_leaves h _ _ ht
  | ldesc h o => exact execLdesc_leaves h o _ _ ht
  | sdesc h o => exact execSdesc_leaves h o _ _ ht
  | dalloc h d a => exact execDalloc_leaves h d a _ _ ht
  | dallocZ h d a => exact execDallocZ_leaves h d a _ _ ht
  | dfree h a => exact execDfree_leaves h a _ _ ht
  | spawnLabel h o off => exact execSpawnLabel_leaves h o off _ _ ht
  | spawnRegister h o c => exact execSpawnRegister_leaves h o c _ _ ht
  | barSync h a b => exact execBarSync_leaves h a b _ _ ht
  | barArv h a b => exact execBarArv_leaves h a b _ _ ht
  | barEsync h b => exact execBarEsync_leaves h b _ _ ht
  | barEarv h b => exact execBarEarv_leaves h b _ _ ht
  | barRgn h d => exact execBarRgn_leaves h d _ _ ht
  | voteAll h d a => exact voteOp_leaves (show execVoteAll h d a s = _ from ht)
  | voteAny h d a => exact voteOp_leaves (show execVoteAny h d a s = _ from ht)
  | voteBallot h d a => exact voteOp_leaves (show execVoteBallot h d a s = _ from ht)
  | voteUni h wide d a => exact lanes_leave (show execVoteUni h wide d a s = _ from ht)
  | shfl h wide mode d a b c => exact lanes_leave (show execShfl h wide mode d a b c s = _ from ht)
  | gred h o => exact lanes_leave (show execGred h o s = _ from ht)
  | gscan h o excl => exact lanes_leave (show execGscan h o excl s = _ from ht)
  | matchAny h wide d a => exact lanes_leave (show execMatchAny h wide d a s = _ from ht)
  | matchAll h wide d a c => exact lanes_leave (show execMatchAll h wide d a c s = _ from ht)
  | racq h k => exact execRacq_leaves h k _ _ ht
  | rrel h k => exact execRrel_leaves h k _ _ ht
  | incu h rel d a k => exact execIncu_leaves h rel d a k _ _ ht
  | incrd h d k => exact execIncrd_leaves h d k _ _ ht
  | incrdHome h acq d k => exact execIncrdHome_leaves h acq d k _ _ ht
  | bnd h a k => exact lanes_leave (show execBnd h a k s = _ from ht)
  | defer h n => exact execDefer_leaves h n _ _ ht
  | popen h => exact execPopen_leaves h _ _ ht
  | accept h d a => exact execAccept_leaves h d a _ _ ht
  | pclose h => exact execPclose_leaves h _ _ ht
  | launch h d a => exact execLaunch_leaves h d a _ _ ht
  | signal h sc a b => exact execSignal_leaves h sc a b _ _ ht
  | signalAdd h sc a b => exact execSignalAdd_leaves h sc a b _ _ ht
  | orbitSize h d => exact orbitOp_leaves (show execOrbitSize h d s = _ from ht)
  | orbitStab h d => exact orbitOp_leaves (show execOrbitStab h d s = _ from ht)
  | orbitImg h d j => exact orbitOp_leaves (show execOrbitImg h d j s = _ from ht)
  | role h k => exact execRole_leaves h k _ _ ht
  | stgw h a b ph => exact execStgw_leaves h a b ph _ _ ht
  | stga h a b => exact execStga_leaves h a b _ _ ht
  | copyG2s h desc d a b c => exact execCopyG2s_leaves h desc d a b c _ _ ht
  | copyS2g h desc d a b c => exact execCopyS2g_leaves h desc d a b c _ _ ht
  | gath h t d a b => exact execGath_leaves h t d a b _ _ ht
  | scat h t d a b => exact execScat_leaves h t d a b _ _ ht
  | sleep h a => exact execSleep_leaves h a _ _ ht
  | subs h d a => exact execSubs_leaves h d a _ _ ht
  | unsub h d a => exact execUnsub_leaves h d a _ _ ht
  | troupe h a => exact execTroupe_leaves h a _ _ ht
  | mopf h => exact execMopf_leaves h _ _ ht
  | mma h o => exact execMma_leaves h o _ _ ht
  | mld h o => exact execMld_leaves h o _ _ ht
  | mst h o => exact execMst_leaves h o _ _ ht
  | mcont h tile => exact execMcont_leaves h tile _ _ ht
  | wbload h a b c => exact execWbload_leaves h a b c _ _ ht
  | cgrp h d a b => exact execCgrp_leaves h d a b _ _ ht
  | cgrpFree h b => exact execCgrpFree_leaves h b _ _ ht
  | cag h t d a b => exact execCag_leaves h t d a b _ _ ht
  | crs h o b => exact execCrs_leaves h o b _ _ ht
  | ca2a h t d a b => exact execCa2a_leaves h t d a b _ _ ht
  | cbar h d a => exact execCbar_leaves h d a _ _ ht
  | cwait h d a => exact execCwait_leaves h d a _ _ ht
  | ckpt h d a => exact execCkpt_leaves h d a _ _ ht
  | ckptHold h d a => exact execCkptHold_leaves h d a _ _ ht
  | perfSel h d a k => exact execPerfSel_leaves h d a k _ _ ht
  | perfSmp h d a => exact execPerfSmp_leaves h d a _ _ ht
  | wait h l st c m => exact execWait_leaves h l st c m _ _ ht
  | _ => cases hh

/-- A table whose entries are changed one by one. -/
theorem look_map_snd {β γ : Type} (f : β → γ) (k : Nat) (m : AMap β) : look k (m.map fun u => (u.1, f u.2)) = (look k m).map f := by
  induction m with
  | nil => rfl
  | cons u m ih =>
    simp only [List.map_cons, look]
    split_ifs
    · rfl
    · exact ih

/-- R429: a queue is as it was, but for the note of a wake. -/
theorem look_queue_of_leaves {s t : State} (h : LeavesModule s t) (q : Nat) :
    look q t.queues = (look q s.queues).map fun u => { u with poked := (look q t.queues).any (·.poked) } := by
  have hq : (look q t.queues).map unpoked = (look q s.queues).map unpoked := by
    have hview : t.queues.map (fun u => (u.1, unpoked u.2)) = s.queues.map fun u => (u.1, unpoked u.2) :=
      congrArg ModuleView.queues h.view
    rw [← look_map_snd, ← look_map_snd, hview]
  cases hs : look q s.queues with
  | none => simpa [hs] using hq
  | some u =>
    cases ht : look q t.queues with
    | none => simp [hs, ht] at hq
    | some v =>
      simp only [hs, ht, Option.map_some, Option.some.injEq] at hq ⊢
      exact (congrArg (fun w : Queue => { w with poked := v.poked }) hq :)

/-- Settles O58: each arm of `exec` leaves the module, seen through `moduleOf`; a queue's note and an island's exit are
what the view leaves out and what `IslandsLeft` says. -/
theorem instructionsLeaveTheModule : Obligations.InstructionsLeaveTheModule := by
  intro i s t hw ht
  obtain ⟨h, hh⟩ := Laws.hdOf_of_legal hw
  have hl := exec_leavesModule hh ht
  have hv := hl.view
  simp only [moduleOf, ModuleView.mk.injEq] at hv
  obtain ⟨hclk, hboot, hconns, hpower, hlinks, hptp, htree, hfaults, hinbox, -, -⟩ := hv
  exact ⟨hclk, hboot, hconns, hl.islands, hpower, hlinks, hptp, htree, hfaults, hinbox, look_queue_of_leaves hl⟩

end Sys2Proof.Machine
end

section
/-! Proofs of O53, O59 and O60: worked words of the spec, reads after writes of registers, and the state after reset. -/

namespace Sys2Proof.Machine

/-! ## Registers -/

theorem winBank_setV (n : Nat) (x : Word) (f : Fibre) : winBank (setV n x f) = winBank f := by
  unfold setV
  split_ifs <;> rfl

/-- R10, R235, R236: a vector register reads what was written to it last, through whichever bank is live. -/
theorem getV_setV {f : Fibre} (hf : f.Canonical) (n m : Nat) (x : Word) :
    getV (setV n x f) m = if m = n then x else getV f m := by
  obtain ⟨hv, h0, h1⟩ := hf
  unfold getV
  rw [winBank_setV]
  unfold setV
  by_cases hm : m < 224 <;> by_cases hn : n < 224
  · simp only [hm, hn, if_true]
    exact find_put hv
  · have hne : m ≠ n := by omega
    simp only [hm, hn, hne, if_true, if_false]
    split <;> rfl
  · have hne : m ≠ n := by omega
    simp only [hm, hn, hne, if_true, if_false]
  · cases hb : winBank f <;> simp only [hm, hn, if_true, if_false, Bool.false_eq_true]
    · exact find_put h0
    · exact find_put h1

theorem canonical_setV {f : Fibre} (hf : f.Canonical) (n : Nat) (x : Word) : (setV n x f).Canonical := by
  obtain ⟨hv, h0, h1⟩ := hf
  unfold setV
  split_ifs
  · exact ⟨wf_put hv, h0, h1⟩
  · exact ⟨hv, h0, wf_put h1⟩
  · exact ⟨hv, wf_put h0, h1⟩

/-- R10: a pair of registers reads the 64-bit value written to it. -/
theorem getV64_setV64 {f : Fibre} (hf : f.Canonical) (n : Nat) (x : Dword) : getV64 (setV64 n x f) n = x := by
  have hlow : (setV n (x.setWidth 32) f).Canonical := canonical_setV hf _ _
  have hhalves : x.extractLsb' 32 32 ++ x.setWidth 32 = x := by
    ext i hi
    simp only [BitVec.getElem_append, BitVec.getElem_setWidth, BitVec.getElem_extractLsb']
    split
    · rw [BitVec.getLsbD_eq_getElem hi]
    · rw [Nat.add_sub_cancel' (by omega), BitVec.getLsbD_eq_getElem hi]
  rw [getV64, setV64, getV_setV hlow, getV_setV hlow, if_pos rfl, if_neg (by omega), getV_setV hf, if_pos rfl, hhalves]

theorem getS_setS {g : Gang} (hg : wf 0 g.s = true) (n m : Nat) (x : Dword) :
    getS (setS n x g) m = if m = n then x else getS g m := find_put hg

theorem getLsbD_setP {f : Fibre} {k : Nat} (j : Nat) (b : Bool) (hk : k < 7) :
    (setP k b f).p.getLsbD j = if j = k then b else f.p.getLsbD j := by
  have hbit : (BitVec.ofNat 7 (1 <<< k)).getLsbD j = decide (j = k) := by
    rw [BitVec.getLsbD_ofNat, Nat.one_shiftLeft, Nat.testBit_two_pow]
    by_cases hjk : j = k
    · simp [hjk, hk]
    · simp [hjk, Ne.symm hjk]
  have hp : (setP k b f).p = (f.p &&& ~~~BitVec.ofNat 7 (1 <<< k)) ||| (if b then BitVec.ofNat 7 (1 <<< k) else 0) := by
    rw [setP, if_pos hk]; rfl
  have hset : (if b then BitVec.ofNat 7 (1 <<< k) else 0).getLsbD j = (b && decide (j = k)) := by
    cases b
    · simp
    · simp [hbit]
  rw [hp, BitVec.getLsbD_or, BitVec.getLsbD_and, BitVec.getLsbD_not, hbit, hset]
  by_cases hjk : j = k
  · simp [hjk]
  · rcases Nat.lt_or_ge j 7 with hj | hj
    · simp [hjk, hj]
    · simp [hjk, BitVec.getLsbD_of_ge _ _ hj]

/-- R12: a predicate reads what was written to it last; p7 reads as 1, and no write reaches it. -/
theorem getP_setP (f : Fibre) (k j : Nat) (b : Bool) (hj : j < 8) :
    getP (setP k b f) j = if j = 7 then true else if j = k then b else getP f j := by
  unfold getP
  by_cases h7 : j = 7
  · simp [h7]
  · by_cases hk : k < 7
    · rw [getLsbD_setP j b hk]
      simp [h7]
    · have hjk : j ≠ k := by omega
      simp [h7, hjk, setP, hk]

/-- Settles O59: each register file is a sparse table in canonical form, so a read after a write is `find_put`; a pair is two
registers, and predicates are bits. -/
theorem registersHoldWhatIsWritten : Obligations.RegistersHoldWhatIsWritten :=
  ⟨fun _ n m x hf => ⟨getV_setV hf n m x, canonical_setV hf n x⟩, fun _ n x hf => getV64_setV64 hf n x,
    fun _ n m x hg => getS_setS hg n m x, getP_setP⟩

/-! ## Reset -/

/-- R9: no core has an entry of its own after reset. -/
theorem coreOf_reset (c : Nat) : coreOf State.reset c = Core.reset c := rfl

/-- R431: no connection is there to keep anything. -/
theorem keptOk_reset : State.reset.KeptOk := ⟨.nil, fun _ h => absurd h List.not_mem_nil⟩

/-- R386: no gang holds a frame. -/
theorem framesFit_reset : State.reset.FramesFit := ⟨fun _ _ h => absurd h List.not_mem_nil, fun _ _ h => absurd h List.not_mem_nil⟩

/-- Settles O60: every table of the reset state is empty, so each reading is its default. -/
theorem resetState : Obligations.ResetState :=
  ⟨rfl, rfl, rfl, rfl, rfl, rfl, rfl, rfl, rfl, rfl, rfl, rfl, rfl, fun _ => ⟨rfl, rfl⟩,
    fun c => by
      rw [coreOf_reset]
      exact ⟨rfl, rfl, rfl, fun _ => rfl, fun _ => ⟨rfl, rfl⟩, rfl⟩,
    fun _ => rfl, reset_mem, framesFit_reset, keptOk_reset⟩

end Sys2Proof.Machine

namespace Sys2Proof.Laws.Words

/-! ## Words of the spec -/

open Sys2Proof.Tests in
/-- Settles O53: the decoder, run on each of the words. -/
theorem decodeWords : Obligations.DecodeWords :=
  ⟨test_word_add, test_word_fmul, test_word_br, test_word_ld, test_word_cvt, test_word_wmul2, test_word_bar, rfl, test_word_orbit,
    rfl, rfl, rfl, test_word_copy, rfl, rfl, rfl, rfl, test_word_mma, test_word_crs, rfl, test_word_ckpt⟩

end Sys2Proof.Laws.Words
end

section
/-! Proofs of O5 and O7, first part: how an issue ends, the rule for instructions that work lane by lane, and what becomes of the
faults that lanes raise. -/

namespace Sys2Proof.Machine

/-! ## The end of an issue -/

/-- R436: with no breakpoint enabled none is met. -/
theorem breakAt_of_noBreaks {s : State} {g : Gang} (hb : NoBreaks s g) (ord : Word) : breakAt s g ord = false := by
  unfold breakAt
  split
  · next c l hctx _ =>
    refine List.any_eq_false.mpr fun b hmem => ?_
    have hoff : b.on = false := by simpa using List.any_eq_false.mp (hb c hctx) b hmem
    simp [hoff]
  · rfl

/-- A change of the gang that stands at a key puts what it makes of that gang there. -/
theorem updGang_congr {k : Nat} {fn : Gang → Gang} {s : State} {g : Gang} (hg : look k s.gangs = some g) :
    updGang k fn s = updGang k (fun _ => fn g) s := by
  rw [updGang, updGang, adj_congr (f' := fun _ => fn g) hg rfl]

theorem look_updGang {k : Nat} {fn : Gang → Gang} {s : State} {g : Gang} (hg : look k s.gangs = some g) :
    look k (updGang k fn s).gangs = some (fn g) := by
  rw [updGang_gangs, look_adj_same, hg]; rfl

/-- A gang after the tests that end its issue: its escalation record and AGE may have moved (R159), and what walks have found for
the instruction is spent (R269). -/
def EndsAs (g g' : Gang) : Prop := g' = { g with esc := g'.esc, age := g'.age, walkFaults := [] }

/-- R159, R383: with no breakpoint enabled an issue ends with the tests of escalation and the traps that are due. -/
theorem finish_of_noBreaks (i : Instr) (h : Hd) {k : Nat} (group act : BitVec 64) {s : State} {g : Gang}
    (hg : look k s.gangs = some g) (hb : NoBreaks s g) :
    ∃ g', EndsAs g g' ∧ finish i h k group act s = settle k (updGang k (fun _ => g') s) := by
  have ha := afterIssue_eq s i group { g with walkFaults := [] }
  have hupd := updGang_congr (fn := fun g => afterIssue s i group { g with walkFaults := [] }) hg
  generalize afterIssue s i group { g with walkFaults := [] } = g' at ha hupd
  have hl : look k (updGang k (fun _ => g') s).gangs = some g' := look_updGang hg
  have hnb : NoBreaks (updGang k (fun _ => g') s) g' := by
    intro c hctx
    rw [ha] at hctx
    exact hb c hctx
  refine ⟨g', ha, ?_⟩
  unfold finish
  rw [hupd]
  cases h.stop
  · rfl
  · dsimp only [if_true]
    rw [if_pos rfl, hl]
    dsimp only
    rw [breakAt_of_noBreaks hnb, if_neg Bool.false_ne_true]

/-- R383: with no fault recorded nothing is due. -/
theorem settle_of_noPend {k : Nat} {s : State} {g : Gang} (hg : look k s.gangs = some g) (hp : g.pend = []) : settle k s = s := by
  rw [settle, hg]
  exact if_pos (.inl hp)

/-- R6: an instruction that may issue, and whose body leaves its gang as g2 in the state s2, no fault being due. -/
theorem issue_ends {i : Instr} {h : Hd} {c : CtrKind} {body : Iss → State → State} {s s2 : State} {g g2 : Gang}
    (hc : CanIssue i c s g) (hh : hdOf i = some h) (hx : exec i s = issue i h c noGate body s)
    (hbody : body (bodyIss i h s g) (bodyState i h s g) = s2) (hl : look s.cur.gang s2.gangs = some g2)
    (hctx : g2.ctx = g.ctx) (hctxs : s2.ctxs = s.ctxs) :
    ∃ g', EndsAs g2 g' ∧ exec i s = .next (settle s.cur.gang (updGang s.cur.gang (fun _ => g') s2)) := by
  have hnb : NoBreaks s2 g2 := by
    intro cx hcx
    rw [hctx, hctxs] at hcx
    exact hc.noBreak cx hcx
  obtain ⟨g', he, hf⟩ := finish_of_noBreaks i h s.cur.group (acting h s g) hl hnb
  have hgo := issue_goes (gate := noGate) (body := body) hc hh rfl
  exact ⟨g', he, by rw [hx, hgo, ← hf, ← hbody]⟩

/-- The same, with no fault recorded: the gang ends as it stands. -/
theorem issue_ends_calm {i : Instr} {h : Hd} {c : CtrKind} {body : Iss → State → State} {s s2 : State} {g g2 : Gang}
    (hc : CanIssue i c s g) (hh : hdOf i = some h) (hx : exec i s = issue i h c noGate body s)
    (hbody : body (bodyIss i h s g) (bodyState i h s g) = s2) (hl : look s.cur.gang s2.gangs = some g2)
    (hctx : g2.ctx = g.ctx) (hctxs : s2.ctxs = s.ctxs) (hp : g2.pend = []) :
    ∃ g', EndsAs g2 g' ∧ exec i s = .next (updGang s.cur.gang (fun _ => g') s2) ∧
      look s.cur.gang (updGang s.cur.gang (fun _ => g') s2).gangs = some g' := by
  obtain ⟨g', he, hnext⟩ := issue_ends hc hh hx hbody hl hctx hctxs
  have hl' : look s.cur.gang (updGang s.cur.gang (fun _ => g') s2).gangs = some g' := look_updGang hl
  have hp' : g'.pend = [] := by rw [he]; exact hp
  exact ⟨g', he, by rw [hnext, settle_of_noPend hl' hp'], hl'⟩

theorem bodyState_ctxs (i : Instr) (h : Hd) (s : State) (g : Gang) : (bodyState i h s g).ctxs = s.ctxs := by
  rw [(bodyState_sameBut i h s g).rest]

/-- A gang with the accounts of an issue (R156, R159, R435) and the fibres that go with them. -/
def withAccounts (i : Instr) (h : Hd) (s : State) (g G : Gang) : Gang :=
  { G with
    fibres := (issued i h s g).fibres, esc := (issued i h s g).esc, age := (issued i h s g).age, lord := (issued i h s g).lord
    issues := g.issues + 1, issuedAt := some s.clk, latch := latchAfter h i g.latch }

theorem issued_eq_withAccounts (i : Instr) (h : Hd) (s : State) (g : Gang) : issued i h s g = withAccounts i h s g g := by
  have he := issued_eq i h s g
  have hf := congrArg Gang.fibres he
  rw [withAccounts, hf]
  exact he

theorem fibres_issued (i : Instr) (h : Hd) (s : State) (g : Gang) : (issued i h s g).fibres = fibresAfter i h s g keep := by
  rw [issued_eq]
  refine List.ext_getElem? fun n => ?_
  simp only [fibresAfter, List.getElem?_mapIdx]
  cases g.fibres[n]? with
  | none => rfl
  | some f =>
    simp only [Option.map_some, Option.some.injEq]
    by_cases ha : laneIn (acting h s g) n = true
    · rw [if_pos ha, if_pos (laneIn_group_of_acting ha)]; rfl
    · rw [if_neg ha]; rfl

/-- An instruction whose body makes the gang `G`, beside the accounts, and changes no other. -/
theorem gang_didG {i : Instr} {h : Hd} {c : CtrKind} {body : Iss → State → State} {s s2 : State} {g G : Gang}
    (hc : CanIssue i c s g) (hh : hdOf i = some h) (hx : exec i s = issue i h c noGate body s)
    (hbody : body (bodyIss i h s g) (bodyState i h s g) = s2) (hl : look s.cur.gang s2.gangs = some (withAccounts i h s g G))
    (hsame : SameBut s.cur.gang (bodyState i h s g) s2) (hctx : G.ctx = g.ctx) (hpend : G.pend = g.pend) : DidG i h s g keep G := by
  have hctxs : s2.ctxs = s.ctxs := by rw [hsame.rest, bodyState_ctxs]
  obtain ⟨g', he, hnext, hl'⟩ := issue_ends_calm hc hh hx hbody hl hctx hctxs (hpend.trans hc.noFault)
  refine ⟨_, g', hnext, hl', ((bodyState_sameBut i h s g).trans hsame).trans (updGang_sameBut _ _ _), ?_⟩
  unfold EndsAs at he
  unfold gangAfter
  rw [he, withAccounts, fibres_issued]

/-- An instruction whose body changes the gang beside its fibres. -/
theorem updGang_didG {i : Instr} {h : Hd} {c : CtrKind} {body : Iss → State → State} {fn : Gang → Gang} {s : State} {g G : Gang}
    (hc : CanIssue i c s g) (hh : hdOf i = some h) (hx : exec i s = issue i h c noGate body s)
    (hbody : body (bodyIss i h s g) (bodyState i h s g) = updGang s.cur.gang fn (bodyState i h s g))
    (hG : fn (issued i h s g) = withAccounts i h s g G) (hctx : G.ctx = g.ctx) (hpend : G.pend = g.pend) : DidG i h s g keep G :=
  gang_didG hc hh hx hbody ((look_updGang (look_bodyState i h hc.gang)).trans (congrArg some hG)) (updGang_sameBut _ _ _) hctx hpend

/-! ## Lane by lane -/

/-- R382: the fibre that a lane's part leaves: where it faults it stays at the instruction. -/
def landed (pc : Pc) (r : Lane) : Fibre := if r.fault.isSome then { r.f with pc := pc } else r.f

/-- R383: the record of a lane's fault, if its part faults. -/
def laneRec (pc : Pc) (fn : Nat → Fibre → Lane) (g : Gang) (l : Nat) : Option TrapRec :=
  (fibreAt g l).bind fun f => (fn l f).fault.map fun x => ⟨l, x.1, x.2, pc⟩

/-- R14, R382, R383: each lane gets its own part, and its fault is recorded, in order. -/
theorem lanesGo_eq {pc : Pc} {fn : Nat → Fibre → Lane} : ∀ {ls : List Nat} {g : Gang}, ls.Nodup →
    lanesGo pc fn ls g = { g with
      fibres := g.fibres.mapIdx (fun l f => if l ∈ ls then landed pc (fn l f) else f)
      s := (lanesGo pc fn ls g).s
      pend := g.pend ++ ls.filterMap (laneRec pc fn g) }
  | [], g, _ => by
    have h : g.fibres.mapIdx (fun _ f => f) = g.fibres := List.ext_getElem? fun n => by simp
    simp [lanesGo, h]
  | l :: ls, g, hn => by
    obtain ⟨hl, hn⟩ := List.nodup_cons.mp hn
    cases hf : fibreAt g l with
    | none =>
      have hstep : lanesGo pc fn (l :: ls) g = lanesGo pc fn ls g := by rw [lanesGo, hf]
      have hrec : laneRec pc fn g l = none := by rw [laneRec, hf]; rfl
      rw [hstep, lanesGo_eq hn, List.filterMap_cons_none hrec]
      congr 1
      refine List.ext_getElem? fun n => ?_
      have hf' : g.fibres[l]? = none := hf
      simp only [List.getElem?_mapIdx, List.mem_cons]
      by_cases hnl : n = l
      · simp [hnl, hf']
      · simp [hnl]
    | some f =>
      obtain ⟨g1, hstep, h1⟩ : ∃ g1, lanesGo pc fn (l :: ls) g = lanesGo pc fn ls g1 ∧
          g1 = { g with fibres := g.fibres.set l (landed pc (fn l f)), s := g1.s, pend := g.pend ++ (laneRec pc fn g l).toList } := by
        refine ⟨_, by rw [lanesGo, hf], ?_⟩
        rw [laneRec, hf]
        unfold landed
        cases hfault : (fn l f).fault with
        | none => simp [setS_fold, hfault]
        | some x => simp [hfault]
      have hother : ∀ j ∈ ls, laneRec pc fn g1 j = laneRec pc fn g j := by
        intro j hj
        have hlj : l ≠ j := fun e => hl (e ▸ hj)
        rw [laneRec, laneRec, fibreAt, fibreAt, h1, List.getElem?_set_ne hlj]
      have hrecs : (l :: ls).filterMap (laneRec pc fn g) = (laneRec pc fn g l).toList ++ ls.filterMap (laneRec pc fn g1) := by
        rw [List.filterMap_congr hother, List.filterMap_cons]
        cases laneRec pc fn g l <;> rfl
      rw [hstep, lanesGo_eq hn, hrecs, ← List.append_assoc]
      have hfibs : g1.fibres.mapIdx (fun l f => if l ∈ ls then landed pc (fn l f) else f) =
          g.fibres.mapIdx (fun j f => if j ∈ l :: ls then landed pc (fn j f) else f) := by
        refine List.ext_getElem? fun n => ?_
        have hf' : g.fibres[l]? = some f := hf
        rw [h1]
        simp only [List.getElem?_mapIdx, List.mem_cons]
        by_cases hnl : n = l
        · have hlt : n < g.fibres.length := by
            rw [hnl]; exact (List.getElem?_eq_some_iff.mp hf').1
          subst hnl
          simp [hf', hl, List.getElem?_set_self hlt]
        · simp [hnl, List.getElem?_set_ne (Ne.symm hnl)]
      rw [hfibs, h1]

theorem scalarsAfter_congr {fn fn' : Nat → Fibre → Lane} {fs : List Fibre} : ∀ {ls : List Nat} {m : AMap Dword},
    (∀ l ∈ ls, ∀ f, fs[l]? = some f → (fn l f).sc = (fn' l f).sc) → scalarsAfter fn fs ls m = scalarsAfter fn' fs ls m
  | [], _, _ => rfl
  | l :: ls, m, hsc => by
    have hrest := fun m => scalarsAfter_congr (m := m) fun j hj => hsc j (List.mem_cons_of_mem _ hj)
    unfold scalarsAfter at hrest ⊢
    rw [List.foldl_cons, List.foldl_cons, hrest]
    cases hf : fs[l]? with
    | none => rfl
    | some f => simp only [hsc l List.mem_cons_self f hf]

/-- The fibres with which the body of an issue works, in the lanes that act. -/
theorem acting_issued {i : Instr} {h : Hd} {s : State} {g : Gang} {l : Nat} {f : Fibre} (ha : laneIn (acting h s g) l = true)
    (hf : (issued i h s g).fibres[l]? = some f) : ∃ f0, fibreAt g l = some f0 ∧ f = past i s g f0 := by
  cases h0 : fibreAt g l with
  | none =>
    have hnone : g.fibres[l]? = none := h0
    rw [issued_eq] at hf
    simp [hnone] at hf
  | some f0 =>
    have hi := fibreAt_issued (i := i) (h := h) (s := s) h0
    rw [if_pos (laneIn_group_of_acting ha)] at hi
    exact ⟨f0, rfl, Option.some.inj (hf.symm.trans hi)⟩

/-- R10 to R12, R14: an instruction that changes each acting fibre by `u`, and writes a result of each to `d`: the one rule for the
instructions whose lanes do not fault. -/
theorem lanes_did {i : Instr} {h : Hd} {c : CtrKind} {body : Iss → State → State} {fn : Nat → Fibre → Lane} {s : State} {g : Gang}
    {bits : Nat} {d : Opnd} {val : Nat → Fibre → Dword} {u : Nat → Fibre → Fibre} (hc : CanIssue i c s g) (hh : hdOf i = some h)
    (hx : exec i s = issue i h c noGate body s)
    (hbody : body (bodyIss i h s g) (bodyState i h s g) = perLane (bodyIss i h s g) fn (bodyState i h s g))
    (hlane : ∀ l f, laneIn (acting h s g) l = true → fibreAt g l = some f →
      fn l (past i s g f) = wr bits d (val l f) (.ok (u l (past i s g f))))
    (hval : ∀ l f, val l (past i s g f) = val l f) :
    Did i h s g (fun l f => writeReg bits d (val l f) (u l f)) (writeScalar bits d val h s g) := by
  have hfn : ∀ l ∈ lanesOf (acting h s g), ∀ f, (issued i h s g).fibres[l]? = some f →
      fn l f = wr bits d (val l f) (.ok (u l f)) := by
    intro l hl f hf
    obtain ⟨f0, hf0, rfl⟩ := acting_issued (mem_lanesOf.mp hl) hf
    rw [hlane l f0 (mem_lanesOf.mp hl) hf0, hval]
  have hlanes := lanesGo_ok (pc := s.cur.pc) (fn := fn) (g := issued i h s g) (nodup_lanesOf (acting h s g))
    fun l hl f hf => by rw [hfn l hl f hf, wr_fault]; rfl
  have hscalars : scalarsAfter fn (issued i h s g).fibres (lanesOf (acting h s g)) (issued i h s g).s =
      writeScalar bits d val h s g g.s := by
    rw [issued_s, scalarsAfter_congr (fn' := fun l f => wr bits d (val l f) (.ok f)) fun l hl f hf => by
      rw [hfn l hl f hf]; cases d <;> rfl]
    exact scalarsAfter_wr (fun l f => by rw [hval]; cases d <;> rfl) g.s
  have hfibres : (issued i h s g).fibres.mapIdx (fun l f => if l ∈ lanesOf (acting h s g) then (fn l f).f else f) =
      fibresAfter i h s g fun l f => writeReg bits d (val l f) (u l f) := by
    refine List.ext_getElem? fun n => ?_
    simp only [fibresAfter, List.getElem?_mapIdx, mem_lanesOf]
    cases h0 : g.fibres[n]? with
    | none => rw [issued_eq]; simp [h0]
    | some f =>
      have hi : (issued i h s g).fibres[n]? = _ := fibreAt_issued h0
      rw [hi]
      simp only [Option.map_some, Option.some.injEq]
      by_cases ha : laneIn (acting h s g) n = true
      · rw [if_pos (laneIn_group_of_acting ha), if_pos ha, if_pos ha, hlane n f ha h0, wr_f, hval]
      · rw [if_neg ha, if_neg ha]
  rw [hscalars, hfibres] at hlanes
  have hl := look_updGang (fn := lanesGo s.cur.pc fn (lanesOf (acting h s g))) (look_bodyState i h hc.gang)
  obtain ⟨g', he, hnext, hl'⟩ := issue_ends_calm hc hh hx hbody hl (by rw [hlanes, issued_eq]) (bodyState_ctxs i h s g)
    (by rw [hlanes, issued_eq]; exact hc.noFault)
  unfold EndsAs at he
  rw [hlanes] at he
  refine ⟨_, g', hnext, hl', ((bodyState_sameBut i h s g).trans (updGang_sameBut _ _ _)).trans (updGang_sameBut _ _ _), ?_, ?_, ?_⟩
  · rw [he, issued_eq]; rfl
  · rw [he]
  · rw [he]

/-- R14: an instruction that changes each acting fibre by `u`, and writes no result. -/
theorem fibres_did {i : Instr} {h : Hd} {c : CtrKind} {body : Iss → State → State} {fn : Nat → Fibre → Lane} {s : State} {g : Gang}
    {u : Nat → Fibre → Fibre} (hc : CanIssue i c s g) (hh : hdOf i = some h) (hx : exec i s = issue i h c noGate body s)
    (hbody : body (bodyIss i h s g) (bodyState i h s g) = perLane (bodyIss i h s g) fn (bodyState i h s g))
    (hlane : ∀ l f, laneIn (acting h s g) l = true → fibreAt g l = some f → fn l (past i s g f) = .ok (u l (past i s g f))) :
    Did i h s g u id :=
  lanes_did (bits := 32) (d := .imm) (val := fun _ _ => 0) hc hh hx hbody hlane fun _ _ => rfl

/-! ## Faults of lanes -/

theorem perfCount_mem (core ctx code n : Nat) (s : State) : (perfCount core ctx code n s).mem = s.mem := by
  rw [(perfCount_sameBut core ctx code n 0 s).rest]

/-- R386: fibres that run, and that faulted in one issue, take one trap. -/
theorem dueRecs_of_oneIssue {g : Gang} {n : Nat}
    (hdue : ∀ r ∈ g.pend, ∃ f, fibreAt g r.lane = some f ∧ f.life = .live ∧ f.li = n) :
    liveRecs g g.pend = g.pend ∧ dueRecs g = g.pend := by
  have hlive : liveRecs g g.pend = g.pend := List.filter_eq_self.mpr fun r hr => by
    obtain ⟨f, hf, hlife, -⟩ := hdue r hr
    simp [hf, hlife]
  have hissue : ∀ r ∈ g.pend, ((fibreAt g r.lane).map (·.li)).getD 0 = n := fun r hr => by
    obtain ⟨f, hf, -, hli⟩ := hdue r hr
    simp [hf, hli]
  refine ⟨hlive, ?_⟩
  unfold dueRecs
  rw [hlive]
  refine List.filter_eq_self.mpr fun r hr => List.all_eq_true.mpr fun q hq => ?_
  simp [hissue r hr, hissue q hq]

/-- R386, R394: records of fibres that run are kept in the frame that they push, or in the report, or stay due. -/
theorem takeTrapRecs_raises {k : Nat} {s : State} {g : Gang} (hg : look k s.gangs = some g) (hlive : liveRecs g g.pend = g.pend) :
    ∃ g', look k (takeTrapRecs k g.pend s).gangs = some g' ∧ (takeTrapRecs k g.pend s).mem = s.mem ∧
      ∀ r ∈ g.pend, FaultRaised g' r := by
  unfold takeTrapRecs
  simp only [hg, hlive]
  cases hp : g.pend with
  | nil => exact ⟨_, look_updGang hg, rfl, fun r hr => absurd hr List.not_mem_nil⟩
  | cons r rs =>
    dsimp only
    split_ifs with hfrozen hfull
    · exact ⟨g, hg, rfl, fun r hr => .inl (by rw [hp]; exact hr)⟩
    · exact ⟨_, look_updGang hg, rfl, fun r hr => .inr (.inr ⟨_, rfl, hr⟩)⟩
    · exact ⟨_, by rw [perfCount_gangs]; exact look_updGang hg, perfCount_mem _ _ _ _ _, fun r hr => .inr (.inl ⟨_, rfl, hr⟩)⟩

/-- R383: the faults of one issue, of fibres that run, are raised at its end. -/
theorem settle_raises {k n : Nat} {s : State} {g : Gang} (hg : look k s.gangs = some g)
    (hdue : ∀ r ∈ g.pend, ∃ f, fibreAt g r.lane = some f ∧ f.life = .live ∧ f.li = n) :
    ∃ g', look k (settle k s).gangs = some g' ∧ (settle k s).mem = s.mem ∧ ∀ r ∈ g.pend, FaultRaised g' r := by
  obtain ⟨hlive, hrecs⟩ := dueRecs_of_oneIssue hdue
  unfold settle
  simp only [hg, hrecs]
  split
  · exact ⟨g, hg, rfl, fun r hr => .inl hr⟩
  · exact takeTrapRecs_raises hg hlive

/-- R14, R382, R383: an instruction that works lane by lane completes, and the fault of each acting lane is raised. -/
theorem lanes_raise {i : Instr} {h : Hd} {c : CtrKind} {body : Iss → State → State} {fn : Nat → Fibre → Lane} {s : State} {g : Gang}
    (hc : CanIssue i c s g) (hh : hdOf i = some h) (hx : exec i s = issue i h c noGate body s)
    (hbody : body (bodyIss i h s g) (bodyState i h s g) = perLane (bodyIss i h s g) fn (bodyState i h s g))
    (hready : GroupReady s g) (hstay : ∀ l f x, (fn l f).fault = some x → (fn l f).f = f) :
    ∃ t g', exec i s = .next t ∧ t.mem = s.mem ∧ look s.cur.gang t.gangs = some g' ∧
      ∀ l f x, laneIn (acting h s g) l = true → fibreAt g l = some f → (fn l (past i s g f)).fault = some x →
        FaultRaised g' ⟨l, x.1, x.2, s.cur.pc⟩ := by
  have hlanes := lanesGo_eq (pc := s.cur.pc) (fn := fn) (g := issued i h s g) (nodup_lanesOf (acting h s g))
  have hpend0 : (issued i h s g).pend = [] := by rw [issued_eq]; exact hc.noFault
  rw [hpend0, List.nil_append] at hlanes
  generalize hg2 : lanesGo s.cur.pc fn (lanesOf (acting h s g)) (issued i h s g) = g2 at hlanes
  have hl : look s.cur.gang (updGang s.cur.gang (lanesGo s.cur.pc fn (lanesOf (acting h s g))) (bodyState i h s g)).gangs = some g2 := by
    rw [look_updGang (look_bodyState i h hc.gang), hg2]
  obtain ⟨g', he, hnext⟩ := issue_ends hc hh hx hbody hl (by rw [hlanes, issued_eq]) (bodyState_ctxs i h s g)
  unfold EndsAs at he
  have hpend : g'.pend = (lanesOf (acting h s g)).filterMap (laneRec s.cur.pc fn (issued i h s g)) := by rw [he, hlanes]
  have hrec : ∀ r, r ∈ g'.pend ↔ ∃ l f x, laneIn (acting h s g) l = true ∧ fibreAt g l = some f ∧
      (fn l (past i s g f)).fault = some x ∧ r = ⟨l, x.1, x.2, s.cur.pc⟩ := by
    intro r
    rw [hpend]
    simp only [List.mem_filterMap, mem_lanesOf, laneRec, Option.bind_eq_some_iff, Option.map_eq_some_iff]
    constructor
    · rintro ⟨l, ha, f, hf, x, hx, rfl⟩
      obtain ⟨f0, hf0, rfl⟩ := acting_issued ha hf
      exact ⟨l, f0, x, ha, hf0, hx, rfl⟩
    · rintro ⟨l, f, x, ha, hf, hx, rfl⟩
      have hi := fibreAt_issued (i := i) (h := h) (s := s) hf
      rw [if_pos (laneIn_group_of_acting ha)] at hi
      exact ⟨l, ha, _, hi, x, hx, rfl⟩
  have hdue : ∀ r ∈ g'.pend, ∃ f, fibreAt g' r.lane = some f ∧ f.life = .live ∧ f.li = g.issues + 1 := by
    intro r hr
    obtain ⟨l, f, x, ha, hf, hx, rfl⟩ := (hrec r).mp hr
    have hi : (issued i h s g).fibres[l]? = _ := fibreAt_issued hf
    rw [if_pos (laneIn_group_of_acting ha)] at hi
    refine ⟨{ past i s g f with pc := s.cur.pc }, ?_, ?_, rfl⟩
    · rw [he, hlanes]
      simp [fibreAt, hi, mem_lanesOf, ha, landed, hx, hstay l _ x hx]
    · have hrun := hready l f (laneIn_group_of_acting ha) hf
      simp only [ready, Bool.and_eq_true, decide_eq_true_eq] at hrun
      exact hrun.1.1
  obtain ⟨g3, hg3, hmem, hraised⟩ := settle_raises (look_updGang (fn := fun _ => g') hl) hdue
  have hmem' : (bodyState i h s g).mem = s.mem := by rw [(bodyState_sameBut i h s g).rest]
  exact ⟨_, g3, hnext, hmem.trans hmem', hg3, fun l f x ha hf hx => hraised _ ((hrec _).mpr ⟨l, f, x, ha, hf, hx, rfl⟩)⟩

end Sys2Proof.Machine
end

section
/-! Proof of O5: the branches, each by the rule for lanes; a register target that is bad is a lane's fault. -/

namespace Sys2Proof.Machine

/-! ## Targets -/

/-- R96: a label's target is the sum modulo 2^48. -/
theorem labelPc_eq (pc : Pc) (off : Word) : labelPc pc off = BitVec.ofInt 48 (pc.toNat + off.toInt) := by
  rw [labelPc, BitVec.ofInt_add, BitVec.ofInt_natCast, BitVec.ofNat_toNat, BitVec.setWidth_eq, BitVec.signExtend]

/-- R97: a target within the address space, aligned, is taken. -/
theorem goTo_ok {t : Dword} (hr : t.toNat < 2 ^ 48) (ha : t.toNat % 4 = 0) (f : Fibre) (ok : Fibre → Lane) :
    goTo f t ok = ok { f with pc := t.setWidth 48 } := by
  rw [goTo, if_neg (by simpa using Nat.div_eq_of_lt hr), if_neg (by simpa using ha)]

/-- R97, R382: a target of 2^48 or more raises RANGE. -/
theorem goTo_range {t : Dword} (hr : 2 ^ 48 ≤ t.toNat) (f : Fibre) (ok : Fibre → Lane) :
    goTo f t ok = .bad f (cause cRANGE) t := by
  have : t.toNat / 2 ^ 48 ≠ 0 := (Nat.div_pos hr (by decide)).ne'
  rw [goTo, if_pos this]

/-- R97, R382: a target that is no multiple of 4 raises MISALIGN. -/
theorem goTo_misalign {t : Dword} (hr : t.toNat < 2 ^ 48) (ha : t.toNat % 4 ≠ 0) (f : Fibre) (ok : Fibre → Lane) :
    goTo f t ok = .bad f (cause cMISALIGN) t := by
  rw [goTo, if_neg (by simpa using Nat.div_eq_of_lt hr), if_pos ha]

/-- A target that faults leaves the fibre as it was. -/
theorem goTo_fault {t : Dword} {f : Fibre} {ok : Fibre → Lane} (hok : ∀ f, (ok f).fault = none) {x : Word × Dword}
    (hx : (goTo f t ok).fault = some x) : (goTo f t ok).f = f := by
  unfold goTo at hx ⊢
  split_ifs at hx ⊢
  · rfl
  · rfl
  · rw [hok] at hx; cases hx

/-- A result in a register does not move the fibre. -/
theorem writeReg_withPc (bits : Nat) (d : Opnd) (x : Dword) (pc : Pc) (f : Fibre) :
    writeReg bits d x { f with pc := pc } = { writeReg bits d x f with pc := pc } := by
  have hv : ∀ n (x : Word) (f : Fibre), setV n x { f with pc := pc } = { setV n x f with pc := pc } := by
    intro n x f
    unfold setV winBank
    split_ifs <;> rfl
  cases d with
  | v n =>
    unfold writeReg setV64
    dsimp only
    split_ifs
    · rw [hv, hv]
    · rw [hv]
  | p k =>
    unfold writeReg setP
    dsimp only
    split_ifs <;> rfl
  | _ => rfl

/-! ## The instructions -/

/-- R99: an instruction whose body does nothing changes the accounts of the issue alone. -/
theorem idle_did {i : Instr} {h : Hd} {s : State} {g : Gang} (hc : CanIssue i .none s g) (hh : hdOf i = some h)
    (hx : exec i s = issue i h .none noGate (fun _ s => s) s) : Did i h s g keep id := by
  have hl := (look_bodyState i h hc.gang).trans (congrArg some (issued_eq_withAccounts i h s g))
  obtain ⟨t, g', hnext, hl, hsame, hg'⟩ := gang_didG hc hh hx rfl hl ⟨rfl, fun _ _ => rfl, fun _ => rfl⟩ rfl rfl
  unfold gangAfter at hg'
  exact ⟨t, g', hnext, hl, hsame, by unfold SameGang; rw [hg'], by rw [hg'], by rw [hg']; rfl⟩

theorem br_did {h : Hd} {off : Word} {s : State} {g : Gang} (hc : CanIssue (.br h off) .none s g) :
    Did (.br h off) h s g (fun _ f => { f with pc := BitVec.ofInt 48 (s.cur.pc.toNat + off.toInt) }) id := by
  rw [← labelPc_eq]
  exact fibres_did hc rfl (rfl : execBr h off s = _) rfl fun _ _ _ _ => rfl

/-- R96: the link is written beside the jump. -/
theorem callLabel_did {h : Hd} {d : Opnd} {off : Word} {s : State} {g : Gang} (hc : CanIssue (.callLabel h d off) .none s g) :
    Did (.callLabel h d off) h s g
      (fun _ f => { writeReg 64 d (num64 (s.cur.pc.toNat + 12)) f with pc := BitVec.ofInt 48 (s.cur.pc.toNat + off.toInt) })
      (writeScalar 64 d (fun _ _ => num64 (s.cur.pc.toNat + 12)) h s g) := by
  rw [← labelPc_eq]
  exact (lanes_did (u := fun _ f => { f with pc := labelPc s.cur.pc off }) hc rfl (rfl : execCallLabel h d off s = _) rfl
    (fun _ _ _ _ => rfl) fun _ _ => rfl).congr (fun _ _ => writeReg_withPc 64 d _ _ _) rfl

/-- R97: every acting fibre's register target can be taken. -/
def GoodTargets (h : Hd) (s : State) (g : Gang) (a : Opnd) : Prop :=
  ∀ l f, laneIn (acting h s g) l = true → fibreAt g l = some f →
    (src h g .n64 f a).toNat < 2 ^ 48 ∧ (src h g .n64 f a).toNat % 4 = 0

/-- R97: the lane of a jump to a register, its target being good: the target is read as the fibre stood. -/
theorem goTo_lane {i : Instr} {h : Hd} {s : State} {g : Gang} {a : Opnd} (hgood : GoodTargets h s g a) (ok : Fibre → Lane) {l : Nat}
    {f : Fibre} (ha : laneIn (acting h s g) l = true) (hf : fibreAt g l = some f) :
    goTo (past i s g f) (rd (issued i h s g) h.ext (rdTy .n64) (past i s g f) a) ok =
      ok { past i s g f with pc := (rd g h.ext (rdTy .n64) (past i s g f) a).setWidth 48 } := by
  obtain ⟨hr, hal⟩ := hgood l f ha hf
  rw [rd_past _ _ _ _ _ _ _ _ (issued_s i h s g), rd_past', goTo_ok hr hal]

theorem brx_did {h : Hd} {a : Opnd} {s : State} {g : Gang} (hc : CanIssue (.brx h a) .none s g) (hgood : GoodTargets h s g a) :
    Did (.brx h a) h s g (fun _ f => { f with pc := (src h g .n64 f a).setWidth 48 }) id :=
  fibres_did hc rfl (rfl : execBrx h a s = _) rfl fun _ _ ha hf => goTo_lane hgood .ok ha hf

theorem ret_did {h : Hd} {a : Opnd} {s : State} {g : Gang} (hc : CanIssue (.ret h a) .none s g) (hgood : GoodTargets h s g a) :
    Did (.ret h a) h s g (fun _ f => { f with pc := (src h g .n64 f a).setWidth 48 }) id :=
  fibres_did hc rfl (rfl : execRet h a s = _) rfl fun _ _ ha hf => goTo_lane hgood .ok ha hf

theorem callRegister_did {h : Hd} {d a : Opnd} {s : State} {g : Gang} (hc : CanIssue (.callRegister h d a) .none s g)
    (hgood : GoodTargets h s g a) : Did (.callRegister h d a) h s g
      (fun _ f => { writeReg 64 d (num64 (s.cur.pc.toNat + 8)) f with pc := (src h g .n64 f a).setWidth 48 })
      (writeScalar 64 d (fun _ _ => num64 (s.cur.pc.toNat + 8)) h s g) :=
  (lanes_did (u := fun _ f => { f with pc := (src h g .n64 f a).setWidth 48 }) hc rfl (rfl : execCallRegister h d a s = _) rfl
    (fun _ _ ha hf => goTo_lane hgood _ ha hf) fun _ _ => rfl).congr (fun _ _ => writeReg_withPc 64 d _ _ _) rfl

/-- R97, R382: what a jump to a register does with targets that cannot be taken. -/
def BadTargetsRaised (i : Instr) (h : Hd) (a : Opnd) (s : State) (g : Gang) : Prop :=
  ∃ (t : State) (g' : Gang), exec i s = .next t ∧ t.mem = s.mem ∧ look s.cur.gang t.gangs = some g' ∧
    ∀ (l : Nat) (f : Fibre), laneIn (acting h s g) l = true → fibreAt g l = some f →
      let v := src h g .n64 f a
      (2 ^ 48 ≤ v.toNat → FaultRaised g' ⟨l, cause cRANGE, v, s.cur.pc⟩) ∧
      (v.toNat < 2 ^ 48 → v.toNat % 4 ≠ 0 → FaultRaised g' ⟨l, cause cMISALIGN, v, s.cur.pc⟩)

/-- R97, R382: an instruction whose lanes jump to the register `a` raises the fault of each bad target. -/
theorem goTo_raises {i : Instr} {h : Hd} {a : Opnd} {body : Iss → State → State} {ok : Fibre → Lane} {s : State} {g : Gang}
    (hc : CanIssue i .none s g) (hh : hdOf i = some h) (hx : exec i s = issue i h .none noGate body s)
    (hbody : body (bodyIss i h s g) (bodyState i h s g) = perLane (bodyIss i h s g)
      (fun _ f => goTo f (rd (issued i h s g) h.ext (rdTy .n64) f a) ok) (bodyState i h s g))
    (hok : ∀ f, (ok f).fault = none) (hready : GroupReady s g) : BadTargetsRaised i h a s g := by
  obtain ⟨t, g', hnext, hmem, hl, hraised⟩ := lanes_raise hc hh hx hbody hready fun _ _ _ => goTo_fault hok
  refine ⟨t, g', hnext, hmem, hl, fun l f ha hf => ⟨fun hr => hraised l f (_, _) ha hf ?_, fun hr hal => hraised l f (_, _) ha hf ?_⟩⟩
  · rw [rd_past _ _ _ _ _ _ _ _ (issued_s i h s g), goTo_range hr]; rfl
  · rw [rd_past _ _ _ _ _ _ _ _ (issued_s i h s g), goTo_misalign hr hal]; rfl

/-- R68: a form that its entry does not list is ILLEGAL. -/
theorem legal_of_not_entryOk {i : Instr} (he : entryOk i = false) : legal i = false := by
  unfold legal
  cases hdOf i with
  | none => rfl
  | some h => simp [he]

/-- Settles O5: every branch works lane by lane, so the rule for lanes says its effect; the faults are those of `goTo`. -/
theorem branches : Obligations.Branches := by
  refine ⟨⟨fun h s g hc => idle_did hc rfl (rfl : execNop h s = _), fun h s g hc => idle_did hc rfl (rfl : execYield h s = _)⟩,
    ⟨fun _ _ _ _ => br_did, fun _ _ _ _ _ => callLabel_did, fun h d off hoff => ?_⟩,
    ⟨fun _ _ _ _ => brx_did, fun _ _ _ _ => ret_did, fun _ _ _ _ _ => callRegister_did⟩, ?_⟩
  · have hentry : decide (off.toNat % 4 = 0) = false := decide_eq_false hoff
    exact ⟨legal_of_not_entryOk hentry, legal_of_not_entryOk hentry⟩
  · rintro h d a s g i (rfl | rfl | rfl) hc hready
    · exact goTo_raises hc rfl (rfl : execBrx h a s = _) rfl (fun _ => rfl) hready
    · exact goTo_raises hc rfl (rfl : execRet h a s = _) rfl (fun _ => rfl) hready
    · exact goTo_raises hc rfl (rfl : execCallRegister h d a s = _) rfl (fun _ => wr_fault _ _ _ _) hready

end Sys2Proof.Machine
end

section
/-! Proof of O7: what system registers read, and what `setsr` writes. -/

namespace Sys2Proof.Machine

/-! ## Reads -/

theorem gangLaunch_issued (i : Instr) (h : Hd) (s : State) (g : Gang) : gangLaunch s (issued i h s g) = gangLaunch s g := by
  rw [issued_eq]; rfl

/-- R100: the accounts of an issue are read by no system register. -/
theorem srValue_issued (i : Instr) (h : Hd) (s : State) (g : Gang) (l : Nat) (f : Fibre) (k : Nat) :
    srValue s (issued i h s g) l (past i s g f) k = srValue s g l f k := by
  rw [issued_eq]
  rfl

/-- R100: a read of a system register that is no counter. -/
theorem getsr_did {h : Hd} {w : Bool} {d : Opnd} {k : Fin 64} {s : State} {g : Gang} (hc : CanIssue (.getsr h w d k) .none s g)
    (hk : k.val < 0x30) (hlog : k.val = 0 → NoReplay s g) :
    Did (.getsr h w d k) h s g (fun l f => writeReg (if w then 64 else 32) d (srValue s g l f k) f)
      (writeScalar (if w then 64 else 32) d (fun l f => srValue s g l f k) h s g) := by
  have hn : k.val = 0 ∨ 0x30 ≤ k.val → NoReplay (bodyState (.getsr h w d k) h s g) (issued (.getsr h w d k) h s g) :=
    fun hor => noReplay_issued (hlog (hor.resolve_right (Nat.not_le.mpr hk)))
  have hl := logGetsr_of_noReplay (x := bodyIss (.getsr h w d k) h s g) (look_bodyState (.getsr h w d k) h hc.gang) hn s.clk
  refine lanes_did (u := fun _ f => f)
    (fn := fun l f => wr (if w then 64 else 32) d (srValue s (issued (.getsr h w d k) h s g) l f k) (.ok f)) hc rfl
    (rfl : execGetsr h w d k s = _) ?_ (fun l f _ _ => by rw [srValue_issued]) fun _ _ => rfl
  dsimp only
  rw [if_neg (Nat.not_le.mpr hk), hl]

/-- R441: a read of a counter of the gang's context: as it stood when the cycle began. -/
theorem getsr_perf_result {h : Hd} {w : Bool} {d : Opnd} {j : Fin 64} {s : State} {g : Gang} (hc : CanIssue (.getsr h w d j) .none s g)
    (hj : 0x30 ≤ j.val) (hlog : NoReplay s g) (hown : (coreOf s g.core).perf.owner = some g.ctx) :
    Result (.getsr h w d j) h s g (if w then 64 else 32) d fun _ _ => find 0 (j.val - 0x30) (coreOf s g.core).perf.ctr := by
  have hl := logGetsr_of_noReplay (x := bodyIss (.getsr h w d j) h s g) (idx := j.val) (look_bodyState (.getsr h w d j) h hc.gang)
    fun _ => noReplay_issued hlog
  have hp : holdsPerf s (issued (.getsr h w d j) h s g) = true := by rw [holdsPerf_issued]; simp [holdsPerf, hown]
  have hcore : (issued (.getsr h w d j) h s g).core = g.core := by rw [issued_eq]
  refine lanes_did (u := fun _ f => f)
    (fn := fun l f => wr (if w then 64 else 32) d (find 0 (j.val - 0x30) (coreOf s g.core).perf.ctr) (.ok f)) hc rfl
    (rfl : execGetsr h w d j s = _) ?_ (fun _ _ _ _ => rfl) fun _ _ => rfl
  dsimp only
  rw [if_pos hj, if_pos hp, hl, hcore]

/-- R236: PSTATE has the open bit and the bank bit, and no other. -/
theorem pstate_bits (f : Fibre) : (pstate f).toNat < 4 ∧ (pstate f).getLsbD 1 = f.psel ∧ (pstate f).getLsbD 0 = f.popen := by
  unfold pstate
  cases f.psel <;> cases f.popen <;> decide

/-- R182: CREW of a crew, a spawned one having none. -/
theorem crewNumber_of_look {s : State} {g : Gang} {c : Crew} (hc : look g.crew s.crews = some c) :
    num64 (crewNumber s g) = if c.spawned then 0xFFFFFFFF else BitVec.ofNat 64 c.index := by
  rw [crewNumber, hc]
  cases hs : c.spawned <;> simp [hs, num64]

theorem gridCoord_of_look {s : State} {g : Gang} {c : Crew} {e : Launch} (hc : look g.crew s.crews = some c)
    (he : gangLaunch s g = some e) (axis : Nat) :
    gridCoord s g axis =
      if c.spawned then 0
      else if e.sym.isSome then (if axis = 0 then c.index else 0)
      else if axis = 0 then c.index % e.pkt.gx
      else if axis = 1 then c.index / e.pkt.gx % e.pkt.gy
      else c.index / (e.pkt.gx * e.pkt.gy) := by
  rw [gridCoord, hc, he]

/-- R182: a number in a grid is that of its coordinates. -/
theorem gridIndex_eq (n x y : Nat) : n / (x * y) * (x * y) + n / x % y * x + n % x = n := by
  calc n / (x * y) * (x * y) + n / x % y * x + n % x
      = (y * (n / x / y) + n / x % y) * x + n % x := by rw [Nat.div_div_eq_div_mul]; ring
    _ = n := by rw [Nat.div_add_mod, Nat.div_add_mod']

/-- R182: the coordinates of a gang whose crew and launch are there. -/
theorem srValue_grid {s : State} {g : Gang} {c : Crew} {e : Launch} (l : Nat) (f : Fibre) (hc : look g.crew s.crews = some c)
    (he : gangLaunch s g = some e) :
    (c.spawned = true → srValue s g l f 0x0A = 0 ∧ srValue s g l f 0x0B = 0 ∧ srValue s g l f 0x0C = 0) ∧
    (c.spawned = false → e.sym.isSome = true →
      srValue s g l f 0x0A = BitVec.ofNat 64 c.index ∧ srValue s g l f 0x0B = 0 ∧ srValue s g l f 0x0C = 0) ∧
    (c.spawned = false → e.sym = none → 0 < e.pkt.gx → 0 < e.pkt.gy → ∃ x y z : Nat, x < e.pkt.gx ∧ y < e.pkt.gy ∧
      z * (e.pkt.gx * e.pkt.gy) + y * e.pkt.gx + x = c.index ∧ srValue s g l f 0x0A = BitVec.ofNat 64 x ∧
      srValue s g l f 0x0B = BitVec.ofNat 64 y ∧ srValue s g l f 0x0C = BitVec.ofNat 64 z) := by
  have hcoord := gridCoord_of_look hc he
  have hx : srValue s g l f 0x0A = num64 (gridCoord s g 0) := rfl
  have hy : srValue s g l f 0x0B = num64 (gridCoord s g 1) := rfl
  have hz : srValue s g l f 0x0C = num64 (gridCoord s g 2) := rfl
  rw [hx, hy, hz, hcoord, hcoord, hcoord]
  refine ⟨fun hs => ?_, fun hs hsym => ?_, fun hs hsym hgx hgy => ?_⟩
  · simp [hs, num64]
  · simp [hs, hsym, num64]
  · exact ⟨_, _, _, Nat.mod_lt _ hgx, Nat.mod_lt _ hgy, gridIndex_eq c.index e.pkt.gx e.pkt.gy, by simp [hs, hsym, num64],
      by simp [hs, hsym, num64], by simp [hs, hsym, num64]⟩

/-- R385: outside a handler the trap registers read 0. -/
theorem srValue_noFrame (s : State) {g : Gang} (l : Nat) (f : Fibre) (hg : g.frames = []) :
    ∀ k ∈ [0x18, 0x19, 0x1A, 0x1B], srValue s g l f k = 0 := by
  have htop : topRec g l = none := by rw [topRec, hg]
  have hpc : topPc g l = 0 := by rw [topPc, hg]
  simp [srValue, htop, hpc, hg]

/-- R385: the trap registers read the top frame: the record of the lane, or, for a lane that did not fault, its PC. -/
theorem srValue_frame (s : State) {g : Gang} (l : Nat) (f : Fibre) {fr : Frame} {frs : List Frame} (hg : g.frames = fr :: frs) :
    srValue s g l f 0x1A = fr.tmask ∧
    (∀ r, fr.recs.find? (fun r => r.lane = l) = some r →
      srValue s g l f 0x18 = r.cause.setWidth 64 ∧ srValue s g l f 0x1B = r.addr ∧ srValue s g l f 0x19 = r.tpc.setWidth 64) ∧
    (fr.recs.find? (fun r => r.lane = l) = none → srValue s g l f 0x18 = 0 ∧ srValue s g l f 0x1B = 0 ∧
      ∀ p, fr.pcs.find? (fun p => p.1 = l) = some p → srValue s g l f 0x19 = p.2.setWidth 64) := by
  have htop : topRec g l = fr.recs.find? fun r => r.lane = l := by rw [topRec, hg]
  refine ⟨by simp [srValue, hg], fun r hr => ?_, fun hr => ⟨?_, ?_, fun p hp => ?_⟩⟩
  · have hpc : topPc g l = r.tpc := by rw [topPc, hg]; dsimp only; rw [hr]
    exact ⟨by simp [srValue, htop, hr], by simp [srValue, htop, hr], by simp [srValue, hpc]⟩
  · simp [srValue, htop, hr]
  · simp [srValue, htop, hr]
  · have hpc : topPc g l = p.2 := by rw [topPc, hg]; dsimp only; rw [hr, hp]; rfl
    simp [srValue, hpc]

/-! ## Writes -/

/-- R100: the value a `setsr` writes. -/
abbrev srWritten (h : Hd) (g : Gang) (w : Bool) (f : Fibre) (a : Opnd) : Dword := if w then src h g .n64 f a else src h g .n32 f a

/-- A source reads the same with the accounts of the issue. -/
theorem rd_issued (i : Instr) (h : Hd) (s : State) (g : Gang) (e : Ext) (r : RdFmt) (f : Fibre) (o : Opnd) :
    rd (issued i h s g) e r f o = rd g e r f o := by
  cases o <;> simp [rd, getS, issued_s]

theorem srSource_issued (i : Instr) (h : Hd) (s : State) (g : Gang) (w : Bool) (f : Fibre) (a : Opnd) :
    srSource (issued i h s g) h w f a = srWritten h g w f a := by
  rw [srSource, rd_issued]
  cases w <;> rfl

theorem srWritten_past (i : Instr) (h : Hd) (s : State) (g : Gang) (w : Bool) (f : Fibre) (a : Opnd) :
    srWritten h g w (past i s g f) a = srWritten h g w f a := by
  cases w <;> exact rd_past' ..

/-- R101: the highest acting lane is the one whose value a gang's register takes. -/
theorem topLane_of_highest {h : Hd} {s : State} {g : Gang} {l : Nat} {f : Fibre} (hl : Highest h s g l f) :
    topLane (acting h s g) = some l := by
  obtain ⟨ha, -, hmax⟩ := hl
  have hmem : l ∈ lanesOf (acting h s g) := mem_lanesOf.mpr ha
  have hsorted : (lanesOf (acting h s g)).Pairwise (· < ·) := List.Pairwise.filter _ List.pairwise_lt_range
  unfold topLane
  obtain ⟨ls, j, hls⟩ : ∃ ls j, lanesOf (acting h s g) = ls ++ [j] :=
    ⟨_, _, (List.dropLast_append_getLast (List.ne_nil_of_mem hmem)).symm⟩
  have hj : j ≤ l := hmax j (mem_lanesOf.mp (by rw [hls]; simp))
  rw [hls] at hmem hsorted ⊢
  rw [List.getLast?_concat]
  rcases List.mem_append.mp hmem with hin | hin
  · exact absurd ((List.pairwise_append.mp hsorted).2.2 l hin j (by simp)) (by omega)
  · simpa using (List.mem_singleton.mp hin).symm

/-- The fibre whose value a gang's register takes, as the body of the issue sees it. -/
theorem highest_issued {i : Instr} {h : Hd} {s : State} {g : Gang} {l : Nat} {f : Fibre} (hl : Highest h s g l f) :
    (topLane (acting h s g)).bind (fibreAt (issued i h s g)) = some (past i s g f) := by
  rw [topLane_of_highest hl, Option.bind_some, fibreAt_issued hl.2.1, if_pos (laneIn_group_of_acting hl.1)]

/-- R101: a write of FST reaches each active fibre's. -/
theorem setsr_fst_did {h : Hd} {w : Bool} {a : Opnd} {s : State} {g : Gang} (hc : CanIssue (.setsr h w a 0x01) .none s g) :
    Did (.setsr h w a 0x01) h s g (fun _ f => { f with fst := (srWritten h g w f a).setWidth 5 }) id :=
  fibres_did hc rfl (rfl : execSetsr h w a 0x01 s = _) rfl fun _ _ _ _ => by dsimp only; rw [srSource_issued]

theorem setsr_ctr_did {h : Hd} {w : Bool} {a : Opnd} {s : State} {g : Gang} (hc : CanIssue (.setsr h w a 0x15) .none s g) :
    Did (.setsr h w a 0x15) h s g (fun _ f => { f with ctr := srWritten h g w f a }) id :=
  fibres_did hc rfl (rfl : execSetsr h w a 0x15 s = _) rfl fun _ _ _ _ => by dsimp only; rw [srSource_issued]

/-- R20: a write of KEY clears CTR. -/
theorem setsrKey_did {h : Hd} {w : Bool} {a : Opnd} {s : State} {g : Gang} (hc : CanIssue (.setsrKey h w a) .none s g) :
    Did (.setsrKey h w a) h s g (fun _ f => { f with key := srWritten h g w f a, ctr := 0 }) id :=
  fibres_did hc rfl (rfl : execSetsrKey h w a s = _) rfl fun _ _ _ _ => by dsimp only; rw [srSource_issued]

/-- R101: TVEC takes the highest active lane's value. -/
theorem setsr_tvec_didG {h : Hd} {w : Bool} {a : Opnd} {s : State} {g : Gang} {l : Nat} {f : Fibre}
    (hc : CanIssue (.setsr h w a 0x1D) .none s g) (hl : Highest h s g l f) :
    DidG (.setsr h w a 0x1D) h s g keep { g with tvec := BitVec.ofNat 48 ((srWritten h g w f a).toNat / 4 * 4) } := by
  refine updGang_didG (fn := fun g' => { g' with tvec := BitVec.ofNat 48 ((srWritten h g w f a).toNat / 4 * 4) }) hc rfl
    (rfl : execSetsr h w a 0x1D s = _) ?_ (by rw [issued_eq_withAccounts]; rfl) rfl rfl
  have hf := highest_issued (i := .setsr h w a 0x1D) hl
  have hk : ((0x1D : Fin 64) : Nat) = 29 := rfl
  simp only [hk, hf, srSource_issued, srWritten_past]

/-! ## TPC -/

/-- R385, log 20: the PC that a write of TPC leaves. -/
def tpcOf (v : Dword) : Pc := BitVec.ofNat 48 (v.toNat / 4 * 4)

/-- R385: one lane's write of TPC, its value taken from the fibre that `g0` has there. -/
def writeTpc (g0 : Gang) (v : Fibre → Dword) (l : Nat) (g : Gang) : Gang :=
  match fibreAt g0 l with
  | some f => setTpc l (v f) g
  | none => g

/-- R385: a record of the top frame after some lanes have written TPC. -/
def tpcWritten (g0 : Gang) (v : Fibre → Dword) (ls : List Nat) (r : TrapRec) : TrapRec :=
  if r.lane ∈ ls then (fibreAt g0 r.lane).elim r fun f => { r with tpc := tpcOf (v f) } else r

theorem tpcWritten_lane (g0 : Gang) (v : Fibre → Dword) (ls : List Nat) (r : TrapRec) : (tpcWritten g0 v ls r).lane = r.lane := by
  unfold tpcWritten
  split
  · cases fibreAt g0 r.lane <;> rfl
  · rfl

/-- R385: a write of a lane outside the list comes before those of the list. -/
theorem tpcWritten_cons {g0 : Gang} {v : Fibre → Dword} {l : Nat} {ls : List Nat} (hl : l ∉ ls) (r : TrapRec) :
    tpcWritten g0 v ls (tpcWritten g0 v [l] r) = tpcWritten g0 v (l :: ls) r := by
  by_cases hr : r.lane = l
  · have houter : tpcWritten g0 v ls (tpcWritten g0 v [l] r) = tpcWritten g0 v [l] r :=
      if_neg (by rw [tpcWritten_lane, hr]; exact hl)
    rw [houter]
    simp [tpcWritten, hr]
  · have hinner : tpcWritten g0 v [l] r = r := if_neg (by simpa using hr)
    rw [hinner]
    simp [tpcWritten, hr]

theorem writeTpc_eq (g0 : Gang) (v : Fibre → Dword) (l : Nat) {g : Gang} {fr : Frame} {frs : List Frame} (hg : g.frames = fr :: frs) :
    writeTpc g0 v l g = { g with frames := { fr with recs := fr.recs.map (tpcWritten g0 v [l]) } :: frs } := by
  unfold writeTpc
  cases hf : fibreAt g0 l with
  | none =>
    have hid : fr.recs.map (tpcWritten g0 v [l]) = fr.recs := List.map_id'' (fun r => by
      unfold tpcWritten
      split
      · next hr => rw [List.mem_singleton.mp hr, hf]; rfl
      · rfl) _
    rw [hid, ← hg]
  | some f =>
    have hmap : fr.recs.map (fun r => if r.lane = l then { r with tpc := tpcOf (v f) } else r) = fr.recs.map (tpcWritten g0 v [l]) :=
      List.map_congr_left fun r _ => by
        by_cases hr : r.lane = l
        · simp [tpcWritten, hr, hf]
        · simp [tpcWritten, hr]
    rw [← hmap]
    simp only [setTpc, hg, tpcOf]

/-- R101, R385: writes of TPC by some lanes, each its own record's. -/
theorem writeTpcs_eq {g0 : Gang} {v : Fibre → Dword} : ∀ {ls : List Nat} {g : Gang} {fr : Frame} {frs : List Frame}, ls.Nodup →
    g.frames = fr :: frs → ls.foldl (fun g l => writeTpc g0 v l g) g =
      { g with frames := { fr with recs := fr.recs.map (tpcWritten g0 v ls) } :: frs }
  | [], g, fr, frs, _, hg => by
    have hid : fr.recs.map (tpcWritten g0 v []) = fr.recs := List.map_id'' (fun r => by
      simp [tpcWritten]) _
    rw [hid, ← hg]; rfl
  | l :: ls, g, fr, frs, hn, hg => by
    obtain ⟨hl, hn⟩ := List.nodup_cons.mp hn
    rw [List.foldl_cons, writeTpc_eq g0 v l hg, writeTpcs_eq hn rfl]
    simp only [List.map_map]
    congr 3
    exact List.map_congr_left fun r _ => tpcWritten_cons hl r

theorem fibreAt_issued_none {i : Instr} {h : Hd} {s : State} {g : Gang} {l : Nat} (hf : fibreAt g l = none) :
    fibreAt (issued i h s g) l = none := by
  have hnone : g.fibres[l]? = none := hf
  rw [issued_eq]
  simp [fibreAt, hnone]

theorem setsr_tpc_didG {h : Hd} {w : Bool} {a : Opnd} {s : State} {g : Gang} {fr : Frame} {frs : List Frame}
    (hc : CanIssue (.setsr h w a 0x19) .none s g) (hg : g.frames = fr :: frs) :
    DidG (.setsr h w a 0x19) h s g keep { g with
      frames := { fr with recs := fr.recs.map (tpcWritten g (fun f => srWritten h g w f a) (lanesOf (acting h s g))) } :: frs } := by
  have hframes : (issued (.setsr h w a 0x19) h s g).frames = fr :: frs := by rw [issued_eq]; exact hg
  refine updGang_didG (fn := fun g' => (lanesOf (acting h s g)).foldl (fun g' l => writeTpc (issued (.setsr h w a 0x19) h s g)
    (fun f => srSource (issued (.setsr h w a 0x19) h s g) h w f a) l g') g') hc rfl
    (rfl : execSetsr h w a 0x19 s = _) rfl ?_ rfl rfl
  rw [writeTpcs_eq (nodup_lanesOf _) hframes]
  have hrecs : fr.recs.map (tpcWritten (issued (.setsr h w a 0x19) h s g)
      (fun f => srSource (issued (.setsr h w a 0x19) h s g) h w f a) (lanesOf (acting h s g))) =
      fr.recs.map (tpcWritten g (fun f => srWritten h g w f a) (lanesOf (acting h s g))) := by
    refine List.map_congr_left fun r _ => ?_
    unfold tpcWritten
    split
    · next ha =>
      have hact := mem_lanesOf.mp ha
      cases hf : fibreAt g r.lane with
      | none => rw [fibreAt_issued_none hf]; rfl
      | some f =>
        rw [fibreAt_issued hf, if_pos (laneIn_group_of_acting hact), Option.elim_some, Option.elim_some]
        dsimp only
        rw [srSource_issued, srWritten_past]
    · rfl
  rw [hrecs, issued_eq_withAccounts]
  rfl

/-! ## Counters -/

theorem mem_keys_ins {β : Type} {k j : Nat} {x : β} : ∀ {m : AMap β}, j ∈ (ins k x m).map (·.1) → j = k ∨ j ∈ m.map (·.1)
  | [], hj => .inl (by simpa [ins] using hj)
  | (i, y) :: m, hj => by
    unfold ins at hj
    split_ifs at hj with hki hik
    · simpa using hj
    · subst hik; exact .inr hj
    · rw [List.map_cons, List.mem_cons] at hj
      rcases hj with rfl | hj
      · exact .inr (by simp)
      · exact (mem_keys_ins hj).imp_right (List.mem_cons_of_mem _)

/-- A table with rising keys keeps them so when an object is placed. -/
theorem keys_rise_ins {β : Type} (k : Nat) (x : β) : ∀ {m : AMap β}, (m.map (·.1)).Pairwise (· < ·) →
    ((ins k x m).map (·.1)).Pairwise (· < ·)
  | [], _ => by simp [ins]
  | (i, y) :: m, hm => by
    obtain ⟨hi, hrest⟩ := List.pairwise_cons.mp hm
    unfold ins
    split_ifs with hki hik
    · refine List.pairwise_cons.mpr ⟨fun j hj => ?_, hm⟩
      rcases List.mem_cons.mp hj with rfl | hj
      · exact hki
      · exact hki.trans (hi j hj)
    · subst hik; exact List.pairwise_cons.mpr ⟨hi, hrest⟩
    · refine List.pairwise_cons.mpr ⟨fun j hj => ?_, keys_rise_ins k x hrest⟩
      rcases mem_keys_ins hj with rfl | hj
      · dsimp only; omega
      · exact hi j hj

theorem wf_foldl_put {d : Dword} : ∀ (es : List (Nat × Dword)) {m : AMap Dword}, wf d m = true →
    wf d (es.foldl (fun m e => put d e.1 e.2 m) m) = true
  | [], _, hm => hm
  | _ :: es, _, hm => wf_foldl_put es (wf_put hm)

theorem find_foldl_put_other {d : Dword} {k : Nat} : ∀ {es : List (Nat × Dword)} {m : AMap Dword}, wf d m = true →
    k ∉ es.map (·.1) → find d k (es.foldl (fun m e => put d e.1 e.2 m) m) = find d k m
  | [], _, _, _ => rfl
  | e :: es, m, hm, hk => by
    rw [List.map_cons, List.mem_cons, not_or] at hk
    rw [List.foldl_cons, find_foldl_put_other (wf_put hm) hk.2, find_put_other hk.1 hm]

/-- Of writes to distinct keys, each stands. -/
theorem find_foldl_put {d : Dword} {k : Nat} {x : Dword} : ∀ {es : List (Nat × Dword)} {m : AMap Dword}, wf d m = true →
    (es.map (·.1)).Pairwise (· < ·) → look k es = some x → find d k (es.foldl (fun m e => put d e.1 e.2 m) m) = x
  | [], _, _, _, hl => by cases hl
  | (j, y) :: es, m, hm, hp, hl => by
    obtain ⟨hj, hp⟩ := List.pairwise_cons.mp hp
    rw [List.foldl_cons]
    unfold look at hl
    split_ifs at hl with hjk
    · obtain rfl := Option.some.inj hl
      subst hjk
      rw [find_foldl_put_other (wf_put hm) fun hin => Nat.lt_irrefl j (hj j hin), find_put_same hm]
    · exact find_foldl_put (wf_put hm) hp hl

/-- R441: as the cycle ends a counter that has been written takes what was written, whatever it has counted. -/
theorem find_endCycle_write {p : Perf} (hctr : wf 0 p.ctr = true) (hwrote : (p.wrote.map (·.1)).Pairwise (· < ·)) (k : Nat) (v : Dword) :
    find 0 k (p.write k v).endCycle.ctr = v &&& 0x8000FFFFFFFFFFFF := by
  have hcounted : ∀ (es : AMap Nat) (m : AMap Dword), wf 0 m = true →
      wf 0 (es.foldl (fun m e => put 0 e.1 (addEvents e.2 (find 0 e.1 m)) m) m) = true :=
    fun es m hm => List.foldlRecOn (motive := fun m => wf (0 : Dword) m = true) es _ hm fun _ hb _ _ => wf_put hb
  exact find_foldl_put (hcounted _ _ hctr) (keys_rise_ins k _ hwrote) look_ins_same

theorem coreOf_updCore_same (c : Nat) (f : Core → Core) (s : State) : coreOf (updCore c f s) c = f (coreOf s c) := by
  simp [coreOf, look_ins_same]

/-- R441: an event moves what this cycle has counted, and nothing else of the counters. -/
theorem perfCount_perf (core ctx code n c : Nat) (s : State) :
    (coreOf (perfCount core ctx code n s) c).perf =
      { (coreOf s c).perf with now := (coreOf (perfCount core ctx code n s) c).perf.now } := by
  unfold perfCount
  split
  · rfl
  · by_cases h : c = core
    · subst h; rw [coreOf_updCore_same]
    · simp [coreOf, look_ins_other h]

/-- R441: the accounts of an issue count its events, and leave the counters as they stood. -/
theorem bodyState_perf (i : Instr) (h : Hd) (s : State) (g : Gang) (c : Nat) :
    (coreOf (bodyState i h s g) c).perf = { (coreOf s c).perf with now := (coreOf (bodyState i h s g) c).perf.now } := by
  unfold bodyState
  rw [perfCount_perf, perfCount_perf]
  rfl

/-- R439 to R441: a write of a counter is kept for the end of the cycle. -/
theorem setsrPerf_writes {h : Hd} {w : Bool} {a : Opnd} {k : Fin 16} {s : State} {g : Gang} {l : Nat} {f : Fibre}
    (hc : CanIssue (.setsrPerf h w a k) .none s g) (hl : Highest h s g l f) (hown : (coreOf s g.core).perf.owner = some g.ctx)
    (hctr : wf 0 (coreOf s g.core).perf.ctr = true) (hwrote : ((coreOf s g.core).perf.wrote.map (·.1)).Pairwise (· < ·)) :
    ∃ t, exec (.setsrPerf h w a k) s = .next t ∧ t.mem = s.mem ∧ (coreOf t g.core).perf.ctr = (coreOf s g.core).perf.ctr ∧
      find 0 k.val (coreOf t g.core).perf.endCycle.ctr = srWritten h g w f a &&& 0x8000FFFFFFFFFFFF := by
  have hi := issued_eq (.setsrPerf h w a k) h s g
  have hperf := bodyState_perf (.setsrPerf h w a k) h s g g.core
  have hp : (!holdsPerf s (issued (.setsrPerf h w a k) h s g)) = false := by rw [holdsPerf_issued]; simp [holdsPerf, hown]
  have hcore : (issued (.setsrPerf h w a k) h s g).core = g.core := by rw [hi]
  obtain ⟨g', he, hnext, hl'⟩ := issue_ends_calm (s2 := updCore g.core (fun c => { c with
      perf := c.perf.write k (srWritten h g w f a) }) (bodyState (.setsrPerf h w a k) h s g)) hc rfl
    (rfl : execSetsrPerf h w a k s = _) (by
      have hf := highest_issued (i := .setsrPerf h w a k) hl
      dsimp only
      rw [hp, if_neg Bool.false_ne_true]
      simp only [hf, srSource_issued, srWritten_past, hcore])
    (look_bodyState _ h hc.gang) (by rw [hi]) (bodyState_ctxs _ h s g) (by rw [hi]; exact hc.noFault)
  have hend : ∀ s2 : State, coreOf (updGang s.cur.gang (fun _ => g') s2) g.core = coreOf s2 g.core := fun _ => rfl
  have hmem : (bodyState (.setsrPerf h w a k) h s g).mem = s.mem := by rw [(bodyState_sameBut _ h s g).rest]
  refine ⟨_, hnext, hmem, ?_, ?_⟩
  · rw [hend, coreOf_updCore_same, hperf]; rfl
  · rw [hend, coreOf_updCore_same]
    exact find_endCycle_write (by rw [hperf]; exact hctr) (by rw [hperf]; exact hwrote) k.val _

/-- R100, R182, R236: the registers that the fibre, its gang and the device hold as they are. -/
theorem srValue_held (s : State) (g : Gang) (l : Nat) (f : Fibre) :
    srValue s g l f 0x00 = s.clk ∧ srValue s g l f 0x01 = f.fst.setWidth 64 ∧ srValue s g l f 0x02 = BitVec.ofNat 64 l ∧
    srValue s g l f 0x03 = f.fid ∧ srValue s g l f 0x04 = g.gid ∧ srValue s g l f 0x06 = BitVec.ofNat 64 g.core ∧
    srValue s g l f 0x07 = BitVec.ofNat 64 (g.core / 32) ∧ srValue s g l f 0x08 = BitVec.ofNat 64 (g.core / 384) ∧
    srValue s g l f 0x09 = BitVec.ofNat 64 g.width ∧ srValue s g l f 0x10 = f.bound ∧ srValue s g l f 0x11 = f.incsel.setWidth 64 ∧
    srValue s g l f 0x12 = f.pcnt.setWidth 64 ∧ srValue s g l f 0x13 = f.acnt.setWidth 64 ∧ srValue s g l f 0x14 = f.key ∧
    srValue s g l f 0x15 = f.ctr ∧ srValue s g l f 0x1C = BitVec.ofNat 64 g.frames.length ∧ srValue s g l f 0x1D = g.tvec.setWidth 64 ∧
    srValue s g l f 0x24 = BitVec.ofNat 64 g.held ∧ srValue s g l f 0x28 = BitVec.ofNat 64 g.ldcnt ∧
    srValue s g l f 0x29 = BitVec.ofNat 64 g.stcnt ∧ srValue s g l f 0x2A = BitVec.ofNat 64 g.cpcnt ∧
    srValue s g l f 0x2B = BitVec.ofNat 64 g.mtcnt ∧ srValue s g l f 0x0D = f.fidx.setWidth 64 ∧
    srValue s g l f 0x0E = f.fidy.setWidth 64 ∧ srValue s g l f 0x0F = f.fidz.setWidth 64 :=
  ⟨rfl, rfl, rfl, rfl, rfl, rfl, rfl, rfl, rfl, rfl, rfl, rfl, rfl, rfl, rfl, rfl, rfl, rfl, rfl, rfl, rfl, rfl, rfl, rfl, rfl⟩

/-- Settles O7: reads and writes of a fibre's registers by the rule for lanes; TVEC and TPC are the gang's; a written counter
stands among the core's until the cycle ends. -/
theorem systemRegisters : Obligations.SystemRegisters := by
  refine ⟨⟨fun _ _ _ _ _ _ hc hk hlog => getsr_did hc hk hlog, srValue_held, fun _ _ _ f => pstate_bits f,
      fun _ _ l f _ hc => ⟨crewNumber_of_look hc, fun _ he => srValue_grid l f hc he⟩, fun s _ l f hg => srValue_noFrame s l f hg,
      fun s _ l f _ _ hg => srValue_frame s l f hg⟩,
    ⟨fun _ _ _ _ _ => setsr_fst_did, fun _ _ _ _ _ => setsr_ctr_did, fun _ _ _ _ _ => setsrKey_did,
      fun _ _ _ _ _ _ _ hc hl => setsr_tvec_didG hc hl⟩, fun h w a s g fr frs hc hg => ?_,
    fun h w d k s g hc hlog hown => ?_, fun _ _ _ _ _ _ _ _ hc hl hown hctr hwrote => setsrPerf_writes hc hl hown hctr hwrote⟩
  · have hdid := setsr_tpc_didG hc hg
    dsimp only
    convert hdid using 5
    refine funext fun r => ?_
    unfold tpcWritten
    cases ha : laneIn (acting h s g) r.lane with
    | true => rw [if_pos (mem_lanesOf.mpr ha)]; cases fibreAt g r.lane <;> rfl
    | false => rw [if_neg (by simp [mem_lanesOf, ha])]; cases fibreAt g r.lane <;> rfl
  · have hres := getsr_perf_result hc (Nat.le_add_right 0x30 k.val) hlog hown
    simpa only [Nat.add_sub_cancel_left] using hres

end Sys2Proof.Machine
end

section
/-! Proof of O21, first part: lines that enter and leave the caches, and what that leaves alone. -/

namespace Sys2Proof.Machine

/-! ## Tables -/

theorem look_insAll_other {β : Type} {k : Nat} : ∀ {xs : List (Nat × β)} {m : AMap β}, k ∉ xs.map (·.1) →
    look k (insAll xs m) = look k m
  | [], _, _ => rfl
  | x :: xs, m, hk => by
    rw [List.map_cons, List.mem_cons, not_or] at hk
    exact (look_insAll_other (xs := xs) hk.2).trans (look_ins_other hk.1)

/-- Of objects placed at distinct keys, each stands. -/
theorem look_insAll {β : Type} {x : Nat × β} : ∀ {xs : List (Nat × β)} {m : AMap β}, (xs.map (·.1)).Nodup → x ∈ xs →
    look x.1 (insAll xs m) = some x.2
  | y :: xs, m, hn, hx => by
    obtain ⟨hy, hn⟩ := List.nodup_cons.mp hn
    rcases List.mem_cons.mp hx with rfl | hx
    · exact (look_insAll_other (xs := xs) hy).trans look_ins_same
    · exact look_insAll (xs := xs) hn hx

theorem mem_keepLines {β : Type} {hit : Nat → Bool} {per : Nat} {m : AMap β} {x : Nat × β} :
    x ∈ keepLines hit per m ↔ x ∈ m ∧ hit (x.1 / per) = false := by
  simp [keepLines]

theorem keepLines_all {β : Type} (per : Nat) (m : AMap β) : keepLines (fun _ => true) per m = [] := by
  simp [keepLines]

theorem coreOf_updCore_other {c core : Nat} (h : c ≠ core) (f : Core → Core) (s : State) :
    coreOf (updCore core f s) c = coreOf s c := by
  simp [coreOf, look_ins_other h]

/-! ## What the operations of L1 leave alone -/

/-- Cores, the list of requests and the model's own counters alone have changed. -/
def L1Only (s t : State) : Prop := t = { s with cores := t.cores, reqs := t.reqs, nextId := t.nextId, fresh := t.fresh }

theorem L1Only.refl (s : State) : L1Only s s := rfl

theorem L1Only.trans {s t u : State} (h : L1Only s t) (h' : L1Only t u) : L1Only s u := by
  unfold L1Only at *
  rw [h', h]

theorem updCore_l1Only (c : Nat) (f : Core → Core) (s : State) : L1Only s (updCore c f s) := rfl

theorem perfCount_l1Only (core ctx code n : Nat) (s : State) : L1Only s (perfCount core ctx code n s) := by
  unfold perfCount
  split
  · exact .refl s
  · exact updCore_l1Only _ _ _

theorem pushReq_l1Only (op core ctx line : Nat) (act : ReqAct) (s : State) : L1Only s (pushReq op core ctx line act s) :=
  L1Only.trans (by exact rfl) (perfCount_l1Only _ _ _ _ _)

theorem discardL1_l1Only (core : Nat) (hit : Nat → Bool) (s : State) : L1Only s (discardL1 core hit s) := rfl

/-- R252: what a discard of lines leaves of the core. -/
theorem coreOf_discardL1 (core : Nat) (hit : Nat → Bool) (s : State) : coreOf (discardL1 core hit s) core =
    { coreOf s core with l1 := keepLines hit 128 (coreOf s core).l1, l1Desc := keepLines hit 2 (coreOf s core).l1Desc } :=
  coreOf_updCore_same core (fun c => { c with l1 := keepLines hit 128 c.l1, l1Desc := keepLines hit 2 c.l1Desc }) s

/-- R255: one merge that leaves a core: the ordinary copy goes, and the request is made. -/
def mergeOne (core : Nat) (s : State) (u : UoLine) : State :=
  pushReq 0 core u.ctx u.line (.merge u) (discardL1 core (· = u.line) s)

theorem mergeUo_eq (core : Nat) (hit : Nat → Bool) (s : State) :
    let us := (coreOf s core).uo.filter fun u => hit u.line
    mergeUo core hit s = if us = [] then s else
      updCore core (fun c => { c with uo := c.uo.filter fun u => !hit u.line }) (us.foldl (mergeOne core) s) := by
  dsimp only [mergeUo]
  split
  · next h => rw [h]; rfl
  · rfl

theorem mergeOne_l1Only (core : Nat) (s : State) (u : UoLine) : L1Only s (mergeOne core s u) :=
  (discardL1_l1Only _ _ _).trans (pushReq_l1Only _ _ _ _ _ _)

theorem mergeOnes_l1Only (core : Nat) (us : List UoLine) (s : State) : L1Only s (us.foldl (mergeOne core) s) :=
  List.foldlRecOn (motive := L1Only s) us _ (.refl s) fun _ h u _ => h.trans (mergeOne_l1Only core _ u)

theorem mergeUo_l1Only (core : Nat) (hit : Nat → Bool) (s : State) : L1Only s (mergeUo core hit s) := by
  rw [mergeUo_eq]
  split
  · exact .refl s
  · exact (mergeOnes_l1Only _ _ _).trans (updCore_l1Only _ _ _)

theorem evictL1_l1Only (core line : Nat) (s : State) : L1Only s (evictL1 core line s) :=
  (mergeUo_l1Only _ _ _).trans (updCore_l1Only _ _ _)

theorem makeRoom_l1Only (core line : Nat) (s : State) : L1Only s (makeRoom core line s) := by
  unfold makeRoom
  dsimp only
  split
  · exact .refl s
  · exact L1Only.trans (by exact rfl) (evictL1_l1Only _ _ _)

/-! ## Requests that stay on their way -/

/-- R451: a request to a line that is not hit is left as it is. -/
theorem mem_reqs_discardL1 {core : Nat} {hit : Nat → Bool} {s : State} {r : Req} (hr : r ∈ s.reqs) (hl : hit r.line = false) :
    r ∈ (discardL1 core hit s).reqs := by
  refine List.mem_map.mpr ⟨r, hr, ?_⟩
  split
  · simp [hl]
  · rfl

/-- R451: so is one that is no load. -/
theorem mem_reqs_discardL1_of_write {core : Nat} {hit : Nat → Bool} {s : State} {r : Req} (hr : r ∈ s.reqs)
    (hw : isWrite r.act = true) : r ∈ (discardL1 core hit s).reqs := by
  refine List.mem_map.mpr ⟨r, hr, ?_⟩
  split
  · next he => rw [he] at hw; cases hw
  · rfl

theorem reqs_pushReq (op core ctx line : Nat) (act : ReqAct) (s : State) : (pushReq op core ctx line act s).reqs =
    s.reqs ++ [⟨s.nextId, op, core, ctx, line, act, .mesh, s.clk, false⟩] := by
  unfold pushReq freshId perfCount
  dsimp only
  split <;> rfl

theorem mem_reqs_pushReq {op core ctx line : Nat} {act : ReqAct} {s : State} {r : Req} (hr : r ∈ s.reqs) :
    r ∈ (pushReq op core ctx line act s).reqs := by
  rw [reqs_pushReq]; exact List.mem_append_left _ hr

theorem mem_reqs_mergeUo {core : Nat} {hit : Nat → Bool} {s : State} {r : Req} (hr : r ∈ s.reqs) (hl : hit r.line = false) :
    r ∈ (mergeUo core hit s).reqs := by
  rw [mergeUo_eq]
  split
  · exact hr
  · refine List.foldlRecOn (motive := fun t => r ∈ State.reqs t) _ _ hr fun t ht u hu => mem_reqs_pushReq (mem_reqs_discardL1 ht ?_)
    have hne : r.line ≠ u.line := by
      rintro he
      have hhit := (List.mem_filter.mp hu).2
      rw [← he, hl] at hhit
      cases hhit
    exact decide_eq_false hne

/-- R252: room for the line of a request is made at the cost of another line, so that the request keeps its place. -/
theorem mem_reqs_makeRoom {core : Nat} {s : State} {r : Req} (hr : r ∈ s.reqs) : r ∈ (makeRoom core r.line s).reqs := by
  unfold makeRoom
  dsimp only
  split
  · exact hr
  · next hfull =>
    rw [not_or, List.contains_iff_mem, Nat.not_lt] at hfull
    obtain ⟨hout, hlen⟩ := hfull
    refine mem_reqs_mergeUo (s := (freshVal s).2) hr (decide_eq_false fun he => hout ?_)
    have hpos : 0 < (linesIn (coreOf s core)).length := Nat.lt_of_lt_of_le (by decide) hlen
    have hlt := Nat.mod_lt (freshVal s).1.toNat hpos
    rw [he, List.getD_eq_getElem _ _ hlt]
    exact List.getElem_mem hlt

/-! ## Evictions -/

theorem asked_of_mem {s t : State} {op core line : Nat} {act : ReqAct} (h : ∀ r ∈ s.reqs, r.act = act → r ∈ t.reqs)
    (ha : Asked s op core line act) : Asked t op core line act := by
  obtain ⟨r, hr, hop, hcore, hline, hact, hst⟩ := ha
  exact ⟨r, h r hr hact, hop, hcore, hline, hact, hst⟩

theorem asked_mergeOne (core : Nat) (s : State) (u : UoLine) : Asked (mergeOne core s u) 0 core u.line (.merge u) :=
  ⟨_, by rw [mergeOne, reqs_pushReq]; exact List.mem_append_right _ (List.mem_singleton.mpr rfl), rfl, rfl, rfl, rfl, rfl⟩

/-- R255: every update-only line of the list is on its way to its home. -/
theorem asked_mergeOnes {core : Nat} {u : UoLine} : ∀ {us : List UoLine} {s : State}, u ∈ us →
    Asked (us.foldl (mergeOne core) s) 0 core u.line (.merge u)
  | v :: us, s, hu => by
    have hstay : ∀ t : State, Asked t 0 core u.line (.merge u) → Asked (us.foldl (mergeOne core) t) 0 core u.line (.merge u) :=
      fun t ht => List.foldlRecOn (motive := fun t => Asked t 0 core u.line (.merge u)) us _ ht fun _ h _ _ =>
        asked_of_mem (fun r hr hact => mem_reqs_pushReq (mem_reqs_discardL1_of_write hr (by rw [hact]; rfl))) h
    rcases List.mem_cons.mp hu with rfl | hu
    · exact hstay _ (asked_mergeOne core s u)
    · exact asked_mergeOnes (us := us) hu

theorem asked_mergeUo {core : Nat} {hit : Nat → Bool} {s : State} {u : UoLine} (hu : u ∈ (coreOf s core).uo) (hl : hit u.line = true) :
    Asked (mergeUo core hit s) 0 core u.line (.merge u) := by
  have hmem : u ∈ (coreOf s core).uo.filter fun u => hit u.line := List.mem_filter.mpr ⟨hu, hl⟩
  rw [mergeUo_eq, if_neg (List.ne_nil_of_mem hmem)]
  exact asked_mergeOnes (core := core) (s := s) hmem

theorem uo_mergeOne (core : Nat) (s : State) (u : UoLine) : (coreOf (mergeOne core s u) core).uo = (coreOf s core).uo := by
  have hpush : ∀ t : State, (coreOf (pushReq 0 core u.ctx u.line (.merge u) t) core).uo = (coreOf t core).uo := fun t => by
    unfold pushReq
    rw [(perfCount_sameBut _ _ _ _ 0 _).cores core]
    rfl
  rw [mergeOne, hpush, coreOf_discardL1]

/-- R255: the lines that are hit leave the update-only lines. -/
theorem uo_mergeUo (core : Nat) (hit : Nat → Bool) (s : State) :
    (coreOf (mergeUo core hit s) core).uo = (coreOf s core).uo.filter fun u => !hit u.line := by
  rw [mergeUo_eq]
  split
  · next h =>
    refine (List.filter_eq_self.mpr fun u hu => ?_).symm
    simpa using List.filter_eq_nil_iff.mp h u hu
  · have hfold : ∀ us : List UoLine, (coreOf (us.foldl (mergeOne core) s) core).uo = (coreOf s core).uo := fun us =>
      List.foldlRecOn (motive := fun t => (coreOf t core).uo = (coreOf s core).uo) us _ rfl fun t h u _ => (uo_mergeOne core t u).trans h
    rw [coreOf_updCore_same, hfold]

/-- R252, R254, R255: a line leaves L1: no copy of it stays, and its updates are on their way. -/
theorem evictL1_spec (core line : Nat) (s : State) :
    (∀ x ∈ (coreOf (evictL1 core line s) core).l1, lineOf x.1 ≠ line) ∧ (∀ u ∈ (coreOf (evictL1 core line s) core).uo, u.line ≠ line) ∧
      ∀ u ∈ (coreOf s core).uo, u.line = line → Asked (evictL1 core line s) 0 core line (.merge u) := by
  unfold evictL1
  rw [coreOf_updCore_same]
  refine ⟨fun x hx => ?_, fun u hu => ?_, fun u hu hl => ?_⟩
  · dsimp only at hx
    simpa [lineOf] using (mem_keepLines.mp hx).2
  · dsimp only at hu
    rw [uo_mergeUo] at hu
    simpa using (List.mem_filter.mp hu).2
  · subst hl
    exact asked_of_mem (fun _ hr _ => hr) (asked_mergeUo hu (decide_eq_true rfl))

theorem mem_distinct {x : Nat} : ∀ {xs : List Nat}, x ∈ distinct xs ↔ x ∈ xs
  | [] => Iff.rfl
  | y :: ys => by
    rw [distinct, List.mem_cons, List.mem_filter, mem_distinct, List.mem_cons]
    by_cases h : x = y <;> simp [h]

/-- R252, R254: a core's L1 holds a line in ordinary copies or as an update-only line. -/
theorem mem_linesIn {c : Core} {line : Nat} (h : (∃ x ∈ c.l1, lineOf x.1 = line) ∨ ∃ u ∈ c.uo, u.line = line) : line ∈ linesIn c := by
  refine List.mem_append.mpr (h.imp ?_ ?_)
  · rintro ⟨x, hx, rfl⟩
    exact mem_distinct.mpr (List.mem_map.mpr ⟨x, hx, rfl⟩)
  · rintro ⟨u, hu, rfl⟩
    exact List.mem_map.mpr ⟨u, hu, rfl⟩

/-- R252, R255: the step in which a line leaves a core's L1. -/
theorem l1Eviction_next {s : State} {core line : Nat}
    (h : (∃ x ∈ (coreOf s core).l1, lineOf x.1 = line) ∨ ∃ u ∈ (coreOf s core).uo, u.line = line) :
    exec (.l1Eviction core line) s = .next (evictL1 core line s) := by
  change execL1Eviction core line s = _
  rw [execL1Eviction, if_pos (List.contains_iff_mem.mpr (mem_linesIn h))]

/-! ## Fills -/

/-- R412: an RDC that makes room changes nothing else. -/
theorem roomRdc_eq (die line : Nat) (s : State) : ∃ (m : AMap (AMap Byte)) (n : AMap (AMap (BitVec 16))) (k : Nat),
    roomRdc die line s = { s with rdc := m, rdcDesc := n, fresh := k } := by
  unfold roomRdc
  dsimp only
  split_ifs
  · exact ⟨_, _, _, rfl⟩
  · exact ⟨_, _, _, rfl⟩
  · exact ⟨_, _, _, rfl⟩

/-- R252: a fill that may be placed in L1 is; the state then. -/
def fillL1 (l1 : Bool) (core line : Nat) (a : Answer) (s : State) : State :=
  if l1 then updCore core (fun c => { c with l1 := insAll a.fill c.l1, l1Desc := insAll a.descs c.l1Desc }) (makeRoom core line s) else s

/-- R262: the same of the RDC. -/
def fillRdc (rdc : Bool) (die line : Nat) (a : Answer) (s : State) : State :=
  let s := if rdc then roomRdc die line s else s
  if rdc then { s with rdc := ins die (insAll a.fill (rdcOf s die)) s.rdc, rdcDesc := ins die (insAll a.descs (rdcDescOf s die)) s.rdcDesc }
  else s

theorem fillL1_l1Only (l1 : Bool) (core line : Nat) (a : Answer) (s : State) : L1Only s (fillL1 l1 core line a s) := by
  cases l1
  · exact .refl s
  · rw [fillL1, if_pos rfl]
    exact (makeRoom_l1Only _ _ _).trans (updCore_l1Only _ _ _)

theorem fillL1_spec {l1 : Bool} {a : Answer} (core line : Nat) (s : State) (hn : (a.fill.map (·.1)).Nodup) :
    if l1 then ∀ x ∈ a.fill, look x.1 (coreOf (fillL1 l1 core line a s) core).l1 = some x.2
    else (coreOf (fillL1 l1 core line a s) core).l1 = (coreOf s core).l1 := by
  cases l1
  · exact rfl
  · intro x hx
    rw [fillL1, if_pos rfl, coreOf_updCore_same]
    exact look_insAll hn hx

theorem fillRdc_eq (rdc : Bool) (die line : Nat) (a : Answer) (s : State) : ∃ (m : AMap (AMap Byte)) (n : AMap (AMap (BitVec 16))) (k : Nat),
    fillRdc rdc die line a s = { s with rdc := m, rdcDesc := n, fresh := k } := by
  cases rdc
  · exact ⟨_, _, _, rfl⟩
  · obtain ⟨m, n, k, h⟩ := roomRdc_eq die line s
    unfold fillRdc
    rw [if_pos rfl, if_pos rfl, h]
    exact ⟨_, _, _, rfl⟩

theorem fillRdc_spec {rdc : Bool} {a : Answer} (die line : Nat) (s : State) (hn : (a.fill.map (·.1)).Nodup) :
    if rdc then ∀ x ∈ a.fill, look x.1 (rdcOf (fillRdc rdc die line a s) die) = some x.2 else (fillRdc rdc die line a s).rdc = s.rdc := by
  cases rdc
  · exact rfl
  · intro x hx
    unfold fillRdc
    rw [if_pos rfl, if_pos rfl, rdcOf, look_ins_same, Option.getD_some]
    exact look_insAll hn hx

/-- R252, R262: the arrival of a fill. -/
theorem cacheFillArrival_next {s : State} {r : Req} {a : Answer} {l1 rdc : Bool} {secs : List Nat} (hr : reqById s r.id = some r)
    (hst : r.stage = .filled a) (hact : r.act = .read l1 rdc secs) (hup : replyUp s r = true) :
    exec (.cacheFillArrival r.id) s =
      .next (setStage r.id (.answered a) (fillRdc rdc (dieOf r.core) r.line a (fillL1 l1 r.core r.line a s))) := by
  change execCacheFillArrival r.id s = _
  unfold execCacheFillArrival
  rw [hr]
  dsimp only
  rw [hst, hact]
  dsimp only
  rw [hup]
  rfl

theorem mem_of_reqById {s : State} {id : Nat} {r : Req} (hr : reqById s id = some r) : r ∈ s.reqs := List.mem_of_find?_eq_some hr

/-- R252, R262: what a fill's arrival does: the caches that it is meant for hold it, and its answer goes on. -/
theorem cacheFillArrival_fills {s : State} {r : Req} {a : Answer} {l1 rdc : Bool} {secs : List Nat} (hr : reqById s r.id = some r)
    (hst : r.stage = .filled a) (hact : r.act = .read l1 rdc secs) (hup : replyUp s r = true) (hn : (a.fill.map (·.1)).Nodup) :
    ∃ t, exec (.cacheFillArrival r.id) s = .next t ∧ t.mem = s.mem ∧ t.gangs = s.gangs ∧
      (if l1 then ∀ x ∈ a.fill, look x.1 (coreOf t r.core).l1 = some x.2 else (coreOf t r.core).l1 = (coreOf s r.core).l1) ∧
      (if rdc then ∀ x ∈ a.fill, look x.1 (rdcOf t (dieOf r.core)) = some x.2 else t.rdc = s.rdc) ∧
      { r with stage := .answered a } ∈ t.reqs := by
  have hl1 := fillL1_l1Only l1 r.core r.line a s
  have hin : r ∈ (fillL1 l1 r.core r.line a s).reqs := by
    cases l1
    · exact mem_of_reqById hr
    · exact mem_reqs_makeRoom (mem_of_reqById hr)
  have hcopies := fillL1_spec (l1 := l1) (a := a) r.core r.line s hn
  have hnext := cacheFillArrival_next hr hst hact hup
  generalize fillL1 l1 r.core r.line a s = s1 at *
  have hrdc := fillRdc_spec (rdc := rdc) (a := a) (dieOf r.core) r.line s1 hn
  obtain ⟨m, n, k, hs2⟩ := fillRdc_eq rdc (dieOf r.core) r.line a s1
  rw [hs2] at hrdc hnext
  have hrdc1 : s1.rdc = s.rdc := by rw [hl1]
  refine ⟨_, hnext, by rw [hl1]; rfl, by rw [hl1]; rfl, hcopies, ?_, List.mem_map.mpr ⟨r, hin, if_pos rfl⟩⟩
  rw [← hrdc1]
  exact hrdc

end Sys2Proof.Machine
end

section
/-! Proof of O21, second part: requests that are performed at the home when a fill completes, and finished walks. -/

namespace Sys2Proof.Machine

/-! ## What the home leaves alone -/

/-- Memory, its descriptors and what takes note of a write alone have changed, beside requests, samples and the model's counters. -/
def HomeOnly (s t : State) : Prop := t = { s with
  mem := t.mem, desc := t.desc, cores := t.cores, queues := t.queues, reqs := t.reqs, ops := t.ops, fresh := t.fresh, nextId := t.nextId }

theorem HomeOnly.refl (s : State) : HomeOnly s s := rfl

theorem HomeOnly.trans {s t u : State} (h : HomeOnly s t) (h' : HomeOnly t u) : HomeOnly s u := by
  unfold HomeOnly at *
  rw [h', h]

theorem writeHome_homeOnly (unit : Nat) (bs : List (Nat × Byte)) (s : State) : HomeOnly s (writeHome unit bs s) := by
  unfold HomeOnly
  rw [writeHome_eq]

/-- One atomic update at the home (R294). -/
def atomOne (acc : AtomRes) (a : AtomOp) : AtomRes :=
  let r := atomStep a (memByte acc.s)
  ⟨acc.olds ++ [(a.lane, r.1)], acc.bytes ++ r.2, writeHome 8 r.2 acc.s⟩

theorem atomHome_eq (as : List AtomOp) (s : State) : atomHome as s = as.foldl atomOne ⟨[], [], s⟩ := rfl

theorem setDescs_homeOnly (ds : List (Nat × BitVec 16)) (s : State) : HomeOnly s (ds.foldl (fun s d => setDesc d.1 d.2 s) s) :=
  List.foldlRecOn (motive := HomeOnly s) ds _ (.refl s) fun _ h _ _ => h.trans (by exact rfl)

theorem perform_homeOnly (unit : Nat) (act : ReqAct) (s : State) : HomeOnly s (perform unit act s).2 := by
  cases act with
  | read | readDesc => exact .refl s
  | write | merge => exact writeHome_homeOnly _ _ s
  | atomic as =>
    change HomeOnly s (atomHome as s).s
    rw [atomHome_eq]
    exact List.foldlRecOn (motive := fun acc : AtomRes => HomeOnly s acc.s) as _ (.refl s) fun _ h _ _ => h.trans (writeHome_homeOnly _ _ _)
  | writeDesc ds => exact setDescs_homeOnly ds s

/-! ## Memory after a request -/

theorem setBytes_mem : ∀ (bs : List (Nat × Byte)) (s : State), (setBytes bs s).mem = bs.foldl (fun m x => put 0 x.1 x.2 m) s.mem
  | [], _ => rfl
  | x :: bs, s => setBytes_mem bs (setByte x.1 x.2 s)

theorem writeHome_mem_congr {s t : State} (h : s.mem = t.mem) (u v : Nat) (bs : List (Nat × Byte)) :
    (writeHome u bs s).mem = (writeHome v bs t).mem := by
  rw [writeHome_mem, writeHome_mem, setBytes_mem, setBytes_mem, h]

theorem memByte_congr {s t : State} (h : s.mem = t.mem) : memByte s = memByte t := by
  funext a; rw [memByte, memByte, h]

/-- R294: what atomics leave in memory depends on memory alone. -/
theorem atomOnes_mem_congr : ∀ (as : List AtomOp) {x y : AtomRes}, x.s.mem = y.s.mem →
    (as.foldl atomOne x).s.mem = (as.foldl atomOne y).s.mem
  | [], _, _, h => h
  | a :: as, x, y, h => by
    refine atomOnes_mem_congr as ?_
    unfold atomOne
    dsimp only
    rw [memByte_congr h]
    exact writeHome_mem_congr h _ _ _

/-- R108, R274: what a request leaves in memory depends on memory alone, not on the size of its atomic units. -/
theorem perform_mem_congr {s t : State} (h : s.mem = t.mem) (u v : Nat) (act : ReqAct) :
    (perform u act s).2.mem = (perform v act t).2.mem := by
  cases act with
  | read | readDesc => exact h
  | write bs => exact writeHome_mem_congr h u v bs
  | atomic as =>
    change (atomHome as s).s.mem = (atomHome as t).s.mem
    rw [atomHome_eq, atomHome_eq]
    exact atomOnes_mem_congr as h
  | merge l =>
    have hbytes : mergeBytes l s = mergeBytes l t := by
      unfold mergeBytes memNat
      rw [h]
    change (writeHome u (mergeBytes l s) s).mem = (writeHome v (mergeBytes l t) t).mem
    rw [hbytes]
    exact writeHome_mem_congr h u v _
  | writeDesc ds =>
    have hkeep : ∀ s : State, (ds.foldl (fun s d => setDesc d.1 d.2 s) s).mem = s.mem := fun s =>
      List.foldlRecOn (motive := fun t => State.mem t = s.mem) ds _ rfl fun _ h _ _ => h
    exact (hkeep s).trans (h.trans (hkeep t).symm)

/-! ## Requests that come forward -/

/-- A request that is neither parked nor still on the mesh. -/
def Stage.Past (st : Stage) : Prop := st ≠ .parked ∧ st ≠ .mesh

/-- Every request is still there, and one that was past the mesh and the park is past them. -/
def Forward (s t : State) : Prop := ∀ q ∈ s.reqs, ∃ p ∈ t.reqs, p.id = q.id ∧ (q.stage.Past → p.stage.Past)

theorem Forward.of_reqs {s t : State} (h : t.reqs = s.reqs) : Forward s t := fun q hq => ⟨q, h ▸ hq, rfl, id⟩

theorem Forward.trans {s t u : State} (h : Forward s t) (h' : Forward t u) : Forward s u := by
  intro q hq
  obtain ⟨p, hp, hid, hpast⟩ := h q hq
  obtain ⟨p', hp', hid', hpast'⟩ := h' p hp
  exact ⟨p', hp', hid'.trans hid, fun hq => hpast' (hpast hq)⟩

theorem mapReqs_forward {f : Req → Req} (s : State) (hf : ∀ q, (f q).id = q.id ∧ (q.stage.Past → (f q).stage.Past)) :
    Forward s (mapReqs f s) := fun q hq => ⟨f q, List.mem_map_of_mem hq, hf q⟩

/-- R260: a request that has been performed goes forward. -/
theorem setStage_forward (id : Nat) {st : Stage} (s : State) (hst : st.Past) : Forward s (setStage id st s) :=
  mapReqs_forward s fun q => by
    split
    · exact ⟨rfl, fun _ => hst⟩
    · exact ⟨rfl, fun h => h⟩

theorem filled_past (a : Answer) : (Stage.filled a).Past := ⟨nofun, nofun⟩
theorem answered_past (a : Answer) : (Stage.answered a).Past := ⟨nofun, nofun⟩

theorem past_answered (act : ReqAct) (a : Answer) : (answered act a).Past := by
  unfold answered
  split
  · exact filled_past a
  · exact filled_past a
  · exact answered_past a

theorem retakes_reqs (old : State) (ul uw : Nat) (w : List (Nat × Byte)) (xs : List Nat) (r : Answer × State) :
    (xs.foldl (fun r x => retake old ul uw w r.1 x r.2) r).2.reqs = r.2.reqs := by
  have h := retakes_eq old ul uw w xs r
  dsimp only at h
  rw [h]

/-- R108, R148: a load that a write meets stays where it is, with another answer. -/
theorem meetLoads_forward (unit : Nat) (old : State) (w : List (Nat × Byte)) (s : State) : Forward s (meetLoads unit old w s) := by
  unfold meetLoads
  refine List.foldlRecOn (motive := Forward s) _ _ (.of_reqs rfl) fun t h q _ => ?_
  dsimp only
  split
  · exact h.trans (.trans (.of_reqs (retakes_reqs _ _ _ _ _ _)) (setStage_forward _ _ (filled_past _)))
  · exact h.trans (.trans (.of_reqs (retakes_reqs _ _ _ _ _ _)) (setStage_forward _ _ (answered_past _)))
  · exact h

theorem writeHome_forward (unit : Nat) (bs : List (Nat × Byte)) (s : State) : Forward s (writeHome unit bs s) := by
  unfold writeHome
  dsimp only
  refine .trans (.of_reqs ?_) (meetLoads_forward _ _ _ _)
  dsimp only
  rw [setBytes_eq]

theorem perform_forward (unit : Nat) (act : ReqAct) (s : State) : Forward s (perform unit act s).2 := by
  cases act with
  | read | readDesc => exact .of_reqs rfl
  | write | merge => exact writeHome_forward _ _ s
  | atomic as =>
    change Forward s (atomHome as s).s
    rw [atomHome_eq]
    exact List.foldlRecOn (motive := fun acc : AtomRes => Forward s acc.s) as _ (.of_reqs rfl) fun _ h _ _ => h.trans (writeHome_forward _ _ _)
  | writeDesc ds =>
    exact .of_reqs (List.foldlRecOn (motive := fun t => State.reqs t = s.reqs) ds _ rfl fun _ h _ _ => h)

/-! ## The replay of the parked requests -/

/-- The count of free values alone has moved. -/
def FreshOnly (s t : State) : Prop := t = { s with fresh := t.fresh }

theorem FreshOnly.refl (s : State) : FreshOnly s s := rfl

theorem FreshOnly.trans {s t u : State} (h : FreshOnly s t) (h' : FreshOnly t u) : FreshOnly s u := by
  unfold FreshOnly at *
  rw [h', h]

/-- R261: what a load in a replay returns is settled by free choices alone. -/
theorem missWords_freshOnly (r : Req) (w : Replayed) (a : Late) : FreshOnly a.s (missWords r w a).s := by
  unfold missWords
  dsimp only
  generalize (if w.r.core = r.core then [] else partialWrite w.r) = ws
  refine List.foldlRecOn (motive := fun b : Late => FreshOnly a.s b.s) _ _ (.refl _) fun b hb u _ => ?_
  split
  · exact hb
  · have hcoin : FreshOnly b.s (freshCoin b.s).2 := rfl
    split <;> exact hb.trans hcoin

theorem raceLoad_freshOnly (r : Req) (before : List Replayed) (bytes : List (Nat × Byte)) (s : State) :
    FreshOnly s (raceLoad r before bytes s).2 := by
  unfold raceLoad
  exact List.foldlRecOn (motive := fun b : Late => FreshOnly s b.s) _ _ (.refl s) fun _ hb w _ => hb.trans (missWords_freshOnly r w _)

theorem shutEarlier_forward (r : Req) (s : State) : Forward s (shutEarlier r s) :=
  mapReqs_forward s fun q => by
    split
    · split <;> exact ⟨rfl, fun h => h⟩
    · exact ⟨rfl, fun h => h⟩

/-- Some request of this number has been performed. -/
def PastById (id : Nat) (s : State) : Prop := ∃ q ∈ s.reqs, q.id = id ∧ q.stage.Past

theorem PastById.forward {id : Nat} {s t : State} (h : PastById id s) (hf : Forward s t) : PastById id t := by
  obtain ⟨q, hq, hid, hpast⟩ := h
  obtain ⟨p, hp, hid', hpast'⟩ := hf q hq
  exact ⟨p, hp, hid'.trans hid, hpast' hpast⟩

theorem pastById_setStage {id : Nat} {st : Stage} {s : State} (hst : st.Past) (hid : ∃ q ∈ s.reqs, q.id = id) :
    PastById id (setStage id st s) := by
  obtain ⟨q, hq, rfl⟩ := hid
  exact ⟨_, List.mem_map.mpr ⟨q, hq, if_pos rfl⟩, rfl, hst⟩

/-- R260: one parked request is performed, after those of `before`, and its answer goes on its way. -/
def replayOne (r : Req) (before : List Replayed) (s : State) : State :=
  let s1 := shutEarlier r (noteParked before.isEmpty r s)
  let s2 := { s1 with nextId := s1.nextId + 1 }
  let a := perform (reqUnit s2 r) r.act s2
  let b := if isRead r then raceLoad r before a.1.bytes a.2 else (a.1.bytes, a.2)
  setStage r.id (answered r.act { a.1 with bytes := b.1, seq := s1.nextId }) b.2

theorem replayParked_cons (r : Req) (rs : List Req) (before : List Replayed) (s : State) :
    ∃ before', replayParked (r :: rs) before s = replayParked rs before' (replayOne r before s) := ⟨_, rfl⟩

theorem replayOne_spec (r : Req) (before : List Replayed) (s : State) :
    HomeOnly s (replayOne r before s) ∧ Forward s (replayOne r before s) ∧
      (∃ u, (replayOne r before s).mem = (perform u r.act s).2.mem) ∧
      ((∃ q ∈ s.reqs, q.id = r.id) → PastById r.id (replayOne r before s)) := by
  unfold replayOne
  extract_lets s1 s2 a b
  have hhome2 : HomeOnly s s2 := rfl
  have hfwd2 : Forward s s2 := shutEarlier_forward r (noteParked before.isEmpty r s)
  have hmem2 : s2.mem = s.mem := rfl
  have hfresh : FreshOnly a.2 b.2 := by
    change FreshOnly a.2 (if isRead r then raceLoad r before a.1.bytes a.2 else (a.1.bytes, a.2)).2
    split
    · exact raceLoad_freshOnly _ _ _ _
    · exact .refl _
  have hhomeB : HomeOnly a.2 b.2 := by unfold HomeOnly; rw [hfresh]
  have hfwd : Forward s b.2 := (hfwd2.trans (perform_forward _ _ _)).trans (.of_reqs (by rw [hfresh]))
  have hpast := past_answered r.act { a.1 with bytes := b.1, seq := s1.nextId }
  refine ⟨((hhome2.trans (perform_homeOnly _ _ _)).trans hhomeB).trans (by exact rfl), hfwd.trans (setStage_forward _ _ hpast), ?_, fun hid => ?_⟩
  · refine ⟨reqUnit s2 r, ?_⟩
    change b.2.mem = _
    rw [hfresh]
    exact perform_mem_congr hmem2 _ _ _
  · obtain ⟨q, hq, hqid⟩ := hid
    obtain ⟨p, hp, hpid, -⟩ := hfwd q hq
    exact pastById_setStage hpast ⟨p, hp, hpid.trans hqid⟩

theorem replayParked_homeOnly : ∀ (rs : List Req) (before : List Replayed) (s : State), HomeOnly s (replayParked rs before s)
  | [], _, s => .refl s
  | r :: rs, before, s => by
    obtain ⟨before', h⟩ := replayParked_cons r rs before s
    rw [h]
    exact (replayOne_spec r before s).1.trans (replayParked_homeOnly rs _ _)

/-- R260: the parked requests leave memory as if each were performed in its turn. -/
theorem replayParked_mem : ∀ (rs : List Req) (before : List Replayed) {s t : State}, s.mem = t.mem →
    (replayParked rs before s).mem = (rs.foldl (fun s r => (perform (reqUnit s r) r.act s).2) t).mem
  | [], _, _, _, h => h
  | r :: rs, before, s, t, h => by
    obtain ⟨before', hcons⟩ := replayParked_cons r rs before s
    obtain ⟨-, -, ⟨u, hmem⟩, -⟩ := replayOne_spec r before s
    rw [hcons]
    exact replayParked_mem rs before' (hmem.trans (perform_mem_congr h _ _ _))

/-- R260: every request stays, and those of the replay have been performed. -/
theorem replayParked_forward : ∀ (rs : List Req) (before : List Replayed) (s : State), Forward s (replayParked rs before s) ∧
    ∀ r ∈ rs, (∃ q ∈ s.reqs, q.id = r.id) → PastById r.id (replayParked rs before s)
  | [], _, _ => ⟨.of_reqs rfl, fun _ h => absurd h List.not_mem_nil⟩
  | r :: rs, before, s => by
    obtain ⟨before', hcons⟩ := replayParked_cons r rs before s
    obtain ⟨-, hfwd, -, hpast⟩ := replayOne_spec r before s
    obtain ⟨hfwd', hpast'⟩ := replayParked_forward rs before' (replayOne r before s)
    rw [hcons]
    refine ⟨hfwd.trans hfwd', fun x hx hid => ?_⟩
    rcases List.mem_cons.mp hx with rfl | hx
    · exact (hpast hid).forward hfwd'
    · obtain ⟨q, hq, hqid⟩ := hid
      obtain ⟨p, hp, hpid, -⟩ := hfwd q hq
      exact hpast' x hx ⟨p, hp, hpid.trans hqid⟩

/-! ## Fills at the home -/

/-- R257: a line that enters its slice of L2 is there, and L2 alone has changed. -/
theorem enterL2_eq (line : Nat) (s : State) : ∃ ls n, line ∈ ls ∧ enterL2 line s = { s with l2 := ls, fresh := n } := by
  unfold enterL2
  dsimp only
  split
  · exact ⟨_, _, List.mem_cons_self, rfl⟩
  · exact ⟨_, _, List.mem_cons_self, rfl⟩

/-- R260, R261: what the completion of a fill does. -/
theorem hbmFillComplete_fills {s : State} {line : Nat} (hf : line ∈ s.fills) (hup : islandUp s (hbmIsland line) = true) :
    ∃ t, exec (.hbmFillComplete line) s = .next t ∧ line ∈ t.l2 ∧ t.fills = s.fills.filter (· ≠ line) ∧
      t.mem = ((s.reqs.filter fun r => r.line = line ∧ r.stage = .parked).foldl (fun s r => (perform (reqUnit s r) r.act s).2) s).mem ∧
      t.gangs = s.gangs ∧
      ∀ r ∈ s.reqs, r.line = line → r.stage = .parked → ∃ q ∈ t.reqs, q.id = r.id ∧ q.stage ≠ .parked ∧ q.stage ≠ .mesh := by
  obtain ⟨ls, n, hline, henter⟩ := enterL2_eq line { s with fills := s.fills.filter (· ≠ line) }
  have hparked : (fun r : Req => decide (r.line = line) && stageIs .parked r) = fun r => decide (r.line = line ∧ r.stage = .parked) := by
    funext r; simp [stageIs]
  have hnext : exec (.hbmFillComplete line) s = .next (replayParked (s.reqs.filter fun r => r.line = line ∧ r.stage = .parked) []
      { s with fills := s.fills.filter (· ≠ line), l2 := ls, fresh := n }) := by
    change execHbmFillComplete line s = _
    unfold execHbmFillComplete
    rw [if_pos (by simp [hf, hup]), henter]
    dsimp only
    rw [hparked]
  have hmem := replayParked_mem (s.reqs.filter fun r => r.line = line ∧ r.stage = .parked) []
    (s := { s with fills := s.fills.filter (· ≠ line), l2 := ls, fresh := n }) (t := s) rfl
  have hhome := replayParked_homeOnly (s.reqs.filter fun r => r.line = line ∧ r.stage = .parked) []
    { s with fills := s.fills.filter (· ≠ line), l2 := ls, fresh := n }
  obtain ⟨-, hpast⟩ := replayParked_forward (s.reqs.filter fun r => r.line = line ∧ r.stage = .parked) []
    { s with fills := s.fills.filter (· ≠ line), l2 := ls, fresh := n }
  generalize replayParked _ [] _ = t at *
  refine ⟨t, hnext, by rw [hhome]; exact hline, by rw [hhome], hmem, by rw [hhome], fun r hr hl hst => ?_⟩
  exact hpast r (List.mem_filter.mpr ⟨hr, by simp [hl, hst]⟩) ⟨r, hr, rfl⟩

/-! ## Walks -/

/-- R264 to R267: a walk reads memory and the tables of its context, and takes the free choices as they stand. -/
theorem walkFrom_congr {s t : State} (hm : s.mem = t.mem) (hf : s.fresh = t.fresh) (ctx va : Nat) :
    ∀ fuel table, walkFrom s ctx va fuel table = walkFrom t ctx va fuel table
  | 0, _ => rfl
  | fuel + 1, table => by
    have hentry : entryAt s (3 - fuel) table va = entryAt t (3 - fuel) table va := by
      unfold entryAt memNat
      rw [hm, hf]
    unfold walkFrom
    dsimp only
    rw [hentry]
    split
    · rfl
    · exact walkFrom_congr hm hf ctx va fuel _
    · rfl

theorem walk_delWalk (s : State) (ws : AMap Walk) (ctx va : Nat) : walk { s with walks := ws } ctx va = walk s ctx va := by
  unfold walk
  dsimp only
  split
  · rfl
  · rw [walkFrom_congr (s := { s with walks := ws }) (t := s) rfl rfl]

/-- R267, R269: a walk that finds a translation with the permission enters it in both TLBs. -/
theorem pageWalkComplete_enters {s : State} {id : Nat} {w : Walk} {e : TlbEnt} (hw : look id s.walks = some w)
    (hready : walkReady s id w = true) (hwalk : walk s w.ctx w.va.toNat = .ok e) (hmet : w.need.met e = true) :
    ∃ t, exec (.pageWalkComplete id) s = .next t ∧ t.mem = s.mem ∧ t.gangs = s.gangs ∧
      (coreOf t w.core).tlb.head? = some e ∧ ((look (clusterOf w.core) t.ctlb).getD []).head? = some e := by
  have hwalk' : walk { s with walks := del id s.walks } w.ctx w.va.toNat = .ok e := (walk_delWalk _ _ _ _).trans hwalk
  have hnext : ∃ t, exec (.pageWalkComplete id) s = .next t ∧ ∃ u v k, t = updCore w.core (fun c => { c with tlb := addTlb 256 u e c.tlb })
      { s with walks := del id s.walks, fresh := k
               ctlb := ins (clusterOf w.core) (addCtlb v e ((look (clusterOf w.core) s.ctlb).getD [])) s.ctlb } := by
    change ∃ t, execPageWalkComplete id s = .next t ∧ _
    unfold execPageWalkComplete
    rw [hw]
    dsimp only
    rw [hready, if_neg (by decide), hwalk']
    dsimp only
    rw [hmet, if_neg (by decide)]
    exact ⟨_, rfl, _, _, _, rfl⟩
  obtain ⟨t, hnext, u, v, k, rfl⟩ := hnext
  refine ⟨_, hnext, rfl, rfl, ?_, ?_⟩
  · rw [coreOf_updCore_same]; rfl
  · rw [updCore_ctlb, look_ins_same]; rfl

/-- R267, R269: a walk that fails, or whose translation lacks the permission, is kept for the instruction that needs it, and cached
nowhere. -/
theorem pageWalkComplete_fails {s : State} {id : Nat} {w : Walk} {kind level : Nat} (hw : look id s.walks = some w)
    (hready : walkReady s id w = true) (hwalk : walk s w.ctx w.va.toNat = .error (kind, level) ∨
      ∃ e, walk s w.ctx w.va.toNat = .ok e ∧ w.need.met e = false ∧ kind = 3 ∧ level = e.level) :
    exec (.pageWalkComplete id) s = .next { s with
      walks := del id s.walks
      gangs := adj w.gang (fun g => { g with walkFaults := (w.va, kind, level) :: g.walkFaults }) s.gangs } := by
  change execPageWalkComplete id s = _
  unfold execPageWalkComplete
  rw [hw]
  dsimp only
  rw [hready, if_neg (by decide), walk_delWalk]
  rcases hwalk with hwalk | ⟨e, hwalk, hmet, rfl, rfl⟩
  · rw [hwalk]; rfl
  · rw [hwalk]
    dsimp only
    rw [hmet]
    rfl

end Sys2Proof.Machine
end

section
/-! Proof of O21, third part: answers that come back, and the end of an operation. -/

namespace Sys2Proof.Machine

/-! ## The results of a load -/

theorem dstWords_of_tyReg (t : Ty) : dstWords (.ty t) = if tyReg t = 64 then 2 else 1 := by cases t <;> rfl

/-- R21, R209: a lane whose registers are all awaited takes its whole result. -/
theorem landLane_eq {o : MemOp} {d : Fin 256} {t : Ty} {p : Part} (hregs : o.regs = dstRegs (.v d) (dstWords (.ty t)) (o.parts.map (·.lane)))
    (hp : p ∈ o.parts) (f : Fibre) :
    landLane o (.v d) (.ty t) p f = writeReg (tyReg t) (.v d) (tyWrap t (leNat (p.keys.map (byteAt o.got)))) f := by
  have hawait : ∀ j < dstWords (.ty t), o.regs.contains (p.lane, d.val + j) = true := by
    intro j hj
    rw [hregs, List.contains_iff_mem]
    exact List.mem_flatMap.mpr ⟨p.lane, List.mem_map_of_mem hp, List.mem_map.mpr ⟨j, List.mem_range.mpr hj, rfl⟩⟩
  rw [dstWords_of_tyReg] at hawait
  simp only [landLane, partVals, partBytes, List.foldl_cons, List.foldl_nil, writeReg]
  split at hawait
  · next h64 =>
    have h0 := hawait 0 (by decide)
    have h1 := hawait 1 (by decide)
    rw [Nat.add_zero] at h0
    rw [if_pos h64, if_pos h64, setV64If, setVIf, setVIf, if_pos h0, if_pos h1, setV64]
  · next h32 =>
    have h0 := hawait 0 (by decide)
    rw [Nat.add_zero] at h0
    rw [if_neg h32, if_neg h32, setVIf, if_pos h0]

/-- One lane's result lands. -/
def landOne (o : MemOp) (d : Opnd) (fmt : DstFmt) (g : Gang) (p : Part) : Gang :=
  match fibreAt g p.lane with
  | some f => { g with fibres := g.fibres.set p.lane (landLane o d fmt p f) }
  | none => g

theorem landOp_of_vector {o : MemOp} {d : Fin 256} {fmt : DstFmt} (hd : o.dst = some (.v d, fmt)) (g : Gang) :
    landOp o g = (o.parts.filter (stillThere g)).foldl (landOne o (.v d) fmt) g := by
  rw [landOp, hd]; rfl

/-- A landing changes its own lane's fibre alone. -/
theorem landOne_spec (o : MemOp) (d : Opnd) (fmt : DstFmt) (g : Gang) (p : Part) :
    landOne o d fmt g p = { g with fibres := (landOne o d fmt g p).fibres } ∧
      (∀ l, l ≠ p.lane → fibreAt (landOne o d fmt g p) l = fibreAt g l) ∧
      fibreAt (landOne o d fmt g p) p.lane = (fibreAt g p.lane).map (landLane o d fmt p) := by
  unfold landOne
  cases hf : fibreAt g p.lane with
  | none => exact ⟨rfl, fun _ _ => rfl, hf⟩
  | some f =>
    have hlt : p.lane < g.fibres.length := (List.getElem?_eq_some_iff.mp hf).1
    exact ⟨rfl, fun l hl => List.getElem?_set_ne (Ne.symm hl), List.getElem?_set_self hlt⟩

/-- R21: each lane of some parts takes its result, and no other fibre changes. -/
theorem landParts_spec {o : MemOp} {d : Opnd} {fmt : DstFmt} : ∀ {ps : List Part} {g : Gang}, (ps.map (·.lane)).Nodup →
    ps.foldl (landOne o d fmt) g = { g with fibres := (ps.foldl (landOne o d fmt) g).fibres } ∧
      (∀ l, l ∉ ps.map (·.lane) → fibreAt (ps.foldl (landOne o d fmt) g) l = fibreAt g l) ∧
      ∀ p ∈ ps, fibreAt (ps.foldl (landOne o d fmt) g) p.lane = (fibreAt g p.lane).map (landLane o d fmt p)
  | [], g, _ => ⟨rfl, fun _ _ => rfl, fun _ h => absurd h List.not_mem_nil⟩
  | p :: ps, g, hn => by
    obtain ⟨hp, hn⟩ := List.nodup_cons.mp hn
    obtain ⟨hrest1, hother1, hown1⟩ := landOne_spec o d fmt g p
    obtain ⟨hrest, hother, hown⟩ := landParts_spec (o := o) (d := d) (fmt := fmt) (g := landOne o d fmt g p) hn
    rw [List.foldl_cons]
    refine ⟨by rw [hrest, hrest1], fun l hl => ?_, fun q hq => ?_⟩
    · rw [List.map_cons, List.mem_cons, not_or] at hl
      rw [hother l hl.2, hother1 l hl.1]
    · rcases List.mem_cons.mp hq with rfl | hq
      · rw [hother _ hp, hown1]
      · have hne : q.lane ≠ p.lane := fun e => hp (List.mem_map.mpr ⟨q, hq, e⟩)
        rw [hown q hq, hother1 _ hne]

/-- R21, R314: the results of a load reach the fibres that are still there, and no other. -/
theorem landOp_load {o : MemOp} {d : Fin 256} {t : Ty} {g : Gang} (hd : o.dst = some (.v d, .ty t))
    (hregs : o.regs = dstRegs (.v d) (dstWords (.ty t)) (o.parts.map (·.lane))) (hn : (o.parts.map (·.lane)).Nodup) :
    landOp o g = { g with fibres := (landOp o g).fibres } ∧
      (∀ l, l ∉ o.parts.map (·.lane) → fibreAt (landOp o g) l = fibreAt g l) ∧
      ∀ p ∈ o.parts, ∀ f, fibreAt g p.lane = some f → fibreAt (landOp o g) p.lane = some (if notEnded f then
        writeReg (tyReg t) (.v d) (tyWrap t (leNat (p.keys.map (byteAt o.got)))) f else f) := by
  have hsub : ((o.parts.filter (stillThere g)).map (·.lane)).Sublist (o.parts.map (·.lane)) := List.filter_sublist.map _
  obtain ⟨hrest, hother, hown⟩ := landParts_spec (o := o) (d := .v d) (fmt := .ty t) (g := g) (hn.sublist hsub)
  rw [landOp_of_vector hd]
  refine ⟨hrest, fun l hl => hother l fun h => hl (hsub.subset h), fun p hp f hf => ?_⟩
  cases hend : notEnded f with
  | true =>
    have hthere : stillThere g p = true := by rw [stillThere, hf]; exact hend
    rw [hown p (List.mem_filter.mpr ⟨hp, hthere⟩), hf, Option.map_some, landLane_eq hregs hp, if_pos rfl]
  | false =>
    have hgone : p.lane ∉ (o.parts.filter (stillThere g)).map (·.lane) := by
      intro h
      obtain ⟨q, hq, hlane⟩ := List.mem_map.mp h
      have hthere := (List.mem_filter.mp hq).2
      rw [stillThere, hlane, hf] at hthere
      exact absurd hthere (by simp [hend])
    rw [hother _ hgone, hf, if_neg (by decide)]

/-! ## The end of an operation -/

/-- R443, R444: a sample record changes memory and the core's counters alone. -/
theorem putSmp_eq (p : Option Smp) (s : State) : ∃ m cs, putSmp p s = { s with mem := m, cores := cs } ∧ (p = none → m = s.mem) := by
  cases p with
  | none => exact ⟨_, _, rfl, fun _ => rfl⟩
  | some p =>
    simp only [putSmp, putSample]
    split
    · exact ⟨_, _, by rw [setBytes_eq]; rfl, nofun⟩
    · unfold perfCount
      split
      · exact ⟨_, _, rfl, nofun⟩
      · exact ⟨_, _, rfl, nofun⟩

/-- R447: an operation with nothing to log. -/
theorem logOp_of_quiet {o : MemOp} (s : State) (hl : o.lines = []) (hv : o.logv = false ∨ o.vals = []) : logOp o s = s := by
  unfold logOp
  rw [hl]
  rcases hv with hv | hv
  · rw [hv]; rfl
  · rw [hv]; split <;> rfl

/-- R111, R280: the gang after an operation of its own has ended. -/
def opEnded (id : Nat) (o : MemOp) (g : Gang) : Gang :=
  { lowerCtr o.ctr (landOp o g) with holdOps := g.holdOps.filter (· ≠ id) }

/-- R280: the acquire that an operation ends with, if it does. -/
def endAcquire (o : MemOp) (s : State) : State :=
  match o.acq with
  | some sc => acquireAt o.core sc s
  | none => s

theorem finishOp_ended {id : Nat} {o : MemOp} {s : State} (ho : look id s.ops = some o) (hleft : o.left = 0) (hsub : o.sub = none)
    (hl : o.lines = []) (hv : o.logv = false ∨ o.vals = []) :
    finishOp id s = endAcquire o (updGang o.gang (opEnded id o) (putSmp o.smp { s with ops := del id s.ops })) := by
  unfold finishOp
  rw [ho]
  dsimp only
  rw [if_neg (by simp [hleft, hsub]), logOp_of_quiet _ hl hv]
  rfl

/-! ## Acquires -/

theorem ids_poisonL1 (core : Nat) (hit : Nat → Bool) (s : State) : (poisonL1 core hit s).reqs.map (·.id) = s.reqs.map (·.id) := by
  simp only [poisonL1, mapReqs, List.map_map]
  refine List.map_congr_left fun r _ => ?_
  dsimp only [Function.comp]
  split
  · split <;> rfl
  · rfl

theorem ids_poisonRdc (die : Nat) (hit : Nat → Bool) (s : State) : (poisonRdc die hit s).reqs.map (·.id) = s.reqs.map (·.id) := by
  simp only [poisonRdc, mapReqs, List.map_map]
  refine List.map_congr_left fun r _ => ?_
  dsimp only [Function.comp]
  split
  · split <;> rfl
  · rfl

/-- Cores, remote copies and what requests have noted alone have changed; no request has come or gone. -/
def CopiesOnly (s t : State) : Prop :=
  t = { s with cores := t.cores, reqs := t.reqs, rdc := t.rdc, rdcDesc := t.rdcDesc } ∧ t.reqs.map (·.id) = s.reqs.map (·.id)

theorem CopiesOnly.trans {s t u : State} (h : CopiesOnly s t) (h' : CopiesOnly t u) : CopiesOnly s u :=
  ⟨by rw [h'.1, h.1], h'.2.trans h.2⟩

theorem discardL1_copiesOnly (core : Nat) (hit : Nat → Bool) (s : State) : CopiesOnly s (discardL1 core hit s) :=
  ⟨rfl, ids_poisonL1 core hit _⟩

theorem discardRdc_copiesOnly (die : Nat) (hit : Nat → Bool) (s : State) : CopiesOnly s (discardRdc die hit s) :=
  ⟨rfl, ids_poisonRdc die hit _⟩

theorem acquireAt_copiesOnly (core : Nat) (sc : Scope) (s : State) : CopiesOnly s (acquireAt core sc s) := by
  cases sc with
  | fib | gang | crew => exact ⟨rfl, rfl⟩
  | clu => exact discardL1_copiesOnly _ _ _
  | die | dev | sys => exact (discardL1_copiesOnly _ _ _).trans (discardRdc_copiesOnly _ _ _)

theorem endAcquire_copiesOnly (o : MemOp) (s : State) : CopiesOnly s (endAcquire o s) := by
  unfold endAcquire
  split
  · exact acquireAt_copiesOnly _ _ _
  · exact ⟨rfl, rfl⟩

/-- R280: an acquire of cluster scope or wider empties the core's L1. -/
theorem acquireAt_l1 {core : Nat} {sc : Scope} (hw : wideScope sc = true) (s : State) : (coreOf (acquireAt core sc s) core).l1 = [] := by
  have hl1 : (coreOf (discardL1 core (fun _ => true) s) core).l1 = [] := by rw [coreOf_discardL1]; exact keepLines_all 128 _
  cases sc with
  | fib | gang | crew => cases hw
  | clu | die | dev | sys => exact hl1

/-- R280: of die scope or wider, the RDC too. -/
theorem acquireAt_rdc {core : Nat} {sc : Scope} (hw : wideScope sc = true) (hc : sc ≠ .clu) (s : State) :
    rdcOf (acquireAt core sc s) (dieOf core) = [] := by
  have hrdc : ∀ t, rdcOf (discardRdc (dieOf core) (fun _ => true) t) (dieOf core) = [] := fun t => by
    change ((look (dieOf core) (ins (dieOf core) (keepLines (fun _ => true) 128 (rdcOf t (dieOf core))) t.rdc)).getD []) = []
    rw [look_ins_same]
    exact keepLines_all 128 (rdcOf t (dieOf core))
  cases sc with
  | fib | gang | crew => cases hw
  | clu => exact absurd rfl hc
  | die | dev | sys => exact hrdc _

/-! ## The operation that an answer ends -/

/-- The one operation that awaits an answer is found by its number. -/
theorem look_of_filter {β : Type} {k : Nat} {x : β} {p : Nat × β → Bool} (hp : ∀ y, p (k, y) = true) : ∀ {m : AMap β},
    m.filter p = [(k, x)] → look k m = some x
  | (j, y) :: m, h => by
    by_cases hj : j = k
    · subst hj
      rw [List.filter_cons_of_pos (hp y)] at h
      have hxy : y = x := congrArg Prod.snd (List.cons.inj h).1
      simp [look, hxy]
    · have hfalse : p (j, y) = false := by
        by_contra hne
        rw [List.filter_cons_of_pos (by simpa using hne)] at h
        exact hj (congrArg Prod.fst (List.cons.inj h).1)
      rw [List.filter_cons_of_neg (by simp [hfalse])] at h
      rw [look, if_neg hj]
      exact look_of_filter hp h

/-- A change that the test does not see leaves the same keys. -/
theorem keys_filter_adj {β : Type} {k : Nat} {f : β → β} {p : Nat × β → Bool} (hp : ∀ j y, p (j, f y) = p (j, y)) : ∀ m : AMap β,
    ((adj k f m).filter p).map (·.1) = (m.filter p).map (·.1)
  | [] => rfl
  | (j, y) :: m => by
    unfold adj
    split
    · rw [List.filter_cons, List.filter_cons, hp]
      split <;> rfl
    · rw [List.filter_cons, List.filter_cons]
      split
      · rw [List.map_cons, List.map_cons, keys_filter_adj hp m]
      · exact keys_filter_adj hp m

/-- R262, R275: what an acknowledgement does to the remote copies of its die. -/
def closeRdc (r : Req) (a : Answer) (s : State) : State :=
  if isWrite r.act && isRemote r.core r.line then
    poisonRdc (dieOf r.core) (· = r.line) (updateRdc (dieOf r.core) a.bytes a.descs s)
  else s

theorem closeRdc_copiesOnly (r : Req) (a : Answer) (s : State) : CopiesOnly s (closeRdc r a s) := by
  have hupd : CopiesOnly s (updateRdc (dieOf r.core) a.bytes a.descs s) := by
    unfold updateRdc
    dsimp only
    split
    · exact ⟨rfl, rfl⟩
    · exact ⟨rfl, ids_poisonRdc _ _ _⟩
  unfold closeRdc
  split
  · exact hupd.trans ⟨rfl, ids_poisonRdc _ _ _⟩
  · exact ⟨rfl, rfl⟩

theorem closeReq_eq (r : Req) (a : Answer) (s : State) : closeReq r a s =
    let t := updOp r.op (takeAnswer r a) (closeRdc r a { s with reqs := s.reqs.filter fun q => q.id ≠ r.id })
    ((t.ops.filter fun o => o.1 = r.op || o.2.deps.contains r.id).map (·.1)).foldl
      (fun s i => finishOp i (updOp i (fun o => { o with left := o.left - 1 }) s)) t := rfl

/-- The operation after its last answer. -/
def lastAnswer (r : Req) (a : Answer) (o : MemOp) : MemOp := { takeAnswer r a o with left := (takeAnswer r a o).left - 1 }

/-- R111, R280: an answer that one operation alone awaits, and that is its last, frees the request and ends the operation. -/
theorem closeReq_last {r : Req} {a : Answer} {o : MemOp} {s : State}
    (hops : s.ops.filter (fun x => x.1 = r.op || x.2.deps.contains r.id) = [(r.op, o)]) (hleft : o.left = 1) (hsub : o.sub = none)
    (hlines : o.lines = []) (hlog : o.logv = false ∨ (takeAnswer r a o).vals = []) :
    ∃ t, closeReq r a s = endAcquire o (updGang o.gang (opEnded r.op (lastAnswer r a o)) t) ∧ t.gangs = s.gangs ∧
      (o.smp = none → t.mem = s.mem) ∧ ∀ q ∈ t.reqs, q.id ≠ r.id := by
  obtain ⟨hrest, hids⟩ := closeRdc_copiesOnly r a { s with reqs := s.reqs.filter fun q => q.id ≠ r.id }
  rw [closeReq_eq]
  generalize closeRdc r a { s with reqs := s.reqs.filter fun q => q.id ≠ r.id } = s1 at hrest hids
  have hops1 : s1.ops = s.ops := by rw [hrest]
  have hkeys : ((updOp r.op (takeAnswer r a) s1).ops.filter fun x => x.1 = r.op || x.2.deps.contains r.id).map (·.1) = [r.op] := by
    rw [updOp_ops, keys_filter_adj (f := takeAnswer r a) (p := fun x => x.1 = r.op || x.2.deps.contains r.id) (fun _ _ => rfl), hops1, hops]; rfl
  have hlook : look r.op s.ops = some o := look_of_filter (fun _ => by simp) hops
  have hlook' : look r.op (updOp r.op (fun o => { o with left := o.left - 1 }) (updOp r.op (takeAnswer r a) s1)).ops =
      some (lastAnswer r a o) := by
    rw [updOp_ops, look_adj_same, updOp_ops, look_adj_same, hops1, hlook]; rfl
  dsimp only
  rw [hkeys, List.foldl_cons, List.foldl_nil, finishOp_ended hlook' (by simp [lastAnswer, takeAnswer, hleft]) hsub hlines hlog]
  obtain ⟨m, cs, hput, hmem⟩ := putSmp_eq (lastAnswer r a o).smp
    { updOp r.op (fun o => { o with left := o.left - 1 }) (updOp r.op (takeAnswer r a) s1) with
      ops := del r.op (updOp r.op (fun o => { o with left := o.left - 1 }) (updOp r.op (takeAnswer r a) s1)).ops }
  refine ⟨_, rfl, ?_, fun hsmp => ?_, fun q hq => ?_⟩
  · rw [hput]; dsimp only [updOp]; rw [hrest]
  · have hnone : (lastAnswer r a o).smp = none := by simp [lastAnswer, takeAnswer, hsmp]
    rw [hput]
    dsimp only
    rw [hmem hnone]
    dsimp only [updOp]
    rw [hrest]
  · rw [hput] at hq
    have hid : q.id ∈ s1.reqs.map (·.id) := List.mem_map_of_mem hq
    rw [hids] at hid
    obtain ⟨q', hq', he⟩ := List.mem_map.mp hid
    rw [← he]
    simpa using (List.mem_filter.mp hq').2

/-! ## Replies -/

/-- A request that is a read says so in what it asks. -/
theorem act_of_isRead {r : Req} (h : isRead r = true) : ∃ l1 rdc secs, r.act = .read l1 rdc secs := by
  unfold isRead at h
  split at h
  · next l1 rdc secs hact => exact ⟨l1, rdc, secs, hact⟩
  · cases h

theorem isWrite_of_isRead {r : Req} (h : isRead r = true) : isWrite r.act = false := by
  obtain ⟨l1, rdc, secs, hact⟩ := act_of_isRead h
  rw [hact, isWrite]

/-- A read brings bytes, and no values of an atomic or a descriptor. -/
theorem takeAnswer_vals_of_isRead {r : Req} (h : isRead r = true) (a : Answer) (o : MemOp) : (takeAnswer r a o).vals = o.vals := by
  obtain ⟨l1, rdc, secs, hact⟩ := act_of_isRead h
  rw [takeAnswer, hact]
  exact List.append_nil _

/-- R21: the reply of a read is taken once its answer can come back. -/
theorem loadReply_next {s : State} {r : Req} {a : Answer} (hr : reqById s r.id = some r) (hst : r.stage = .answered a)
    (hread : isRead r = true) (hup : replyUp s r = true) (hstat : r.id ∉ s.statuses) :
    exec (.loadReply r.id) s = .next (closeReq r a s) := by
  have hval : bringsValue s r = true := by
    rw [bringsValue, isWrite_of_isRead hread]; rfl
  change execLoadReply r.id s = _
  unfold execLoadReply
  rw [if_neg (by simpa using hstat), hr]
  dsimp only
  rw [hst]
  dsimp only
  rw [hval, hup]
  rfl

/-- R262: an acknowledgement is taken once it can come back. -/
theorem storeAcknowledgement_next {s : State} {r : Req} {a : Answer} (hr : reqById s r.id = some r) (hst : r.stage = .answered a)
    (hval : bringsValue s r = false) (hup : replyUp s r = true) : exec (.storeAcknowledgement r.id) s = .next (closeReq r a s) := by
  change execStoreAcknowledgement r.id s = _
  unfold execStoreAcknowledgement
  rw [hr]
  dsimp only
  rw [hst]
  dsimp only
  rw [hval, hup]
  rfl

/-- R21, R109, R111, R275, R279, R280, R314: what the last reply of a load does. -/
theorem loadReply_lands {s : State} {r : Req} {a : Answer} {o : MemOp} {g : Gang} {t : Ty} {d : Fin 256} {sc : Option Scope}
    (hr : reqById s r.id = some r) (hst : r.stage = .answered a) (hread : isRead r = true) (hup : replyUp s r = true)
    (hstat : r.id ∉ s.statuses) (hops : s.ops.filter (fun x => x.1 = r.op || x.2.deps.contains r.id) = [(r.op, o)])
    (hleft : o.left = 1) (hctr : o.ctr = .ld) (hlines : o.lines = []) (hvals : o.vals = []) (hsub : o.sub = none)
    (hg : look o.gang s.gangs = some g) (hd : o.dst = some (.v d, .ty t)) (hacq : o.acq = sc)
    (hregs : o.regs = dstRegs (.v d) (dstWords (.ty t)) (o.parts.map (·.lane))) (hn : (o.parts.map (·.lane)).Nodup) :
    ∃ u g', exec (.loadReply r.id) s = .next u ∧ (o.smp = none → u.mem = s.mem) ∧ look o.gang u.gangs = some g' ∧ g'.ldcnt = g.ldcnt - 1 ∧
      r.op ∉ g'.holdOps ∧ g'.s = g.s ∧ (∀ q ∈ u.reqs, q.id ≠ r.id) ∧
      (∀ p ∈ o.parts, ∀ f, fibreAt g p.lane = some f → fibreAt g' p.lane = some (if notEnded f then
        writeReg (tyReg t) (.v d) (tyWrap t (leNat (p.keys.map (byteAt (o.got ++ a.bytes))))) f else f)) ∧
      (∀ l, l ∉ o.parts.map (·.lane) → fibreAt g' l = fibreAt g l) ∧
      (∀ c, sc = some c → wideScope c = true → (coreOf u o.core).l1 = []) ∧
      (∀ c, sc = some c → wideScope c = true → c ≠ .clu → rdcOf u (dieOf o.core) = []) := by
  obtain ⟨v, hclose, hgangs, hmem, hreqs⟩ := closeReq_last (a := a) hops hleft hsub hlines
    (.inr (by rw [takeAnswer_vals_of_isRead hread, hvals]))
  obtain ⟨hrest, hother, hown⟩ := landOp_load (o := lastAnswer r a o) (g := g) hd hregs hn
  have hgot : (lastAnswer r a o).got = o.got ++ a.bytes := by simp [lastAnswer, takeAnswer, hread]
  rw [hgot] at hown
  have hended : opEnded r.op (lastAnswer r a o) g = { g with
      fibres := (landOp (lastAnswer r a o) g).fibres
      ldcnt := g.ldcnt - 1
      holdOps := g.holdOps.filter (· ≠ r.op) } := by
    have hc : (lastAnswer r a o).ctr = .ld := hctr
    rw [opEnded, hc, lowerCtr, hrest]
  obtain ⟨hcopies, hids⟩ := endAcquire_copiesOnly o (updGang o.gang (opEnded r.op (lastAnswer r a o)) v)
  refine ⟨_, opEnded r.op (lastAnswer r a o) g, (loadReply_next hr hst hread hup hstat).trans (congrArg Host.Outcome.next hclose),
    fun h => ?_, ?_, by rw [hended], by rw [hended]; simp, by rw [hended], fun q hq => ?_, fun p hp f hf => ?_, fun l hl => ?_,
    fun c hc hw => ?_, fun c hc hw hclu => ?_⟩
  · rw [hcopies]; exact hmem h
  · rw [hcopies]; exact look_updGang (by rw [hgangs]; exact hg)
  · have hid : q.id ∈ v.reqs.map (·.id) := hids ▸ List.mem_map_of_mem hq
    obtain ⟨q', hq', he⟩ := List.mem_map.mp hid
    exact he ▸ hreqs q' hq'
  · rw [hended]; exact hown p hp f hf
  · rw [hended]; exact hother l hl
  · rw [endAcquire, hacq, hc]; exact acquireAt_l1 hw _
  · rw [endAcquire, hacq, hc]; exact acquireAt_rdc hw hclu _

/-- R111, R262, R275, R279: what the last acknowledgement of a store does. -/
theorem storeAcknowledgement_lowers {s : State} {r : Req} {a : Answer} {o : MemOp} {g : Gang} (hr : reqById s r.id = some r)
    (hst : r.stage = .answered a) (hval : bringsValue s r = false) (hup : replyUp s r = true)
    (hops : s.ops.filter (fun x => x.1 = r.op || x.2.deps.contains r.id) = [(r.op, o)]) (hleft : o.left = 1) (hctr : o.ctr = .st)
    (hlines : o.lines = []) (hd : o.dst = none) (hacq : o.acq = none) (hsub : o.sub = none) (hlog : o.logv = false)
    (hg : look o.gang s.gangs = some g) :
    ∃ u, exec (.storeAcknowledgement r.id) s = .next u ∧ (o.smp = none → u.mem = s.mem) ∧ (∀ q ∈ u.reqs, q.id ≠ r.id) ∧
      look o.gang u.gangs = some { g with stcnt := g.stcnt - 1, holdOps := g.holdOps.filter (· ≠ r.op) } := by
  obtain ⟨v, hclose, hgangs, hmem, hreqs⟩ := closeReq_last (a := a) hops hleft hsub hlines (.inl hlog)
  have hended : opEnded r.op (lastAnswer r a o) g = { g with stcnt := g.stcnt - 1, holdOps := g.holdOps.filter (· ≠ r.op) } := by
    have hc : (lastAnswer r a o).ctr = .st := hctr
    have hd' : (lastAnswer r a o).dst = none := hd
    rw [opEnded, hc, lowerCtr, landOp, hd']
  rw [endAcquire, hacq] at hclose
  refine ⟨_, (storeAcknowledgement_next hr hst hval hup).trans (congrArg Host.Outcome.next hclose), hmem, hreqs, ?_⟩
  rw [look_updGang (by rw [hgangs]; exact hg), hended]

/-- Settles O21, event by event: the completion of a fill replays the parked requests in memory and leaves each past its parking; an
arrival and an eviction change the caches that they name; a walk enters its translation or keeps its failure; and an answer that one
operation alone awaits ends that operation. -/
theorem fillsWalksReplies : Obligations.FillsWalksReplies := by
  refine ⟨⟨?fill, ?arrival, ?walk, ?evict⟩, ?load, ?store⟩
  case fill => intro s line; exact hbmFillComplete_fills
  case arrival => intro s r a l1 rdc secs; exact cacheFillArrival_fills
  case walk =>
    intro s id w hw hready
    exact ⟨fun e => pageWalkComplete_enters hw hready, fun kind level g h _ => pageWalkComplete_fails hw hready h⟩
  case evict =>
    intro s core line h
    have hrest := evictL1_l1Only core line s
    exact ⟨_, l1Eviction_next h, by rw [hrest], by rw [hrest], evictL1_spec core line s⟩
  case load => intro s r a o g t d sc; exact loadReply_lands
  case store => intro s r a o g; exact storeAcknowledgement_lowers

end Sys2Proof.Machine
end

section
/-! Proof of O1: integer arithmetic. What wrapping and clamping do to an exact integer, and the results of the forms. -/

namespace Sys2Proof.Machine

/-! ## Patterns of w bits -/

theorem tyBits_pos (t : Ty) : 0 < tyBits t := by cases t <;> decide

theorem tyBits_le (t : Ty) : tyBits t ≤ 64 := by cases t <;> decide

/-- R24: two's complement is a choice of representatives modulo 2^w. -/
theorem sgn_emod (w n : Nat) : sgn w n % 2 ^ w = n % 2 ^ w := by
  unfold sgn
  split
  · exact Int.sub_emod_right ..
  · rfl

theorem sgn_bounds {w n : Nat} (hw : 0 < w) (h : n < 2 ^ w) : -(2 ^ (w - 1) : Int) ≤ sgn w n ∧ sgn w n ≤ 2 ^ (w - 1) - 1 := by
  obtain ⟨k, rfl⟩ := Nat.exists_eq_add_of_lt hw
  simp only [Nat.zero_add, Nat.add_sub_cancel, Nat.pow_succ] at *
  unfold sgn
  push_cast [pow_succ]
  have : ((2 ^ k : Nat) : Int) = 2 ^ k := by push_cast; rfl
  split <;> omega

/-- A number is fixed by its rest modulo m and by the interval of m numbers in which it lies. -/
theorem eq_of_emod_eq {m lo x y : Int} (h : x % m = y % m) (hx : lo ≤ x ∧ x < lo + m) (hy : lo ≤ y ∧ y < lo + m) : x = y := by
  have hd : m ∣ x - y := Int.ModEq.dvd (show y % m = x % m from h.symm)
  have := Int.eq_zero_of_abs_lt_dvd hd (by rw [abs_lt]; omega)
  omega

theorem low_ofNat {w n : Nat} (hw : w ≤ 64) (h : n < 2 ^ w) : low w (BitVec.ofNat 64 n) = n := by
  have : 2 ^ w ≤ 2 ^ 64 := Nat.pow_le_pow_right (by decide) hw
  rw [low, BitVec.toNat_ofNat, Nat.mod_eq_of_lt (by omega : n < 2 ^ 64), Nat.mod_eq_of_lt h]

theorem toNat_ofNat_low32 (x : Dword) : (BitVec.ofNat 64 (low 32 x)).toNat = low 32 x := by
  rw [BitVec.toNat_ofNat, low]; omega

theorem low_ofInt {w : Nat} (hw : w ≤ 64) (z : Int) : (low w (BitVec.ofInt 64 z) : Int) = z % 2 ^ w := by
  have hz : ((z % (2 ^ 64 : Nat)).toNat : Int) = z % 2 ^ 64 := Int.toNat_of_nonneg (Int.emod_nonneg _ (by decide))
  rw [low, BitVec.toNat_ofInt, Int.natCast_emod, hz, Nat.cast_pow, Nat.cast_ofNat, Int.emod_emod_of_dvd _ (pow_dvd_pow 2 hw)]

/-- R25: whatever a register holds, the integer read from it is one of its type. -/
theorem tyVal_bounds (t : Ty) (x : Dword) : tyMin t ≤ tyVal t x ∧ tyVal t x ≤ tyMax t := by
  have hlt : low (tyBits t) x < 2 ^ tyBits t := Nat.mod_lt _ (by positivity)
  unfold tyMin tyMax tyVal
  split
  · exact sgn_bounds (tyBits_pos t) hlt
  · have : ((2 ^ tyBits t : Nat) : Int) = 2 ^ tyBits t := by push_cast; rfl
    omega

/-- R24: the integers of a type are as many as its patterns. -/
theorem tyMax_eq (t : Ty) : tyMax t = tyMin t + 2 ^ tyBits t - 1 := by cases t <;> rfl

/-- R24: the low w bits of a result are the exact integer's, modulo 2^w. -/
theorem low_tyWrap (t : Ty) (x : Int) : (low (tyBits t) (tyWrap t x) : Int) = x % 2 ^ tyBits t := by
  have hpow : ((2 ^ tyBits t : Nat) : Int) = 2 ^ tyBits t := by push_cast; rfl
  have hmod := Int.emod_nonneg x (show (2 ^ tyBits t : Int) ≠ 0 by positivity)
  have hlt := Int.emod_lt_of_pos x (show (0 : Int) < 2 ^ tyBits t by positivity)
  have hn : (x % 2 ^ tyBits t).toNat < 2 ^ tyBits t := by omega
  unfold tyWrap
  dsimp only
  split
  · next h =>
    have hw : tyBits t < 32 := by simp_all
    generalize hs : sgn (tyBits t) (x % 2 ^ tyBits t).toNat = z
    have hz : z % 2 ^ tyBits t = x % 2 ^ tyBits t := by
      rw [← hs, sgn_emod, Int.toNat_of_nonneg hmod, Int.emod_emod_of_dvd _ (dvd_refl _)]
    rw [low, toNat_ofNat_low32, Int.natCast_emod, low_ofInt (by decide), Nat.cast_pow, Nat.cast_ofNat,
      Int.emod_emod_of_dvd _ (pow_dvd_pow 2 hw.le), hz]
  · rw [low_ofNat (tyBits_le t) hn, Int.toNat_of_nonneg hmod]

/-- R24: a value wraps modulo 2^w. -/
theorem tyVal_emod (t : Ty) (x : Int) : tyVal t (tyWrap t x) % 2 ^ tyBits t = x % 2 ^ tyBits t := by
  have h := low_tyWrap t x
  unfold tyVal
  split
  · rw [sgn_emod, h, Int.emod_emod_of_dvd _ (dvd_refl _)]
  · rw [h, Int.emod_emod_of_dvd _ (dvd_refl _)]

/-- R24: an integer of the type is written and read as it is. -/
theorem tyVal_tyWrap {t : Ty} {x : Int} (h : tyMin t ≤ x ∧ x ≤ tyMax t) : tyVal t (tyWrap t x) = x := by
  have hb := tyVal_bounds t (tyWrap t x)
  rw [tyMax_eq] at h hb
  exact eq_of_emod_eq (lo := tyMin t) (tyVal_emod t x) (by omega) (by omega)

theorem clamp_eq (t : Ty) (x : Int) : clamp (tyMin t) (tyMax t) x = max (tyMin t) (min (tyMax t) x) := by
  have hpos : (0 : Int) < 2 ^ tyBits t := by positivity
  have := tyMax_eq t
  unfold clamp
  split_ifs <;> omega

theorem clamp_bounds (t : Ty) (x : Int) :
    tyMin t ≤ clamp (tyMin t) (tyMax t) x ∧ clamp (tyMin t) (tyMax t) x ≤ tyMax t := by
  have hpos : (0 : Int) < 2 ^ tyBits t := by positivity
  have := tyMax_eq t
  rw [clamp_eq]
  omega

/-- R25: a narrow signed value stands sign-extended in 32 bits. -/
theorem tyWrap_narrow {t : Ty} (hs : tySigned t = true) (hw : tyBits t < 32) (x : Int) :
    (tyWrap t x).toNat < 2 ^ 32 ∧ ((tyWrap t x).setWidth 32).toInt = tyVal t (tyWrap t x) := by
  have hb := tyVal_bounds t (tyWrap t x)
  have hlow : low (tyBits t) (tyWrap t x) = (x % 2 ^ tyBits t).toNat := by rw [← low_tyWrap]; rfl
  have hv : tyVal t (tyWrap t x) = sgn (tyBits t) (x % 2 ^ tyBits t).toNat := by rw [tyVal, if_pos hs, hlow]
  have hx : tyWrap t x = BitVec.ofNat 64 (low 32 (BitVec.ofInt 64 (tyVal t (tyWrap t x)))) := by
    rw [hv]; simp [tyWrap, hs, hw]
  have h16 : -2 ^ 15 ≤ tyMin t ∧ tyMax t ≤ 2 ^ 15 - 1 := by revert hs hw; cases t <;> decide
  generalize tyVal t (tyWrap t x) = z at *
  have h32 : (low 32 (BitVec.ofInt 64 z) : Int) = z % 2 ^ 32 := low_ofInt (by decide) z
  rw [hx, BitVec.toInt_setWidth, toNat_ofNat_low32, h32, Int.bmod_def]
  omega

/-- R25: an unsigned value is zero-extended. -/
theorem tyWrap_unsigned {t : Ty} (hs : tySigned t = false) (x : Int) : ((tyWrap t x).toNat : Int) = tyVal t (tyWrap t x) := by
  have hlow := low_tyWrap t x
  have hmod := Int.emod_nonneg x (show (2 ^ tyBits t : Int) ≠ 0 by positivity)
  have hlt := Int.emod_lt_of_pos x (show (0 : Int) < 2 ^ tyBits t by positivity)
  have h64 : (2 : Int) ^ tyBits t ≤ 2 ^ 64 := pow_le_pow_right₀ (by decide) (tyBits_le t)
  have hv : tyVal t (tyWrap t x) = x % 2 ^ tyBits t := by rw [tyVal, if_neg (by simp [hs]), hlow]
  have hx : tyWrap t x = BitVec.ofNat 64 (x % 2 ^ tyBits t).toNat := by simp [tyWrap, hs]
  rw [hv, hx, BitVec.toNat_ofNat]
  omega

/-! ## The forms -/

section
variable {h : Hd} {s : State} {g : Gang}

/-- The accounts of an issue change no source. -/
theorem src_issued (i : Instr) (t : Ty) (f : Fibre) (o : Opnd) : src h (issued i h s g) t (past i s g f) o = src h g t f o :=
  rd_past i s g _ h.ext (rdTy t) f o (issued_s i h s g)

theorem src_past (i : Instr) (t : Ty) (f : Fibre) (o : Opnd) : src h g t (past i s g f) o = src h g t f o :=
  rd_past' i s g h.ext (rdTy t) f o

/-- R85: a form of one source writes what its operation makes of it. -/
theorem int2_result {i : Instr} {o : Int2} {op : Dword → Dword} {val : Fibre → Dword} (hc : CanIssue i .none s g) (hh : hdOf i = some h)
    (hx : exec i s = regOp i h (int2 h o op) s) (hval : ∀ f, op (src h g o.t f o.a) = val f) :
    Result i h s g (tyReg o.t) o.d (fun _ f => val f) :=
  regOp_result (v := fun g f => op (src h g o.t f o.a)) hc hh hx (fun _ _ => rfl) (fun f => by rw [src_issued, hval])
    (fun f => by rw [← hval, ← hval, src_past])

/-- R85: a form of two sources, of which it makes an exact integer, writes this integer wrapped or clamped. -/
theorem exact2_result {i : Instr} {o : Int3} {sat : Bool} {op : Int → Int → Int} {val : Int → Int → Int} (hc : CanIssue i .none s g)
    (hh : hdOf i = some h) (hx : exec i s = regOp i h (int3 h o (exact2 o.t sat op)) s) (hval : ∀ a b, op a b = val a b) :
    Result i h s g (tyReg o.t) o.d (fun _ f => tyFit o.t sat (val (isrc h g o.t f o.a) (isrc h g o.t f o.b))) := by
  obtain rfl : op = val := funext₂ hval
  exact regOp_result (v := fun g f => tyFit o.t sat (op (isrc h g o.t f o.a) (isrc h g o.t f o.b))) hc hh hx (fun _ _ => rfl)
    (fun f => by simp only [isrc, src_issued]) (fun f => by simp only [isrc, src_past])

theorem mad_result {o : Int4} (hc : CanIssue (.mad h o) .none s g) : Result (.mad h o) h s g (tyReg o.t) o.d (fun _ f =>
    tyFit o.t o.sat (isrc h g o.t f o.a * isrc h g o.t f o.b + isrc h g o.t f o.c)) :=
  regOp_result (v := fun g f => tyFit o.t o.sat (isrc h g o.t f o.a * isrc h g o.t f o.b + isrc h g o.t f o.c)) hc rfl
    (show exec (.mad h o) s = execMad h o s from rfl) (fun _ _ => rfl) (fun f => by simp only [isrc, src_issued])
    (fun f => by simp only [isrc, src_past])

end

/-- R93: an accepted `addc` is of an unsigned type, and its carry is a predicate register. -/
theorem addc_legal {h : Hd} {o : Int4} (hl : legal (.addc h o) = true) : tySigned o.t = false ∧ ∃ k, o.c = .p k := by
  have he := Laws.entryOk_of_legal hl
  have hu := Laws.usesOk_of_legal hl
  constructor
  · simp only [entryOk, Bool.and_eq_true, Bool.or_eq_true, decide_eq_true_eq] at he
    rcases he.1 with ht | ht <;> rw [ht] <;> rfl
  · simp only [uses, List.all_cons, Bool.and_eq_true] at hu
    obtain ⟨-, -, -, hk, -⟩ := hu
    have hk : Kind.p.accepts o.c = true := by
      rw [rP, r32, Use.ok, Bool.and_eq_true] at hk
      simpa using hk.1
    cases hoc : o.c with
    | p k => exact ⟨k, rfl⟩
    | _ => rw [hoc] at hk; cases hk

/-- The exact sum of an `addc`. -/
def carrySum (h : Hd) (g : Gang) (o : Int4) (f : Fibre) : Nat :=
  nsrc h g o.t f o.a + nsrc h g o.t f o.b + if psrc h g f o.c then 1 else 0

/-- R93: the integers of an unsigned type are its patterns, so the sum of an `addc` is the exact sum. -/
theorem carrySum_eq {h : Hd} {o : Int4} {k : Fin 8} (ht : tySigned o.t = false) (hk : o.c = .p k) (g : Gang) (f : Fibre) :
    isrc h g o.t f o.a + isrc h g o.t f o.b + (src h g o.t f o.c).toNat = carrySum h g o f := by
  have hc : ((src h g o.t f o.c).toNat : Int) = if psrc h g f o.c then 1 else 0 := by
    rw [psrc, src, src, hk, rd, rd]
    cases getP f k <;> rfl
  rw [hc]
  simp only [isrc, nsrc, carrySum, tyVal, ht]
  push_cast
  rfl

/-- R93: what `addc` does in a lane. -/
def addcLane (h : Hd) (o : Int4) (g : Gang) (f : Fibre) : Lane :=
  wrP o.c (decide (2 ^ tyBits o.t ≤ carrySum h g o f)) (wrTy o.t o.d (BitVec.ofNat 64 (carrySum h g o f % 2 ^ tyBits o.t)) (.ok f))

/-- R25: a natural number wraps, in an unsigned type, modulo 2^w. -/
theorem tyWrap_natCast {t : Ty} (ht : tySigned t = false) (n : Nat) : tyWrap t n = BitVec.ofNat 64 (n % 2 ^ tyBits t) := by
  have hmod : ((n : Int) % 2 ^ tyBits t).toNat = n % 2 ^ tyBits t := by
    rw [← Nat.cast_ofNat, ← Nat.cast_pow, ← Int.natCast_emod, Int.toNat_natCast]
  simp only [tyWrap, ht, hmod, Bool.false_and, Bool.false_eq_true, if_false]

theorem execAddc_eq {h : Hd} {o : Int4} (hl : legal (.addc h o) = true) (s : State) :
    exec (.addc h o) s = regOp (.addc h o) h (addcLane h o) s := by
  obtain ⟨ht, k, hk⟩ := addc_legal hl
  show execAddc h o s = _
  unfold execAddc
  congr 1
  funext g f
  have hsum := carrySum_eq (h := h) ht hk g f
  have hle : ((2 ^ tyBits o.t : Nat) : Int) = 2 ^ tyBits o.t := by push_cast; rfl
  simp only [isrc, src] at hsum
  simp only [hsum, tyWrap_natCast ht, addcLane, ← hle, Int.ofNat_le]

theorem wrP_f (k : Fin 8) (b : Bool) (l : Lane) : (wrP (.p k) b l).f = setP k b l.f := by cases b <;> rfl

/-- R12: a bit written to a predicate register. -/
theorem writeReg_bit (bits : Nat) (k : Fin 8) (c : Prop) [Decidable c] (f : Fibre) :
    writeReg bits (.p k) (if c then 1 else 0) f = setP k (decide c) f := by
  by_cases hc : c <;> simp [hc, writeReg]

theorem wr_sc (bits : Nat) (d : Opnd) (x : Dword) (f f' : Fibre) : (wr bits d x (.ok f)).sc = (wr bits d x (.ok f')).sc := by
  cases d <;> rfl

/-- R93: `addc` writes the sum modulo 2^w to D, and then the carry out to C. -/
theorem addc_did {h : Hd} {o : Int4} {s : State} {g : Gang} (hc : CanIssue (.addc h o) .none s g) :
    Did (.addc h o) h s g
      (fun _ f => writeReg 32 o.c (if 2 ^ tyBits o.t ≤ carrySum h g o f then 1 else 0)
        (writeReg (tyReg o.t) o.d (BitVec.ofNat 64 (carrySum h g o f % 2 ^ tyBits o.t)) f))
      (writeScalar (tyReg o.t) o.d (fun _ f => BitVec.ofNat 64 (carrySum h g o f % 2 ^ tyBits o.t)) h s g) := by
  obtain ⟨ht, k, hk⟩ := addc_legal hc.word
  have hsum : ∀ f, carrySum h (issued (.addc h o) h s g) o (past (.addc h o) s g f) = carrySum h g o f := fun f => by
    simp only [carrySum, nsrc, psrc, src_issued]
  have hpast : ∀ f, carrySum h g o (past (.addc h o) s g f) = carrySum h g o f := fun f => by
    simp only [carrySum, nsrc, psrc, src_past]
  have hlane : ∀ (g : Gang) (f : Fibre) (x : Lane), (wrP o.c (decide (2 ^ tyBits o.t ≤ carrySum h g o f)) x).sc = x.sc ∧
      (wrP o.c (decide (2 ^ tyBits o.t ≤ carrySum h g o f)) x).fault = x.fault := fun g f x => by rw [hk]; exact ⟨rfl, rfl⟩
  have hd := issue_lanes_did (fn := fun g _ f => addcLane h o g f) hc rfl (execAddc_eq hc.word s)
    (fun g _ f => (hlane g f _).2.trans (wr_fault ..))
  refine hd.congr (fun _ f => ?_) (scalarsAfter_wr (val := fun _ f => BitVec.ofNat 64 (carrySum h g o f % 2 ^ tyBits o.t))
    (fun _ f => (hlane _ _ _).1.trans (by rw [hsum]; exact wr_sc ..)) _)
  rw [addcLane, hsum, hpast, hk, wrP_f, wrTy, wr_f, writeReg_bit]

/-- Settles O1: the forms write what their exact integers wrap or clamp to, and these keep to the rules for narrow types. -/
theorem integerArithmetic : Obligations.IntegerArithmetic := by
  refine ⟨fun t x _ => ⟨?wraps, (tyVal_bounds ..).1, (tyVal_bounds ..).2, ?clamps, fun sat hs hw => tyWrap_narrow hs hw _,
    fun sat hs => tyWrap_unsigned hs _⟩, ⟨?add, ?sub, ?mul, ?mulhi, ?mad, ?neg, ?abs, ?min, ?max⟩, ?addc⟩
  case wraps => exact Int.emod_eq_emod_iff_emod_sub_eq_zero.mp (tyVal_emod t x)
  case clamps => exact (tyVal_tyWrap (clamp_bounds t x)).trans (clamp_eq t x)
  case add => exact fun h o s g hc => exact2_result hc rfl (show _ = execAdd h o s from rfl) fun _ _ => rfl
  case sub => exact fun h o s g hc => exact2_result hc rfl (show _ = execSub h o s from rfl) fun _ _ => rfl
  case mul => exact fun h o s g hc => exact2_result hc rfl (show _ = execMul h o s from rfl) fun _ _ => rfl
  case mulhi =>
    exact fun h o s g hc => exact2_result (val := fun a b => (a * b).fdiv (2 ^ tyBits o.t)) hc rfl
      (show _ = execMulhi h o s from rfl) fun _ _ => (Int.fdiv_eq_ediv_of_nonneg _ (by positivity)).symm
  case mad => exact fun h o s g hc => mad_result hc
  case neg => exact fun h o s g hc => int2_result hc rfl (show _ = execNeg h o s from rfl) fun _ => rfl
  case abs =>
    exact fun h o s g hc => int2_result hc rfl (show _ = execAbs h o s from rfl) fun _ => by rw [Int.natCast_natAbs]
  case min =>
    exact fun h o s g hc => exact2_result hc rfl (show _ = execMin h o s from rfl) fun a b => by simp only [min_def]; split_ifs <;> omega
  case max =>
    exact fun h o s g hc => exact2_result hc rfl (show _ = execMax h o s from rfl) fun a b => by simp only [max_def]; split_ifs <;> omega
  case addc => exact fun h o s g hc => addc_did hc

end Sys2Proof.Machine
end

section
/-! Proof of O8, first part: magnitudes rounded to multiples of a power of two. -/

namespace Sys2Proof.Machine

/-! ## Modes, seen from the magnitude -/

/-- R30: what a mode does to the magnitude of a value of known sign. -/
inductive MagMode where
  | near | trunc | away

def magMode (rm : Rm) (neg : Bool) : MagMode :=
  match rm, neg with
  | .rne, _ => .near
  | .rtz, _ => .trunc
  | .rdn, true => .away
  | .rdn, false => .trunc
  | .rup, true => .trunc
  | .rup, false => .away

/-- n is the natural number to which the mode rounds a. -/
def IntRounds (md : MagMode) (a : ℝ) (n : ℕ) : Prop :=
  match md with
  | .near => |a - n| ≤ 1 / 2 ∧ (|a - n| = 1 / 2 → Even n)
  | .trunc => n ≤ a ∧ a < n + 1
  | .away => a ≤ n ∧ n < a + 1

theorem intRounds_self (md : MagMode) (n : ℕ) : IntRounds md n n := by
  cases md <;> norm_num [IntRounds]

/-- R30: whether a number x above n, and below n + 1, is rounded to n + 1. -/
def GoesUp (md : MagMode) (n : ℕ) (x : ℝ) : Prop :=
  match md with
  | .near => 1 / 2 < x ∨ (x = 1 / 2 ∧ ¬Even n)
  | .trunc => False
  | .away => 0 < x

theorem intRounds_up {md : MagMode} {n : ℕ} {x : ℝ} (hx1 : x < 1) (h : GoesUp md n x) : IntRounds md (n + x) (n + 1 : ℕ) := by
  cases md <;> simp only [GoesUp, IntRounds] at h ⊢ <;> push_cast
  case near =>
    have hhalf : 1 / 2 ≤ x := by rcases h with h | h <;> linarith
    rw [show (n : ℝ) + x - (n + 1) = -(1 - x) by ring, abs_neg, abs_of_nonneg (by linarith)]
    refine ⟨by linarith, fun he => ?_⟩
    rcases h with h | ⟨-, h⟩
    · linarith
    · exact (Nat.not_even_iff_odd.mp h).add_one
  case away => constructor <;> linarith

theorem intRounds_down {md : MagMode} {n : ℕ} {x : ℝ} (hx : 0 ≤ x) (hx1 : x < 1) (h : ¬GoesUp md n x) : IntRounds md (n + x) n := by
  cases md <;> simp only [GoesUp, IntRounds, not_or, not_lt, not_and, not_not] at h ⊢
  case near =>
    rw [add_sub_cancel_left, abs_of_nonneg hx]
    exact h
  case trunc => constructor <;> linarith
  case away => constructor <;> linarith

/-- R30: whether the quotient of m by 2^s is rounded up. -/
def upAt (rm : Rm) (neg : Bool) (s m : ℕ) : Bool :=
  match rm with
  | .rne => decide (2 ^ s < 2 * (m % 2 ^ s)) || (decide (2 ^ s = 2 * (m % 2 ^ s)) && m / 2 ^ s % 2 == 1)
  | .rtz => false
  | .rdn => neg && m % 2 ^ s != 0
  | .rup => !neg && m % 2 ^ s != 0

theorem rndAt_fine {e q : ℤ} (rm : Rm) (neg : Bool) (m : ℕ) (h : q ≤ e) : rndAt rm neg m e q = (m * 2 ^ (e - q).toNat, false) := by
  rw [rndAt, if_pos h]

theorem rndAt_coarse {e q : ℤ} {s : ℕ} (rm : Rm) (neg : Bool) (m : ℕ) (h : ¬q ≤ e) (hs : q - e = s) :
    rndAt rm neg m e q = (m / 2 ^ s + (upAt rm neg s m).toNat, m % 2 ^ s != 0) := by
  rw [rndAt, if_neg h, hs]
  cases rm <;> rfl

theorem upAt_iff (rm : Rm) (neg : Bool) (s m : ℕ) :
    upAt rm neg s m = true ↔ GoesUp (magMode rm neg) (m / 2 ^ s) ((m % 2 ^ s : ℕ) / 2 ^ s) := by
  have hpos : (0 : ℝ) < 2 ^ s := by positivity
  have hzero : m % 2 ^ s ≠ 0 ↔ (0 : ℝ) < (m % 2 ^ s : ℕ) / 2 ^ s := by
    rw [lt_div_iff₀ hpos, zero_mul, Nat.cast_pos, Nat.pos_iff_ne_zero]
  cases rm
  case rne =>
    have hlt : 2 ^ s < 2 * (m % 2 ^ s) ↔ (1 / 2 : ℝ) < (m % 2 ^ s : ℕ) / 2 ^ s := by
      rw [div_lt_div_iff₀ two_pos hpos]
      norm_cast
      rw [one_mul, mul_comm]
    have heq : 2 ^ s = 2 * (m % 2 ^ s) ↔ ((m % 2 ^ s : ℕ) / 2 ^ s : ℝ) = 1 / 2 := by
      rw [div_eq_div_iff hpos.ne' two_ne_zero]
      norm_cast
      omega
    simp only [upAt, magMode, GoesUp, Bool.or_eq_true, Bool.and_eq_true, decide_eq_true_eq, beq_iff_eq, hlt, heq, Nat.not_even_iff]
  case rtz => simp [upAt, magMode, GoesUp]
  case rdn => cases neg <;> simp [upAt, magMode, GoesUp, ← hzero]
  case rup => cases neg <;> simp [upAt, magMode, GoesUp, ← hzero]

/-- R30: `rndAt` rounds the multiple of 2^q that a magnitude is, and says whether that changes it. -/
theorem rndAt_spec (rm : Rm) (neg : Bool) (m : ℕ) (e q : ℤ) :
    IntRounds (magMode rm neg) (m * 2 ^ (e - q)) (rndAt rm neg m e q).1 ∧
      ((rndAt rm neg m e q).2 = true ↔ (m * 2 ^ (e - q) : ℝ) ≠ (rndAt rm neg m e q).1) := by
  by_cases h : q ≤ e
  · have ha : (m * 2 ^ (e - q) : ℝ) = ((m * 2 ^ (e - q).toNat : ℕ) : ℝ) := by
      push_cast
      rw [← zpow_natCast, Int.toNat_of_nonneg (by omega)]
    rw [rndAt_fine rm neg m h, ha]
    exact ⟨intRounds_self _ _, by simp⟩
  · obtain ⟨s, hs⟩ := Int.eq_ofNat_of_zero_le (show 0 ≤ q - e by omega)
    have hpos : (0 : ℝ) < 2 ^ s := by positivity
    have hr : ((m % 2 ^ s : ℕ) : ℝ) < 2 ^ s := by exact_mod_cast Nat.mod_lt m (show 0 < 2 ^ s by positivity)
    have hx0 : 0 ≤ ((m % 2 ^ s : ℕ) / 2 ^ s : ℝ) := by positivity
    have hx1 : ((m % 2 ^ s : ℕ) / 2 ^ s : ℝ) < 1 := by rwa [div_lt_one hpos]
    have ha : (m * 2 ^ (e - q) : ℝ) = (m / 2 ^ s : ℕ) + (m % 2 ^ s : ℕ) / 2 ^ s := by
      rw [show e - q = -(s : ℤ) by omega, zpow_neg, zpow_natCast]
      field_simp
      exact_mod_cast (Nat.div_add_mod m (2 ^ s)).symm
    have hzero : (m % 2 ^ s != 0) = true ↔ ((m % 2 ^ s : ℕ) / 2 ^ s : ℝ) ≠ 0 := by
      simp [hpos.ne']
    have hup := upAt_iff rm neg s m
    rw [rndAt_coarse rm neg m h hs, ha]
    generalize ((m % 2 ^ s : ℕ) / 2 ^ s : ℝ) = x at *
    dsimp only
    rw [hzero]
    cases hu : upAt rm neg s m
    · rw [hu, Bool.false_eq_true, false_iff] at hup
      exact ⟨intRounds_down hx0 hx1 hup, by simp⟩
    · rw [hu, eq_self_iff_true, true_iff] at hup
      refine ⟨intRounds_up hx1 hup, iff_of_true ?_ ?_⟩
      · rintro rfl
        revert hup
        cases magMode rm neg <;> norm_num [GoesUp]
      · simp [hx1.ne]

/-! ## What a rounding reaches, and what it lies nearest to -/

section
variable {md : MagMode} {a : ℝ} {n : ℕ}

theorem IntRounds.natCast_le (h : IntRounds md a n) {j : ℕ} (hj : (j : ℝ) ≤ a) : j ≤ n := by
  cases md
  case near =>
    obtain ⟨h, -⟩ := h
    have := (abs_le.mp h).2
    have : (j : ℝ) < n + 1 := by linarith
    exact Nat.lt_succ_iff.mp (by exact_mod_cast this)
  case trunc => exact Nat.lt_succ_iff.mp (by exact_mod_cast hj.trans_lt h.2)
  case away => exact_mod_cast hj.trans h.1

theorem IntRounds.le_natCast (h : IntRounds md a n) {j : ℕ} (hj : a ≤ j) : n ≤ j := by
  cases md
  case near =>
    obtain ⟨h, -⟩ := h
    have := (abs_le.mp h).1
    have : (n : ℝ) < j + 1 := by linarith
    exact Nat.lt_succ_iff.mp (by exact_mod_cast this)
  case trunc => exact_mod_cast h.1.trans hj
  case away => exact Nat.lt_succ_iff.mp (by exact_mod_cast h.2.trans_le (by linarith : a + 1 ≤ j + 1))

/-- An even number is reached by the rounding from here on. -/
def Reaches (md : MagMode) (k a : ℝ) : Prop :=
  match md with
  | .near => k - 1 / 2 ≤ a
  | .trunc => k ≤ a
  | .away => k - 1 < a

theorem IntRounds.le_iff_reaches (h : IntRounds md a n) {k : ℕ} (hk : Even k) : k ≤ n ↔ Reaches md k a := by
  cases md
  case near =>
    obtain ⟨hle, htie⟩ := h
    have habs := abs_le.mp hle
    constructor
    · intro hkn
      have : (k : ℝ) ≤ n := by exact_mod_cast hkn
      simp only [Reaches]
      linarith
    · intro hr
      simp only [Reaches] at hr
      by_contra hlt
      have hn1 : (n : ℝ) + 1 ≤ k := by exact_mod_cast Nat.lt_of_not_le hlt
      have ha : a - n = 1 / 2 := by linarith
      have heven := htie (by rw [ha]; norm_num)
      have hkn : k = n + 1 := by
        have : (k : ℝ) = n + 1 := by linarith
        exact_mod_cast this
      exact absurd hk (by rw [hkn]; exact Nat.not_even_iff_odd.mpr heven.add_one)
  case trunc =>
    exact ⟨fun hkn => (show (k : ℝ) ≤ n by exact_mod_cast hkn).trans h.1, fun hr => h.natCast_le hr⟩
  case away =>
    constructor
    · intro hkn
      have : (k : ℝ) ≤ n := by exact_mod_cast hkn
      have := h.2
      simp only [Reaches]
      linarith
    · intro hr
      have := h.1
      simp only [Reaches] at hr
      have : (k : ℝ) < n + 1 := by linarith
      exact Nat.lt_succ_iff.mp (by exact_mod_cast this)

/-- Rounded to nearest, no other natural number lies nearer, nor as near unless n is even. -/
theorem IntRounds.near_le (h : IntRounds .near a n) (j : ℕ) : |a - n| ≤ |a - j| ∧ (|a - n| = |a - j| → j ≠ n → Even n) := by
  obtain ⟨hle, htie⟩ := h
  by_cases hj : j = n
  · subst hj; exact ⟨le_rfl, fun _ h => absurd rfl h⟩
  · have hone : (1 : ℝ) ≤ |(j : ℝ) - n| := by
      have : (1 : ℤ) ≤ |(j : ℤ) - n| := Int.one_le_abs (by omega)
      exact_mod_cast this
    have htri : |(j : ℝ) - n| ≤ |a - n| + |a - j| := by
      rw [show (j : ℝ) - n = (a - n) - (a - j) by ring]
      exact abs_sub _ _
    exact ⟨by linarith, fun he _ => htie (by linarith)⟩

end

end Sys2Proof.Machine
end

section
/-! Proof of O8, second part: the rounding with an unbounded exponent, and what the overflow and tininess of a rounding mean. -/

namespace Sys2Proof.Machine

/-! ## Binades -/

theorem bitLen_pos {m : ℕ} (hm : m ≠ 0) : bitLen m = m.log2 + 1 := if_neg hm

/-- R123: the exponent of a magnitude is that of the power of two at or below it. -/
theorem finExpo_spec {m : ℕ} (hm : m ≠ 0) (e : ℤ) :
    (2 : ℝ) ^ finExpo m e ≤ m * 2 ^ e ∧ (m : ℝ) * 2 ^ e < 2 ^ (finExpo m e + 1) := by
  have hlo : ((2 ^ m.log2 : ℕ) : ℝ) ≤ m := by exact_mod_cast Nat.log2_self_le hm
  have hhi : (m : ℝ) < ((2 ^ (m.log2 + 1) : ℕ) : ℝ) := by exact_mod_cast Nat.lt_log2_self
  have hpos : (0 : ℝ) < 2 ^ e := by positivity
  have hE : finExpo m e = (m.log2 : ℤ) + e := by rw [finExpo, bitLen_pos hm]; push_cast; ring
  push_cast at hlo hhi
  rw [hE]
  constructor
  · rw [zpow_add₀ two_ne_zero, zpow_natCast]
    exact mul_le_mul_of_nonneg_right hlo hpos.le
  · rw [show (m.log2 : ℤ) + e + 1 = ((m.log2 + 1 : ℕ) : ℤ) + e by push_cast; ring, zpow_add₀ two_ne_zero, zpow_natCast]
    exact mul_lt_mul_of_pos_right hhi hpos

/-- X is rounded, with fb fraction bits and an unbounded exponent, to 2^P or more. -/
def RoundsTo (md : MagMode) (fb : ℕ) (P : ℤ) (X : ℝ) : Prop :=
  match md with
  | .near => (1 - 2 ^ (-((fb : ℤ) + 2))) * 2 ^ P ≤ X
  | .trunc => 2 ^ P ≤ X
  | .away => (1 - 2 ^ (-((fb : ℤ) + 1))) * 2 ^ P < X

section
variable {md : MagMode} {fb n : ℕ} {E P : ℤ} {X : ℝ}

theorem roundsTo_of_le (h : 2 ^ P ≤ X) : RoundsTo md fb P X := by
  have hP : (0 : ℝ) < 2 ^ P := by positivity
  have h1 : (0 : ℝ) < 2 ^ (-((fb : ℤ) + 1)) := by positivity
  have h2 : (0 : ℝ) < 2 ^ (-((fb : ℤ) + 2)) := by positivity
  cases md <;> simp only [RoundsTo] <;> nlinarith

theorem not_roundsTo_of_lt (h : X < 2 ^ (P - 1)) : ¬RoundsTo md fb P X := by
  have hP : (0 : ℝ) < 2 ^ P := by positivity
  have hhalf : (2 : ℝ) ^ (P - 1) = 2 ^ P / 2 := by rw [zpow_sub_one₀ two_ne_zero]; ring
  have h1 : (2 : ℝ) ^ (-((fb : ℤ) + 1)) ≤ 1 / 2 := by
    rw [show (1 / 2 : ℝ) = 2 ^ (-1 : ℤ) by norm_num]
    exact zpow_le_zpow_right₀ one_le_two (by omega)
  have h2 : (2 : ℝ) ^ (-((fb : ℤ) + 2)) ≤ 1 / 2 := by
    rw [show (1 / 2 : ℝ) = 2 ^ (-1 : ℤ) by norm_num]
    exact zpow_le_zpow_right₀ one_le_two (by omega)
  rw [hhalf] at h
  cases md <;> simp only [RoundsTo, not_le, not_lt] <;> nlinarith

/-- Just below 2^P the numbers lie 2^(P − 1 − fb) apart, so that 2^P is the 2^(fb + 1)-th of them. -/
theorem roundsTo_iff_reaches (md : MagMode) (fb : ℕ) (P : ℤ) (X : ℝ) :
    RoundsTo md fb P X ↔ Reaches md ((2 ^ (fb + 1) : ℕ) : ℝ) (X / 2 ^ (P - 1 - fb)) := by
  have hpos : (0 : ℝ) < 2 ^ (P - 1 - fb) := by positivity
  have hP : (2 : ℝ) ^ P = 2 ^ (fb + 1) * 2 ^ (P - 1 - fb) := by
    rw [← zpow_natCast, ← zpow_add₀ two_ne_zero]; congr 1; push_cast; ring
  have hone : (2 : ℝ) ^ (-((fb : ℤ) + 1)) * 2 ^ P = 2 ^ (P - 1 - fb) := by
    rw [← zpow_add₀ two_ne_zero]; congr 1; ring
  have htwo : (2 : ℝ) ^ (-((fb : ℤ) + 2)) * 2 ^ P = 1 / 2 * 2 ^ (P - 1 - fb) := by
    rw [← zpow_add₀ two_ne_zero, show (1 / 2 : ℝ) = 2 ^ (-1 : ℤ) by norm_num, ← zpow_add₀ two_ne_zero]; congr 1; ring
  push_cast
  cases md <;> simp only [RoundsTo, Reaches]
  case near => rw [sub_mul, one_mul, htwo, hP, ← sub_mul, le_div_iff₀ hpos]
  case trunc => rw [hP, le_div_iff₀ hpos]
  case away => rw [sub_mul, one_mul, hone, hP, lt_div_iff₀ hpos]; ring_nf

/-- R31, R32: the rounding to fb fraction bits reaches 2^P where `RoundsTo` says so. -/
theorem two_zpow_le_iff_roundsTo (hX : 2 ^ E ≤ X ∧ X < 2 ^ (E + 1)) (h : IntRounds md (X / 2 ^ (E - fb)) n) :
    (2 : ℝ) ^ P ≤ n * 2 ^ (E - fb) ↔ RoundsTo md fb P X := by
  obtain ⟨hlo, hhi⟩ := hX
  have hpos : (0 : ℝ) < 2 ^ (E - fb) := by positivity
  have hE : (2 : ℝ) ^ E = 2 ^ fb * 2 ^ (E - fb) := by rw [← zpow_natCast, ← zpow_add₀ two_ne_zero]; congr 1; ring
  have hE1 : (2 : ℝ) ^ (E + 1) = 2 ^ (fb + 1) * 2 ^ (E - fb) := by
    rw [← zpow_natCast, ← zpow_add₀ two_ne_zero]; congr 1; push_cast; ring
  have hn : 2 ^ fb ≤ n := h.natCast_le (by push_cast; rwa [le_div_iff₀ hpos, ← hE])
  have hn' : n ≤ 2 ^ (fb + 1) := h.le_natCast (by push_cast; rw [div_le_iff₀ hpos, ← hE1]; exact hhi.le)
  rcases lt_trichotomy P (E + 1) with hP | rfl | hP
  · have hPE : (2 : ℝ) ^ P ≤ 2 ^ E := zpow_le_zpow_right₀ one_le_two (by omega)
    have hval : (2 : ℝ) ^ E ≤ n * 2 ^ (E - fb) := by
      rw [hE]; exact mul_le_mul_of_nonneg_right (by exact_mod_cast hn) hpos.le
    exact iff_of_true (hPE.trans hval) (roundsTo_of_le (hPE.trans hlo))
  · rw [roundsTo_iff_reaches, show E + 1 - 1 - (fb : ℤ) = E - fb by ring, ← h.le_iff_reaches ((even_two).pow_of_ne_zero (by omega)),
      hE1, mul_le_mul_iff_left₀ hpos]
    norm_cast
  · have hPE : (2 : ℝ) ^ (E + 1) < 2 ^ P := zpow_lt_zpow_right₀ one_lt_two hP
    have hval : n * (2 : ℝ) ^ (E - fb) ≤ 2 ^ (E + 1) := by
      rw [hE1]; exact mul_le_mul_of_nonneg_right (by exact_mod_cast hn') hpos.le
    exact iff_of_false (not_le.mpr (hval.trans_lt hPE))
      (not_roundsTo_of_lt (hhi.trans_le (zpow_le_zpow_right₀ one_le_two (by omega))))

end

/-! ## Overflow and tininess, by the mode and by the magnitude -/

theorem one_sub_zpow_mul (k : ℕ) (P : ℤ) : (1 - (2 : ℝ) ^ (-((k : ℤ) + 1))) * 2 ^ (P + 1) = (2 - 2 ^ (-(k : ℤ))) * 2 ^ P := by
  rw [zpow_add_one₀ two_ne_zero, neg_add, zpow_add₀ two_ne_zero, show (2 : ℝ) ^ (-1 : ℤ) = 1 / 2 by norm_num]
  ring

/-- R31, R35: an overflow is a rounding to the power of two above the largest numbers. -/
theorem roundsOver_iff (F : FFmt) (top : ℤ) (rm : Rm) (x : ℝ) :
    RoundsOver F top rm x ↔ RoundsTo (magMode rm (decide (x < 0))) F.fb (top + 1) |x| := by
  have hnear := one_sub_zpow_mul (F.fb + 1) top
  have haway := one_sub_zpow_mul F.fb top
  push_cast at hnear
  rw [add_assoc, one_add_one_eq_two] at hnear
  by_cases hx : x < 0 <;> cases rm <;> simp only [RoundsOver, magMode, RoundsTo, maxFinite, hx, decide_true, decide_false, if_true,
    if_false, hnear, haway]

/-- R32: a result is tiny where the rounding does not reach the least normal number. -/
theorem roundsTiny_iff (F : FFmt) (rm : Rm) (x : ℝ) :
    RoundsTiny F rm x ↔ ¬RoundsTo (magMode rm (decide (x < 0))) F.fb (1 - F.bias) |x| := by
  by_cases hx : x < 0 <;> cases rm <;> simp only [RoundsTiny, magMode, RoundsTo, hx, decide_true, decide_false, if_true, if_false,
    not_le, not_lt]

/-! ## The nearest number of a format -/

/-- The numbers of F and, above them, those of a format with its precision and no bound on exponents. -/
def OnGrid (F : FFmt) (z : ℝ) : Prop := ∃ (M : ℕ) (e : ℤ), M < 2 ^ (F.fb + 1) ∧ 1 - F.bias - F.fb ≤ e ∧ |z| = M * 2 ^ e

/-- R30: V is what the mode makes of the magnitude X among the magnitudes of S. -/
def NearestMag (S : ℝ → Prop) (md : MagMode) (X V : ℝ) (odd : Bool) : Prop :=
  ∀ z, S z → 0 ≤ z → match md with
    | .near => |X - V| ≤ |X - z| ∧ (|X - V| = |X - z| → z ≠ V → odd = false)
    | .trunc => V ≤ X ∧ (z ≤ X → z ≤ V)
    | .away => X ≤ V ∧ (X ≤ z → V ≤ z)

/-- ±X. -/
def signed (neg : Bool) (X : ℝ) : ℝ := if neg then -X else X

theorem abs_signed {neg : Bool} {X : ℝ} (h : 0 ≤ X) : |signed neg X| = X := by
  cases neg <;> simp [signed, abs_of_nonneg h]

theorem signed_neg_iff {neg : Bool} {X : ℝ} (h : 0 < X) : signed neg X < 0 ↔ neg = true := by
  cases neg <;> simp [signed, h, h.le]

theorem decide_signed_neg {neg : Bool} {X : ℝ} (h : 0 < X) : decide (signed neg X < 0) = neg := by
  rw [Bool.eq_iff_iff, decide_eq_true_eq, signed_neg_iff h]

/-- To nearest, a number of the other sign lies further from X than its magnitude. -/
theorem near_of_near_abs {X V y : ℝ} {odd : Bool} (hX : 0 < X)
    (h : |X - V| ≤ |X - (|y|)| ∧ (|X - V| = |X - (|y|)| → |y| ≠ V → odd = false)) :
    |X - V| ≤ |X - y| ∧ (|X - V| = |X - y| → y ≠ V → odd = false) := by
  rcases le_or_gt 0 y with hy | hy
  · rwa [abs_of_nonneg hy] at h
  · have hfar : |X - (|y|)| < |X - y| := by
      rw [abs_of_neg hy, abs_of_pos (show 0 < X - y by linarith), abs_lt]
      constructor <;> linarith
    exact ⟨h.1.trans hfar.le, fun he => absurd he (h.1.trans_lt hfar).ne⟩

theorem trunc_of_trunc_abs {X V z : ℝ} (hV : 0 ≤ V) (h : V ≤ X ∧ (|z| ≤ X → |z| ≤ V)) :
    (V ≤ X ∧ (z ≤ X → z ≤ V)) ∧ -X ≤ -V ∧ (-X ≤ z → -V ≤ z) := by
  rcases abs_cases z with ⟨hz, h0⟩ | ⟨hz, h0⟩ <;> rw [hz] at h
  · exact ⟨h, neg_le_neg h.1, fun _ => by linarith⟩
  · exact ⟨⟨h.1, fun _ => by linarith⟩, neg_le_neg h.1, fun hx => neg_le.mp (h.2 (neg_le.mp hx))⟩

theorem away_of_away_abs {X V z : ℝ} (hX : 0 < X) (h : X ≤ V ∧ (X ≤ |z| → V ≤ |z|)) :
    (X ≤ V ∧ (X ≤ z → V ≤ z)) ∧ -V ≤ -X ∧ (z ≤ -X → z ≤ -V) := by
  rcases abs_cases z with ⟨hz, h0⟩ | ⟨hz, h0⟩ <;> rw [hz] at h
  · exact ⟨h, neg_le_neg h.1, fun _ => by linarith⟩
  · exact ⟨⟨h.1, fun _ => by linarith⟩, neg_le_neg h.1, fun hx => le_neg.mp (h.2 (le_neg.mp hx))⟩

/-- Among numbers that come with their magnitudes, the mode acts on the magnitude. -/
theorem NearestMag.nearestIn {S : ℝ → Prop} {rm : Rm} {neg : Bool} {X V : ℝ} {odd : Bool} (hX : 0 < X) (hV : 0 ≤ V)
    (habs : ∀ z, S z → S |z|) (h : NearestMag S (magMode rm neg) X V odd) : NearestIn S rm (signed neg X) (signed neg V) odd := by
  intro z hz
  have hm := h |z| (habs z hz) (abs_nonneg z)
  cases rm <;> cases neg <;> simp only [magMode, signed, if_true, if_false, Bool.false_eq_true, abs_neg, abs_of_pos hX, abs_of_nonneg hV]
    at hm ⊢
  case rne.false => exact near_of_near_abs hX hm
  case rne.true =>
    have h' := near_of_near_abs (y := -z) hX (by rwa [abs_neg])
    rwa [show -X - -V = -(X - V) by ring, show -X - z = -(X - -z) by ring, abs_neg, abs_neg, ne_eq, ← neg_eq_iff_eq_neg]
  case rtz.false => exact hm
  case rtz.true => exact hm
  case rdn.false => exact (trunc_of_trunc_abs hV hm).1
  case rdn.true => exact (away_of_away_abs hX hm).2
  case rup.false => exact (away_of_away_abs hX hm).1
  case rup.true => exact (trunc_of_trunc_abs hV hm).2

/-- R30: rounded to multiples of 2^q, q being the exponent that the format's precision and its subnormal numbers allow, X goes to the
nearest number of the grid. -/
theorem nearestMag_grid {F : FFmt} {md : MagMode} {X : ℝ} {E q : ℤ} {n : ℕ} {odd : Bool} (hX : 2 ^ E ≤ X) (hq : q = max E (1 - F.bias) - F.fb)
    (h : IntRounds md (X / 2 ^ q) n) (hodd : Even n → odd = false) : NearestMag (OnGrid F) md X (n * 2 ^ q) odd := by
  have hpos : (0 : ℝ) < 2 ^ q := by positivity
  have hXq : X = X / 2 ^ q * 2 ^ q := by field_simp
  rintro z ⟨M, e, hM, he, hz⟩ hz0
  rw [abs_of_nonneg hz0] at hz
  generalize X / 2 ^ q = a at *
  by_cases hqe : q ≤ e
  · -- z is a multiple of 2^q too
    obtain ⟨j, rfl⟩ : ∃ j : ℕ, z = j * 2 ^ q := by
      obtain ⟨s, hs⟩ := Int.eq_ofNat_of_zero_le (show 0 ≤ e - q by omega)
      refine ⟨M * 2 ^ s, ?_⟩
      rw [hz, show e = (s : ℤ) + q by omega, zpow_add₀ two_ne_zero, zpow_natCast]
      push_cast
      ring
    have hscale : ∀ v : ℝ, |a * 2 ^ q - v * 2 ^ q| = |a - v| * 2 ^ q := fun v => by
      rw [← sub_mul, abs_mul, abs_of_pos hpos]
    rw [hXq]
    cases md <;> simp only [hscale, mul_le_mul_iff_left₀ hpos, mul_left_inj' hpos.ne', Nat.cast_le, ne_eq, Nat.cast_inj]
    case near => exact ⟨(h.near_le j).1, fun he hj => hodd ((h.near_le j).2 he hj)⟩
    case trunc => exact ⟨h.1, h.natCast_le⟩
    case away => exact ⟨h.1, h.le_natCast⟩
  · -- z lies below 2^E, which the rounding reaches
    obtain rfl : q = E - F.fb := by omega
    have hE : (2 : ℝ) ^ E = 2 ^ F.fb * 2 ^ (E - F.fb) := by rw [← zpow_natCast, ← zpow_add₀ two_ne_zero]; congr 1; ring
    have hzE : z < 2 ^ E := by
      have hM' : (M : ℝ) < 2 ^ (F.fb + 1) := by exact_mod_cast hM
      calc z = M * 2 ^ e := hz
        _ < 2 ^ (F.fb + 1) * 2 ^ e := mul_lt_mul_of_pos_right hM' (by positivity)
        _ = 2 ^ ((F.fb : ℤ) + 1 + e) := by rw [← zpow_natCast, ← zpow_add₀ two_ne_zero]; push_cast; rfl
        _ ≤ 2 ^ E := zpow_le_zpow_right₀ one_le_two (by omega)
    have hn : (2 : ℝ) ^ F.fb ≤ n := by
      have : 2 ^ F.fb ≤ n := h.natCast_le (by push_cast; exact le_of_mul_le_mul_right (by rwa [← hE, ← hXq]) hpos)
      exact_mod_cast this
    have hV : (2 : ℝ) ^ E ≤ n * 2 ^ (E - F.fb) := by rw [hE]; exact mul_le_mul_of_nonneg_right hn hpos.le
    cases md
    case near =>
      have hE' : 2 ^ F.fb ≤ a := le_of_mul_le_mul_right (by rwa [← hE, ← hXq]) hpos
      have hnear := (h.near_le (2 ^ F.fb)).1
      push_cast at hnear
      have hlt : |X - n * 2 ^ (E - F.fb)| < |X - z| := by
        rw [abs_of_pos (show 0 < X - z by linarith), hXq, ← sub_mul, abs_mul, abs_of_pos hpos]
        rw [abs_of_nonneg (show 0 ≤ a - 2 ^ F.fb by linarith)] at hnear
        have := mul_le_mul_of_nonneg_right hnear hpos.le
        rw [sub_mul, ← hE] at this
        linarith
      exact ⟨hlt.le, fun he => absurd he hlt.ne⟩
    case trunc => exact ⟨by rw [hXq]; exact mul_le_mul_of_nonneg_right h.1 hpos.le, fun _ => by linarith⟩
    case away => exact ⟨by rw [hXq]; exact mul_le_mul_of_nonneg_right h.1 hpos.le, fun hx => by linarith⟩

end Sys2Proof.Machine
end

section
/-! Proof of O8, third part: the codes of the numbers of a format, and the one rounding. -/

namespace Sys2Proof.Machine

/-! ## Codes -/

/-- R27, R34: the magnitude that a code of exponent and fraction stands for. -/
noncomputable def codeMag (F : FFmt) (c : ℕ) : ℝ :=
  if c / 2 ^ F.fb = 0 then (c % 2 ^ F.fb : ℕ) * 2 ^ (1 - (F.bias : ℤ) - F.fb)
  else (c % 2 ^ F.fb + 2 ^ F.fb : ℕ) * 2 ^ ((c / 2 ^ F.fb : ℕ) - (F.bias : ℤ) - F.fb)

/-- A multiple n of the unit of the d-th binade stands under the code d × 2^fb + n, also where it is the first of the next one. -/
theorem codeMag_add {F : FFmt} {d n : ℕ} (hd : d = 0 ∨ 2 ^ F.fb ≤ n) (hn : n ≤ 2 ^ (F.fb + 1)) :
    codeMag F (d * 2 ^ F.fb + n) = n * 2 ^ ((d : ℤ) + 1 - F.bias - F.fb) := by
  have hB : 0 < 2 ^ F.fb := by positivity
  rw [pow_succ] at hn
  unfold codeMag
  rw [Nat.mul_add_mod', Nat.add_comm, Nat.add_mul_div_right _ _ hB]
  rcases Nat.lt_or_ge n (2 ^ F.fb) with h | h
  · obtain rfl : d = 0 := hd.resolve_right (by omega)
    rw [Nat.div_eq_of_lt h, Nat.mod_eq_of_lt h, if_pos (by rfl)]
    congr 2
  · obtain ⟨r, rfl⟩ := Nat.exists_eq_add_of_le h
    rw [if_neg (by rw [Nat.add_div_left _ hB]; simp), Nat.add_div_left _ hB, Nat.add_mod_left]
    rcases Nat.lt_or_ge r (2 ^ F.fb) with hr | hr
    · rw [Nat.div_eq_of_lt hr, Nat.mod_eq_of_lt hr, Nat.add_comm r]
      congr 2
      push_cast
      ring
    · obtain rfl : r = 2 ^ F.fb := by omega
      rw [Nat.div_self hB, Nat.mod_self, zero_add, show ((Nat.succ 1 + d : ℕ) : ℤ) - F.bias - F.fb = d + 1 - F.bias - F.fb + 1 by
        push_cast; ring, zpow_add_one₀ two_ne_zero]
      push_cast
      ring

/-- The codes from T × 2^fb on are those of the magnitudes from 2^(T − bias) on. -/
theorem le_code_iff {F : FFmt} {d n T : ℕ} (hT : 2 ≤ T) (hd : d = 0 ∨ 2 ^ F.fb ≤ n) (hn : n ≤ 2 ^ (F.fb + 1)) :
    T * 2 ^ F.fb ≤ d * 2 ^ F.fb + n ↔ (2 : ℝ) ^ ((T : ℤ) - F.bias) ≤ n * 2 ^ ((d : ℤ) + 1 - F.bias - F.fb) := by
  have hB : 0 < 2 ^ F.fb := by positivity
  have hpos : (0 : ℝ) < 2 ^ ((d : ℤ) + 1 - F.bias - F.fb) := by positivity
  have hscale : ∀ k : ℕ, (2 : ℝ) ^ ((d : ℤ) + 1 + k - F.bias) = (2 ^ (F.fb + k) : ℕ) * 2 ^ ((d : ℤ) + 1 - F.bias - F.fb) := fun k => by
    push_cast
    rw [← zpow_natCast, ← zpow_add₀ two_ne_zero]
    congr 1
    push_cast
    ring
  rw [pow_succ] at hn
  rcases Nat.lt_trichotomy T (d + 2) with h | rfl | h
  · have hn' : 2 ^ F.fb ≤ n := hd.resolve_left (by omega)
    refine iff_of_true ?_ ?_
    · calc T * 2 ^ F.fb ≤ (d + 1) * 2 ^ F.fb := Nat.mul_le_mul_right _ (by omega)
        _ ≤ d * 2 ^ F.fb + n := by rw [Nat.add_mul]; omega
    · calc (2 : ℝ) ^ ((T : ℤ) - F.bias) ≤ 2 ^ ((d : ℤ) + 1 + (0 : ℕ) - F.bias) := zpow_le_zpow_right₀ one_le_two (by omega)
        _ = (2 ^ F.fb : ℕ) * 2 ^ ((d : ℤ) + 1 - F.bias - F.fb) := hscale 0
        _ ≤ n * 2 ^ ((d : ℤ) + 1 - F.bias - F.fb) := mul_le_mul_of_nonneg_right (by exact_mod_cast hn') hpos.le
  · rw [show ((d + 2 : ℕ) : ℤ) - F.bias = d + 1 + (1 : ℕ) - F.bias by push_cast; ring, hscale 1, mul_le_mul_iff_left₀ hpos,
      Nat.cast_le, pow_succ, Nat.add_mul]
    omega
  · have h2 : T * 2 ^ F.fb ≥ (d + 3) * 2 ^ F.fb := Nat.mul_le_mul_right _ h
    refine iff_of_false ?_ (not_le.mpr ?_)
    · rw [Nat.add_mul] at h2
      omega
    · calc n * (2 : ℝ) ^ ((d : ℤ) + 1 - F.bias - F.fb) ≤ (2 ^ (F.fb + 1) : ℕ) * 2 ^ ((d : ℤ) + 1 - F.bias - F.fb) :=
          mul_le_mul_of_nonneg_right (by rw [pow_succ]; exact_mod_cast hn) hpos.le
        _ = 2 ^ ((d : ℤ) + 1 + (1 : ℕ) - F.bias) := (hscale 1).symm
        _ < 2 ^ ((T : ℤ) - F.bias) := zpow_lt_zpow_right₀ one_lt_two (by push_cast; omega)

/-! ## The rounding of the device -/

/-- R30: the exponent of the unit to which ±m × 2^e is rounded. -/
def rndExp (F : FFmt) (m : ℕ) (e : ℤ) : ℤ := (if finExpo m e < 1 - F.bias then 1 - (F.bias : ℤ) else finExpo m e) - F.fb

/-- R30: the code, without its sign, of the rounded value. -/
def rndCode (F : FFmt) (rm : Rm) (neg : Bool) (m : ℕ) (e : ℤ) : ℕ :=
  (rndExp F m e - (1 - F.bias - F.fb)).toNat * 2 ^ F.fb + (rndAt rm neg m e (rndExp F m e)).1

/-- R32: the value is tiny: the rounding with an unbounded exponent does not reach the least normal number. -/
def rndTiny (F : FFmt) (rm : Rm) (neg : Bool) (m : ℕ) (e : ℤ) : Bool :=
  decide (finExpo m e < 1 - F.bias) &&
    decide ((rndAt rm neg m e (finExpo m e - F.fb)).1 < 2 ^ (1 - F.bias - (finExpo m e - F.fb)).toNat)

/-- R32: the flags of a rounding that does not overflow. -/
def rndFlags (F : FFmt) (rm : Rm) (neg : Bool) (m : ℕ) (e : ℤ) : Flags :=
  let inex := (rndAt rm neg m e (rndExp F m e)).2
  (if inex then fNX else 0) ||| (if inex && rndTiny F rm neg m e then fUF else 0)

theorem fRnd_of_lt {F : FFmt} {rm : Rm} {neg : Bool} {m : ℕ} {e : ℤ} (h : rndCode F rm neg m e < (2 ^ F.eb - 1) * 2 ^ F.fb) :
    fRnd F rm neg m e = (fSign F neg (rndCode F rm neg m e), rndFlags F rm neg m e) := by
  unfold fRnd
  exact if_neg (Nat.not_le.mpr h)

/-- R31: the result of an overflow, by the mode and the sign. -/
theorem fRnd_of_le {F : FFmt} {rm : Rm} {neg : Bool} {m : ℕ} {e : ℤ} (h : (2 ^ F.eb - 1) * 2 ^ F.fb ≤ rndCode F rm neg m e) :
    fRnd F rm neg m e = (match magMode rm neg with
      | .trunc => fSign F neg ((2 ^ F.eb - 1) * 2 ^ F.fb - 1)
      | _ => fInf F neg, fOF ||| fNX) := by
  unfold fRnd
  refine (if_pos h).trans ?_
  cases rm <;> cases neg <;> rfl

section
variable {F : FFmt} {m : ℕ} (rm : Rm) (neg : Bool) (e : ℤ)

theorem rndExp_eq (F : FFmt) (m : ℕ) (e : ℤ) : rndExp F m e = max (finExpo m e) (1 - F.bias) - F.fb := by
  rw [rndExp, max_def]
  split_ifs <;> omega

/-- R30: the multiple of the unit is the magnitude rounded by the mode. -/
theorem rndAt_intRounds (m : ℕ) (q : ℤ) : IntRounds (magMode rm neg) (m * 2 ^ e / 2 ^ q) (rndAt rm neg m e q).1 := by
  rw [mul_div_assoc, ← zpow_sub₀ two_ne_zero]
  exact (rndAt_spec rm neg m e q).1

theorem rndAt_inexact_iff (m : ℕ) (q : ℤ) : (rndAt rm neg m e q).2 = true ↔ ((rndAt rm neg m e q).1 : ℝ) * 2 ^ q ≠ m * 2 ^ e := by
  have hpos : (0 : ℝ) < 2 ^ q := by positivity
  rw [(rndAt_spec rm neg m e q).2, zpow_sub₀ two_ne_zero, ← mul_div_assoc, ne_eq, ne_eq, div_eq_iff hpos.ne', eq_comm]

/-- The magnitude that the rounding gives. -/
noncomputable def rndMag (F : FFmt) (rm : Rm) (neg : Bool) (m : ℕ) (e : ℤ) : ℝ :=
  (rndAt rm neg m e (rndExp F m e)).1 * 2 ^ rndExp F m e

variable (hm : m ≠ 0)
include hm

theorem rndAt_bounds (F : FFmt) : (rndExp F m e - (1 - F.bias - F.fb) = 0 ∨ 2 ^ F.fb ≤ (rndAt rm neg m e (rndExp F m e)).1) ∧
    (rndAt rm neg m e (rndExp F m e)).1 ≤ 2 ^ (F.fb + 1) := by
  obtain ⟨hlo, hhi⟩ := finExpo_spec hm e
  have hr := rndAt_intRounds rm neg e m (rndExp F m e)
  have hq := rndExp_eq F m e
  generalize rndExp F m e = q at *
  have hpos : (0 : ℝ) < 2 ^ q := by positivity
  constructor
  · by_cases hE : finExpo m e ≤ 1 - F.bias
    · left; omega
    · right
      refine hr.natCast_le ?_
      rw [le_div_iff₀ hpos]
      refine le_trans (le_of_eq ?_) hlo
      push_cast
      rw [← zpow_natCast, ← zpow_add₀ two_ne_zero]
      congr 1
      omega
  · refine hr.le_natCast ?_
    rw [div_le_iff₀ hpos]
    refine hhi.le.trans ?_
    push_cast
    rw [← zpow_natCast, ← zpow_add₀ two_ne_zero]
    exact zpow_le_zpow_right₀ one_le_two (by push_cast; omega)

omit hm in
theorem rndExp_toNat (F : FFmt) : ((rndExp F m e - (1 - F.bias - F.fb)).toNat : ℤ) + 1 - F.bias - F.fb = rndExp F m e := by
  have := rndExp_eq F m e
  omega

theorem rndAt_bounds' (F : FFmt) :
    ((rndExp F m e - (1 - F.bias - F.fb)).toNat = 0 ∨ 2 ^ F.fb ≤ (rndAt rm neg m e (rndExp F m e)).1) ∧
      (rndAt rm neg m e (rndExp F m e)).1 ≤ 2 ^ (F.fb + 1) := by
  obtain ⟨h, h'⟩ := rndAt_bounds rm neg e hm F
  exact ⟨h.imp_left (fun h => by rw [h]; rfl), h'⟩

theorem codeMag_rndCode (F : FFmt) : codeMag F (rndCode F rm neg m e) = rndMag F rm neg m e := by
  obtain ⟨hd, hn⟩ := rndAt_bounds' rm neg e hm F
  rw [rndCode, codeMag_add hd hn, rndExp_toNat e, rndMag]

theorem le_rndCode_iff_le_rndMag (F : FFmt) {T : ℕ} (hT : 2 ≤ T) :
    T * 2 ^ F.fb ≤ rndCode F rm neg m e ↔ (2 : ℝ) ^ ((T : ℤ) - F.bias) ≤ rndMag F rm neg m e := by
  obtain ⟨hd, hn⟩ := rndAt_bounds' rm neg e hm F
  rw [rndCode, le_code_iff hT hd hn, rndExp_toNat e, rndMag]

/-- R31, R35: the codes from T × 2^fb on are given to what is rounded to 2^(T − bias) or more. -/
theorem le_rndCode_iff (F : FFmt) {T : ℕ} (hT : 2 ≤ T) :
    T * 2 ^ F.fb ≤ rndCode F rm neg m e ↔ RoundsTo (magMode rm neg) F.fb (T - F.bias) (m * 2 ^ e) := by
  have hX := finExpo_spec hm e
  have hr := rndAt_intRounds rm neg e m (rndExp F m e)
  have hq := rndExp_eq F m e
  rw [le_rndCode_iff_le_rndMag rm neg e hm F hT, rndMag]
  generalize rndExp F m e = q at *
  generalize (rndAt rm neg m e q).1 = n at *
  by_cases hE : 1 - F.bias ≤ finExpo m e
  · obtain rfl : q = finExpo m e - F.fb := by omega
    exact two_zpow_le_iff_roundsTo hX hr
  · have hpos : (0 : ℝ) < 2 ^ q := by positivity
    have hlt : (m : ℝ) * 2 ^ e < 2 ^ (1 - (F.bias : ℤ)) := hX.2.trans_le (zpow_le_zpow_right₀ one_le_two (by omega))
    have hq1 : (2 : ℝ) ^ (1 - (F.bias : ℤ)) = (2 ^ F.fb : ℕ) * 2 ^ q := by
      push_cast
      rw [← zpow_natCast, ← zpow_add₀ two_ne_zero]
      congr 1
      omega
    have hn1 : n ≤ 2 ^ F.fb := hr.le_natCast (by rw [div_le_iff₀ hpos, ← hq1]; exact hlt.le)
    refine iff_of_false (not_le.mpr ?_) (not_roundsTo_of_lt (hlt.trans_le (zpow_le_zpow_right₀ one_le_two (by omega))))
    calc n * (2 : ℝ) ^ q ≤ (2 ^ F.fb : ℕ) * 2 ^ q := mul_le_mul_of_nonneg_right (by exact_mod_cast hn1) hpos.le
      _ = 2 ^ (1 - (F.bias : ℤ)) := hq1.symm
      _ < 2 ^ ((T : ℤ) - F.bias) := zpow_lt_zpow_right₀ one_lt_two (by omega)

theorem rndTiny_iff (F : FFmt) :
    rndTiny F rm neg m e = true ↔ ¬RoundsTo (magMode rm neg) F.fb (1 - F.bias) (m * 2 ^ e) := by
  have hX := finExpo_spec hm e
  by_cases hE : finExpo m e < 1 - F.bias
  · have hr := rndAt_intRounds rm neg e m (finExpo m e - F.fb)
    have hpos : (0 : ℝ) < 2 ^ (finExpo m e - F.fb) := by positivity
    have hk : (2 : ℝ) ^ (1 - (F.bias : ℤ)) = (2 ^ (1 - F.bias - (finExpo m e - F.fb)).toNat : ℕ) * 2 ^ (finExpo m e - F.fb) := by
      push_cast
      rw [← zpow_natCast, ← zpow_add₀ two_ne_zero]
      congr 1
      omega
    rw [rndTiny, decide_eq_true hE, Bool.true_and, decide_eq_true_eq, ← two_zpow_le_iff_roundsTo hX hr, hk, mul_le_mul_iff_left₀ hpos,
      Nat.cast_le, not_le]
  · have hle : (2 : ℝ) ^ (1 - (F.bias : ℤ)) ≤ m * 2 ^ e := (zpow_le_zpow_right₀ one_le_two (by omega)).trans hX.1
    rw [rndTiny, decide_eq_false hE, Bool.false_and, Bool.false_eq_true, false_iff, not_not]
    exact roundsTo_of_le hle

/-- R32: the flags tell whether the value changes, and whether it is tiny. -/
theorem rndFlags_eq (F : FFmt) : rndFlags F rm neg m e = roundFlags F rm (signed neg (m * 2 ^ e)) (signed neg (rndMag F rm neg m e)) := by
  have hX : (0 : ℝ) < m * 2 ^ e := by positivity
  have hsame : signed neg (rndMag F rm neg m e) = signed neg (m * 2 ^ e) ↔ rndMag F rm neg m e = m * 2 ^ e := by
    cases neg <;> simp [signed]
  have hinex := rndAt_inexact_iff rm neg e m (rndExp F m e)
  have htiny : RoundsTiny F rm (signed neg (m * 2 ^ e)) ↔ rndTiny F rm neg m e = true := by
    rw [roundsTiny_iff, decide_signed_neg hX, abs_signed hX.le, rndTiny_iff rm neg e hm]
  rw [← rndMag] at hinex
  simp only [rndFlags, roundFlags, hsame, htiny]
  cases hi : (rndAt rm neg m e (rndExp F m e)).2
  · have : rndMag F rm neg m e = m * 2 ^ e := by
      by_contra hne
      rw [hinex.mpr hne] at hi
      cases hi
    simp [this]
  · cases rndTiny F rm neg m e <;> simp [hinex.mp hi]

/-- R30: what the rounding gives lies nearest, by the mode, among the numbers of the format. -/
theorem rndMag_nearest (F : FFmt) (hfb : F.fb ≠ 0) :
    NearestMag (OnGrid F) (magMode rm neg) (m * 2 ^ e) (rndMag F rm neg m e) ((rndCode F rm neg m e).testBit 0) := by
  refine nearestMag_grid (finExpo_spec hm e).1 (rndExp_eq F m e) (rndAt_intRounds rm neg e m _) fun heven => ?_
  have hB : Even (2 ^ F.fb) := even_two.pow_of_ne_zero hfb
  have hcode : Even (rndCode F rm neg m e) := (hB.mul_left _).add heven
  rw [Nat.testBit_zero, Nat.even_iff.mp hcode]
  rfl

end

/-! ## The formats -/

theorem NearestIn.mono {S T : ℝ → Prop} {rm : Rm} {x v : ℝ} {odd : Bool} (hST : ∀ z, S z → T z) (h : NearestIn T rm x v odd) :
    NearestIn S rm x v odd := fun z hz => h z (hST z hz)

theorem onGrid_abs {F : FFmt} {z : ℝ} (h : OnGrid F z) : OnGrid F |z| := by
  obtain ⟨M, e, hM, he, hz⟩ := h
  exact ⟨M, e, hM, he, by rw [abs_abs, hz]⟩

theorem q_fin (n : Bool) (m : ℕ) (e : ℤ) : (((FVal.fin n m e).q : ℚ) : ℝ) = signed n (m * 2 ^ e) := by
  cases n <;> simp [FVal.q, signed]

/-- R27: the fields of a code with its sign. -/
theorem fields_of_code {F : FFmt} {c : ℕ} (neg : Bool) (hc : c < 2 ^ (F.eb + F.fb)) :
    let n := c + if neg then 2 ^ (F.eb + F.fb) else 0
    n < 2 ^ F.bits ∧ decide (2 ^ (F.eb + F.fb) ≤ n) = neg ∧ n / 2 ^ F.fb % 2 ^ F.eb = c / 2 ^ F.fb ∧ n % 2 ^ F.fb = c % 2 ^ F.fb := by
  have hB : 0 < 2 ^ F.fb := by positivity
  have hdiv : c / 2 ^ F.fb < 2 ^ F.eb := Nat.div_lt_of_lt_mul (by rwa [← pow_add, add_comm])
  have hbits : 2 ^ F.bits = 2 ^ (F.eb + F.fb) + 2 ^ (F.eb + F.fb) := by rw [FFmt.bits, add_assoc, pow_add]; ring
  cases neg
  · simp only [Bool.false_eq_true, if_false, add_zero, decide_eq_false_iff_not, not_le, Nat.mod_eq_of_lt hdiv, and_true]
    omega
  · simp only [if_true, decide_eq_true_eq, le_add_iff_nonneg_left, zero_le, true_and]
    refine ⟨by omega, ?_, ?_⟩
    · rw [pow_add, Nat.add_mul_div_right _ _ hB, Nat.add_mod_right, Nat.mod_eq_of_lt hdiv]
    · rw [pow_add, Nat.add_mul_mod_self_right]

/-- R27, R34: the finite value of these exponent and fraction fields. -/
def finOf (F : FFmt) (neg : Bool) (E f : ℕ) : FVal :=
  if E = 0 then .fin neg f (1 - (F.bias : ℤ) - F.fb) else .fin neg (f + 2 ^ F.fb) ((E : ℤ) - F.bias - F.fb)

/-- The magnitude that exponent and fraction stand for is the code's. -/
theorem finOf_code (F : FFmt) (neg : Bool) (c : ℕ) : ∃ m e, finOf F neg (c / 2 ^ F.fb) (c % 2 ^ F.fb) = .fin neg m e ∧
    (((FVal.fin neg m e).q : ℚ) : ℝ) = signed neg (codeMag F c) ∧ (m = 0 → c = 0) := by
  unfold finOf codeMag
  split_ifs with hE
  · refine ⟨_, _, rfl, q_fin .., fun hf => ?_⟩
    rw [← Nat.div_add_mod c (2 ^ F.fb), hE, hf, mul_zero]
  · exact ⟨_, _, rfl, q_fin .., fun hf => absurd hf (by positivity)⟩

theorem onGrid_finOf {F : FFmt} {n neg : Bool} {E f m : ℕ} {e : ℤ} (hf : f < 2 ^ F.fb) (h : finOf F neg E f = .fin n m e) :
    OnGrid F (((FVal.fin n m e).q : ℚ) : ℝ) := by
  rw [q_fin]
  refine ⟨m, e, ?_, ?_, abs_signed (by positivity)⟩ <;> unfold finOf at h
  · rw [pow_succ]
    split_ifs at h <;> cases h <;> omega
  · split_ifs at h <;> cases h <;> omega

/-- R27: a code below that of the infinities decodes to what it stands for. -/
theorem fDec_fSign {F : FFmt} {neg : Bool} {c : ℕ} (hbits : F.bits ≤ 64) (hc : c < (2 ^ F.eb - 1) * 2 ^ F.fb) :
    (fSign F neg c).toNat = (c + if neg then 2 ^ (F.eb + F.fb) else 0) ∧ (fSign F neg c).toNat < 2 ^ F.bits ∧
      ∃ m e, fDec F (fSign F neg c) = .fin neg m e ∧ (((FVal.fin neg m e).q : ℚ) : ℝ) = signed neg (codeMag F c) := by
  have hE : c / 2 ^ F.fb < 2 ^ F.eb - 1 := Nat.div_lt_of_lt_mul (by rwa [mul_comm])
  have hc' : c < 2 ^ (F.eb + F.fb) := hc.trans_le (by rw [pow_add]; exact Nat.mul_le_mul_right _ (Nat.sub_le ..))
  obtain ⟨hlt, hneg, hexp, hfrac⟩ := fields_of_code neg hc'
  have h64 : 2 ^ F.bits ≤ 2 ^ 64 := Nat.pow_le_pow_right two_pos hbits
  have hn : (fSign F neg c).toNat = c + if neg then 2 ^ (F.eb + F.fb) else 0 := by
    rw [fSign, BitVec.toNat_ofNat, Nat.mod_eq_of_lt (hlt.trans_le h64)]
  refine ⟨hn, hn ▸ hlt, ?_⟩
  rw [fDec, low, hn, Nat.mod_eq_of_lt hlt]
  simp only [hneg, hexp, hfrac, if_neg hE.ne]
  obtain ⟨m, e, hfin, hq, -⟩ := finOf_code F neg c
  exact ⟨m, e, hfin, hq⟩

/-- R27: the finite numbers of a format lie on its grid. -/
theorem onGrid_fDec {F : FFmt} {w : Dword} {n : Bool} {m : ℕ} {e : ℤ} (h : fDec F w = .fin n m e) :
    OnGrid F (((FVal.fin n m e).q : ℚ) : ℝ) := by
  unfold fDec at h
  dsimp only at h
  rw [ite_eq_iff] at h
  rcases h with ⟨-, h⟩ | ⟨-, h⟩
  · split_ifs at h
  · exact onGrid_finOf (Nat.mod_lt _ (by positivity)) h

/-- R30 to R32: the rounding is correct in every format whose infinities have the exponent above that of the largest numbers. -/
theorem fRnd_correctlyRounded {F : FFmt} (hfb : F.fb ≠ 0) (hbits : F.bits ≤ 64) (hbias : 2 ^ F.eb - 1 = F.bias + 1 + F.bias) (hpos : 0 < F.bias)
    (rm : Rm) (neg : Bool) {m : ℕ} (hm : m ≠ 0) (e : ℤ) : CorrectlyRounded F rm (((FVal.fin neg m e).q : ℚ) : ℝ) (fRnd F rm neg m e) := by
  have hX : (0 : ℝ) < m * 2 ^ e := by positivity
  have hover : RoundsOver F F.bias rm (signed neg (m * 2 ^ e)) ↔ (2 ^ F.eb - 1) * 2 ^ F.fb ≤ rndCode F rm neg m e := by
    rw [roundsOver_iff, decide_signed_neg hX, abs_signed hX.le, le_rndCode_iff rm neg e hm F (by omega), hbias]
    congr! 1
    push_cast
    ring
  have hlsb : ∀ c : ℕ, (c + if neg then 2 ^ (F.eb + F.fb) else 0).testBit 0 = c.testBit 0 := by
    intro c
    have heven : 2 ^ (F.eb + F.fb) % 2 = 0 := Nat.even_iff.mp (even_two.pow_of_ne_zero (by omega))
    rw [Nat.testBit_zero, Nat.testBit_zero]
    congr 2
    cases neg
    · rfl
    · simp only [if_true]; omega
  rw [q_fin]
  refine ⟨fun h => ?_, fun h => ?_⟩
  · rw [fRnd_of_le (hover.mp h)]
    simp only [signed_neg_iff hX]
    cases rm <;> cases neg <;> rfl
  · have hlt := Nat.not_le.mp (mt hover.mpr h)
    obtain ⟨hn, hbound, m', e', hdec, hq⟩ := fDec_fSign (neg := neg) hbits hlt
    rw [fRnd_of_lt hlt, decide_signed_neg hX]
    refine ⟨hbound, m', e', hdec, ?_, ?_⟩
    · rw [hq, codeMag_rndCode rm neg e hm]
      exact rndFlags_eq rm neg e hm F
    · rw [hq, codeMag_rndCode rm neg e hm, BitVec.getLsbD, hn, hlsb]
      refine NearestIn.mono ?_ ((rndMag_nearest rm neg e hm F hfb).nearestIn hX (by rw [rndMag]; positivity) fun _ h => onGrid_abs h)
      rintro z ⟨w, n', m', e', hw, rfl⟩
      exact onGrid_fDec hw

/-- R26: the formats of the floating types. -/
theorem tyF_format {t : Ty} (h : tyFloat t = true) : (tyF t).fb ≠ 0 ∧ (tyF t).bits ≤ 64 ∧
    2 ^ (tyF t).eb - 1 = (tyF t).bias + 1 + (tyF t).bias ∧ 0 < (tyF t).bias := by
  revert h
  cases t <;> decide

/-- Settles O8: the formats of the floating types keep the exponent above that of their largest numbers for the infinities. -/
theorem roundingIsCorrect : Obligations.RoundingIsCorrect := by
  intro t rm n m e ht hm
  obtain ⟨hfb, hbits, hbias, hpos⟩ := tyF_format ht
  exact fRnd_correctlyRounded hfb hbits hbias hpos rm n hm e

end Sys2Proof.Machine
end

section
/-! Proof of O13, first part: roundings into the 8-bit formats and to integers, and roundings that change nothing. -/

namespace Sys2Proof.Machine

/-! ## Roundings that change nothing -/

theorem rndMag_exact {F : FFmt} {m : ℕ} {e : ℤ} (rm : Rm) (neg : Bool) (h : rndExp F m e ≤ e) : rndMag F rm neg m e = m * 2 ^ e := by
  rw [rndMag, rndAt_fine rm neg m h]
  obtain ⟨s, hs⟩ := Int.eq_ofNat_of_zero_le (show 0 ≤ e - rndExp F m e by omega)
  rw [hs, Int.toNat_natCast, Nat.cast_mul, mul_assoc, Nat.cast_pow, Nat.cast_ofNat, ← zpow_natCast, ← zpow_add₀ two_ne_zero,
    show (s : ℤ) + rndExp F m e = e by omega]

/-- R27, R30: a number of the format is rounded to itself, and no flag is set. -/
theorem fRnd_exact {F : FFmt} (hbits : F.bits ≤ 64) (hbias : 2 ^ F.eb - 1 = F.bias + 1 + F.bias) (hpos : 0 < F.bias) (rm : Rm) (neg : Bool)
    {m : ℕ} (hm : m ≠ 0) {e : ℤ} (hexp : rndExp F m e ≤ e) (hlt : finExpo m e ≤ F.bias) :
    (∃ m' e', fDec F (fRnd F rm neg m e).1 = .fin neg m' e' ∧ (FVal.fin neg m' e').q = (FVal.fin neg m e).q) ∧ (fRnd F rm neg m e).2 = 0 := by
  have hmag := rndMag_exact rm neg hexp
  have hcode : rndCode F rm neg m e < (2 ^ F.eb - 1) * 2 ^ F.fb := by
    rw [← not_le, le_rndCode_iff_le_rndMag rm neg e hm F (by omega), hmag, not_le, hbias]
    exact (finExpo_spec hm e).2.trans_le (zpow_le_zpow_right₀ one_le_two (by push_cast; omega))
  obtain ⟨-, -, m', e', hdec, hq⟩ := fDec_fSign (neg := neg) hbits hcode
  rw [fRnd_of_lt hcode]
  refine ⟨⟨m', e', hdec, ?_⟩, ?_⟩
  · rw [codeMag_rndCode rm neg e hm, hmag, ← q_fin] at hq
    exact_mod_cast hq
  · rw [rndFlags_eq rm neg e hm F, hmag, roundFlags, if_pos rfl]

/-! ## The 8-bit formats -/

theorem fRnd8_of_lt {F : FFmt} {rm : Rm} {sat neg : Bool} {m : ℕ} {e : ℤ} (h : rndCode F rm neg m e < 0x80) :
    fRnd8 F rm sat neg m e = (BitVec.ofNat 64 (if rndCode F rm neg m e = 0 then 0 else rndCode F rm neg m e + if neg then 0x80 else 0),
      rndFlags F rm neg m e) := by
  unfold fRnd8
  exact if_neg (Nat.not_le.mpr h)

theorem fRnd8_of_le {F : FFmt} {rm : Rm} {sat neg : Bool} {m : ℕ} {e : ℤ} (h : 0x80 ≤ rndCode F rm neg m e) :
    fRnd8 F rm sat neg m e =
      if sat then (BitVec.ofNat 64 (0x7F + if neg then 0x80 else 0), fOF ||| fNX) else (0x80, fIV ||| fNX) := by
  unfold fRnd8
  exact if_pos h

/-- R34: below the NaN, a code with its sign decodes to what it stands for, and there is one zero. -/
theorem fDec8_code {F : FFmt} {neg : Bool} {c : ℕ} (h7 : F.eb + F.fb = 7) (hc : c < 0x80) :
    let r : Dword := BitVec.ofNat 64 (if c = 0 then 0 else c + if neg then 0x80 else 0)
    r.toNat < 2 ^ 8 ∧ r.getLsbD 0 = c.testBit 0 ∧ ∃ n m e, fDec8 F r = .fin n m e ∧ (if m = 0 then r = 0 else n = neg) ∧
      (((FVal.fin n m e).q : ℚ) : ℝ) = signed neg (codeMag F c) := by
  dsimp only
  have hzero : codeMag F 0 = 0 := by simp [codeMag]
  by_cases hc0 : c = 0
  · subst hc0
    have hsigned : ∀ neg, signed neg 0 = 0 := fun neg => by cases neg <;> simp [signed]
    have hdec : fDec8 F 0 = .fin false 0 (1 - (F.bias : ℤ) - F.fb) := by simp [fDec8, low]
    rw [if_pos rfl]
    exact ⟨by decide, rfl, false, 0, _, hdec, rfl, by rw [q_fin, hzero, Nat.cast_zero, zero_mul, hsigned, hsigned]⟩
  · have h128 : 2 ^ (F.eb + F.fb) = 0x80 := by rw [h7]; rfl
    obtain ⟨hlt, hneg, hexp, hfrac⟩ := fields_of_code (F := F) neg (h128 ▸ hc)
    obtain ⟨m, e, hfin, hq, hm⟩ := finOf_code F neg c
    rw [h128] at hlt hneg hexp hfrac
    have hbits : 2 ^ F.bits = 2 ^ 8 := by rw [FFmt.bits, add_assoc, h7]
    have hn : (BitVec.ofNat 64 (c + if neg then 0x80 else 0)).toNat = c + if neg then 0x80 else 0 := by
      rw [BitVec.toNat_ofNat]; omega
    rw [if_neg hc0]
    refine ⟨by omega, ?_, neg, m, e, ?_, if_neg (mt hm hc0) ▸ rfl, hq⟩
    · rw [BitVec.getLsbD, hn, Nat.testBit_zero, Nat.testBit_zero]
      congr 2
      cases neg
      · rfl
      · simp only [if_true]; omega
    · have hne : (c + if neg then 0x80 else 0) ≠ 0x80 := by cases neg <;> simp only [if_true, if_false, Bool.false_eq_true] <;> omega
      rw [fDec8, low, hn, Nat.mod_eq_of_lt (by omega), if_neg hne]
      simp only [hneg, hexp, hfrac]
      exact hfin

/-- R34: the finite numbers of an 8-bit format lie on its grid. -/
theorem onGrid_fDec8 {F : FFmt} {w : Dword} {n : Bool} {m : ℕ} {e : ℤ} (h : fDec8 F w = .fin n m e) :
    OnGrid F (((FVal.fin n m e).q : ℚ) : ℝ) := by
  unfold fDec8 at h
  dsimp only at h
  rw [ite_eq_iff] at h
  rcases h with ⟨-, h⟩ | ⟨-, h⟩
  · cases h
  · exact onGrid_finOf (Nat.mod_lt _ (by positivity)) h

/-- R35: the rounding into an 8-bit format is correct. -/
theorem fRnd8_correctlyRounded {F : FFmt} (hfb : F.fb ≠ 0) (h7 : F.eb + F.fb = 7) (hbias : 2 ^ F.eb = F.bias + F.bias) (hpos : 0 < F.bias)
    (rm : Rm) (sat neg : Bool) {m : ℕ} (hm : m ≠ 0) (e : ℤ) :
    CorrectlyRounded8 F rm sat (((FVal.fin neg m e).q : ℚ) : ℝ) (fRnd8 F rm sat neg m e) := by
  have hX : (0 : ℝ) < m * 2 ^ e := by positivity
  have hover : RoundsOver F (F.bias - 1) rm (signed neg (m * 2 ^ e)) ↔ 0x80 ≤ rndCode F rm neg m e := by
    rw [roundsOver_iff, decide_signed_neg hX, abs_signed hX.le, show 0x80 = 2 ^ F.eb * 2 ^ F.fb by rw [← pow_add, h7]; rfl,
      le_rndCode_iff rm neg e hm F (by omega), hbias]
    congr! 1
    push_cast
    ring
  rw [q_fin]
  refine ⟨fun h => ?_, fun h => ?_⟩
  · rw [fRnd8_of_le (hover.mp h)]
    simp only [signed_neg_iff hX]
    cases sat <;> cases neg <;> rfl
  · have hlt := Nat.not_le.mp (mt hover.mpr h)
    obtain ⟨hbound, hlsb, n', m', e', hdec, hz, hq⟩ := fDec8_code (neg := neg) h7 hlt
    rw [fRnd8_of_lt hlt, decide_signed_neg hX]
    refine ⟨hbound, n', m', e', hdec, hz, ?_, ?_⟩
    · rw [hq, codeMag_rndCode rm neg e hm]
      exact rndFlags_eq rm neg e hm F
    · rw [hq, codeMag_rndCode rm neg e hm, hlsb]
      refine NearestIn.mono ?_ ((rndMag_nearest rm neg e hm F hfb).nearestIn hX (by rw [rndMag]; positivity) fun _ h => onGrid_abs h)
      rintro z ⟨w, n', m', e', hw, rfl⟩
      exact onGrid_fDec8 hw

/-! ## Integers -/

/-- R129: ±n for a magnitude rounded to n. -/
def signedInt (neg : Bool) (n : ℕ) : ℤ := if neg then -(n : ℤ) else n

/-- R129: the integer to which the mode rounds a. -/
def RoundsToInt (rm : Rm) (a : ℚ) (k : ℤ) : Prop :=
  match rm with
  | .rne => |a - k| ≤ 1 / 2 ∧ (|a - k| = 1 / 2 → k % 2 = 0)
  | .rtz => |(k : ℚ)| ≤ |a| ∧ |a| < |(k : ℚ)| + 1 ∧ 0 ≤ k * a
  | .rdn => k = ⌊a⌋
  | .rup => k = ⌈a⌉

theorem IntRounds.roundsToInt {rm : Rm} {neg : Bool} {m n : ℕ} {e : ℤ} (h : IntRounds (magMode rm neg) (m * 2 ^ e) n) :
    RoundsToInt rm (FVal.fin neg m e).q (signedInt neg n) := by
  have hq : (FVal.fin neg m e).q = if neg then -((m : ℚ) * 2 ^ e) else m * 2 ^ e := by cases neg <;> simp [FVal.q]
  have hy : (m * 2 ^ e : ℝ) = ((m * 2 ^ e : ℚ) : ℝ) := by push_cast; rfl
  have hy0 : (0 : ℚ) ≤ m * 2 ^ e := by positivity
  rw [hy] at h
  rw [hq]
  generalize (m * 2 ^ e : ℚ) = y at *
  have hnear : IntRounds .near y n → |y - n| ≤ 1 / 2 ∧ (|y - n| = 1 / 2 → (n : ℤ) % 2 = 0) := fun h => by
    have hcast : ((|y - n| : ℚ) : ℝ) = |(y : ℝ) - n| := by push_cast; rfl
    have hhalf : (1 / 2 : ℝ) = ((1 / 2 : ℚ) : ℝ) := by norm_num
    rw [IntRounds, ← hcast, hhalf, Rat.cast_le, Rat.cast_inj] at h
    refine ⟨h.1, fun he => ?_⟩
    have := Nat.even_iff.mp (h.2 he)
    omega
  have htrunc : IntRounds .trunc y n → (n : ℚ) ≤ y ∧ y < n + 1 := fun h => ⟨by exact_mod_cast h.1, by exact_mod_cast h.2⟩
  have haway : IntRounds .away y n → y ≤ n ∧ (n : ℚ) < y + 1 := fun h => ⟨by exact_mod_cast h.1, by exact_mod_cast h.2⟩
  cases rm <;> cases neg <;> simp only [magMode, RoundsToInt, signedInt, if_true, if_false, Bool.false_eq_true] at h ⊢ <;> push_cast
  case rne.false => exact hnear h
  case rne.true =>
    rw [show -y - -(n : ℚ) = -(y - n) by ring, abs_neg, Int.neg_emod_two]
    exact hnear h
  case rtz.false =>
    rw [Nat.abs_cast, abs_of_nonneg hy0]
    exact ⟨(htrunc h).1, (htrunc h).2, by positivity⟩
  case rtz.true =>
    rw [abs_neg, Nat.abs_cast, abs_neg, abs_of_nonneg hy0, neg_mul_neg]
    exact ⟨(htrunc h).1, (htrunc h).2, by positivity⟩
  case rdn.false => exact (Int.floor_eq_iff.mpr (htrunc h)).symm
  case rdn.true =>
    obtain ⟨hle, hlt⟩ := haway h
    exact (Int.floor_eq_iff.mpr (by push_cast; constructor <;> linarith)).symm
  case rup.false =>
    obtain ⟨hle, hlt⟩ := haway h
    exact (Int.ceil_eq_iff.mpr (by push_cast; constructor <;> linarith)).symm
  case rup.true =>
    obtain ⟨hle, hlt⟩ := htrunc h
    exact (Int.ceil_eq_iff.mpr (by push_cast; constructor <;> linarith)).symm

end Sys2Proof.Machine
end

section
/-! Proof of O13, second part: conversions and quantising. -/

namespace Sys2Proof.Machine

/-! ## Conversions -/

/-- R30, R33: what a value rounded into a floating format is. -/
def IntoFloat (F : FFmt) (rm : Rm) (a : FVal) (r : Dword × Flags) : Prop :=
  (a.isNan = true → r = (fNaN F, if a.isSnan then fIV else 0)) ∧ (∀ n, a = .inf n → r = (fInf F n, 0)) ∧
    (a.isZero = true → r = (fZero F a.neg?, 0)) ∧ (a.isFin = true → a.q ≠ 0 → Rounded F rm a.q r)

theorem fin_q_ne_zero {n : Bool} {m : ℕ} {e : ℤ} (h : (FVal.fin n m e).q ≠ 0) : m ≠ 0 := by
  rintro rfl
  simp [FVal.q] at h

theorem fOut_intoFloat (F : FFmt) (rm : Rm) (a : FVal) : IntoFloat F rm a (fOut F rm a) := by
  cases a with
  | nan s => exact ⟨fun _ => rfl, nofun, nofun, nofun⟩
  | inf n => exact ⟨nofun, fun _ h => by cases h; rfl, nofun, nofun⟩
  | fin n m e =>
    refine ⟨nofun, nofun, fun h => ?_, fun _ h => ?_⟩
    · exact if_pos (by simpa [FVal.isZero] using h)
    · have hm := fin_q_ne_zero h
      exact ⟨n, m, e, hm, rfl, if_neg hm⟩

/-- R129: what a value rounded to an integer of a type is. -/
def IntoInt (t : Ty) (rm : Rm) (a : FVal) (r : Dword × Flags) : Prop :=
  (a.isNan = true → r = (0, fIV)) ∧
    (∀ n, a = .inf n → r = (tyFit t false (if n then tyMin t else tyMax t), fIV)) ∧
    (a.isFin = true → ∃ k : ℤ, RoundsToInt rm a.q k ∧
      r = (if k < tyMin t then (tyFit t false (tyMin t), fIV) else if tyMax t < k then (tyFit t false (tyMax t), fIV)
        else (tyFit t false k, if (k : ℚ) = a.q then 0 else fNX)))

theorem ty_range (t : Ty) : -2 ^ 63 ≤ tyMin t ∧ tyMin t ≤ 0 ∧ 0 ≤ tyMax t ∧ tyMax t ≤ 2 ^ 64 - 1 := by cases t <;> decide

theorem signedInt_eq_iff {neg : Bool} {n m : ℕ} {e : ℤ} :
    ((signedInt neg n : ℤ) : ℚ) = (FVal.fin neg m e).q ↔ (n : ℝ) * 2 ^ (0 : ℤ) = m * 2 ^ e := by
  have hcast : (((signedInt neg n : ℤ) : ℚ) : ℝ) = signed neg n := by cases neg <;> simp [signedInt, signed]
  rw [← Rat.cast_inj (α := ℝ), hcast, q_fin, zpow_zero, mul_one]
  cases neg <;> simp [signed]

theorem tyWrap_zero (t : Ty) : tyWrap t 0 = 0 := by cases t <;> rfl

/-- R129: of a magnitude of 2^71 or more every type takes its least or greatest value. -/
theorem saturates_of_le {t : Ty} {neg : Bool} {n : ℕ} (h : 2 ^ 71 ≤ n) :
    (if neg then tyMin t else tyMax t) = if signedInt neg n < tyMin t then tyMin t else tyMax t := by
  obtain ⟨hmin, hmin0, hmax0, hmax⟩ := ty_range t
  cases neg
  · rw [if_neg (by simp), if_neg (by simp only [signedInt, Bool.false_eq_true, if_false]; omega)]
  · rw [if_pos rfl, if_pos (by simp only [signedInt, if_true]; omega)]

theorem fToInt_intoInt (t : Ty) (rm : Rm) (a : FVal) : IntoInt t rm a (fToInt t rm a) := by
  obtain ⟨hmin, hmin0, hmax0, hmax⟩ := ty_range t
  cases a with
  | nan s => exact ⟨fun _ => rfl, nofun, nofun⟩
  | inf n => exact ⟨nofun, fun _ h => by cases h; rfl, nofun⟩
  | fin n m e =>
    refine ⟨nofun, nofun, fun _ => ?_⟩
    have hr := rndAt_intRounds rm n e m 0
    have hinex := rndAt_inexact_iff rm n e m 0
    rw [zpow_zero, div_one] at hr
    rw [ne_eq, ← signedInt_eq_iff (neg := n)] at hinex
    refine ⟨signedInt n (rndAt rm n m e 0).1, hr.roundsToInt, ?_⟩
    by_cases hm : m = 0
    · have h0 : (rndAt rm n m e 0).1 = 0 := Nat.le_zero.mp (hr.le_natCast (by simp [hm]))
      have hk : signedInt n 0 = 0 := by cases n <;> rfl
      have hq : (FVal.fin n m e).q = 0 := by simp [FVal.q, hm]
      rw [h0, hk, if_neg (by omega), if_neg (by omega), if_pos (by rw [hq]; rfl), tyFit, if_neg (by simp), tyWrap_zero]
      exact if_pos hm
    · by_cases hbig : 70 < finExpo m e
      · have hn : 2 ^ 71 ≤ (rndAt rm n m e 0).1 := by
          refine hr.natCast_le ((le_of_eq ?_).trans ((zpow_le_zpow_right₀ one_le_two (show (71 : ℤ) ≤ finExpo m e by omega)).trans
            (finExpo_spec hm e).1))
          norm_num
        have hover : ¬signedInt n (rndAt rm n m e 0).1 < tyMin t → tyMax t < signedInt n (rndAt rm n m e 0).1 := by
          cases n <;> simp only [signedInt, if_true, if_false, Bool.false_eq_true] <;> omega
        have hres : fToInt t rm (.fin n m e) = (tyWrap t (if n then tyMin t else tyMax t), fIV) :=
          (if_neg hm).trans (if_pos hbig)
        rw [hres, saturates_of_le hn]
        by_cases hlt : signedInt n (rndAt rm n m e 0).1 < tyMin t
        · rw [if_pos hlt, if_pos hlt]
          rfl
        · rw [if_neg hlt, if_neg hlt, if_pos (hover hlt)]
          rfl
      · refine (if_neg hm).trans ((if_neg hbig).trans ?_)
        simp only [tyFit, Bool.false_eq_true, if_false, ← ite_not (p := ((signedInt n (rndAt rm n m e 0).1 : ℤ) : ℚ) = _), ← hinex]
        rfl

/-- R129: a conversion into a floating format rounds the value of its source. -/
theorem cvtVal_float {t : Ty} (ht : tyFloat t = true) (src : Fmt) (rm : Rm) (sat : Bool) (x : Dword) :
    IntoFloat (tyF t) rm (fmtDec src x) (cvtVal (.ty t) src rm sat x) := by
  rw [show cvtVal (.ty t) src rm sat x = fOut (tyF t) rm (fmtDec src x) from if_pos ht]
  exact fOut_intoFloat ..

theorem cvtVal_toInt {t : Ty} (ht : tyFloat t = false) {src : Fmt} (hs : cvtFloat src = true) (rm : Rm) (sat : Bool) (x : Dword) :
    cvtVal (.ty t) src rm sat x = fToInt t rm (fmtDec src x) := by
  refine (if_neg (by simp [ht])).trans ?_
  cases src with
  | ty u => exact if_pos hs
  | _ => rfl

theorem cvtVal_int {t u : Ty} (ht : tyFloat t = false) (hu : tyFloat u = false) (rm : Rm) (sat : Bool) (x : Dword) :
    cvtVal (.ty t) (.ty u) rm sat x = (tyFit t sat (tyVal u x), 0) :=
  (if_neg (by simp [ht])).trans (if_neg (by simp [hu]))

/-- R35, R129: what a value rounded into an 8-bit format is. -/
def Into8 (F : FFmt) (rm : Rm) (sat : Bool) (a : FVal) (r : Dword × Flags) : Prop :=
  (a.isNan = true → r = (0x80, if a.isSnan then fIV else 0)) ∧
    (∀ n, a = .inf n → r = if sat then (if n then 0xFF else 0x7F, fOF ||| fNX) else (0x80, fIV ||| fNX)) ∧
    (a.isZero = true → r = (0, 0)) ∧ (a.isFin = true → a.q ≠ 0 → CorrectlyRounded8 F rm sat (a.q : ℝ) r)

theorem fOut8_into8 {F : FFmt} (hF : F = f8e4F ∨ F = f8e5F) (rm : Rm) (sat : Bool) (a : FVal) : Into8 F rm sat a (fOut8 F rm sat a) := by
  have hfmt : F.fb ≠ 0 ∧ F.eb + F.fb = 7 ∧ 2 ^ F.eb = F.bias + F.bias ∧ 0 < F.bias := by rcases hF with rfl | rfl <;> decide
  obtain ⟨hfb, h7, hbias, hpos⟩ := hfmt
  cases a with
  | nan s => exact ⟨fun _ => rfl, nofun, nofun, nofun⟩
  | inf n => exact ⟨nofun, fun _ h => by cases h; cases n <;> rfl, nofun, nofun⟩
  | fin n m e =>
    refine ⟨nofun, nofun, fun h => ?_, fun _ h => ?_⟩
    · exact if_pos (by simpa [FVal.isZero] using h)
    · have hm := fin_q_ne_zero h
      rw [show fOut8 F rm sat (.fin n m e) = fRnd8 F rm sat n m e from if_neg hm]
      exact fRnd8_correctlyRounded hfb h7 hbias hpos rm sat n hm e

/-! ## Quantising -/

/-- R36: the level of a code. -/
def level (c : ℕ) : ℤ := q4nLevels.getD c 0

/-- R131: a code is taken before another where its level lies nearer, or as near and it is even. -/
def Before (dist : ℤ → ℕ) (c k : ℕ) : Prop := dist (level c) ≤ dist (level k) ∧ (dist (level c) = dist (level k) → k % 2 = 0 → c % 2 = 0)

theorem Before.refl (dist : ℤ → ℕ) (c : ℕ) : Before dist c c := ⟨le_rfl, fun _ h => h⟩

theorem Before.trans {dist : ℤ → ℕ} {a b c : ℕ} (h : Before dist a b) (h' : Before dist b c) : Before dist a c :=
  ⟨h.1.trans h'.1, fun he hc => h.2 (le_antisymm h.1 (he ▸ h'.1)) (h'.2 (le_antisymm h'.1 (he ▸ h.1)) hc)⟩

/-- R131: whether a code replaces the best one so far. -/
def better (dist : ℤ → ℕ) (l1 : ℤ) (c1 : ℕ) (l2 : ℤ) (_ : ℕ) : Bool :=
  decide (dist l1 < dist l2) || (decide (dist l1 = dist l2) && c1 % 2 == 0)

theorem before_of_better {dist : ℤ → ℕ} {c k : ℕ} (h : better dist (level c) c (level k) k = true) : Before dist c k := by
  simp only [better, Bool.or_eq_true, Bool.and_eq_true, decide_eq_true_eq, beq_iff_eq] at h
  rcases h with h | ⟨h, he⟩
  · exact ⟨h.le, fun heq => absurd heq h.ne⟩
  · exact ⟨h.le, fun _ _ => he⟩

theorem before_of_not_better {dist : ℤ → ℕ} {c k : ℕ} (h : better dist (level c) c (level k) k = false) : Before dist k c := by
  simp only [better, Bool.or_eq_false_iff, Bool.and_eq_false_iff, decide_eq_false_iff_not, not_lt, beq_eq_false_iff_ne] at h
  exact ⟨h.1, fun heq he => absurd he (h.2.resolve_left (not_not.mpr heq.symm))⟩

/-- The best code of a list comes before every code of it. -/
theorem bestCode_spec (dist : ℤ → ℕ) : ∀ (cs : List ℕ) (c : ℕ),
    bestCode (better dist) (cs.map fun k => (k, level k)) (c, level c) ∈ c :: cs ∧
      ∀ k ∈ c :: cs, Before dist (bestCode (better dist) (cs.map fun k => (k, level k)) (c, level c)) k
  | [], c => ⟨.head _, fun k hk => by
      rw [List.mem_singleton.mp hk]
      exact .refl ..⟩
  | x :: cs, c => by
    rw [List.map_cons, bestCode]
    dsimp only
    cases hb : better dist (level x) x (level c) c
    · obtain ⟨hmem, hbest⟩ := bestCode_spec dist cs c
      refine ⟨List.mem_cons.mpr ((List.mem_cons.mp hmem).imp_right (.tail _)), fun k hk => ?_⟩
      rcases List.mem_cons.mp hk with rfl | hk
      · exact hbest k (.head _)
      rcases List.mem_cons.mp hk with rfl | hk
      · exact (hbest c (.head _)).trans (before_of_not_better hb)
      · exact hbest k (.tail _ hk)
    · obtain ⟨hmem, hbest⟩ := bestCode_spec dist cs x
      refine ⟨.tail _ hmem, fun k hk => ?_⟩
      rcases List.mem_cons.mp hk with rfl | hk
      · exact (hbest x (.head _)).trans (before_of_better hb)
      · exact hbest k hk

theorem level_lt : ∀ j < 16, ∀ i < j, level i < level j := by decide

/-- Between two multiples of b that lie equally far from a every other one lies nearer. -/
theorem natAbs_lt_of_between {a b l l1 l2 : ℤ} (hb : b ≠ 0) (h1 : l1 < l) (h2 : l < l2) (he : (a - b * l1).natAbs = (a - b * l2).natAbs) :
    (a - b * l).natAbs < (a - b * l1).natAbs := by
  have hmid : a - b * l1 = -(a - b * l2) := by
    refine (Int.natAbs_eq_natAbs_iff.mp he).resolve_left fun h => ?_
    have : b * (l2 - l1) = 0 := by linarith
    rcases mul_eq_zero.mp this with h | h
    · exact hb h
    · omega
  zify
  have hdouble : ∀ z : ℤ, 2 * |z| = |2 * z| := fun z => by rw [abs_mul, abs_two]
  have hfac : 2 * |a - b * l| = |b| * |l1 + l2 - 2 * l| := by
    rw [hdouble, ← abs_mul]
    congr 1
    linarith
  have hfac1 : 2 * |a - b * l1| = |b| * (l2 - l1) := by
    rw [hdouble, ← abs_of_pos (show 0 < l2 - l1 by omega), ← abs_mul]
    congr 1
    linarith
  have hlt : |l1 + l2 - 2 * l| < l2 - l1 := abs_lt.mpr ⟨by omega, by omega⟩
  have := mul_lt_mul_of_pos_left hlt (abs_pos.mpr hb)
  omega

/-- R131: of two codes whose levels lie equally near, and nearest, the one that comes before is the even one. -/
theorem even_of_tie {a b : ℤ} (hb : b ≠ 0) {c k : ℕ} (hc : c < 16) (hk : k < 16) (hbest : ∀ j < 16, Before (fun l => (a - b * l).natAbs) c j)
    (he : (a - b * level c).natAbs = (a - b * level k).natAbs) (hne : k ≠ c) : c % 2 = 0 := by
  by_contra hodd
  have hkodd : k % 2 ≠ 0 := mt ((hbest k hk).2 he) hodd
  rcases Nat.lt_or_gt_of_ne hne with h | h
  · exact absurd (hbest (k + 1) (by omega)).1 (not_le.mpr ((natAbs_lt_of_between hb (level_lt _ (by omega) _ (by omega))
      (level_lt _ hc _ (by omega)) he.symm).trans_eq he.symm))
  · exact absurd (hbest (c + 1) (by omega)).1 (not_le.mpr (natAbs_lt_of_between hb (level_lt _ (by omega) _ (by omega))
      (level_lt _ hk _ (by omega)) he))

/-- R36, R131: c and fl are the code of a under the scale b, and its flags. -/
def CodeIs (a b : FVal) (c : ℕ) (fl : Flags) : Prop :=
  c < 16 ∧ (a.isNan = true ∨ b.isNan = true ∨ b.isZero = true ∨ b.isInf = true → c = 8 ∧ fl = fIV) ∧
    (a.isInf = true → b.isFin = true → b.isZero = false → fl = 0 ∧ c = if a.neg? = b.neg? then 15 else 0) ∧
    (a.isFin = true → b.isFin = true → b.isZero = false → fl = 0 ∧
      ∀ k, k < 16 → |a.q - b.q * level c / 128| ≤ |a.q - b.q * level k / 128| ∧
        (|a.q - b.q * level c / 128| = |a.q - b.q * level k / 128| → k ≠ c → c % 2 = 0))

theorem scaled_q {n : Bool} {m : ℕ} {e u : ℤ} (h : u ≤ e) : (FVal.fin n m e).q = (scaled n m e u : ℚ) * 2 ^ u := by
  obtain ⟨s, hs⟩ := Int.eq_ofNat_of_zero_le (show 0 ≤ e - u by omega)
  rw [FVal.q, scaled, hs, Int.toNat_natCast, show e = s + u by omega, zpow_add₀ two_ne_zero, zpow_natCast]
  cases n <;> push_cast <;> simp <;> ring

theorem q4nCode_fin {n k : Bool} {m mb : ℕ} {e eb : ℤ} (hb : mb ≠ 0) : ∃ u : ℤ, u ≤ e ∧ u ≤ eb - 7 ∧
    q4nCode (.fin n m e) (.fin k mb eb) = (bestCode (better fun l => (scaled n m e u - scaled k mb (eb - 7) u * l).natAbs)
      ((List.range 16).map fun c => (c, level c)) (0, level 0), 0) := by
  refine ⟨if e ≤ eb - 7 then e else eb - 7, ?_, ?_, ?_⟩
  · split_ifs <;> omega
  · split_ifs <;> omega
  · exact if_neg hb

theorem codeIs_invalid {a b : FVal} (h : a.isNan = true ∨ b.isNan = true ∨ b.isZero = true ∨ b.isInf = true) : CodeIs a b 8 fIV := by
  refine ⟨by decide, fun _ => ⟨rfl, rfl⟩, fun ha hb hz => ?_, fun ha hb hz => ?_⟩ <;>
    cases a <;> cases b <;> simp_all [FVal.isNan, FVal.isInf, FVal.isFin]

/-- R131: the distance of a from a level of the scale b, in units of 2^u. -/
theorem distance_eq {n k : Bool} {m mb : ℕ} {e eb u : ℤ} (hu : u ≤ e) (hub : u ≤ eb - 7) (l : ℤ) :
    |(FVal.fin n m e).q - (FVal.fin k mb eb).q * l / 128| =
      ((scaled n m e u - scaled k mb (eb - 7) u * l).natAbs : ℚ) * 2 ^ u := by
  have hpos : (0 : ℚ) < 2 ^ u := by positivity
  have hb : (FVal.fin k mb eb).q = (FVal.fin k mb (eb - 7)).q * 128 := by
    have h128 : (2 : ℚ) ^ eb = 2 ^ (eb - 7) * 128 := by rw [zpow_sub₀ two_ne_zero]; norm_num
    rw [FVal.q, FVal.q, h128, ← mul_assoc]
  rw [hb, scaled_q hu, scaled_q hub, Nat.cast_natAbs, Int.cast_abs, ← abs_of_pos hpos, ← abs_mul, abs_of_pos hpos]
  congr 1
  push_cast
  ring

theorem q4nCode_spec (a b : FVal) : CodeIs a b (q4nCode a b).1 (q4nCode a b).2 := by
  cases a with
  | nan s => exact codeIs_invalid (.inl rfl)
  | inf n =>
    cases b with
    | nan s => exact codeIs_invalid (.inr (.inl rfl))
    | inf k => exact codeIs_invalid (.inr (.inr (.inr rfl)))
    | fin k mb eb =>
      by_cases hmb : mb = 0
      · rw [show q4nCode (.inf n) (.fin k mb eb) = (8, fIV) from if_pos hmb]
        exact codeIs_invalid (.inr (.inr (.inl (by simpa [FVal.isZero] using hmb))))
      · rw [show q4nCode (.inf n) (.fin k mb eb) = (if n = k then 15 else 0, 0) from if_neg hmb]
        refine ⟨by dsimp only; split <;> decide, fun h => ?_, fun _ _ _ => ⟨rfl, rfl⟩, nofun⟩
        simp [FVal.isNan, FVal.isZero, FVal.isInf, hmb] at h
  | fin n m e =>
    cases b with
    | nan s => exact codeIs_invalid (.inr (.inl rfl))
    | inf k => exact codeIs_invalid (.inr (.inr (.inr rfl)))
    | fin k mb eb =>
      by_cases hmb : mb = 0
      · rw [show q4nCode (.fin n m e) (.fin k mb eb) = (8, fIV) from if_pos hmb]
        exact codeIs_invalid (.inr (.inr (.inl (by simpa [FVal.isZero] using hmb))))
      · obtain ⟨u, hu, hub, hcode⟩ := q4nCode_fin (n := n) (k := k) (m := m) (e := e) (eb := eb) hmb
        rw [hcode]
        obtain ⟨hmem, hbest⟩ := bestCode_spec (fun l => (scaled n m e u - scaled k mb (eb - 7) u * l).natAbs) (List.range 16) 0
        generalize bestCode _ _ _ = c at *
        have hc : c < 16 := by
          rcases List.mem_cons.mp hmem with rfl | h
          · decide
          · exact List.mem_range.mp h
        have hb : scaled k mb (eb - 7) u ≠ 0 := by cases k <;> simp [scaled, hmb]
        have hbest' := fun j hj => hbest j (.tail _ (List.mem_range.mpr hj))
        have hpos : (0 : ℚ) < 2 ^ u := by positivity
        refine ⟨hc, fun h => ?_, nofun, fun _ _ _ => ⟨rfl, fun j hj => ?_⟩⟩
        · simp [FVal.isNan, FVal.isZero, FVal.isInf, hmb] at h
        · rw [distance_eq hu hub, distance_eq hu hub, mul_le_mul_iff_left₀ hpos, mul_left_inj' hpos.ne', Nat.cast_le, Nat.cast_inj]
          exact ⟨(hbest' j hj).1, even_of_tie hb hc hj hbest'⟩

end Sys2Proof.Machine
end

section
/-! Proof of O13, third part: powers of two, logarithms and draws, and the forms. -/

namespace Sys2Proof.Machine

/-! ## Numbers that f32 and f64 hold -/

/-- The finite value that an encoding stands for, with no flag. -/
def HoldsExactly (F : FFmt) (r : Dword × Flags) (x : ℚ) : Prop := (fDec F r.1).isFin = true ∧ (fDec F r.1).q = x ∧ r.2 = 0

theorem fRnd_holds {F : FFmt} (hF : F = f32F ∨ F = f64F) (rm : Rm) (neg : Bool) {m : ℕ} (hm : m ≠ 0) {e : ℤ} (hexp : rndExp F m e ≤ e)
    (hlt : finExpo m e ≤ F.bias) : HoldsExactly F (fRnd F rm neg m e) (FVal.fin neg m e).q := by
  have hfmt : F.bits ≤ 64 ∧ 2 ^ F.eb - 1 = F.bias + 1 + F.bias ∧ 0 < F.bias := by rcases hF with rfl | rfl <;> decide
  obtain ⟨hbits, hbias, hpos⟩ := hfmt
  obtain ⟨⟨m', e', hdec, hq⟩, hfl⟩ := fRnd_exact hbits hbias hpos rm neg hm hexp hlt
  exact ⟨by rw [hdec]; rfl, by rw [hdec, hq], hfl⟩

theorem fZero_holds {F : FFmt} (hF : F = f32F ∨ F = f64F) (neg : Bool) : HoldsExactly F (fZero F neg, 0) 0 := by
  have hdec : fDec F (fZero F neg) = .fin neg 0 (1 - (F.bias : ℤ) - F.fb) := by rcases hF with rfl | rfl <;> cases neg <;> rfl
  exact ⟨by rw [hdec]; rfl, by rw [hdec]; simp [FVal.q], rfl⟩

theorem fOut_holds {F : FFmt} (hF : F = f32F ∨ F = f64F) (rm : Rm) (neg : Bool) {m : ℕ} {e : ℤ} (hm : m < 2 ^ (F.fb + 1))
    (he : 1 - F.bias - F.fb ≤ e) (hlt : e + F.fb ≤ F.bias) : HoldsExactly F (fOut F rm (.fin neg m e)) (FVal.fin neg m e).q := by
  by_cases hm0 : m = 0
  · rw [show fOut F rm (.fin neg m e) = (fZero F neg, 0) from if_pos hm0, show (FVal.fin neg m e).q = 0 by simp [FVal.q, hm0]]
    exact fZero_holds hF neg
  · have hlog : m.log2 ≤ F.fb := Nat.le_of_lt_succ ((Nat.log2_lt hm0).mpr hm)
    have hE : finExpo m e = e + m.log2 := by rw [finExpo, bitLen_pos hm0]; push_cast; ring
    rw [show fOut F rm (.fin neg m e) = fRnd F rm neg m e from if_neg hm0]
    refine fRnd_holds hF rm neg hm0 ?_ (by omega)
    rw [rndExp_eq]
    omega

/-! ## Powers of two and logarithms -/

theorem abs_fin_q (n : Bool) (m : ℕ) (e : ℤ) : |((FVal.fin n m e).q : ℝ)| = m * 2 ^ e := by rw [q_fin, abs_signed (by positivity)]

/-- R127: `fexp2` of an integral argument is an exact power of two. -/
theorem fExp2_integral {rm : Rm} {x : Dword} {k : ℤ} (hfin : (fDec f32F x).isFin = true) (hq : (fDec f32F x).q = k) (hlo : -149 ≤ k)
    (hhi : k ≤ 127) : fExp2 rm x = fRnd f32F rm false 1 k := by
  unfold fExp2
  cases hx : fDec f32F x with
  | nan s => rw [hx] at hfin; cases hfin
  | inf n => rw [hx] at hfin; cases hfin
  | fin n m e =>
    rw [hx] at hq
    dsimp only
    by_cases hm : m = 0
    · have : k = 0 := by
        have : (k : ℚ) = 0 := by rw [← hq]; simp [FVal.q, hm]
        exact_mod_cast this
      rw [if_pos hm, this]
    · have habs : (m * 2 ^ e : ℝ) ≤ 149 := by
        rw [← abs_fin_q n, hq]
        have : |(k : ℝ)| ≤ 149 := abs_le.mpr ⟨by exact_mod_cast hlo, by exact_mod_cast hhi.trans (by decide)⟩
        exact_mod_cast this
      have hexpo : ¬8 < finExpo m e := fun h => by
        have h9 : (2 : ℝ) ^ (9 : ℤ) ≤ m * 2 ^ e := (zpow_le_zpow_right₀ one_le_two (by omega)).trans (finExpo_spec hm e).1
        norm_num at h9
        linarith
      rw [if_neg hm, if_neg hexpo]
      by_cases he : 0 ≤ e
      · have hk : scaled n m e 0 = k := by
          rw [scaled_q he, zpow_zero, mul_one] at hq
          exact_mod_cast hq
        rw [if_pos he, hk]
      · obtain ⟨s, hs⟩ := Int.eq_ofNat_of_zero_le (show 0 ≤ -e by omega)
        have hpos : (0 : ℚ) < 2 ^ s := by positivity
        have ha : (if n then -1 else 1) * (m : ℤ) = k * 2 ^ s := by
          rw [FVal.q, show e = -(s : ℤ) by omega, zpow_neg, zpow_natCast, ← div_eq_mul_inv, div_eq_iff hpos.ne'] at hq
          exact_mod_cast hq
        rw [if_neg he, hs, Int.toNat_natCast, ha, Int.mul_ediv_cancel _ (by positivity), Int.mul_emod_left]
        exact if_pos rfl

theorem fRnd_two_zpow (rm : Rm) {k : ℤ} (hlo : -149 ≤ k) (hhi : k ≤ 127) : HoldsExactly f32F (fRnd f32F rm false 1 k) (2 ^ k) := by
  have hE : finExpo 1 k = k := by rw [finExpo, show bitLen 1 = 1 from rfl]; push_cast; ring
  have h := fRnd_holds (.inl rfl) rm false one_ne_zero (F := f32F) (e := k) (by rw [rndExp_eq, hE]; simp [f32F]; omega)
    (by rw [hE]; simpa [f32F] using hhi)
  have hq : (FVal.fin false 1 k).q = 2 ^ k := by simp [FVal.q]
  rwa [hq] at h

/-- R26: the exponents and significands of f32. -/
theorem fDec_f32_range {x : Dword} {n : Bool} {m : ℕ} {e : ℤ} (h : fDec f32F x = .fin n m e) : m < 2 ^ 24 ∧ -149 ≤ e ∧ e ≤ 104 := by
  have hE : low 32 x / 2 ^ 23 % 2 ^ 8 < 2 ^ 8 := Nat.mod_lt _ (by decide)
  have hf : low 32 x % 2 ^ 23 < 2 ^ 23 := Nat.mod_lt _ (by decide)
  change (if low 32 x / 2 ^ 23 % 2 ^ 8 = 255 then _ else finOf f32F _ (low 32 x / 2 ^ 23 % 2 ^ 8) (low 32 x % 2 ^ 23)) = _ at h
  generalize low 32 x / 2 ^ 23 % 2 ^ 8 = E at *
  generalize low 32 x % 2 ^ 23 = f at *
  rw [ite_eq_iff] at h
  rcases h with ⟨-, h⟩ | ⟨hne, h⟩
  · split_ifs at h
  · unfold finOf f32F at h
    split_ifs at h <;> cases h <;> dsimp only <;> omega

/-- R127: `flog2` of a power of two is its exact logarithm. -/
theorem fLog2_two_zpow {rm : Rm} {x : Dword} {k : ℤ} (hfin : (fDec f32F x).isFin = true) (hq : (fDec f32F x).q = 2 ^ k) :
    fLog2 rm x = fOut f32F rm (.fin (decide (k < 0)) k.natAbs 0) ∧ k.natAbs < 2 ^ 24 := by
  unfold fLog2
  cases hx : fDec f32F x with
  | nan s => rw [hx] at hfin; cases hfin
  | inf n => rw [hx] at hfin; cases hfin
  | fin n m e =>
    obtain ⟨hm24, he, he'⟩ := fDec_f32_range hx
    rw [hx] at hq
    have hqpos : (0 : ℚ) < (FVal.fin n m e).q := by rw [hq]; positivity
    have hm : m ≠ 0 := fin_q_ne_zero hqpos.ne'
    have hn : n = false := by
      cases n
      · rfl
      · have : (0 : ℚ) ≤ m * 2 ^ e := by positivity
        simp only [FVal.q, if_true] at hqpos
        linarith
    subst hn
    have hval : (m : ℝ) * 2 ^ e = 2 ^ k := by
      rw [← abs_fin_q false, hq]
      push_cast
      exact abs_of_pos (by positivity)
    obtain ⟨hlo, hhi⟩ := finExpo_spec hm e
    rw [hval, zpow_le_zpow_iff_right₀ one_lt_two] at hlo
    rw [hval, zpow_lt_zpow_iff_right₀ one_lt_two] at hhi
    obtain rfl : k = finExpo m e := by omega
    have hE : finExpo m e = m.log2 + e := by rw [finExpo, bitLen_pos hm]; push_cast; ring
    have hpow : m = 2 ^ (bitLen m - 1) := by
      rw [hE, zpow_add₀ two_ne_zero, zpow_natCast] at hval
      rw [bitLen_pos hm, Nat.add_sub_cancel]
      exact_mod_cast mul_right_cancel₀ (by positivity : (2 : ℝ) ^ e ≠ 0) hval
    have hlog : m.log2 < 24 := (Nat.log2_lt hm).mpr hm24
    refine ⟨(if_neg hm).trans ((if_neg (by simp)).trans (if_pos hpow)), ?_⟩
    omega

/-- R127: the special cases of `fexp2`. -/
theorem fExp2_special (rm : Rm) (x : Dword) : let a := fDec f32F x
    (a.isNan = true → fExp2 rm x = (fNaN f32F, if a.isSnan then fIV else 0)) ∧
      (a = .inf true → fExp2 rm x = (fZero f32F false, 0)) ∧ (a = .inf false → fExp2 rm x = (fInf f32F false, 0)) := by
  unfold fExp2
  cases fDec f32F x with
  | nan s => exact ⟨fun _ => rfl, nofun, nofun⟩
  | inf n => exact ⟨nofun, fun h => by cases h; rfl, fun h => by cases h; rfl⟩
  | fin n m e => exact ⟨nofun, nofun, nofun⟩

/-- R127: the special cases of `flog2`. -/
theorem fLog2_special (rm : Rm) (x : Dword) : let a := fDec f32F x
    (a.isNan = true → fLog2 rm x = (fNaN f32F, if a.isSnan then fIV else 0)) ∧ (a.isZero = true → fLog2 rm x = (fInf f32F true, fDZ)) ∧
      (a = .inf false → fLog2 rm x = (fInf f32F false, 0)) ∧
      (a.isNan = false → a.isZero = false → a.neg? = true → fLog2 rm x = (fNaN f32F, fIV)) := by
  unfold fLog2
  cases fDec f32F x with
  | nan s => exact ⟨fun _ => rfl, nofun, nofun, nofun⟩
  | inf n => exact ⟨nofun, nofun, fun h => by cases h; rfl, fun _ _ hneg => if_pos hneg⟩
  | fin n m e =>
    refine ⟨nofun, fun hz => if_pos (by simpa [FVal.isZero] using hz), nofun, fun _ hz hneg => ?_⟩
    exact (if_neg (by simpa [FVal.isZero] using hz)).trans (if_pos hneg)

theorem fmtDec_float {t : Ty} (ht : tyFloat t = true) (x : Dword) : fmtDec (.ty t) x = fDec (tyF t) x := if_pos ht

theorem intVal_q (k : ℤ) : (FVal.fin (decide (k < 0)) k.natAbs 0).q = k := by
  rw [FVal.q, zpow_zero, mul_one, Nat.cast_natAbs]
  rcases lt_or_ge k 0 with h | h
  · simp [h, abs_of_neg h]
  · simp [h.not_gt, abs_of_nonneg h]

/-! ## The forms -/

section
variable {h : Hd} {s : State} {g : Gang}

/-- R112, R114: a floating form of one source applies its operation to each element. -/
theorem flt2_float2 {i : Instr} {o : Fl2} {op : Dword → Dword × Flags} (hc : CanIssue i .none s g) (hh : hdOf i = some h)
    (hx : exec i s = regOp i h (flt2 h o op) s) : Float2 i h s g o op := by
  let result : Gang → Fibre → Dword × Flags := fun g f =>
    let x := fsrc h g o.t o.pk f o.a
    let p := if o.pk then packed2 op x else op x
    (fit o.t o.pk p.1, p.2)
  exact regOp_float (v := result) hc hh hx (fun _ _ => rfl) (fun f => by simp only [result, fsrc, rd_issued, rd_past'])
    (fun f => by simp only [fsrc, rd_past'])

theorem cvt_result {o : Cvt} (hc : CanIssue (.cvt h o) .none s g) : FloatResult (.cvt h o) h s g (fmtReg o.dst) o.d fun f =>
    cvtVal o.dst o.src o.rm o.sat (rd g h.ext ⟨o.src, false⟩ f o.a) :=
  regOp_float (v := fun g f => cvtVal o.dst o.src o.rm o.sat (rd g h.ext ⟨o.src, false⟩ f o.a)) hc rfl
    (show _ = execCvt h o s from rfl) (fun _ _ => rfl) (fun f => by rw [rd_issued, rd_past']) (fun f => by rw [rd_past'])

/-- R130: the pair of two conversions. -/
def packPair (c : Dword → Dword × Flags) (x y : Dword) : Dword × Flags := ((c y).1 <<< 16 ||| (c x).1, (c x).2 ||| (c y).2)

theorem pack_result {o : Fl3} (hc : CanIssue (.pack h o) .none s g) : FloatResult (.pack h o) h s g 32 o.d fun f =>
    packPair (cvtVal (.ty o.t) (.ty .f32) o.rm false) (src h g .f32 f o.a) (src h g .f32 f o.b) :=
  regOp_float (v := fun g f => packPair (cvtVal (.ty o.t) (.ty .f32) o.rm false) (src h g .f32 f o.a) (src h g .f32 f o.b)) hc rfl
    (show _ = execPack h o s from rfl) (fun _ _ => rfl) (fun f => by simp only [src_issued]) (fun f => by simp only [src_past])

theorem unpk_result {hi : Bool} {o : Fl2} (hc : CanIssue (.unpk h hi o) .none s g) : FloatResult (.unpk h hi o) h s g 32 o.d fun f =>
    cvtVal (.ty .f32) (.ty o.t) .rne false (if hi then fsrc h g o.t true f o.a >>> 16 else fsrc h g o.t true f o.a) :=
  regOp_float (v := fun g f => cvtVal (.ty .f32) (.ty o.t) .rne false
      (if hi then fsrc h g o.t true f o.a >>> 16 else fsrc h g o.t true f o.a)) hc rfl
    (show _ = execUnpk h hi o s from rfl) (fun _ _ => rfl) (fun f => by simp only [fsrc, rd_issued, rd_past'])
    (fun f => by simp only [fsrc, rd_past'])

theorem qnt_result {d a b : Opnd} (hc : CanIssue (.qnt h d a b) .none s g) : FloatResult (.qnt h d a b) h s g 32 d fun f =>
    (BitVec.ofNat 64 (qntOf g h f a b).1, (qntOf g h f a b).2) :=
  regOp_float (v := fun g f => (BitVec.ofNat 64 (qntOf g h f a b).1, (qntOf g h f a b).2)) hc rfl
    (show _ = execQnt h d a b s from rfl) (fun _ _ => rfl) (fun f => by simp only [qntOf, rd_issued, rd_past'])
    (fun f => by simp only [qntOf, rd_past'])

/-- R131: a nibble in the place of another. -/
def setNibble (old code : Dword) (j : ℕ) : Dword := (old &&& ~~~((15 : Dword) <<< (4 * j))) ||| (code <<< (4 * j))

theorem qntIns_result {d a b : Opnd} {j : Fin 512} (hc : CanIssue (.qntIns h d a b j) .none s g) :
    FloatResult (.qntIns h d a b j) h s g 32 d fun f =>
      (setNibble (src h g .n32 f d) (BitVec.ofNat 64 (qntOf g h f a b).1) j, (qntOf g h f a b).2) :=
  regOp_float (v := fun g f => (setNibble (src h g .n32 f d) (BitVec.ofNat 64 (qntOf g h f a b).1) j, (qntOf g h f a b).2)) hc rfl
    (show _ = execQntIns h d a b j s from rfl) (fun _ _ => rfl) (fun f => by simp only [qntOf, src, rd_issued, rd_past'])
    (fun f => by simp only [qntOf, src, rd_past'])

/-- R134: `rand` writes the value of its type's draws, and the counter has advanced past them. -/
theorem rand_did {t : Ty} {d : Opnd} (hc : CanIssue (.rand h t d) .none s g) :
    Did (.rand h t d) h s g (fun _ f => writeReg (tyReg t) d (randVal t f).1 (randVal t f).2)
      (writeScalar (tyReg t) d (fun _ f => (randVal t f).1) h s g) := by
  have hpast : ∀ f, (randVal t (past (.rand h t d) s g f)).1 = (randVal t f).1 := fun f => by cases t <;> rfl
  have hd := issue_lanes_did (fn := fun _ _ f => wrTy t d (randVal t f).1 (.ok (randVal t f).2)) hc rfl
    (show _ = execRand h t d s from rfl) (fun _ _ _ => wr_fault ..)
  exact hd.congr (fun _ f => wr_f ..) (scalarsAfter_wr (val := fun _ f => (randVal t f).1)
    (fun _ f => by rw [hpast]; exact wr_sc ..) _)

theorem seed_did {fid : Bool} {a : Opnd} (hc : CanIssue (.seed h fid a) .none s g) :
    Did (.seed h fid a) h s g
      (fun _ f => { f with key := if fid then src h g .n64 f a ^^^ f.fid else src h g .n64 f a, ctr := 0 }) id :=
  regOp_fibre hc rfl (show _ = execSeed h fid a s from rfl) (fun _ _ => ⟨rfl, rfl⟩) fun f => by
    simp only [Lane.ok, src, rd_issued, rd_past']

end

theorem draw_lt (k n : Dword) : draw k n < 2 ^ 32 := by
  unfold draw
  dsimp only
  rw [BitVec.toNat_ushiftRight, Nat.shiftRight_eq_div_pow]
  omega

theorem randVal_f32_fst {f : Fibre} {d : ℕ × Fibre} {p : Dword × Flags} (hd : fibreDraw f = d)
    (hp : fOut f32F .rne (.fin false (d.1 / 2 ^ 8) (-24)) = p) : (randVal .f32 f).1 = p.1 := by
  have h : randVal .f32 f = ((fOut f32F .rne (.fin false ((fibreDraw f).1 / 2 ^ 8) (-24))).1, (fibreDraw f).2) := rfl
  rw [h, hd, hp]

theorem randVal_f64_fst {f : Fibre} {d e : ℕ × Fibre} {p : Dword × Flags} (hd : fibreDraw f = d) (he : fibreDraw d.2 = e)
    (hp : fOut f64F .rne (.fin false (d.1 * 2 ^ 21 + e.1 / 2 ^ 11) (-53)) = p) : (randVal .f64 f).1 = p.1 := by
  have h : randVal .f64 f = ((fOut f64F .rne (.fin false ((fibreDraw f).1 * 2 ^ 21 + (fibreDraw (fibreDraw f).2).1 / 2 ^ 11) (-53))).1,
    (fibreDraw (fibreDraw f).2).2) := rfl
  rw [h, hd, he, hp]

/-- R134: an f32 draw is the upper 24 bits of one draw, over 2^24. -/
theorem randVal_f32 (f : Fibre) : (fDec f32F (randVal .f32 f).1).isFin = true ∧
    (fDec f32F (randVal .f32 f).1).q = (draw f.key f.ctr / 2 ^ 8 : Nat) / 2 ^ 24 := by
  have hlt := draw_lt f.key f.ctr
  rw [randVal_f32_fst rfl rfl, fibreDraw]
  generalize draw f.key f.ctr = a at *
  obtain ⟨hfin, hq, -⟩ := fOut_holds (F := f32F) (.inl rfl) .rne false (m := a / 2 ^ 8) (e := -24)
    (by simp only [f32F]; omega) (by decide) (by decide)
  refine ⟨hfin, hq.trans ?_⟩
  rw [FVal.q, zpow_neg, div_eq_mul_inv, if_neg (by decide), one_mul]
  norm_cast

/-- R134: an f64 draw is one draw and the upper 21 bits of the next, over 2^53. -/
theorem randVal_f64 (f : Fibre) : (fDec f64F (randVal .f64 f).1).isFin = true ∧
    (fDec f64F (randVal .f64 f).1).q = (draw f.key f.ctr * 2 ^ 21 + draw f.key (f.ctr + 1) / 2 ^ 11 : Nat) / 2 ^ 53 := by
  have hlt := draw_lt f.key f.ctr
  have hlt' := draw_lt f.key (f.ctr + 1)
  rw [randVal_f64_fst rfl rfl rfl, fibreDraw, fibreDraw]
  generalize draw f.key f.ctr = a at *
  generalize draw f.key (f.ctr + 1) = b at *
  obtain ⟨hfin, hq, -⟩ := fOut_holds (F := f64F) (.inr rfl) .rne false (m := a * 2 ^ 21 + b / 2 ^ 11) (e := -53)
    (by simp only [f64F]; omega) (by decide) (by decide)
  refine ⟨hfin, hq.trans ?_⟩
  rw [FVal.q, zpow_neg, div_eq_mul_inv, if_neg (by decide), one_mul]
  norm_cast

/-- R134: the 64-bit types take two draws. -/
theorem randVal_ctr {t : Ty} (ht : t = .n64 ∨ t = .f64) (f : Fibre) : (randVal t f).2 = { f with ctr := f.ctr + 2 } := by
  have hctr : f.ctr + 1 + 1 = f.ctr + 2 := by rw [BitVec.add_assoc]; rfl
  rcases ht with rfl | rfl <;> rw [← hctr] <;> rfl

/-- Settles O13, form by form: the conversions and codes of the second part, the exact values of the third, and the draws. -/
theorem conversionsAndQuantising : Obligations.ConversionsAndQuantising := by
  refine ⟨⟨?cvt, ?pack, ?unpk⟩, ⟨?qnt, ?qntIns⟩, ⟨?fexp2, ?flog2⟩, ?n32, ?n64, ?f32, ?f64, ?seed⟩
  case cvt =>
    intro h o s g hc
    refine ⟨_, cvt_result hc, fun f => ⟨fun t hd ht => ?_, fun t hd ht hs => ?_, fun t u hd ht hu htu => ?_, fun F hF => ?_⟩⟩
    · rw [hd]; exact cvtVal_float ht ..
    · rw [hd, cvtVal_toInt ht hs]; exact fToInt_intoInt ..
    · rw [hd, hu]; exact cvtVal_int ht htu ..
    · rcases hF with ⟨hd, rfl⟩ | ⟨hd, rfl⟩ <;> rw [hd]
      · exact fOut8_into8 (.inl rfl) ..
      · exact fOut8_into8 (.inr rfl) ..
  case pack =>
    intro h o s g hc
    have ht : tyFloat o.t = true := by
      have := Laws.entryOk_of_legal hc.word
      simp only [entryOk, flOk, Bool.and_eq_true] at this
      exact this.2.1.1
    refine ⟨_, pack_result hc, fun x => ?_⟩
    rw [show fDec f32F x = fmtDec (.ty .f32) x from (fmtDec_float (t := .f32) rfl x).symm]
    exact cvtVal_float ht ..
  case unpk =>
    intro h hi o s g hc
    have ht : tyFloat o.t = true := by
      have := Laws.entryOk_of_legal hc.word
      simp only [entryOk, flOk2, flOk, Bool.and_eq_true] at this
      exact this.2.1.1
    refine ⟨_, unpk_result hc, fun x => ?_⟩
    rw [← fmtDec_float ht]
    exact cvtVal_float (t := .f32) rfl ..
  case qnt => exact fun h d a b s g hc => ⟨_, _, qnt_result hc, fun f => q4nCode_spec ..⟩
  case qntIns => exact fun h d a b j s g hc => ⟨_, _, qntIns_result hc, fun f => q4nCode_spec ..⟩
  case fexp2 =>
    intro h o s g hc
    refine ⟨_, flt2_float2 hc rfl (show _ = execFexp2 h o s from rfl), fun x => ?_⟩
    obtain ⟨hnan, hzero, hinf⟩ := fExp2_special o.rm x
    refine ⟨hnan, hzero, hinf, fun k hf hq hlo hhi => ?_⟩
    obtain ⟨-, hval, hfl⟩ := fRnd_two_zpow o.rm hlo hhi
    rw [fExp2_integral hf hq hlo hhi]
    exact ⟨rfl, hval, hfl⟩
  case flog2 =>
    intro h o s g hc
    refine ⟨_, flt2_float2 hc rfl (show _ = execFlog2 h o s from rfl), fun x => ?_⟩
    obtain ⟨hnan, hzero, hinf, hneg⟩ := fLog2_special o.rm x
    refine ⟨hnan, hzero, hinf, hneg, fun hf hq => ?_, fun k hf hq => ?_⟩
    · rw [(fLog2_two_zpow (k := 0) hf (by rw [hq]; rfl)).1]
      rfl
    · obtain ⟨hres, hlt⟩ := fLog2_two_zpow (rm := o.rm) hf hq
      obtain ⟨-, hval, hfl⟩ := fOut_holds (F := f32F) (.inl rfl) o.rm (decide (k < 0)) (e := 0) hlt (by decide) (by decide)
      rw [hres]
      exact ⟨hval.trans (intVal_q k), hfl⟩
  case n32 => exact fun h d s g hc => rand_did hc
  case n64 =>
    intro h d s g hc
    exact (rand_did hc).congr (fun _ f => by rw [randVal_ctr (.inl rfl)]; rfl) rfl
  case f32 => exact fun h d s g hc => ⟨_, rand_did hc, randVal_f32⟩
  case f64 =>
    intro h d s g hc
    exact ⟨_, (rand_did hc).congr (fun _ f => by rw [randVal_ctr (.inr rfl)]; rfl) rfl, randVal_f64⟩
  case seed => exact fun h fid a s g hc => seed_did hc

end Sys2Proof.Machine
end

section
/-! Proof of O56: every state function keeps memory and its descriptors in canonical form. -/

namespace Sys2Proof.Machine

/-- The answer of an instruction or a step keeps `State.MemWf`: a fault or a refusal has no state. Each lemma below is named after
the function of the model it speaks of, so that a proof names the functions in the order in which the model applies them. -/
def KeepsMem (r : Outc) : Prop := ∀ t, r = .next t → t.MemWf

theorem KeepsMem.next {s : State} (h : s.MemWf) : KeepsMem (.next s) := fun _ ht => Host.Outcome.next.inj ht ▸ h
theorem KeepsMem.fault {r : Fault} : KeepsMem (.fault r) := nofun
theorem KeepsMem.refused {r : Refusal} : KeepsMem (.refused r) := nofun

theorem KeepsMem.ite {c : Prop} [Decidable c] {a b : Outc} (ha : KeepsMem a) (hb : KeepsMem b) : KeepsMem (if c then a else b) := by
  split
  · exact ha
  · exact hb

/-! ## Branches and loops -/

theorem State.MemWf.ite {c : Prop} [Decidable c] {a b : State} (ha : a.MemWf) (hb : b.MemWf) : (if c then a else b).MemWf := by
  split
  · exact ha
  · exact hb

theorem State.MemWf.ite_snd {α : Type} {c : Prop} [Decidable c] {a b : α × State} (ha : a.2.MemWf) (hb : b.2.MemWf) :
    (if c then a else b).2.MemWf := by
  split
  · exact ha
  · exact hb

theorem State.MemWf.foldl {α : Type} {f : State → α → State} {l : List α} {s : State} (hs : s.MemWf)
    (hf : ∀ t a, t.MemWf → (f t a).MemWf) : (l.foldl f s).MemWf :=
  List.foldlRecOn (motive := State.MemWf) l f hs fun t ht a _ => hf t a ht

theorem State.MemWf.foldl_snd {α β : Type} {f : β × State → α → β × State} {l : List α} {z : β × State} (hz : z.2.MemWf)
    (hf : ∀ z a, z.2.MemWf → (f z a).2.MemWf) : (l.foldl f z).2.MemWf :=
  List.foldlRecOn (motive := fun z => z.2.MemWf) l f hz fun t ht a _ => hf t a ht

theorem State.MemWf.foldl_on {α β : Type} {p : β → State} {f : β → α → β} {l : List α} {z : β} (hz : (p z).MemWf)
    (hf : ∀ z a, (p z).MemWf → (p (f z a)).MemWf) : (p (l.foldl f z)).MemWf :=
  List.foldlRecOn (motive := fun z => (p z).MemWf) l f hz fun t ht a _ => hf t a ht

theorem State.MemWf.getD {o : Option State} {s : State} (ho : ∀ t ∈ o, t.MemWf) (hs : s.MemWf) : (o.getD s).MemWf := by
  cases o with
  | none => exact hs
  | some t => exact ho t rfl

section
variable {α β : Type} {P : β → Prop}

theorem kept_some {b : β} (h : P b) : ∀ t ∈ some b, P t := fun _ ht => Option.some.inj ht ▸ h

theorem kept_map {o : Option α} {f : α → β} (h : ∀ a, P (f a)) : ∀ t ∈ o.map f, P t := by
  cases o with
  | none => exact nofun
  | some a => exact kept_some (h a)

theorem kept_map_of {Q : α → Prop} {o : Option α} {f : α → β} (ho : ∀ a ∈ o, Q a) (h : ∀ a, Q a → P (f a)) :
    ∀ t ∈ o.map f, P t := by
  cases o with
  | none => exact nofun
  | some a => exact kept_some (h a (ho a rfl))

theorem kept_foldlM {f : β → α → Option β} {l : List α} {b : β} (hb : P b) (hf : ∀ b a, P b → ∀ c ∈ f b a, P c) :
    ∀ c ∈ l.foldlM f b, P c := by
  induction l generalizing b with
  | nil => exact kept_some hb
  | cons a l ih =>
    intro c hc
    rw [List.foldlM_cons] at hc
    cases hfb : f b a with
    | none => simp [hfb] at hc
    | some b' => exact ih (hf b a hb b' hfb) c (by simpa [hfb] using hc)
end

/-- A table from which entries are removed. -/
theorem wfFrom_filter {β : Type} [DecidableEq β] {d : β} (p : Nat × β → Bool) : ∀ {m : AMap β} {lo : Nat},
    wfFrom d lo m = true → wfFrom d lo (m.filter p) = true
  | [], _, _ => rfl
  | (k, x) :: m, lo, h => by
    simp only [wfFrom, Bool.and_eq_true, decide_eq_true_eq] at h
    obtain ⟨⟨hlo, hx⟩, hm⟩ := h
    have ih := wfFrom_filter p hm
    rw [List.filter_cons]
    split
    · simp [wfFrom, hlo, hx, ih]
    · exact wfFrom_mono ih (by omega)

theorem wf_filter {β : Type} [DecidableEq β] {d : β} (p : Nat × β → Bool) {m : AMap β} (h : wf d m = true) :
    wf d (m.filter p) = true :=
  wfFrom_filter p h

theorem noGate_kept : ∀ (x : Iss) (s : State), s.MemWf → ∀ t ∈ noGate x s, t.MemWf := fun _ _ _ => nofun

variable {s : State}

/-! ## Issue and traps -/

theorem State.MemWf.updGang {k f} (hs : s.MemWf) : (updGang k f s).MemWf := hs
theorem State.MemWf.updCore {c f} (hs : s.MemWf) : (updCore c f s).MemWf := hs
theorem State.MemWf.updCrew {k f} (hs : s.MemWf) : (updCrew k f s).MemWf := hs
theorem State.MemWf.updCtx {k f} (hs : s.MemWf) : (updCtx k f s).MemWf := hs
theorem State.MemWf.updOp {k f} (hs : s.MemWf) : (updOp k f s).MemWf := hs
theorem State.MemWf.freshId (hs : s.MemWf) : (freshId s).2.MemWf := hs
theorem State.MemWf.freshVal (hs : s.MemWf) : (freshVal s).2.MemWf := hs
theorem State.MemWf.freshCoin (hs : s.MemWf) : (freshCoin s).2.MemWf := hs
theorem State.MemWf.perfCount {core ctx code n} (hs : s.MemWf) : (perfCount core ctx code n s).MemWf := .ite hs hs.updCore

theorem State.MemWf.setByte {pa b} (hs : s.MemWf) : (setByte pa b s).MemWf :=
  ⟨wf_put hs.1, hs.2⟩

theorem State.MemWf.setBytes {bs} (hs : s.MemWf) : (setBytes bs s).MemWf := hs.foldl fun _ _ ht => ht.setByte

theorem State.MemWf.setDesc {sector d} (hs : s.MemWf) : (setDesc sector d s).MemWf :=
  ⟨hs.1, wf_put hs.2⟩

theorem State.MemWf.setSpad {core bs} (hs : s.MemWf) : (setSpad core bs s).MemWf := hs
theorem State.MemWf.mapReqs {f} (hs : s.MemWf) : (mapReqs f s).MemWf := hs
theorem State.MemWf.setStage {id st} (hs : s.MemWf) : (setStage id st s).MemWf := hs.mapReqs

theorem State.MemWf.pickSome {ns} (hs : s.MemWf) : (pickSome ns s).2.MemWf := by
  rw [pickSome_eq]
  exact hs

theorem State.MemWf.retake {old ul uw w a x} (hz : s.MemWf) : (retake old ul uw w a x s).2.MemWf := .ite_snd hz.pickSome hz.pickSome

theorem State.MemWf.meetLoads {unit old w} (hz : s.MemWf) : (meetLoads unit old w s).MemWf :=
  hz.foldl fun _ _ hu => by
    dsimp only
    split
    · exact (hu.foldl_snd fun _ _ hv => hv.retake).setStage
    · exact (hu.foldl_snd fun _ _ hv => hv.retake).setStage
    · exact hu

theorem State.MemWf.writeHome {unit bs} (hs : s.MemWf) : (writeHome unit bs s).MemWf := .meetLoads hs.setBytes

theorem State.MemWf.dropStale {core} (hs : s.MemWf) : (dropStale core s).MemWf :=
  hs.foldl fun _ _ ht => .ite (.updCore ht.freshCoin) ht.freshCoin

theorem State.MemWf.fetchBlock {core b} (hs : s.MemWf) : (fetchBlock core b s).MemWf := by
  unfold Machine.fetchBlock
  split
  · exact .ite hs (.ite hs.freshCoin.updCore hs.freshCoin)
  · exact .updCore (.ite_snd hs hs.freshVal)

theorem State.MemWf.startWalks {k g need vas} (hs : s.MemWf) : (startWalks k g need vas s).MemWf :=
  hs.foldl fun _ _ ht => .ite ht (.perfCount ht.freshId)

theorem State.MemWf.escalate {k g recs} (hs : s.MemWf) : (escalate k g recs s).MemWf := hs

theorem State.MemWf.takeTrapRecs {k recs} (hs : s.MemWf) : (takeTrapRecs k recs s).MemWf := by
  unfold Machine.takeTrapRecs
  split
  · exact hs
  · split
    · exact hs.updGang
    · exact .ite hs (.ite hs.escalate hs.updGang.perfCount)

theorem State.MemWf.decodeTrap {k group pc c addr} (hs : s.MemWf) : (decodeTrap k group pc c addr s).MemWf := hs.takeTrapRecs
theorem State.MemWf.settleFills {k} (hs : s.MemWf) : (settleFills k s).MemWf := hs.updGang

theorem State.MemWf.settle {k} (hs : s.MemWf) : (settle k s).MemWf := by
  unfold Machine.settle
  split
  · exact hs
  · exact .ite hs hs.takeTrapRecs

theorem State.MemWf.finish {i h k group act} (hs : s.MemWf) : (finish i h k group act s).MemWf :=
  .settle (by
    split
    · split
      · exact hs.updGang
      · exact .ite hs.updGang.updGang hs.updGang
    · exact hs.updGang)

theorem State.MemWf.issue {i h ctr gate body} (hgate : ∀ x t, t.MemWf → ∀ u ∈ gate x t, u.MemWf)
    (hbody : ∀ x t, t.MemWf → (body x t).MemWf) (hs : s.MemWf) : KeepsMem (issue i h ctr gate body s) := by
  unfold Machine.issue
  dsimp only
  split
  · exact .fault
  · split
    · exact .next hs.decodeTrap
    · split
      · exact .next hs
      · split
        next heq => exact .next (hgate _ _ hs _ heq)
        · exact .next ((hbody _ _ hs.updGang.perfCount.perfCount).finish)

theorem State.MemWf.perLane {x fn} (hs : s.MemWf) : (perLane x fn s).MemWf := hs.updGang
theorem State.MemWf.faultAll {x c addr} (hs : s.MemWf) : (faultAll x c addr s).MemWf := hs.perLane

theorem State.MemWf.gangOnce {body x} (hbody : ∀ x t, t.MemWf → (body x t).MemWf) (hs : s.MemWf) : (gangOnce body x s).MemWf :=
  .ite hs (hbody _ _ hs)

theorem State.MemWf.putScalar {x bits d v} (hs : s.MemWf) : (putScalar x bits d v s).MemWf := by
  unfold Machine.putScalar
  split
  · exact hs.updGang
  · exact hs

theorem State.MemWf.gangScalar {k d v} (hs : s.MemWf) : (gangScalar k d v s).MemWf := by
  unfold Machine.gangScalar
  split
  · exact hs.updGang
  · exact hs

theorem State.MemWf.waitAt {x m w} (hs : s.MemWf) : (waitAt x m w s).MemWf := hs.updGang
theorem State.MemWf.gwaitAt {x w} (hs : s.MemWf) : (gwaitAt x w s).MemWf := hs.updGang

/-! ## Register instructions -/

theorem State.MemWf.regOp {i h fn} (hs : s.MemWf) : KeepsMem (regOp i h fn s) := hs.issue noGate_kept fun _ _ ht => ht.perLane

/-! ## Fibres, gangs and crews that end or begin -/

theorem State.MemWf.logAppend {g va kind lane payload} (hs : s.MemWf) : (logAppend g va kind lane payload s).MemWf := by
  unfold Machine.logAppend
  split
  · split
    · exact .ite hs hs.setBytes.updCtx
    · exact hs
  · exact hs

theorem State.MemWf.logValue {k lane v} (hs : s.MemWf) : (logValue k lane v s).MemWf := by
  unfold Machine.logValue
  split
  · exact hs.logAppend
  · exact hs

theorem State.MemWf.logCancel {k m} (hs : s.MemWf) : (logCancel k m s).MemWf := by
  unfold Machine.logCancel
  split
  · exact hs.foldl fun _ _ ht => ht.logAppend
  · exact hs

theorem State.MemWf.cutOp {m id} (hs : s.MemWf) : (cutOp m id s).MemWf := by
  unfold Machine.cutOp
  split
  · exact hs
  · exact .ite (.ite hs hs) (.ite hs (.ite hs hs))

theorem State.MemWf.dropReplies {k m} (hs : s.MemWf) : (dropReplies k m s).MemWf := hs.foldl fun _ _ ht => ht.cutOp

theorem State.MemWf.leaveLatch {k g} (hs : s.MemWf) : (leaveLatch k g s).MemWf :=
  (hs.foldl fun _ _ ht => ht.foldl fun _ _ hu => by
    split
    · exact .ite hu hu.updGang
    · exact hu).updCore

theorem State.MemWf.wakeColl (hs : s.MemWf) : (wakeColl s).MemWf :=
  hs.foldl fun _ _ ht => ht.foldl fun _ _ hu => by
    split
    · exact hu.gangScalar.updGang
    · exact hu

theorem State.MemWf.dissolve {grp} (hs : s.MemWf) : (dissolve grp s).MemWf := .wakeColl hs

theorem State.MemWf.crewGone {k} (hs : s.MemWf) : (crewGone k s).MemWf := by
  unfold Machine.crewGone
  split
  · exact hs
  · split
    · exact hs
    · dsimp only
      split
      · exact hs
      · split
        · exact hs
        · split
          · exact .ite hs hs
          · exact hs

theorem State.MemWf.endCrew {k} (hs : s.MemWf) : (endCrew k s).MemWf := (hs.foldl fun _ _ ht => ht.dissolve).crewGone

theorem State.MemWf.magsHome {core ctx} (hs : s.MemWf) : (magsHome core ctx s).MemWf :=
  .ite hs (hs.updCore.foldl fun _ _ ht => ht.updCtx)

theorem State.MemWf.settleSaved {k} (hs : s.MemWf) : (settleSaved k s).MemWf := hs.updCrew
theorem State.MemWf.keepGone {k g} (hs : s.MemWf) : (keepGone k g s).MemWf := .ite hs hs
theorem State.MemWf.dropGone {core k} (hs : s.MemWf) : (dropGone core k s).MemWf := .ite hs hs

theorem State.MemWf.setGangs {g w} (hs : s.MemWf) : ({ s with gangs := g, walks := w } : State).MemWf := hs

theorem State.MemWf.endGang {k} (hs : s.MemWf) : (endGang k s).MemWf := by
  unfold Machine.endGang
  split
  · exact hs
  next g _ =>
    have hk : (Machine.keepGone k g (Machine.leaveLatch k g s)).MemWf := hs.leaveLatch.keepGone
    split
    · exact hs
    · dsimp only
      split
      · split
        · exact .endCrew (.magsHome (.updCrew (.setGangs (.updCore hk))))
        · exact .settleSaved (.magsHome (.updCrew (.setGangs (.updCore hk))))
      · exact .magsHome (.updCrew (.setGangs (.updCore hk)))

theorem State.MemWf.endLanes {k m} (hs : s.MemWf) : (endLanes k m s).MemWf := by
  unfold Machine.endLanes
  split
  · exact hs
  · exact hs.updCore.updGang.endGang

theorem State.MemWf.cancelLanes {k m} (hs : s.MemWf) : (cancelLanes k m s).MemWf := hs.updGang.dropReplies.endLanes

theorem State.MemWf.guardGang {k} (hs : s.MemWf) : (guardGang k s).MemWf := by
  unfold Machine.guardGang
  split
  · exact hs
  · exact .ite hs hs.perfCount.logCancel.cancelLanes

theorem State.MemWf.guardCore {core} (hs : s.MemWf) : (guardCore core s).MemWf := hs.foldl fun _ _ ht => ht.guardGang

theorem State.MemWf.takeSpan {ctx bytes} (hs : s.MemWf) : ∀ r ∈ takeSpan ctx bytes s, r.2.MemWf := by
  unfold Machine.takeSpan
  split
  · exact nofun
  · exact kept_map fun _ => hs.freshVal

theorem State.MemWf.olderWords {ctx va n} (hs : s.MemWf) : (olderWords ctx va n s).MemWf := by
  refine ⟨?_, hs.2⟩
  refine List.foldlRecOn (motive := fun m => Memory.wf m = true) _ _ hs.1 fun m hm i _ => ?_
  split
  · exact List.foldlRecOn (motive := fun m => Memory.wf m = true) _ _ hm fun m hm j _ => wf_put hm
  · exact hm

theorem State.MemWf.privSpan {ctx l w} (hs : s.MemWf) : (privSpan ctx l w s).2.MemWf := by
  unfold Machine.privSpan
  split
  · exact hs
  · split
    next heq => exact (hs.takeSpan _ heq).olderWords
    · exact hs

/-! ## Control flow and special registers -/

theorem State.MemWf.execNop {h} (hs : s.MemWf) : KeepsMem (execNop h s) := hs.issue noGate_kept fun _ _ ht => ht
theorem State.MemWf.execYield {h} (hs : s.MemWf) : KeepsMem (execYield h s) := hs.issue noGate_kept fun _ _ ht => ht
theorem State.MemWf.execBr {h off} (hs : s.MemWf) : KeepsMem (execBr h off s) := hs.issue noGate_kept fun _ _ ht => ht.perLane

theorem State.MemWf.execCallLabel {h d off} (hs : s.MemWf) : KeepsMem (execCallLabel h d off s) :=
  hs.issue noGate_kept fun _ _ ht => ht.perLane

theorem State.MemWf.execBrx {h a} (hs : s.MemWf) : KeepsMem (execBrx h a s) := hs.issue noGate_kept fun _ _ ht => ht.perLane
theorem State.MemWf.execRet {h a} (hs : s.MemWf) : KeepsMem (execRet h a s) := hs.issue noGate_kept fun _ _ ht => ht.perLane

theorem State.MemWf.execCallRegister {h d a} (hs : s.MemWf) : KeepsMem (execCallRegister h d a s) :=
  hs.issue noGate_kept fun _ _ ht => ht.perLane

theorem State.MemWf.execExit {h} (hs : s.MemWf) : KeepsMem (execExit h s) := hs.issue noGate_kept fun _ _ ht => ht.endLanes
theorem State.MemWf.execTrap {h a} (hs : s.MemWf) : KeepsMem (execTrap h a s) := hs.issue noGate_kept fun _ _ ht => ht.perLane

theorem State.MemWf.execTret {h} (hs : s.MemWf) : KeepsMem (execTret h s) :=
  hs.issue noGate_kept fun _ _ ht => ht.gangOnce fun _ _ hu => hu.updGang

theorem State.MemWf.execBrk {h} (hs : s.MemWf) : KeepsMem (execBrk h s) := hs.issue noGate_kept fun _ _ ht => ht.perLane
theorem State.MemWf.logGetsr {x idx v} (hs : s.MemWf) : (logGetsr x idx v s).MemWf := .ite (hs.foldl fun _ _ ht => ht.logValue) hs

theorem State.MemWf.execGetsr {h wide d idx} (hs : s.MemWf) : KeepsMem (execGetsr h wide d idx s) :=
  hs.issue noGate_kept fun _ _ ht => .ite (.ite ht.logGetsr.perLane ht.faultAll) ht.logGetsr.perLane

theorem State.MemWf.execSetsr {h wide a idx} (hs : s.MemWf) : KeepsMem (execSetsr h wide a idx s) :=
  hs.issue noGate_kept fun _ _ ht => by
    dsimp only
    split
    · exact ht.perLane
    · exact ht.perLane
    · exact ht.updGang
    · split
      · exact ht.updGang
      · exact ht

theorem State.MemWf.execSetsrKey {h wide a} (hs : s.MemWf) : KeepsMem (execSetsrKey h wide a s) :=
  hs.issue noGate_kept fun _ _ ht => ht.perLane

theorem State.MemWf.execSetsrPerf {h wide a k} (hs : s.MemWf) : KeepsMem (execSetsrPerf h wide a k s) :=
  hs.issue noGate_kept fun _ _ ht => by
    split
    · exact ht.faultAll
    · split
      · exact ht.updCore
      · exact ht

/-! ## Orbits -/

theorem State.MemWf.orbitOp {i h fn} (hs : s.MemWf) : KeepsMem (orbitOp i h fn s) := hs.issue noGate_kept fun _ _ ht => ht.perLane

/-! ## The memory instructions -/

theorem State.MemWf.rouse {die ls} (hs : s.MemWf) : (rouse die ls s).MemWf := hs

theorem State.MemWf.comeUp {die ls go} (Hgo : ∀ t, t.MemWf → KeepsMem (go t)) (hs : s.MemWf) : KeepsMem (comeUp die ls go s) :=
  .ite (Hgo _ hs) (.ite .fault (.next hs.rouse))

theorem State.MemWf.walkGate {space need accs x} (hs : s.MemWf) : ∀ t ∈ walkGate space need accs x s, t.MemWf := by
  unfold Machine.walkGate
  dsimp only
  split
  · exact nofun
  · exact kept_some hs.startWalks

theorem State.MemWf.raiseFaults {x recs} (hs : s.MemWf) : (raiseFaults x recs s).MemWf := hs.updGang
theorem State.MemWf.pushReq {op core ctx line act} (hs : s.MemWf) : (pushReq op core ctx line act s).MemWf := .perfCount hs.freshId
theorem State.MemWf.poisonL1 {core hit} (hs : s.MemWf) : (poisonL1 core hit s).MemWf := hs.mapReqs
theorem State.MemWf.poisonRdc {die hit} (hs : s.MemWf) : (poisonRdc die hit s).MemWf := hs.mapReqs
theorem State.MemWf.discardL1 {core hit} (hs : s.MemWf) : (discardL1 core hit s).MemWf := hs.updCore.poisonL1
theorem State.MemWf.discardRdc {die hit} (hs : s.MemWf) : (discardRdc die hit s).MemWf := .poisonRdc hs

theorem State.MemWf.mergeUo {core hit} (hs : s.MemWf) : (mergeUo core hit s).MemWf := by
  unfold Machine.mergeUo
  dsimp only
  split
  · exact hs.foldl fun _ _ ht => ht.discardL1.pushReq
  · exact (hs.foldl fun _ _ ht => ht.discardL1.pushReq).updCore

theorem State.MemWf.evictL1 {core line} (hs : s.MemWf) : (evictL1 core line s).MemWf := hs.mergeUo.updCore
theorem State.MemWf.makeRoom {core line} (hs : s.MemWf) : (makeRoom core line s).MemWf := .ite hs hs.freshVal.evictL1
theorem State.MemWf.dropRdc {die line} (hs : s.MemWf) : (dropRdc die line s).MemWf := hs
theorem State.MemWf.roomRdc {die line} (hs : s.MemWf) : (roomRdc die line s).MemWf := .ite hs (.ite hs hs.freshVal.dropRdc)

theorem State.MemWf.acquireAt {core sc} (hs : s.MemWf) : (acquireAt core sc s).MemWf := by
  unfold Machine.acquireAt
  dsimp only
  split
  · exact hs
  · exact hs
  · exact hs
  · exact hs.discardL1
  · exact hs.discardL1.discardRdc
  · exact hs.discardL1.discardRdc
  · exact hs.discardL1.discardRdc

theorem State.MemWf.relGate {sc x} (hs : s.MemWf) : ∀ t ∈ relGate sc x s, t.MemWf := by
  unfold Machine.relGate
  split
  · exact nofun
  · split
    · exact kept_some hs.mergeUo
    · split
      · exact nofun
      · exact kept_some hs

theorem State.MemWf.bothGates {a b x} (Ha : ∀ x t, t.MemWf → ∀ u ∈ a x t, u.MemWf) (Hb : ∀ x t, t.MemWf → ∀ u ∈ b x t, u.MemWf)
    (hs : s.MemWf) : ∀ t ∈ bothGates a b x s, t.MemWf := by
  unfold Machine.bothGates
  split
  next heq => exact kept_some (Ha _ _ hs _ heq)
  · exact Hb _ _ hs

theorem State.MemWf.logRead {k va bytes} (hs : s.MemWf) : (logRead k va bytes s).MemWf := by
  unfold Machine.logRead
  split
  · exact hs
  · exact .ite hs.logAppend hs

theorem State.MemWf.putSample {core bytes} (hs : s.MemWf) : (putSample core bytes s).MemWf := .ite hs.setBytes.updCore hs.perfCount

theorem State.MemWf.memSample {x code sect hit} (hs : s.MemWf) : (memSample x code sect hit s).2.MemWf :=
  .ite_snd (.ite_snd hs.updCore hs.updCore) hs

theorem State.MemWf.putSmp {o} (hs : s.MemWf) : (putSmp o s).MemWf := by
  unfold Machine.putSmp
  split
  · exact hs.putSample
  · exact hs

theorem State.MemWf.sampleNow {x code sect hit} (hs : s.MemWf) : (sampleNow x code sect hit s).MemWf := hs.memSample.putSmp

theorem State.MemWf.logOp {o} (hs : s.MemWf) : (logOp o s).MemWf := by
  unfold Machine.logOp
  dsimp only
  split
  · exact (hs.foldl fun _ _ ht => ht.logRead).foldl fun _ _ ht => ht.logValue
  · exact hs.foldl fun _ _ ht => ht.logRead

theorem State.MemWf.finishOp {id} (hs : s.MemWf) : (finishOp id s).MemWf := by
  unfold Machine.finishOp
  split
  · exact hs
  · split
    · exact hs
    · dsimp only
      split
      · exact .acquireAt (.updGang (.putSmp (.logOp hs)))
      · exact .updGang (.putSmp (.logOp hs))

theorem State.MemWf.startOp {o hold} (hs : s.MemWf) : (startOp o hold s).MemWf := .finishOp hs

theorem State.MemWf.startSampled {x code sect hit o hold} (hs : s.MemWf) : (startSampled x code sect hit o hold s).MemWf :=
  hs.memSample.startOp

theorem State.MemWf.serveLine {op core ctx bypass line secs a} (ha : a.2.MemWf) :
    (serveLine op core ctx bypass line secs a).2.MemWf := by
  unfold Machine.serveLine
  extract_lets t c hit miss u
  have hu : u.MemWf := .ite ha.mergeUo ha.mergeUo.perfCount.perfCount
  exact .ite_snd hu (.ite_snd (.ite_snd (.pushReq (.dropRdc (.freshCoin hu)))
    (.updCore (.makeRoom (.perfCount (.perfCount (.freshCoin hu)))))) (.pushReq hu))

theorem State.MemWf.serveLoad {op core ctx bypass keys} (hs : s.MemWf) : (serveLoad op core ctx bypass keys s).2.MemWf :=
  hs.foldl_snd fun _ _ ht => ht.serveLine

theorem State.MemWf.storeLine {op core ctx bs line} (hs : s.MemWf) : (storeLine op core ctx bs line s).MemWf :=
  hs.mergeUo.updCore.poisonL1.pushReq

theorem State.MemWf.storeBytes {op core ctx bs} (hs : s.MemWf) : (storeBytes op core ctx bs s).2.MemWf :=
  hs.foldl fun _ _ ht => ht.storeLine

theorem State.MemWf.atomHome {as} (hs : s.MemWf) : (atomHome as s).s.MemWf := hs.foldl_on (p := AtomRes.s) fun _ _ ht => ht.writeHome

theorem State.MemWf.atomLine {op core ctx as line} (hs : s.MemWf) : (atomLine op core ctx as line s).MemWf :=
  hs.mergeUo.discardL1.pushReq

theorem State.MemWf.perform {unit act} (hs : s.MemWf) : (perform unit act s).2.MemWf := by
  unfold Machine.perform
  split
  · exact hs
  · exact hs.writeHome
  · exact hs.atomHome
  · exact hs.writeHome
  · exact hs
  · exact hs.foldl fun _ _ ht => ht.setDesc

theorem State.MemWf.shutEarlier {r} (hs : s.MemWf) : (shutEarlier r s).MemWf := hs.mapReqs
theorem State.MemWf.performReq {r} (hs : s.MemWf) : (performReq r s).MemWf := hs.shutEarlier.freshId.perform.setStage

/-! ## Memory and free choices -/

theorem State.MemWf.relOf {str sc space need accs x} (hs : s.MemWf) : ∀ t ∈ relOf str sc space need accs x s, t.MemWf := by
  unfold Machine.relOf
  split
  · exact hs.relGate
  · exact nofun

theorem State.MemWf.pushPeers {x op reqs} (hs : s.MemWf) : (pushPeers x op reqs s).MemWf := hs.foldl fun _ _ ht => ht.freshId

theorem State.MemWf.doLoad {x code space bypass unit acq dst accs} (hs : s.MemWf) :
    (doLoad x code space bypass unit acq dst accs s).MemWf := by
  unfold Machine.doLoad
  dsimp only
  split
  · exact hs.raiseFaults.freshId.serveLoad.startSampled
  · exact hs.raiseFaults.freshId.serveLoad.startSampled
  · exact hs.raiseFaults.freshId.startSampled
  · exact hs.raiseFaults.freshId.pushPeers.startSampled

theorem State.MemWf.doStore {x code space unit back accs data} (hs : s.MemWf) :
    (doStore x code space unit back accs data s).MemWf := by
  unfold Machine.doStore
  dsimp only
  split
  · exact hs.raiseFaults.freshId.storeBytes.startSampled
  · exact hs.raiseFaults.freshId.storeBytes.startSampled
  · exact hs.raiseFaults.freshId.setSpad.startSampled
  · exact hs.raiseFaults.freshId.pushPeers.startSampled

theorem State.MemWf.atomScratch {core as} (hs : s.MemWf) : (atomScratch core as s).2.MemWf := hs.foldl_snd fun _ _ ht => ht.setSpad

theorem State.MemWf.doAtomic {x code o isCas accs} (hs : s.MemWf) : (doAtomic x code o isCas accs s).MemWf := by
  unfold Machine.doAtomic
  dsimp only
  split
  · exact (hs.raiseFaults.freshId.foldl fun _ _ ht => ht.atomLine).startSampled
  · exact (hs.raiseFaults.freshId.foldl fun _ _ ht => ht.atomLine).startSampled
  · exact hs.raiseFaults.freshId.atomScratch.startSampled
  · exact hs.raiseFaults.freshId.pushPeers.startSampled

theorem State.MemWf.execLd {h o} (hs : s.MemWf) : KeepsMem (execLd h o s) :=
  hs.issue (fun _ _ ht => ht.walkGate) fun _ _ ht => ht.doLoad

theorem State.MemWf.execSt {h o} (hs : s.MemWf) : KeepsMem (execSt h o s) :=
  hs.issue (fun _ _ ht => ht.bothGates (fun _ _ hu => hu.walkGate) fun _ _ hu => hu.relOf) fun _ _ ht => ht.doStore

theorem State.MemWf.execWld {h o} (hs : s.MemWf) : KeepsMem (execWld h o s) :=
  hs.issue (fun _ _ ht => ht.walkGate) fun _ _ ht => ht.doLoad

theorem State.MemWf.execWst {h o} (hs : s.MemWf) : KeepsMem (execWst h o s) :=
  hs.issue (fun _ _ ht => ht.walkGate) fun _ _ ht => .ite ht.doStore ht.doStore.perLane

theorem State.MemWf.execImageStore {h t map d a b} (hs : s.MemWf) : KeepsMem (execImageStore h t map d a b s) :=
  hs.issue (fun _ _ ht => ht.walkGate) fun _ _ ht => ht.raiseFaults.freshId.storeBytes.startSampled

theorem State.MemWf.execAtom {h o} (hs : s.MemWf) : KeepsMem (execAtom h o s) :=
  hs.issue (fun _ _ ht => ht.bothGates (fun _ _ hu => hu.walkGate) fun _ _ hu => hu.relOf) fun _ _ ht => ht.doAtomic

theorem State.MemWf.execCas {h o} (hs : s.MemWf) : KeepsMem (execCas h o s) :=
  hs.issue (fun _ _ ht => ht.bothGates (fun _ _ hu => hu.walkGate) fun _ _ hu => hu.relOf) fun _ _ ht => ht.doAtomic

theorem State.MemWf.contribute {core ctx op t addr v} (hs : s.MemWf) : (contribute core ctx op t addr v s).MemWf :=
  .updCore (.makeRoom (by
    split
    · exact .ite hs hs.mergeUo
    · exact hs))

theorem State.MemWf.execRed {h o} (hs : s.MemWf) : KeepsMem (execRed h o s) :=
  hs.issue (fun _ _ ht => ht.bothGates (fun _ _ hu => hu.walkGate) fun _ _ hu => hu.relOf) fun _ _ ht =>
      (ht.raiseFaults.foldl fun _ _ hu => by
    split
    · exact hu.contribute
    · exact hu).sampleNow

theorem State.MemWf.acqGate {sc x} (hs : s.MemWf) : ∀ t ∈ acqGate sc x s, t.MemWf := by
  unfold Machine.acqGate
  split
  · exact nofun
  · exact kept_some hs

theorem State.MemWf.fenceOp {kind sc x} (hs : s.MemWf) : (fenceOp kind sc x s).MemWf := by
  unfold Machine.fenceOp
  dsimp only
  split
  · exact hs.sampleNow
  · exact .waitAt (.freshId (.ite hs.sampleNow.mergeUo hs.sampleNow))

theorem State.MemWf.execFenceAcq {h sc} (hs : s.MemWf) : KeepsMem (execFenceAcq h sc s) :=
  hs.issue (fun _ _ ht => ht.acqGate) fun _ _ ht => .ite ht.sampleNow ht.sampleNow.acquireAt

theorem State.MemWf.execFenceRel {h sc} (hs : s.MemWf) : KeepsMem (execFenceRel h sc s) :=
  hs.issue noGate_kept fun _ _ ht => ht.fenceOp

theorem State.MemWf.execFenceFull {h sc} (hs : s.MemWf) : KeepsMem (execFenceFull h sc s) :=
  hs.issue noGate_kept fun _ _ ht => ht.fenceOp

theorem State.MemWf.execFenceComplete {k id} (hs : s.MemWf) : KeepsMem (execFenceComplete k id s) := by
  unfold Machine.execFenceComplete
  split
  · exact .fault
  · split
    · exact .fault
    · exact .ite .fault (.next (.updGang (.ite hs hs.acquireAt)))

theorem State.MemWf.keepSome {ls} (hs : s.MemWf) : (keepSome ls s).2.MemWf := by
  induction ls generalizing s with
  | nil => exact hs
  | cons l ls ih => exact ih hs.freshCoin

theorem State.MemWf.prefOp {x id ls parts r} (hs : s.MemWf) : (prefOp x id ls parts r s).MemWf := hs.startSampled

theorem State.MemWf.execPrefL1 {h a b} (hs : s.MemWf) : KeepsMem (execPrefL1 h a b s) :=
  .issue (fun _ _ ht => .walkGate ht) (fun _ _ ht => .prefOp (.foldl_snd (.freshId (.keepSome ht)) fun _ _ hu => .serveLine hu)) hs

theorem State.MemWf.execPrefL2 {h a b} (hs : s.MemWf) : KeepsMem (execPrefL2 h a b s) :=
  hs.issue (fun _ _ ht => ht.walkGate) fun _ _ ht => (ht.keepSome.freshId.foldl fun _ _ hu => hu.pushReq).prefOp

theorem State.MemWf.execInvalL1 {h a b} (hs : s.MemWf) : KeepsMem (execInvalL1 h a b s) :=
  hs.issue (fun _ _ ht => ht.walkGate) fun _ _ ht => ht.mergeUo.discardL1.sampleNow

theorem State.MemWf.execInvalAll {h} (hs : s.MemWf) : KeepsMem (execInvalAll h s) :=
  hs.issue noGate_kept fun _ _ ht => .ite ht.sampleNow ht.sampleNow.mergeUo.discardL1

theorem State.MemWf.execInvalRdc {h a b} (hs : s.MemWf) : KeepsMem (execInvalRdc h a b s) :=
  hs.issue (fun _ _ ht => ht.walkGate) fun _ _ ht => ht.mergeUo.discardL1.discardRdc.sampleNow

theorem State.MemWf.flushOp {x hit} (hs : s.MemWf) : (flushOp x hit s).MemWf := hs.mergeUo.freshId.startSampled

theorem State.MemWf.execFlush {h a b} (hs : s.MemWf) : KeepsMem (execFlush h a b s) :=
  hs.issue (fun _ _ ht => ht.walkGate) fun _ _ ht => ht.flushOp

theorem State.MemWf.execFlushAll {h} (hs : s.MemWf) : KeepsMem (execFlushAll h s) := hs.issue noGate_kept fun _ _ ht => ht.flushOp
theorem State.MemWf.setSpadDesc {core sector d} (hs : s.MemWf) : (setSpadDesc core sector d s).MemWf := hs.updCore

theorem State.MemWf.execLdesc {h o} (hs : s.MemWf) : KeepsMem (execLdesc h o s) :=
  hs.issue (fun _ _ ht => ht.walkGate) fun _ _ ht => by
    dsimp only
    split
    · exact (ht.raiseFaults.freshId.foldl fun _ _ hu => hu.pushReq).startSampled
    · exact (ht.raiseFaults.freshId.foldl fun _ _ hu => hu.pushReq).startSampled
    · exact ht.raiseFaults.freshId.startSampled
    · exact ht.raiseFaults.freshId.pushPeers.startSampled

theorem State.MemWf.writeDescs {op core ctx line ds} (hs : s.MemWf) : (writeDescs op core ctx line ds s).MemWf :=
  hs.updCore.poisonL1.pushReq

theorem State.MemWf.execSdesc {h o} (hs : s.MemWf) : KeepsMem (execSdesc h o s) :=
  hs.issue (fun _ _ ht => ht.walkGate) fun _ _ ht => by
    dsimp only
    split
    · exact (ht.raiseFaults.freshId.foldl fun _ _ hu => hu.writeDescs).startSampled
    · exact (ht.raiseFaults.freshId.foldl fun _ _ hu => hu.writeDescs).startSampled
    · exact (ht.raiseFaults.freshId.foldl fun _ _ hu => hu.setSpadDesc).startSampled
    · exact ht.raiseFaults.freshId.pushPeers.startSampled

theorem State.MemWf.setMagazine {core ctx cls m} (hs : s.MemWf) : (setMagazine core ctx cls m s).MemWf := hs.updCore
theorem State.MemWf.updHeap {ctx f} (hs : s.MemWf) : (updHeap ctx f s).MemWf := hs.updCtx

theorem State.MemWf.pickBlocks {n bs} (hs : s.MemWf) : (pickBlocks n bs s).2.MemWf := by
  induction n generalizing bs s with
  | zero => exact hs
  | succ n ih => exact .ite_snd hs (ih hs.freshVal)

theorem State.MemWf.refillMag {core ctx cls} (hs : s.MemWf) : (refillMag core ctx cls s).MemWf := by
  unfold Machine.refillMag
  dsimp only
  split
  · exact hs.pickBlocks.updHeap.setMagazine
  · exact .ite hs hs.updHeap.setMagazine

theorem State.MemWf.takeBlock {core ctx cls b rest} (hs : s.MemWf) : (takeBlock core ctx cls b rest s).MemWf :=
  hs.setMagazine.updHeap.discardL1.discardRdc.olderWords

theorem State.MemWf.gotAddr {op lane v} (hs : s.MemWf) : (gotAddr op lane v s).MemWf := hs.updOp
theorem State.MemWf.allocFault {k op lane sub addr} (hs : s.MemWf) : (allocFault k op lane sub addr s).MemWf := hs.updOp.updGang

theorem State.MemWf.serveAlloc {core r} (hs : s.MemWf) : (serveAlloc core r s).MemWf := by
  unfold Machine.serveAlloc
  split
  · exact hs.takeBlock.gotAddr
  · exact .ite (.ite hs.gotAddr hs.allocFault) hs.updCore

theorem State.MemWf.allocDone {k op} (hs : s.MemWf) : (allocDone k op s).MemWf := by
  unfold Machine.allocDone
  split
  · exact .ite hs.finishOp.updGang hs
  · exact hs.updGang

theorem State.MemWf.dallocOp {z d a x} (hs : s.MemWf) : (dallocOp z d a x s).MemWf :=
  ((hs.raiseFaults.freshId.startSampled.waitAt.foldl fun _ _ ht => ht.serveAlloc).updOp).allocDone

theorem State.MemWf.execDalloc {h d a} (hs : s.MemWf) : KeepsMem (execDalloc h d a s) := hs.issue noGate_kept fun _ _ ht => ht.dallocOp

theorem State.MemWf.execDallocZ {h d a} (hs : s.MemWf) : KeepsMem (execDallocZ h d a s) :=
  hs.issue noGate_kept fun _ _ ht => ht.dallocOp

theorem State.MemWf.execMagazineRefill {core ctx cls} (hs : s.MemWf) : KeepsMem (execMagazineRefill core ctx cls s) := by
  unfold Machine.execMagazineRefill
  dsimp only
  split
  · exact .fault
  · exact .next (.magsHome (.foldl (.foldl (.updCore (.ite hs.refillMag hs)) fun _ _ ht => ht.serveAlloc) fun _ _ ht => ht.allocDone))

theorem State.MemWf.freeBlock {core ctx cls a} (hs : s.MemWf) : (freeBlock core ctx cls a s).MemWf :=
  .ite hs.updHeap.setMagazine hs.updHeap.updHeap.setMagazine

theorem State.MemWf.execDfree {h a} (hs : s.MemWf) : KeepsMem (execDfree h a s) :=
  hs.issue (fun _ _ ht => ht.relGate) fun _ _ ht => (ht.foldl fun _ _ hu => by
    split
    · exact hu
    · dsimp only
      split
      · exact hu
      · split
        · exact hu.freeBlock
        · exact hu.raiseFaults).sampleNow

/-! ## The memory system -/

theorem State.MemWf.moveReq {r st} (hs : s.MemWf) : (moveReq r st s).MemWf := hs
theorem State.MemWf.noteSmp {r f} (hs : s.MemWf) : (noteSmp r f s).MemWf := hs.updOp

theorem State.MemWf.execMeshRequestArrival {id} (hs : s.MemWf) : KeepsMem (execMeshRequestArrival id s) := by
  unfold Machine.execMeshRequestArrival
  split
  · exact .fault
  · exact .ite .fault (.next hs.noteSmp.moveReq)

theorem State.MemWf.drainRouter {die slice} (hs : s.MemWf) : (drainRouter die slice s).MemWf := hs.foldl fun _ _ ht => ht.moveReq
theorem State.MemWf.startFill {r} (hs : s.MemWf) : (startFill r s).MemWf := .moveReq hs

theorem State.MemWf.lookupHead {r} (hs : s.MemWf) : (lookupHead r s).MemWf := by
  unfold Machine.lookupHead
  dsimp only
  split
  · exact hs.noteSmp.noteSmp.moveReq.perfCount
  · split
    · split
      · exact hs.noteSmp.performReq
      · split
        · exact hs.noteSmp.freshCoin.startFill
        · exact hs.noteSmp.freshCoin.performReq
    · exact hs.noteSmp.startFill

theorem State.MemWf.execL2Lookup {die slice} (hs : s.MemWf) : KeepsMem (execL2Lookup die slice s) := by
  unfold Machine.execL2Lookup
  split
  · exact .fault
  · exact .ite (.next hs.lookupHead.drainRouter) .fault

theorem State.MemWf.missWords {r w a} (ha : a.s.MemWf) : (missWords r w a).s.MemWf := by
  unfold Machine.missWords
  dsimp only
  generalize (if w.r.core = r.core then [] else partialWrite w.r) = ws
  refine State.MemWf.foldl_on (p := Late.s) ha fun z _ hz => ?_
  split
  · exact hz
  · split
    · exact hz.freshCoin
    · exact hz.freshCoin

theorem State.MemWf.raceLoad {r before bytes} (hs : s.MemWf) : (raceLoad r before bytes s).2.MemWf :=
  show (List.foldl _ _ _ : Late).s.MemWf from .foldl_on (p := Late.s) hs fun _ _ hz => hz.missWords

theorem State.MemWf.noteParked {own r} (hs : s.MemWf) : (noteParked own r s).MemWf := hs.noteSmp

theorem State.MemWf.replayParked {rs before} (hs : s.MemWf) : (replayParked rs before s).MemWf := by
  induction rs generalizing before s with
  | nil => exact hs
  | cons r rs ih =>
    have hn : (Machine.perform (reqUnit (Machine.freshId (Machine.shutEarlier r (Machine.noteParked before.isEmpty r s))).2 r) r.act
        (Machine.freshId (Machine.shutEarlier r (Machine.noteParked before.isEmpty r s))).2).2.MemWf :=
      hs.noteParked.shutEarlier.freshId.perform
    exact ih (.setStage (.ite_snd hn.raceLoad hn))

theorem State.MemWf.enterL2 {line} (hs : s.MemWf) : (enterL2 line s).MemWf := .ite hs hs.freshVal

theorem State.MemWf.execHbmFillComplete {line} (hs : s.MemWf) : KeepsMem (execHbmFillComplete line s) :=
  .ite (.next (.replayParked (.enterL2 hs))) .fault

theorem State.MemWf.setRdc {r d} (hs : s.MemWf) : ({ s with rdc := r, rdcDesc := d } : State).MemWf := hs

theorem State.MemWf.execCacheFillArrival {id} (hs : s.MemWf) : KeepsMem (execCacheFillArrival id s) := by
  unfold Machine.execCacheFillArrival
  split
  · exact .fault
  next r _ =>
    have hm : (Machine.makeRoom r.core r.line s).MemWf := hs.makeRoom
    split
    · refine .ite .fault (.next (.setStage (.ite (.setRdc (.ite (.roomRdc ?_) ?_)) (.ite (.roomRdc ?_) ?_))))
      all_goals exact .ite hm.updCore hs
    · exact .fault

theorem State.MemWf.updateRdc {die bs ds} (hs : s.MemWf) : (updateRdc die bs ds s).MemWf := .ite hs (.poisonRdc hs)

theorem State.MemWf.closeReq {r a} (hs : s.MemWf) : (closeReq r a s).MemWf :=
  .foldl (.updOp (.ite (.poisonRdc (.updateRdc hs)) hs)) fun _ _ ht => ht.updOp.finishOp

theorem State.MemWf.execLoadReply {id} (hs : s.MemWf) : KeepsMem (execLoadReply id s) := by
  unfold Machine.execLoadReply
  split
  · exact .next (.finishOp (.updOp hs))
  · split
    · exact .fault
    · split
      · exact .ite (.next hs.closeReq) .fault
      · exact .fault

theorem State.MemWf.execStoreAcknowledgement {id} (hs : s.MemWf) : KeepsMem (execStoreAcknowledgement id s) := by
  unfold Machine.execStoreAcknowledgement
  split
  · exact .fault
  · split
    · exact .ite (.next hs.closeReq) .fault
    · exact .fault

theorem State.MemWf.execL1Eviction {core line} (hs : s.MemWf) : KeepsMem (execL1Eviction core line s) := .ite (.next hs.evictL1) .fault
theorem State.MemWf.supersede {die bs ds} (hs : s.MemWf) : (supersede die bs ds s).MemWf := hs.mapReqs

theorem State.MemWf.engineWrite {die bs ds} (hs : s.MemWf) : (engineWrite die bs ds s).MemWf :=
  ((hs.writeHome.foldl fun _ _ ht => ht.setDesc).supersede).updateRdc

theorem State.MemWf.peerPerform {p} (hs : s.MemWf) : (peerPerform p s).s.MemWf := by
  unfold Machine.peerPerform
  dsimp only
  split
  · exact hs
  · exact hs.setSpad
  · exact hs.setSpad
  · exact hs
  · exact hs.setSpadDesc

theorem State.MemWf.peerFault {p} (hs : s.MemWf) : (peerFault p s).MemWf := hs.updOp.updGang

theorem State.MemWf.execPeerAccessArrival {id} (hs : s.MemWf) : KeepsMem (execPeerAccessArrival id s) := by
  unfold Machine.execPeerAccessArrival
  split
  · exact .fault
  · split
    · exact .fault
    · exact .next (by
        split
        · exact .ite (.updOp (.peerPerform hs)) (.peerFault hs)
        · exact .settle (.finishOp (.updOp (.ite (.updOp (.peerPerform hs)) (.peerFault hs)))))

theorem State.MemWf.execPageWalkComplete {id} (hs : s.MemWf) : KeepsMem (execPageWalkComplete id s) := by
  unfold Machine.execPageWalkComplete
  split
  · exact .fault
  · split
    · exact .fault
    · dsimp only
      split
      · split
        · exact .next (.updGang hs)
        · exact .next (.updCore (.freshVal (.freshVal hs)))
      · exact .next (.updGang hs)

/-! ## Votes, shuffles, barriers and regions -/

theorem State.MemWf.voteOp {i h a fn} (hs : s.MemWf) : KeepsMem (voteOp i h a fn s) := hs.issue noGate_kept fun _ _ ht => ht.perLane

theorem State.MemWf.execVoteUni {h wide d a} (hs : s.MemWf) : KeepsMem (execVoteUni h wide d a s) :=
  hs.issue noGate_kept fun _ _ ht => ht.perLane

theorem State.MemWf.execShfl {h wide mode d a b c} (hs : s.MemWf) : KeepsMem (execShfl h wide mode d a b c s) :=
  hs.issue noGate_kept fun _ _ ht => ht.perLane

theorem State.MemWf.execGred {h o} (hs : s.MemWf) : KeepsMem (execGred h o s) := hs.issue noGate_kept fun _ _ ht => ht.perLane

theorem State.MemWf.execGscan {h o excl} (hs : s.MemWf) : KeepsMem (execGscan h o excl s) :=
  hs.issue noGate_kept fun _ _ ht => ht.perLane

theorem State.MemWf.execMatchAny {h wide d a} (hs : s.MemWf) : KeepsMem (execMatchAny h wide d a s) :=
  hs.issue noGate_kept fun _ _ ht => ht.perLane

theorem State.MemWf.execMatchAll {h wide d a c} (hs : s.MemWf) : KeepsMem (execMatchAll h wide d a c s) :=
  hs.issue noGate_kept fun _ _ ht => ht.perLane

theorem State.MemWf.updBar {ens owner idx f} (hs : s.MemWf) : (updBar ens owner idx f s).MemWf := .ite hs hs.updCrew

theorem State.MemWf.barOp {ens sync a b x} (hs : s.MemWf) : (barOp ens sync a b x s).MemWf :=
  .foldl (.freshId (.ite hs.raiseFaults.mergeUo hs.raiseFaults)) fun _ _ ht => by
    dsimp only
    split
    · exact ht
    · exact .ite ht.updBar.waitAt ht.updBar

theorem State.MemWf.execBarSync {h a b} (hs : s.MemWf) : KeepsMem (execBarSync h a b s) := hs.issue noGate_kept fun _ _ ht => ht.barOp
theorem State.MemWf.execBarArv {h a b} (hs : s.MemWf) : KeepsMem (execBarArv h a b s) := hs.issue noGate_kept fun _ _ ht => ht.barOp
theorem State.MemWf.execBarEsync {h b} (hs : s.MemWf) : KeepsMem (execBarEsync h b s) := hs.issue noGate_kept fun _ _ ht => ht.barOp
theorem State.MemWf.execBarEarv {h b} (hs : s.MemWf) : KeepsMem (execBarEarv h b s) := hs.issue noGate_kept fun _ _ ht => ht.barOp
theorem State.MemWf.execBarRgn {h d} (hs : s.MemWf) : KeepsMem (execBarRgn h d s) := hs.issue noGate_kept fun _ _ ht => ht.perLane

theorem State.MemWf.execBarrierPhaseComplete {ens owner idx} (hs : s.MemWf) : KeepsMem (execBarrierPhaseComplete ens owner idx s) := by
  unfold Machine.execBarrierPhaseComplete
  split
  · exact .fault
  · split
    · exact .fault
    · exact .next (hs.updBar.foldl fun _ _ ht => .updGang (.ite ht.acquireAt ht))

theorem State.MemWf.dropFlights {k held} (hs : s.MemWf) : (dropFlights k held s).MemWf := hs
theorem State.MemWf.setHeld {k n} (hs : s.MemWf) : (setHeld k n s).MemWf := hs.dropFlights.updGang

theorem State.MemWf.execRacq {h k} (hs : s.MemWf) : KeepsMem (execRacq h k s) :=
  hs.issue noGate_kept fun _ _ ht => ht.gangOnce fun _ _ hu => .ite hu (.ite hu.faultAll hu.waitAt.updCore)

theorem State.MemWf.execRacqGrant {core} (hs : s.MemWf) : KeepsMem (execRacqGrant core s) := by
  unfold Machine.execRacqGrant
  split
  · exact .fault
  · split
    · exact .fault
    · dsimp only
      split
      · exact .next hs.updCore
      · exact .next (.updGang (.ite hs.updCore hs.updCore.setHeld))

theorem State.MemWf.execRegdeadlockDetect {core} (hs : s.MemWf) : KeepsMem (execRegdeadlockDetect core s) := by
  unfold Machine.execRegdeadlockDetect
  split
  · exact .fault
  · exact .ite .fault (.next hs.updCore.updGang.settle)

theorem State.MemWf.execRrel {h k} (hs : s.MemWf) : KeepsMem (execRrel h k s) :=
  hs.issue noGate_kept fun _ _ ht => ht.gangOnce fun _ _ hu => .ite hu (.ite hu.perLane hu.setHeld)

theorem State.MemWf.dropWindow {k} (hs : s.MemWf) : (dropWindow k s).MemWf := hs.updGang
theorem State.MemWf.execPopen {h} (hs : s.MemWf) : KeepsMem (execPopen h s) := hs.issue noGate_kept fun _ _ ht => ht.dropWindow.perLane

theorem State.MemWf.execAccept {h d a} (hs : s.MemWf) : KeepsMem (execAccept h d a s) :=
  hs.issue noGate_kept fun _ _ ht => ht.dropWindow.perLane

theorem State.MemWf.execPclose {h} (hs : s.MemWf) : KeepsMem (execPclose h s) :=
  hs.issue noGate_kept fun _ _ ht => ht.dropWindow.perLane

/-! ## Tasks and incumbents -/

theorem State.MemWf.enterPool {core r} (hs : s.MemWf) : (enterPool core r s).MemWf := hs.freshId.updCore
theorem State.MemWf.rebin {core} (hs : s.MemWf) : (rebin core s).MemWf := hs.updCore
theorem State.MemWf.purgePool {core} (hs : s.MemWf) : (purgePool core s).MemWf := hs.updCore.rebin
theorem State.MemWf.updSeg {ctx core f} (hs : s.MemWf) : (updSeg ctx core f s).MemWf := hs.updCtx

theorem State.MemWf.overflowRec {core r} (hs : s.MemWf) : (overflowRec core r s).MemWf := by
  unfold Machine.overflowRec
  split
  · exact hs
  · exact hs.setBytes.updSeg

theorem State.MemWf.dropRec {core r} (hs : s.MemWf) : (dropRec core r s).MemWf := hs.updCore

theorem State.MemWf.spillPool {ctx core} (hs : s.MemWf) : (spillPool ctx core s).MemWf :=
  (hs.foldl fun _ _ ht => .ite ht.dropRec.overflowRec ht).rebin

theorem State.MemWf.spillVacated {core} (hs : s.MemWf) : (spillVacated core s).MemWf := hs.foldl fun _ _ ht => ht.spillPool
theorem State.MemWf.purgePools (hs : s.MemWf) : (purgePools s).MemWf := hs.foldl fun _ _ ht => .ite ht.purgePool ht

theorem State.MemWf.spawnOne {x o i f t} (hs : s.MemWf) : (spawnOne x o i f t s).MemWf := by
  unfold Machine.spawnOne
  dsimp only
  split
  · exact hs.enterPool.updCore.perLane
  · exact .ite hs.overflowRec.updCore.perLane hs.raiseFaults

theorem State.MemWf.spawnGate {o x} (hs : s.MemWf) : ∀ t ∈ spawnGate o x s, t.MemWf := by
  unfold Machine.spawnGate
  split
  · exact nofun
  · exact hs.relGate
  · exact hs.relGate

theorem State.MemWf.spawnOp {o target x} (hs : s.MemWf) : (spawnOp o target x s).MemWf :=
  hs.foldl fun _ _ ht => by
    split
    · exact ht
    · split
      · exact ht.raiseFaults
      · exact ht.spawnOne

theorem State.MemWf.execSpawnLabel {h o off} (hs : s.MemWf) : KeepsMem (execSpawnLabel h o off s) :=
  hs.issue (fun _ _ ht => ht.spawnGate) fun _ _ ht => ht.spawnOp

theorem State.MemWf.execSpawnRegister {h o c} (hs : s.MemWf) : KeepsMem (execSpawnRegister h o c s) :=
  hs.issue (fun _ _ ht => ht.spawnGate) fun _ _ ht => ht.spawnOp

theorem State.MemWf.childAcquire {core rs} (hs : s.MemWf) : (childAcquire core rs s).MemWf := .ite hs.acquireAt (.ite hs.acquireAt hs)

theorem State.MemWf.placeBinGang {core key l rs slot off} (hs : s.MemWf) : (placeBinGang core key l rs slot off s).MemWf :=
  .childAcquire (.privSpan hs)

theorem State.MemWf.binChoices {core} (hs : s.MemWf) : (binChoices core s).2.MemWf :=
  hs.foldl_snd fun _ _ ht => .ite_snd ht ht.freshCoin

theorem State.MemWf.formFrom {core b} (hs : s.MemWf) : (formFrom core b s).MemWf := by
  unfold Machine.formFrom
  dsimp only
  split
  · exact hs.updCore.rebin
  · split
    · exact hs.updCore.rebin.placeBinGang
    · exact hs

theorem State.MemWf.execBinTimerExpiry {core bin} (hs : s.MemWf) : KeepsMem (execBinTimerExpiry core bin s) := by
  unfold Machine.execBinTimerExpiry
  split
  · exact .fault
  · exact .ite (.next hs.formFrom) .fault

theorem State.MemWf.execSpawnGangPlacement {core} (hs : s.MemWf) : KeepsMem (execSpawnGangPlacement core s) := by
  unfold Machine.execSpawnGangPlacement
  dsimp only
  split
  · exact .ite .fault (.next hs.binChoices.formFrom)
  · exact .fault

theorem State.MemWf.execOverflowReturn {core ctx seg} (hs : s.MemWf) : KeepsMem (execOverflowReturn core ctx seg s) := by
  unfold Machine.execOverflowReturn
  split
  · exact .fault
  · split
    · exact .fault
    · exact .ite .fault (.next (.ite hs.updSeg hs.updSeg.enterPool))

theorem State.MemWf.execStealRequest {core ctx} (hs : s.MemWf) : KeepsMem (execStealRequest core ctx s) :=
  .ite .fault (.next (.updCore hs.freshId))

theorem State.MemWf.execStealReply {id} (hs : s.MemWf) : KeepsMem (execStealReply id s) := by
  unfold Machine.execStealReply
  split
  next victim _ _ =>
    have hp : (Machine.purgePool victim s).MemWf := hs.purgePool
    split
    · exact .fault
    · dsimp only
      split
      · exact .next hp
      · exact .next (.rebin hp)
  · exact .fault

theorem State.MemWf.execStealRefusalArrival {id} (hs : s.MemWf) : KeepsMem (execStealRefusalArrival id s) := by
  unfold Machine.execStealRefusalArrival
  split
  · exact .ite .fault (.next (.updCore hs))
  · exact .fault

theorem State.MemWf.execStolenRecordsArrival {id} (hs : s.MemWf) : KeepsMem (execStolenRecordsArrival id s) := by
  unfold Machine.execStolenRecordsArrival
  split
  · split
    · exact .fault
    · exact .next (.spillVacated (.foldl (.updCore hs) fun _ _ ht => .ite ht ht.enterPool))
  · exact .fault

theorem State.MemWf.updHome {ctx k i} (hs : s.MemWf) : (updHome ctx k i s).MemWf := hs.updCtx
theorem State.MemWf.broadcast {ctx k i init} (hs : s.MemWf) : (broadcast ctx k i init s).MemWf := hs.freshId
theorem State.MemWf.commitKey {ctx k key} (hs : s.MemWf) : (commitKey ctx k key s).2.MemWf := .ite_snd hs hs.updHome.broadcast
theorem State.MemWf.toHub {core ctx k act op} (hs : s.MemWf) : (toHub core ctx k act op s).MemWf := hs.freshId

theorem State.MemWf.execIncu {h rel d a k} (hs : s.MemWf) : KeepsMem (execIncu h rel d a k s) := by
  unfold Machine.execIncu
  dsimp only
  refine hs.issue (fun _ _ ht => ?_) fun _ _ ht => ?_
  · split
    · exact ht.relGate
    · exact nofun
  · exact .ite ht (.ite ht.toHub ht.freshId.startOp.toHub)

theorem State.MemWf.incReply {op vals} (hs : s.MemWf) : (incReply op vals s).MemWf := by
  unfold Machine.incReply
  split
  · exact hs
  · exact hs.updOp.finishOp

theorem State.MemWf.execIncumbentCommit {msg} (hs : s.MemWf) : KeepsMem (execIncumbentCommit msg s) := by
  unfold Machine.execIncumbentCommit
  split
  · exact .fault
  · split
    · exact .fault
    · dsimp only
      split
      · exact .next (.incReply hs)
      · exact .next (.incReply (.foldl_snd hs fun _ _ ht => ht.commitKey))

theorem State.MemWf.arriveBcast {core id b} (hs : s.MemWf) : (arriveBcast core id b s).MemWf := .purgePool (.guardCore (.updCore hs))

theorem State.MemWf.execIncumbentBroadcastArrival {core bcast} (hs : s.MemWf) :
    KeepsMem (execIncumbentBroadcastArrival core bcast s) := by
  unfold Machine.execIncumbentBroadcastArrival
  split
  · exact .fault
  · exact .ite (.next hs.arriveBcast) .fault

theorem State.MemWf.execSystemIncumbentForward {ctx k key} (hs : s.MemWf) : KeepsMem (execSystemIncumbentForward ctx k key s) := by
  unfold Machine.execSystemIncumbentForward
  split
  · exact .fault
  · exact .ite (.next hs.commitKey) .fault

theorem State.MemWf.execIncrd {h d k} (hs : s.MemWf) : KeepsMem (execIncrd h d k s) :=
  hs.issue noGate_kept fun _ _ ht => (ht.foldl fun _ _ hu => hu.logValue).perLane

theorem State.MemWf.execIncrdHome {h acq d k} (hs : s.MemWf) : KeepsMem (execIncrdHome h acq d k s) :=
  hs.issue noGate_kept fun _ _ ht => ht.gangOnce fun _ _ hu => hu.freshId.startOp.toHub

theorem State.MemWf.execBnd {h a k} (hs : s.MemWf) : KeepsMem (execBnd h a k s) := hs.issue noGate_kept fun _ _ ht => ht.perLane
theorem State.MemWf.execDefer {h n} (hs : s.MemWf) : KeepsMem (execDefer h n s) := hs.issue noGate_kept fun _ _ ht => ht.perLane

/-! ## Restoration -/

theorem State.MemWf.giveEngine {core ctx} (hs : s.MemWf) : (giveEngine core ctx s).MemWf := hs.updCore
theorem State.MemWf.asScanned {ck} (hs : s.MemWf) : (asScanned ck s).MemWf := hs.updCrew
theorem State.MemWf.scanIn {c core} (hs : s.MemWf) : (scanIn c core s).MemWf := hs.updCore.updCore
theorem State.MemWf.moveSubs {ck old core} (hs : s.MemWf) : (moveSubs ck old core s).MemWf := hs.updCore.updCore
theorem State.MemWf.moveEngine {ck c core k} (hs : s.MemWf) : (moveEngine ck c core k s).MemWf := hs.updCore.giveEngine.updCore
theorem State.MemWf.moveLog {ck c core} (hs : s.MemWf) : (moveLog ck c core s).MemWf := hs

theorem State.MemWf.racqAgain {k core} (hs : s.MemWf) : (racqAgain k core s).MemWf := by
  unfold Machine.racqAgain
  split
  · exact hs
  · exact hs.foldl fun _ _ ht => ht.updCore

theorem State.MemWf.resumeOps {core ctx} (hs : s.MemWf) : (resumeOps core ctx s).MemWf := hs.updCore
theorem State.MemWf.liftMark {core ctx} (hs : s.MemWf) : (liftMark core ctx s).MemWf := hs.updCore.resumeOps

theorem State.MemWf.restoreOne {ck core} (hs : s.MemWf) : ∀ t ∈ restoreOne ck core s, t.MemWf := by
  unfold Machine.restoreOne
  split
  · exact nofun
  next c _ =>
    split
    · exact nofun
    · split
      · exact nofun
      · refine kept_some (.foldl (.foldl
            (.acquireAt (.liftMark (.foldl (.updCrew ?_) fun _ _ ht => ht.updGang))) fun _ _ ht => ht.racqAgain)
          fun _ _ ht => ht.guardGang)
        have hm : (Machine.moveSubs ck c.core core (Machine.scanIn c core s)).MemWf := hs.scanIn.moveSubs
        have hl : (if core = c.core then Machine.moveSubs ck c.core core (Machine.scanIn c core s)
            else Machine.moveLog ck c core (Machine.moveSubs ck c.core core (Machine.scanIn c core s))).MemWf := .ite hm hm.moveLog
        exact .ite hl (.ite hl.giveEngine hl.moveEngine)

theorem State.MemWf.restoreSet {ck core} (hs : s.MemWf) : ∀ t ∈ restoreSet s ck core, t.MemWf := by
  unfold Machine.restoreSet
  split
  · exact nofun
  · split
    · exact nofun
    · split
      · exact hs.restoreOne
      · split
        · exact kept_foldlM hs fun _ _ ht => by
            split
            · exact ht.restoreOne
            · exact nofun
        · exact nofun

/-! ## Launches, tickets and crews -/

theorem State.MemWf.writeVirt {ctx va bs} (hs : s.MemWf) : (writeVirt ctx va bs s).MemWf := hs.writeHome
theorem State.MemWf.initInc {ctx x} (hs : s.MemWf) : (initInc ctx s x).MemWf := hs.updHome.broadcast

theorem State.MemWf.acceptLaunch {ctx ltag a byLaunch queue after} (hs : s.MemWf) :
    (acceptLaunch ctx ltag a byLaunch queue after s).MemWf := by
  unfold Machine.acceptLaunch
  dsimp only
  split
  · exact hs.freshId.updCtx.foldl fun _ _ ht => ht.initInc
  · exact (hs.freshId.updCtx.foldl fun _ _ ht => ht.initInc).writeVirt

theorem State.MemWf.submit {ctx p} (hs : s.MemWf) : (submit ctx p s).2.MemWf := by
  unfold Machine.submit
  split
  · split
    · exact hs
    · split
      · exact hs
      · exact hs.acceptLaunch
  · exact hs

theorem State.MemWf.launchGate {a x} (hs : s.MemWf) : ∀ t ∈ launchGate a x s, t.MemWf := by
  unfold Machine.launchGate
  dsimp only
  split
  · exact nofun
  · exact kept_some hs.rouse.rouse

theorem State.MemWf.execLaunch {h d a} (hs : s.MemWf) : KeepsMem (execLaunch h d a s) :=
  .issue (fun _ _ ht => .bothGates (fun _ _ hu => .walkGate hu)
      (fun _ _ hu => .bothGates (fun _ _ hv => .launchGate hv) (fun _ _ hv => .relOf hv) hu) ht) (fun _ _ ht => by
    dsimp only
    split
    · exact .startOp (.foldl_snd (.freshId (.raiseFaults ht)) fun _ _ hu => .submit hu)
    · exact .startOp (.foldl_snd (.freshId (.raiseFaults ht)) fun _ _ hu => .submit hu)) hs

theorem State.MemWf.execSignal {h sc a b} (hs : s.MemWf) : KeepsMem (execSignal h sc a b s) :=
  hs.issue (fun _ _ ht => ht.bothGates (fun _ _ hu => hu.walkGate) fun _ _ hu => hu.relOf) fun _ _ ht =>
      ht.raiseFaults.freshId.storeBytes.startOp

theorem State.MemWf.execSignalAdd {h sc a b} (hs : s.MemWf) : KeepsMem (execSignalAdd h sc a b s) :=
  hs.issue (fun _ _ ht => ht.bothGates (fun _ _ hu => hu.walkGate) fun _ _ hu => hu.relOf) fun _ _ ht =>
      (ht.raiseFaults.freshId.foldl fun _ _ hu => hu.atomLine).startOp

theorem State.MemWf.clearRegion {core base size} (hs : s.MemWf) : (clearRegion core base size s).MemWf := hs.updCore

theorem State.MemWf.placeGang {ctx ltag ck core l pts c j place} (hs : s.MemWf) :
    (placeGang ctx ltag ck core l pts c j place s).2.MemWf :=
  hs.freshId.privSpan

theorem State.MemWf.placeCrew {ctx ltag core l pts c ens} (hs : s.MemWf) : ∀ r ∈ placeCrew ctx ltag core l pts c ens s, r.2.MemWf := by
  unfold Machine.placeCrew
  dsimp only
  split
  · exact nofun
  · split
    · exact nofun
    · exact kept_some (.foldl_snd (.clearRegion (.freshId hs)) fun _ _ ht => .placeGang ht)

theorem State.MemWf.placeEns {ctx ltag l pts cores ek cs} (hs : s.MemWf) :
    ∀ r ∈ placeEns ctx ltag l pts cores ek cs s, r.2.MemWf := by
  induction cs generalizing s with
  | nil => exact kept_some hs
  | cons c cs ih =>
    unfold Machine.placeEns
    split
    · exact nofun
    next heq =>
      obtain ⟨_, -, hp⟩ := List.exists_of_findSome?_eq_some heq
      exact kept_map_of (ih (hs.placeCrew _ hp)) fun _ hr => hr

theorem State.MemWf.placeTicket {ctx ltag core l} (hs : s.MemWf) : ∀ t ∈ placeTicket ctx ltag core l s, t.MemWf := by
  unfold Machine.placeTicket
  dsimp only
  split
  · exact nofun
  · split
    · exact kept_map_of hs.placeCrew fun _ hr => hr
    · exact kept_map_of hs.freshId.placeEns fun _ hr => hr

theorem State.MemWf.mergeAll (hs : s.MemWf) : (mergeAll s).MemWf := hs.foldl fun _ _ ht => ht.mergeUo

theorem State.MemWf.boundary (hs : s.MemWf) : (boundary s).MemWf :=
  (hs.foldl fun _ _ ht => ht.discardL1).foldl fun _ _ ht => ht.discardRdc

theorem State.MemWf.execTicketClaim {ctx ltag core} (hs : s.MemWf) : KeepsMem (execTicketClaim ctx ltag core s) := by
  unfold Machine.execTicketClaim
  split
  · exact .fault
  next l _ =>
    split
    · exact .fault
    next l _ =>
      have hb : (if l.started = true then s else Machine.boundary s).MemWf := .ite hs hs.boundary
      split
      · exact .fault
      · split
        · exact .next hs.mergeAll
        · split
          · exact .fault
          · dsimp only
            split
            · exact .fault
            next hp => exact .next (hb.placeTicket _ hp).updCtx

theorem State.MemWf.endLaunch {ctx ltag} (hs : s.MemWf) : (endLaunch ctx ltag s).MemWf := .updCtx hs

theorem State.MemWf.execLaunchCompletion {ctx ltag} (hs : s.MemWf) : KeepsMem (execLaunchCompletion ctx ltag s) := by
  unfold Machine.execLaunchCompletion
  split
  · exact .fault
  · refine .ite .fault (.ite (.next hs.mergeAll) (.ite .fault (.ite (.next hs.endLaunch) (hs.comeUp fun t ht => ?_))))
    have he : (Machine.endLaunch ctx ltag t).MemWf := ht.endLaunch
    split
    · exact .next he.writeVirt
    · exact .next he
    · exact .fault

/-! ## The copy engines and the side queue -/

theorem State.MemWf.countWalks {core ctx ps r} (hs : s.MemWf) : (countWalks core ctx ps r s).MemWf := hs.perfCount

theorem State.MemWf.engineGate {x} (hs : s.MemWf) : ∀ t ∈ engineGate x s, t.MemWf := by
  unfold Machine.engineGate
  dsimp only
  split
  · exact kept_some hs
  · exact nofun

theorem State.MemWf.acceptCopy {core gang ctx crew act g2s desc gath moves d} (hs : s.MemWf) :
    (acceptCopy core gang ctx crew act g2s desc gath moves d s).MemWf :=
  hs.mergeUo.freshId.updCore.updGang.gangScalar

theorem State.MemWf.copyOp {g2s desc d a b c x} (hs : s.MemWf) : (copyOp g2s desc d a b c x s).MemWf := by
  unfold Machine.copyOp
  dsimp only
  split
  · exact hs.faultAll
  · exact hs.waitAt.updCore

theorem State.MemWf.execCopyG2s {h desc d a b c} (hs : s.MemWf) : KeepsMem (execCopyG2s h desc d a b c s) :=
  hs.issue (fun _ _ ht => ht.engineGate) fun _ _ ht => ht.gangOnce fun _ _ hu => hu.copyOp

theorem State.MemWf.execCopyS2g {h desc d a b c} (hs : s.MemWf) : KeepsMem (execCopyS2g h desc d a b c s) :=
  hs.issue (fun _ _ ht => ht.engineGate) fun _ _ ht => ht.gangOnce fun _ _ hu => hu.copyOp

theorem State.MemWf.execCopyAcceptance {k} (hs : s.MemWf) : KeepsMem (execCopyAcceptance k s) := by
  unfold Machine.execCopyAcceptance
  split
  · exact .fault
  · exact hs.comeUp fun _ ht => by
      dsimp only
      split
      · exact .next ht.updCore.countWalks.dropGone.updGang.settle
      · exact .next ht.updCore.countWalks.acceptCopy.updGang.settle

theorem State.MemWf.gathGate {ty need a b x} (hs : s.MemWf) : ∀ t ∈ gathGate ty need a b x s, t.MemWf := by
  unfold Machine.gathGate
  split
  · exact nofun
  · exact hs.walkGate

theorem State.MemWf.gathOp {t g2s d a b x} (hs : s.MemWf) : (gathOp t g2s d a b x s).MemWf := by
  unfold Machine.gathOp
  dsimp only
  split
  · exact hs.faultAll
  · exact .ite hs.raiseFaults hs.raiseFaults.acceptCopy

theorem State.MemWf.execGath {h t d a b} (hs : s.MemWf) : KeepsMem (execGath h t d a b s) :=
  hs.issue (fun _ _ ht => ht.bothGates (fun _ _ hu => hu.engineGate) fun _ _ hu => hu.gathGate) fun _ _ ht => ht.gangOnce fun _ _ hu =>
      hu.gathOp

theorem State.MemWf.execScat {h t d a b} (hs : s.MemWf) : KeepsMem (execScat h t d a b s) :=
  hs.issue (fun _ _ ht => ht.bothGates (fun _ _ hu => hu.engineGate) fun _ _ hu => hu.gathGate) fun _ _ ht => ht.gangOnce fun _ _ hu =>
      hu.gathOp

theorem State.MemWf.readWords {base old now} (hs : s.MemWf) : (readWords base old now s).2.MemWf :=
  .ite_snd hs (hs.foldl_snd fun _ _ ht => .ite_snd ht ht.freshCoin)

theorem State.MemWf.settleWords {base hits new now} (hs : s.MemWf) : (settleWords base hits new now s).2.MemWf :=
  .ite_snd hs (hs.foldl_snd fun _ _ ht => .ite_snd ht ht.freshCoin)

theorem State.MemWf.moveBytes {core g2s bs} (hs : s.MemWf) : (moveBytes core g2s bs s).MemWf := .ite hs.setSpad hs.engineWrite

theorem State.MemWf.moveDescs {core g2s m} (hs : s.MemWf) : (moveDescs core g2s m s).MemWf :=
  .ite (hs.foldl fun _ _ ht => ht.setSpadDesc) hs.engineWrite

theorem State.MemWf.moveWord {core g2s hits keep w} (hs : s.MemWf) : (moveWord core g2s hits keep w s).2.MemWf :=
  hs.readWords.settleWords.moveBytes

theorem State.MemWf.markCopy {id f core} (hs : s.MemWf) : (markCopy id f core s).MemWf := hs.updCore
theorem State.MemWf.copyWord {core r w} (hs : s.MemWf) : (copyWord core r w s).MemWf := hs.moveWord.markCopy
theorem State.MemWf.logMove {core k read m} (hs : s.MemWf) : (logMove core k read m s).MemWf := hs.foldl fun _ _ ht => ht.logRead
theorem State.MemWf.countCopied {core ctx bytes} (hs : s.MemWf) : (countCopied core ctx bytes s).MemWf := .ite hs hs.updCore.perfCount
theorem State.MemWf.retire {core k} (hs : s.MemWf) : (retire core k s).MemWf := hs.updCore.dropGone.updGang

theorem State.MemWf.startCopies (hs : s.MemWf) : (startCopies s).MemWf :=
  hs.foldl fun _ _ ht => ht.foldl fun _ _ hu => .ite hu.markCopy hu

theorem State.MemWf.execCopyComplete {core id} (hs : s.MemWf) : KeepsMem (execCopyComplete core id s) := by
  unfold Machine.execCopyComplete
  split
  · exact .fault
  · refine .ite .fault ?_
    extract_lets s1 s2 read s3
    have h1 : s1.MemWf := hs.foldl fun _ _ ht => ht.copyWord
    have h2 : s2.MemWf := .ite (h1.foldl fun _ _ ht => ht.moveDescs) h1
    have h3 : s3.MemWf := .ite (h2.foldl fun _ _ ht => ht.logMove) h2
    exact .next h3.countCopied.markCopy.retire

theorem State.MemWf.advanceCopies {core} (hs : s.MemWf) : (advanceCopies core s).MemWf :=
  hs.foldl fun _ _ ht => .ite ht (ht.pickSome.foldl fun _ _ hu => hu.copyWord)

theorem State.MemWf.acquireCopies {k t} (hs : s.MemWf) : (acquireCopies k t s).MemWf := by
  unfold Machine.acquireCopies
  split
  · exact hs
  · exact .ite hs.updGang hs.updGang.discardL1

theorem State.MemWf.acquireTiles {k} (hs : s.MemWf) : (acquireTiles k s).MemWf := by
  unfold Machine.acquireTiles
  split
  · exact hs
  · exact .ite hs.updGang hs.updGang.discardL1

theorem State.MemWf.execWait {h l st c m} (hs : s.MemWf) : KeepsMem (execWait h l st c m s) :=
  hs.issue noGate_kept fun _ _ ht => ht.gangOnce fun _ _ hu => hu.gwaitAt

theorem State.MemWf.enterRole {k r} (hs : s.MemWf) : (enterRole k r s).MemWf := by
  unfold Machine.enterRole
  split
  · exact hs
  · split
    · exact hs
    · exact hs.setHeld.updGang

theorem State.MemWf.execWaitComplete {k} (hs : s.MemWf) : KeepsMem (execWaitComplete k s) := by
  unfold Machine.execWaitComplete
  split
  · exact .fault
  · split
    · exact .next hs.acquireCopies.acquireTiles.updGang.settle
    · exact .next hs.enterRole.updGang.settle
    · exact .fault

theorem State.MemWf.execSleep {h a} (hs : s.MemWf) : KeepsMem (execSleep h a s) :=
  hs.issue noGate_kept fun _ _ ht => ht.gangOnce fun _ _ hu => hu.gwaitAt

theorem State.MemWf.execSleepWake {k} (hs : s.MemWf) : KeepsMem (execSleepWake k s) := by
  unfold Machine.execSleepWake
  split
  · exact .fault
  · split
    · split
      · exact .next hs.acquireCopies.updGang.settle
      · exact .next hs.updGang.settle
    · exact .fault

theorem State.MemWf.execRole {h k} (hs : s.MemWf) : KeepsMem (execRole h k s) :=
  hs.issue noGate_kept fun _ _ ht => ht.gangOnce fun _ _ hu => .ite hu.faultAll (.ite hu.perLane (.ite hu.enterRole hu.gwaitAt))

theorem State.MemWf.flipPhase {core a} (hs : s.MemWf) : (flipPhase core a s).MemWf := hs.setSpad

theorem State.MemWf.execStgw {h a b ph} (hs : s.MemWf) : KeepsMem (execStgw h a b ph s) :=
  hs.issue noGate_kept fun _ _ ht => ht.gangOnce fun _ _ hu => by
    split
    · exact hu.faultAll
    · exact hu.gwaitAt

theorem State.MemWf.acquirePulls {core} (hs : s.MemWf) : (acquirePulls core s).MemWf := .ite hs hs.updCore.discardL1

theorem State.MemWf.execStgwPass {k} (hs : s.MemWf) : KeepsMem (execStgwPass k s) := by
  unfold Machine.execStgwPass
  split
  · exact .fault
  · split
    · exact .next hs.acquirePulls.updGang.settle
    · exact .fault

theorem State.MemWf.execStga {h a b} (hs : s.MemWf) : KeepsMem (execStga h a b s) :=
  hs.issue (fun _ _ ht => ht.relGate) fun _ _ ht => ht.gangOnce fun _ _ hu => by
    split
    · exact hu.faultAll
    · exact hu.flipPhase

theorem State.MemWf.subsOp {d a x} (hs : s.MemWf) : (subsOp d a x s).MemWf := by
  unfold Machine.subsOp
  dsimp only
  split
  · exact hs.faultAll
  · exact hs
  · exact hs.freshId.serveLoad.waitAt.startOp

theorem State.MemWf.execSubs {h d a} (hs : s.MemWf) : KeepsMem (execSubs h d a s) :=
  hs.issue (fun _ _ ht => ht.bothGates (fun _ _ hu => hu.walkGate) fun _ _ hu => hu.relGate) fun _ _ ht => ht.gangOnce fun _ _ hu =>
      hu.subsOp

theorem State.MemWf.subscribe {core crew n} (hs : s.MemWf) : (subscribe core crew n s).2.MemWf := by
  unfold Machine.subscribe
  split
  · exact hs
  · split
    · exact hs
    · dsimp only
      split
      · exact hs
      · exact hs.updCore

theorem State.MemWf.subsDone {id} (hs : s.MemWf) : (subsDone id s).MemWf := by
  unfold Machine.subsDone
  split
  · exact hs
  · split
    · split
      · exact hs
      · exact .settle (.updGang (.ite (.subscribe hs) (.gangScalar (.subscribe hs))))
    · exact hs

theorem State.MemWf.updSub {core slot f} (hs : s.MemWf) : (updSub core slot f s).MemWf := hs.updCore

theorem State.MemWf.execSubscriptionTile {core slot} (hs : s.MemWf) : KeepsMem (execSubscriptionTile core slot s) := by
  unfold Machine.execSubscriptionTile
  split
  · exact .fault
  · split
    · refine hs.comeUp fun t ht => ?_
      dsimp only
      split
      · exact .ite .fault (.next ht.countWalks.updSub)
      · exact .next ht.countWalks
    · exact .fault

theorem State.MemWf.subStopped {core slot u} (hs : s.MemWf) : (subStopped core slot u s).MemWf :=
  .crewGone (.foldl (.updCore hs) fun _ _ ht => .foldl ht fun _ _ hu => .settle (.updGang (.ite (.gangScalar (.acquirePulls hu)) hu)))

theorem State.MemWf.advanceTiles {core} (hs : s.MemWf) : (advanceTiles core s).MemWf :=
  hs.foldl fun _ _ ht => .ite ht (ht.pickSome.foldl fun _ _ hu => hu.moveWord.updSub)

theorem State.MemWf.execSubscriptionTileComplete {core slot} (hs : s.MemWf) : KeepsMem (execSubscriptionTileComplete core slot s) := by
  unfold Machine.execSubscriptionTileComplete
  split
  · exact .fault
  · split
    · refine .ite .fault ?_
      extract_lets s1 s2 s3 s4 u s5
      have h1 : s1.MemWf := hs.foldl fun _ _ ht => ht.moveWord
      have h2 : s2.MemWf := .ite (h1.foldl fun _ _ ht => ht.moveDescs) h1
      have h3 : s3.MemWf := .ite h2.updCore h2
      have h5 : s5.MemWf := h3.flipPhase.updSub
      exact .next (.ite h5.subStopped h5)
    · exact .fault

theorem State.MemWf.unsubOp {d a x} (hs : s.MemWf) : (unsubOp d a x s).MemWf := by
  unfold Machine.unsubOp
  dsimp only
  split
  · exact hs.putScalar
  · split
    · exact hs.putScalar
    · split
      · exact hs.freshId.updSub.waitAt.startOp
      · exact hs.updCore.acquirePulls.putScalar

theorem State.MemWf.execUnsub {h d a} (hs : s.MemWf) : KeepsMem (execUnsub h d a s) :=
  hs.issue noGate_kept fun _ _ ht => ht.gangOnce fun _ _ hu => hu.unsubOp

/-! ## Traps taken -/

theorem State.MemWf.skipFill {k group pc} (hs : s.MemWf) : (skipFill k group pc s).MemWf := hs.updGang
theorem State.MemWf.trapAt {k group pc c a} (hs : s.MemWf) : (trapAt k group pc c a s).MemWf := hs.updGang.decodeTrap

theorem State.MemWf.execTakeTrap {k} (hs : s.MemWf) : KeepsMem (execTakeTrap k s) := by
  unfold Machine.execTakeTrap
  split
  · exact .fault
  · split
    · exact .next hs.takeTrapRecs
    · split
      · exact .next hs.settleFills.trapAt
      · exact .fault

/-! ## The matrix engine -/

theorem State.MemWf.updMx {core f} (hs : s.MemWf) : (updMx core f s).MemWf := hs.updCore
theorem State.MemWf.updMxOp {core id f} (hs : s.MemWf) : (updMxOp core id f s).MemWf := hs.updMx
theorem State.MemWf.retireGang {core k} (hs : s.MemWf) : (retireGang core s k).MemWf := hs.updMx.updGang
theorem State.MemWf.retireMx {core} (hs : s.MemWf) : (retireMx core s).MemWf := (hs.foldl fun _ _ ht => ht.retireGang).updMx

theorem State.MemWf.acceptMx {x owed kind} (hs : s.MemWf) : (acceptMx x owed kind s).MemWf :=
  hs.mergeUo.freshId.updMx.foldl fun _ _ ht => ht.updGang

theorem State.MemWf.execTroupe {h a} (hs : s.MemWf) : KeepsMem (execTroupe h a s) :=
  hs.issue noGate_kept fun _ _ ht => ht.gangOnce fun _ _ hu => by
    split
    · exact hu.faultAll
    · exact .ite hu.updGang hu.faultAll

theorem State.MemWf.execMopf {h} (hs : s.MemWf) : KeepsMem (execMopf h s) :=
  hs.issue noGate_kept fun _ _ ht => ht.gangOnce fun _ _ hu => by
    split
    · exact hu.faultAll
    · exact hu.freshId.waitAt

theorem State.MemWf.execMopfComplete {k} (hs : s.MemWf) : KeepsMem (execMopfComplete k s) := by
  unfold Machine.execMopfComplete
  split
  · exact .fault
  · split
    · exact .fault
    · exact .ite .fault (.next hs.updGang.settle)

theorem State.MemWf.clearEntry {core sub e} (hs : s.MemWf) : (clearEntry core sub e s).MemWf :=
  hs.updMx.foldl fun _ _ ht => by
    split
    · exact ht.updGang.settle
    · exact ht

theorem State.MemWf.acceptMma {x o e} (hs : s.MemWf) : (acceptMma x o e s).MemWf :=
  hs.updMx.acceptMx.foldl fun _ _ ht => ht.updGang.settle

theorem State.MemWf.arrive {x o} (hs : s.MemWf) : (arrive x o s).MemWf := by
  unfold Machine.arrive
  dsimp only
  split
  · exact hs.clearEntry.faultAll
  · split
    · exact hs.waitAt.updMx
    · split
      · exact hs.clearEntry.faultAll
      · exact .ite hs.waitAt.updMx.acceptMma hs.waitAt.updMx

theorem State.MemWf.execMma {h o} (hs : s.MemWf) : KeepsMem (execMma h o s) :=
  hs.issue noGate_kept fun _ _ ht => ht.gangOnce fun _ _ hu => by
    split
    · exact hu.faultAll
    · exact hu.arrive

theorem State.MemWf.pickOne {vs} (hs : s.MemWf) : (pickOne vs s).2.MemWf := by
  unfold Machine.pickOne
  split
  · exact hs
  · exact hs
  · exact hs.freshVal

theorem State.MemWf.pickElems {w runs} (hs : s.MemWf) : (pickElems w runs s).2.MemWf := hs.foldl_snd fun _ _ ht => ht.pickOne
theorem State.MemWf.aDesc {core x rank addr z} (hz : z.MemWf) : (aDesc s core x rank addr z).2.MemWf := hz.pickOne
theorem State.MemWf.bDesc {m x off z} (hs : z.MemWf) : (bDesc m x off z).2.MemWf := hs.pickOne
theorem State.MemWf.readA {core x rank addr l z} (hz : z.MemWf) : (readA s core x rank addr l z).2.MemWf := hz.aDesc.pickElems
theorem State.MemWf.readB {m x off l z} (hs : z.MemWf) : (readB m x off l z).2.MemWf := hs.bDesc.pickElems

theorem State.MemWf.readAll {f n z} (Hf : ∀ i t, t.MemWf → (f i t).2.MemWf) (hs : z.MemWf) : (readAll f n z).2.MemWf :=
  hs.foldl_snd fun _ _ hu => Hf _ _ hu

theorem State.MemWf.stepIn {core ctx c x} (hs : s.MemWf) : (stepIn s core ctx c x).2.MemWf := by
  unfold Machine.stepIn
  dsimp only
  split
  · exact hs.aDesc.bDesc
  · split
    · exact hs.aDesc.bDesc
    · split
      · exact (hs.aDesc.bDesc.readAll fun _ _ ht => ht.readA).readAll fun _ _ ht => ht.readB
      · split
        · exact (hs.aDesc.bDesc.readAll fun _ _ ht => ht.readA).readAll fun _ _ ht => ht.readB
        · split
          · exact (hs.aDesc.bDesc.readAll fun _ _ ht => ht.readA).readAll fun _ _ ht => ht.readB
          · exact (hs.aDesc.bDesc.readAll fun _ _ ht => ht.readA).readAll fun _ _ ht => ht.readB

theorem State.MemWf.pairRead {x m i} (hs : s.MemWf) : (pairRead x m i s).2.MemWf := by
  unfold Machine.pairRead
  dsimp only
  split
  · exact hs
  · exact hs.freshVal

theorem State.MemWf.storeElem {core m i} (hs : s.MemWf) : (storeElem core m i s).MemWf := by
  unfold Machine.storeElem
  dsimp only
  split
  · exact hs.pairRead.setSpad
  · exact hs.pairRead.engineWrite

theorem State.MemWf.loadElems {core o m} (hs : s.MemWf) : (loadElems core o m s).MemWf := hs.readWords.updMx

theorem State.MemWf.startMoves (hs : s.MemWf) : (startMoves s).MemWf :=
  hs.foldl fun _ _ ht => ht.foldl fun _ _ hu => .ite hu.updMxOp hu

theorem State.MemWf.noteLast {tile id before core} (hs : s.MemWf) : (noteLast tile id before core s).MemWf := hs.updMx
theorem State.MemWf.endMx {core id} (hs : s.MemWf) : (endMx core id s).MemWf := hs.updMxOp.retireMx
theorem State.MemWf.loadTile {core o m} (hs : s.MemWf) : (loadTile core o m s).MemWf := hs.loadElems.noteLast

theorem State.MemWf.storeSome {core o m} (hs : s.MemWf) : (storeSome core o m s).MemWf :=
  hs.pickSome.foldl fun _ _ ht => ht.storeElem.updMxOp

theorem State.MemWf.splitMoves {core tile self} (hs : s.MemWf) : (splitMoves core tile self s).MemWf :=
  hs.foldl fun _ _ ht => by
    split
    · split
      · exact ht
      · exact .ite (.ite ht.freshCoin.loadTile.endMx ht.freshCoin) ht.storeSome
    · exact ht

theorem State.MemWf.splitFault {core o c x e} (hs : s.MemWf) : (splitFault core o c x e s).MemWf := hs.updMxOp

theorem State.MemWf.execMatrixStep {core} (hs : s.MemWf) : KeepsMem (execMatrixStep core s) := by
  unfold Machine.execMatrixStep
  split
  · exact .fault
  · split
    · split
      · exact .fault
      · dsimp only
        split
        · exact .next hs.stepIn.splitFault
        · exact .next (.perfCount (.updMxOp (.updMx (.ite hs.stepIn hs.stepIn.splitMoves))))
    · exact .fault

theorem State.MemWf.execMmaComplete {core} (hs : s.MemWf) : KeepsMem (execMmaComplete core s) := by
  unfold Machine.execMmaComplete
  split
  · exact .fault
  · split
    · exact .next hs.noteLast.endMx
    · exact .fault

theorem State.MemWf.deliverFault {k} (hs : s.MemWf) : ∀ t ∈ deliverFault k s, t.MemWf := by
  unfold Machine.deliverFault
  split
  · exact nofun
  · split
    · exact kept_some hs.endMx
    · split
      · exact nofun
      · exact kept_map fun _ => hs.updMxOp.updGang.takeTrapRecs

theorem State.MemWf.execMatrixFaultDelivery {k} (hs : s.MemWf) : KeepsMem (execMatrixFaultDelivery k s) := by
  unfold Machine.execMatrixFaultDelivery
  split
  next heq => exact .next (hs.settleFills.deliverFault _ heq)
  · exact .fault

theorem State.MemWf.execMcont {h tile} (hs : s.MemWf) : KeepsMem (execMcont h tile s) :=
  hs.issue noGate_kept fun _ _ ht => ht.gangOnce fun _ _ hu => by
    split
    · exact hu.faultAll
    · split
      · exact hu.faultAll
      · exact hu.updMxOp

theorem State.MemWf.mxWalks {x ps r} (hs : s.MemWf) : (mxWalks x ps r s).MemWf := .ite hs.countWalks hs

theorem State.MemWf.walksGate {ps x} (hs : s.MemWf) : ∀ t ∈ walksGate ps x s, t.MemWf := by
  unfold Machine.walksGate
  dsimp only
  split
  · exact nofun
  · exact kept_some hs.rouse

theorem State.MemWf.tileOp {o load x} (hs : s.MemWf) : (tileOp o load x s).MemWf := by
  unfold Machine.tileOp
  dsimp only
  split
  · exact hs.mxWalks.faultAll
  · exact hs.mxWalks.acceptMx

theorem State.MemWf.execMld {h o} (hs : s.MemWf) : KeepsMem (execMld h o s) :=
  hs.issue (fun _ _ ht => ht.walksGate) fun _ _ ht => ht.gangOnce fun _ _ hu => hu.tileOp

theorem State.MemWf.execMst {h o} (hs : s.MemWf) : KeepsMem (execMst h o s) :=
  hs.issue (fun _ _ ht => ht.walksGate) fun _ _ ht => ht.gangOnce fun _ _ hu => hu.tileOp

theorem State.MemWf.execTileMoveComplete {core id} (hs : s.MemWf) : KeepsMem (execTileMoveComplete core id s) := by
  unfold Machine.execTileMoveComplete
  split
  · exact .fault
  · split
    · split
      · exact .next hs.splitMoves.loadTile.endMx
      · exact .next ((hs.foldl fun _ _ ht => ht.storeElem).endMx)
    · exact .fault

theorem State.MemWf.execWbload {h a b c} (hs : s.MemWf) : KeepsMem (execWbload h a b c s) :=
  hs.issue (fun _ _ ht => ht.walksGate) fun _ _ ht => ht.gangOnce fun _ _ hu => by
    dsimp only
    split
    · exact hu.mxWalks.faultAll
    · exact hu.mxWalks.acceptMx

theorem State.MemWf.storeWeights {core w} (hs : s.MemWf) : (storeWeights core w s).MemWf := hs.updMx
theorem State.MemWf.wbWord {core id w} (hs : s.MemWf) : (wbWord core id w s).MemWf := hs.readWords.storeWeights.updMxOp

theorem State.MemWf.execWbloadComplete {core id} (hs : s.MemWf) : KeepsMem (execWbloadComplete core id s) := by
  unfold Machine.execWbloadComplete
  split
  · exact .fault
  · split
    · exact .next (((hs.foldl fun _ _ ht => ht.wbWord).storeWeights).endMx)
    · exact .fault

theorem State.MemWf.advanceMoves {core} (hs : s.MemWf) : (advanceMoves core s).MemWf :=
  hs.foldl fun _ _ ht => by
    split
    · exact ht
    · split
      · exact .ite ht ht.storeSome
      · exact ht.pickSome.foldl fun _ _ hu => hu.wbWord
      · exact ht

/-! ## Collectives -/

theorem State.MemWf.updGroup {k f} (hs : s.MemWf) : (updGroup k f s).MemWf := hs
theorem State.MemWf.reuseSlot {cluster slot} (hs : s.MemWf) : (reuseSlot cluster slot s).MemWf := hs

theorem State.MemWf.joinGroup {ctx crew cluster slot mask tag} (hs : s.MemWf) :
    (joinGroup ctx crew cluster slot mask tag s).2.MemWf := by
  unfold Machine.joinGroup
  dsimp only
  split
  · exact hs
  · exact hs

theorem State.MemWf.execCgrp {h d a b} (hs : s.MemWf) : KeepsMem (execCgrp h d a b s) :=
  hs.issue noGate_kept fun _ _ ht => ht.gangOnce fun _ _ hu => by
    dsimp only
    split
    · exact hu.putScalar
    · split
      · exact (hu.foldl fun _ _ hv => hv.dissolve).putScalar
      · split
        · exact (hu.foldl fun _ _ hv => hv.dissolve).putScalar
        · exact ((hu.foldl fun _ _ hv => hv.dissolve).joinGroup).putScalar

theorem State.MemWf.execCgrpFree {h b} (hs : s.MemWf) : KeepsMem (execCgrpFree h b s) :=
  hs.issue noGate_kept fun _ _ ht => ht.gangOnce fun _ _ hu => by
    split
    · exact hu.dissolve
    · exact hu

theorem State.MemWf.numberReq {grp cluster r} (hs : s.MemWf) : (numberReq grp cluster r s).MemWf := hs.updGroup

theorem State.MemWf.collOp {kind t red rm sat d a b x} (hs : s.MemWf) : (collOp kind t red rm sat d a b x s).MemWf := by
  unfold Machine.collOp
  dsimp only
  split
  · exact hs.faultAll
  · exact hs.freshId.numberReq.gangScalar

theorem State.MemWf.execCag {h t d a b} (hs : s.MemWf) : KeepsMem (execCag h t d a b s) :=
  hs.issue noGate_kept fun _ _ ht => ht.gangOnce fun _ _ hu => hu.collOp

theorem State.MemWf.execCrs {h o b} (hs : s.MemWf) : KeepsMem (execCrs h o b s) :=
  hs.issue noGate_kept fun _ _ ht => ht.gangOnce fun _ _ hu => hu.collOp

theorem State.MemWf.execCa2a {h t d a b} (hs : s.MemWf) : KeepsMem (execCa2a h t d a b s) :=
  hs.issue noGate_kept fun _ _ ht => ht.gangOnce fun _ _ hu => hu.collOp

theorem State.MemWf.execCbar {h d a} (hs : s.MemWf) : KeepsMem (execCbar h d a s) :=
  hs.issue noGate_kept fun _ _ ht => ht.gangOnce fun _ _ hu => by
    split
    · exact hu.gangScalar
    · exact hu.mergeUo.freshId.gwaitAt.numberReq.wakeColl

theorem State.MemWf.execCwait {h d a} (hs : s.MemWf) : KeepsMem (execCwait h d a s) :=
  hs.issue noGate_kept fun _ _ ht => ht.gangOnce fun _ _ hu => by
    dsimp only
    split
    · exact hu.gangScalar
    · split
      · exact hu.gangScalar
      · split
        · exact hu.gangScalar
        · exact hu.gwaitAt

theorem State.MemWf.startColls (hs : s.MemWf) : (startColls s).MemWf := hs
theorem State.MemWf.sendBuf {now a r} (hz : a.2.MemWf) : (sendBuf now a r).2.MemWf := hz.readWords
theorem State.MemWf.receive {now r bs} (hz : s.MemWf) : (receive now r bs s).MemWf := hz.settleWords.setSpad

theorem State.MemWf.exchange {rs} (hs : s.MemWf) : (exchange rs s).MemWf :=
  (hs.foldl_snd fun _ _ ht => ht.sendBuf).foldl fun _ _ ht => ht.receive

theorem State.MemWf.setStatus {grp k st rs} (hs : s.MemWf) : (setStatus grp k st rs s).MemWf := hs.updGroup

theorem State.MemWf.execCollectivePerform {grp k} (hs : s.MemWf) : KeepsMem (execCollectivePerform grp k s) := by
  unfold Machine.execCollectivePerform
  split
  · exact .fault
  · split
    · exact .fault
    · split
      · exact .fault
      · split
        · exact .next hs.setStatus.wakeColl
        · split
          · exact .next (((hs.foldl fun _ _ ht => ht.acquireAt).setStatus).wakeColl)
          · exact .next hs.exchange.setStatus.wakeColl

/-! ## Checkpoints, counters and breakpoints -/

theorem State.MemWf.openInterval {x d} (hs : s.MemWf) : (openInterval x d s).MemWf := hs.updGang.putScalar

theorem State.MemWf.execCkpt {h d a} (hs : s.MemWf) : KeepsMem (execCkpt h d a s) :=
  hs.issue noGate_kept fun _ _ ht => ht.gangOnce fun _ _ hu => hu.openInterval

theorem State.MemWf.takeImage {k} (hs : s.MemWf) : (takeImage k s).MemWf := by
  unfold Machine.takeImage
  split
  · exact hs
  · split
    · exact hs
    · exact hs

theorem State.MemWf.holdImage {k} (hs : s.MemWf) : (holdImage k s).MemWf := by
  unfold Machine.holdImage
  split
  · exact hs
  · exact .ite hs.takeImage hs

theorem State.MemWf.holdImages (hs : s.MemWf) : (holdImages s).MemWf := hs.foldl fun _ _ ht => ht.holdImage

theorem State.MemWf.execCkptHold {h d a} (hs : s.MemWf) : KeepsMem (execCkptHold h d a s) :=
  hs.issue (fun _ _ ht => ht.relGate) fun _ _ ht => ht.gangOnce fun _ _ hu => hu.openInterval.gwaitAt.holdImage

theorem State.MemWf.execCkptResume {k} (hs : s.MemWf) : KeepsMem (execCkptResume k s) := by
  unfold Machine.execCkptResume
  split
  · exact .fault
  · exact .ite (.next hs.holdImage.acquireAt.updGang.settle) .fault

theorem State.MemWf.updPerf {core f} (hs : s.MemWf) : (updPerf core f s).MemWf := hs.updCore

theorem State.MemWf.execPerfSel {h d a k} (hs : s.MemWf) : KeepsMem (execPerfSel h d a k s) :=
  hs.issue noGate_kept fun _ _ ht => ht.gangOnce fun _ _ hu => .ite hu.faultAll (.ite hu.faultAll hu.updPerf.putScalar)

theorem State.MemWf.execPerfSmp {h d a} (hs : s.MemWf) : KeepsMem (execPerfSmp h d a s) :=
  hs.issue noGate_kept fun _ _ ht => ht.gangOnce fun _ _ hu => .ite hu.faultAll (.ite hu.faultAll hu.updPerf.putScalar)

theorem State.MemWf.execStallSample {core} (hs : s.MemWf) : KeepsMem (execStallSample core s) := by
  unfold Machine.execStallSample
  dsimp only
  split
  · exact .fault
  · split
    · exact .next hs.updPerf
    · exact .next hs.updPerf.putSample.updPerf

theorem State.MemWf.execCounterGrant {core ctx ring size} (hs : s.MemWf) : KeepsMem (execCounterGrant core ctx ring size s) :=
  .ite .fault (.next (.updPerf hs))

theorem State.MemWf.execBreakpointTableWrite {ctx idx hdr ord enable} (hs : s.MemWf) :
    KeepsMem (execBreakpointTableWrite ctx idx hdr ord enable s) := by
  unfold Machine.execBreakpointTableWrite
  split
  · exact .fault
  · exact .next hs.updCtx

theorem State.MemWf.execEmptyReplayLog {ctx} (hs : s.MemWf) : KeepsMem (execEmptyReplayLog ctx s) := by
  unfold Machine.execEmptyReplayLog
  split
  · exact .fault
  · split
    · exact .fault
    · exact .ite .fault (.next hs.updCtx)

/-! ## Queues and links -/

theorem State.MemWf.updQueue {q f} (hs : s.MemWf) : (updQueue q f s).MemWf := hs
theorem State.MemWf.updConn {k f} (hs : s.MemWf) : (updConn k f s).MemWf := hs
theorem State.MemWf.queuePut {ctx va n x} (hs : s.MemWf) : (queuePut ctx va n x s).MemWf := hs.writeHome
theorem State.MemWf.stateBits {u on off} (hs : s.MemWf) : (stateBits u on off s).MemWf := hs.queuePut
theorem State.MemWf.consumeWake {u} (hs : s.MemWf) : (consumeWake u s).MemWf := .ite hs.stateBits hs

theorem State.MemWf.execQueueFetch {q} (hs : s.MemWf) : KeepsMem (execQueueFetch q s) := by
  unfold Machine.execQueueFetch
  split
  · exact .fault
  · split
    · exact .fault
    · exact hs.comeUp fun _ ht => by
        dsimp only
        split
        · exact .next ht.consumeWake.updQueue
        · exact .next (.ite ht.consumeWake.updQueue ht.consumeWake.updQueue.queuePut)

theorem State.MemWf.execLaunchAcceptance {q} (hs : s.MemWf) : KeepsMem (execLaunchAcceptance q s) := by
  unfold Machine.execLaunchAcceptance
  split
  · exact .fault
  · split
    · split
      · exact .fault
      · exact hs.comeUp fun _ ht => .next ht.acceptLaunch.updQueue
    · exact .fault

theorem State.MemWf.execQueueWake {q} (hs : s.MemWf) : KeepsMem (execQueueWake q s) := by
  unfold Machine.execQueueWake
  split
  · exact .fault
  · split
    · exact .fault
    · exact hs.comeUp fun _ ht => .next (.updQueue (.ite ht ht.stateBits))

theorem State.MemWf.testWake {q u} (hs : s.MemWf) : (testWake q u s).MemWf := .updQueue (.ite hs.stateBits hs)

theorem State.MemWf.execQueueUnmap {q} (hs : s.MemWf) : KeepsMem (execQueueUnmap q s) := by
  unfold Machine.execQueueUnmap
  split
  · exact .fault
  · exact hs.comeUp fun _ ht => by
      split
      · exact .ite (.next ht.testWake) .fault
      · split
        · exact .next ht.stateBits.updQueue
        · exact .next ht.updQueue
        · exact .ite .fault (.next ht.queuePut.queuePut.queuePut.updQueue)
        · exact .next ht.stateBits.updQueue

theorem State.MemWf.execQueueMap {q ctx desc weight} (hs : s.MemWf) : KeepsMem (execQueueMap q ctx desc weight s) := by
  unfold Machine.execQueueMap
  split
  · exact .ite .fault (hs.comeUp fun _ ht => .next (.stateBits ht))
  · exact .fault

theorem State.MemWf.freezeConn {k op c e} (hs : s.MemWf) : (freezeConn k op c e s).MemWf := hs

theorem State.MemWf.onConn {k op body} (hbody : ∀ c t, t.MemWf → (body c t).MemWf) (hs : s.MemWf) : KeepsMem (onConn k op body s) := by
  unfold Machine.onConn
  split
  · exact .fault
  · split
    · exact .fault
    · split
      · exact .next hs.updConn
      · exact .ite (.next (hbody _ _ hs)) (.next hs.updConn.rouse)

theorem State.MemWf.execRdmaWrite {conn va data} (hs : s.MemWf) : KeepsMem (execRdmaWrite conn va data s) :=
  hs.onConn fun _ _ ht => by
    split
    · exact ht.freezeConn
    · exact ht.writeHome

theorem State.MemWf.mergeOver {lines} (hs : s.MemWf) : (mergeOver lines s).MemWf := hs.foldl fun _ _ ht => ht.mergeUo

theorem State.MemWf.execRdmaRead {conn va len} (hs : s.MemWf) : KeepsMem (execRdmaRead conn va len s) :=
  hs.onConn fun _ _ ht => by
    split
    · exact ht.freezeConn
    · exact .ite ht.mergeOver.updConn ht.updConn

theorem State.MemWf.execRdmaSend {conn data} (hs : s.MemWf) : KeepsMem (execRdmaSend conn data s) :=
  hs.onConn fun _ _ ht => by
    split
    · exact ht.updConn
    · split
      · exact ht.updConn
      · dsimp only
        split
        · exact ht.freezeConn
        · exact ht.writeHome.updConn

theorem State.MemWf.execRdmaRefused {conn kind} (hs : s.MemWf) : KeepsMem (execRdmaRefused conn kind s) :=
  hs.onConn fun _ _ ht => ht.updConn

/-! ## Preemption -/

theorem State.MemWf.splitRunning {core hit} (hs : s.MemWf) : (splitRunning core hit s).MemWf := hs.updMx
theorem State.MemWf.withdraw {g} (hs : s.MemWf) : (withdraw g s).MemWf := hs.updMx
theorem State.MemWf.holdMoves {k g} (hs : s.MemWf) : (holdMoves k g s).MemWf := hs.updMx

theorem State.MemWf.stopGang {k} (hs : s.MemWf) : (stopGang k s).MemWf := by
  unfold Machine.stopGang
  split
  · exact hs
  · exact hs.updGang.withdraw.holdMoves

theorem State.MemWf.execPreemptRequest {ctx cores urgent} (hs : s.MemWf) : KeepsMem (execPreemptRequest ctx cores urgent s) := by
  unfold Machine.execPreemptRequest
  split
  · exact .fault
  · exact .next
        ((((hs.foldl fun _ _ ht => ht.updCore.spillPool).foldl fun _ _ ht => ht.splitRunning).foldl fun _ _ ht => ht.stopGang).foldl
        fun _ _ ht => ht.mergeUo)

theorem State.MemWf.execStopReleaseComplete {k} (hs : s.MemWf) : KeepsMem (execStopReleaseComplete k s) := by
  unfold Machine.execStopReleaseComplete
  split
  · exact .fault
  · split
    · exact .fault
    · split
      · exact .next hs.mergeUo
      · exact .ite .fault (.next hs.updGang.updCore.settleSaved.magsHome)

theorem State.MemWf.scanOutScratch {core base size k c} (hs : s.MemWf) : (scanOutScratch core base size k c s).MemWf :=
  hs.updCrew.updCore

theorem State.MemWf.scanOut {core claim c} (hs : s.MemWf) : (scanOut core claim s c).MemWf := by
  unfold Machine.scanOut
  split
  · exact hs.scanOutScratch
  · exact hs
  · exact .ite hs.updCrew hs
  · exact .ite hs.updCrew hs
  · exact .ite hs.updCrew hs

theorem State.MemWf.execStorageClaimScanOut {core ctx claim} (hs : s.MemWf) : KeepsMem (execStorageClaimScanOut core ctx claim s) := by
  refine .ite .fault ?_
  split
  · exact .ite (.next hs.giveEngine) .fault
  · exact .next (hs.foldl fun _ _ ht => ht.scanOut)

theorem State.MemWf.execCrewRestore {crew core} (hs : s.MemWf) : KeepsMem (execCrewRestore crew core s) := by
  unfold Machine.execCrewRestore
  split
  · exact .fault
  · split
    · exact .fault
    · split
      · exact .fault
      next heq => exact .next (hs.restoreSet _ heq)

/-! ## Power -/

theorem State.MemWf.setIsland {i v} (hs : s.MemWf) : (setIsland i v s).MemWf := hs

theorem State.MemWf.execPowerMeasurement {mw} (hs : s.MemWf) : KeepsMem (execPowerMeasurement mw s) :=
  .next (hs.foldl fun _ _ ht => .ite ht.setIsland ht)

theorem State.MemWf.execSetPowerCap {watts} (hs : s.MemWf) : KeepsMem (execSetPowerCap watts s) := .ite .fault (.ite (.next hs) .fault)

theorem State.MemWf.execPowerThrottleStep (hs : s.MemWf) : KeepsMem (execPowerThrottleStep s) := by
  unfold Machine.execPowerThrottleStep
  dsimp only
  split
  · exact .fault
  · split
    · exact .ite (.next (.setIsland hs.freshVal)) (.next hs)
    · split
      · split
        · exact .next hs
        · split
          · exact .next hs
          · exact .next (.setIsland hs)
      · exact .next hs

theorem State.MemWf.switchOff {i} (hs : s.MemWf) : (switchOff i s).MemWf :=
  .ite (.foldl hs fun _ _ ht => .ite ht ht.updCore) (.ite hs hs)

theorem State.MemWf.freshIncs {k} (hs : s.MemWf) : (freshIncs s k).MemWf := hs.updCore

theorem State.MemWf.execIslandStateChange {i} (hs : s.MemWf) : KeepsMem (execIslandStateChange i s) := by
  unfold Machine.execIslandStateChange
  dsimp only
  split
  · exact .fault
  · exact .ite (.next hs.setIsland) (.next (.setIsland (.ite hs.switchOff hs)))

theorem State.MemWf.execIslandExitComplete {i} (hs : s.MemWf) : KeepsMem (execIslandExitComplete i s) := by
  unfold Machine.execIslandExitComplete
  dsimp only
  split
  · exact .fault
  · exact .next (.setIsland (.ite (hs.foldl fun _ _ ht => ht.freshIncs) hs))

theorem State.MemWf.execFlitRetransmit {src dst} (hs : s.MemWf) : KeepsMem (execFlitRetransmit src dst s) := .ite .fault (.next hs)
theorem State.MemWf.execLinkFailure {src dst} (hs : s.MemWf) : KeepsMem (execLinkFailure src dst s) := .ite .fault (.next hs)
theorem State.MemWf.execLinkRecovery {src dst} (hs : s.MemWf) : KeepsMem (execLinkRecovery src dst s) := .ite (.next hs) .fault

/-! ## Contexts, pages and failures -/

/-- R421: power-on answers the memory of the reset state. -/
theorem execPowerOn_keepsMem {stages} : KeepsMem (execPowerOn stages s) := .ite .fault (.next (id reset_mem))

theorem State.MemWf.execAttestationReport {nonce} (hs : s.MemWf) : KeepsMem (execAttestationReport nonce s) := .ite .fault (.next hs)

theorem State.MemWf.clearPages {ctx va size} (hs : s.MemWf) : (clearPages ctx va size s).MemWf :=
  ⟨wf_filter _ hs.1, hs.2⟩

theorem State.MemWf.wakeFabric (hs : s.MemWf) : (wakeFabric s).MemWf := hs.foldl fun _ _ ht => .ite ht ht.setIsland

theorem State.MemWf.execCreateContext {cfg} (hs : s.MemWf) : KeepsMem (execCreateContext cfg s) := by
  unfold Machine.execCreateContext
  split
  · exact .fault
  · exact .next (.clearPages (.clearPages ((hs.wakeFabric.foldl fun _ _ ht => ht.setBytes).foldl fun _ _ ht => ht.updCore)))

theorem State.MemWf.execDestroyContext {ctx} (hs : s.MemWf) : KeepsMem (execDestroyContext ctx s) := by
  unfold Machine.execDestroyContext
  split
  · exact .fault
  · exact .ite .fault (.next (hs.foldl fun _ _ ht => ht.liftMark))

theorem State.MemWf.invalidate {ctx c va size} (hs : s.MemWf) : (invalidate ctx c va size s).MemWf := hs

theorem State.MemWf.execTlbInvalidation {ctx va size} (hs : s.MemWf) : KeepsMem (execTlbInvalidation ctx va size s) := by
  unfold Machine.execTlbInvalidation
  split
  · exact .fault
  · exact .next hs.invalidate

theorem State.MemWf.unmapPage {root va} (hs : s.MemWf) : (unmapPage root va s).MemWf := by
  unfold Machine.unmapPage
  split
  · exact hs.setBytes
  · exact hs

theorem State.MemWf.breakOff {core va size r} (hs : s.MemWf) : (breakOff core va size s r).MemWf := by
  unfold Machine.breakOff
  split
  · exact hs
  · exact hs.foldl fun _ _ ht => ht.foldl fun _ _ hu => .ite hu (.ite hu.freshCoin.engineWrite hu.freshCoin)

theorem State.MemWf.freezeCopies {ctx va size} (hs : s.MemWf) : (freezeCopies ctx va size s).MemWf :=
  hs.foldl fun _ _ ht => by
    dsimp only
    split
    · exact ht
    · exact ht.foldl fun _ _ hu => hu.breakOff

theorem State.MemWf.execPageRevoke {ctx va size} (hs : s.MemWf) : KeepsMem (execPageRevoke ctx va size s) := by
  unfold Machine.execPageRevoke
  split
  · exact .fault
  · exact .next ((hs.freezeCopies.foldl fun _ _ ht => ht.unmapPage).invalidate)

theorem State.MemWf.resumeCopies {core ctx} (hs : s.MemWf) : (resumeCopies core ctx s).MemWf := by
  unfold Machine.resumeCopies
  split
  · exact hs.updCore
  · exact hs

theorem State.MemWf.execResumeFrozenMaster {m} (hs : s.MemWf) : KeepsMem (execResumeFrozenMaster m s) := by
  unfold Machine.execResumeFrozenMaster
  split
  · exact .ite (.next hs.updGang) .fault
  · exact .ite .fault (hs.comeUp fun _ ht => .next ht.resumeCopies)
  · exact .ite (.next hs.updSub) .fault
  · exact .ite (.next hs.updConn) .fault

theorem State.MemWf.dropBytes {core r} (hs : s.MemWf) : (dropBytes core r s).MemWf :=
  hs.foldl fun _ _ ht => by
    dsimp only
    split
    · exact ht
    · exact .foldl (.ite_snd ht.readWords ht) fun _ _ hu => by
        split
        · exact hu.freshCoin
        · exact .ite hu.freshCoin.setSpad hu.freshCoin.engineWrite

theorem State.MemWf.discardCopies {core ctx} (hs : s.MemWf) : (discardCopies core ctx s).MemWf :=
  (hs.foldl fun _ _ ht => ht.dropBytes.markCopy).foldl fun _ _ ht => ht.retire

theorem State.MemWf.execDiscardFrozenMaster {m} (hs : s.MemWf) : KeepsMem (execDiscardFrozenMaster m s) := by
  unfold Machine.execDiscardFrozenMaster
  split
  · split
    · exact .fault
    · exact .ite .fault (.next hs.perfCount.logCancel.cancelLanes)
  · exact .ite (.next hs.discardCopies) .fault
  · exact .ite (.next hs.updSub) .fault
  · exact .ite (.next hs.updConn) .fault

theorem State.MemWf.execPtpMessageArrival {port time} (hs : s.MemWf) : KeepsMem (execPtpMessageArrival port time s) :=
  .ite (.next hs) (.next hs)

theorem State.MemWf.handOver {im ck n f} (hs : s.MemWf) : (handOver im ck n f s).MemWf := hs

theorem State.MemWf.rollBack {ck} (hs : s.MemWf) : (rollBack s ck).MemWf := by
  unfold Machine.rollBack
  dsimp only
  split
  · exact .foldl hs fun _ _ ht => ht.cancelLanes
  · exact hs

theorem State.MemWf.execFailureRecovery {job} (hs : s.MemWf) : KeepsMem (execFailureRecovery job s) := by
  unfold Machine.execFailureRecovery
  split
  · exact .fault
  · exact .ite .fault (.next (.foldl hs fun _ _ ht => ht.rollBack))

/-! ## Every instruction -/

/-- Every instruction keeps memory canonical: arm by arm. -/
theorem State.MemWf.exec {i} (hs : s.MemWf) : KeepsMem (exec i s) := by
  cases i with
  | nop => exact hs.execNop
  | br => exact hs.execBr
  | brx => exact hs.execBrx
  | callLabel => exact hs.execCallLabel
  | callRegister => exact hs.execCallRegister
  | ret => exact hs.execRet
  | exit => exact hs.execExit
  | trap => exact hs.execTrap
  | tret => exact hs.execTret
  | getsr => exact hs.execGetsr
  | setsr => exact hs.execSetsr
  | setsrKey => exact hs.execSetsrKey
  | setsrPerf => exact hs.execSetsrPerf
  | yield => exact hs.execYield
  | brk => exact hs.execBrk
  | add h o => exact (hs.regOp : KeepsMem (execAdd h o s))
  | sub h o => exact (hs.regOp : KeepsMem (execSub h o s))
  | mul h o => exact (hs.regOp : KeepsMem (execMul h o s))
  | mulhi h o => exact (hs.regOp : KeepsMem (execMulhi h o s))
  | mad h o => exact (hs.regOp : KeepsMem (execMad h o s))
  | div h o => exact (hs.regOp : KeepsMem (execDiv h o s))
  | rem h o => exact (hs.regOp : KeepsMem (execRem h o s))
  | neg h o => exact (hs.regOp : KeepsMem (execNeg h o s))
  | abs h o => exact (hs.regOp : KeepsMem (execAbs h o s))
  | min h o => exact (hs.regOp : KeepsMem (execMin h o s))
  | max h o => exact (hs.regOp : KeepsMem (execMax h o s))
  | and h o => exact (hs.regOp : KeepsMem (execAnd h o s))
  | or h o => exact (hs.regOp : KeepsMem (execOr h o s))
  | xor h o => exact (hs.regOp : KeepsMem (execXor h o s))
  | not h o => exact (hs.regOp : KeepsMem (execNot h o s))
  | shl h o => exact (hs.regOp : KeepsMem (execShl h o s))
  | shr h o => exact (hs.regOp : KeepsMem (execShr h o s))
  | sar h o => exact (hs.regOp : KeepsMem (execSar h o s))
  | rol h o => exact (hs.regOp : KeepsMem (execRol h o s))
  | ror h o => exact (hs.regOp : KeepsMem (execRor h o s))
  | popc h o => exact (hs.regOp : KeepsMem (execPopc h o s))
  | clz h o => exact (hs.regOp : KeepsMem (execClz h o s))
  | ctz h o => exact (hs.regOp : KeepsMem (execCtz h o s))
  | brev h o => exact (hs.regOp : KeepsMem (execBrev h o s))
  | bfe h o => exact (hs.regOp : KeepsMem (execBfe h o s))
  | bfi h o => exact (hs.regOp : KeepsMem (execBfi h o s))
  | sel h o => exact (hs.regOp : KeepsMem (execSel h o s))
  | mov h o => exact (hs.regOp : KeepsMem (execMov h o s))
  | setp h o => exact (hs.regOp : KeepsMem (execSetp h o s))
  | plog h op d a b => exact (hs.regOp : KeepsMem (execPlog h op d a b s))
  | addc h o => exact (hs.regOp : KeepsMem (execAddc h o s))
  | lea h o scale => exact (hs.regOp : KeepsMem (execLea h o scale s))
  | fadd h o => exact (hs.regOp : KeepsMem (execFadd h o s))
  | fsub h o => exact (hs.regOp : KeepsMem (execFsub h o s))
  | fmul h o => exact (hs.regOp : KeepsMem (execFmul h o s))
  | ffma h o => exact (hs.regOp : KeepsMem (execFfma h o s))
  | fnfma h o => exact (hs.regOp : KeepsMem (execFnfma h o s))
  | fdiv h o => exact (hs.regOp : KeepsMem (execFdiv h o s))
  | fsqrt h o => exact (hs.regOp : KeepsMem (execFsqrt h o s))
  | frcp h o => exact (hs.regOp : KeepsMem (execFrcp h o s))
  | frsq h o => exact (hs.regOp : KeepsMem (execFrsq h o s))
  | fmin h o => exact (hs.regOp : KeepsMem (execFmin h o s))
  | fmax h o => exact (hs.regOp : KeepsMem (execFmax h o s))
  | fabs h o => exact (hs.regOp : KeepsMem (execFabs h o s))
  | fneg h o => exact (hs.regOp : KeepsMem (execFneg h o s))
  | fsetp h o => exact (hs.regOp : KeepsMem (execFsetp h o s))
  | fclass h o => exact (hs.regOp : KeepsMem (execFclass h o s))
  | frnd h o => exact (hs.regOp : KeepsMem (execFrnd h o s))
  | fcpsgn h o => exact (hs.regOp : KeepsMem (execFcpsgn h o s))
  | fscale h o => exact (hs.regOp : KeepsMem (execFscale h o s))
  | fexpo h o => exact (hs.regOp : KeepsMem (execFexpo h o s))
  | fmant h o => exact (hs.regOp : KeepsMem (execFmant h o s))
  | f2sum h o => exact (hs.regOp : KeepsMem (execF2sum h o s))
  | f2prod h o => exact (hs.regOp : KeepsMem (execF2prod h o s))
  | fdot2 h o => exact (hs.regOp : KeepsMem (execFdot2 h o s))
  | fpfma h o => exact (hs.regOp : KeepsMem (execFpfma h o s))
  | cvt h o => exact (hs.regOp : KeepsMem (execCvt h o s))
  | pack h o => exact (hs.regOp : KeepsMem (execPack h o s))
  | unpk h hi o => exact (hs.regOp : KeepsMem (execUnpk h hi o s))
  | qnt h d a b => exact (hs.regOp : KeepsMem (execQnt h d a b s))
  | qntIns h d a b j => exact (hs.regOp : KeepsMem (execQntIns h d a b j s))
  | fexp2 h o => exact (hs.regOp : KeepsMem (execFexp2 h o s))
  | flog2 h o => exact (hs.regOp : KeepsMem (execFlog2 h o s))
  | rand h t d => exact (hs.regOp : KeepsMem (execRand h t d s))
  | seed h fid a => exact (hs.regOp : KeepsMem (execSeed h fid a s))
  | wclr h d => exact (hs.regOp : KeepsMem (execWclr h d s))
  | wclrStat h d => exact (hs.regOp : KeepsMem (execWclrStat h d s))
  | wadd h t d a => exact (hs.regOp : KeepsMem (execWadd h t d a s))
  | wsub h t d a => exact (hs.regOp : KeepsMem (execWsub h t d a s))
  | wmul2 h o => exact (hs.regOp : KeepsMem (execWmul2 h o s))
  | wmul3 h o c => exact (hs.regOp : KeepsMem (execWmul3 h o c s))
  | wsgn h wide d a p => exact (hs.regOp : KeepsMem (execWsgn h wide d a p s))
  | wrnd h wide rm d a => exact (hs.regOp : KeepsMem (execWrnd h wide rm d a s))
  | wmov h op d a => exact (hs.regOp : KeepsMem (execWmov h op d a s))
  | wld => exact hs.execWld
  | wst => exact hs.execWst
  | ld => exact hs.execLd
  | st => exact hs.execSt
  | imageStore => exact hs.execImageStore
  | atom => exact hs.execAtom
  | cas => exact hs.execCas
  | red => exact hs.execRed
  | fenceAcq => exact hs.execFenceAcq
  | fenceRel => exact hs.execFenceRel
  | fenceFull => exact hs.execFenceFull
  | fenceComplete => exact hs.execFenceComplete
  | prefL1 => exact hs.execPrefL1
  | prefL2 => exact hs.execPrefL2
  | invalL1 => exact hs.execInvalL1
  | invalAll => exact hs.execInvalAll
  | invalRdc => exact hs.execInvalRdc
  | flush => exact hs.execFlush
  | flushAll => exact hs.execFlushAll
  | ldesc => exact hs.execLdesc
  | sdesc => exact hs.execSdesc
  | dalloc => exact hs.execDalloc
  | dallocZ => exact hs.execDallocZ
  | magazineRefill => exact hs.execMagazineRefill
  | dfree => exact hs.execDfree
  | spawnLabel => exact hs.execSpawnLabel
  | spawnRegister => exact hs.execSpawnRegister
  | binTimerExpiry => exact hs.execBinTimerExpiry
  | spawnGangPlacement => exact hs.execSpawnGangPlacement
  | overflowReturn => exact hs.execOverflowReturn
  | barSync => exact hs.execBarSync
  | barArv => exact hs.execBarArv
  | barEsync => exact hs.execBarEsync
  | barEarv => exact hs.execBarEarv
  | barRgn => exact hs.execBarRgn
  | barrierPhaseComplete => exact hs.execBarrierPhaseComplete
  | voteAll h d a => exact (hs.voteOp : KeepsMem (execVoteAll h d a s))
  | voteAny h d a => exact (hs.voteOp : KeepsMem (execVoteAny h d a s))
  | voteBallot h d a => exact (hs.voteOp : KeepsMem (execVoteBallot h d a s))
  | voteUni => exact hs.execVoteUni
  | shfl => exact hs.execShfl
  | gred => exact hs.execGred
  | gscan => exact hs.execGscan
  | matchAny => exact hs.execMatchAny
  | matchAll => exact hs.execMatchAll
  | racq => exact hs.execRacq
  | racqGrant => exact hs.execRacqGrant
  | regdeadlockDetect => exact hs.execRegdeadlockDetect
  | rrel => exact hs.execRrel
  | incu => exact hs.execIncu
  | incumbentCommit => exact hs.execIncumbentCommit
  | incumbentBroadcastArrival => exact hs.execIncumbentBroadcastArrival
  | systemIncumbentForward => exact hs.execSystemIncumbentForward
  | incrd => exact hs.execIncrd
  | incrdHome => exact hs.execIncrdHome
  | bnd => exact hs.execBnd
  | defer => exact hs.execDefer
  | popen => exact hs.execPopen
  | accept => exact hs.execAccept
  | pclose => exact hs.execPclose
  | launch => exact hs.execLaunch
  | signal => exact hs.execSignal
  | signalAdd => exact hs.execSignalAdd
  | orbitSize h d => exact (hs.orbitOp : KeepsMem (execOrbitSize h d s))
  | orbitStab h d => exact (hs.orbitOp : KeepsMem (execOrbitStab h d s))
  | orbitImg h d j => exact (hs.orbitOp : KeepsMem (execOrbitImg h d j s))
  | role => exact hs.execRole
  | stgw => exact hs.execStgw
  | stgwPass => exact hs.execStgwPass
  | stga => exact hs.execStga
  | copyG2s => exact hs.execCopyG2s
  | copyS2g => exact hs.execCopyS2g
  | copyAcceptance => exact hs.execCopyAcceptance
  | gath => exact hs.execGath
  | scat => exact hs.execScat
  | copyComplete => exact hs.execCopyComplete
  | wait => exact hs.execWait
  | waitComplete => exact hs.execWaitComplete
  | sleep => exact hs.execSleep
  | sleepWake => exact hs.execSleepWake
  | subs => exact hs.execSubs
  | subscriptionTile => exact hs.execSubscriptionTile
  | unsub => exact hs.execUnsub
  | troupe => exact hs.execTroupe
  | mopf => exact hs.execMopf
  | mopfComplete => exact hs.execMopfComplete
  | mma => exact hs.execMma
  | matrixStep => exact hs.execMatrixStep
  | mmaComplete => exact hs.execMmaComplete
  | matrixFaultDelivery => exact hs.execMatrixFaultDelivery
  | mld => exact hs.execMld
  | mst => exact hs.execMst
  | tileMoveComplete => exact hs.execTileMoveComplete
  | mcont => exact hs.execMcont
  | wbload => exact hs.execWbload
  | wbloadComplete => exact hs.execWbloadComplete
  | cgrp => exact hs.execCgrp
  | cgrpFree => exact hs.execCgrpFree
  | cag => exact hs.execCag
  | crs => exact hs.execCrs
  | ca2a => exact hs.execCa2a
  | collectivePerform => exact hs.execCollectivePerform
  | cbar => exact hs.execCbar
  | cwait => exact hs.execCwait
  | ckpt => exact hs.execCkpt
  | ckptHold => exact hs.execCkptHold
  | ckptResume => exact hs.execCkptResume
  | perfSel => exact hs.execPerfSel
  | perfSmp => exact hs.execPerfSmp
  | stallSample => exact hs.execStallSample
  | takeTrap => exact hs.execTakeTrap
  | meshRequestArrival => exact hs.execMeshRequestArrival
  | l2Lookup => exact hs.execL2Lookup
  | hbmFillComplete => exact hs.execHbmFillComplete
  | cacheFillArrival => exact hs.execCacheFillArrival
  | loadReply => exact hs.execLoadReply
  | l1Eviction => exact hs.execL1Eviction
  | peerAccessArrival => exact hs.execPeerAccessArrival
  | pageWalkComplete => exact hs.execPageWalkComplete
  | launchAcceptance => exact hs.execLaunchAcceptance
  | ticketClaim => exact hs.execTicketClaim
  | launchCompletion => exact hs.execLaunchCompletion
  | stealRequest => exact hs.execStealRequest
  | stealReply => exact hs.execStealReply
  | stolenRecordsArrival => exact hs.execStolenRecordsArrival
  | queueFetch => exact hs.execQueueFetch
  | queueWake => exact hs.execQueueWake
  | queueUnmap => exact hs.execQueueUnmap
  | queueMap => exact hs.execQueueMap
  | rdmaWrite => exact hs.execRdmaWrite
  | rdmaRead => exact hs.execRdmaRead
  | rdmaSend => exact hs.execRdmaSend
  | rdmaRefused => exact hs.execRdmaRefused
  | preemptRequest => exact hs.execPreemptRequest
  | stopReleaseComplete => exact hs.execStopReleaseComplete
  | storageClaimScanOut => exact hs.execStorageClaimScanOut
  | crewRestore => exact hs.execCrewRestore
  | powerOn => exact execPowerOn_keepsMem
  | attestationReport => exact hs.execAttestationReport
  | createContext => exact hs.execCreateContext
  | tlbInvalidation => exact hs.execTlbInvalidation
  | pageRevoke => exact hs.execPageRevoke
  | resumeFrozenMaster => exact hs.execResumeFrozenMaster
  | discardFrozenMaster => exact hs.execDiscardFrozenMaster
  | counterGrant => exact hs.execCounterGrant
  | breakpointTableWrite => exact hs.execBreakpointTableWrite
  | powerMeasurement => exact hs.execPowerMeasurement
  | powerThrottleStep => exact hs.execPowerThrottleStep
  | setPowerCap => exact hs.execSetPowerCap
  | islandStateChange => exact hs.execIslandStateChange
  | islandExitComplete => exact hs.execIslandExitComplete
  | flitRetransmit => exact hs.execFlitRetransmit
  | linkFailure => exact hs.execLinkFailure
  | failureRecovery => exact hs.execFailureRecovery
  | storeAcknowledgement => exact hs.execStoreAcknowledgement
  | stealRefusalArrival => exact hs.execStealRefusalArrival
  | subscriptionTileComplete => exact hs.execSubscriptionTileComplete
  | linkRecovery => exact hs.execLinkRecovery
  | ptpMessageArrival => exact hs.execPtpMessageArrival
  | destroyContext => exact hs.execDestroyContext
  | emptyReplayLog => exact hs.execEmptyReplayLog

/-! ## Time and what is due -/

theorem State.MemWf.deliverOverdue (hs : s.MemWf) : (deliverOverdue s).MemWf :=
  hs.foldl fun _ _ ht => ht.foldl fun _ _ hu => by
    split
    · exact hu.arriveBcast
    · exact hu

theorem State.MemWf.perfTick {core ctx n clk} (hs : s.MemWf) : (perfTick core ctx n clk s).MemWf :=
  hs.perfCount.foldl fun _ _ ht => ht.perfCount

theorem State.MemWf.endCycle {core} (hs : s.MemWf) : (endCycle core s).MemWf := hs.updPerf

theorem State.MemWf.perfCycles {n} (hs : s.MemWf) : (perfCycles n s).MemWf :=
  hs.foldl fun _ _ ht => by
    split
    · exact ht
    · split
      · exact ht
      · exact .ite ht.perfTick.endCycle ht.perfTick.endCycle.perfTick.endCycle

theorem State.MemWf.chargeQueues {n} (hs : s.MemWf) : (chargeQueues n s).MemWf :=
  hs.foldl fun _ _ ht => by
    split
    · exact ht
    · split
      · exact ht
      · exact ht

theorem State.MemWf.runThreads {n} (hs : s.MemWf) : (runThreads n s).MemWf := hs
theorem State.MemWf.settleOps (hs : s.MemWf) : (settleOps s).MemWf := hs.foldl fun _ _ ht => .ite ht.subsDone ht.allocDone.settle
theorem State.MemWf.advanceCore {core} (hs : s.MemWf) : (advanceCore s core).MemWf := hs.advanceCopies.advanceTiles.advanceMoves

theorem State.MemWf.setClock {c n p} (hs : s.MemWf) : ({ s with clk := c, seq := n, ptp := p } : State).MemWf := hs

theorem State.MemWf.settleTime {n} (hs : s.MemWf) : (settleTime n s).MemWf :=
  .startColls (.startMoves (.startCopies (.purgePools (.deliverOverdue (.holdImages
    (.setClock (.runThreads hs.settleOps.perfCycles.chargeQueues)))))))

theorem State.MemWf.tick (hs : s.MemWf) : (tick s).MemWf := hs.settleTime.foldl fun _ _ ht => ht.advanceCore

theorem State.MemWf.takeInbox {i rest} (hs : s.MemWf) : KeepsMem (takeInbox i rest s) := by
  unfold Machine.takeInbox
  dsimp only
  split
  · exact .next hs
  · split
    · exact .next (.updConn hs)
    · exact .exec hs

theorem State.MemWf.fetchBlocks {k} (hs : s.MemWf) : (fetchBlocks k s).MemWf := by
  unfold Machine.fetchBlocks
  split
  · exact hs
  · exact hs.foldl fun _ _ ht => by
      split
      · exact ht.fetchBlock
      · exact ht

theorem State.MemWf.issueAt {k g group pc} (hs : s.MemWf) : KeepsMem (issueAt k g group pc s) := by
  unfold Machine.issueAt
  split
  · exact .next hs.skipFill
  · exact .next hs.startWalks
  · exact .next hs.trapAt
  · split
    · exact .next hs.trapAt
    next heq => exact .next (hs.deliverFault _ heq)
    · exact .exec hs

theorem State.MemWf.gangTurn {k} (hs : s.MemWf) : KeepsMem (gangTurn k s) := by
  unfold Machine.gangTurn
  split
  · exact .next hs
  next g _ =>
    have hf : (Machine.fetchBlocks k (Machine.settleFills k (Machine.fetchBlocks k
        (Machine.guardGang k (Machine.dropStale g.core s))))).MemWf :=
      hs.dropStale.guardGang.fetchBlocks.settleFills.fetchBlocks
    split
    · exact hs.exec
    · dsimp only
      split
      · exact .next hf
      · split
        · exact .next hf
        · split
          · exact hf.exec
          · split
            · exact .next (.getD hf.deliverFault hf)
            · exact hf.issueAt

theorem State.MemWf.doMoveOf {m} (hs : s.MemWf) : KeepsMem (doMoveOf m s) := by
  unfold Machine.doMoveOf
  split
  · exact hs.exec
  · exact hs.takeInbox
  · exact hs.updConn.exec
  · exact hs.gangTurn

/-! ## One step -/

theorem State.MemWf.step (hs : s.MemWf) : KeepsMem (step s) := by
  unfold Machine.step
  dsimp only
  split
  · exact .next hs.tick
  · exact hs.tick.doMoveOf

/-- Settles O56: what every state function keeps, the step keeps. -/
theorem stepsKeepMemory : Obligations.StepsKeepMemory := fun _ t hs ht => hs.step t ht

end Sys2Proof.Machine
end

section
/-! Proof of O37, first part: exact sums and products, and the terms and pairs that the array makes of them. -/

namespace Sys2Proof.Machine

/-! ## Sums -/

theorem fFin_false (F : FFmt) (rm : Rm) (x : FVal) : fFin F rm (x, false) = fOut F rm x := by simp [fFin]

theorem fFin_nan (F : FFmt) (rm : Rm) (iv : Bool) : fFin F rm (.nan false, iv) = (fNaN F, if iv then fIV else 0) := by
  simp [fFin, fOut]

/-- R30, R32: the rounding of a finite exact value, by whether it is zero. -/
theorem fOut_of_ne_zero {F : FFmt} {rm : Rm} {v : FVal} {x : ℚ} (hv : v.isFin = true) (hq : v.q = x) (hx : x ≠ 0) :
    Rounded F rm x (fOut F rm v) := hq ▸ (fOut_intoFloat F rm v).2.2.2 hv (hq ▸ hx)

section
variable {rm : Rm} {n1 n2 : Bool} {m1 m2 : ℕ} {e1 e2 : ℤ}

theorem finAdd_eq : ∃ u : ℤ, u ≤ e1 ∧ u ≤ e2 ∧ finAdd rm n1 m1 e1 n2 m2 e2 =
    if scaled n1 m1 e1 u + scaled n2 m2 e2 u = 0 then .fin (if n1 = n2 then n1 else rm = .rdn) 0 0
    else .fin (decide (scaled n1 m1 e1 u + scaled n2 m2 e2 u < 0)) (scaled n1 m1 e1 u + scaled n2 m2 e2 u).natAbs u :=
  ⟨if e1 ≤ e2 then e1 else e2, by split <;> omega, by split <;> omega, rfl⟩

theorem finAdd_isFin : (finAdd rm n1 m1 e1 n2 m2 e2).isFin = true := by
  obtain ⟨u, -, -, h⟩ := finAdd_eq (rm := rm) (n1 := n1) (n2 := n2) (m1 := m1) (m2 := m2) (e1 := e1) (e2 := e2)
  rw [h]
  split <;> rfl

theorem natAbs_signed_cast (z : ℤ) : (if decide (z < 0) then (-1 : ℚ) else 1) * (z.natAbs : ℚ) = z := by
  rcases lt_or_ge z 0 with h | h
  · rw [if_pos (by simpa using h), Nat.cast_natAbs, abs_of_neg h]; push_cast; ring
  · rw [if_neg (by simpa using h), Nat.cast_natAbs, abs_of_nonneg h, one_mul]

theorem finAdd_q : (finAdd rm n1 m1 e1 n2 m2 e2).q = (FVal.fin n1 m1 e1).q + (FVal.fin n2 m2 e2).q := by
  obtain ⟨u, h1, h2, h⟩ := finAdd_eq (rm := rm) (n1 := n1) (n2 := n2) (m1 := m1) (m2 := m2) (e1 := e1) (e2 := e2)
  rw [h, scaled_q h1, scaled_q h2, ← add_mul, ← Int.cast_add]
  split
  next hz => simp [hz, FVal.q]
  next => rw [FVal.q, natAbs_signed_cast]

/-- R32: an exact sum of zero has the sign that both have, or that of the mode. -/
theorem finAdd_of_zero (hq : (FVal.fin n1 m1 e1).q + (FVal.fin n2 m2 e2).q = 0) :
    finAdd rm n1 m1 e1 n2 m2 e2 = .fin (if n1 = n2 then n1 else decide (rm = .rdn)) 0 0 := by
  obtain ⟨u, h1, h2, h⟩ := finAdd_eq (rm := rm) (n1 := n1) (n2 := n2) (m1 := m1) (m2 := m2) (e1 := e1) (e2 := e2)
  rw [scaled_q h1, scaled_q h2, ← add_mul, ← Int.cast_add, mul_eq_zero, Int.cast_eq_zero] at hq
  rw [h, if_pos (hq.resolve_right (by positivity))]
end

theorem sumIs_fAdd (F : FFmt) (rm : Rm) (a b : FVal) : SumIs F rm a b (fAdd F rm a b) := by
  cases a with
  | nan s => exact ⟨fun _ => by cases b <;> exact fFin_nan .., nofun, nofun, nofun, nofun⟩
  | inf n =>
    cases b with
    | nan s => exact ⟨fun _ => fFin_nan .., nofun, nofun, nofun, nofun⟩
    | inf k =>
      refine ⟨nofun, fun n k hn hk => ?_, nofun, nofun, nofun⟩
      cases hn; cases hk
      rw [fAdd, fAddV]
      split
      · exact fFin_false ..
      · exact fFin_nan ..
    | fin k m e => exact ⟨nofun, nofun, fun n h _ => by cases h; exact fFin_false .., nofun, nofun⟩
  | fin n1 m1 e1 =>
    cases b with
    | nan s => exact ⟨fun _ => fFin_nan .., nofun, nofun, nofun, nofun⟩
    | inf k => exact ⟨nofun, nofun, nofun, fun n _ h => by cases h; exact fFin_false .., nofun⟩
    | fin n2 m2 e2 =>
      have hadd : fAdd F rm (.fin n1 m1 e1) (.fin n2 m2 e2) = fOut F rm (finAdd rm n1 m1 e1 n2 m2 e2) := fFin_false ..
      refine ⟨nofun, nofun, nofun, nofun, fun _ _ => ⟨fun hq => ?_, fun hq => ?_⟩⟩
      · exact hadd ▸ fOut_of_ne_zero finAdd_isFin finAdd_q hq
      · rw [hadd, finAdd_of_zero hq]
        rfl

/-! ## Products -/

theorem fin_mul_q (n1 n2 : Bool) (m1 m2 : ℕ) (e1 e2 : ℤ) :
    (FVal.fin (n1 != n2) (m1 * m2) (e1 + e2)).q = (FVal.fin n1 m1 e1).q * (FVal.fin n2 m2 e2).q := by
  simp only [FVal.q, zpow_add₀ (two_ne_zero (α := ℚ)), Nat.cast_mul]
  cases n1 <;> cases n2 <;> simp <;> ring

theorem fin_q_eq_zero {n : Bool} {m : ℕ} {e : ℤ} : (FVal.fin n m e).q = 0 ↔ m = 0 := by
  cases n <;> simp [FVal.q, zpow_ne_zero]

theorem fMul_inf_left (F : FFmt) (rm : Rm) (n k : Bool) (m : ℕ) (e : ℤ) :
    fMul F rm (.inf n) (.fin k m e) = if m = 0 then (fNaN F, fIV) else (fInf F (n != k), 0) := by
  rw [fMul, fMulV]
  split
  · exact fFin_nan ..
  · exact fFin_false ..

theorem fMul_inf_right (F : FFmt) (rm : Rm) (n k : Bool) (m : ℕ) (e : ℤ) :
    fMul F rm (.fin k m e) (.inf n) = if m = 0 then (fNaN F, fIV) else (fInf F (k != n), 0) := by
  rw [fMul, fMulV]
  split
  · exact fFin_nan ..
  · exact (fFin_false ..).trans (by rw [bne_comm]; rfl)

theorem productIs_fMul (F : FFmt) (rm : Rm) (a b : FVal) : ProductIs F rm a b (fMul F rm a b) := by
  cases a with
  | nan s => exact ⟨fun _ => by cases b <;> exact fFin_nan .., by simp [FVal.isInf, FVal.isZero], by simp [FVal.isInf, FVal.isNan], nofun⟩
  | inf n =>
    cases b with
    | nan s => exact ⟨fun _ => fFin_nan .., by simp [FVal.isInf, FVal.isZero], by simp [FVal.isInf, FVal.isNan], nofun⟩
    | inf k =>
      exact ⟨by simp [FVal.isNan], by simp [FVal.isZero], fun _ => fFin_false .., nofun⟩
    | fin k m e =>
      rw [fMul_inf_left]
      exact ⟨by simp [FVal.isNan], by simp +contextual [FVal.isInf, FVal.isZero], by simp +contextual [FVal.isInf, FVal.isZero, FVal.neg?], nofun⟩
  | fin n1 m1 e1 =>
    cases b with
    | nan s => exact ⟨fun _ => fFin_nan .., by simp [FVal.isInf, FVal.isZero], by simp [FVal.isInf, FVal.isNan], nofun⟩
    | inf k =>
      rw [fMul_inf_right]
      exact ⟨by simp [FVal.isNan], by simp +contextual [FVal.isInf, FVal.isZero], by simp +contextual [FVal.isInf, FVal.isZero, FVal.neg?], nofun⟩
    | fin n2 m2 e2 =>
      have hmul : fMul F rm (.fin n1 m1 e1) (.fin n2 m2 e2) = fOut F rm (.fin (n1 != n2) (m1 * m2) (e1 + e2)) := fFin_false ..
      rw [hmul]
      refine ⟨by simp [FVal.isNan], by simp [FVal.isInf], by simp [FVal.isInf], fun _ _ => ⟨fun hq => ?_, fun hq => ?_⟩⟩
      · exact fOut_of_ne_zero rfl (fin_mul_q ..) hq
      · rw [← fin_mul_q, fin_q_eq_zero] at hq
        exact if_pos hq

end Sys2Proof.Machine
end

section
/-! Proof of O37, second part: the terms and the pairs of the array. -/

namespace Sys2Proof.Machine

/-! ## Roundings into f32 -/

theorem f32_format : f32F.fb ≠ 0 ∧ f32F.bits ≤ 64 ∧ 2 ^ f32F.eb - 1 = f32F.bias + 1 + f32F.bias ∧ 0 < f32F.bias := tyF_format (t := .f32) rfl

theorem fInf_f32_lt (n : Bool) : (fInf f32F n).toNat < 2 ^ 32 := by cases n <;> decide

theorem fRnd_f32_lt (rm : Rm) (n : Bool) (m : ℕ) (e : ℤ) : (fRnd f32F rm n m e).1.toNat < 2 ^ 32 := by
  rcases lt_or_ge (rndCode f32F rm n m e) ((2 ^ f32F.eb - 1) * 2 ^ f32F.fb) with h | h
  · rw [fRnd_of_lt h]
    exact (fDec_fSign f32_format.2.1 h).2.1
  · rw [fRnd_of_le h]
    dsimp only
    split
    · exact (fDec_fSign f32_format.2.1 (Nat.sub_lt (by decide) one_pos)).2.1
    · exact fInf_f32_lt n

theorem rne32_lt (v : FVal) : (rne32 v).toNat < 2 ^ 32 := by
  cases v with
  | nan s => cases s <;> decide
  | inf n => exact fInf_f32_lt n
  | fin n m e =>
    rw [rne32, fOut]
    split
    · cases n <;> decide
    · exact fRnd_f32_lt ..

theorem isFin_eq (v : FVal) : isFin v = v.isFin := by cases v <;> rfl

theorem isFin_of_rne32 {v : FVal} (h : isFin (val32 (rne32 v)) = true) : v.isFin = true := by
  cases v with
  | nan s => exact absurd h (by cases s <;> decide)
  | inf n => exact absurd h (by cases n <;> decide)
  | fin n m e => rfl

/-! ## Pairs -/

theorem lo32_toNat (x : Dword) : (lo32 x).toNat = x.toNat % 2 ^ 32 := Nat.and_two_pow_sub_one_eq_mod x.toNat 32

/-- R44: the two halves of a pair. -/
theorem pair_toNat {x y : Dword} (hx : x.toNat < 2 ^ 32) (hy : y.toNat < 2 ^ 32) : (lo32 x ||| y <<< 32).toNat = x.toNat + 2 ^ 32 * y.toNat := by
  rw [BitVec.toNat_or, BitVec.toNat_shiftLeft, lo32_toNat, Nat.mod_eq_of_lt hx, Nat.shiftLeft_eq, Nat.mod_eq_of_lt (by omega), Nat.or_comm,
    mul_comm, ← Nat.two_pow_add_eq_or_of_lt hx, add_comm]

theorem lo32_pair {x y : Dword} (hx : x.toNat < 2 ^ 32) (hy : y.toNat < 2 ^ 32) : lo32 (lo32 x ||| y <<< 32) = x :=
  BitVec.eq_of_toNat_eq (by rw [lo32_toNat, pair_toNat hx hy]; omega)

theorem hi32_pair {x y : Dword} (hx : x.toNat < 2 ^ 32) (hy : y.toNat < 2 ^ 32) : (lo32 x ||| y <<< 32) >>> 32 = y :=
  BitVec.eq_of_toNat_eq (by rw [BitVec.toNat_ushiftRight, pair_toNat hx hy, Nat.shiftRight_eq_div_pow]; omega)

theorem mxAdd_fin {a b : FVal} (h : (mxAdd a b).isFin = true) : a.isFin = true ∧ b.isFin = true := by
  cases a <;> cases b
  case fin.fin => exact ⟨rfl, rfl⟩
  case inf.inf n k => by_cases hnk : n = k <;> simp [mxAdd, fAddV, hnk, FVal.isFin] at h
  all_goals cases h

theorem exists_fin {a : FVal} (ha : a.isFin = true) : ∃ n m e, a = .fin n m e := by
  cases a with
  | nan s => cases ha
  | inf n => cases ha
  | fin n m e => exact ⟨n, m, e, rfl⟩

theorem mxAdd_of_fin {a b : FVal} (ha : a.isFin = true) (hb : b.isFin = true) : (mxAdd a b).isFin = true ∧ (mxAdd a b).q = a.q + b.q := by
  obtain ⟨n1, m1, e1, rfl⟩ := exists_fin ha
  obtain ⟨n2, m2, e2, rfl⟩ := exists_fin hb
  exact ⟨finAdd_isFin, finAdd_q⟩

theorem mxMul_of_fin {a b : FVal} (ha : a.isFin = true) (hb : b.isFin = true) : (mxMul a b).isFin = true ∧ (mxMul a b).q = a.q * b.q := by
  obtain ⟨n1, m1, e1, rfl⟩ := exists_fin ha
  obtain ⟨n2, m2, e2, rfl⟩ := exists_fin hb
  exact ⟨rfl, fin_mul_q ..⟩

theorem flip_of_fin {a : FVal} (ha : a.isFin = true) : a.flip.isFin = true ∧ a.flip.q = -a.q := by
  obtain ⟨n, m, e, rfl⟩ := exists_fin ha
  exact ⟨rfl, by cases n <;> simp [FVal.flip, FVal.q]⟩

/-- The sum part of a pair to which a term is added, and the compensation. -/
def sumPart (pair t : Dword) : Dword := rne32 (mxAdd (val32 (lo32 pair)) (val32 t))
def lostPart (pair t : Dword) : FVal := mxAdd (mxAdd (val32 (lo32 pair)) (val32 t)) (val32 (sumPart pair t)).flip
def compPart (pair t : Dword) : Dword :=
  if isFin (val32 (sumPart pair t)) then rne32 (mxAdd (val32 (pair >>> 32)) (lostPart pair t)) else 0

theorem compPart_lt (pair t : Dword) : (compPart pair t).toNat < 2 ^ 32 := by
  rw [compPart]
  split
  · exact rne32_lt _
  · decide

theorem lo32_addTerm (pair t : Dword) : lo32 (addTerm pair t) = sumPart pair t := lo32_pair (rne32_lt _) (compPart_lt pair t)
theorem hi32_addTerm (pair t : Dword) : addTerm pair t >>> 32 = compPart pair t := hi32_pair (rne32_lt _) (compPart_lt pair t)

/-- R44: what the rounding of a finite sum loses is finite. -/
theorem lostPart_of_fin {pair t : Dword} (h : isFin (val32 (sumPart pair t)) = true) : (lostPart pair t).isFin = true ∧
    (lostPart pair t).q = (val32 (lo32 pair)).q + (val32 t).q - (val32 (sumPart pair t)).q := by
  have hsum := isFin_of_rne32 h
  obtain ⟨hs, ht⟩ := mxAdd_fin hsum
  obtain ⟨hflip, hflipq⟩ := flip_of_fin (isFin_eq _ ▸ h)
  obtain ⟨hd, hdq⟩ := mxAdd_of_fin hsum hflip
  exact ⟨hd, by rw [lostPart, hdq, (mxAdd_of_fin hs ht).2, hflipq, sub_eq_add_neg]⟩

theorem sumIs_rne32 (a b : FVal) : ∃ fl, SumIs f32F .rne a b (rne32 (mxAdd a b), fl) := ⟨_, sumIs_fAdd f32F .rne a b⟩

theorem productIs_rne32 (a b : FVal) : ∃ fl, ProductIs f32F .rne a b (rne32 (mxMul a b), fl) := ⟨_, productIs_fMul f32F .rne a b⟩

/-- R44: a term is added into the sum, and what the sum loses into the compensation. -/
theorem addTerm_spec (pair t : Dword) : let a := addTerm pair t
    (∃ fl, SumIs f32F .rne (val32 (lo32 pair)) (val32 t) (lo32 a, fl)) ∧
    (isFin (val32 (lo32 a)) = true → ∃ d fl, d.isFin = true ∧ d.q = (val32 (lo32 pair)).q + (val32 t).q - (val32 (lo32 a)).q ∧
      SumIs f32F .rne (val32 (pair >>> 32)) d (a >>> 32, fl)) ∧
    (isFin (val32 (lo32 a)) = false → a >>> 32 = 0) := by
  dsimp only
  rw [lo32_addTerm, hi32_addTerm]
  refine ⟨sumIs_rne32 _ _, fun h => ?_, fun h => ?_⟩
  · obtain ⟨hd, hdq⟩ := lostPart_of_fin h
    obtain ⟨fl, hsum⟩ := sumIs_rne32 (val32 (pair >>> 32)) (lostPart pair t)
    rw [compPart, if_pos h]
    exact ⟨lostPart pair t, fl, hd, hdq, hsum⟩
  · rw [compPart, if_neg (by simp [h])]

/-! ## Terms -/

/-- R44: the dot product of a k-block is exact. -/
theorem dotExact_zip : ∀ (xs ys : List FVal), (∀ v ∈ xs, v.isFin = true) → (∀ v ∈ ys, v.isFin = true) →
    (dotExact (xs.zip ys)).isFin = true ∧ (dotExact (xs.zip ys)).q = (List.zipWith (fun x y => x.q * y.q) xs ys).sum
  | [], _, _, _ => ⟨rfl, by simp [dotExact, FVal.q]⟩
  | _ :: _, [], _, _ => ⟨rfl, by simp [dotExact, FVal.q]⟩
  | x :: xs, y :: ys, hxs, hys => by
    rw [List.forall_mem_cons] at hxs hys
    obtain ⟨hp, hpq⟩ := mxMul_of_fin hxs.1 hys.1
    obtain ⟨hrest, hrestq⟩ := dotExact_zip xs ys hxs.2 hys.2
    rw [List.zip_cons_cons, List.zipWith_cons_cons, List.sum_cons, ← hrestq, ← hpq]
    cases hz : xs.zip ys with
    | nil => exact ⟨hp, by simp [dotExact, FVal.q]⟩
    | cons p ps => exact mxAdd_of_fin hp (hz ▸ hrest)

theorem mxTerm_spec {xs ys : List FVal} (ba bb : ℕ) (ga gb : FVal) (hxs : ∀ v ∈ xs, v.isFin = true) (hys : ∀ v ∈ ys, v.isFin = true) :
    ∃ (v : FVal) (gs pm : Dword) (f1 f2 f3 : Flags), v.isFin = true ∧ v.q = (List.zipWith (fun x y => x.q * y.q) xs ys).sum ∧
      ProductIs f32F .rne ga gb (gs, f1) ∧ ProductIs f32F .rne (val32 (rne32 v)) (.fin false (ba * bb) (-14)) (pm, f2) ∧
      ProductIs f32F .rne (val32 pm) (val32 gs) (mxTerm xs ys ba bb ga gb, f3) := by
  obtain ⟨hdot, hdotq⟩ := dotExact_zip xs ys hxs hys
  obtain ⟨f1, h1⟩ := productIs_rne32 ga gb
  obtain ⟨f2, h2⟩ := productIs_rne32 (val32 (rne32 (dotExact (xs.zip ys)))) (.fin false (ba * bb) (-14))
  obtain ⟨f3, h3⟩ := productIs_rne32 (val32 (rne32 (mxMul (val32 (rne32 (dotExact (xs.zip ys)))) (.fin false (ba * bb) (-14)))))
    (val32 (rne32 (mxMul ga gb)))
  exact ⟨_, _, _, f1, f2, f3, hdot, hdotq, h1, h2, h3⟩

end Sys2Proof.Machine
end

section
/-! Proof of O37, third part: the steps of the array. -/

namespace Sys2Proof.Machine

/-! ## The engine of a core -/

@[simp] theorem mxOf_updMx (core : ℕ) (f : Matrix → Matrix) (s : State) : mxOf (updMx core f s) core = f (mxOf s core) := by
  rw [mxOf, updMx, coreOf_updCore_same, mxOf]

@[simp] theorem mxOf_updGang (k core : ℕ) (f : Gang → Gang) (s : State) : mxOf (updGang k f s) core = mxOf s core := rfl

@[simp] theorem updMx_mem (core : ℕ) (f : Matrix → Matrix) (s : State) : (updMx core f s).mem = s.mem := rfl
@[simp] theorem updMx_gangs (core : ℕ) (f : Matrix → Matrix) (s : State) : (updMx core f s).gangs = s.gangs := rfl
@[simp] theorem updMxOp_mem (core id : ℕ) (f : MxOp → MxOp) (s : State) : (updMxOp core id f s).mem = s.mem := rfl
@[simp] theorem updMxOp_gangs (core id : ℕ) (f : MxOp → MxOp) (s : State) : (updMxOp core id f s).gangs = s.gangs := rfl

@[simp] theorem updMxOp_tiles (core id : ℕ) (f : MxOp → MxOp) (s : State) :
    (mxOf (updMxOp core id f s) core).tiles = (mxOf s core).tiles := by rw [updMxOp, mxOf_updMx]

@[simp] theorem updMxOp_queue (core id : ℕ) (f : MxOp → MxOp) (s : State) :
    (mxOf (updMxOp core id f s) core).queue = (mxOf s core).queue.map fun o => if o.id = id then f o else o := by
  rw [updMxOp, mxOf_updMx]

theorem mem_queue_updMxOp {core : ℕ} {f : MxOp → MxOp} {s : State} {o : MxOp} (ho : o ∈ (mxOf s core).queue) :
    f o ∈ (mxOf (updMxOp core o.id f s) core).queue := by
  rw [updMxOp_queue]
  exact List.mem_map.mpr ⟨o, ho, if_pos rfl⟩

@[simp] theorem mxOf_perfCount (core ctx code n : ℕ) (s : State) : mxOf (perfCount core ctx code n s) core = mxOf s core := by
  rw [perfCount]
  split
  · rfl
  · rw [mxOf, coreOf_updCore_same, mxOf]

/-! ## Free choices of the operands -/

theorem FreshOnly.mem {s t : State} (h : FreshOnly s t) : t.mem = s.mem := by rw [h]
theorem FreshOnly.gangs {s t : State} (h : FreshOnly s t) : t.gangs = s.gangs := by rw [h]
theorem FreshOnly.mxOf {s t : State} (h : FreshOnly s t) (core : ℕ) : mxOf t core = mxOf s core := by rw [h]; rfl

theorem pickOne_freshOnly (vs : List ℕ) (s : State) : FreshOnly s (pickOne vs s).2 := by
  rw [pickOne]
  split <;> rfl

theorem pickElems_freshOnly (w : ℕ) (runs : List (List Byte)) (s : State) : FreshOnly s (pickElems w runs s).2 := by
  rw [pickElems]
  exact List.foldlRecOn (motive := fun a : ℕ × State => FreshOnly s a.2) _ _ (.refl s) fun _ ha _ _ => ha.trans (pickOne_freshOnly _ _)

section
variable (s : State) (core : ℕ) (m : Matrix) (x : MmaSide) (z : State)

theorem aDesc_freshOnly (rank addr : ℕ) : FreshOnly z (aDesc s core x rank addr z).2 := pickOne_freshOnly _ _
theorem bDesc_freshOnly (off : ℕ) : FreshOnly z (bDesc m x off z).2 := pickOne_freshOnly _ _

theorem readA_freshOnly (rank addr l : ℕ) : FreshOnly z (readA s core x rank addr l z).2 :=
  (aDesc_freshOnly s core x z rank addr).trans (pickElems_freshOnly ..)

theorem readB_freshOnly (off l : ℕ) : FreshOnly z (readB m x off l z).2 := (bDesc_freshOnly m x z off).trans (pickElems_freshOnly ..)

theorem readAll_freshOnly {f : ℕ → State → Sector × State} (hf : ∀ i z, FreshOnly z (f i z).2) (n : ℕ) : FreshOnly z (readAll f n z).2 :=
  List.foldlRecOn (motive := fun a : List Sector × State => FreshOnly z a.2) _ _ (.refl z) fun _ ha _ _ => ha.trans (hf _ _)
end

/-- R353 to R355: reading and checking the operands of a step is settled by free choices alone. -/
theorem stepIn_freshOnly (s : State) (core ctx : ℕ) (c : ContBlock) (x : MmaSide) : FreshOnly s (stepIn s core ctx c x).2 := by
  unfold stepIn
  extract_lets m da db fa fb ra rb base aAddr bOff
  have hdescs : FreshOnly s db.2 := (aDesc_freshOnly s core x s 0 (c.abase.headD 0)).trans (bDesc_freshOnly m x da.2 c.boff)
  clear_value fa fb
  split
  · exact hdescs
  · split
    · exact hdescs
    next as bs _ _ _ _ _ =>
      have has : FreshOnly db.2 as.2 := readAll_freshOnly db.2 (fun r z => readA_freshOnly s core x z c.slab (aAddr r) _) 16
      have hbs : FreshOnly as.2 bs.2 := readAll_freshOnly as.2 (fun i z => readB_freshOnly m x z (bOff i) (64 * rb + i)) 64
      have hreads : FreshOnly s bs.2 := (hdescs.trans has).trans hbs
      split
      · exact hreads
      · split
        · exact hreads
        · split <;> exact hreads

/-! ## The pairs of a step -/

/-- R44, R358: the term that a step adds in a row and a column. -/
def stepTerm (c : ContBlock) (i : StepIn) (r col : ℕ) : Dword :=
  mxTerm ((i.a[r]?.map fun q => blockVals i.fa 0 q c.kb).getD []) ((i.b[col]?.map fun q => blockVals i.fb c.seedb q c.kb).getD [])
    (scaleOf i.fa ((i.a[r]?.map (·.desc)).getD 0)) (scaleOf i.fb ((i.b[col]?.map (·.desc)).getD 0))
    ((i.ga[r]?).getD (.fin false 1 0)) ((i.gb[col]?).getD (.fin false 1 0))

def stepKey (c : ContBlock) (p : ℕ × ℕ) : ℕ := pairKey c.tile (16 * c.slab + p.1) p.2

/-- R358: the pair that a step writes for the one that stands. -/
def stepPair (c : ContBlock) (i : StepIn) (p : ℕ × ℕ) (old : Dword) : Dword :=
  addTerm (if c.z = true ∧ c.kb = 0 then 0 else old) (stepTerm c i p.1 p.2)

def slabPlaces : List (ℕ × ℕ) := (List.range 16) ×ˢ (List.range 64)

theorem mem_slabPlaces {r col : ℕ} : (r, col) ∈ slabPlaces ↔ r < 16 ∧ col < 64 := by simp [slabPlaces, List.mem_product]

theorem addStep_eq (c : ContBlock) (i : StepIn) (tiles : AMap Dword) : addStep c i tiles =
    slabPlaces.foldl (fun m p => put 0 (stepKey c p) (stepPair c i p (find 0 (stepKey c p) m)) m) tiles := by
  simp [addStep, slabPlaces, SProd.sprod, List.product, List.foldl_flatMap, List.foldl_map, stepKey, stepPair, stepTerm]

/-- R358: the pairs of a slab stand apart. -/
theorem nodup_stepKeys (c : ContBlock) : (slabPlaces.map (stepKey c)).Nodup := by
  refine List.Nodup.map_on ?_ (List.Nodup.product List.nodup_range List.nodup_range)
  rintro ⟨r, col⟩ hp ⟨r', col'⟩ hp' h
  obtain ⟨-, hcol⟩ := mem_slabPlaces.mp hp
  obtain ⟨-, hcol'⟩ := mem_slabPlaces.mp hp'
  simp only [stepKey, pairKey] at h
  rw [Prod.mk.injEq]
  omega

/-- Of entries that are changed one after the other at distinct keys, each is changed once, and no other. -/
theorem find_foldl_change {ι : Type} {key : ι → ℕ} {v : ι → Dword → Dword} : ∀ {ps : List ι} {m : AMap Dword}, wf 0 m = true →
    (ps.map key).Nodup → let m' := ps.foldl (fun m p => put 0 (key p) (v p (find 0 (key p) m)) m) m
    (∀ p ∈ ps, find 0 (key p) m' = v p (find 0 (key p) m)) ∧ ∀ k, k ∉ ps.map key → find 0 k m' = find 0 k m
  | [], _, _, _ => ⟨nofun, fun _ _ => rfl⟩
  | p :: ps, m, hm, hn => by
    rw [List.map_cons, List.nodup_cons] at hn
    obtain ⟨hin, hout⟩ := find_foldl_change (v := v) (m := put 0 (key p) (v p (find 0 (key p) m)) m) (wf_put hm) hn.2
    simp only [List.foldl_cons]
    refine ⟨fun q hq => ?_, fun k hk => ?_⟩
    · rcases List.mem_cons.mp hq with rfl | hq
      · rw [hout _ hn.1, find_put_same hm]
      · have hne : key q ≠ key p := fun h => hn.1 (h ▸ List.mem_map_of_mem hq)
        rw [hin q hq, find_put_other hne hm]
    · rw [List.map_cons, List.mem_cons, not_or] at hk
      rw [hout k hk.2, find_put_other hk.1 hm]

theorem find_addStep {tiles : AMap Dword} (hw : wf 0 tiles = true) (c : ContBlock) (i : StepIn) :
    (∀ r col, r < 16 → col < 64 → find 0 (stepKey c (r, col)) (addStep c i tiles) = stepPair c i (r, col) (find 0 (stepKey c (r, col)) tiles)) ∧
      ∀ k, (∀ r col, r < 16 → col < 64 → k ≠ stepKey c (r, col)) → find 0 k (addStep c i tiles) = find 0 k tiles := by
  obtain ⟨hin, hout⟩ := find_foldl_change (v := stepPair c i) hw (nodup_stepKeys c)
  rw [addStep_eq]
  refine ⟨fun r col hr hcol => hin _ (mem_slabPlaces.mpr ⟨hr, hcol⟩), fun k hk => hout k ?_⟩
  intro hmem
  obtain ⟨⟨r, col⟩, hp, rfl⟩ := List.mem_map.mp hmem
  obtain ⟨hr, hcol⟩ := mem_slabPlaces.mp hp
  exact hk r col hr hcol rfl

/-! ## The step -/

theorem mem_queue_of_runningOp {s : State} {core : ℕ} {o : MxOp} (h : runningOp s core = some o) : o ∈ (mxOf s core).queue := by
  rw [runningOp] at h
  split at h
  next hf =>
    split at h
    · cases h
    · cases h
      exact List.mem_of_find?_eq_some hf
  · exact List.mem_of_find?_eq_some h

theorem moveReady_not_done {s : State} {core : ℕ} {o : MxOp} (h : moveReady s core o = true) : o.done = false := by
  simp only [moveReady, moveFlies, Bool.and_eq_true, Bool.not_eq_true'] at h
  exact h.1.1.2

/-- R362: where no transfer of the tile is outstanding, none is made ahead of the operation. -/
theorem splitMoves_idle {core tile self : ℕ} {s : State}
    (h : ∀ p ∈ (mxOf s core).queue, ∀ m, p.kind = .move m → p.done = true ∨ m.tile ≠ tile) : splitMoves core tile self s = s := by
  refine List.foldlRecOn (motive := (· = s)) _ _ rfl ?_
  rintro t rfl o ho
  split
  next m hm =>
    refine if_pos (.inr ?_)
    rcases h o ho m hm with hd | ht
    · right
      cases hr : moveReady t core o
      · rfl
      · exact absurd (moveReady_not_done hr) (by simp [hd])
    · exact .inl ht
  · rfl

/-- R358: what a step leaves behind, the free choices of its operands having been made. -/
def stepMade (core : ℕ) (o : MxOp) (c : ContBlock) (i : StepIn) (x : MmaSide) (z : State) : State :=
  perfCount core o.ctx 0x0A 1 (updMxOp core o.id (fun o => { o with kind := .mma (advance c) x })
    (updMx core (fun m => { m with tiles := addStep c i m.tiles }) z))

section
variable {s : State} {core : ℕ} {o : MxOp} {c : ContBlock} {x : MmaSide}

theorem execMatrixStep_ok {i : StepIn} (hrun : runningOp s core = some o) (hkind : o.kind = .mma c x)
    (hclear : scalesClear s core o c x = true) (hin : (stepIn s core o.ctx c x).1 = .ok i)
    (hidle : x.started = true ∨ ∀ p ∈ (mxOf s core).queue, ∀ m, p.kind = .move m → p.done = true ∨ m.tile ≠ c.tile) :
    ∃ x' : MmaSide, x'.started = true ∧ execMatrixStep core s = .next (stepMade core o c i x' (stepIn s core o.ctx c x).2) := by
  have hexec : execMatrixStep core s = .next (
      let z := if x.started then (stepIn s core o.ctx c x).2 else splitMoves core c.tile o.id (stepIn s core o.ctx c x).2
      stepMade core o c i (if x.started then x else { x with started := true, before := tileBefore z core c x }) z) := by
    simp only [execMatrixStep, hrun, hkind, hclear, hin, Bool.not_true, Bool.false_eq_true, if_false]
    rfl
  rw [hexec]
  cases hx : x.started with
  | true => exact ⟨x, hx, rfl⟩
  | false =>
    have hmoves := hidle.resolve_left (by simp [hx])
    rw [← (stepIn_freshOnly s core o.ctx c x).mxOf core] at hmoves
    simp only [Bool.false_eq_true, if_false, splitMoves_idle hmoves]
    exact ⟨{ x with started := true, before := tileBefore (stepIn s core o.ctx c x).2 core c x }, rfl, rfl⟩

theorem execMatrixStep_error {e : Word × Dword} (hrun : runningOp s core = some o) (hkind : o.kind = .mma c x)
    (hclear : scalesClear s core o c x = true) (hin : (stepIn s core o.ctx c x).1 = .error e) :
    execMatrixStep core s = .next (splitFault core o c x e (stepIn s core o.ctx c x).2) := by
  simp only [execMatrixStep, hrun, hkind, hclear, hin, Bool.not_true, Bool.false_eq_true, if_false]

variable {z : State} (hz : FreshOnly s z)
include hz

theorem stepMade_tiles (i : StepIn) : (mxOf (stepMade core o c i x z) core).tiles = addStep c i (mxOf s core).tiles := by
  rw [stepMade, mxOf_perfCount, updMxOp_tiles, mxOf_updMx, hz.mxOf]

theorem stepMade_mem (i : StepIn) : (stepMade core o c i x z).mem = s.mem := by
  rw [stepMade, perfCount_mem, updMxOp_mem, updMx_mem, hz.mem]

theorem stepMade_gangs (i : StepIn) : (stepMade core o c i x z).gangs = s.gangs := by
  rw [stepMade, perfCount_gangs, updMxOp_gangs, updMx_gangs, hz.gangs]

theorem stepMade_queue (ho : o ∈ (mxOf s core).queue) (i : StepIn) :
    { o with kind := .mma (advance c) x } ∈ (mxOf (stepMade core o c i x z) core).queue := by
  rw [stepMade, mxOf_perfCount]
  refine mem_queue_updMxOp ?_
  rwa [mxOf_updMx, hz.mxOf]

end

/-- R358: a step of the array. -/
theorem matrixStep_made {s : State} {core : ℕ} {o : MxOp} {c : ContBlock} {x : MmaSide} {i : StepIn} (hrun : runningOp s core = some o)
    (hkind : o.kind = .mma c x) (hclear : scalesClear s core o c x = true) (hin : (stepIn s core o.ctx c x).1 = .ok i)
    (hw : wf 0 (mxOf s core).tiles = true)
    (hidle : x.started = true ∨ ∀ p ∈ (mxOf s core).queue, ∀ m, p.kind = .move m → p.done = true ∨ m.tile ≠ c.tile) :
    ∃ t, exec (.matrixStep core) s = .next t ∧ t.mem = s.mem ∧ t.gangs = s.gangs ∧
      (∀ r col, r < 16 → col < 64 →
        find 0 (stepKey c (r, col)) (mxOf t core).tiles = stepPair c i (r, col) (find 0 (stepKey c (r, col)) (mxOf s core).tiles)) ∧
      (∀ k, (∀ r col, r < 16 → col < 64 → k ≠ stepKey c (r, col)) → find 0 k (mxOf t core).tiles = find 0 k (mxOf s core).tiles) ∧
      ∃ p ∈ (mxOf t core).queue, ∃ x', p.id = o.id ∧ p.kind = .mma (advance c) x' ∧ x'.started = true := by
  obtain ⟨x', hx', hexec⟩ := execMatrixStep_ok hrun hkind hclear hin hidle
  have hz := stepIn_freshOnly s core o.ctx c x
  obtain ⟨hin, hout⟩ := find_addStep hw c i
  refine ⟨_, hexec, stepMade_mem hz i, stepMade_gangs hz i, ?_, ?_, _, stepMade_queue hz (mem_queue_of_runningOp hrun) i, x', rfl, rfl, hx'⟩
  · rwa [stepMade_tiles hz]
  · rwa [stepMade_tiles hz]

/-- R364: a step whose operands do not pass their checks. -/
theorem matrixStep_splits {s : State} {core : ℕ} {o : MxOp} {c : ContBlock} {x : MmaSide} {e : Word × Dword} (hrun : runningOp s core = some o)
    (hkind : o.kind = .mma c x) (hclear : scalesClear s core o c x = true) (hin : (stepIn s core o.ctx c x).1 = .error e) :
    ∃ t, exec (.matrixStep core) s = .next t ∧ t.mem = s.mem ∧ t.gangs = s.gangs ∧ (mxOf t core).tiles = (mxOf s core).tiles ∧
      ∃ p ∈ (mxOf t core).queue, ∃ x', p.id = o.id ∧ p.kind = .mma { c with st := 2, cause := e.1, taddr := e.2 } x' := by
  have hz := stepIn_freshOnly s core o.ctx c x
  have ho : o ∈ (mxOf (stepIn s core o.ctx c x).2 core).queue := hz.mxOf core ▸ mem_queue_of_runningOp hrun
  exact ⟨_, execMatrixStep_error hrun hkind hclear hin, hz.mem, hz.gangs, by rw [splitFault, updMxOp_tiles, hz.mxOf],
    _, mem_queue_updMxOp ho, _, rfl, rfl⟩

end Sys2Proof.Machine
end

section
/-! Proof of O37, fourth part: the completion of an operation, and the delivery of its fault. -/

namespace Sys2Proof.Machine

/-! ## What a gang is owed -/

theorem nodup_distinct : ∀ xs : List ℕ, (distinct xs).Nodup
  | [] => List.nodup_nil
  | x :: xs => List.nodup_cons.mpr ⟨by simp, (nodup_distinct xs).filter _⟩

/-- R349: of the operations that are counted for a gang, in order, whether each is over. -/
def owesTo (k : ℕ) (q : List MxOp) : List Bool := (q.filter fun o => o.owed.contains k).map (·.done)

theorem owesTo_cons (k : ℕ) (o : MxOp) (q : List MxOp) : owesTo k (o :: q) = if o.owed.contains k then o.done :: owesTo k q else owesTo k q := by
  rw [owesTo, List.filter_cons]
  split <;> rfl

theorem owesTo_eq_nil {k : ℕ} {q : List MxOp} (h : owesTo k q = []) : ∀ o ∈ q, k ∉ o.owed := by
  simpa [owesTo, List.filter_eq_nil_iff] using h

/-- R349: removing the counts of a gang leaves those of another. -/
theorem owesTo_owedDone_other {k j : ℕ} (h : k ≠ j) : ∀ q : List MxOp, owesTo k (owedDone j q).2 = owesTo k q
  | [] => rfl
  | o :: q => by
    have ih := owesTo_owedDone_other h q
    rw [owedDone]
    split
    · rw [owesTo_cons, owesTo_cons, ih]
    · split
      · have hsame : (o.owed.filter (· ≠ j)).contains k = o.owed.contains k := by simp [h]
        rw [owesTo_cons, owesTo_cons, ih, hsame]
      · rfl

/-- R349: where all that a gang is owed is over, all its counts are removed. -/
theorem owedDone_of_done {k : ℕ} : ∀ {q : List MxOp}, (∀ b ∈ owesTo k q, b = true) →
    (owedDone k q).1.length = (owesTo k q).length ∧ owesTo k (owedDone k q).2 = []
  | [], _ => ⟨rfl, rfl⟩
  | o :: q, h => by
    rw [owesTo_cons] at h ⊢
    rw [owedDone]
    cases hk : o.owed.contains k with
    | false =>
      rw [hk] at h
      obtain ⟨hlen, hnil⟩ := owedDone_of_done (q := q) h
      exact ⟨hlen, by rw [Bool.not_false, if_pos rfl, owesTo_cons, hk]; exact hnil⟩
    | true =>
      rw [hk, if_pos rfl, List.forall_mem_cons] at h
      obtain ⟨hlen, hnil⟩ := owedDone_of_done (q := q) h.2
      have hgone : (o.owed.filter (· ≠ k)).contains k = false := by simp
      rw [Bool.not_true, if_neg Bool.false_ne_true, if_pos h.1, if_pos rfl, List.length_cons, List.length_cons, owesTo_cons, hgone]
      exact ⟨congrArg (· + 1) hlen, hnil⟩

section
variable {core k j : ℕ} {s : State} {g : Gang}

theorem queue_retireGang : (mxOf (retireGang core s j) core).queue = (owedDone j (mxOf s core).queue).2 := by
  rw [retireGang, mxOf_updGang, mxOf_updMx]

theorem tiles_retireGang : (mxOf (retireGang core s j) core).tiles = (mxOf s core).tiles := by
  rw [retireGang, mxOf_updGang, mxOf_updMx]

theorem look_retireGang_other (h : k ≠ j) : look k (retireGang core s j).gangs = look k s.gangs := look_adj_other h

theorem retireGangs_other : ∀ {ks : List ℕ} {s : State}, k ∉ ks → let t := ks.foldl (retireGang core) s
    owesTo k (mxOf t core).queue = owesTo k (mxOf s core).queue ∧ look k t.gangs = look k s.gangs
  | [], _, _ => ⟨rfl, rfl⟩
  | j :: ks, s, h => by
    rw [List.mem_cons, not_or] at h
    obtain ⟨howes, hlook⟩ := retireGangs_other (s := retireGang core s j) h.2
    rw [queue_retireGang, owesTo_owedDone_other h.1] at howes
    rw [look_retireGang_other h.1] at hlook
    exact ⟨howes, hlook⟩

/-- R349: the count of an operation that is over is removed. -/
theorem retireGang_same (hg : look k s.gangs = some g) (howes : owesTo k (mxOf s core).queue = [true]) :
    owesTo k (mxOf (retireGang core s k) core).queue = [] ∧
      ∃ g', look k (retireGang core s k).gangs = some g' ∧ g'.mtcnt = g.mtcnt - 1 := by
  obtain ⟨hlen, hnil⟩ := owedDone_of_done (k := k) (q := (mxOf s core).queue) (by simp [howes])
  rw [howes] at hlen
  refine ⟨queue_retireGang.symm ▸ hnil, _, look_updGang hg, ?_⟩
  dsimp only
  rw [hlen]
  rfl

theorem retireGangs_same {ks : List ℕ} (hk : k ∈ ks) (hn : ks.Nodup) (hg : look k s.gangs = some g)
    (howes : owesTo k (mxOf s core).queue = [true]) : let t := ks.foldl (retireGang core) s
    owesTo k (mxOf t core).queue = [] ∧ ∃ g', look k t.gangs = some g' ∧ g'.mtcnt = g.mtcnt - 1 := by
  obtain ⟨before, after, rfl⟩ := List.append_of_mem hk
  have hbefore : k ∉ before := fun h => (List.nodup_append.mp hn).2.2 k h k List.mem_cons_self rfl
  have hafter : k ∉ after := (List.nodup_cons.mp (List.nodup_append.mp hn).2.1).1
  obtain ⟨howes1, hlook1⟩ := retireGangs_other (core := core) (s := s) hbefore
  obtain ⟨hnil, g', hg', hcount⟩ := retireGang_same (hlook1.trans hg) (howes1.trans howes)
  rw [List.foldl_append, List.foldl_cons]
  obtain ⟨howes2, hlook2⟩ := retireGangs_other (core := core) (s := retireGang core (before.foldl (retireGang core) s) k) hafter
  exact ⟨howes2.trans hnil, g', hlook2.trans hg', hcount⟩

theorem retireMx_mem : (retireMx core s).mem = s.mem :=
  List.foldlRecOn (motive := fun t : State => t.mem = s.mem) _ (retireGang core) rfl fun _ h _ _ => h

theorem retireMx_tiles : (mxOf (retireMx core s) core).tiles = (mxOf s core).tiles := by
  rw [retireMx, mxOf_updMx]
  exact List.foldlRecOn (motive := fun t => (mxOf t core).tiles = (mxOf s core).tiles) _ (retireGang core) rfl
    fun _ h _ _ => tiles_retireGang.trans h

/-- R349, R359: of a gang that is owed one operation, and that is over, the count is removed. -/
theorem retireMx_counts (hg : look k s.gangs = some g) (howes : owesTo k (mxOf s core).queue = [true]) :
    (∀ p ∈ (mxOf (retireMx core s) core).queue, k ∉ p.owed) ∧
      ∃ g', look k (retireMx core s).gangs = some g' ∧ g'.mtcnt = g.mtcnt - 1 := by
  have hmem : k ∈ (mxOf s core).queue.flatMap (·.owed) := by
    by_contra h
    have hnone : ∀ o ∈ (mxOf s core).queue, ¬o.owed.contains k = true := fun o ho hk =>
      h (List.mem_flatMap.mpr ⟨o, ho, List.contains_iff_mem.mp hk⟩)
    rw [owesTo, List.filter_eq_nil_iff.mpr hnone] at howes
    cases howes
  have hks : k ∈ (distinct ((mxOf s core).queue.flatMap (·.owed))).filter fun k => (look k s.gangs).isSome :=
    List.mem_filter.mpr ⟨mem_distinct.mpr hmem, by simp [hg]⟩
  obtain ⟨hnil, g', hg', hcount⟩ := retireGangs_same (core := core) hks ((nodup_distinct _).filter _) hg howes
  refine ⟨fun p hp => ?_, g', hg', hcount⟩
  rw [retireMx, mxOf_updMx] at hp
  obtain ⟨o, ho, rfl⟩ := List.mem_map.mp (List.mem_of_mem_filter hp)
  exact fun hk => owesTo_eq_nil hnil o ho (List.mem_of_mem_filter hk)
end

/-! ## The end of an operation -/

theorem owesTo_markDone {k : ℕ} {o : MxOp} {q : List MxOp} (h : (q.filter fun p => p.owed.contains k) = [o]) :
    owesTo k (q.map fun p => if p.id = o.id then { p with done := true } else p) = [true] := by
  have howed : ((fun p : MxOp => p.owed.contains k) ∘ fun p => if p.id = o.id then { p with done := true } else p) =
      fun p => p.owed.contains k := by
    funext p
    simp only [Function.comp_apply]
    split <;> rfl
  rw [owesTo, List.filter_map, howed, h]
  simp

theorem execMmaComplete_eq {s : State} {core : ℕ} {o : MxOp} (h : (mxOf s core).queue.find? mmaEnded = some o) :
    ∃ (c : ContBlock) (x : MmaSide), execMmaComplete core s = .next (endMx core o.id (noteLast c.tile o.id x.before core s)) := by
  have hended := List.find?_some h
  rw [execMmaComplete]
  simp only [h]
  rw [mmaEnded] at hended
  split at hended
  next c x _ => exact ⟨c, x, rfl⟩
  · cases hended

/-- R359: an operation whose steps are made ends, and its counts are removed. -/
theorem mmaComplete_counts {s : State} {core : ℕ} {o : MxOp} (h : (mxOf s core).queue.find? mmaEnded = some o) :
    ∃ t, exec (.mmaComplete core) s = .next t ∧ t.mem = s.mem ∧ (mxOf t core).tiles = (mxOf s core).tiles ∧
      ∀ k g, k ∈ o.owed → look k s.gangs = some g → ((mxOf s core).queue.filter fun p => p.owed.contains k) = [o] →
        (∀ p ∈ (mxOf t core).queue, k ∉ p.owed) ∧ ∃ g', look k t.gangs = some g' ∧ g'.mtcnt = g.mtcnt - 1 := by
  obtain ⟨c, x, hexec⟩ := execMmaComplete_eq h
  refine ⟨_, hexec, retireMx_mem, ?_, fun k g _ hg hone => retireMx_counts hg ?_⟩
  · rw [endMx, retireMx_tiles, updMxOp_tiles, noteLast, mxOf_updMx]
  · rw [updMxOp_queue, noteLast, mxOf_updMx]
    exact owesTo_markDone hone

/-! ## The group at which a fault is delivered -/

theorem mem_of_laneIn_maskOf {l : ℕ} {ls : List ℕ} (h : laneIn (maskOf ls) l = true) : l ∈ ls := by
  suffices hfold : ∀ (ls : List ℕ) (m : BitVec 64), laneIn (ls.foldl (fun m i => m ||| 1 <<< i) m) l = true → laneIn m l = true ∨ l ∈ ls by
    exact (hfold ls 0 h).resolve_left (by simp [laneIn])
  intro ls
  induction ls with
  | nil => exact fun _ hm => .inl hm
  | cons i ls ih =>
    intro m hm
    rcases ih _ hm with hbit | hmem
    · simp only [laneIn, BitVec.getLsbD_or, Bool.or_eq_true, BitVec.natCast_eq_ofNat, BitVec.getLsbD_ofNat, Nat.one_shiftLeft,
        Nat.testBit_two_pow, Bool.and_eq_true, decide_eq_true_eq] at hbit
      rcases hbit with hbit | hbit
      · exact .inl hbit
      · exact .inr (List.mem_cons.mpr (.inl (by omega)))
    · exact .inr (List.mem_cons_of_mem i hmem)

theorem fibre_of_lanesWhere {test : Fibre → Bool} {g : Gang} {l : ℕ} (h : laneIn (lanesWhere test g) l = true) :
    ∃ f, fibreAt g l = some f ∧ test f = true := by
  have hl := (List.mem_filter.mp (mem_of_laneIn_maskOf h)).2
  split at hl
  next f hf => exact ⟨f, hf, hl⟩
  · cases hl

/-- Every fibre of the group runs. -/
def GroupLive (group : BitVec 64) (g : Gang) : Prop := ∀ l, laneIn group l = true → ∃ f, fibreAt g l = some f ∧ f.life = .live

theorem groupLive_lanesWhere {test : Fibre → Bool} (g : Gang) (h : ∀ f, test f = true → f.life = .live) :
    GroupLive (lanesWhere test g) g := fun _ hl =>
  let ⟨f, hf, ht⟩ := fibre_of_lanesWhere hl
  ⟨f, hf, h f ht⟩

theorem live_of_ready {f : Fibre} (h : ready f = true) : f.life = .live := by
  simp only [ready, Bool.and_eq_true, decide_eq_true_eq] at h
  exact h.1.1

theorem GroupLive.and {group : BitVec 64} {g : Gang} (h : GroupLive group g) (m : BitVec 64) : GroupLive (m &&& group) g := fun l hl =>
  h l (by simp only [laneIn, BitVec.getLsbD_and, Bool.and_eq_true] at hl; exact hl.2)

theorem chooseIn_live {m group : BitVec 64} {g : Gang} {pc : Pc} (h : chooseIn m g = some (group, pc)) : GroupLive group g := by
  rw [chooseIn] at h
  split at h
  · cases h
  · cases h
    exact (groupLive_lanesWhere g fun f hf => live_of_ready (by simp only [Bool.and_eq_true] at hf; exact hf.1)).and _

theorem pickIn_live {s : State} {k : ℕ} {g : Gang} {group : BitVec 64} {pc : Pc} : ∀ {n : ℕ} {m : BitVec 64},
    pickIn s k g n m = some (group, pc) → GroupLive group g
  | 0, _, h => by cases h
  | n + 1, m, h => by
    rw [pickIn] at h
    split at h
    · cases h
    next hc =>
      have hlive := chooseIn_live hc
      split at h
      · split at h
        · exact pickIn_live h
        · cases h; exact hlive
      · cases h; exact hlive

/-- R365: the fault is delivered to fibres that run. -/
theorem faultGroup_live {s : State} {k : ℕ} {g : Gang} {group : BitVec 64} {pc : Pc} (h : faultGroup s k g = some (group, pc)) :
    GroupLive group g := by
  rw [faultGroup] at h
  split at h
  · obtain ⟨f, -, hf⟩ := Option.map_eq_some_iff.mp h
    cases hf
    exact groupLive_lanesWhere g fun f hf => by simp only [Bool.and_eq_true, decide_eq_true_eq] at hf; exact hf.1
  · exact pickIn_live h

theorem abandon_live {group : BitVec 64} {g : Gang} (h : GroupLive group g) : GroupLive group (abandon g) := fun l hl => by
  obtain ⟨f, hf, hlive⟩ := h l hl
  rw [fibreAt] at hf
  rw [abandon, onLanes, fibreAt, List.getElem?_mapIdx, hf]
  exact ⟨_, rfl, by split <;> exact hlive⟩

/-! ## The delivery -/

/-- R386, R394: records of fibres that run are raised with a gang that is not frozen. -/
theorem takeTrapRecs_raised {k : ℕ} {s : State} {g : Gang} {recs : List TrapRec} (hg : look k s.gangs = some g) (hfrozen : g.frozen = none)
    (hlive : liveRecs g recs = recs) :
    (takeTrapRecs k recs s).mem = s.mem ∧ ∃ g', look k (takeTrapRecs k recs s).gangs = some g' ∧ ∀ r ∈ recs, FaultRaised g' r := by
  rw [takeTrapRecs]
  simp only [hg, hlive, hfrozen, Option.isSome_none, Bool.false_eq_true, if_false]
  cases recs with
  | nil => exact ⟨rfl, _, look_updGang hg, nofun⟩
  | cons r rs =>
    dsimp only
    split
    · exact ⟨rfl, _, look_updGang hg, fun r hr => .inr (.inr ⟨_, rfl, hr⟩)⟩
    · exact ⟨perfCount_mem .., _, by rw [perfCount_gangs]; exact look_updGang hg, fun r hr => .inr (.inl ⟨_, rfl, hr⟩)⟩

/-- R365: the records of a fault of a split operation. -/
def splitRecs (group : BitVec 64) (c : Word) (a : Dword) (pc : Pc) : List TrapRec := (lanesOf group).map fun i => ⟨i, c, a, pc⟩

theorem liveRecs_splitRecs {group : BitVec 64} {g : Gang} (h : GroupLive group g) (c : Word) (a : Dword) (pc : Pc) :
    liveRecs g (splitRecs group c a pc) = splitRecs group c a pc := by
  refine List.filter_eq_self.mpr fun r hr => ?_
  obtain ⟨l, hl, rfl⟩ := List.mem_map.mp hr
  obtain ⟨f, hf, hlive⟩ := h l (mem_lanesOf.mp hl)
  simp [hf, hlive]

theorem deliverFault_eq {u : State} {k core : ℕ} {g : Gang} {o : MxOp} {c : ContBlock} {x : MmaSide} {group : BitVec 64} {pc : Pc}
    (hg : look k u.gangs = some g) (hop : (u.cores.findSome? fun c => (splitOf u c.2.mx.queue k).map fun o => (c.1, o)) = some (core, o))
    (hkind : o.kind = .mma c x) (hstop : g.stop = .running) (hruns : gangRuns u k g = true) (hpend : pendDue u k g = false)
    (hissue : issueSettled u k g = true) (hgroup : faultGroup u k g = some (group, pc)) :
    deliverFault k u = some (takeTrapRecs k (splitRecs group c.cause c.taddr pc) (updGang k abandon (updMxOp core o.id markSent u))) := by
  simp [deliverFault, hop, hg, hstop, hruns, hpend, hissue, hgroup, splitCause, hkind, splitRecs]

/-- R157, R365: the fault of a split operation is raised with each fibre of the group. -/
theorem matrixFaultDelivery_raises {s : State} {k core : ℕ} {g : Gang} {o : MxOp} {c : ContBlock} {x : MmaSide} {group : BitVec 64} {pc : Pc}
    (hg : look k (settleFills k s).gangs = some g)
    (hop : ((settleFills k s).cores.findSome? fun c => (splitOf (settleFills k s) c.2.mx.queue k).map fun o => (c.1, o)) = some (core, o))
    (hkind : o.kind = .mma c x) (hstop : g.stop = .running) (hruns : gangRuns (settleFills k s) k g = true)
    (hpend : pendDue (settleFills k s) k g = false) (hissue : issueSettled (settleFills k s) k g = true)
    (hgroup : faultGroup (settleFills k s) k g = some (group, pc)) :
    ∃ (t : State) (g' : Gang), exec (.matrixFaultDelivery k) s = .next t ∧ t.mem = s.mem ∧ look k t.gangs = some g' ∧
      ∀ l, l < 64 → laneIn group l = true → FaultRaised g' ⟨l, c.cause, c.taddr, pc⟩ := by
  have hfrozen : g.frozen = none := by
    simp only [gangRuns, Bool.and_eq_true, Option.isNone_iff_eq_none] at hruns
    exact hruns.1.1.1
  have hlook : look k (updGang k abandon (updMxOp core o.id markSent (settleFills k s))).gangs = some (abandon g) := look_updGang hg
  obtain ⟨hmem, g', hg', hraised⟩ := takeTrapRecs_raised hlook hfrozen
    (liveRecs_splitRecs (abandon_live (faultGroup_live hgroup)) c.cause c.taddr pc)
  refine ⟨_, g', ?_, hmem, hg', fun l _ hl => hraised _ (List.mem_map.mpr ⟨l, mem_lanesOf.mpr hl, rfl⟩)⟩
  show execMatrixFaultDelivery k s = _
  rw [execMatrixFaultDelivery, deliverFault_eq hg hop hkind hstop hruns hpend hissue hgroup]

/-- Settles O37: the sums and products of the array are exact before their one rounding; a step writes the pairs of its slab and no other,
or splits the operation; the counts go with the end of the operation; and the fault of a split one is raised with its lead gang. -/
theorem matrixSteps : Obligations.MatrixSteps :=
  ⟨addTerm_spec, fun _ _ ba bb ga gb hxs hys => mxTerm_spec ba bb ga gb hxs hys,
    fun _ _ _ _ _ _ hrun hkind hclear hin hw hidle => matrixStep_made hrun hkind hclear hin hw hidle,
    fun _ _ _ _ _ _ hrun hkind hclear hin => matrixStep_splits hrun hkind hclear hin,
    fun _ _ _ h => mmaComplete_counts h,
    fun _ _ _ _ _ _ _ _ _ hg hop hkind hstop hruns hpend hissue hgroup =>
      matrixFaultDelivery_raises hg hop hkind hstop hruns hpend hissue hgroup⟩

end Sys2Proof.Machine
end

section
/-! Proofs of O51 and O52: decoding undoes encoding, and what decodes is its own encoding. -/

namespace Sys2Proof.Laws

open Sys2Proof.Machine (legal lenBytes)

/-- Settles O51: the decoder splits the words into the fields that the encoder packed, and the parser reads these fields back. -/
theorem decodeOfEncode : Obligations.DecodeOfEncode := fun _ rest hl => decodeWords_encode hl rest

/-! ## Words from their fields -/

/-- A number that takes no more bits than its fields have together is packed again from them. -/
theorem packBits_unpackBits : ∀ (ws : List Nat) (n : Nat), n < 2 ^ ws.sum → packBits (ws.zip (unpackBits ws n)) = n
  | [], n, hn => (Nat.lt_one_iff.mp hn).symm
  | w :: ws, n, hn => by
    have hdiv : n / 2 ^ w < 2 ^ ws.sum := Nat.div_lt_of_lt_mul (by rwa [← Nat.pow_add, ← List.sum_cons])
    rw [unpackBits, List.zip_cons_cons, packBits, packBits_unpackBits ws _ hdiv]
    exact Nat.mod_add_div n (2 ^ w)

/-- R50: the widths of the fields of word0. -/
def fieldWidths : List Nat := [2, 1, 1, 3, 8, 3, 4, 9, 9, 9, 9, 2, 2, 2]

/-- R50, R51: a word0 is packed again from its fields, where its length code is that of the words after it. -/
theorem word0_fieldsOf {w : Nat} {e : Ext} (hw : w < 2 ^ 64) (he : lenCode e = w % 4) : word0 (fieldsOf w e) = w :=
  calc word0 (fieldsOf w e)
    _ = packBits ((2, lenCode e) :: fieldWidths.tail.zip (unpackBits fieldWidths.tail (w / 2 ^ 2))) := rfl
    _ = packBits (fieldWidths.zip (unpackBits fieldWidths w)) := by rw [he]; rfl
    _ = w := packBits_unpackBits fieldWidths w hw

/-- R49, R62, R63: the words after word0. -/
def extWords : Ext → List Word
  | .none => []
  | .imm32 w => [w]
  | .ext64 lo hi => [lo, hi]

theorem wordsOf_eq (r : Raw) : wordsOf r = BitVec.ofNat 32 (word0 r) :: BitVec.ofNat 32 (word0 r / 2 ^ 32) :: extWords r.ext := by
  unfold wordsOf
  cases r.ext <;> rfl

/-- R49, R50: two words are those of the fields that they are split into. -/
theorem wordsOf_fieldsOf {w0 w1 : Word} {e : Ext} (he : lenCode e = w0.toNat % 4) :
    wordsOf (fieldsOf (w0.toNat + 2 ^ 32 * w1.toNat) e) = w0 :: w1 :: extWords e := by
  have hword : word0 (fieldsOf (w0.toNat + 2 ^ 32 * w1.toNat) e) = w0.toNat + 2 ^ 32 * w1.toNat :=
    word0_fieldsOf (by omega) (by omega)
  have hlow : BitVec.ofNat 32 (w0.toNat + 2 ^ 32 * w1.toNat) = w0 := BitVec.eq_of_toNat_eq (by rw [BitVec.toNat_ofNat]; omega)
  have hhigh : BitVec.ofNat 32 ((w0.toNat + 2 ^ 32 * w1.toNat) / 2 ^ 32) = w1 := BitVec.eq_of_toNat_eq (by rw [BitVec.toNat_ofNat]; omega)
  rw [wordsOf_eq, hword, hlow, hhigh]
  rfl

/-! ## What decodes -/

theorem legalOf_eq_ok {o : Option Instr} {i : Instr} (h : legalOf o = .ok i) : o = some i := by
  cases o with
  | none => cases h
  | some j => cases h; rfl

/-- R58, R68: an instruction is read only from its own fields, and only where it is legal. -/
theorem ofRaw_eq_some {r : Raw} {i : Instr} (h : ofRaw r = some i) : rawOf i = r ∧ legal i = true := by
  unfold ofRaw at h
  split at h
  · cases h
  · split at h
    next hi => cases h; exact hi
    · cases h

/-- R49 to R51: what decodes is read from the fields of its first words. -/
theorem fields_of_decodeWords {ws : List Word} {i : Instr} (h : decodeWords ws = .ok i) :
    ∃ r rest, ofRaw r = some i ∧ ws = wordsOf r ++ rest := by
  unfold decodeWords at h
  split at h
  · cases h
  · split at h
    · cases h
    · split at h
      next tail hlen => exact ⟨_, tail, legalOf_eq_ok h, by rw [wordsOf_fieldsOf (e := .none) hlen.symm]; rfl⟩
      next tail hlen => exact ⟨_, tail, legalOf_eq_ok h, by rw [wordsOf_fieldsOf (e := .imm32 _) hlen.symm]; rfl⟩
      next tail hlen => exact ⟨_, tail, legalOf_eq_ok h, by rw [wordsOf_fieldsOf (e := .ext64 _ _) hlen.symm]; rfl⟩
      · cases h
      · cases h

/-- R58, R68: what decodes is legal, and stands in its own words. -/
theorem encode_of_decodeWords {ws : List Word} {i : Instr} (h : decodeWords ws = .ok i) : i.WellFormed ∧ ∃ rest, ws = encode i ++ rest := by
  obtain ⟨r, rest, hr, hws⟩ := fields_of_decodeWords h
  obtain ⟨rfl, hl⟩ := ofRaw_eq_some hr
  obtain ⟨hd, hh⟩ := hdOf_of_legal hl
  exact ⟨hl, rest, by rw [hws, encode_eq hh]⟩

/-! ## What decodes to nothing -/

/-- R49: a legal instruction takes 8, 12 or 16 bytes. -/
theorem lenBytes_cases {i : Instr} (hl : legal i = true) : lenBytes i = 8 ∨ lenBytes i = 12 ∨ lenBytes i = 16 := by
  have := lenBytes_eq hl
  have := lenCode_lt (rawOf i).ext
  omega

/-- R51: the first word of a legal instruction says its length. -/
theorem lenOf_head {i : Instr} (hl : legal i = true) {w : Word} {ws : List Word} (he : encode i = w :: ws) : lenOf w = some (lenBytes i) := by
  obtain ⟨w', ws', he', -, hlen⟩ := encode_head hl
  obtain ⟨rfl, -⟩ := List.cons.inj (he'.symm.trans he)
  exact hlen

/-- R51: LEN = 11 stands for no length. -/
theorem decodeWords_badLen {w : Word} (hw : w ≠ 3) (hlen : w.toNat % 4 = 3) (ws : List Word) : decodeWords (w :: ws) = .error .badLen := by
  rw [decodeWords, if_neg (show w ≠ fillWord from hw)]
  exact hlen

/-- R67: the opcodes from 0xAA on are reserved. -/
theorem parse_reserved {r : Raw} (hop : 0xAA ≤ r.op) : parse r = none := by
  have hblock : parse r = parseRest r := by
    unfold parse
    rw [if_neg (by omega), if_neg (by omega), if_neg (by omega), if_neg (by omega), if_neg (by omega), if_neg (by omega), if_neg (by omega),
      if_neg (by omega)]
  rw [hblock]
  unfold parseRest
  dsimp only
  split
  case h_9 => rfl
  all_goals omega

/-- R67, R68: a word with a reserved opcode is no instruction. -/
theorem decodeWords_reserved {w0 w1 : Word} (hop : 0xAA ≤ w0.toNat / 2 ^ 7 % 2 ^ 8) (hlen : w0.toNat % 4 = 0) (ws : List Word) :
    decodeWords (w0 :: w1 :: ws) = .error .illegal := by
  have hfill : w0 ≠ fillWord := by rintro rfl; cases hlen
  have hfield : (fieldsOf (w0.toNat + 2 ^ 32 * w1.toNat) .none).op = (w0.toNat + 2 ^ 32 * w1.toNat) / 2 ^ 2 / 2 ^ 1 / 2 ^ 1 / 2 ^ 3 % 2 ^ 8 := rfl
  have hparse : parse (fieldsOf (w0.toNat + 2 ^ 32 * w1.toNat) .none) = none := parse_reserved (by rw [hfield]; omega)
  rw [decodeWords, if_neg hfill]
  · rw [ofRaw, hparse]
    rfl
  · exact hlen

/-- Settles O52: what is decoded has been read from fields that are its own and that pack to the words; the lengths are those of the length
code; and the reserved patterns are turned away by the fill word, the length code and the opcode map. -/
theorem encodeOfDecode : Obligations.EncodeOfDecode :=
  ⟨fun _ _ => encode_of_decodeWords, fun _ hl => ⟨length_encode hl, lenBytes_cases hl, fun _ _ => lenOf_head hl⟩, fun _ => rfl,
    fun _ ws hw hlen => decodeWords_badLen hw hlen ws, fun _ _ ws hop hlen => decodeWords_reserved hop hlen ws⟩

end Sys2Proof.Laws
end

section
/-! Proof of O49, first part: masks of lanes, and what the one operation that takes a trap does with records of fibres that run. -/

namespace Sys2Proof.Machine

/-! ## Masks of lanes -/

/-- The mask of some lanes, bit by bit. -/
theorem laneIn_maskOf {l : Nat} {ls : List Nat} : laneIn (maskOf ls) l = true ↔ l < 64 ∧ l ∈ ls := by
  refine ⟨fun h => ⟨BitVec.lt_of_getLsbD h, mem_of_laneIn_maskOf h⟩, fun ⟨hl, hmem⟩ => ?_⟩
  suffices hfold : ∀ (ls : List Nat) (m : BitVec 64), laneIn m l = true ∨ l ∈ ls →
      laneIn (ls.foldl (fun m i => m ||| 1 <<< i) m) l = true from hfold ls 0 (.inr hmem)
  intro ls
  induction ls with
  | nil => exact fun m hm => hm.resolve_right List.not_mem_nil
  | cons i ls ih =>
    refine fun m hm => ih _ ?_
    simp only [laneIn, BitVec.getLsbD_or, Bool.or_eq_true, BitVec.natCast_eq_ofNat, BitVec.getLsbD_ofNat, Nat.one_shiftLeft,
      Nat.testBit_two_pow, Bool.and_eq_true, decide_eq_true_eq]
    rcases hm with hbit | hmem
    · exact .inl (.inl hbit)
    · rcases List.mem_cons.mp hmem with rfl | hrest
      · exact .inl (.inr ⟨hl, rfl⟩)
      · exact .inr hrest

theorem maskOf_lanesOf (m : BitVec 64) : maskOf (lanesOf m) = m := by
  refine BitVec.eq_of_getLsbD_eq fun l hl => Bool.eq_iff_iff.mpr ?_
  change laneIn (maskOf (lanesOf m)) l = true ↔ laneIn m l = true
  rw [laneIn_maskOf, mem_lanesOf, and_iff_right hl]

theorem lanesOf_ne_nil {m : BitVec 64} (hm : m ≠ 0) : lanesOf m ≠ [] := fun he => hm (by rw [← maskOf_lanesOf m, he]; rfl)

theorem laneIn_lanesWhere {test : Fibre → Bool} {g : Gang} {l : Nat} {f : Fibre} (hl : l < 64) (hf : fibreAt g l = some f) :
    laneIn (lanesWhere test g) l = test f := by
  have hlen : l < g.fibres.length := (List.getElem?_eq_some_iff.mp hf).1
  refine Bool.eq_iff_iff.mpr ?_
  rw [lanesWhere, laneIn_maskOf, List.mem_filter, List.mem_range, hf]
  exact ⟨fun h => h.2.2, fun h => ⟨hl, hlen, h⟩⟩

theorem fibreAt_onLanes {m : BitVec 64} {fn : Nat → Fibre → Fibre} {g : Gang} {l : Nat} {f : Fibre} (hf : fibreAt g l = some f) :
    fibreAt (onLanes m fn g) l = some (if laneIn m l = true then fn l f else f) := by
  have hget : g.fibres[l]? = some f := hf
  rw [onLanes, fibreAt, List.getElem?_mapIdx, hget]
  rfl

/-! ## The frame -/

/-- R386: the fibre after its gang has taken a trap for the lanes of F: at the handler, or parked. -/
def inHandler (F : BitVec 64) (tvec : Pc) (l : Nat) (f : Fibre) : Fibre :=
  if laneIn F l then { f with life := .live, wait := none, gwait := none, pc := tvec }
  else if f.life = .live then { f with life := .parked } else f

/-- R386: the running fibres beside those of a mask. -/
theorem laneIn_liveBeside {m : BitVec 64} {g : Gang} {l : Nat} {f : Fibre} (hl : l < 64) (hf : fibreAt g l = some f) :
    laneIn (lanesWhere (fun x => x.life = .live) g &&& ~~~m) l = (!laneIn m l && decide (f.life = .live)) := by
  have hlive : (lanesWhere (fun x => x.life = .live) g).getLsbD l = _ := laneIn_lanesWhere hl hf
  simp only [laneIn, BitVec.getLsbD_and, BitVec.getLsbD_not, hl, hlive, decide_true, Bool.true_and, Bool.and_comm]

/-- R386, R388: the fibres of the records start the handler, and every other running fibre is parked. -/
theorem fibreAt_pushFrame {recs : List TrapRec} {g : Gang} {l : Nat} {f : Fibre} (hl : l < 64) (hf : fibreAt g l = some f) :
    fibreAt (pushFrame recs g) l = some (inHandler (recMask recs) g.tvec l f) := by
  have hframed : fibreAt (pushFrame recs g) l = some (
      let f' := if laneIn (lanesWhere (fun x => x.life = .live) g &&& ~~~recMask recs) l then { f with life := .parked } else f
      if laneIn (recMask recs) l then { f' with life := .live, wait := none, gwait := none, pc := g.tvec } else f') :=
    fibreAt_onLanes (fibreAt_onLanes hf)
  rw [hframed, laneIn_liveBeside hl hf, inHandler]
  cases laneIn (recMask recs) l <;> simp

/-- R386: the frame that a trap pushes; the lanes that it parks are the running ones beside those of the records. -/
theorem frames_pushFrame (recs : List TrapRec) (g : Gang) : ∃ fr, (pushFrame recs g).frames = fr :: g.frames ∧
    fr.tmask = recMask recs ∧ fr.recs = recs ∧ fr.returned = 0 ∧ ∀ l f, l < 64 → fibreAt g l = some f →
      laneIn fr.parked l = (!laneIn (recMask recs) l && decide (f.life = .live)) :=
  ⟨_, rfl, rfl, rfl, rfl, fun _ _ => laneIn_liveBeside⟩

/-! ## Taking a trap -/

theorem perfCount_reports (core ctx code n : Nat) (s : State) : (perfCount core ctx code n s).reports = s.reports := by
  rw [(perfCount_sameBut core ctx code n 0 s).rest]

/-- R386, R388, R394: a gang that is not frozen takes the trap of records of fibres that run. -/
theorem takeTrapRecs_taken {k : Nat} {s : State} {g : Gang} {recs : List TrapRec} (hg : look k s.gangs = some g) (hfrozen : g.frozen = none)
    (hlive : liveRecs g recs = recs) (hrecs : recs ≠ []) : ∃ g', look k (takeTrapRecs k recs s).gangs = some g' ∧
      (takeTrapRecs k recs s).mem = s.mem ∧ TrapTaken s g (recMask recs) recs (fun _ f => f) (takeTrapRecs k recs s) g' := by
  obtain ⟨r, rs, rfl⟩ := List.exists_cons_of_ne_nil hrecs
  rw [takeTrapRecs]
  simp only [hg, hlive, hfrozen, Option.isSome_none, Bool.false_eq_true, if_false]
  by_cases hfull : g.tvec = 0 ∨ g.frames.length = 4
  · rw [if_pos hfull]
    refine ⟨_, look_updGang hg, rfl, rfl, rfl, ?_⟩
    rw [if_pos hfull]
    exact ⟨rfl, fun _ _ hf => hf, _, rfl, rfl, rfl, rfl, rfl⟩
  · rw [if_neg hfull]
    refine ⟨pushFrame (r :: rs) g, by rw [perfCount_gangs]; exact look_updGang hg, perfCount_mem .., rfl, rfl, ?_⟩
    rw [if_neg hfull]
    obtain ⟨fr, hframes, hmask, hown, hreturned, hparked⟩ := frames_pushFrame (r :: rs) g
    exact ⟨perfCount_reports .., fr, hframes, hmask, hown, hreturned, fun l f hl hf => ⟨hparked l f hl hf, fibreAt_pushFrame hl hf⟩⟩

/-- A gang that differs, as far as the taking of a trap can tell, in its fibres and its records alone. -/
structure SameBase (g v : Gang) : Prop where
  tvec : v.tvec = g.tvec
  scalars : v.s = g.s
  frames : v.frames = g.frames
  ctx : v.ctx = g.ctx
  core : v.core = g.core
  frozen : v.frozen = g.frozen
  free : v.holdOps = g.holdOps

theorem SameBase.endsAs {g v w : Gang} (h : SameBase g v) (he : EndsAs v w) : SameBase g w := by
  unfold EndsAs at he
  rw [he]
  exact ⟨h.tvec, h.scalars, h.frames, h.ctx, h.core, h.frozen, h.free⟩

/-- A trap that is taken after the fibres have become what `pre` says is a trap of the gang as it was. -/
theorem TrapTaken.of_before {s u t : State} {g v g' : Gang} {F : BitVec 64} {recs : List TrapRec} {pre : Nat → Fibre → Fibre}
    (ht : TrapTaken u v F recs (fun _ f => f) t g') (hreports : u.reports = s.reports) (hbase : SameBase g v)
    (hfibres : ∀ l f, fibreAt g l = some f → fibreAt v l = some (pre l f)) : TrapTaken s g F recs pre t g' := by
  unfold TrapTaken at ht ⊢
  rw [hreports, hbase.tvec, hbase.scalars, hbase.frames, hbase.ctx] at ht
  obtain ⟨htvec, hs, htaken⟩ := ht
  refine ⟨htvec, hs, ?_⟩
  by_cases hfull : g.tvec = 0 ∨ g.frames.length = 4
  · rw [if_pos hfull] at htaken ⊢
    obtain ⟨hsame, hfib, hrep⟩ := htaken
    exact ⟨hsame, fun l f hf => hfib l _ (hfibres l f hf), hrep⟩
  · rw [if_neg hfull] at htaken ⊢
    obtain ⟨hrep, fr, hfr, hmask, hown, hreturned, hfib⟩ := htaken
    exact ⟨hrep, fr, hfr, hmask, hown, hreturned, fun l f hl hf => hfib l _ hl (hfibres l f hf)⟩

/-- The instruction, or the step, completes with the trap of these records taken by gang k, and memory is as it was. -/
def TakesTrap (i : Instr) (k : Nat) (s : State) (g : Gang) (F : BitVec 64) (recs : List TrapRec) (pre : Nat → Fibre → Fibre) : Prop :=
  ∃ (t : State) (g' : Gang), exec i s = .next t ∧ t.mem = s.mem ∧ look k t.gangs = some g' ∧ TrapTaken s g F recs pre t g'

/-- R365, R382: one record for each lane of a group is a trap of that group. -/
theorem recMask_splitRecs (group : BitVec 64) (c : Word) (a : Dword) (pc : Pc) : recMask (splitRecs group c a pc) = group := by
  rw [recMask, splitRecs, List.map_map]
  exact (congrArg maskOf (List.map_id _)).trans (maskOf_lanesOf group)

/-- R69, R382: a decode-class fault is taken by every fibre of a group that runs, with DEC set. -/
theorem decodeTrap_taken {k : Nat} {s : State} {g : Gang} {group : BitVec 64} {pc : Pc} {c : Word} {a : Dword}
    (hg : look k s.gangs = some g) (hfrozen : g.frozen = none) (hlive : GroupLive group g) (hgroup : group ≠ 0) :
    ∃ g', look k (decodeTrap k group pc c a s).gangs = some g' ∧ (decodeTrap k group pc c a s).mem = s.mem ∧
      TrapTaken s g group ((lanesOf group).map fun l => ⟨l, c ||| 0x10000, a, pc⟩) (fun _ f => f) (decodeTrap k group pc c a s) g' := by
  have hrecs : splitRecs group (c ||| 0x10000) a pc ≠ [] := by simpa [splitRecs] using lanesOf_ne_nil hgroup
  have htaken := takeTrapRecs_taken hg hfrozen (liveRecs_splitRecs hlive (c ||| 0x10000) a pc) hrecs
  rw [recMask_splitRecs] at htaken
  exact htaken

end Sys2Proof.Machine
end

section
/-! Proof of O49, second part: the traps of `trap` and `brk`, the trap that is due, and decode-class traps. -/

namespace Sys2Proof.Machine

open Sys2Proof.Laws

/-! ## `trap` and `brk` -/

/-- R11: lanes that fault write no scalar register. -/
theorem lanesGo_s_of_bad {pc : Pc} {c : Word} {addr : Fibre → Dword} : ∀ {ls : List Nat} {g : Gang},
    (lanesGo pc (fun _ f => .bad f c (addr f)) ls g).s = g.s
  | [], _ => rfl
  | l :: ls, g => by
    rw [lanesGo]
    split <;> exact lanesGo_s_of_bad

/-- R383, R391: lanes that all fault leave one record each. -/
theorem filterMap_laneRec_bad {i : Instr} {h : Hd} {s : State} {g : Gang} {c : Word} {addr : Fibre → Dword}
    (haddr : ∀ f, addr (past i s g f) = addr f) :
    (lanesOf (acting h s g)).filterMap (laneRec s.cur.pc (fun _ f => .bad f c (addr f)) (issued i h s g)) =
      recsFor g (acting h s g) c addr s.cur.pc := by
  refine List.filterMap_congr fun l hl => ?_
  cases hf : fibreAt g l with
  | none => rw [laneRec, fibreAt_issued_none hf]; rfl
  | some f =>
    rw [laneRec, fibreAt_issued hf, if_pos (laneIn_group_of_acting (mem_lanesOf.mp hl))]
    simp [Lane.bad, haddr]

/-- R14: every acting lane has a fibre, and a record of each is a record of every acting lane. -/
theorem recMask_recsFor {h : Hd} {s : State} {g : Gang} (c : Word) (addr : Fibre → Dword) (pc : Pc) :
    recMask (recsFor g (acting h s g) c addr pc) = acting h s g := by
  have hfibre : ∀ l ∈ lanesOf (acting h s g), (Option.map (·.lane) ((fibreAt g l).map fun f => (⟨l, c, addr f, pc⟩ : TrapRec))) = some l := by
    intro l hl
    have hact := mem_lanesOf.mp hl
    simp only [acting, activeOf, laneIn, BitVec.getLsbD_and, Bool.and_eq_true] at hact
    obtain ⟨f, hf, -⟩ := fibre_of_lanesWhere hact.2
    rw [hf]
    rfl
  rw [recMask, recsFor, List.map_filterMap, List.filterMap_congr hfibre, List.filterMap_some, maskOf_lanesOf]

/-- R279, R326: a copy under way is noted with its core, and counts alone have changed there. -/
theorem copyPending_of_sameBut {k : Nat} {s t : State} {g g' : Gang} (h : SameBut k s t) (hcore : g'.core = g.core) :
    copyPending t k g' = copyPending s k g := by
  rw [copyPending, copyPending, hcore, h.cores g.core]

/-- R383, R386: the faults of one issue, of fibres that run, are taken at its end in one trap. -/
theorem settle_taken {k n : Nat} {s : State} {g : Gang} (hg : look k s.gangs = some g) (hfrozen : g.frozen = none) (hpend : g.pend ≠ [])
    (hfree : g.holdOps = []) (hcopy : copyPending s k g = false)
    (hdue : ∀ r ∈ g.pend, ∃ f, fibreAt g r.lane = some f ∧ f.life = .live ∧ f.li = n) :
    ∃ g', look k (settle k s).gangs = some g' ∧ (settle k s).mem = s.mem ∧
      TrapTaken s g (recMask g.pend) g.pend (fun _ f => f) (settle k s) g' := by
  obtain ⟨hlive, hrecs⟩ := dueRecs_of_oneIssue hdue
  have hsettle : settle k s = takeTrapRecs k g.pend s := by
    rw [settle, hg]
    dsimp only
    rw [if_neg (by simp [hpend, hfree, hcopy]), hrecs]
  rw [hsettle]
  exact takeTrapRecs_taken hg hfrozen hlive hpend

/-- The gang of an issue by which every acting fibre has faulted. -/
def faulted (i : Instr) (h : Hd) (c : Word) (addr : Fibre → Dword) (s : State) (g : Gang) : Gang :=
  lanesGo s.cur.pc (fun _ f => .bad f c (addr f)) (lanesOf (acting h s g)) (issued i h s g)

section
variable (i : Instr) (h : Hd) (c : Word) (addr : Fibre → Dword) (s : State) (g : Gang)

theorem faulted_base : SameBase g (faulted i h c addr s g) := by
  rw [faulted, lanesGo_eq (nodup_lanesOf _), lanesGo_s_of_bad, issued_eq]
  exact ⟨rfl, rfl, rfl, rfl, rfl, rfl, rfl⟩

theorem faulted_pend (haddr : ∀ f, addr (past i s g f) = addr f) :
    (faulted i h c addr s g).pend = g.pend ++ recsFor g (acting h s g) c addr s.cur.pc := by
  rw [faulted, lanesGo_eq (nodup_lanesOf _), filterMap_laneRec_bad haddr, issued_eq]

/-- R382: the fibres that faulted stay at the instruction. -/
theorem fibreAt_faulted {l : Nat} {f : Fibre} (hf : fibreAt g l = some f) :
    fibreAt (faulted i h c addr s g) l = some (atIssue i s g (acting h s g) l f) := by
  have hissued : (issued i h s g).fibres[l]? = _ := fibreAt_issued hf
  rw [faulted, lanesGo_eq (nodup_lanesOf _), fibreAt, List.getElem?_mapIdx, hissued, atIssue, Option.map_some]
  by_cases ha : laneIn (acting h s g) l = true
  · simp [mem_lanesOf, ha, laneIn_group_of_acting ha, landed, Lane.bad]
  · simp [mem_lanesOf, ha]

end

/-- R391, R437: an instruction by which every acting fibre faults: the trap is taken at the instruction. -/
theorem lanes_trap {i : Instr} {h : Hd} {body : Iss → State → State} {s : State} {g : Gang} {c : Word} {addr : Fibre → Dword}
    (hc : CanIssue i .none s g) (hh : hdOf i = some h) (hx : exec i s = issue i h .none noGate body s)
    (hbody : body (bodyIss i h s g) (bodyState i h s g) =
      perLane (bodyIss i h s g) (fun _ f => .bad f c (addr f)) (bodyState i h s g))
    (haddr : ∀ f, addr (past i s g f) = addr f) (hready : GroupReady s g) (hfrozen : g.frozen = none) (hact : acting h s g ≠ 0) :
    TakesTrap i s.cur.gang s g (acting h s g) (recsFor g (acting h s g) c addr s.cur.pc) (atIssue i s g (acting h s g)) := by
  have hbase := faulted_base i h c addr s g
  have hl : look s.cur.gang (perLane (bodyIss i h s g) (fun _ f => .bad f c (addr f)) (bodyState i h s g)).gangs =
      some (faulted i h c addr s g) := look_updGang (look_bodyState i h hc.gang)
  obtain ⟨v, he, hnext⟩ := issue_ends hc hh hx hbody hl hbase.ctx (bodyState_ctxs i h s g)
  have hv := hbase.endsAs he
  unfold EndsAs at he
  have hfibres : ∀ l f, fibreAt g l = some f → fibreAt v l = some (atIssue i s g (acting h s g) l f) := fun l f hf => by
    rw [he]
    exact fibreAt_faulted i h c addr s g hf
  have hpend : v.pend = recsFor g (acting h s g) c addr s.cur.pc := by
    rw [he]
    exact (faulted_pend i h c addr s g haddr).trans (by rw [hc.noFault, List.nil_append])
  have hmask : recMask v.pend = acting h s g := by rw [hpend, recMask_recsFor]
  have hne : v.pend ≠ [] := fun hnil => hact (by rw [← hmask, hnil]; rfl)
  have hdue : ∀ r ∈ v.pend, ∃ f, fibreAt v r.lane = some f ∧ f.life = .live ∧ f.li = g.issues + 1 := by
    intro r hr
    rw [hpend] at hr
    obtain ⟨l, hl, hr⟩ := List.mem_filterMap.mp hr
    obtain ⟨f, hf, rfl⟩ := Option.map_eq_some_iff.mp hr
    have ha := mem_lanesOf.mp hl
    refine ⟨_, hfibres l f hf, ?_⟩
    rw [atIssue, if_pos ha]
    exact ⟨live_of_ready (hready l f (laneIn_group_of_acting ha) hf), rfl⟩
  have hbad : SameBut s.cur.gang s (perLane (bodyIss i h s g) (fun _ f => .bad f c (addr f)) (bodyState i h s g)) :=
    (bodyState_sameBut i h s g).trans (updGang_sameBut ..)
  have hsame := hbad.trans (updGang_sameBut s.cur.gang (fun _ => v) _)
  obtain ⟨g', hg', hmem, htaken⟩ := settle_taken (look_updGang (fn := fun _ => v) hl) (hv.frozen.trans hfrozen) hne (hv.free.trans hc.free)
    ((copyPending_of_sameBut hsame hv.core).trans hc.noCopy) hdue
  rw [hmask, hpend] at htaken
  exact ⟨_, g', hnext, hmem.trans (by rw [hsame.rest]), hg', htaken.of_before (by rw [hsame.rest]) hv hfibres⟩

/-- R435, R437: the accounts of an issue do not move a safe point. -/
theorem ordinalAt_issued (i : Instr) (h : Hd) (s : State) (g : Gang) (pc : Pc) : ordinalAt s (issued i h s g) pc = ordinalAt s g pc := by
  rw [issued_eq]
  rfl

/-- R391: `trap` raises SWTRAP with A in TADDR. -/
theorem trap_taken {h : Hd} {a : Opnd} {s : State} {g : Gang} (hc : CanIssue (.trap h a) .none s g) (hready : GroupReady s g)
    (hfrozen : g.frozen = none) (hact : acting h s g ≠ 0) :
    TakesTrap (.trap h a) s.cur.gang s g (acting h s g)
      (recsFor g (acting h s g) (cause cSWTRAP) (fun f => src h g .n32 f a) s.cur.pc) (atIssue (.trap h a) s g (acting h s g)) := by
  refine lanes_trap hc rfl (rfl : execTrap h a s = _) ?_ (fun f => rd_past' ..) hready hfrozen hact
  simp only [rd_issued]

/-- R438: the flag NOSAFE stands at bit 33. -/
theorem brkAddr_eq (ord : Word) : brkAddr ord = ord.setWidth 64 + if ord = BitVec.allOnes 32 then 0x200000000 else 0 := by
  rw [brkAddr, breakAddr, if_neg Bool.false_ne_true, add_zero]
  rfl

/-- R437, R438: `brk` raises BREAK with the ordinal of its safe point, or NOSAFE where it has none. -/
theorem brk_taken {h : Hd} {s : State} {g : Gang} (hc : CanIssue (.brk h) .none s g) (hready : GroupReady s g)
    (hfrozen : g.frozen = none) (hact : acting h s g ≠ 0) :
    let ord := if h.stop then ordinalAt s g s.cur.pc else BitVec.allOnes 32
    TakesTrap (.brk h) s.cur.gang s g (acting h s g) (recsFor g (acting h s g) (cause cBREAK)
      (fun _ => ord.setWidth 64 + if ord = BitVec.allOnes 32 then 0x200000000 else 0) s.cur.pc) (atIssue (.brk h) s g (acting h s g)) := by
  intro ord
  refine lanes_trap hc rfl (rfl : execBrk h s = _) ?_ (fun _ => rfl) hready hfrozen hact
  simp only [ordinalAt_issued, brkAddr_eq]
  rfl

/-- R14: where no fibre acts, an instruction whose lanes fault does nothing. -/
theorem lanes_idle {i : Instr} {h : Hd} {body : Iss → State → State} {fn : Nat → Fibre → Lane} {s : State} {g : Gang}
    (hc : CanIssue i .none s g) (hh : hdOf i = some h) (hx : exec i s = issue i h .none noGate body s)
    (hbody : body (bodyIss i h s g) (bodyState i h s g) = perLane (bodyIss i h s g) fn (bodyState i h s g)) (hact : acting h s g = 0) :
    Did i h s g keep id :=
  fibres_did hc hh hx hbody fun l _ hl _ => by simp [hact, laneIn] at hl

/-! ## The trap that is due -/

/-- R386: the issue by whose instruction a record's fibre has faulted. -/
def issueOf (g : Gang) (r : TrapRec) : Nat := ((fibreAt g r.lane).map (·.li)).getD 0

theorem mem_dueRecs {g : Gang} {r : TrapRec} :
    r ∈ dueRecs g ↔ r ∈ liveRecs g g.pend ∧ ∀ q ∈ liveRecs g g.pend, issueOf g r ≤ issueOf g q := by
  rw [dueRecs, List.mem_filter, List.all_eq_true]
  simp only [decide_eq_true_eq]
  rfl

/-- R386: the records that are due, in one pass. -/
theorem dueRecs_eq (g : Gang) : dueRecs g = g.pend.filter fun r => match fibreAt g r.lane with
    | some f => decide (f.life = .live) && g.pend.all fun q => match fibreAt g q.lane with
      | some e => decide (e.life ≠ .live) || decide (f.li ≤ e.li)
      | none => true
    | none => false := by
  unfold dueRecs liveRecs
  rw [List.filter_filter]
  refine List.filter_congr fun r _ => ?_
  cases hr : fibreAt g r.lane with
  | none => simp
  | some f =>
    simp only [hr, Option.map_some, Option.getD_some]
    rw [Bool.and_comm, List.all_filter]
    congr 1
    refine List.all_congr rfl fun q => ?_
    cases hq : fibreAt g q.lane <;> simp

theorem dueRecs_live (g : Gang) : liveRecs g (dueRecs g) = dueRecs g :=
  List.filter_eq_self.mpr fun _ hr => (List.mem_filter.mp (List.mem_filter.mp hr).1).2

/-- R386: of some records of live fibres, those of the earliest issue are due. -/
theorem dueRecs_ne_nil {g : Gang} (h : liveRecs g g.pend ≠ []) : dueRecs g ≠ [] := by
  obtain ⟨r, hmin⟩ := Option.ne_none_iff_exists'.mp (mt (List.argmin_eq_none (f := issueOf g)).mp h)
  exact List.ne_nil_of_mem (mem_dueRecs.mpr ⟨List.argmin_mem hmin, fun q hq => List.le_of_mem_argmin hq hmin⟩)

/-- R393: a gang that may issue is not frozen. -/
theorem frozen_of_gangRuns {s : State} {k : Nat} {g : Gang} (h : gangRuns s k g = true) : g.frozen = none := by
  simp only [gangRuns, Bool.and_eq_true, Option.isNone_iff_eq_none] at h
  obtain ⟨⟨⟨hfrozen, -⟩, -⟩, -⟩ := h
  exact hfrozen

/-- R383, R386: the trap of earlier faults is taken by the fibres of the earliest issue that faulted. -/
theorem takeTrap_due {s : State} {k : Nat} {g : Gang} (hg : look k s.gangs = some g) (hdue : pendDue s k g = true) :
    TakesTrap (.takeTrap k) k s g (recMask (dueRecs g)) (dueRecs g) (fun _ f => f) := by
  have hexec : exec (.takeTrap k) s = .next (takeTrapRecs k (dueRecs g) s) := by
    show execTakeTrap k s = _
    simp only [execTakeTrap, hg, hdue, if_true]
  simp only [pendDue, Bool.and_eq_true, Bool.not_eq_true', List.isEmpty_eq_false_iff] at hdue
  obtain ⟨hruns, hlive⟩ := hdue
  obtain ⟨g', hg', hmem, htaken⟩ := takeTrapRecs_taken hg (frozen_of_gangRuns hruns) (dueRecs_live g) (dueRecs_ne_nil hlive)
  exact ⟨_, g', hexec, hmem, hg', htaken⟩

/-! ## Decode-class traps -/

/-- R156: a group that is chosen holds the fibre whose PC is lowest. -/
theorem chooseIn_ne_zero {m group : BitVec 64} {g : Gang} {pc : Pc} (h : chooseIn m g = some (group, pc)) : group ≠ 0 := by
  rw [chooseIn] at h
  split at h
  · cases h
  next p hlow =>
    cases h
    have hmem := List.min?_mem hlow
    obtain ⟨l, hl, hf⟩ := List.mem_filterMap.mp hmem
    split at hf
    next f hfib =>
      obtain ⟨hready, rfl⟩ : ready f = true ∧ f.pc.toNat = p := by simpa using hf
      have hpool := mem_lanesOf.mp hl
      have hwhere := laneIn_lanesWhere (test := fun f' => ready f' && f'.pc.toNat = f.pc.toNat) (BitVec.lt_of_getLsbD hpool) hfib
      intro hzero
      have hbit := congrArg (laneIn · l) hzero
      simp only [laneIn, BitVec.getLsbD_and] at hbit hpool hwhere
      rw [hpool, hwhere, hready] at hbit
      simp at hbit
    · cases hf

theorem pickIn_ne_zero {s : State} {k : Nat} {g : Gang} {group : BitVec 64} {pc : Pc} : ∀ {n : Nat} {m : BitVec 64},
    pickIn s k g n m = some (group, pc) → group ≠ 0
  | 0, _, h => by cases h
  | n + 1, m, h => by
    rw [pickIn] at h
    split at h
    · cases h
    next hc =>
      have hne := chooseIn_ne_zero hc
      split at h
      · split at h
        · exact pickIn_ne_zero h
        · cases h; exact hne
      · cases h; exact hne

theorem fibreAt_settledGang {s : State} {g : Gang} {l : Nat} {f : Fibre} (hf : fibreAt g l = some f) :
    fibreAt (settledGang s g) l = some ((fibreAt (settledGang s g) l).getD f) := by
  have hget : g.fibres[l]? = some f := hf
  rw [settledGang, fibreAt, List.getElem?_map, hget]
  rfl

/-- R69, R70: a decode-class fault that is due is of the group that the gang, past its fill words, would issue next. -/
theorem decodeDue_group {s : State} {k : Nat} {g : Gang} {group : BitVec 64} {pc : Pc} {c : Word} {a : Dword}
    (h : decodeDue s k g = some (group, pc, c, a)) : g.frozen = none ∧ pickGroup s k (settledGang s g) = some (group, pc) := by
  unfold decodeDue at h
  split at h
  · cases h
  next hruns =>
    refine ⟨frozen_of_gangRuns (by simpa using hruns), ?_⟩
    dsimp only at h
    split at h
    · cases h
    next hpick =>
      rw [hpick]
      split at h
      · cases h; rfl
      · obtain ⟨_, _, hc⟩ := Option.map_eq_some_iff.mp h
        cases hc
        rfl
      · cases h

/-- R69, R382: a decode-class fault that is due is taken by every fibre of the group, past its fill words. -/
theorem takeTrap_decode {s : State} {k : Nat} {g : Gang} {group : BitVec 64} {pc : Pc} {c : Word} {a : Dword}
    (hg : look k s.gangs = some g) (hdue : pendDue s k g = false) (hdec : decodeDue s k g = some (group, pc, c, a)) :
    TakesTrap (.takeTrap k) k s g group ((lanesOf group).map fun l => ⟨l, c ||| 0x10000, a, pc⟩)
      (fun l f => (fibreAt (settledGang s g) l).getD f) := by
  have hexec : exec (.takeTrap k) s = .next (trapAt k group pc c a (settleFills k s)) := by
    show execTakeTrap k s = _
    simp only [execTakeTrap, hg, hdue, hdec, Bool.false_eq_true, if_false]
  obtain ⟨hfrozen, hpick⟩ := decodeDue_group hdec
  have hv := look_updGang (fn := fun g => { g with walkFaults := [] }) (look_updGang (fn := settledGang s) hg)
  have hlive : GroupLive group (settledGang s g) := pickIn_live hpick
  obtain ⟨g', hg', hmem, htaken⟩ := decodeTrap_taken (pc := pc) (c := c) (a := a) hv hfrozen hlive (pickIn_ne_zero hpick)
  exact ⟨_, g', hexec, hmem, hg', htaken.of_before rfl ⟨rfl, rfl, rfl, rfl, rfl, rfl, rfl⟩ fun _ _ => fibreAt_settledGang⟩

/-- R69: an issue with a decode-class fault does nothing but take its trap. -/
theorem issue_decodeFault {i : Instr} {h : Hd} {ctr : CtrKind} {gate : Iss → State → Option State} {body : Iss → State → State} {s : State}
    {g : Gang} {c : Nat} (hg : look s.cur.gang s.gangs = some g) (hfault : decodeFault s g i = some c) :
    issue i h ctr gate body s = .next (decodeTrap s.cur.gang s.cur.group s.cur.pc (cause c) 0 s) := by
  unfold issue
  simp only [hg, hfault]

/-- R6, R69: every instruction is an issue, whatever its gate and its body, so that its decode-class fault comes before all else. -/
theorem exec_decodeFault {i : Instr} {h : Hd} {s : State} {g : Gang} {c : Nat} (hh : hdOf i = some h)
    (hg : look s.cur.gang s.gangs = some g) (hfault : decodeFault s g i = some c) :
    exec i s = .next (decodeTrap s.cur.gang s.cur.group s.cur.pc (cause c) 0 s) := by
  have hreg {h : Hd} {fn : Gang → Fibre → Lane} :
      regOp i h fn s = .next (decodeTrap s.cur.gang s.cur.group s.cur.pc (cause c) 0 s) := issue_decodeFault hg hfault
  have hvote {h : Hd} {a : Opnd} {fn : List (Nat × Bool) → Fibre → Lane} :
      voteOp i h a fn s = .next (decodeTrap s.cur.gang s.cur.group s.cur.pc (cause c) 0 s) := issue_decodeFault hg hfault
  have horbit {h : Hd} {fn : Sym → Extents → Point → Fibre → Lane} :
      orbitOp i h fn s = .next (decodeTrap s.cur.gang s.cur.group s.cur.pc (cause c) 0 s) := issue_decodeFault hg hfault
  cases i with
  | add | sub | mul | mulhi | mad | div | rem | neg | abs | min | max | and | or | xor | not | shl | shr | sar | rol | ror | popc | clz
  | ctz | brev | bfe | bfi | sel | mov | setp | addc | plog | lea
  | fadd | fsub | fmul | ffma | fnfma | fdiv | fsqrt | frcp | frsq | fmin | fmax | fabs | fneg | fsetp | fclass | frnd | fcpsgn | fscale
  | fexpo | fmant | f2sum | f2prod | fdot2 | fpfma | pack | fexp2 | flog2 | cvt | unpk | qnt | qntIns | rand | seed
  | wclr | wclrStat | wadd | wsub | wmul2 | wmul3 | wsgn | wrnd | wmov =>
    dsimp only [exec]
    exact hreg
  | voteAll | voteAny | voteBallot =>
    dsimp only [exec]
    exact hvote
  | orbitSize | orbitStab | orbitImg =>
    dsimp only [exec]
    exact horbit
  | nop | br | brx | callLabel | callRegister | ret | exit | trap | tret | getsr | setsr | setsrKey | setsrPerf | yield | brk
  | ld | st | imageStore | atom | cas | red | fenceAcq | fenceRel | fenceFull | prefL1 | prefL2 | invalL1 | invalAll | invalRdc | flush
  | flushAll | ldesc | sdesc | dalloc | dallocZ | dfree | wld | wst
  | spawnLabel | spawnRegister | barSync | barArv | barEsync | barEarv | barRgn | voteUni | shfl | gred
  | gscan | matchAny | matchAll | racq | rrel | incrd | incrdHome | bnd | defer | popen | accept | pclose
  | launch | signal | signalAdd | role | stgw | stga
  | copyG2s | copyS2g | gath | scat | wait | sleep | subs | unsub | troupe | mopf | mma | mld | mst | mcont | wbload
  | cgrp | cgrpFree | cag | crs | ca2a | cbar | cwait | ckpt | ckptHold | perfSel | perfSmp =>
    dsimp only [exec]
    exact issue_decodeFault hg hfault
  | incu =>
    dsimp only [exec, execIncu]
    exact issue_decodeFault hg hfault
  | _ => cases hh

/-- R69, R382: the decode-class fault of a legal word that depends on the gang is taken by the whole group. -/
theorem decodeFault_taken {i : Instr} {s : State} {g : Gang} {c : Nat} (hl : legal i = true) (hg : look s.cur.gang s.gangs = some g)
    (hfault : decodeFault s g i = some c) (hfrozen : g.frozen = none)
    (hready : ∀ l, laneIn s.cur.group l = true → ∃ f, fibreAt g l = some f ∧ ready f = true) (hgroup : s.cur.group ≠ 0) :
    TakesTrap i s.cur.gang s g s.cur.group ((lanesOf s.cur.group).map fun l => ⟨l, cause c ||| 0x10000, 0, s.cur.pc⟩) (fun _ f => f) := by
  obtain ⟨h, hh⟩ := hdOf_of_legal hl
  have hlive : GroupLive s.cur.group g := fun l hl => (hready l hl).imp fun _ hf => ⟨hf.1, live_of_ready hf.2⟩
  obtain ⟨g', hg', hmem, htaken⟩ := decodeTrap_taken (pc := s.cur.pc) (c := cause c) (a := 0) hg hfrozen hlive hgroup
  exact ⟨_, g', exec_decodeFault hh hg hfault, hmem, hg', htaken⟩

/-- Settles O49: one operation takes every trap, and what it does is said once; `trap` and `brk` come to it at the end of their issue,
the traps that are due and those of decoding at once. -/
theorem traps : Obligations.Traps := by
  refine ⟨⟨fun _ _ _ _ => trap_taken, fun _ _ _ => brk_taken, ?_⟩, fun s k g hg hdue => ?_,
    fun _ _ _ _ _ _ _ => takeTrap_decode, fun _ _ _ _ => decodeFault_taken⟩
  · rintro i h s g (rfl | ⟨a, rfl⟩) hc hact
    · exact lanes_idle hc rfl (rfl : execBrk h s = _) rfl hact
    · exact lanes_idle hc rfl (rfl : execTrap h a s = _) rfl hact
  · have htaken := takeTrap_due hg hdue
    rw [dueRecs_eq] at htaken
    exact htaken

end Sys2Proof.Machine
end

section
/-! Proof of O2: division. -/

namespace Sys2Proof.Machine

/-- R87: the quotient, with its two corners as the rule states them. -/
def statedQuot (t : Ty) (a b : Int) : Int :=
  if b = 0 then (if tySigned t then -1 else 2 ^ tyBits t - 1)
  else if tySigned t = true ∧ a = -(2 ^ (tyBits t - 1)) ∧ b = -1 then -(2 ^ (tyBits t - 1))
  else Int.tdiv a b

theorem intQuot_eq_statedQuot (t : Ty) (a b : Int) : intQuot t a b = statedQuot t a b := by
  unfold intQuot statedQuot
  cases hs : tySigned t with
  | true => simp [tyMin, hs]
  | false => simp

/-- Settles O2: the quotient of the model is the stated one, and the remainder is defined from it. -/
theorem division : Obligations.Division := by
  unfold Obligations.Division
  intro q
  have hq : statedQuot = q := rfl
  clear_value q
  subst hq
  refine ⟨fun h o s g hc => ?div, fun h o s g hc => ?rem⟩
  case div => exact exact2_result (val := statedQuot o.t) hc rfl (show _ = execDiv h o s from rfl) (intQuot_eq_statedQuot o.t)
  case rem =>
    exact exact2_result (val := fun a b => a - b * statedQuot o.t a b) hc rfl (show _ = execRem h o s from rfl)
      fun a b => by rw [intRem, intQuot_eq_statedQuot]

end Sys2Proof.Machine
end

section
/-! Proof of O3: shifts, rotations, counts of bits and bit fields, as operations on the w bits of a pattern. -/

namespace Sys2Proof.Machine

/-! ## Wrapped results -/

/-- R24: what is written depends on the exact result modulo 2^w. -/
theorem tyWrap_congr {t : Ty} {x y : Int} (h : x % 2 ^ tyBits t = y % 2 ^ tyBits t) : tyWrap t x = tyWrap t y := by
  simp only [tyWrap, h]

/-- The low w bits of a pattern are fewer than 2^w. -/
theorem low_lt (w : Nat) (x : Dword) : low w x < 2 ^ w := Nat.mod_lt _ (by positivity)

theorem natCast_two_pow (k : Nat) : ((2 ^ k : Nat) : Int) = 2 ^ k := by push_cast; rfl

/-- R24, R25: signed or not, a source stands for its pattern modulo 2^w. -/
theorem tyVal_emod_low (t : Ty) (x : Dword) : tyVal t x % 2 ^ tyBits t = (low (tyBits t) x : Int) % 2 ^ tyBits t := by
  unfold tyVal
  split
  · exact sgn_emod _ _
  · rfl

theorem tyMin_le_zero (t : Ty) : tyMin t ≤ 0 := by cases t <;> decide
theorem zero_le_tyMax (t : Ty) : 0 ≤ tyMax t := by cases t <;> decide
theorem tyMax_lt (t : Ty) : tyMax t < 2 ^ 64 := by cases t <;> decide
theorem neg_lt_tyMin (t : Ty) : -(2 ^ 64) < tyMin t := by cases t <;> decide

/-! ## Shifts -/

/-- R88: a factor of 2^64 or more takes every integer but zero out of its type. -/
theorem clamp_mul_two_pow (t : Ty) (v : Int) {k : Nat} (hk : 64 ≤ k) : clamp (tyMin t) (tyMax t) (v * 2 ^ k) =
    if v < 0 then tyMin t else if v = 0 then 0 else tyMax t := by
  have hpow : (2 : Int) ^ 64 ≤ 2 ^ k := pow_le_pow_right₀ (by decide) hk
  have hmin := neg_lt_tyMin t
  have hmin0 := tyMin_le_zero t
  have hmax := tyMax_lt t
  have hmax0 := zero_le_tyMax t
  unfold clamp
  rcases lt_trichotomy v 0 with hv | rfl | hv
  · have : v * 2 ^ k ≤ -(2 ^ 64) := by nlinarith
    rw [if_pos (by omega), if_pos hv]
  · rw [zero_mul, if_neg (by omega), if_neg (by omega), if_neg (by omega), if_pos rfl]
  · have : 2 ^ 64 ≤ v * 2 ^ k := by nlinarith
    rw [if_neg (by omega), if_pos (by omega), if_neg (by omega), if_neg (by omega)]

theorem shlVal_sat (t : Ty) (x : Dword) (k : Nat) : shlVal t true x k = tyFit t true (tyVal t x * 2 ^ k) := by
  unfold shlVal
  dsimp only
  split
  · rfl
  · next hk => simp only [tyFit, if_true, clamp_mul_two_pow t _ (by omega : 64 ≤ k), clamp_mul_two_pow t _ (by decide : 64 ≤ 128)]

/-- R88: without `.sat` the bits above the width are lost. -/
theorem shlVal_wrap (t : Ty) (x : Dword) (k : Nat) :
    shlVal t false x k = tyFit t false ((low (tyBits t) x * 2 ^ k % 2 ^ tyBits t : Nat) : Int) := by
  have hbits := tyBits_le t
  have hmod : ∀ j : Nat, tyVal t x * 2 ^ j % 2 ^ tyBits t = ((low (tyBits t) x * 2 ^ j : Nat) : Int) % 2 ^ tyBits t := fun j => by
    push_cast
    rw [Int.mul_emod, tyVal_emod_low, ← Int.mul_emod]
  have hgone : ∀ j, tyBits t ≤ j → (low (tyBits t) x * 2 ^ j) % 2 ^ tyBits t = 0 := fun j hj =>
    Nat.mod_eq_zero_of_dvd ((pow_dvd_pow 2 hj).mul_left _)
  refine tyWrap_congr ?_
  rw [if_neg Bool.false_ne_true, hmod, if_neg Bool.false_ne_true, ← natCast_two_pow, ← Int.natCast_emod, ← Int.natCast_emod, Nat.mod_mod]
  split
  · rfl
  · next hk => rw [hgone 128 (by omega), hgone k (by omega)]

theorem shrVal_eq (t : Ty) (x : Dword) (k : Nat) : shrVal t x k = tyFit t false ((low (tyBits t) x / 2 ^ k : Nat) : Int) := by
  unfold shrVal
  split
  · next hk =>
    have hlt : low (tyBits t) x < 2 ^ k := (low_lt _ x).trans_le (Nat.pow_le_pow_right (by decide) hk)
    rw [Nat.div_eq_of_lt hlt]
    exact (tyWrap_zero t).symm
  · rfl

/-- R88: an integer of k bits and a sign, shifted by k or more, leaves its sign. -/
theorem ediv_two_pow_of_small {z : Int} {j k : Nat} (hz : -(2 ^ j) ≤ z ∧ z < 2 ^ j) (hk : j ≤ k) : z / 2 ^ k = if z < 0 then -1 else 0 := by
  have hpow : (2 : Int) ^ j ≤ 2 ^ k := pow_le_pow_right₀ (by decide) hk
  split
  · next hneg =>
    rw [Int.ediv_eq_iff_of_pos (by positivity)]
    omega
  · exact Int.ediv_eq_zero_of_lt (by omega) (by omega)

theorem sarVal_eq (t : Ty) (x : Dword) (k : Nat) :
    sarVal t x k = tyFit t false (Int.fdiv (sgn (tyBits t) (low (tyBits t) x)) (2 ^ k)) := by
  have hb := sgn_bounds (tyBits_pos t) (low_lt (tyBits t) x)
  have hpow : (2 : Int) ^ (tyBits t - 1) ≤ 2 ^ tyBits t := pow_le_pow_right₀ (by decide) (Nat.sub_le _ _)
  have hz : -(2 ^ tyBits t : Int) ≤ sgn (tyBits t) (low (tyBits t) x) ∧ sgn (tyBits t) (low (tyBits t) x) < 2 ^ tyBits t := by omega
  rw [Int.fdiv_eq_ediv_of_nonneg _ (by positivity)]
  refine congrArg (tyWrap t) ?_
  rw [if_neg Bool.false_ne_true]
  split
  · rfl
  · next hk => rw [ediv_two_pow_of_small hz le_rfl, ediv_two_pow_of_small hz (by omega)]

/-! ## Rotations -/

/-- R88: the bits that a rotation by k brings round. -/
theorem mul_two_pow_div {w k n : Nat} (hk : k ≤ w) : n * 2 ^ k / 2 ^ w = n / 2 ^ (w - k) := by
  obtain ⟨j, rfl⟩ := Nat.exists_eq_add_of_le hk
  rw [Nat.add_sub_cancel_left, Nat.add_comm, pow_add, Nat.mul_div_mul_right _ _ (by positivity)]

theorem mul_two_pow_mod {w k n : Nat} (hk : k ≤ w) : n * 2 ^ k % 2 ^ w = n % 2 ^ (w - k) * 2 ^ k := by
  obtain ⟨j, rfl⟩ := Nat.exists_eq_add_of_le hk
  rw [Nat.add_sub_cancel_left, Nat.add_comm, pow_add, Nat.mul_mod_mul_right]

theorem rolVal_eq (t : Ty) (x : Dword) (k : Nat) : rolVal t x k =
    tyFit t false ((low (tyBits t) x * 2 ^ (k % tyBits t) % 2 ^ tyBits t + low (tyBits t) x / 2 ^ (tyBits t - k % tyBits t) : Nat) : Int) := by
  have hk := Nat.mod_lt k (tyBits_pos t)
  unfold rolVal
  dsimp only
  rw [mul_two_pow_div hk.le]
  rfl

theorem rorVal_eq (t : Ty) (x : Dword) (k : Nat) : rorVal t x k = tyFit t false ((low (tyBits t) x / 2 ^ (k % tyBits t) +
    low (tyBits t) x % 2 ^ (k % tyBits t) * 2 ^ (tyBits t - k % tyBits t) : Nat) : Int) := by
  have hpos := tyBits_pos t
  have hk := Nat.mod_lt k hpos
  have hlow := low_lt (tyBits t) x
  rw [rorVal, rolVal_eq]
  generalize k % tyBits t = r at hk ⊢
  rcases Nat.eq_zero_or_pos r with rfl | hr
  · simp [Nat.mod_eq_of_lt hlow, Nat.div_eq_of_lt hlow, Nat.mod_one]
  · have hmod : (tyBits t - r) % tyBits t = tyBits t - r := Nat.mod_eq_of_lt (by omega)
    have hback : tyBits t - (tyBits t - r) = r := by omega
    rw [hmod, hback, mul_two_pow_mod (by omega), hback, Nat.add_comm]

/-! ## Bits -/

/-- R89: the bits that are counted are those of the low w. -/
theorem bitsOf_low (w : Nat) (x : Dword) : bitsOf w (low w x) = bitsOf w x.toNat := by
  refine List.map_congr_left fun i hi => ?_
  rw [low, Nat.testBit_mod_two_pow, decide_eq_true (List.mem_range.mp hi), Bool.true_and]

theorem getElem?_bitsOf {w n j : Nat} (hj : j < w) : (bitsOf w n)[j]? = some (n.testBit j) := by
  rw [bitsOf, List.getElem?_map, List.getElem?_range hj]; rfl

theorem length_bitsOf (w n : Nat) : (bitsOf w n).length = w := by rw [bitsOf, List.length_map, List.length_range]

theorem getElem?_bitsOf_reverse {w n j : Nat} (hj : j < w) : (bitsOf w n).reverse[j]? = some (n.testBit (w - 1 - j)) := by
  rw [List.getElem?_reverse (by rwa [length_bitsOf]), length_bitsOf, getElem?_bitsOf (by omega)]

/-- The zeros that a list of bits begins with: as many as there are, and then a one. -/
theorem zeros_spec : ∀ bs : List Bool, (bs.takeWhile (!·)).length ≤ bs.length ∧
    (∀ j < (bs.takeWhile (!·)).length, bs[j]? = some false) ∧
    ((bs.takeWhile (!·)).length < bs.length → bs[(bs.takeWhile (!·)).length]? = some true)
  | [] => by simp
  | true :: bs => by simp
  | false :: bs => by
    obtain ⟨hle, hzero, hone⟩ := zeros_spec bs
    refine ⟨by simpa using hle, fun j hj => ?_, fun hlt => by simpa using hone (by simpa using hlt)⟩
    cases j with
    | zero => rfl
    | succ j => simpa using hzero j (by simpa using hj)

/-- R89: the leading zeros of a number of w bits. -/
def leadingZeros (w n : Nat) : Nat := ((bitsOf w n).reverse.takeWhile (!·)).length

/-- R89: the trailing zeros of a number of w bits. -/
def trailingZeros (w n : Nat) : Nat := ((bitsOf w n).takeWhile (!·)).length

theorem leadingZeros_spec {w n : Nat} (hn : n < 2 ^ w) : leadingZeros w n ≤ w ∧ n < 2 ^ (w - leadingZeros w n) ∧
    (leadingZeros w n < w → 2 ^ (w - leadingZeros w n - 1) ≤ n) := by
  obtain ⟨hle, hzero, hone⟩ := zeros_spec (bitsOf w n).reverse
  rw [List.length_reverse, length_bitsOf] at hle hone
  change leadingZeros w n ≤ w at hle
  change ∀ j < leadingZeros w n, _ at hzero
  change leadingZeros w n < w → (bitsOf w n).reverse[leadingZeros w n]? = some true at hone
  generalize leadingZeros w n = z at hle hzero hone ⊢
  refine ⟨hle, Nat.lt_pow_two_of_testBit n fun i hi => ?_, fun hlt => ?_⟩
  · by_cases hiw : i < w
    · have h := hzero (w - 1 - i) (by omega)
      rw [getElem?_bitsOf_reverse (by omega), Option.some.injEq] at h
      rwa [show w - 1 - (w - 1 - i) = i by omega] at h
    · exact Nat.testBit_lt_two_pow (hn.trans_le (Nat.pow_le_pow_right (by decide) (by omega)))
  · have h := hone hlt
    rw [getElem?_bitsOf_reverse hlt, Option.some.injEq] at h
    rw [show w - z - 1 = w - 1 - z by omega]
    exact Nat.ge_two_pow_of_testBit h

theorem trailingZeros_spec (w n : Nat) : trailingZeros w n ≤ w ∧ n % 2 ^ trailingZeros w n = 0 ∧
    (trailingZeros w n < w → n.testBit (trailingZeros w n) = true) := by
  obtain ⟨hle, hzero, hone⟩ := zeros_spec (bitsOf w n)
  rw [length_bitsOf] at hle hone
  change trailingZeros w n ≤ w at hle
  change ∀ j < trailingZeros w n, _ at hzero
  change trailingZeros w n < w → (bitsOf w n)[trailingZeros w n]? = some true at hone
  generalize trailingZeros w n = z at hle hzero hone ⊢
  refine ⟨hle, Nat.eq_of_testBit_eq fun i => ?_, fun hlt => ?_⟩
  · rw [Nat.testBit_mod_two_pow, Nat.zero_testBit, Bool.and_eq_false_iff]
    by_cases hi : i < z
    · have h := hzero i hi
      rw [getElem?_bitsOf (by omega), Option.some.injEq] at h
      exact .inr h
    · exact .inl (decide_eq_false hi)
  · have h := hone hlt
    rwa [getElem?_bitsOf hlt, Option.some.injEq] at h

theorem testBit_ofBits : ∀ (bs : List Bool) (j : Nat), (ofBits bs).testBit j = bs.getD j false
  | [], j => by simp [ofBits]
  | b :: bs, 0 => by cases b <;> simp [ofBits, Nat.testBit_zero]
  | b :: bs, j + 1 => by
    have hhalf : (ofBits (b :: bs)) / 2 = ofBits bs := by
      have := b.toNat_le
      rw [ofBits]
      omega
    rw [Nat.testBit_succ, hhalf, testBit_ofBits bs j, List.getD_cons_succ]

theorem ofBits_lt : ∀ bs : List Bool, ofBits bs < 2 ^ bs.length
  | [] => by decide
  | b :: bs => by
    have := ofBits_lt bs
    have := b.toNat_le
    rw [ofBits, List.length_cons, Nat.pow_succ]
    omega

/-- R89: the w bits in the opposite order. -/
def reversedBits (w n : Nat) : Nat := ofBits (bitsOf w n).reverse

theorem reversedBits_spec (w n : Nat) : reversedBits w n < 2 ^ w ∧
    ∀ j < w, (reversedBits w n).testBit j = n.testBit (w - 1 - j) := by
  refine ⟨?_, fun j hj => ?_⟩
  · have h := ofBits_lt (bitsOf w n).reverse
    rwa [List.length_reverse, length_bitsOf] at h
  · rw [reversedBits, testBit_ofBits, List.getD_eq_getElem?_getD, getElem?_bitsOf_reverse hj]; rfl

/-! ## Fields -/

/-- R90: a field of l bits, read as two's complement. -/
theorem sgn_field (l n : Nat) (hn : n < 2 ^ l) : sgn l n = if 1 ≤ l ∧ n.testBit (l - 1) = true then (n : Int) - 2 ^ l else n := by
  cases l with
  | zero =>
    obtain rfl : n = 0 := by simpa using hn
    simp [sgn]
  | succ l =>
    have hbit : n.testBit l = true ↔ 2 ^ l ≤ n := by
      refine ⟨Nat.ge_two_pow_of_testBit, fun h => ?_⟩
      rw [Nat.testBit_eq_decide_div_mod_eq]
      have hdiv : n / 2 ^ l = 1 := by
        rw [Nat.div_eq_iff (by positivity)]
        rw [Nat.pow_succ] at hn
        omega
      rw [hdiv]; rfl
    unfold sgn
    have hiff : 2 ^ (l + 1) ≤ 2 * n ↔ 1 ≤ l + 1 ∧ n.testBit (l + 1 - 1) = true := by
      rw [Nat.add_sub_cancel, hbit, Nat.pow_succ]; omega
    simp only [hiff]

theorem bfeVal_eq (t : Ty) (x : Dword) (q l : Nat) : bfeVal t x q l =
    if tyBits t ≤ q then 0
    else tyFit t false (if tySigned t = true ∧ 1 ≤ min l (tyBits t - q) ∧
        (low (tyBits t) x / 2 ^ q % 2 ^ min l (tyBits t - q)).testBit (min l (tyBits t - q) - 1) = true then
      ((low (tyBits t) x / 2 ^ q % 2 ^ min l (tyBits t - q) : Nat) : Int) - 2 ^ min l (tyBits t - q)
      else (low (tyBits t) x / 2 ^ q % 2 ^ min l (tyBits t - q) : Nat)) := by
  unfold bfeVal
  dsimp only
  split
  · rfl
  · refine congrArg (tyWrap t) ?_
    change (if tySigned t = true then sgn (min l (tyBits t - q)) _ else _) = _
    rw [sgn_field _ _ (Nat.mod_lt _ (by positivity))]
    cases tySigned t <;> simp

/-- R90: the old pattern with the field of l' bits at q taken from x. -/
def insertedField (w o x q l : Nat) : Nat :=
  if w ≤ q then o
  else o - o / 2 ^ q % 2 ^ min l (w - q) * 2 ^ q + x % 2 ^ min l (w - q) * 2 ^ q

theorem bfiVal_eq (t : Ty) (old x : Dword) (q l : Nat) :
    bfiVal t old x q l = tyFit t false (insertedField (tyBits t) (low (tyBits t) old) (low (tyBits t) x) q l : Nat) := by
  unfold bfiVal insertedField
  dsimp only
  split <;> rfl

/-- R90: the bits below the field, the field and the bits above it. -/
theorem field_split (o x q l : Nat) : o - o / 2 ^ q % 2 ^ l * 2 ^ q + x % 2 ^ l * 2 ^ q =
    2 ^ q * (2 ^ l * (o / 2 ^ q / 2 ^ l) + x % 2 ^ l) + o % 2 ^ q := by
  have h1 := Nat.div_add_mod o (2 ^ q)
  have h2 := Nat.div_add_mod (o / 2 ^ q) (2 ^ l)
  generalize o / 2 ^ q / 2 ^ l = hi at *
  generalize o / 2 ^ q % 2 ^ l = mid at *
  rw [← h2] at h1
  generalize o % 2 ^ q = lo at *
  rw [← h1, Nat.mul_add, Nat.mul_add, Nat.mul_comm mid, Nat.mul_comm (x % 2 ^ l)]
  omega

theorem insertedField_spec {w o : Nat} (ho : o < 2 ^ w) (x q l : Nat) : insertedField w o x q l < 2 ^ w ∧
    ∀ j < w, (insertedField w o x q l).testBit j =
      if q ≤ j ∧ j < q + min l (w - q) then x.testBit (j - q) else o.testBit j := by
  unfold insertedField
  by_cases hq : w ≤ q
  · rw [if_pos hq]
    exact ⟨ho, fun j hj => by rw [if_neg (by omega)]⟩
  · rw [if_neg hq, field_split]
    have hle : min l (w - q) ≤ w - q := Nat.min_le_right _ _
    generalize min l (w - q) = m at hle
    have hlo : o % 2 ^ q < 2 ^ q := Nat.mod_lt _ (by positivity)
    have hmid : x % 2 ^ m < 2 ^ m := Nat.mod_lt _ (by positivity)
    have hbit : ∀ j, (2 ^ q * (2 ^ m * (o / 2 ^ q / 2 ^ m) + x % 2 ^ m) + o % 2 ^ q).testBit j =
        if q ≤ j ∧ j < q + m then x.testBit (j - q) else o.testBit j := by
      intro j
      rw [Nat.testBit_two_pow_mul_add _ hlo]
      by_cases hj : j < q
      · rw [if_pos hj, if_neg (by omega), Nat.testBit_mod_two_pow, decide_eq_true hj, Bool.true_and]
      · rw [if_neg hj, Nat.testBit_two_pow_mul_add _ hmid]
        by_cases hm : j - q < m
        · rw [if_pos hm, if_pos (by omega), Nat.testBit_mod_two_pow, decide_eq_true hm, Bool.true_and]
        · rw [if_neg hm, if_neg (by omega), Nat.testBit_div_two_pow, Nat.testBit_div_two_pow]
          congr 1; omega
    refine ⟨Nat.lt_pow_two_of_testBit _ fun i hi => ?_, fun j _ => hbit j⟩
    rw [hbit, if_neg (by omega)]
    exact Nat.testBit_lt_two_pow (ho.trans_le (Nat.pow_le_pow_right (by decide) hi))

/-! ## The forms -/

section
variable {h : Hd} {s : State} {g : Gang}

/-- R88: a shift writes what its operation makes of the source and of the count. -/
theorem shift_result {i : Instr} {o : Int3} {op : Dword → Nat → Dword} {val : Fibre → Dword} (hc : CanIssue i .none s g)
    (hh : hdOf i = some h) (hx : exec i s = regOp i h (intShift h o op) s)
    (hval : ∀ f, op (src h g o.t f o.a) (count h g f o.b) = val f) : Result i h s g (tyReg o.t) o.d (fun _ f => val f) :=
  regOp_result (v := fun g f => op (src h g o.t f o.a) (count h g f o.b)) hc hh hx (fun _ _ => rfl)
    (fun f => by rw [← hval]; simp only [count, src_issued])
    (fun f => by rw [← hval, ← hval]; simp only [count, src_past])

/-- R89: a count is written as n32. -/
theorem count_result {i : Instr} {o : Int2} {op : Dword → Dword} {val : Fibre → Dword} (hc : CanIssue i .none s g)
    (hh : hdOf i = some h) (hx : exec i s = regOp i h (intCount h o op) s) (hval : ∀ f, op (src h g o.t f o.a) = val f) :
    Result i h s g 32 o.d (fun _ f => val f) :=
  regOp_result (v := fun g f => op (src h g o.t f o.a)) hc hh hx (fun _ _ => rfl) (fun f => by rw [src_issued, hval])
    (fun f => by rw [← hval, ← hval, src_past])

theorem bfe_result {o : Bits} {val : Fibre → Dword} (hc : CanIssue (.bfe h o) .none s g)
    (hval : ∀ f, bfeVal o.t (src h g o.t f o.a) (count h g f o.b) o.len = val f) :
    Result (.bfe h o) h s g (tyReg o.t) o.d (fun _ f => val f) :=
  regOp_result (v := fun g f => bfeVal o.t (src h g o.t f o.a) (count h g f o.b) o.len) hc rfl
    (show exec (.bfe h o) s = execBfe h o s from rfl) (fun _ _ => rfl) (fun f => by rw [← hval]; simp only [count, src_issued])
    (fun f => by rw [← hval, ← hval]; simp only [count, src_past])

theorem bfi_result {o : Bits} {val : Fibre → Dword} (hc : CanIssue (.bfi h o) .none s g)
    (hval : ∀ f, bfiVal o.t (src h g o.t f o.d) (src h g o.t f o.a) (count h g f o.b) o.len = val f) :
    Result (.bfi h o) h s g (tyReg o.t) o.d (fun _ f => val f) :=
  regOp_result (v := fun g f => bfiVal o.t (src h g o.t f o.d) (src h g o.t f o.a) (count h g f o.b) o.len) hc rfl
    (show exec (.bfi h o) s = execBfi h o s from rfl) (fun _ _ => rfl) (fun f => by rw [← hval]; simp only [count, src_issued])
    (fun f => by rw [← hval, ← hval]; simp only [count, src_past])

end

/-- Settles O3: each operation of the model is the stated one on the low w bits of its sources. -/
theorem shiftsAndBits : Obligations.ShiftsAndBits := by
  refine ⟨⟨?shl, ?shr, ?sar, ?rol, ?ror⟩, ⟨?popc, ?clz, ?ctz, ?brev⟩, ?bfe, ?bfi⟩
  case shl =>
    refine fun h o s g hc => shift_result hc rfl (show _ = execShl h o s from rfl) fun f => ?_
    cases hsat : o.sat with
    | true => exact shlVal_sat ..
    | false => exact shlVal_wrap ..
  case shr => exact fun h o s g hc => shift_result hc rfl (show _ = execShr h o s from rfl) fun f => shrVal_eq ..
  case sar => exact fun h o s g hc => shift_result hc rfl (show _ = execSar h o s from rfl) fun f => sarVal_eq ..
  case rol => exact fun h o s g hc => shift_result hc rfl (show _ = execRol h o s from rfl) fun f => rolVal_eq ..
  case ror => exact fun h o s g hc => shift_result hc rfl (show _ = execRor h o s from rfl) fun f => rorVal_eq ..
  case popc =>
    refine fun h o s g hc => count_result hc rfl (show _ = execPopc h o s from rfl) fun f => ?_
    rw [popcVal, ← bitsOf_low, bitsOf, List.countP_map]
    rfl
  case clz =>
    exact fun h o s g hc => ⟨fun f => leadingZeros (tyBits o.t) (nsrc h g o.t f o.a),
      count_result hc rfl (show _ = execClz h o s from rfl) fun f => by rw [clzVal, ← bitsOf_low]; rfl,
      fun f => leadingZeros_spec (low_lt ..)⟩
  case ctz =>
    exact fun h o s g hc => ⟨fun f => trailingZeros (tyBits o.t) (nsrc h g o.t f o.a),
      count_result hc rfl (show _ = execCtz h o s from rfl) fun f => by rw [ctzVal, ← bitsOf_low]; rfl,
      fun f => trailingZeros_spec ..⟩
  case brev =>
    exact fun h o s g hc => ⟨fun f => reversedBits (tyBits o.t) (nsrc h g o.t f o.a),
      int2_result hc rfl (show _ = execBrev h o s from rfl) fun f => by rw [brevVal, ← bitsOf_low]; rfl,
      fun f => reversedBits_spec ..⟩
  case bfe => exact fun h o s g hc => bfe_result hc fun f => bfeVal_eq ..
  case bfi =>
    exact fun h o s g hc => ⟨fun f =>
        insertedField (tyBits o.t) (nsrc h g o.t f o.d) (nsrc h g o.t f o.a) (count h g f o.b) o.len.val,
      bfi_result hc fun f => bfiVal_eq .., fun f => insertedField_spec (low_lt ..) ..⟩

end Sys2Proof.Machine
end

section
/-! Proof of O4: logic, selection, moves, comparisons, predicates and `lea`. -/

namespace Sys2Proof.Machine

/-! ## Sources of 32 bits -/

theorem icVal_n32_lt (k : Fin 64) : (icVal (rdTy .n32) k).toNat < 2 ^ 32 := by
  have h : icVal (rdTy .n32) k = BitVec.ofNat 64 (BitVec.ofInt 32 (icInt k)).toNat := rfl
  have := (BitVec.ofInt 32 (icInt k)).isLt
  rw [h, BitVec.toNat_ofNat]
  omega

theorem fcVal_n32_lt (k : Fin 16) : (fcVal (rdTy .n32) k).toNat < 2 ^ 32 := by revert k; decide

theorem immVal_n32_lt (e : Ext) : (immVal (rdTy .n32) e).toNat < 2 ^ 32 := by
  have hword : ∀ w : Word, (w.setWidth 64).toNat < 2 ^ 32 := fun w => by
    have := w.isLt
    rw [BitVec.toNat_setWidth]
    omega
  cases e with
  | none => exact (by decide : (0 : Dword).toNat < 2 ^ 32)
  | imm32 w => exact hword w
  | ext64 lo hi => exact hword lo

/-- R60 to R62: what is read as n32 has 32 bits. -/
theorem rd_n32_lt (g : Gang) (e : Ext) (f : Fibre) (o : Opnd) : (rd g e (rdTy .n32) f o).toNat < 2 ^ 32 := by
  cases o with
  | v n =>
    have := (getV f n).isLt
    change ((getV f n).setWidth 64).toNat < 2 ^ 32
    rw [BitVec.toNat_setWidth]
    omega
  | s n =>
    change (getS g n &&& 0xFFFFFFFF).toNat < 2 ^ 32
    rw [BitVec.toNat_and]
    exact Nat.and_lt_two_pow _ (by decide)
  | p k => simp only [rd]; split <;> decide
  | ic k => exact icVal_n32_lt k
  | fc k => exact fcVal_n32_lt k
  | imm => exact immVal_n32_lt e
  | w | t => exact (by decide : (0 : Dword).toNat < 2 ^ 32)

/-- R12: a predicate register reads the same in every type. -/
theorem rd_p (g : Gang) (e : Ext) (r r' : RdFmt) (f : Fibre) (k : Fin 8) : rd g e r f (.p k) = rd g e r' f (.p k) := rfl

/-! ## Legality -/

/-- R59: an operand that must be a predicate register is one. -/
theorem eq_p_of_accepted {u : Use} (h : u.ok = true) (hk : u.kinds = [.p]) : ∃ k, u.o = .p k := by
  rw [Use.ok, hk, Bool.and_eq_true] at h
  obtain ⟨hacc, -⟩ := h
  cases ho : u.o with
  | p k => exact ⟨k, rfl⟩
  | _ => rw [ho] at hacc; cases hacc

/-- R91: `sel` selects by a predicate register. -/
theorem sel_legal {h : Hd} {o : Int4} (hl : legal (.sel h o) = true) : ∃ k, o.c = .p k := by
  have hu := Laws.usesOk_of_legal hl
  refine eq_p_of_accepted (u := rP o.c) (List.all_eq_true.mp hu _ ?_) rfl
  simp [uses]

/-- R94: the types and the shifts of `lea`. -/
theorem lea_legal {h : Hd} {o : Int3} {sc : Fin 8} (hl : legal (.lea h o sc) = true) : (o.t = .i64 ∨ o.t = .n64) ∧ sc.val ≤ 4 := by
  have he := Laws.entryOk_of_legal hl
  simp only [entryOk, Bool.and_eq_true, Bool.or_eq_true, decide_eq_true_eq] at he
  exact ⟨he.1.1, he.2⟩

/-! ## The address of `lea` -/

/-- R94: an offset of 32 bits, extended by its sign or by zeros. -/
def leaOffset (t : Ty) (n : Nat) : Int := if t = .i64 then sgn 32 n else n

theorem signExtend_eq_ofInt {x : Dword} (hx : x.toNat < 2 ^ 32) : (x.setWidth 32).signExtend 64 = BitVec.ofInt 64 (sgn 32 x.toNat) := by
  have h : (x.setWidth 32).toInt = sgn 32 x.toNat := by
    rw [BitVec.toInt_setWidth, sgn, Int.bmod_def]
    split <;> split <;> omega
  rw [BitVec.signExtend, h]

theorem setWidth_eq_self {x : Dword} (hx : x.toNat < 2 ^ 32) : (x.setWidth 32).setWidth 64 = x :=
  BitVec.eq_of_toNat_eq (by simp only [BitVec.toNat_setWidth]; omega)

/-- R94: the sum of base and scaled offset modulo 2^64. -/
theorem lea_sum {t : Ty} (ht : t = .i64 ∨ t = .n64) (a : Dword) {b : Dword} (hb : b.toNat < 2 ^ 32) (sc : Nat) :
    a + ((if tySigned t then (b.setWidth 32).signExtend 64 else (b.setWidth 32).setWidth 64) <<< sc) =
      BitVec.ofInt 64 (a.toNat + leaOffset t b.toNat * 2 ^ sc) := by
  have hext : (if tySigned t then (b.setWidth 32).signExtend 64 else (b.setWidth 32).setWidth 64) =
      BitVec.ofInt 64 (leaOffset t b.toNat) := by
    rcases ht with rfl | rfl
    · exact signExtend_eq_ofInt hb
    · refine (setWidth_eq_self hb).trans ?_
      change b = BitVec.ofInt 64 (b.toNat : Int)
      rw [BitVec.ofInt_natCast, BitVec.ofNat_toNat, BitVec.setWidth_eq]
  have hpow : BitVec.twoPow 64 sc = BitVec.ofInt 64 (2 ^ sc) := by
    refine BitVec.eq_of_toNat_eq ?_
    rw [BitVec.toNat_twoPow, ← natCast_two_pow, BitVec.ofInt_natCast, BitVec.toNat_ofNat]
  rw [hext, BitVec.ofInt_add, BitVec.ofInt_mul, BitVec.ofInt_natCast, BitVec.ofNat_toNat, BitVec.setWidth_eq,
    BitVec.shiftLeft_eq_mul_twoPow, hpow]

/-! ## The forms -/

section
variable {h : Hd} {s : State} {g : Gang}

/-- R86: a bitwise form writes what its operation makes of the patterns. -/
theorem bitwise_result {i : Instr} {o : Int3} {op : Dword → Dword → Dword} (hc : CanIssue i .none s g) (hh : hdOf i = some h)
    (hx : exec i s = regOp i h (int3 h o (bitwise o.t op)) s) : Result i h s g (tyReg o.t) o.d (fun _ f =>
      tyFit o.t false ((op (src h g o.t f o.a) (src h g o.t f o.b)).toNat : Int)) :=
  regOp_result (v := fun g f => tyFit o.t false ((op (src h g o.t f o.a) (src h g o.t f o.b)).toNat : Int)) hc hh hx (fun _ _ => rfl)
    (fun f => by simp only [src_issued]) (fun f => by simp only [src_past])

theorem sel_result {o : Int4} (hc : CanIssue (.sel h o) .none s g) : Result (.sel h o) h s g (tyReg o.t) o.d (fun _ f =>
    tyFit o.t false ((if psrc h g f o.c then src h g o.t f o.a else src h g o.t f o.b).toNat : Int)) := by
  obtain ⟨k, hk⟩ := sel_legal hc.word
  refine regOp_result (v := fun g f => tyFit o.t false ((if psrc h g f o.c then src h g o.t f o.a else src h g o.t f o.b).toNat : Int))
    hc rfl (show exec (.sel h o) s = execSel h o s from rfl) (fun g f => ?_) (fun f => by simp only [psrc, src_issued])
    (fun f => by simp only [psrc, src_past])
  simp only [psrc, src, hk, rd_p g h.ext (rdTy .n32) (rdTy o.t), decide_eq_true_eq]
  rfl

/-- R92: a form that writes one bit, to a predicate register. -/
theorem bit_result {i : Instr} {d : Opnd} {bit : Gang → Fibre → Bool} (hc : CanIssue i .none s g) (hh : hdOf i = some h)
    (hx : exec i s = regOp i h (fun g f => wrP d (bit g f) (.ok f)) s) (hissued : ∀ f, bit (issued i h s g) (past i s g f) = bit g f)
    (hpast : ∀ f, bit g (past i s g f) = bit g f) : Result i h s g 32 d (fun _ f => if bit g f then 1 else 0) :=
  regOp_result (v := fun g f => if bit g f then 1 else 0) hc hh hx (fun _ _ => rfl) (fun f => by simp only [hissued])
    (fun f => by simp only [hpast])

theorem setp_result {o : CmpOps} (hc : CanIssue (.setp h o) .none s g) : Result (.setp h o) h s g 32 o.d (fun _ f =>
    if cmpInt o.cmp (isrc h g o.t f o.a) (isrc h g o.t f o.b) then 1 else 0) :=
  bit_result (bit := fun g f => cmpInt o.cmp (isrc h g o.t f o.a) (isrc h g o.t f o.b)) hc rfl
    (show exec (.setp h o) s = execSetp h o s from rfl) (fun f => by simp only [isrc, src_issued])
    (fun f => by simp only [isrc, src_past])

theorem plog_result {op : Plog} {d a b : Opnd} (hc : CanIssue (.plog h op d a b) .none s g) :
    Result (.plog h op d a b) h s g 32 d (fun _ f => if plogVal op (psrc h g f a) (psrc h g f b) then 1 else 0) :=
  bit_result (bit := fun g f => plogVal op (psrc h g f a) (psrc h g f b)) hc rfl
    (show exec (.plog h op d a b) s = execPlog h op d a b s from rfl) (fun f => by simp only [psrc, src_issued])
    (fun f => by simp only [psrc, src_past])

theorem lea_result {o : Int3} {sc : Fin 8} (hc : CanIssue (.lea h o sc) .none s g) : Result (.lea h o sc) h s g 64 o.d (fun _ f =>
    BitVec.ofInt 64 ((src h g o.t f o.a).toNat + leaOffset o.t (count h g f o.b) * 2 ^ sc.val)) := by
  obtain ⟨ht, -⟩ := lea_legal hc.word
  refine regOp_result (v := fun g f => BitVec.ofInt 64 ((src h g o.t f o.a).toNat + leaOffset o.t (count h g f o.b) * 2 ^ sc.val))
    hc rfl (show exec (.lea h o sc) s = execLea h o sc s from rfl) (fun g f => ?_) (fun f => by simp only [count, src_issued])
    (fun f => by simp only [count, src_past])
  dsimp only
  rw [lea_sum ht _ (rd_n32_lt g h.ext f o.b)]

end

/-- Settles O4: each form works on its sources lane by lane, a predicate source reading alike in every type. -/
theorem logicAndPredicates : Obligations.LogicAndPredicates := by
  refine ⟨⟨?and, ?or, ?xor, ?not, fun h o s g hc => sel_result hc, ?mov⟩, ⟨fun h o s g hc => ?setp, fun h op d a b s g hc => ?plog⟩,
    fun h o sc s g hc => lea_result hc, fun h o sc hsc => ?shift⟩
  case and => exact fun h o s g hc => bitwise_result hc rfl (show _ = execAnd h o s from rfl)
  case or => exact fun h o s g hc => bitwise_result hc rfl (show _ = execOr h o s from rfl)
  case xor => exact fun h o s g hc => bitwise_result hc rfl (show _ = execXor h o s from rfl)
  case not => exact fun h o s g hc => int2_result hc rfl (show _ = execNot h o s from rfl) fun _ => rfl
  case mov => exact fun h o s g hc => int2_result hc rfl (show _ = execMov h o s from rfl) fun _ => rfl
  case setp =>
    refine ⟨_, setp_result hc, fun f => ?_⟩
    refine ⟨?_, ?_, ?_, ?_, ?_, ?_⟩ <;> intro hcmp <;> simp [hcmp, cmpInt]
  case plog =>
    refine ⟨_, plog_result hc, fun f => ?_⟩
    refine ⟨?_, ?_, ?_, ?_, ?_, ?_, ?_, ?_⟩ <;> intro hop <;> subst hop <;>
      cases psrc h g f a <;> cases psrc h g f b <;> decide
  case shift =>
    cases hl : legal (.lea h o sc) with
    | false => rfl
    | true => exact absurd (lea_legal hl).2 (by omega)

end Sys2Proof.Machine
end

section
/-! Proof of O6: what the end of fibres, gangs and crews leaves of memory and of the list of gangs, and `exit`. -/

namespace Sys2Proof.Machine

/-! ## Memory and the gangs that there are -/

/-- Memory, its descriptors and the numbers of the gangs. -/
def rosterOf (s : State) : List Host.Cell × AMap (BitVec 16) × List Nat := (s.mem, s.desc, s.gangs.map (·.1))

theorem keys_adj {β : Type} (k : Nat) (f : β → β) : ∀ m : AMap β, (adj k f m).map (·.1) = m.map (·.1)
  | [] => rfl
  | (j, y) :: m => by
    unfold adj
    split
    · rfl
    · rw [List.map_cons, List.map_cons, keys_adj k f m]

theorem keys_del {β : Type} (k : Nat) : ∀ m : AMap β, (del k m).map (·.1) = (m.map (·.1)).erase k
  | [] => rfl
  | (j, y) :: m => by
    unfold del
    split
    · next hj => subst hj; simp
    · next hj => rw [List.map_cons, List.map_cons, keys_del k m, List.erase_cons_tail (by simpa using hj)]

variable {s : State}

@[simp] theorem rosterOf_updGang (k : Nat) (f : Gang → Gang) : rosterOf (updGang k f s) = rosterOf s := by
  simp only [rosterOf, updGang_mem, updGang_desc, updGang_gangs, keys_adj]

@[simp] theorem rosterOf_updCore (c : Nat) (f : Core → Core) : rosterOf (updCore c f s) = rosterOf s := rfl
@[simp] theorem rosterOf_updCrew (k : Nat) (f : Crew → Crew) : rosterOf (updCrew k f s) = rosterOf s := rfl
@[simp] theorem rosterOf_updCtx (k : Nat) (f : Ctx → Ctx) : rosterOf (updCtx k f s) = rosterOf s := rfl
@[simp] theorem rosterOf_settleSaved (k : Nat) : rosterOf (settleSaved k s) = rosterOf s := rfl

theorem rosterOf_ite {c : Prop} [Decidable c] {a b : State} (ha : rosterOf a = rosterOf s) (hb : rosterOf b = rosterOf s) :
    rosterOf (if c then a else b) = rosterOf s := by
  split
  · exact ha
  · exact hb

/-- What each step of a loop keeps, the loop keeps. -/
theorem rosterOf_foldl {α : Type} {f : State → α → State} (h : ∀ s a, rosterOf (f s a) = rosterOf s) (l : List α) (s : State) :
    rosterOf (l.foldl f s) = rosterOf s :=
  List.foldlRecOn (motive := fun t => rosterOf t = rosterOf s) l f rfl fun t ht a _ => (h t a).trans ht

/-! ## The end of an issue -/

@[simp] theorem rosterOf_perfCount (core ctx code n : Nat) : rosterOf (perfCount core ctx code n s) = rosterOf s := rosterOf_ite rfl rfl

@[simp] theorem rosterOf_escalate (k : Nat) (g : Gang) (recs : List TrapRec) : rosterOf (escalate k g recs s) = rosterOf s :=
  rosterOf_updGang (s := s) k fun g' => { g' with frozen := _, pend := _ }

@[simp] theorem rosterOf_takeTrapRecs (k : Nat) (recs : List TrapRec) : rosterOf (takeTrapRecs k recs s) = rosterOf s := by
  unfold takeTrapRecs
  split
  · rfl
  · split
    · exact rosterOf_updGang ..
    · exact rosterOf_ite rfl (rosterOf_ite (rosterOf_escalate ..) ((rosterOf_perfCount ..).trans (rosterOf_updGang ..)))

@[simp] theorem rosterOf_settle (k : Nat) : rosterOf (settle k s) = rosterOf s := by
  unfold settle
  split
  · rfl
  · exact rosterOf_ite rfl (rosterOf_takeTrapRecs ..)

@[simp] theorem rosterOf_finish (i : Instr) (h : Hd) (k : Nat) (group act : BitVec 64) :
    rosterOf (finish i h k group act s) = rosterOf s := by
  unfold finish
  dsimp only
  rw [rosterOf_settle]
  split
  · split
    · exact rosterOf_updGang ..
    · exact rosterOf_ite ((rosterOf_updGang ..).trans (rosterOf_updGang ..)) (rosterOf_updGang ..)
  · exact rosterOf_updGang ..

/-! ## Gangs and crews that end -/

@[simp] theorem rosterOf_keepGone (k : Nat) (g : Gang) : rosterOf (keepGone k g s) = rosterOf s := rosterOf_ite rfl rfl

@[simp] theorem rosterOf_leaveLatch (k : Nat) (g : Gang) : rosterOf (leaveLatch k g s) = rosterOf s := by
  unfold leaveLatch
  rw [rosterOf_updCore]
  refine rosterOf_foldl (fun s e => rosterOf_foldl (fun s a => ?_) _ _) _ _
  split
  · exact rosterOf_ite rfl (rosterOf_updGang ..)
  · rfl

@[simp] theorem rosterOf_magsHome (core ctx : Nat) : rosterOf (magsHome core ctx s) = rosterOf s := by
  unfold magsHome
  refine rosterOf_ite rfl ?_
  dsimp only
  rw [rosterOf_foldl fun _ _ => rosterOf_updCtx _ _, rosterOf_updCore]

@[simp] theorem rosterOf_crewGone (k : Nat) : rosterOf (crewGone k s) = rosterOf s := by
  unfold crewGone
  split
  · rfl
  · refine rosterOf_ite rfl (rosterOf_ite rfl ?_)
    dsimp only
    split
    · rfl
    · split
      · exact rosterOf_ite (c := _) rfl rfl
      · rfl

@[simp] theorem rosterOf_gangScalar (k : Nat) (d : Opnd) (v : Dword) : rosterOf (gangScalar k d v s) = rosterOf s := by
  unfold gangScalar
  split
  · exact rosterOf_updGang ..
  · rfl

@[simp] theorem rosterOf_wakeColl : rosterOf (wakeColl s) = rosterOf s := by
  refine rosterOf_foldl (fun s g => rosterOf_foldl (fun s w => ?_) _ _) _ _
  split
  · exact (rosterOf_updGang ..).trans (rosterOf_gangScalar ..)
  · rfl

@[simp] theorem rosterOf_dissolve (grp : Nat) : rosterOf (dissolve grp s) = rosterOf s := rosterOf_wakeColl.trans rfl

@[simp] theorem rosterOf_endCrew (k : Nat) : rosterOf (endCrew k s) = rosterOf s :=
  (rosterOf_crewGone k).trans (rosterOf_foldl (fun _ _ => rosterOf_dissolve _) _ s)

/-- R173: a gang without fibres leaves the list of gangs, and memory is as it was. -/
theorem rosterOf_endGang_gone {k : Nat} {g : Gang} (hg : look k s.gangs = some g) (hend : g.fibres.any notEnded = false) :
    rosterOf (endGang k s) = (s.mem, s.desc, (s.gangs.map (·.1)).erase k) := by
  have hdel : ∀ (t : State) (ws : AMap Walk), rosterOf t = rosterOf s →
      rosterOf { t with gangs := del k t.gangs, walks := ws } = (s.mem, s.desc, (s.gangs.map (·.1)).erase k) := by
    intro t ws ht
    simp only [rosterOf, Prod.mk.injEq] at ht
    obtain ⟨hmem, hdesc, hkeys⟩ := ht
    simp only [rosterOf, keys_del, hmem, hdesc, hkeys]
  unfold endGang
  rw [hg]
  dsimp only
  rw [if_neg (by simp [hend])]
  split
  · split
    · rw [rosterOf_endCrew, rosterOf_magsHome, rosterOf_updCrew]
      exact hdel _ _ (by simp)
    · rw [rosterOf_settleSaved, rosterOf_magsHome, rosterOf_updCrew]
      exact hdel _ _ (by simp)
  · rw [rosterOf_magsHome, rosterOf_updCrew]
    exact hdel _ _ (by simp)

/-- R173: while a fibre is left the gang stays. -/
theorem endGang_of_notEnded {k : Nat} {g : Gang} (hg : look k s.gangs = some g) (hlive : g.fibres.any notEnded = true) :
    endGang k s = s := by
  unfold endGang
  rw [hg]
  exact if_pos hlive

/-! ## Fibres that end -/

/-- What of a fibre the end of a frame leaves alone: all but that a parked one runs again. -/
def Unparked (f f' : Fibre) : Prop := f' = { f with life := f'.life } ∧ (f.life ≠ .parked → f' = f) ∧ notEnded f' = notEnded f

theorem Unparked.refl (f : Fibre) : Unparked f f := ⟨rfl, fun _ => rfl, rfl⟩

theorem Unparked.trans {f f' f'' : Fibre} (h : Unparked f f') (h' : Unparked f' f'') : Unparked f f'' := by
  obtain ⟨he, hsame, hend⟩ := h
  obtain ⟨he', hsame', hend'⟩ := h'
  refine ⟨by rw [he', he], fun hl => ?_, hend'.trans hend⟩
  obtain rfl := hsame hl
  exact hsame' hl

/-- A gang whose frames have been popped: its fibres are as they were, or run again. -/
structure Popped (g g' : Gang) : Prop where
  pend : g'.pend = g.pend
  ctx : g'.ctx = g.ctx
  none : g.frames = [] → g' = g
  fibres : ∀ l f, fibreAt g l = some f → ∃ f', fibreAt g' l = some f' ∧ Unparked f f'
  length : g'.fibres.length = g.fibres.length

theorem Popped.refl (g : Gang) : Popped g g := ⟨rfl, rfl, fun _ => rfl, fun _ f hf => ⟨f, hf, .refl f⟩, rfl⟩

theorem Popped.trans {g g' g'' : Gang} (h : Popped g g') (h' : Popped g' g'') : Popped g g'' := by
  refine ⟨h'.pend.trans h.pend, h'.ctx.trans h.ctx, fun hfr => ?_, fun l f hf => ?_, h'.length.trans h.length⟩
  · obtain rfl := h.none hfr
    exact h'.none hfr
  · obtain ⟨f1, hf1, hu1⟩ := h.fibres l f hf
    obtain ⟨f2, hf2, hu2⟩ := h'.fibres l f1 hf1
    exact ⟨f2, hf2, hu1.trans hu2⟩

theorem popFrame_popped (g : Gang) : Popped g (popFrame g) := by
  unfold popFrame
  split
  · exact .refl g
  · next fr frs hfr =>
    refine ⟨rfl, rfl, fun h => absurd (hfr.symm.trans h) (List.cons_ne_nil _ _), fun l f hf => ?_, by simp [onLanes]⟩
    refine ⟨_, fibreAt_onLanes (g := { g with frames := frs, age := fr.age, esc := fr.esc }) hf, ?_⟩
    split_ifs with hl hp
    · exact ⟨rfl, fun hne => absurd hp hne, by simp [notEnded, ended, hp]⟩
    · exact .refl f
    · exact .refl f

theorem popDone_popped : ∀ (n : Nat) (g : Gang), Popped g (popDone n g)
  | 0, g => .refl g
  | n + 1, g => by
    unfold popDone
    split
    · exact .refl g
    · split
      · exact (popFrame_popped g).trans (popDone_popped n _)
      · exact .refl g

/-- R18, R98: the fibres of a mask have ended, and the others are as they were, or run again where a frame has ended with them. -/
theorem endFibres_spec (m : BitVec 64) (g : Gang) : (endFibres m g).ctx = g.ctx ∧ (g.pend = [] → (endFibres m g).pend = []) ∧
    (endFibres m g).fibres.length = g.fibres.length ∧
    ∀ l f, fibreAt g l = some f → ∃ f', fibreAt (endFibres m g) l = some f' ∧ (laneIn m l = true → ended f' = true) ∧
      (laneIn m l = false → Unparked f f' ∧ (g.frames = [] → f' = f)) := by
  have hpop := popDone_popped 4 { onLanes m (fun _ f => if notEnded f then Fibre.gone else f) g with
    pend := g.pend.filter fun r => !laneIn m r.lane }
  change Popped _ (endFibres m g) at hpop
  refine ⟨hpop.ctx, fun hp => by rw [hpop.pend, hp]; rfl, hpop.length.trans (by simp [onLanes]), fun l f hf => ?_⟩
  have hlane := fibreAt_onLanes (m := m) (fn := fun _ f => if notEnded f then Fibre.gone else f) hf
  obtain ⟨f', hf', hu⟩ := hpop.fibres l _ hlane
  refine ⟨f', hf', fun hl => ?_, fun hl => ?_⟩
  · have hend : notEnded f' = false := by
      rw [hu.2.2, if_pos hl]
      cases hne : notEnded f with
      | true => rfl
      | false => exact hne
    simpa [notEnded] using hend
  · rw [if_neg (by simp [hl])] at hu
    refine ⟨hu, fun hfr => ?_⟩
    have hsame := hpop.none hfr
    rw [hsame] at hf'
    rw [if_neg (by simp [hl])] at hlane
    exact (Option.some.inj (hlane.symm.trans hf')).symm

/-! ## `exit` -/

theorem rosterOf_bodyState (i : Instr) (h : Hd) (g : Gang) : rosterOf (bodyState i h s g) = rosterOf s := by
  simp only [bodyState, rosterOf_perfCount, rosterOf_updGang]

theorem any_notEnded_iff {g : Gang} : g.fibres.any notEnded = true ↔ ∃ l f, fibreAt g l = some f ∧ notEnded f = true := by
  rw [List.any_eq_true]
  constructor
  · rintro ⟨f, hf, he⟩
    obtain ⟨l, hl⟩ := List.mem_iff_getElem?.mp hf
    exact ⟨l, f, hl, he⟩
  · rintro ⟨l, f, hl, he⟩
    exact ⟨f, List.mem_of_getElem? hl, he⟩

section
variable {h : Hd} {g : Gang}

/-- R98: the gang as `exit` leaves it, before the tests that end its issue. -/
abbrev exited (h : Hd) (s : State) (g : Gang) : Gang := endFibres (acting h s g) (issued (.exit h) h s g)

/-- R98: the body of `exit` ends the active fibres, and then the gang if no other is left. -/
theorem exec_exit (hc : CanIssue (.exit h) .none s g) : ∃ t, look s.cur.gang t.gangs = some (exited h s g) ∧
    rosterOf t = rosterOf s ∧ t.ctxs = s.ctxs ∧
    exec (.exit h) s = .next (finish (.exit h) h s.cur.gang s.cur.group (acting h s g) (endGang s.cur.gang t)) := by
  have hgo := issue_goes (gate := noGate) (body := fun x => endLanes x.k x.act) hc rfl rfl
  have hl := look_bodyState (.exit h) h hc.gang
  let racqs := fun c : Core => { c with racq := racqWithout s.cur.gang (acting h s g) c.racq }
  refine ⟨updGang s.cur.gang (endFibres (acting h s g)) (updCore (issued (.exit h) h s g).core racqs (bodyState (.exit h) h s g)),
    look_updGang hl, ?_, bodyState_ctxs _ h s g, hgo.trans ?_⟩
  · rw [rosterOf_updGang, rosterOf_updCore, rosterOf_bodyState]
  · dsimp only
    rw [endLanes, hl]

theorem fibreAt_exited {l : Nat} {f' : Fibre} (hf' : fibreAt (exited h s g) l = some f') : ∃ f, fibreAt g l = some f := by
  obtain ⟨-, -, hlen, -⟩ := endFibres_spec (acting h s g) (issued (.exit h) h s g)
  have hlt := (List.getElem?_eq_some_iff.mp hf').1
  rw [hlen, fibres_issued, fibresAfter, List.length_mapIdx] at hlt
  exact ⟨_, List.getElem?_eq_getElem hlt⟩

/-- R98: an active fibre has ended. -/
theorem exited_active {l : Nat} {f : Fibre} (hf : fibreAt g l = some f) (hl : laneIn (acting h s g) l = true) :
    ∃ f', fibreAt (exited h s g) l = some f' ∧ ended f' = true := by
  obtain ⟨-, -, -, hfib⟩ := endFibres_spec (acting h s g) (issued (.exit h) h s g)
  obtain ⟨f', hf', hend, -⟩ := hfib l _ (fibreAt_issued hf)
  exact ⟨f', hf', hend hl⟩

/-- R98: a fibre that is not active keeps its registers, and goes on as it did where no frame has ended with the others. -/
theorem exited_inactive {l : Nat} {f : Fibre} (hf : fibreAt g l = some f) (hl : laneIn (acting h s g) l = false) :
    ∃ f', fibreAt (exited h s g) l = some f' ∧ notEnded f' = notEnded f ∧ f'.v = f.v ∧ f'.bank0 = f.bank0 ∧ f'.bank1 = f.bank1 ∧
      f'.p = f.p ∧ f'.fst = f.fst ∧ f'.key = f.key ∧ f'.ctr = f.ctr ∧ f'.w0 = f.w0 ∧ f'.w1 = f.w1 ∧
      (g.frames = [] → f'.life = f.life) := by
  obtain ⟨-, -, -, hfib⟩ := endFibres_spec (acting h s g) (issued (.exit h) h s g)
  obtain ⟨f', hf', -, hrest⟩ := hfib l _ (fibreAt_issued hf)
  obtain ⟨⟨hsame, -, hend⟩, hnone⟩ := hrest hl
  have hframes : (issued (.exit h) h s g).frames = g.frames := by rw [issued_eq]
  rw [hframes] at hnone
  refine ⟨f', hf', ?_⟩
  generalize hF : (if laneIn s.cur.group l = true then past (.exit h) s g f else f) = F at hsame hend hnone
  have hreg : F = { f with pc := F.pc, li := F.li, defer := F.defer } := by
    rw [← hF]; split <;> rfl
  rw [hreg] at hend hsame
  refine ⟨hend, ?_⟩
  rw [hsame]
  refine ⟨rfl, rfl, rfl, rfl, rfl, rfl, rfl, rfl, rfl, fun hfr => ?_⟩
  change f'.life = f.life
  rw [hnone hfr, hreg]

/-- R173: a fibre is left exactly where one that has not ended is not active. -/
theorem exited_any_iff : (exited h s g).fibres.any notEnded = true ↔
    ∃ l f, fibreAt g l = some f ∧ notEnded f = true ∧ laneIn (acting h s g) l = false := by
  rw [any_notEnded_iff]
  constructor
  · rintro ⟨l, f', hf', hne⟩
    obtain ⟨f, hf⟩ := fibreAt_exited hf'
    cases hl : laneIn (acting h s g) l with
    | true =>
      obtain ⟨f1, hf1, hend⟩ := exited_active hf hl
      obtain rfl := Option.some.inj (hf1.symm.trans hf')
      simp [notEnded, hend] at hne
    | false =>
      obtain ⟨f1, hf1, hkept, -⟩ := exited_inactive hf hl
      obtain rfl := Option.some.inj (hf1.symm.trans hf')
      exact ⟨l, f, hf, hkept.symm.trans hne, hl⟩
  · rintro ⟨l, f, hf, hne, hl⟩
    obtain ⟨f', hf', hkept, -⟩ := exited_inactive hf hl
    exact ⟨l, f', hf', hkept.trans hne⟩

/-- R98: with a fibre left the gang goes on, and its issue ends as any other. -/
theorem exit_stays {t : State} (hc : CanIssue (.exit h) .none s g) (hl : look s.cur.gang t.gangs = some (exited h s g))
    (hctxs : t.ctxs = s.ctxs) : ∃ g', look s.cur.gang (finish (.exit h) h s.cur.gang s.cur.group (acting h s g) t).gangs = some g' ∧
      g'.fibres = (exited h s g).fibres := by
  obtain ⟨hctx, hpend, -, -⟩ := endFibres_spec (acting h s g) (issued (.exit h) h s g)
  have hnb : NoBreaks t (exited h s g) := by
    intro cx hcx
    rw [hctx, issued_eq, hctxs] at hcx
    exact hc.noBreak cx hcx
  have hp : (exited h s g).pend = [] := hpend (by rw [issued_eq]; exact hc.noFault)
  obtain ⟨u, g', hu, hlook, -, hg'⟩ := finish_eq (i := .exit h) (h := h) (group := s.cur.group) (act := acting h s g) hl hp hnb
  exact ⟨g', by rw [hu]; exact hlook, by rw [hg']⟩

end

/-- Settles O6: with a fibre left the gang goes on, the inactive fibres as they were; else the gang leaves the list of gangs, and
whatever ends with it touches neither memory nor another gang's place in the list. -/
theorem exitEndsFibres : Obligations.ExitEndsFibres := by
  intro h s g hc
  obtain ⟨t, hl, hroster, hctxs, hexec⟩ := exec_exit hc
  have hfin := rosterOf_finish (s := endGang s.cur.gang t) (.exit h) h s.cur.gang s.cur.group (acting h s g)
  have hgone := rosterOf_endGang_gone hl
  obtain ⟨hmem, hdesc, hkeys⟩ : t.mem = s.mem ∧ t.desc = s.desc ∧ t.gangs.map (·.1) = s.gangs.map (·.1) := by
    simpa only [rosterOf, Prod.mk.injEq] using hroster
  rw [hmem, hdesc, hkeys] at hgone
  have hkept : (rosterOf (endGang s.cur.gang t)).1 = s.mem ∧ (rosterOf (endGang s.cur.gang t)).2.1 = s.desc := by
    cases hany : (exited h s g).fibres.any notEnded with
    | true => rw [endGang_of_notEnded hl hany]; exact ⟨hmem, hdesc⟩
    | false => rw [hgone hany]; exact ⟨rfl, rfl⟩
  rw [← hfin] at hkept
  refine ⟨_, hexec, hkept.1, hkept.2, fun hleft => ?_, fun hall => ?_⟩
  · rw [endGang_of_notEnded hl (exited_any_iff.mpr hleft)]
    obtain ⟨g', hlook, hfibres⟩ := exit_stays hc hl hctxs
    refine ⟨g', hlook, fun l f hf => ?_⟩
    rw [fibreAt, hfibres]
    cases hlane : laneIn (acting h s g) l with
    | true =>
      obtain ⟨f', hf', hend⟩ := exited_active hf hlane
      exact ⟨f', hf', fun _ => hend, nofun⟩
    | false =>
      obtain ⟨f', hf', -, hkeep⟩ := exited_inactive hf hlane
      exact ⟨f', hf', nofun, fun _ => hkeep⟩
  · have hnone : (exited h s g).fibres.any notEnded = false := by
      refine Bool.eq_false_iff.mpr fun hany => ?_
      obtain ⟨l, f, hf, hne, hlane⟩ := exited_any_iff.mp hany
      rw [hall l f hf hne] at hlane
      cases hlane
    rw [hgone hnone] at hfin
    exact (congrArg (fun r => r.2.2) hfin :)

end Sys2Proof.Machine
end

section
/-! Proofs of O16 and O17, first part: the checks of accesses at issue, and the accesses of the acting lanes. -/

namespace Sys2Proof.Machine

/-! ## Checks -/

/-- Two gangs, in two states, for which the checks of R106 and R107 see the same. -/
structure ChecksAlike (s t : State) (g g' : Gang) : Prop where
  core : g'.core = g.core
  ctx : g'.ctx = g.ctx
  ltag : g'.ltag = g.ltag
  crew : g'.crew = g.crew
  pb : g'.pb = g.pb
  width : g'.width = g.width
  walkFaults : g'.walkFaults = g.walkFaults
  tlb : (coreOf t g.core).tlb = (coreOf s g.core).tlb
  ctlb : t.ctlb = s.ctlb
  crews : t.crews = s.crews
  ctxs : t.ctxs = s.ctxs

section
variable {s t : State} {g g' : Gang}

theorem translate_alike (h : ChecksAlike s t g g') (n : Need) (va : Nat) : translate t g' n va = translate s g n va := by
  simp only [translate, tlbOf, h.core, h.ctx, h.walkFaults, h.tlb, h.ctlb]

theorem chkPieces_alike (h : ChecksAlike s t g g') (n : Need) : ∀ ps, chkPieces t g' n ps = chkPieces s g n ps
  | [] => rfl
  | p :: ps => by simp only [chkPieces, translate_alike h, chkPieces_alike h n ps]

theorem privPieces_alike (h : ChecksAlike s t g g') (a : Acc) : privPieces g' a = privPieces g a := by
  simp only [privPieces, privVa, h.pb, h.width]

theorem gangLaunch_alike (h : ChecksAlike s t g g') : gangLaunch t g' = gangLaunch s g := by
  simp only [gangLaunch, launchOf, h.ctx, h.ltag, h.ctxs]

theorem scratchBase_alike (h : ChecksAlike s t g g') : scratchBase t g' = scratchBase s g := by
  simp only [scratchBase, crewOf, h.crew, h.crews]

/-- R106, R107: a check depends on translations, on the crew's region and on the launch alone. -/
theorem check_alike (h : ChecksAlike s t g g') (space : Space) (need : Need) (a : Acc) :
    check t g' space need a = check s g space need a := by
  simp only [check, privSize, scratchSize, gangLaunch_alike h, scratchBase_alike h, crewOf, h.crew, h.crews, chkPieces_alike h,
    privPieces_alike h]
  rfl

end

/-- The accounts of an issue change no check. -/
theorem checksAlike_issued (i : Instr) (h : Hd) (s : State) (g : Gang) : ChecksAlike s s g (issued i h s g) := by
  rw [issued_eq]
  exact ⟨rfl, rfl, rfl, rfl, rfl, rfl, rfl, rfl, rfl, rfl, rfl⟩

theorem checksAlike_bodyState (i : Instr) (h : Hd) (s : State) (g : Gang) :
    ChecksAlike s (bodyState i h s g) g (issued i h s g) := by
  have hsame := bodyState_sameBut i h s g
  have hi := checksAlike_issued i h s g
  exact ⟨hi.core, hi.ctx, hi.ltag, hi.crew, hi.pb, hi.width, hi.walkFaults, by rw [hsame.cores], by rw [hsame.rest],
    by rw [hsame.rest], by rw [hsame.rest]⟩

/-! ## Accesses that pass -/

section
variable {s : State} {g : Gang} {space : Space} {need : Need} {as : List Acc}

theorem check_eq_ok (hp : AllPass s g space need as) {a : Acc} (ha : a ∈ as) :
    check s g space need a = .ok (keysOf s g space need a) := by
  obtain ⟨ks, hks⟩ := hp a ha
  rw [keysOf, hks]

theorem split_eq_partsOf (hp : AllPass s g space need as) : split s g space need as = partsOf s g space need as := by
  unfold split partsOf
  induction as with
  | nil => rfl
  | cons a as ih =>
    have htail : AllPass s g space need as := fun b hb => hp b (List.mem_cons_of_mem a hb)
    rw [List.filterMap_cons_some (b := ⟨a.lane, keysOf s g space need a⟩) (by rw [check_eq_ok hp List.mem_cons_self]), ih htail,
      List.map_cons]

theorem passing_eq_self (hp : AllPass s g space need as) : passing s g space need as = as :=
  List.filter_eq_self.mpr fun a ha => by rw [check_eq_ok hp ha]

theorem missing_eq_nil (hp : AllPass s g space need as) : missing s g space need as = [] :=
  List.flatMap_eq_nil_iff.mpr fun a ha => by rw [check_eq_ok hp ha]

theorem faultsOf_eq_nil {x : Iss} (hp : AllPass s x.g space need as) : faultsOf s x space need as = [] :=
  List.filterMap_eq_nil_iff.mpr fun a ha => by rw [check_eq_ok hp ha]

/-- R269: with its translations at hand an instruction waits for no walk. -/
theorem walkGate_none {accs : Iss → List Acc} {x : Iss} (hp : AllPass s x.g space need (accs x)) :
    walkGate space need accs x s = none := by
  rw [walkGate, missing_eq_nil hp]
  rfl

theorem AllPass.alike {t : State} {g' : Gang} (h : ChecksAlike s t g g') (hp : AllPass s g space need as) :
    AllPass t g' space need as := fun a ha => by
  rw [check_alike h]
  exact hp a ha

theorem partsOf_alike {t : State} {g' : Gang} (h : ChecksAlike s t g g') : partsOf t g' space need as = partsOf s g space need as := by
  simp only [partsOf, keysOf, check_alike h]

theorem lanes_partsOf : (partsOf s g space need as).map (·.lane) = as.map (·.lane) := by
  rw [partsOf, List.map_map]; rfl

theorem onLanes_recMask_nil (fn : Nat → Fibre → Fibre) (g : Gang) : onLanes (recMask []) fn g = g := by
  have hfib : (g.fibres.mapIdx fun l f => if laneIn (recMask []) l then fn l f else f) = g.fibres :=
    List.ext_getElem? fun n => by simp [recMask, maskOf, laneIn]
  rw [onLanes, hfib]

theorem adj_of_id {β : Type} {k : Nat} {fn : β → β} (hfn : ∀ x, fn x = x) : ∀ m : AMap β, adj k fn m = m
  | [] => rfl
  | (j, y) :: m => by rw [adj, hfn, adj_of_id hfn m, ite_self]

/-- R106: with no fault found none is recorded. -/
theorem raiseFaults_nil (x : Iss) (s : State) : raiseFaults x [] s = s := by
  rw [raiseFaults, updGang, adj_of_id fun g => by simp only [onLanes_recMask_nil, List.append_nil]]

end

/-! ## The accesses of the acting lanes -/

section
variable {i : Instr} {h : Hd} {s : State} {g : Gang}

/-- R14: every active lane has a fibre. -/
theorem fibreAt_of_acting {l : Nat} (ha : laneIn (acting h s g) l = true) : ∃ f, fibreAt g l = some f := by
  have hw : laneIn (lanesWhere (guardOn h) g) l = true := by
    simp only [acting, activeOf, laneIn, BitVec.getLsbD_and, Bool.and_eq_true] at ha
    exact ha.2
  rw [lanesWhere, laneIn_maskOf, List.mem_filter, List.mem_range] at hw
  exact ⟨_, List.getElem?_eq_getElem hw.2.1⟩

theorem acting_lt {l : Nat} (ha : laneIn (acting h s g) l = true) : l < 64 := BitVec.lt_of_getLsbD ha

theorem fibreAt_issued_acting {l : Nat} {f : Fibre} (ha : laneIn (acting h s g) l = true) (hf : fibreAt g l = some f) :
    fibreAt (issued i h s g) l = some (past i s g f) := by
  rw [fibreAt_issued hf, if_pos (laneIn_group_of_acting ha)]

/-- What each acting lane makes of its fibre is made of the fibre before the accounts, where these do not count. -/
theorem filterMap_issued {β : Type} {v v' : Nat → Fibre → β} (hv : ∀ l f, v l (past i s g f) = v' l f) :
    ((lanesOf (acting h s g)).filterMap fun l => (fibreAt (issued i h s g) l).map (v l)) =
      (lanesOf (acting h s g)).filterMap fun l => (fibreAt g l).map (v' l) := by
  refine List.filterMap_congr fun l hl => ?_
  have ha := mem_lanesOf.mp hl
  obtain ⟨f, hf⟩ := fibreAt_of_acting ha
  rw [fibreAt_issued_acting ha hf, hf, Option.map_some, Option.map_some, hv]

theorem laneAccs_issued {ea ea' : Fibre → Dword} (n al : Nat) (he : ∀ f, ea (past i s g f) = ea' f) :
    laneAccs (bodyIss i h s g) ea n al = laneAccs (theIss h s g) ea' n al :=
  filterMap_issued (v := fun l f => (⟨l, ea f, n, al⟩ : Acc)) (v' := fun l f => ⟨l, ea' f, n, al⟩) fun l f => by rw [he]

/-- Each acting lane with what it makes of its fibre. -/
theorem mem_filterMap_acting {β : Type} {v : Nat → Fibre → β} {b : β} :
    b ∈ ((lanesOf (acting h s g)).filterMap fun l => (fibreAt g l).map (v l)) ↔
      ∃ l f, laneIn (acting h s g) l = true ∧ fibreAt g l = some f ∧ v l f = b := by
  simp only [List.mem_filterMap, mem_lanesOf, Option.map_eq_some_iff]
  constructor
  · rintro ⟨l, ha, f, hf, rfl⟩
    exact ⟨l, f, ha, hf, rfl⟩
  · rintro ⟨l, f, ha, hf, rfl⟩
    exact ⟨l, ha, f, hf, rfl⟩

theorem map_filterMap_acting {β : Type} {v : Nat → Fibre → β} {lane : β → Nat} (hl : ∀ l f, lane (v l f) = l) :
    (((lanesOf (acting h s g)).filterMap fun l => (fibreAt g l).map (v l)).map lane) = lanesOf (acting h s g) := by
  rw [List.map_filterMap]
  refine (List.filterMap_congr fun l hm => ?_).trans List.filterMap_some
  obtain ⟨f, hf⟩ := fibreAt_of_acting (mem_lanesOf.mp hm)
  rw [hf, Option.map_some, Option.map_some, hl]

theorem lanes_laneAccs (ea : Fibre → Dword) (n al : Nat) : (laneAccs (theIss h s g) ea n al).map (·.lane) = lanesOf (acting h s g) :=
  map_filterMap_acting fun _ _ => rfl

theorem mem_laneAccs {ea : Fibre → Dword} {n al : Nat} {a : Acc} : a ∈ laneAccs (theIss h s g) ea n al ↔
    ∃ l f, laneIn (acting h s g) l = true ∧ fibreAt g l = some f ∧ ⟨l, ea f, n, al⟩ = a := mem_filterMap_acting

/-- R106: the parts of an access: each acting lane with the bytes at its address. -/
theorem mem_parts {space : Space} {need : Need} {ea : Fibre → Dword} {n al : Nat} {p : Part} :
    p ∈ partsOf s g space need (laneAccs (theIss h s g) ea n al) ↔ ∃ l f, laneIn (acting h s g) l = true ∧ fibreAt g l = some f ∧
      p = ⟨l, keysOf s g space need ⟨l, ea f, n, al⟩⟩ := by
  simp only [partsOf, List.mem_map, mem_laneAccs]
  constructor
  · rintro ⟨a, ⟨l, f, ha, hf, rfl⟩, rfl⟩
    exact ⟨l, f, ha, hf, rfl⟩
  · rintro ⟨l, f, ha, hf, rfl⟩
    exact ⟨_, ⟨l, f, ha, hf, rfl⟩, rfl⟩

theorem lanes_parts (space : Space) (need : Need) (ea : Fibre → Dword) (n al : Nat) :
    (partsOf s g space need (laneAccs (theIss h s g) ea n al)).map (·.lane) = lanesOf (acting h s g) :=
  lanes_partsOf.trans (lanes_laneAccs ea n al)

/-- R106: an address is the same before and after the accounts of the issue. -/
theorem rdOff_past (e : Ext) (f : Fibre) (o : Opnd) : rdOff (issued i h s g) e (past i s g f) o = rdOff g e f o := by
  cases o with
  | v n => rfl
  | _ => simp only [rdOff, rd_past i s g (issued i h s g) e (rdTy .i64) f _ (issued_s i h s g)]

theorem rdAddr_issued (e : Ext) (f : Fibre) (a b : Opnd) : rdAddr (issued i h s g) e (past i s g f) a b = rdAddr g e f a b := by
  rw [rdAddr, rdAddr, rd_past i s g _ e (rdTy .n64) f a (issued_s i h s g), rdOff_past]

theorem rdAddr_past (e : Ext) (f : Fibre) (a b : Opnd) : rdAddr g e (past i s g f) a b = rdAddr g e f a b := by
  have hoff : rdOff g e (past i s g f) b = rdOff g e f b := by
    cases b with
    | v n => rfl
    | _ => simp only [rdOff, rd_past']
  rw [rdAddr, rdAddr, rd_past', hoff]

theorem memAccs_issued (o : Mem) : memAccs o (bodyIss i h s g) = memAccs o (theIss h s g) :=
  laneAccs_issued _ _ fun f => rdAddr_issued h.ext f o.a o.b

theorem wideAccs_issued (o : WMem) : wideAccs o (bodyIss i h s g) = wideAccs o (theIss h s g) :=
  laneAccs_issued _ _ fun f => rdAddr_issued h.ext f o.a o.b

theorem byteAccs_issued (a b : Opnd) : byteAccs a b (bodyIss i h s g) = byteAccs a b (theIss h s g) :=
  laneAccs_issued _ _ fun f => rdAddr_issued h.ext f a b

theorem atomAccs_issued (o : Atom) : atomAccs o (bodyIss i h s g) = atomAccs o (theIss h s g) :=
  laneAccs_issued _ _ fun f => rd_past i s g _ h.ext (rdTy .n64) f o.a (issued_s i h s g)

/-- R293: what a release waits for has been done by the fibres that do not fault. -/
theorem relOf_none {str : Strength} {sc : Scope} {space : Space} {need : Need} {accs : Iss → List Acc}
    (hs : space ≠ .peer) (hp : AllPass s g space need (accs (theIss h s g)))
    (hl : (accs (theIss h s g)).map (·.lane) = lanesOf (acting h s g)) (hr : str = .sync → Released h s g sc) :
    relOf str sc space need accs (theIss h s g) s = none := by
  unfold relOf
  split
  · next hsync =>
    have hgood : goodLanes s (theIss h s g) space need (accs (theIss h s g)) = acting h s g := by
      unfold goodLanes
      dsimp only
      rw [List.filter_eq_self.mpr, hl, maskOf_lanesOf]
      intro a ha
      have hok : check s (theIss h s g).g space need a = _ := check_eq_ok hp ha
      rw [hok]
      simp [hs]
    rw [relGate, hgood]
    dsimp only
    rcases hr hsync with hidle | ⟨huo, hdone⟩
    · rw [if_pos hidle]
    · split_ifs with hidle hmerge
      · rfl
      · exact absurd (huo hmerge.1) hmerge.2
      · rfl
      · next hnot => exact absurd hdone hnot
  · rfl

end

end Sys2Proof.Machine
end

section
/-! Proofs of O16 and O17, second part: what the operations of a memory instruction leave alone. -/

namespace Sys2Proof.Machine

/-! ## One step of a memory instruction -/

/-- What a part of a memory instruction of a core leaves alone, said so that parts can be put one after another: besides the frame, the
place of the core's sample ring and the canonical form of memory. -/
structure MemStep (k core : Nat) (s t : State) : Prop where
  frame : MemFrame k core s t
  ring : (coreOf t core).perf.ring = (coreOf s core).perf.ring
  size : (coreOf t core).perf.size = (coreOf s core).perf.size
  wf : wf 0 s.mem = true → wf 0 t.mem = true

/-- And does not change the scratchpad. -/
structure MemQuiet (k core : Nat) (s t : State) : Prop extends MemStep k core s t where
  spad : SpadSame core s t

section
variable {k core : Nat} {s t u : State}

theorem MemStep.refl (k core : Nat) (s : State) : MemStep k core s s :=
  ⟨⟨fun _ _ => rfl, fun _ _ => rfl, rfl, ⟨rfl, rfl⟩, fun _ _ _ => rfl, rfl⟩, rfl, rfl, id⟩

theorem MemStep.trans (h : MemStep k core s t) (h' : MemStep k core t u) : MemStep k core s u := by
  refine ⟨⟨fun j hj => (h'.frame.gangs j hj).trans (h.frame.gangs j hj), fun c hc => (h'.frame.cores c hc).trans (h.frame.cores c hc), ?_,
    ⟨h'.frame.notes.1.trans h.frame.notes.1, h'.frame.notes.2.trans h.frame.notes.2⟩, fun hwf a ha => ?_, ?_⟩,
    h'.ring.trans h.ring, h'.size.trans h.size, fun hwf => h'.wf (h.wf hwf)⟩
  · have h1 := h.frame.own
    have h2 := h'.frame.own
    dsimp only at h1 h2 ⊢
    rw [h2, h1]
  · refine (h'.frame.mem (h.wf hwf) a ?_).trans (h.frame.mem hwf a ha)
    rwa [inRing, h.ring, h.size]
  · rw [h'.frame.rest, h.frame.rest]

theorem MemQuiet.refl (k core : Nat) (s : State) : MemQuiet k core s s := ⟨.refl k core s, rfl, rfl, rfl⟩

theorem MemQuiet.trans (h : MemQuiet k core s t) (h' : MemQuiet k core t u) : MemQuiet k core s u := by
  obtain ⟨hs, hd, hl⟩ := h.spad
  obtain ⟨hs', hd', hl'⟩ := h'.spad
  exact ⟨h.toMemStep.trans h'.toMemStep, hs'.trans hs, hd'.trans hd, hl'.trans hl⟩

/-- What each step of a loop leaves alone, the loop leaves alone. -/
theorem MemQuiet.foldl {α : Type} {fn : State → α → State} (hfn : ∀ s a, MemQuiet k core s (fn s a)) (l : List α) (s : State) :
    MemQuiet k core s (l.foldl fn s) :=
  List.foldlRecOn (motive := MemQuiet k core s) l fn (.refl k core s) fun t ht a _ => ht.trans (hfn t a)

theorem MemStep.foldl {α : Type} {fn : State → α → State} (hfn : ∀ s a, MemStep k core s (fn s a)) (l : List α) (s : State) :
    MemStep k core s (l.foldl fn s) :=
  List.foldlRecOn (motive := MemStep k core s) l fn (.refl k core s) fun t ht a _ => ht.trans (hfn t a)

/-- Tables that no core holds: gangs beside the issuing one, requests, operations, remote copies and the model's own counters. -/
theorem MemQuiet.of_tables (hcores : t.cores = s.cores) (hmem : t.mem = s.mem) (hgroups : t.groups = s.groups)
    (hgangs : ∀ j, j ≠ k → look j t.gangs = look j s.gangs)
    (hrest : t = { s with mem := t.mem, gangs := t.gangs, cores := t.cores, reqs := t.reqs, ops := t.ops, peers := t.peers
                          rdc := t.rdc, rdcDesc := t.rdcDesc, groups := t.groups, nextId := t.nextId, fresh := t.fresh }) :
    MemQuiet k core s t := by
  have hcore : ∀ c, coreOf t c = coreOf s c := fun c => by rw [coreOf, hcores]; rfl
  refine ⟨⟨⟨hgangs, fun c _ => hcore c, by rw [hcore], ⟨by rw [hcore], by rw [hgroups]⟩, fun _ a _ => by rw [memByte, hmem]; rfl, hrest⟩,
    by rw [hcore], by rw [hcore], fun h => by rw [hmem]; exact h⟩, ?_⟩
  exact ⟨by rw [hcore], by rw [hcore], by rw [hcore]⟩

theorem updGang_memQuiet (k core : Nat) (fn : Gang → Gang) (s : State) : MemQuiet k core s (updGang k fn s) :=
  .of_tables rfl rfl rfl (fun _ hj => look_adj_other hj) rfl

/-- A change of the core's L1, of its update-only lines and of its counters. -/
theorem updCore_memQuiet (k core : Nat) {fn : Core → Core} (s : State)
    (hfn : fn (coreOf s core) = { coreOf s core with
      perf := (fn (coreOf s core)).perf, l1 := (fn (coreOf s core)).l1, l1Desc := (fn (coreOf s core)).l1Desc
      uo := (fn (coreOf s core)).uo })
    (hring : (fn (coreOf s core)).perf.ring = (coreOf s core).perf.ring) (hsize : (fn (coreOf s core)).perf.size = (coreOf s core).perf.size) :
    MemQuiet k core s (updCore core fn s) := by
  have hown : coreOf (updCore core fn s) core = fn (coreOf s core) := coreOf_updCore_same core fn s
  refine ⟨⟨⟨fun _ _ => rfl, fun c hc => coreOf_updCore_other hc fn s, ?_, ⟨?_, rfl⟩, fun _ _ _ => rfl, rfl⟩, ?_, ?_, id⟩, ?_⟩
  · dsimp only
    rw [hown, hfn]
  · rw [hown, hfn]
  · rw [hown, hring]
  · rw [hown, hsize]
  · rw [SpadSame, hown, hfn]
    exact ⟨rfl, rfl, rfl⟩

theorem perfCount_memQuiet (k core ctx code n : Nat) (s : State) : MemQuiet k core s (perfCount core ctx code n s) := by
  unfold perfCount
  split
  · exact .refl k core s
  · exact updCore_memQuiet k core s rfl rfl rfl

theorem pushReq_memQuiet (k op core ctx line : Nat) (act : ReqAct) (s : State) : MemQuiet k core s (pushReq op core ctx line act s) := by
  unfold pushReq freshId
  dsimp only
  refine MemQuiet.trans (t := { s with reqs := s.reqs ++ [⟨s.nextId, op, core, ctx, line, act, .mesh, s.clk, false⟩], nextId := s.nextId + 1 })
    (.of_tables rfl rfl rfl (fun _ _ => rfl) rfl) ?_
  exact perfCount_memQuiet k core ctx 6 1 _

theorem poisonL1_memQuiet (k core : Nat) (hit : Nat → Bool) (s : State) : MemQuiet k core s (poisonL1 core hit s) :=
  .of_tables rfl rfl rfl (fun _ _ => rfl) rfl

theorem discardL1_memQuiet (k core : Nat) (hit : Nat → Bool) (s : State) : MemQuiet k core s (discardL1 core hit s) :=
  (updCore_memQuiet k core s rfl rfl rfl).trans (poisonL1_memQuiet k core hit _)

theorem mergeOne_memQuiet (k core : Nat) (s : State) (u : UoLine) : MemQuiet k core s (mergeOne core s u) :=
  (discardL1_memQuiet k core _ s).trans (pushReq_memQuiet k 0 core u.ctx u.line _ _)

theorem mergeUo_memQuiet (k core : Nat) (hit : Nat → Bool) (s : State) : MemQuiet k core s (mergeUo core hit s) := by
  rw [mergeUo_eq]
  split
  · exact .refl k core s
  · exact MemQuiet.trans (.foldl (mergeOne_memQuiet k core) _ s)
      (updCore_memQuiet k core _ rfl rfl rfl)

theorem discardRdc_memQuiet (k core die : Nat) (hit : Nat → Bool) (s : State) : MemQuiet k core s (discardRdc die hit s) :=
  .of_tables rfl rfl rfl (fun _ _ => rfl) rfl

theorem acquireAt_memQuiet (k core : Nat) (sc : Scope) (s : State) : MemQuiet k core s (acquireAt core sc s) := by
  cases sc with
  | fib | gang | crew => exact .refl k core s
  | clu => exact discardL1_memQuiet k core _ s
  | die | dev | sys => exact (discardL1_memQuiet k core _ s).trans (discardRdc_memQuiet k core _ _ _)

theorem endAcquire_memQuiet {o : MemOp} (k : Nat) (s : State) : MemQuiet k o.core s (endAcquire o s) := by
  unfold endAcquire
  split
  · exact acquireAt_memQuiet k _ _ s
  · exact .refl k _ s

/-- The state in which the body of an issue runs. -/
theorem bodyState_memQuiet (i : Instr) (h : Hd) (s : State) (g : Gang) : MemQuiet s.cur.gang g.core s (bodyState i h s g) :=
  ((updGang_memQuiet _ _ _ s).trans (perfCount_memQuiet _ _ _ _ _ _)).trans (perfCount_memQuiet _ _ _ _ _ _)

/-! ## Samples -/

/-- R443: counting a memory instruction changes its core's counters alone, and a sample that it takes is of its core. -/
theorem memSample_spec (x : Iss) (code sect hit : Nat) (s : State) :
    (∃ cs, (memSample x code sect hit s).2 = { s with cores := cs }) ∧ MemQuiet k x.g.core s (memSample x code sect hit s).2 ∧
      ∀ p, (memSample x code sect hit s).1 = some p → p.core = x.g.core := by
  unfold memSample
  dsimp only
  split
  · split <;> dsimp only
    · exact ⟨⟨_, rfl⟩, updCore_memQuiet k _ s rfl rfl rfl, nofun⟩
    · refine ⟨⟨_, rfl⟩, updCore_memQuiet k _ s rfl rfl rfl, fun p hp => ?_⟩
      rw [← Option.some.inj hp]
  · exact ⟨⟨_, rfl⟩, .refl k _ s, nofun⟩

theorem length_sampleRec (p : Smp) : (sampleRec p).length = 64 := by
  rw [sampleRec, leBytes, List.length_map, List.length_range]

/-- R443: bytes of memory that stand in the core's ring. -/
theorem setBytes_memQuiet (k : Nat) {core : Nat} {bs : List (Nat × Byte)} (hbs : ∀ x ∈ bs, inRing s core x.1) :
    MemQuiet k core s (setBytes bs s) := by
  rw [setBytes_eq]
  exact ⟨⟨⟨fun _ _ => rfl, fun _ _ => rfl, rfl, ⟨rfl, rfl⟩,
      fun hwf a ha => memByte_setBytes_other bs hwf fun x hx hxa => ha (hxa ▸ hbs x hx), rfl⟩,
    rfl, rfl, fun hwf => wf_setBytes bs hwf⟩, rfl, rfl, rfl⟩

theorem fillRing_memQuiet (k core : Nat) (s : State) :
    MemQuiet k core s (updCore core (fun c => { c with perf := { c.perf with fill := c.perf.fill + 64 } }) s) :=
  updCore_memQuiet k core s rfl rfl rfl

/-- R443, R444: a sample record goes to the core's ring. -/
theorem putSmp_memQuiet {o : Option Smp} (k : Nat) {core : Nat} (ho : ∀ p, o = some p → p.core = core) (s : State) :
    MemQuiet k core s (putSmp o s) := by
  cases o with
  | none => exact .refl k core s
  | some p =>
    obtain rfl := ho p rfl
    unfold putSmp putSample
    dsimp only
    split
    · next hfill =>
      refine MemQuiet.trans (setBytes_memQuiet k fun x hx => ?_) (fillRing_memQuiet k p.core _)
      obtain ⟨i, hi, rfl⟩ := List.mem_iff_getElem.mp hx
      rw [List.length_mapIdx, length_sampleRec] at hi
      rw [List.getElem_mapIdx, inRing]
      dsimp only
      omega
    · exact perfCount_memQuiet k p.core _ _ _ s

/-! ## The scratchpad -/

theorem touch_plain (spad : Bool) (as : List Nat) (r : CopyReq) : (r.touch spad as).plain = r.plain := by
  unfold CopyReq.touch
  split <;> rfl

theorem groupTouch_plain (core : Nat) (as : List Nat) (g : Group) : (g.touch core as).plain = g.plain := by
  unfold Group.touch Group.plain
  rw [List.map_map]
  refine congrArg (fun rs => { g with reqs := rs }) (List.map_congr_left fun r _ => ?_)
  dsimp only [Function.comp]
  split <;> rfl

/-- R327: a core after bytes of its scratchpad have been stored. -/
def withSpad (bs : List (Nat × Byte)) (c : Core) : Core :=
  { c with spad := bs.foldl (fun m x => put 0 x.1 x.2 m) c.spad, spadLog := c.spadLog ++ [⟨bs, []⟩]
           copies := c.copies.map (CopyReq.touch true (bs.map (·.1))) }

theorem setSpad_eq (core : Nat) (bs : List (Nat × Byte)) (s : State) : setSpad core bs s =
    { updCore core (withSpad bs) s with groups := s.groups.map fun g => (g.1, g.2.touch core (bs.map (·.1))) } := rfl

theorem coreOf_setSpad (core : Nat) (bs : List (Nat × Byte)) (s : State) :
    coreOf (setSpad core bs s) core = withSpad bs (coreOf s core) := coreOf_updCore_same core (withSpad bs) s

/-- R327, R380: a store to the scratchpad is noted by copies and requests under way. -/
theorem setSpad_memStep (k core : Nat) (bs : List (Nat × Byte)) (s : State) : MemStep k core s (setSpad core bs s) := by
  have hother : ∀ c, c ≠ core → coreOf (setSpad core bs s) c = coreOf s c := fun c hc => coreOf_updCore_other hc (withSpad bs) s
  refine ⟨⟨fun _ _ => rfl, hother, ?_, ⟨?_, ?_⟩, fun _ _ _ => rfl, rfl⟩, ?_, ?_, id⟩
  · rw [coreOf_setSpad]; rfl
  · rw [coreOf_setSpad, withSpad, List.map_map]
    exact List.map_congr_left fun r _ => touch_plain true _ r
  · rw [setSpad_eq, List.map_map]
    exact List.map_congr_left fun q _ => Prod.ext rfl (groupTouch_plain core _ q.2)
  · rw [coreOf_setSpad]; rfl
  · rw [coreOf_setSpad]; rfl

/-- A core after a descriptor of its scratchpad has been written. -/
def withSpadDesc (sector : Nat) (d : BitVec 16) (c : Core) : Core :=
  { c with spadDesc := put resetDesc sector d c.spadDesc, spadLog := c.spadLog ++ [⟨[], [(sector, d)]⟩] }

theorem coreOf_setSpadDesc (core sector : Nat) (d : BitVec 16) (s : State) :
    coreOf (setSpadDesc core sector d s) core = withSpadDesc sector d (coreOf s core) :=
  coreOf_updCore_same core (withSpadDesc sector d) s

theorem setSpadDesc_memStep (k core sector : Nat) (d : BitVec 16) (s : State) : MemStep k core s (setSpadDesc core sector d s) := by
  have hother : ∀ c, c ≠ core → coreOf (setSpadDesc core sector d s) c = coreOf s c := fun c hc =>
    coreOf_updCore_other hc (withSpadDesc sector d) s
  refine ⟨⟨fun _ _ => rfl, hother, ?_, ⟨?_, rfl⟩, fun _ _ _ => rfl, rfl⟩, ?_, ?_, id⟩
  · rw [coreOf_setSpadDesc]; rfl
  · rw [coreOf_setSpadDesc]; rfl
  · rw [coreOf_setSpadDesc]; rfl
  · rw [coreOf_setSpadDesc]; rfl

end

end Sys2Proof.Machine
end

section
/-! Proofs of O16 and O17, third part: the end of a memory instruction's issue, and the start and the end of its operation. -/

namespace Sys2Proof.Machine

/-! ## The end of an issue -/

/-- R6, R383: an instruction that issues past its gate, and whose body leaves its gang as `G` with the accounts, completes. -/
theorem didWith_of_body {i : Instr} {h : Hd} {c : CtrKind} {s s2 : State} {g G : Gang} {gate : Iss → State → Option State}
    {body : Iss → State → State} {upd : Nat → Fibre → Fibre} {P : State → Prop} (hc : CanIssue i c s g) (hh : hdOf i = some h)
    (hx : exec i s = issue i h c gate body s) (hgate : gate (theIss h s g) s = none)
    (hbody : body (bodyIss i h s g) (bodyState i h s g) = s2)
    (hl : look s.cur.gang s2.gangs = some { withAccounts i h s g G with fibres := fibresAfter i h s g upd })
    (hctx : G.ctx = g.ctx) (hpend : G.pend = []) (hctxs : s2.ctxs = s.ctxs) (hP : ∀ fn, P (updGang s.cur.gang fn s2)) :
    DidWith i h s g upd G P := by
  have hnb : NoBreaks s2 { withAccounts i h s g G with fibres := fibresAfter i h s g upd } := by
    intro cx hcx
    rw [withAccounts, hctx, hctxs] at hcx
    exact hc.noBreak cx hcx
  obtain ⟨g', he, hf⟩ := finish_of_noBreaks i h s.cur.group (acting h s g) hl hnb
  have hgo := issue_goes (body := body) hc hh hgate
  have hl' : look s.cur.gang (updGang s.cur.gang (fun _ => g') s2).gangs = some g' := look_updGang hl
  have hp' : g'.pend = [] := by rw [he]; exact hpend
  rw [settle_of_noPend hl' hp'] at hf
  refine ⟨_, g', by rw [hx, hgo, ← hf, ← hbody], hl', ?_, hP _⟩
  unfold EndsAs at he
  unfold gangAfter
  rw [he, withAccounts]

/-! ## The start of an operation -/

/-- R111: the gang when an operation of its own starts. -/
def opStarted (o : MemOp) (hold : Bool) (g : Gang) : Gang :=
  { (match o.ctr with
      | .ld => { g with ldcnt := g.ldcnt + 1 }
      | .st => { g with stcnt := g.stcnt + 1 }
      | .none => g) with holdOps := if hold then o.id :: g.holdOps else g.holdOps }

/-- The state in which an operation has started. -/
def opBegun (o : MemOp) (hold : Bool) (s : State) : State := { updGang o.gang (opStarted o hold) s with ops := ins o.id o s.ops }

theorem startOp_eq (o : MemOp) (hold : Bool) (s : State) : startOp o hold s = finishOp o.id (opBegun o hold s) := by
  refine congrArg (fun fn => finishOp o.id { updGang o.gang fn s with ops := ins o.id o s.ops }) (funext fun g => ?_)
  unfold opStarted
  cases o.ctr <;> rfl

section
variable {x : Iss} {code sect hit : Nat} {o : MemOp} {hold : Bool} {s : State} {g : Gang}

/-- R111: an operation that awaits answers stays in the table, and its gang's count has risen. -/
theorem startOp_waits (hg : look o.gang s.gangs = some g) (hleft : o.left ≠ 0) :
    let t := startOp o hold s
    look o.gang t.gangs = some (opStarted o hold g) ∧ look o.id t.ops = some o ∧ t.reqs = s.reqs ∧ MemQuiet o.gang o.core s t := by
  have hstay : startOp o hold s = opBegun o hold s := by
    rw [startOp_eq, finishOp, opBegun, look_ins_same]
    exact if_pos (.inl hleft)
  rw [hstay]
  exact ⟨look_updGang hg, look_ins_same .., rfl, .of_tables rfl rfl rfl (fun _ hj => look_adj_other hj) rfl⟩

/-- R443: the same of an instruction that may be sampled. -/
theorem startSampled_waits (hg : look o.gang s.gangs = some g) (hcore : x.g.core = o.core) (hleft : o.left ≠ 0) :
    let t := startSampled x code sect hit o hold s
    look o.gang t.gangs = some (opStarted o hold g) ∧ (∃ p, look o.id t.ops = some { o with smp := p }) ∧ t.reqs = s.reqs ∧
      MemQuiet o.gang o.core s t := by
  obtain ⟨⟨cs, hsmp⟩, hquiet, -⟩ := memSample_spec (k := o.gang) x code sect hit s
  rw [hcore] at hquiet
  unfold startSampled
  dsimp only
  generalize memSample x code sect hit s = r at hsmp hquiet
  have hgt : look o.gang r.2.gangs = some g := by rw [hsmp]; exact hg
  obtain ⟨hgang, hop, hreqs, hstart⟩ := startOp_waits (o := { o with smp := r.1 }) (hold := hold) hgt hleft
  exact ⟨hgang, ⟨_, hop⟩, hreqs.trans (by rw [hsmp]), hquiet.trans hstart⟩

/-- R21, R109: the results of an operation, landing in a gang with the fibres and scalar registers of `g`, make them these. -/
def Lands (o : MemOp) (g : Gang) (F : List Fibre) (S : AMap Dword) : Prop :=
  ∀ g', g'.fibres = g.fibres → g'.s = g.s → landOp o g' = { g' with fibres := F, s := S }

theorem opEnded_opStarted {F : List Fibre} {S : AMap Dword} (hfree : g.holdOps = []) (hland : Lands o g F S) :
    opEnded o.id o (opStarted o hold g) = { g with fibres := F, s := S } := by
  have hl : landOp o (opStarted o hold g) = { opStarted o hold g with fibres := F, s := S } :=
    hland (opStarted o hold g) (by unfold opStarted; cases o.ctr <;> rfl) (by unfold opStarted; cases o.ctr <;> rfl)
  have hhold : (opStarted o hold g).holdOps.filter (· ≠ o.id) = g.holdOps := by
    unfold opStarted
    rw [hfree]
    cases hold <;> simp
  unfold opEnded
  rw [hl, hhold]
  unfold opStarted
  cases hctr : o.ctr <;> rfl

/-- R447: an operation of a launch without a replay log, or with no values to log, logs nothing. -/
theorem logOp_eq_self {t : State} (hg : look o.gang t.gangs = some g) (hlines : o.lines = []) (hlog : o.logv = false ∨ NoReplay t g) :
    logOp o t = t := by
  rcases hlog with hlog | hn
  · exact logOp_of_quiet t hlines (.inl hlog)
  · have hvals : o.vals.foldl (fun s v => logValue o.gang v.1 v.2 s) t = t :=
      List.foldlRecOn (motive := (· = t)) o.vals _ rfl fun u hu v _ => by rw [hu]; exact logValue_of_noReplay hg hn v.1 v.2
    unfold logOp
    dsimp only
    rw [hlines, List.foldl_nil, hvals, ite_self]

theorem finishOp_eq {id : Nat} (ho : look id s.ops = some o) (hleft : o.left = 0) (hsub : o.sub = none)
    (hlog : logOp o { s with ops := del id s.ops } = { s with ops := del id s.ops }) :
    finishOp id s = endAcquire o (updGang o.gang (opEnded id o) (putSmp o.smp { s with ops := del id s.ops })) := by
  unfold finishOp
  rw [ho]
  dsimp only
  rw [if_neg (by simp [hleft, hsub]), hlog]
  rfl

/-- R111, R280: an operation that awaits nothing ends as it starts: its results have landed. -/
theorem startOp_ends {F : List Fibre} {S : AMap Dword} (hg : look o.gang s.gangs = some g) (hsmp : ∀ p, o.smp = some p → p.core = o.core)
    (hfree : g.holdOps = []) (hleft : o.left = 0) (hsub : o.sub = none) (hlines : o.lines = [])
    (hlog : o.logv = false ∨ NoReplay s g) (hland : Lands o g F S) :
    let t := startOp o hold s
    look o.gang t.gangs = some { g with fibres := F, s := S } ∧ (o.acq = none → t.reqs = s.reqs) ∧ MemQuiet o.gang o.core s t := by
  have hgs : look o.gang (opBegun o hold s).gangs = some (opStarted o hold g) := look_updGang hg
  have hlog' := logOp_eq_self (o := o) (t := { opBegun o hold s with ops := del o.id (opBegun o hold s).ops }) hgs hlines
    (hlog.imp_right fun hn l hl => hn l (by rw [← hl]; unfold opStarted; cases o.ctr <;> rfl))
  have hquiet : MemQuiet o.gang o.core s { opBegun o hold s with ops := del o.id (opBegun o hold s).ops } :=
    .of_tables rfl rfl rfl (fun _ hj => look_adj_other hj) rfl
  have hreqs : { opBegun o hold s with ops := del o.id (opBegun o hold s).ops }.reqs = s.reqs := rfl
  rw [startOp_eq, finishOp_eq (look_ins_same ..) hleft hsub hlog']
  replace hgs : look o.gang { opBegun o hold s with ops := del o.id (opBegun o hold s).ops }.gangs = some (opStarted o hold g) := hgs
  generalize { opBegun o hold s with ops := del o.id (opBegun o hold s).ops } = u at *
  obtain ⟨m, cs, hput, -⟩ := putSmp_eq o.smp u
  have hgp : look o.gang (putSmp o.smp u).gangs = some (opStarted o hold g) := by rw [hput]; exact hgs
  have hend : look o.gang (updGang o.gang (opEnded o.id o) (putSmp o.smp u)).gangs = some { g with fibres := F, s := S } := by
    rw [look_updGang hgp, opEnded_opStarted hfree hland]
  refine ⟨?_, fun hacq => ?_, ((hquiet.trans (putSmp_memQuiet o.gang hsmp u)).trans (updGang_memQuiet ..)).trans (endAcquire_memQuiet ..)⟩
  · rw [(endAcquire_copiesOnly o _).1]
    exact hend
  · rw [endAcquire, hacq, ← hreqs]
    dsimp only
    rw [hput]
    rfl

/-- R443: the same of an instruction that may be sampled. -/
theorem startSampled_ends {F : List Fibre} {S : AMap Dword} (hg : look o.gang s.gangs = some g) (hcore : x.g.core = o.core)
    (hfree : g.holdOps = []) (hleft : o.left = 0) (hsub : o.sub = none) (hlines : o.lines = [])
    (hlog : o.logv = false ∨ NoReplay s g) (hland : Lands o g F S) :
    let t := startSampled x code sect hit o hold s
    look o.gang t.gangs = some { g with fibres := F, s := S } ∧ (o.acq = none → t.reqs = s.reqs) ∧ MemQuiet o.gang o.core s t := by
  obtain ⟨⟨cs, hsmp⟩, hquiet, hp⟩ := memSample_spec (k := o.gang) x code sect hit s
  rw [hcore] at hquiet hp
  unfold startSampled
  dsimp only
  generalize memSample x code sect hit s = r at hsmp hquiet hp
  have hgt : look o.gang r.2.gangs = some g := by rw [hsmp]; exact hg
  have hlog' : o.logv = false ∨ NoReplay r.2 g := hlog.imp_right fun hn l hl => hn l (by rw [← hl, hsmp]; rfl)
  obtain ⟨hgang, hreqs, hstart⟩ := startOp_ends (o := { o with smp := r.1 }) (hold := hold) hgt hp hfree hleft hsub hlines hlog' hland
  exact ⟨hgang, fun hacq => (hreqs hacq).trans (by rw [hsmp]), hquiet.trans hstart⟩

end

end Sys2Proof.Machine
end

section
/-! Proofs of O16 and O17, fourth part: where the results of an operation land. -/

namespace Sys2Proof.Machine

section
variable {o : MemOp} {d : Opnd} {fmt : DstFmt} {i : Instr} {h : Hd} {s : State} {g : Gang} {upd : Nat → Fibre → Fibre}

/-! ## Fibres -/

theorem getElem?_fibresAfter (n : Nat) : (fibresAfter i h s g upd)[n]? = (fibreAt g n).map fun f =>
    if laneIn (acting h s g) n then upd n (past i s g f) else if laneIn s.cur.group n then past i s g f else f := by
  rw [fibresAfter, List.getElem?_mapIdx]
  rfl

/-- R18, R156: a ready fibre has not ended. -/
theorem notEnded_of_ready {f : Fibre} (hf : ready f = true) : notEnded f = true := by
  simp only [ready, Bool.and_eq_true, decide_eq_true_eq] at hf
  rw [notEnded, ended, hf.1.1]
  rfl

/-- An operation without a destination leaves the fibres as the issue leaves them. -/
theorem lands_none (hd : o.dst = none) : Lands o (issued i h s g) (fibresAfter i h s g keep) g.s := by
  intro g' hf hs
  rw [landOp, hd, ← fibres_issued, ← issued_s i h s g, ← hf, ← hs]

theorem landOp_eq_foldl (hd : o.dst = some (d, fmt)) (hns : ∀ n, d ≠ .s n) (g : Gang) :
    landOp o g = (o.parts.filter (stillThere g)).foldl (landOne o d fmt) g := by
  rw [landOp, hd]
  cases d with
  | s n => exact absurd rfl (hns n)
  | _ => rfl

/-- R21: the fibres after each acting lane has taken its result. -/
theorem lands_fibres (hd : o.dst = some (d, fmt)) (hns : ∀ n, d ≠ .s n) (hlanes : o.parts.map (·.lane) = lanesOf (acting h s g))
    (hready : GroupReady s g)
    (hown : ∀ p ∈ o.parts, ∀ f, fibreAt g p.lane = some f → landLane o d fmt p (past i s g f) = upd p.lane (past i s g f)) :
    Lands o (issued i h s g) (fibresAfter i h s g upd) g.s := by
  intro g' hf hs
  have hat : ∀ l, fibreAt g' l = (fibresAfter i h s g keep)[l]? := fun l => by rw [fibreAt, hf, fibres_issued]
  have hacts : ∀ p ∈ o.parts, laneIn (acting h s g) p.lane = true := fun p hp =>
    mem_lanesOf.mp (hlanes ▸ List.mem_map_of_mem hp)
  have hthere : o.parts.filter (stillThere g') = o.parts := by
    refine List.filter_eq_self.mpr fun p hp => ?_
    obtain ⟨f, hfib⟩ := fibreAt_of_acting (hacts p hp)
    rw [stillThere, hat, getElem?_fibresAfter, hfib, Option.map_some, if_pos (hacts p hp)]
    exact notEnded_of_ready (hready p.lane f (laneIn_group_of_acting (hacts p hp)) hfib)
  obtain ⟨hrest, hother, hland⟩ := landParts_spec (o := o) (d := d) (fmt := fmt) (ps := o.parts) (g := g') (hlanes ▸ nodup_lanesOf _)
  rw [landOp_eq_foldl hd hns, hthere, hrest]
  rw [issued_s] at hs
  rw [← hs]
  refine congrArg (fun F => { g' with fibres := F }) (List.ext_getElem? fun n => ?_)
  rw [getElem?_fibresAfter]
  by_cases ha : laneIn (acting h s g) n = true
  · obtain ⟨p, hp, rfl⟩ := List.mem_map.mp (hlanes ▸ mem_lanesOf.mpr ha)
    refine (hland p hp).trans ?_
    rw [hat, getElem?_fibresAfter]
    cases hfib : fibreAt g p.lane with
    | none => rfl
    | some f => rw [Option.map_some, Option.map_some, Option.map_some, if_pos ha, if_pos ha, hown p hp f hfib]
  · refine (hother n (hlanes ▸ fun hm => ha (mem_lanesOf.mp hm))).trans ?_
    rw [hat, getElem?_fibresAfter]
    simp only [if_neg ha]

/-! ## Vector registers -/

/-- R209: a lane of the operation awaits the words of its destination. -/
theorem awaits {n : Fin 256} {w : Nat} {p : Part} (hregs : o.regs = dstRegs (.v n) w (o.parts.map (·.lane))) (hp : p ∈ o.parts) {j : Nat}
    (hj : j < w) : o.regs.contains (p.lane, n.val + j) = true := by
  rw [hregs, List.contains_iff_mem]
  exact List.mem_flatMap.mpr ⟨p.lane, List.mem_map_of_mem hp, List.mem_map.mpr ⟨j, List.mem_range.mpr hj, rfl⟩⟩

theorem setV64If_of_awaited {regs : List (Nat × Nat)} {l n : Nat} (h0 : regs.contains (l, n) = true) (h1 : regs.contains (l, n + 1) = true)
    (x : Dword) (f : Fibre) : setV64If regs l n x f = setV64 n x f := by
  rw [setV64If, setVIf, setVIf, if_pos h0, if_pos h1, setV64]

/-- R21, R103: a lane's result of one word. -/
theorem landLane_word {n : Fin 256} {p : Part} {bits : Nat} {x : Dword} (hv : partVals o fmt p.lane (partBytes o p) = [(bits, x)])
    (hw : dstWords fmt = if bits = 64 then 2 else 1) (hregs : o.regs = dstRegs (.v n) (dstWords fmt) (o.parts.map (·.lane)))
    (hp : p ∈ o.parts) (f : Fibre) : landLane o (.v n) fmt p f = writeReg bits (.v n) x f := by
  have hawait := fun j => awaits (j := j) hregs hp
  rw [hw] at hawait
  have h0 := hawait 0 (by split <;> decide)
  rw [Nat.add_zero] at h0
  simp only [landLane, hv, List.foldl_cons, List.foldl_nil, writeReg]
  split
  · next h64 => exact setV64If_of_awaited h0 (hawait 1 (by rw [if_pos h64]; decide)) x f
  · rw [setVIf, if_pos h0]

/-- R104: a lane's result of two words of 64 bits. -/
theorem landLane_dbl {n : Fin 256} {p : Part} (hregs : o.regs = dstRegs (.v n) 4 (o.parts.map (·.lane))) (hp : p ∈ o.parts) (f : Fibre) :
    landLane o (.v n) .dbl p f =
      setV64 (n + 2) (num64 (leNat ((partBytes o p).drop 8))) (setV64 n (num64 (leNat ((partBytes o p).take 8))) f) := by
  have hawait := fun j => awaits (j := j) hregs hp
  have h0 := hawait 0 (by decide)
  rw [Nat.add_zero] at h0
  simp only [landLane, partVals, List.foldl_cons, List.foldl_nil, if_true]
  rw [setV64If_of_awaited h0 (hawait 1 (by decide)),
    setV64If_of_awaited (hawait 2 (by decide)) (hawait 3 (by decide))]

/-! ## Scalar registers -/

/-- The scalar registers after the values of a destination. -/
def scalarVals (n : Nat) (vs : List (Nat × Dword)) (m : AMap Dword) : AMap Dword :=
  (vs.foldl (fun a v => (a.1 + 1, put 0 a.1 (if v.1 = 64 then v.2 else lo32 v.2) a.2)) (n, m)).2

theorem setS_fold_eq : ∀ (vs : List (Nat × Dword)) (n : Nat) (g : Gang),
    (vs.foldl (fun a v => (a.1 + 1, setS a.1 (if v.1 = 64 then v.2 else lo32 v.2) a.2)) (n, g)).2 = { g with s := scalarVals n vs g.s }
  | [], _, _ => rfl
  | v :: vs, n, g => setS_fold_eq vs (n + 1) (setS n (if v.1 = 64 then v.2 else lo32 v.2) g)

theorem landScalar_eq (n : Nat) (p : Part) (g : Gang) :
    landScalar o n fmt p g = { g with s := scalarVals n (partVals o fmt p.lane (partBytes o p)) g.s } := setS_fold_eq _ n g

theorem dstWords_pos (fmt : DstFmt) : 0 < dstWords fmt := by
  cases fmt with
  | ty t => rw [dstWords]; split <;> decide
  | _ => exact Nat.succ_pos _

/-- R109: the scalar registers after the highest acting lane's result. -/
theorem lands_scalar {n : Fin 64} {S : AMap Dword} (hd : o.dst = some (.s n, fmt))
    (hregs : o.regs = dstRegs (.s n) (dstWords fmt) (o.parts.map (·.lane)))
    (hnone : o.parts = [] → S = g.s) (hlast : ∀ p, o.parts.getLast? = some p → S = scalarVals n (partVals o fmt p.lane (partBytes o p)) g.s) :
    Lands o (issued i h s g) (fibresAfter i h s g keep) S := by
  intro g' hf hs
  rw [issued_s] at hs
  rw [landOp, hd, ← fibres_issued, ← hf]
  dsimp only
  cases hp : o.parts.getLast? with
  | none => rw [hnone (List.getLast?_eq_none_iff.mp hp), ← hs]
  | some p =>
    have hne : o.parts.map (·.lane) ≠ [] := fun e => by rw [List.map_eq_nil_iff.mp e] at hp; cases hp
    have hany : o.regs.any (·.1 = 64) = true := by
      rw [hregs, dstRegs, if_neg hne, List.any_eq_true]
      have hpos := dstWords_pos fmt
      exact ⟨(64, n.val + 0), List.mem_map.mpr ⟨0, List.mem_range.mpr (by omega), rfl⟩, rfl⟩
    dsimp only
    rw [if_pos hany, landScalar_eq, hlast p hp, hs]

/-- R109: the highest acting lane is that of the last part. -/
theorem topLane_of_parts {ps : List Part} (hlanes : ps.map (·.lane) = lanesOf (acting h s g)) :
    topLane (acting h s g) = ps.getLast?.map (·.lane) := by
  rw [topLane, ← hlanes, List.getLast?_map]

/-! ## Loads, values and wide registers -/

/-- A destination that takes the same value for the highest acting lane whose part is the last. -/
theorem bind_topLane {β : Type} {ps : List Part} {val : Nat → Fibre → β} {p : Part} {f : Fibre}
    (hlanes : ps.map (·.lane) = lanesOf (acting h s g)) (hp : ps.getLast? = some p) (hf : fibreAt g p.lane = some f) :
    ((topLane (acting h s g)).bind fun l => (fibreAt g l).map (val l)) = some (val p.lane f) := by
  rw [topLane_of_parts hlanes, hp, Option.map_some, Option.bind_some, hf, Option.map_some]

theorem bind_topLane_none {β : Type} {ps : List Part} {val : Nat → Fibre → β} (hlanes : ps.map (·.lane) = lanesOf (acting h s g))
    (hp : ps = []) : ((topLane (acting h s g)).bind fun l => (fibreAt g l).map (val l)) = none := by
  rw [topLane_of_parts hlanes, hp]
  rfl

/-- The last part is that of an acting lane. -/
theorem fibreAt_of_part {ps : List Part} {p : Part} (hlanes : ps.map (·.lane) = lanesOf (acting h s g)) (hp : p ∈ ps) :
    ∃ f, fibreAt g p.lane = some f := fibreAt_of_acting (mem_lanesOf.mp (hlanes ▸ List.mem_map_of_mem hp))

/-- The destination format of a load. -/
abbrev loadFmt (m : Mem) : DstFmt := if m.two then .dbl else .ty m.t

theorem landLane_load {m : Mem} {p : Part} (hd : ∀ n, m.d ≠ .s n) (hregs : o.regs = dstRegs m.d (dstWords (loadFmt m)) (o.parts.map (·.lane)))
    (hp : p ∈ o.parts) (f : Fibre) : landLane o m.d (loadFmt m) p f = loadReg m (partBytes o p) f := by
  unfold loadReg
  cases hm : m.d with
  | v n =>
    rw [hm] at hregs
    cases htwo : m.two with
    | true =>
      simp only [loadFmt, htwo, if_true] at hregs ⊢
      exact landLane_dbl hregs hp f
    | false =>
      simp only [loadFmt, htwo] at hregs ⊢
      exact landLane_word rfl (dstWords_of_tyReg m.t) hregs hp f
  | s n => exact absurd hm (hd n)
  | w n => cases htwo : m.two <;> simp only [loadFmt, htwo] <;> rfl
  | _ => rfl

/-- R102 to R104, R109: a load's bytes land in the registers of its lanes, or of its gang. -/
theorem lands_load {m : Mem} {bytes : Nat → Fibre → List Byte} (hd : o.dst = some (m.d, loadFmt m))
    (hregs : o.regs = dstRegs m.d (dstWords (loadFmt m)) (o.parts.map (·.lane))) (hlanes : o.parts.map (·.lane) = lanesOf (acting h s g))
    (hready : GroupReady s g) (hbytes : ∀ p ∈ o.parts, ∀ f, fibreAt g p.lane = some f → partBytes o p = bytes p.lane f)
    (hpast : ∀ l f, bytes l (past i s g f) = bytes l f) :
    Lands o (issued i h s g) (fibresAfter i h s g fun l f => loadReg m (bytes l f) f) (loadScalar m h s g bytes) := by
  by_cases hs : ∃ n, m.d = .s n
  · obtain ⟨n, hn⟩ := hs
    have hkeep : (fun l f => loadReg m (bytes l f) f) = keep := by
      funext l f
      rw [loadReg, hn]
    rw [hn] at hd hregs
    rw [hkeep]
    refine lands_scalar hd hregs (fun he => ?_) fun p hp => ?_
    · rw [loadScalar, hn, bind_topLane_none hlanes he]
    · have hmem := List.mem_of_getLast? hp
      obtain ⟨f, hf⟩ := fibreAt_of_part hlanes hmem
      rw [loadScalar, hn, bind_topLane hlanes hp hf, ← hbytes p hmem f hf]
      cases htwo : m.two <;> simp only [loadFmt, htwo] <;> rfl
  · have hns : ∀ n, m.d ≠ .s n := fun n hn => hs ⟨n, hn⟩
    have hkeep : loadScalar m h s g bytes = g.s := by
      unfold loadScalar
      split
      · next hn _ => exact absurd hn (hns _)
      · rfl
    rw [hkeep]
    refine lands_fibres hd hns hlanes hready fun p hp f hf => ?_
    rw [landLane_load hns hregs hp, hbytes p hp f hf, hpast]

/-- The destination format of a value brought back whole. -/
abbrev rawFmt (bits : Nat) : DstFmt := if bits = 64 then .raw64 else .raw32

/-- A value brought back by an operation to a lane. -/
def valOf (o : MemOp) (lane : Nat) : Dword := ((o.vals.find? fun v => v.1 = lane).map (·.2)).getD 0

theorem partVals_raw {bits : Nat} (hb : bits = 64 ∨ bits = 32) (lane : Nat) (bs : List Byte) :
    partVals o (rawFmt bits) lane bs = [(bits, valOf o lane)] := by
  rcases hb with rfl | rfl <;> rfl

theorem landLane_raw {bits : Nat} {p : Part} (hb : bits = 64 ∨ bits = 32) (hd : ∀ n, d ≠ .s n)
    (hregs : o.regs = dstRegs d (dstWords (rawFmt bits)) (o.parts.map (·.lane))) (hp : p ∈ o.parts) (f : Fibre) :
    landLane o d (rawFmt bits) p f = bringReg bits d (valOf o p.lane) f := by
  cases d with
  | v n => exact landLane_word (partVals_raw hb p.lane _) (by rcases hb with rfl | rfl <;> rfl) hregs hp f
  | s n => exact absurd rfl (hd n)
  | w n => rcases hb with rfl | rfl <;> rfl
  | _ => rfl

/-- R294, R295: values brought back land in the registers of their lanes, or of their gang. -/
theorem lands_raw {bits : Nat} {val : Nat → Fibre → Dword} (hb : bits = 64 ∨ bits = 32) (hd : o.dst = some (d, rawFmt bits))
    (hregs : o.regs = dstRegs d (dstWords (rawFmt bits)) (o.parts.map (·.lane))) (hlanes : o.parts.map (·.lane) = lanesOf (acting h s g))
    (hready : GroupReady s g) (hvals : ∀ p ∈ o.parts, ∀ f, fibreAt g p.lane = some f → valOf o p.lane = val p.lane f)
    (hpast : ∀ l f, val l (past i s g f) = val l f) :
    Lands o (issued i h s g) (fibresAfter i h s g fun l f => bringReg bits d (val l f) f) (bringScalar bits d val h s g) := by
  by_cases hs : ∃ n, d = .s n
  · obtain ⟨n, rfl⟩ := hs
    refine lands_scalar hd hregs (fun he => ?_) fun p hp => ?_
    · unfold bringScalar
      rw [bind_topLane_none hlanes he]
    · have hmem := List.mem_of_getLast? hp
      obtain ⟨f, hf⟩ := fibreAt_of_part hlanes hmem
      unfold bringScalar
      rw [bind_topLane hlanes hp hf, ← hvals p hmem f hf, partVals_raw hb]
      rfl
  · have hns : ∀ n, d ≠ .s n := fun n hn => hs ⟨n, hn⟩
    have hkeep : bringScalar bits d val h s g = g.s := by
      unfold bringScalar
      split
      · next hn _ => exact absurd rfl (hns _)
      · rfl
    rw [hkeep]
    refine lands_fibres hd hns hlanes hready fun p hp f hf => ?_
    rw [landLane_raw hb hns hregs hp, hvals p hp f hf, hpast]

/-- R146, R147: a wide register takes its lane's bytes, with the status of its lane. -/
theorem landLane_wide {n : Fin 2} {st : List (Nat × Word)} {p : Part} (hregs : o.regs = dstRegs (.w n) 1 (o.parts.map (·.lane)))
    (hp : p ∈ o.parts) (f : Fibre) : landLane o (.w n) (.wide st) p f =
      let v := ((st.find? fun x => x.1 = p.lane).map (·.2)).getD 0
      setWide n ⟨BitVec.ofNat 1024 (leNat (partBytes o p)), v.getLsbD 0, v.getLsbD 1, v.getLsbD 2⟩ f := by
  have hawait : o.regs.contains (p.lane, 256 + n.val) = true := by
    rw [hregs, List.contains_iff_mem]
    exact List.mem_map.mpr ⟨p.lane, List.mem_map_of_mem hp, rfl⟩
  unfold landLane
  dsimp only
  rw [if_pos hawait]

end

end Sys2Proof.Machine
end

section
/-! Proof of O16, first part: loads of the scratchpad. -/

namespace Sys2Proof.Machine

/-! ## Instructions that leave nothing outstanding -/

section
variable {i : Instr} {h : Hd} {c : CtrKind} {s t : State} {g : Gang} {gate : Iss → State → Option State} {body : Iss → State → State}
  {o : MemOp} {hold : Bool} {code sect hit : Nat} {upd : Nat → Fibre → Fibre} {S : AMap Dword} {P : State → Prop}

theorem issued_core (i : Instr) (h : Hd) (s : State) (g : Gang) : (issued i h s g).core = g.core := by rw [issued_eq]

theorem noReplay_at (hstep : MemStep s.cur.gang g.core s t) (hn : NoReplay s g) : NoReplay t (issued i h s g) := by
  intro l hl
  refine hn l ?_
  rw [← hl, hstep.frame.rest, issued_eq]
  rfl

/-- R111, R280: an instruction whose body starts an operation that awaits nothing, in a state where its gang has only its accounts,
completes with the results of the operation. -/
theorem didWith_of_started (hc : CanIssue i c s g) (hh : hdOf i = some h) (hx : exec i s = issue i h c gate body s)
    (hgate : gate (theIss h s g) s = none)
    (hbody : body (bodyIss i h s g) (bodyState i h s g) = startSampled (bodyIss i h s g) code sect hit o hold t)
    (hstep : MemStep s.cur.gang g.core s t) (hgang : look s.cur.gang t.gangs = some (issued i h s g))
    (hk : o.gang = s.cur.gang) (hcore : o.core = g.core) (hleft : o.left = 0) (hsub : o.sub = none) (hlines : o.lines = [])
    (hlog : o.logv = false ∨ NoReplay s g) (hland : Lands o (issued i h s g) (fibresAfter i h s g upd) S)
    (hP : ∀ u, MemQuiet s.cur.gang g.core t u → (o.acq = none → u.reqs = t.reqs) → P u) :
    DidWith i h s g upd { g with s := S } fun u => MemFrame s.cur.gang g.core s u ∧ P u := by
  have hxcore : (bodyIss i h s g).g.core = o.core := by
    rw [hcore]
    exact issued_core i h s g
  have hfree : (issued i h s g).holdOps = [] := by
    rw [issued_eq]
    exact hc.free
  obtain ⟨hg2, hreqs, hquiet⟩ := startSampled_ends (x := bodyIss i h s g) (code := code) (sect := sect) (hit := hit) (hold := hold)
    (hk ▸ hgang) hxcore hfree hleft hsub hlines (hlog.imp_right (noReplay_at hstep)) hland
  rw [hk] at hg2 hquiet
  rw [hcore] at hquiet
  have hend := hstep.trans hquiet.toMemStep
  refine didWith_of_body hc hh hx hgate hbody ?_ rfl hc.noFault (by rw [hend.frame.rest]) fun fn => ?_
  · rw [hg2, issued_eq_withAccounts]
    rfl
  · have hfn := updGang_memQuiet s.cur.gang g.core fn (startSampled (bodyIss i h s g) code sect hit o hold t)
    exact ⟨(hend.trans hfn.toMemStep).frame, hP _ (hquiet.trans hfn) hreqs⟩

/-- The state in which the body of a memory instruction makes its operation, which has a number of its own. -/
def opState (i : Instr) (h : Hd) (s : State) (g : Gang) : State :=
  { bodyState i h s g with nextId := (bodyState i h s g).nextId + 1 }

theorem opState_memQuiet (i : Instr) (h : Hd) (s : State) (g : Gang) : MemQuiet s.cur.gang g.core s (opState i h s g) :=
  (bodyState_memQuiet i h s g).trans (.of_tables rfl rfl rfl (fun _ _ => rfl) rfl)

theorem look_opState (hc : CanIssue i c s g) : look s.cur.gang (opState i h s g).gangs = some (issued i h s g) :=
  look_bodyState i h hc.gang

theorem bodyState_nextId (i : Instr) (h : Hd) (s : State) (g : Gang) : (bodyState i h s g).nextId = s.nextId := by
  rw [(bodyState_sameBut i h s g).rest]

end

/-! ## The bytes of a lane -/

theorem byteAt_table {v : Nat → Byte} {k : Nat} : ∀ {ks : List Nat}, k ∈ ks → byteAt (ks.map fun k => (k, v k)) k = v k
  | j :: ks, hk => by
    by_cases hj : j = k
    · simp [byteAt, hj]
    · have hk' : k ∈ ks := (List.mem_cons.mp hk).resolve_left (Ne.symm hj)
      have ih := byteAt_table (v := v) hk'
      simpa [byteAt, hj] using ih

/-- The bytes of a part, out of a table of those of all. -/
theorem partBytes_table {o : MemOp} {v : Nat → Byte} (hgot : o.got = (o.parts.flatMap (·.keys)).map fun k => (k, v k)) {p : Part}
    (hp : p ∈ o.parts) : partBytes o p = p.keys.map v := by
  rw [partBytes, hgot]
  exact List.map_congr_left fun k hk => byteAt_table (List.mem_flatMap.mpr ⟨p, hp, hk⟩)

section
variable {h : Hd} {s : State} {g : Gang} {need : Need}

/-- R107: the bytes of an access of the scratchpad stand at the crew's base and the offset. -/
theorem keysOf_scratch {a : Acc} (hp : ∃ ks, check s g .scratch need a = .ok ks) :
    keysOf s g .scratch need a = (List.range a.n).map fun j => scratchBase s g + a.ea.toNat + j := by
  obtain ⟨ks, hks⟩ := hp
  rw [keysOf, hks]
  unfold check at hks
  dsimp only at hks ⊢
  split at hks
  · cases hks
  · split at hks
    · cases hks
    · exact (Chk.ok.inj hks).symm

theorem keys_scratch {ea : Fibre → Dword} {n al : Nat} (hp : AllPass s g .scratch need (laneAccs (theIss h s g) ea n al)) {l : Nat}
    {f : Fibre} (ha : laneIn (acting h s g) l = true) (hf : fibreAt g l = some f) :
    keysOf s g .scratch need ⟨l, ea f, n, al⟩ = (List.range n).map fun j => scratchBase s g + (ea f).toNat + j :=
  keysOf_scratch (hp _ (mem_laneAccs.mpr ⟨l, f, ha, hf, rfl⟩))

/-- The part of a lane. -/
theorem part_scratch {ea : Fibre → Dword} {n al : Nat} (hp : AllPass s g .scratch need (laneAccs (theIss h s g) ea n al)) {p : Part}
    (hm : p ∈ partsOf s g .scratch need (laneAccs (theIss h s g) ea n al)) {f : Fibre} (hf : fibreAt g p.lane = some f) :
    p.keys = (List.range n).map fun j => scratchBase s g + (ea f).toNat + j := by
  obtain ⟨l, f', ha, hf', rfl⟩ := mem_parts.mp hm
  obtain rfl := Option.some.inj (hf'.symm.trans hf)
  exact keys_scratch hp ha hf'

/-- R106: the operation of a load of the scratchpad: it has its bytes. -/
def scratchLoad (x : Iss) (unit : Nat) (bypass : Bool) (acq : Option Scope) (dst : Opnd × DstFmt) (parts : List Part) (t : State) : MemOp :=
  { newOp x t.nextId .ld (some dst) parts with
    acq := if parts = [] then none else acq, unit := unit, bypass := bypass
    got := (parts.flatMap (·.keys)).map fun k => (k, spadByte t x.g.core k) }

theorem doLoad_scratch {x : Iss} {t : State} {accs : List Acc} (hal : ChecksAlike s t g x.g) (hp : AllPass s g .scratch needR accs)
    (code unit : Nat) (bypass : Bool) (acq : Option Scope) (dst : Opnd × DstFmt) :
    doLoad x code .scratch bypass unit acq dst accs t =
      startSampled x code 0 0 (scratchLoad x unit bypass acq dst (partsOf s g .scratch needR accs) t)
        (scratchLoad x unit bypass acq dst (partsOf s g .scratch needR accs) t).acq.isSome { t with nextId := t.nextId + 1 } := by
  have hsplit : split t x.g .scratch needR accs = partsOf s g .scratch needR accs :=
    (split_eq_partsOf (hp.alike hal)).trans (partsOf_alike hal)
  unfold doLoad
  rw [faultsOf_eq_nil (hp.alike hal), raiseFaults_nil, hsplit]
  rfl

end

/-! ## Clauses -/

section
variable {h : Hd} {s : State} {g : Gang}

theorem spadByte_bodyState (i : Instr) (h : Hd) (s : State) (g : Gang) (k : Nat) :
    spadByte (bodyState i h s g) (issued i h s g).core k = find 0 k (coreOf s g.core).spad := by
  rw [spadByte, issued_eq]
  exact congrArg (find 0 k) (bodyState_memQuiet i h s g).spad.1

/-- R102 to R107, R146: a load of the scratchpad, of `n` bytes at the address `ea` of each lane. -/
theorem scratchLoad_did {i : Instr} {c : CtrKind} {accs : Iss → List Acc} {dst : Iss → Opnd × DstFmt} {ea : Fibre → Dword} {n code unit : Nat}
    {bypass : Bool} {acq : Option Scope} {upd : Nat → Fibre → Fibre} {S : AMap Dword} (hc : CanIssue i c s g) (hh : hdOf i = some h)
    (hx : exec i s = issue i h c (walkGate .scratch needR accs)
      (fun x => doLoad x code .scratch bypass unit acq (dst x) (accs x)) s)
    (haccs : accs (theIss h s g) = laneAccs (theIss h s g) ea n n) (hbody : accs (bodyIss i h s g) = accs (theIss h s g))
    (hp : AllPass s g .scratch needR (accs (theIss h s g)))
    (hland : ∀ o : MemOp, o.dst = some (dst (bodyIss i h s g)) →
      o.regs = dstRegs (dst (bodyIss i h s g)).1 (dstWords (dst (bodyIss i h s g)).2) (o.parts.map (·.lane)) →
      o.parts.map (·.lane) = lanesOf (acting h s g) →
      (∀ p ∈ o.parts, ∀ f, fibreAt g p.lane = some f →
        partBytes o p = findAll 0 (scratchBase s g + (ea f).toNat) n (coreOf s g.core).spad) →
      Lands o (issued i h s g) (fibresAfter i h s g upd) S) :
    DidWith i h s g upd { g with s := S } fun t => MemFrame s.cur.gang g.core s t ∧ SpadSame g.core s t := by
  have hdo := doLoad_scratch (x := bodyIss i h s g) (checksAlike_bodyState i h s g) (hbody ▸ hp) code unit bypass acq (dst (bodyIss i h s g))
  generalize hparts : partsOf s g .scratch needR (accs (bodyIss i h s g)) = parts at hdo
  rw [hbody, haccs] at hparts
  rw [haccs] at hp
  have hop : Lands (scratchLoad (bodyIss i h s g) unit bypass acq (dst (bodyIss i h s g)) parts (bodyState i h s g))
      (issued i h s g) (fibresAfter i h s g upd) S := by
    refine hland _ rfl rfl (hparts ▸ lanes_parts ..) fun p hm f hf => ?_
    rw [partBytes_table rfl hm, part_scratch hp (hparts ▸ hm) hf, List.map_map, findAll]
    exact List.map_congr_left fun k _ => spadByte_bodyState i h s g _
  exact didWith_of_started hc hh hx (walkGate_none (haccs ▸ hp)) hdo
    (opState_memQuiet i h s g).toMemStep (look_opState hc) rfl (issued_core i h s g) rfl rfl rfl (.inl rfl) hop
    fun u hu _ => ((opState_memQuiet i h s g).trans hu).spad

theorem exec_ld (h : Hd) (o : Mem) (s : State) : exec (.ld h o) s =
  issue (.ld h o) h .ld (walkGate o.space needR (memAccs o)) (fun x =>
    doLoad x 0x60 o.space (atHome o.str o.scope) (unitOf o.str o.space (tyBytes o.t)) (acqOf o.str o.scope) (o.d, loadFmt o) (memAccs o x)) s := rfl

/-- R102 to R104. -/
theorem ld_scratch {o : Mem} (hs : o.space = .scratch) (hc : CanIssue (.ld h o) .ld s g) (hready : GroupReady s g)
    (hp : AllPass s g .scratch needR (memAccs o (theIss h s g))) :
    let bytes := fun (_ : Nat) f => findAll 0 (scratchBase s g + (rdAddr g h.ext f o.a o.b).toNat) (memBytes o) (coreOf s g.core).spad
    DidWith (.ld h o) h s g (fun l f => loadReg o (bytes l f) f) { g with s := loadScalar o h s g bytes }
      fun t => MemFrame s.cur.gang g.core s t ∧ SpadSame g.core s t := by
  intro bytes
  have hx := exec_ld h o s
  rw [hs] at hx
  refine scratchLoad_did (dst := fun _ => (o.d, loadFmt o)) hc rfl hx rfl (memAccs_issued o) hp fun op hd hregs hlanes hbytes => ?_
  exact lands_load hd hregs hlanes hready hbytes fun l f => by simp only [bytes, rdAddr_past]

theorem wideIn_issued (i : Instr) (o : WMem) : wideIn o (bodyIss i h s g) = wideIn o (theIss h s g) :=
  filterMap_issued (v := fun l f => (l, (rd (issued i h s g) h.ext (rdTy .n32) f o.c).setWidth 32))
    (v' := fun l f => (l, (rd g h.ext (rdTy .n32) f o.c).setWidth 32)) fun l f => by rw [rd_past _ _ _ _ _ _ _ _ (issued_s i h s g)]

/-- What is found for a lane in a table of what each lane makes of its fibre. -/
theorem find_filterMap_lane {β : Type} {v : Nat → Fibre → β} {l : Nat} {f : Fibre} (hf : fibreAt g l = some f) : ∀ {ls : List Nat}, l ∈ ls →
    (ls.filterMap fun l => (fibreAt g l).map fun f => (l, v l f)).find? (fun x => x.1 = l) = some (l, v l f)
  | j :: ls, hl => by
    by_cases hj : j = l
    · rw [hj, List.filterMap_cons_some (b := (l, v l f)) (by rw [hf]; rfl), List.find?_cons_of_pos (by simp)]
    · have ih := find_filterMap_lane (v := v) hf ((List.mem_cons.mp hl).resolve_left (Ne.symm hj))
      cases hfj : fibreAt g j with
      | none => rw [List.filterMap_cons_none (by rw [hfj]; rfl), ih]
      | some fj => rw [List.filterMap_cons_some (b := (j, v j fj)) (by rw [hfj]; rfl), List.find?_cons_of_neg (by simpa using hj), ih]

theorem find_wideIn {o : WMem} {l : Nat} {f : Fibre} (ha : laneIn (acting h s g) l = true) (hf : fibreAt g l = some f) :
    (((wideIn o (theIss h s g)).find? fun x => x.1 = l).map (·.2)).getD 0 = (src h g .n32 f o.c).setWidth 32 := by
  have hfind := find_filterMap_lane (v := fun _ f => (rd g h.ext (rdTy .n32) f o.c).setWidth 32) hf (mem_lanesOf.mpr ha)
  exact congrArg (fun x => (x.map (·.2)).getD 0) hfind

/-- R146, R147. -/
theorem wld_scratch {o : WMem} (hs : o.space = .scratch) (hc : CanIssue (.wld h o) .ld s g) (hready : GroupReady s g)
    (hp : AllPass s g .scratch needR (wideAccs o (theIss h s g))) :
    DidWith (.wld h o) h s g (fun _ f =>
        let st := src h g .n32 f o.c
        setWide o.w ⟨BitVec.ofNat 1024 (leNat (findAll 0 (scratchBase s g + (rdAddr g h.ext f o.a o.b).toNat) 128
          (coreOf s g.core).spad)), st.getLsbD 0, st.getLsbD 1, st.getLsbD 2⟩ f) g
      fun t => MemFrame s.cur.gang g.core s t ∧ SpadSame g.core s t := by
  have hx : exec (.wld h o) s = issue (.wld h o) h .ld (walkGate o.space needR (wideAccs o)) (fun x =>
    doLoad x 0x58 o.space false 4 none (.w o.w, .wide (wideIn o x)) (wideAccs o x)) s := rfl
  rw [hs] at hx
  refine scratchLoad_did (S := g.s) (dst := fun x => (.w o.w, .wide (wideIn o x))) hc rfl hx rfl (wideAccs_issued o) hp
    fun op hd hregs hlanes hbytes => lands_fibres hd (by simp) hlanes hready fun p hm f hf => ?_
  have ha := mem_lanesOf.mp (hlanes ▸ List.mem_map_of_mem hm)
  rw [landLane_wide hregs hm, hbytes p hm f hf, wideIn_issued, find_wideIn ha hf, rdAddr_past, src_past]
  simp only [BitVec.getLsbD_setWidth]
  rfl

end

end Sys2Proof.Machine
end

section
/-! Proof of O16, second part: stores of the scratchpad. -/

namespace Sys2Proof.Machine

/-! ## Writes in a row -/

/-- Writes in a row: the last to a place stands. -/
theorem find_puts {β : Type} [DecidableEq β] {d : β} (a : Nat) (bs : List (Nat × β)) {m : AMap β} (hwf : wf d m = true) :
    wf d (bs.foldl (fun m x => put d x.1 x.2 m) m) = true ∧
      find d a (bs.foldl (fun m x => put d x.1 x.2 m) m) = ((bs.reverse.find? fun x => x.1 = a).map (·.2)).getD (find d a m) := by
  induction bs using List.reverseRecOn with
  | nil => exact ⟨hwf, rfl⟩
  | append_singleton bs x ih =>
    obtain ⟨hw, hfind⟩ := ih
    rw [List.foldl_append, List.foldl_cons, List.foldl_nil, List.reverse_append, List.reverse_cons, List.reverse_nil, List.nil_append,
      List.singleton_append, List.find?_cons]
    refine ⟨wf_put hw, ?_⟩
    rw [find_put hw, hfind]
    by_cases hx : a = x.1
    · simp [hx]
    · simp [hx, Ne.symm hx]

theorem find_puts_other {β : Type} [DecidableEq β] {d : β} {a : Nat} {bs : List (Nat × β)} {m : AMap β} (hwf : wf d m = true)
    (ha : ∀ x ∈ bs, x.1 ≠ a) : find d a (bs.foldl (fun m x => put d x.1 x.2 m) m) = find d a m := by
  rw [(find_puts a bs hwf).2, List.find?_eq_none.mpr fun x hx => by simpa using ha x (List.mem_reverse.mp hx)]
  rfl

/-- The last write to a place that writes in a row reach. -/
theorem find_puts_last {β : Type} [DecidableEq β] {d : β} {a : Nat} {b : β} {pre post : List (Nat × β)} {m : AMap β} (hwf : wf d m = true)
    (ha : ∀ x ∈ post, x.1 ≠ a) : find d a ((pre ++ (a, b) :: post).foldl (fun m x => put d x.1 x.2 m) m) = b := by
  have hpost : post.reverse.find? (fun x => x.1 = a) = none :=
    List.find?_eq_none.mpr fun x hx => by simpa using ha x (List.mem_reverse.mp hx)
  rw [(find_puts a _ hwf).2, List.reverse_append, List.reverse_cons, List.append_assoc, List.find?_append, hpost]
  simp

theorem sorted_lanesOf (m : BitVec 64) : (lanesOf m).Pairwise (· < ·) := List.pairwise_lt_range.filter _

/-- R109: after the bytes that lanes store, in ascending lane order, the highest lane's stand. -/
theorem storedIn_puts {ps : List Part} {data : Nat → List Byte} {m : AMap Byte} (hwf : wf 0 m = true)
    (hsorted : (ps.map (·.lane)).Pairwise (· < ·)) (hkeys : ∀ p ∈ ps, p.keys.Nodup) :
    StoredIn m ((storedBytes ps data).foldl (fun m x => put 0 x.1 x.2 m) m) ps data := by
  refine ⟨fun a ha => find_puts_other hwf fun x hx e => ?_, fun p hp j a b hk hd hhigher => ?_⟩
  · obtain ⟨p, hp, hx⟩ := List.mem_flatMap.mp hx
    exact ha p hp (e ▸ (List.of_mem_zip hx).1)
  · obtain ⟨pre, post, rfl⟩ := List.append_of_mem hp
    obtain ⟨hklt, hka⟩ := List.getElem?_eq_some_iff.mp hk
    obtain ⟨hdlt, hdb⟩ := List.getElem?_eq_some_iff.mp hd
    have hzip : (p.keys.zip (data p.lane))[j]? = some (a, b) := List.getElem?_zip_eq_some.mpr ⟨hk, hd⟩
    obtain ⟨hzlt, hzab⟩ := List.getElem?_eq_some_iff.mp hzip
    have hsplit : p.keys.zip (data p.lane) = (p.keys.zip (data p.lane)).take j ++ (a, b) :: (p.keys.zip (data p.lane)).drop (j + 1) := by
      rw [← hzab, List.getElem_cons_drop hzlt, List.take_append_drop]
    have hbytes : storedBytes (pre ++ p :: post) data = (storedBytes pre data ++ (p.keys.zip (data p.lane)).take j) ++
        (a, b) :: ((p.keys.zip (data p.lane)).drop (j + 1) ++ storedBytes post data) := by
      have happ : storedBytes (pre ++ p :: post) data = storedBytes pre data ++ (p.keys.zip (data p.lane) ++ storedBytes post data) := by
        simp [storedBytes]
      rw [happ]
      conv_lhs => rw [hsplit]
      simp
    rw [hbytes]
    refine find_puts_last hwf fun x hx e => ?_
    rcases List.mem_append.mp hx with hx | hx
    · obtain ⟨n, hn, hxn⟩ := List.mem_iff_getElem.mp hx
      rw [List.getElem_drop, List.getElem_zip] at hxn
      have hkn : p.keys[j + 1 + n]'(by simp at hn; omega) = a := by rw [← e, ← hxn]
      have := (hkeys p (by simp)).getElem_inj_iff.mp (hkn.trans hka.symm)
      omega
    · obtain ⟨q, hq, hx⟩ := List.mem_flatMap.mp hx
      rw [List.map_append, List.map_cons, List.pairwise_append, List.pairwise_cons] at hsorted
      have hlt : p.lane < q.lane := hsorted.2.1.1 _ (List.mem_map_of_mem hq)
      exact hhigher q (by simp [hq]) hlt (e ▸ (List.of_mem_zip hx).1)

/-! ## The operation of a store -/

section
variable {h : Hd} {s t : State} {g : Gang}

theorem setSpad_gangs (core : Nat) (bs : List (Nat × Byte)) (s : State) : (setSpad core bs s).gangs = s.gangs := rfl

/-- The operation of a store. -/
def storeOp (x : Iss) (id unit left : Nat) (parts : List Part) : MemOp :=
  { newOp x id .st none parts with load := false, unit := unit, left := left }

/-- R106, R109: a store to the scratchpad writes its bytes, lane after lane, and starts an operation that awaits nothing. -/
theorem doStore_scratch {x : Iss} {accs : List Acc} (hal : ChecksAlike s t g x.g) (hp : AllPass s g .scratch needW accs)
    (code unit : Nat) (back : Option (Opnd × (Nat → Dword))) (data : Nat → List Byte) :
    doStore x code .scratch unit back accs data t =
      startSampled x code 0 0 (storeOp x t.nextId unit 0 (partsOf s g .scratch needW accs)) false
        (setSpad x.g.core (storedBytes (partsOf s g .scratch needW accs) data) { t with nextId := t.nextId + 1 }) := by
  have hsplit : split t x.g .scratch needW accs = partsOf s g .scratch needW accs :=
    (split_eq_partsOf (hp.alike hal)).trans (partsOf_alike hal)
  unfold doStore
  rw [faultsOf_eq_nil (hp.alike hal), raiseFaults_nil, hsplit]
  rfl

theorem storedBytes_congr {ps : List Part} {data data' : Nat → List Byte} (hd : ∀ p ∈ ps, data p.lane = data' p.lane) :
    storedBytes ps data = storedBytes ps data' := List.flatMap_congr fun p hp => by rw [hd p hp]

/-- The bytes that acting lanes store are those before the accounts of the issue. -/
theorem storedBytes_issued {i : Instr} {o : Mem} {ps : List Part} (hlanes : ps.map (·.lane) = lanesOf (acting h s g)) :
    storedBytes ps (storeData o (bodyIss i h s g)) = storedBytes ps (storeData o (theIss h s g)) := by
  refine storedBytes_congr fun p hp => ?_
  have ha := mem_lanesOf.mp (hlanes ▸ List.mem_map_of_mem hp)
  obtain ⟨f, hf⟩ := fibreAt_of_acting ha
  have hf' : fibreAt (theIss h s g).g p.lane = some f := hf
  unfold storeData
  dsimp only
  rw [fibreAt_issued_acting ha hf, hf']
  dsimp only
  rw [rd_past i s g (issued i h s g) h.ext (rdTy o.t) f o.d (issued_s i h s g)]
  cases o.d with
  | s n =>
    simp only [getS, issued_s]
    rfl
  | _ => rfl

theorem storedBytes_wide_issued {i : Instr} {o : WMem} {ps : List Part} (hlanes : ps.map (·.lane) = lanesOf (acting h s g)) :
    storedBytes ps (fun l => leBytes 128 (wideOut o (bodyIss i h s g) l).w.toNat) =
      storedBytes ps fun l => leBytes 128 (wideOut o (theIss h s g) l).w.toNat := by
  refine storedBytes_congr fun p hp => ?_
  have ha := mem_lanesOf.mp (hlanes ▸ List.mem_map_of_mem hp)
  obtain ⟨f, hf⟩ := fibreAt_of_acting ha
  have hf' : fibreAt (theIss h s g).g p.lane = some f := hf
  simp only [wideOut]
  rw [fibreAt_issued_acting ha hf, hf']
  rfl

theorem bothGates_none {a b : Iss → State → Option State} {x : Iss} (ha : a x s = none) (hb : b x s = none) : bothGates a b x s = none := by
  rw [bothGates, ha]
  exact hb

/-- The bytes of an access of the scratchpad are distinct. -/
theorem nodup_scratch {need : Need} {ea : Fibre → Dword} {n al : Nat} (hp : AllPass s g .scratch need (laneAccs (theIss h s g) ea n al))
    {p : Part} (hm : p ∈ partsOf s g .scratch need (laneAccs (theIss h s g) ea n al)) : p.keys.Nodup := by
  obtain ⟨l, f, ha, hf, rfl⟩ := mem_parts.mp hm
  rw [keys_scratch hp ha hf]
  exact List.nodup_range.map fun j k hjk => by simpa using hjk

/-- The bytes of a store in the scratchpad of the state after it. -/
theorem storedIn_scratch {u : State} {i : Instr} {ea : Fibre → Dword} {n al : Nat} {data : Nat → List Byte}
    (hwf : wf 0 (coreOf s g.core).spad = true) (hp : AllPass s g .scratch needW (laneAccs (theIss h s g) ea n al))
    (hu : SpadSame g.core (setSpad g.core (storedBytes (partsOf s g .scratch needW (laneAccs (theIss h s g) ea n al)) data) (opState i h s g)) u) :
    StoredIn (coreOf s g.core).spad (coreOf u g.core).spad (partsOf s g .scratch needW (laneAccs (theIss h s g) ea n al)) data := by
  have hspad : (coreOf u g.core).spad = _ := hu.1
  rw [coreOf_setSpad, withSpad, (opState_memQuiet i h s g).spad.1] at hspad
  rw [hspad]
  exact storedIn_puts hwf (lanes_parts .. ▸ sorted_lanesOf _) fun p hm => nodup_scratch hp hm

/-- The gang after an operation that brought it nothing. -/
theorem ended_keep (i : Instr) (h : Hd) (s : State) (g : Gang) :
    { issued i h s g with fibres := fibresAfter i h s g keep, s := g.s } = withAccounts i h s g g := by
  rw [← issued_eq_withAccounts, ← fibres_issued, ← issued_s i h s g]

/-- R109, R111: a store of the scratchpad, of `n` bytes at the address `ea` of each lane, ends where it issues. -/
theorem doStore_scratch_ends {i : Instr} {c : CtrKind} {accs : Iss → List Acc} {data : Iss → Nat → List Byte} {ea : Fibre → Dword} {n : Nat}
    (code unit : Nat) (back : Option (Opnd × (Nat → Dword))) (hc : CanIssue i c s g)
    (haccs : accs (theIss h s g) = laneAccs (theIss h s g) ea n n) (hbody : accs (bodyIss i h s g) = accs (theIss h s g))
    (hwf : wf 0 (coreOf s g.core).spad = true) (hp : AllPass s g .scratch needW (accs (theIss h s g)))
    (hdata : ∀ ps : List Part, ps.map (·.lane) = lanesOf (acting h s g) →
      storedBytes ps (data (bodyIss i h s g)) = storedBytes ps (data (theIss h s g))) :
    ∃ u, doStore (bodyIss i h s g) code .scratch unit back (accs (bodyIss i h s g)) (data (bodyIss i h s g)) (bodyState i h s g) = u ∧
      look s.cur.gang u.gangs = some (withAccounts i h s g g) ∧ MemStep s.cur.gang g.core s u ∧
      StoredIn (coreOf s g.core).spad (coreOf u g.core).spad (partsOf s g .scratch needW (accs (theIss h s g))) (data (theIss h s g)) := by
  rw [hbody, haccs] at *
  have hdo := doStore_scratch (x := bodyIss i h s g) (checksAlike_bodyState i h s g) hp code unit back (data (bodyIss i h s g))
  rw [hdata _ (lanes_parts ..), issued_core] at hdo
  have hstep := (opState_memQuiet i h s g).toMemStep.trans (setSpad_memStep s.cur.gang g.core
    (storedBytes (partsOf s g .scratch needW (laneAccs (theIss h s g) ea n n)) (data (theIss h s g))) (opState i h s g))
  have hgang : look s.cur.gang (setSpad g.core (storedBytes (partsOf s g .scratch needW (laneAccs (theIss h s g) ea n n))
      (data (theIss h s g))) (opState i h s g)).gangs = some (issued i h s g) := by
    rw [setSpad_gangs]
    exact look_opState hc
  have hfree : (issued i h s g).holdOps = [] := by
    rw [issued_eq]
    exact hc.free
  obtain ⟨hgang, -, hquiet⟩ := startSampled_ends (x := bodyIss i h s g) (code := code) (sect := 0) (hit := 0) (hold := false)
    (o := storeOp (bodyIss i h s g) (bodyState i h s g).nextId unit 0 (partsOf s g .scratch needW (laneAccs (theIss h s g) ea n n)))
    (s := setSpad g.core (storedBytes (partsOf s g .scratch needW (laneAccs (theIss h s g) ea n n)) (data (theIss h s g))) (opState i h s g))
    hgang rfl hfree rfl rfl rfl (.inl rfl) (lands_none (i := i) (h := h) rfl)
  have hcore : (storeOp (bodyIss i h s g) (bodyState i h s g).nextId unit 0
    (partsOf s g .scratch needW (laneAccs (theIss h s g) ea n n))).core = g.core := issued_core ..
  rw [hcore] at hquiet
  rw [ended_keep] at hgang
  exact ⟨_, hdo, hgang, hstep.trans hquiet.toMemStep, storedIn_scratch hwf hp hquiet.spad⟩

theorem exec_st (h : Hd) (o : Mem) (s : State) : exec (.st h o) s =
  issue (.st h o) h .st (bothGates (walkGate o.space needW (memAccs o))
    (relOf o.str o.scope o.space needW (memAccs o))) (fun x =>
      doStore x 0x61 o.space (unitOf o.str o.space (tyBytes o.t)) none (memAccs o x) (storeData o x)) s := rfl

/-- R102 to R104, R109. -/
theorem st_scratch {o : Mem} (hs : o.space = .scratch) (hc : CanIssue (.st h o) .st s g) (hwf : wf 0 (coreOf s g.core).spad = true)
    (hrel : o.str = .sync → Released h s g o.scope) (hp : AllPass s g .scratch needW (memAccs o (theIss h s g))) :
    DidWith (.st h o) h s g keep g fun t => MemFrame s.cur.gang g.core s t ∧
      StoredIn (coreOf s g.core).spad (coreOf t g.core).spad (partsOf s g .scratch needW (memAccs o (theIss h s g)))
        (storeData o (theIss h s g)) := by
  have hx := exec_st h o s
  rw [hs] at hx
  obtain ⟨u, hu, hgang, hstep, hstored⟩ := doStore_scratch_ends 0x61 (unitOf o.str .scratch (tyBytes o.t)) none hc rfl (memAccs_issued o) hwf hp
    fun _ => storedBytes_issued
  refine didWith_of_body hc rfl hx (bothGates_none (walkGate_none hp) (relOf_none nofun hp (lanes_laneAccs ..) hrel)) hu ?_ rfl hc.noFault
    (by rw [hstep.frame.rest]) fun fn => ⟨(hstep.trans (updGang_memQuiet ..).toMemStep).frame, hstored⟩
  rw [hgang, ← fibres_issued]
  rfl

/-! ## Wide stores -/

/-- R10 to R12: a result of each acting lane, in a gang whose fibres have only their accounts. -/
theorem lanesGo_result {i : Instr} {bits : Nat} {d : Opnd} {val : Nat → Fibre → Dword} {G : Gang} (hG : G.fibres = (issued i h s g).fibres)
    (hval : ∀ l f, val l (past i s g f) = val l f) :
    lanesGo s.cur.pc (fun l f => wr bits d (val l f) (.ok f)) (lanesOf (acting h s g)) G =
      { G with fibres := fibresAfter i h s g fun l f => writeReg bits d (val l f) f, s := writeScalar bits d val h s g G.s } := by
  have hfibres : G.fibres.mapIdx (fun l f => if l ∈ lanesOf (acting h s g) then (wr bits d (val l f) (.ok f)).f else f) =
      fibresAfter i h s g fun l f => writeReg bits d (val l f) f := by
    refine List.ext_getElem? fun n => ?_
    rw [List.getElem?_mapIdx, hG, fibres_issued, getElem?_fibresAfter, getElem?_fibresAfter, Option.map_map]
    refine congrFun (congrArg Option.map (funext fun f => ?_)) _
    simp only [Function.comp, mem_lanesOf, wr_f]
    by_cases ha : laneIn (acting h s g) n = true
    · simp only [if_pos ha]
    · simp only [if_neg ha]
  have hscalars : scalarsAfter (fun l f => wr bits d (val l f) (.ok f)) (issued i h s g).fibres (lanesOf (acting h s g)) G.s =
      writeScalar bits d val h s g G.s := scalarsAfter_wr (fun l f => by rw [hval]; cases d <;> rfl) G.s
  rw [lanesGo_ok (nodup_lanesOf _) fun l _ f _ => by rw [wr_fault]; rfl, hfibres, hG, hscalars]

/-- An instruction whose acting lanes write a result each, once its operation has started. -/
theorem didWith_of_results {i : Instr} {c : CtrKind} {gate : Iss → State → Option State} {body : Iss → State → State} {u : State} {G : Gang}
    {bits : Nat} {d : Opnd} {val : Nat → Fibre → Dword} {P : State → Prop} (hc : CanIssue i c s g) (hh : hdOf i = some h)
    (hx : exec i s = issue i h c gate body s) (hgate : gate (theIss h s g) s = none)
    (hbody : body (bodyIss i h s g) (bodyState i h s g) = perLane (bodyIss i h s g) (fun l f => wr bits d (val l f) (.ok f)) u)
    (hgang : look s.cur.gang u.gangs = some (withAccounts i h s g G)) (hctx : G.ctx = g.ctx) (hpend : G.pend = [])
    (hval : ∀ l f, val l (past i s g f) = val l f) (hstep : MemStep s.cur.gang g.core s u)
    (hP : ∀ v, MemQuiet s.cur.gang g.core u v → v.ops = u.ops → v.reqs = u.reqs → P v) :
    DidWith i h s g (fun l f => writeReg bits d (val l f) f) { G with s := writeScalar bits d val h s g G.s } P := by
  have hgo := lanesGo_result (bits := bits) (d := d) (G := withAccounts i h s g G) rfl hval
  refine didWith_of_body hc hh hx hgate hbody ?_ hctx hpend (by rw [perLane, updGang, hstep.frame.rest])
    fun fn => hP _ ((updGang_memQuiet ..).trans (updGang_memQuiet ..)) rfl rfl
  rw [perLane, look_updGang hgang, hgo]
  rfl

theorem exec_wst (h : Hd) (o : WMem) (s : State) : exec (.wst h o) s =
  issue (.wst h o) h .st (walkGate o.space needW (wideAccs o)) (fun x t =>
    let good := passing t x.g o.space needW (wideAccs o x)
    let u := doStore x 0x59 o.space 4 (some (o.c, fun l => wideStatus (wideOut o x l))) (wideAccs o x)
      (fun l => leBytes 128 (wideOut o x l).w.toNat) t
    if o.space = .peer then u
    else perLane { x with act := maskOf (good.map (·.lane)) } (fun _ f => wr 32 o.c (wideStatus (getWide f o.w)) (.ok f)) u) s := rfl

/-- R146 to R148: after its operation has started, `wst` leaves the status of each lane that stores. -/
theorem wst_body {o : WMem} {i : Instr} {space : Space} (hp : AllPass s g space needW (wideAccs o (theIss h s g))) (v : State) :
    let x := bodyIss i h s g
    perLane { x with act := maskOf ((passing (bodyState i h s g) x.g space needW (wideAccs o x)).map (·.lane)) }
      (fun _ f => wr 32 o.c (wideStatus (getWide f o.w)) (.ok f)) v =
    perLane x (fun _ f => wr 32 o.c (wideStatus (getWide f o.w)) (.ok f)) v := by
  intro x
  have hmask : maskOf ((passing (bodyState i h s g) x.g space needW (wideAccs o x)).map (·.lane)) = acting h s g := by
    rw [wideAccs_issued, passing_eq_self (hp.alike (checksAlike_bodyState i h s g)), wideAccs, lanes_laneAccs, maskOf_lanesOf]
  rw [hmask]

theorem wst_scratch {o : WMem} (hs : o.space = .scratch) (hc : CanIssue (.wst h o) .st s g) (hwf : wf 0 (coreOf s g.core).spad = true)
    (hp : AllPass s g .scratch needW (wideAccs o (theIss h s g))) :
    let st := fun f => wideStatus (getWide f o.w)
    DidWith (.wst h o) h s g (fun _ f => writeReg 32 o.c (st f) f)
      { g with s := writeScalar 32 o.c (fun _ f => st f) h s g g.s } fun t => MemFrame s.cur.gang g.core s t ∧
      StoredIn (coreOf s g.core).spad (coreOf t g.core).spad (partsOf s g .scratch needW (wideAccs o (theIss h s g)))
        (fun l => leBytes 128 (wideOut o (theIss h s g) l).w.toNat) := by
  intro st
  have hx := exec_wst h o s
  rw [hs] at hx
  obtain ⟨u, hu, hgang, hstep, hstored⟩ := doStore_scratch_ends (data := fun x l => leBytes 128 (wideOut o x l).w.toNat) 0x59 4
    (some (o.c, fun l => wideStatus (wideOut o (bodyIss (.wst h o) h s g) l))) hc rfl (wideAccs_issued o) hwf hp
    fun _ => storedBytes_wide_issued
  refine didWith_of_results (G := g) hc rfl hx (walkGate_none hp) ((if_neg nofun).trans ((wst_body hp _).trans (congrArg _ hu))) hgang rfl hc.noFault
    (fun _ _ => rfl) hstep fun v hv _ _ => ⟨(hstep.trans hv.toMemStep).frame, ?_⟩
  rw [hv.spad.1]
  exact hstored

end

end Sys2Proof.Machine
end

section
/-! Proof of O16, third part: descriptors of the scratchpad. -/

namespace Sys2Proof.Machine

section
variable {h : Hd} {s t : State} {g : Gang}

theorem headD_keys {b n : Nat} (hn : 0 < n) : ((List.range n).map fun j => b + j).headD 0 = b := by
  obtain ⟨m, rfl⟩ := Nat.exists_eq_succ_of_ne_zero hn.ne'
  rw [List.range_succ_eq_map, List.map_cons]
  rfl

/-- The sector of a lane's byte. -/
theorem partSector_scratch {need : Need} {ea : Fibre → Dword} (hp : AllPass s g .scratch need (laneAccs (theIss h s g) ea 1 1)) {p : Part}
    (hm : p ∈ partsOf s g .scratch need (laneAccs (theIss h s g) ea 1 1)) {f : Fibre} (hf : fibreAt g p.lane = some f) :
    partSector p = (scratchBase s g + (ea f).toNat) / 64 := by
  rw [partSector, part_scratch hp hm hf, headD_keys (by decide)]
  rfl

/-- The value of a part's lane, in a table of those of all. -/
theorem find_parts {v : Part → Dword} : ∀ {ps : List Part}, (ps.map (·.lane)).Nodup → ∀ p ∈ ps,
    (ps.map fun p => (p.lane, v p)).find? (fun x => x.1 = p.lane) = some (p.lane, v p)
  | q :: ps, hn, p, hp => by
    obtain ⟨hq, hn⟩ := List.nodup_cons.mp hn
    rw [List.map_cons]
    rcases List.mem_cons.mp hp with rfl | hp
    · exact List.find?_cons_of_pos (by simp)
    · have hne : q.lane ≠ p.lane := fun e => hq (List.mem_map.mpr ⟨p, hp, e.symm⟩)
      rw [List.find?_cons_of_neg (by simpa using hne), find_parts hn p hp]

theorem valOf_parts {o : MemOp} {v : Part → Dword} (hv : o.vals = o.parts.map fun p => (p.lane, v p)) (hn : (o.parts.map (·.lane)).Nodup)
    {p : Part} (hp : p ∈ o.parts) : valOf o p.lane = v p := by
  rw [valOf, hv, find_parts hn p hp]
  rfl

/-- The parts and the faults that the body of an issue finds. -/
theorem split_issued {space : Space} {need : Need} {as : List Acc} (i : Instr) (hp : AllPass s g space need as) :
    split (bodyState i h s g) (issued i h s g) space need as = partsOf s g space need as :=
  (split_eq_partsOf (hp.alike (checksAlike_bodyState i h s g))).trans (partsOf_alike (checksAlike_bodyState i h s g))

theorem faultsOf_issued {space : Space} {need : Need} {as : List Acc} (i : Instr) (hp : AllPass s g space need as) :
    faultsOf (bodyState i h s g) (bodyIss i h s g) space need as = [] :=
  faultsOf_eq_nil (hp.alike (checksAlike_bodyState i h s g))

/-- R305: the operation of an `ldesc` of the scratchpad. -/
def descOp (x : Iss) (d : Opnd) (parts : List Part) (t : State) : MemOp :=
  { newOp x t.nextId .ld (some (d, .raw32)) parts with
    vals := parts.map fun p => (p.lane, (spadDescAt t x.g.core (partSector p)).setWidth 64) }

/-- R305: an `ldesc` of the scratchpad starts an operation that has its descriptors. -/
theorem ldesc_body {o : Desc} (hs : o.space = .scratch) (hp : AllPass s g .scratch needR (byteAccs o.a o.b (theIss h s g))) :
    ∃ body, exec (.ldesc h o) s = issue (.ldesc h o) h .ld (walkGate .scratch needR (byteAccs o.a o.b)) body s ∧
      body (bodyIss (.ldesc h o) h s g) (bodyState (.ldesc h o) h s g) = startSampled (bodyIss (.ldesc h o) h s g) 0x69 0 0
        (descOp (bodyIss (.ldesc h o) h s g) o.d (partsOf s g .scratch needR (byteAccs o.a o.b (theIss h s g)))
          (bodyState (.ldesc h o) h s g)) false (opState (.ldesc h o) h s g) := by
  have hx : exec (.ldesc h o) s = execLdesc h o s := rfl
  rw [hx]
  unfold execLdesc
  rw [hs]
  refine ⟨_, rfl, ?_⟩
  dsimp only
  rw [byteAccs_issued, split_issued _ hp, faultsOf_issued _ hp, raiseFaults_nil]
  rfl

/-- R305. -/
theorem ldesc_scratch {o : Desc} (hs : o.space = .scratch) (hc : CanIssue (.ldesc h o) .ld s g) (hready : GroupReady s g)
    (hp : AllPass s g .scratch needR (byteAccs o.a o.b (theIss h s g))) :
    let v := fun f => (find resetDesc ((scratchBase s g + (rdAddr g h.ext f o.a o.b).toNat) / 64) (coreOf s g.core).spadDesc).setWidth 64
    DidWith (.ldesc h o) h s g (fun _ f => bringReg 32 o.d (v f) f) { g with s := bringScalar 32 o.d (fun _ f => v f) h s g }
      fun t => MemFrame s.cur.gang g.core s t ∧ SpadSame g.core s t := by
  intro v
  obtain ⟨body, hx, hbody⟩ := ldesc_body hs hp
  have hquiet := opState_memQuiet (.ldesc h o) h s g
  refine didWith_of_started hc rfl hx (walkGate_none hp) hbody hquiet.toMemStep (look_opState hc) rfl (issued_core ..) rfl rfl rfl (.inl rfl) ?_
    fun u hu _ => (hquiet.trans hu).spad
  have hlanes : (partsOf s g .scratch needR (byteAccs o.a o.b (theIss h s g))).map (·.lane) = lanesOf (acting h s g) := lanes_parts ..
  refine lands_raw (.inr rfl) rfl rfl hlanes hready (fun p hm f hf => ?_) fun _ _ => by simp only [v, rdAddr_past]
  rw [valOf_parts rfl (hlanes ▸ nodup_lanesOf _) hm, partSector_scratch hp hm hf, spadDescAt]
  have hcore : (bodyIss (.ldesc h o) h s g).g.core = g.core := issued_core ..
  rw [hcore, (bodyState_memQuiet (.ldesc h o) h s g).spad.2.1]
  rfl

/-! ## Stores of descriptors -/

/-- The descriptor that a lane stores. -/
def descOf (o : Desc) (x : Iss) (l : Nat) : BitVec 16 := ((fibreAt x.g l).map fun f => (rd x.g x.h.ext (rdTy .n32) f o.d).setWidth 16).getD 0

theorem descOf_issued {o : Desc} {i : Instr} {l : Nat} (ha : laneIn (acting h s g) l = true) :
    descOf o (bodyIss i h s g) l = descOf o (theIss h s g) l := by
  obtain ⟨f, hf⟩ := fibreAt_of_acting ha
  have hf' : fibreAt (theIss h s g).g l = some f := hf
  unfold descOf
  dsimp only
  rw [fibreAt_issued_acting ha hf, hf', Option.map_some, Option.map_some, rd_past i s g _ h.ext (rdTy .n32) f o.d (issued_s i h s g)]
  rfl

/-- R306: a scratchpad after the descriptors of some parts, in turn. -/
def putDescs (core : Nat) (v : Nat → BitVec 16) (ps : List Part) (t : State) : State :=
  ps.foldl (fun t p => setSpadDesc core (partSector p) (v p.lane) t) t

theorem putDescs_memStep (k core : Nat) (v : Nat → BitVec 16) (ps : List Part) (t : State) : MemStep k core t (putDescs core v ps t) :=
  MemStep.foldl (fun t p => setSpadDesc_memStep k core (partSector p) (v p.lane) t) ps t

theorem putDescs_gangs (core : Nat) (v : Nat → BitVec 16) : ∀ (ps : List Part) (t : State), (putDescs core v ps t).gangs = t.gangs
  | [], _ => rfl
  | p :: ps, t => putDescs_gangs core v ps (setSpadDesc core (partSector p) (v p.lane) t)

theorem spad_putDescs (core : Nat) (v : Nat → BitVec 16) : ∀ (ps : List Part) (t : State),
    (coreOf (putDescs core v ps t) core).spad = (coreOf t core).spad ∧ (coreOf (putDescs core v ps t) core).spadDesc =
      (ps.map fun p => (partSector p, v p.lane)).foldl (fun m x => put resetDesc x.1 x.2 m) (coreOf t core).spadDesc
  | [], _ => ⟨rfl, rfl⟩
  | p :: ps, t => by
    obtain ⟨hspad, hdesc⟩ := spad_putDescs core v ps (setSpadDesc core (partSector p) (v p.lane) t)
    rw [coreOf_setSpadDesc] at hspad hdesc
    exact ⟨hspad, hdesc⟩

/-- R306: an `sdesc` of the scratchpad writes its descriptors, lane after lane. -/
theorem sdesc_body {o : Desc} (hs : o.space = .scratch) (hp : AllPass s g .scratch needW (byteAccs o.a o.b (theIss h s g))) :
    ∃ body, exec (.sdesc h o) s = issue (.sdesc h o) h .st (walkGate .scratch needW (byteAccs o.a o.b)) body s ∧
      body (bodyIss (.sdesc h o) h s g) (bodyState (.sdesc h o) h s g) = startSampled (bodyIss (.sdesc h o) h s g) 0x6A 0 0
        (newOp (bodyIss (.sdesc h o) h s g) (bodyState (.sdesc h o) h s g).nextId .st none
          (partsOf s g .scratch needW (byteAccs o.a o.b (theIss h s g)))) false
        (putDescs g.core (descOf o (theIss h s g)) (partsOf s g .scratch needW (byteAccs o.a o.b (theIss h s g)))
          (opState (.sdesc h o) h s g)) := by
  have hx : exec (.sdesc h o) s = execSdesc h o s := rfl
  have hput : putDescs (issued (.sdesc h o) h s g).core (descOf o (bodyIss (.sdesc h o) h s g)) (partsOf s g .scratch needW
      (byteAccs o.a o.b (theIss h s g))) (opState (.sdesc h o) h s g) =
      putDescs g.core (descOf o (theIss h s g)) (partsOf s g .scratch needW (byteAccs o.a o.b (theIss h s g))) (opState (.sdesc h o) h s g) := by
    rw [issued_core]
    refine List.foldl_ext _ _ _ fun t p hm => ?_
    obtain ⟨l, f, ha, -, rfl⟩ := mem_parts.mp hm
    rw [descOf_issued ha]
  rw [hx, ← hput]
  unfold execSdesc
  rw [hs]
  refine ⟨_, rfl, ?_⟩
  dsimp only
  rw [byteAccs_issued, split_issued _ hp, faultsOf_issued _ hp, raiseFaults_nil]
  rfl

/-- The highest lane of a part of the acting ones. -/
theorem topLane_and (m m' : BitVec 64) : topLane (m &&& m') = (lanesOf m).reverse.find? (laneIn m') := by
  have hfilter : lanesOf (m &&& m') = (lanesOf m).filter (laneIn m') := by
    simp only [lanesOf, List.filter_filter, laneIn, BitVec.getLsbD_and]
    exact List.filter_congr fun l _ => Bool.and_comm ..
  rw [topLane, hfilter, ← List.head?_reverse, ← List.filter_reverse, List.head?_filter]

/-- R109, R306. -/
theorem sdesc_scratch {o : Desc} (hs : o.space = .scratch) (hc : CanIssue (.sdesc h o) .st s g)
    (hwf : wf resetDesc (coreOf s g.core).spadDesc = true) (hp : AllPass s g .scratch needW (byteAccs o.a o.b (theIss h s g))) :
    let sector := fun f => (scratchBase s g + (rdAddr g h.ext f o.a o.b).toNat) / 64
    DidWith (.sdesc h o) h s g keep g fun t => MemFrame s.cur.gang g.core s t ∧
      (coreOf t g.core).spad = (coreOf s g.core).spad ∧
      ∀ x, find resetDesc x (coreOf t g.core).spadDesc =
        match topLane (acting h s g &&& lanesWhere (fun f => sector f = x) g) with
        | some l => ((fibreAt g l).map fun f => (src h g .n32 f o.d).setWidth 16).getD 0
        | none => find resetDesc x (coreOf s g.core).spadDesc := by
  intro sector
  obtain ⟨body, hx, hbody⟩ := sdesc_body hs hp
  have hquiet := opState_memQuiet (.sdesc h o) h s g
  generalize hparts : partsOf s g .scratch needW (byteAccs o.a o.b (theIss h s g)) = ps at hbody
  have hlanes : ps.map (·.lane) = lanesOf (acting h s g) := hparts ▸ lanes_parts ..
  obtain ⟨hspad, hdesc⟩ := spad_putDescs g.core (descOf o (theIss h s g)) ps (opState (.sdesc h o) h s g)
  rw [hquiet.spad.1] at hspad
  rw [hquiet.spad.2.1] at hdesc
  have hgang : look s.cur.gang (putDescs g.core (descOf o (theIss h s g)) ps (opState (.sdesc h o) h s g)).gangs =
      some (issued (.sdesc h o) h s g) := by
    rw [putDescs_gangs]
    exact look_opState hc
  refine didWith_of_started (S := g.s) hc rfl hx (walkGate_none hp) hbody (hquiet.toMemStep.trans (putDescs_memStep ..)) hgang rfl (issued_core ..)
    rfl rfl rfl (.inl rfl) (lands_none rfl) fun u hu _ => ⟨hu.spad.1.trans hspad, fun x => ?_⟩
  rw [hu.spad.2.1, hdesc, (find_puts x _ hwf).2, topLane_and, ← hlanes, ← List.map_reverse, ← List.map_reverse, List.find?_map, List.find?_map]
  have hsame : ∀ p ∈ ps.reverse, ((fun y : Nat × BitVec 16 => decide (y.1 = x)) ∘ fun p => (partSector p, descOf o (theIss h s g) p.lane)) p =
      (laneIn (lanesWhere (fun f => sector f = x) g) ∘ fun p => p.lane) p := by
    intro p hm
    have hmem := List.mem_reverse.mp hm
    obtain ⟨f, hf⟩ := fibreAt_of_part hlanes hmem
    have hsector : partSector p = sector f := partSector_scratch hp (hparts ▸ hmem) hf
    dsimp only [Function.comp]
    rw [laneIn_lanesWhere (acting_lt (mem_lanesOf.mp (hlanes ▸ List.mem_map_of_mem hmem))) hf]
    simp only [hsector]
  rw [List.find?_congr hsame]
  cases ps.reverse.find? (laneIn (lanesWhere (fun f => sector f = x) g) ∘ fun p => p.lane) with
  | none => rfl
  | some p => rfl

end

end Sys2Proof.Machine
end

section
/-! Proof of O16, fourth part: atomics of the scratchpad. -/

namespace Sys2Proof.Machine

/-! ## Bytes of a word -/

theorem leNat_lt : ∀ bs : List Byte, leNat bs < 256 ^ bs.length
  | [] => Nat.one_pos
  | b :: bs => by
    have ih := leNat_lt bs
    have hb := b.isLt
    rw [leNat, List.length_cons, Nat.pow_succ]
    omega

/-- R6: the bytes of a little-endian word. -/
theorem byte_leNat : ∀ (bs : List Byte) (j : Nat) (hj : j < bs.length), BitVec.ofNat 8 (leNat bs / 256 ^ j) = bs[j]
  | b :: bs, 0, _ => by
    refine BitVec.eq_of_toNat_eq ?_
    have hb := b.isLt
    rw [leNat, BitVec.toNat_ofNat, List.getElem_cons_zero]
    omega
  | b :: bs, j + 1, hj => by
    have hb := b.isLt
    have hdiv : leNat (b :: bs) / 256 ^ (j + 1) = leNat bs / 256 ^ j := by
      rw [Nat.pow_succ', ← Nat.div_div_eq_div_mul, leNat]
      congr 1
      omega
    rw [hdiv, List.getElem_cons_succ]
    exact byte_leNat bs j _

theorem tyBytes_pos (t : Ty) : 0 < tyBytes t := by cases t <;> decide

theorem tyBytes_le (t : Ty) : tyBytes t ≤ 8 := by cases t <;> decide

theorem toNat_num64_leNat {bs : List Byte} (hlen : bs.length ≤ 8) : (num64 (leNat bs)).toNat = leNat bs := by
  have hlt : leNat bs < 256 ^ 8 := lt_of_lt_of_le (leNat_lt bs) (Nat.pow_le_pow_right (by decide) hlen)
  rw [num64, BitVec.toNat_ofNat, Nat.mod_eq_of_lt (hlt.trans_le (by norm_num))]

/-! ## A table of bytes after atomics -/

/-- The bytes of a word, written at an address. -/
def wordWrites (addr n v : Nat) : List (Nat × Byte) := (List.range n).map fun j => (addr + j, BitVec.ofNat 8 (v / 256 ^ j))

theorem leBytes_mapIdx (addr n v : Nat) : ((leBytes n v).mapIdx fun j b => (addr + j, b)) = wordWrites addr n v := by
  refine List.ext_getElem? fun j => ?_
  rw [List.getElem?_mapIdx, leBytes, wordWrites, List.getElem?_map, List.getElem?_map, Option.map_map]
  cases hj : (List.range n)[j]? with
  | none => rfl
  | some k =>
    obtain ⟨hlt, rfl⟩ := List.getElem?_eq_some_iff.mp hj
    simp

theorem find_wordWrites {m : AMap Byte} (hwf : wf 0 m = true) (addr v a : Nat) : ∀ n : Nat,
    find 0 a ((wordWrites addr n v).foldl (fun m x => put 0 x.1 x.2 m) m) =
      if addr ≤ a ∧ a < addr + n then BitVec.ofNat 8 (v / 256 ^ (a - addr)) else find 0 a m
  | 0 => by
    rw [if_neg (by omega)]
    rfl
  | n + 1 => by
    have ih := find_wordWrites hwf addr v a n
    have hw := wf_spadWrites (wordWrites addr n v) hwf
    rw [wordWrites, List.range_succ, List.map_append, List.foldl_append, List.map_cons, List.map_nil, List.foldl_cons, List.foldl_nil,
      ← wordWrites, find_put hw, ih]
    by_cases ha : a = addr + n
    · rw [if_pos ha, if_pos (by omega), ha, Nat.add_sub_cancel_left]
    · rw [if_neg ha]
      exact if_congr (by omega) rfl rfl

/-- R294: a table of bytes after some updates, in turn. -/
def atomTable (as : List AtomOp) (m : AMap Byte) : AMap Byte :=
  as.foldl (fun m a => (atomStep a fun k => find 0 k m).2.foldl (fun m x => put 0 x.1 x.2 m) m) m

/-- R294: what each update finds. -/
def atomOlds : List AtomOp → AMap Byte → List (Nat × Dword)
  | [], _ => []
  | a :: as, m => (a.lane, (atomStep a fun k => find 0 k m).1) :: atomOlds as (atomTable [a] m)

theorem wf_atomTable : ∀ (as : List AtomOp) {m : AMap Byte}, wf 0 m = true → wf 0 (atomTable as m) = true
  | [], _, h => h
  | _ :: as, _, h => wf_atomTable as (wf_spadWrites _ h)

theorem atomTable_append (as bs : List AtomOp) (m : AMap Byte) : atomTable (as ++ bs) m = atomTable bs (atomTable as m) :=
  List.foldl_append ..

/-- What an update finds that no other of its lane comes before. -/
theorem find_atomOlds {a : AtomOp} {post : List AtomOp} : ∀ {pre : List AtomOp} {m : AMap Byte}, (∀ b ∈ pre, b.lane ≠ a.lane) →
    (atomOlds (pre ++ a :: post) m).find? (fun x => x.1 = a.lane) = some (a.lane, (atomStep a fun k => find 0 k (atomTable pre m)).1)
  | [], m, _ => by
    rw [List.nil_append, atomOlds]
    exact List.find?_cons_of_pos (by simp)
  | b :: pre, m, hb => by
    have hne : b.lane ≠ a.lane := hb b List.mem_cons_self
    rw [List.cons_append, atomOlds, List.find?_cons_of_neg (by simpa using hne), find_atomOlds fun c hc => hb c (List.mem_cons_of_mem _ hc)]
    rfl

/-- R294: the atomics of the scratchpad, from a list of words already found. -/
theorem atomScratch_foldl (k core : Nat) : ∀ (as : List AtomOp) (l : List (Nat × Dword)) (t : State),
    let r := as.foldl (fun acc a =>
      let r := atomStep a (spadByte acc.2 core)
      (acc.1 ++ [(a.lane, r.1)], setSpad core r.2 acc.2)) (l, t)
    r.1 = l ++ atomOlds as (coreOf t core).spad ∧ (coreOf r.2 core).spad = atomTable as (coreOf t core).spad ∧ r.2.gangs = t.gangs ∧
      MemStep k core t r.2
  | [], l, t => ⟨(List.append_nil l).symm, rfl, rfl, .refl k core t⟩
  | a :: as, l, t => by
    obtain ⟨holds, hspad, hgangs, hstep⟩ := atomScratch_foldl k core as (l ++ [(a.lane, (atomStep a (spadByte t core)).1)])
      (setSpad core (atomStep a (spadByte t core)).2 t)
    rw [coreOf_setSpad] at holds hspad
    refine ⟨holds.trans ?_, hspad, hgangs.trans (setSpad_gangs ..), (setSpad_memStep k core _ t).trans hstep⟩
    rw [List.append_assoc]
    rfl

theorem atomScratch_spec (k core : Nat) (as : List AtomOp) (t : State) :
    (atomScratch core as t).1 = atomOlds as (coreOf t core).spad ∧
      (coreOf (atomScratch core as t).2 core).spad = atomTable as (coreOf t core).spad ∧ (atomScratch core as t).2.gangs = t.gangs ∧
      MemStep k core t (atomScratch core as t).2 := atomScratch_foldl k core as [] t

/-! ## Lane after lane -/

/-- The updates of the lanes below `l`. -/
def atomsBelow (l : Nat) (as : List AtomOp) : List AtomOp := as.filter fun a => a.lane < l

/-- The updates below a lane, and with its own. -/
theorem atomsBelow_split {pre post : List AtomOp} {a : AtomOp} (hsorted : ((pre ++ a :: post).map (·.lane)).Pairwise (· < ·)) :
    atomsBelow a.lane (pre ++ a :: post) = pre ∧ atomsBelow (a.lane + 1) (pre ++ a :: post) = pre ++ [a] := by
  rw [List.map_append, List.map_cons, List.pairwise_append, List.pairwise_cons] at hsorted
  obtain ⟨-, ⟨hpost, -⟩, hcross⟩ := hsorted
  have hpre : ∀ b ∈ pre, b.lane < a.lane := fun b hb => hcross _ (List.mem_map_of_mem hb) _ List.mem_cons_self
  have habove : ∀ b ∈ post, a.lane < b.lane := fun b hb => hpost _ (List.mem_map_of_mem hb)
  have hkeep : ∀ l, a.lane ≤ l → pre.filter (fun b => b.lane < l) = pre := fun l hl =>
    List.filter_eq_self.mpr fun b hb => by simpa using (hpre b hb).trans_le hl
  have hdrop : ∀ l, l ≤ a.lane + 1 → post.filter (fun b => b.lane < l) = [] := fun l hl =>
    List.filter_eq_nil_iff.mpr fun b hb => by have := habove b hb; simp; omega
  constructor
  · rw [atomsBelow, List.filter_append, hkeep _ le_rfl, List.filter_cons_of_neg (by simp), hdrop _ (by omega), List.append_nil]
  · rw [atomsBelow, List.filter_append, hkeep _ (by omega), List.filter_cons_of_pos (by simp), hdrop _ le_rfl]

/-- A lane without an update adds none. -/
theorem atomsBelow_succ {as : List AtomOp} {l : Nat} (hl : ∀ a ∈ as, a.lane ≠ l) : atomsBelow (l + 1) as = atomsBelow l as :=
  List.filter_congr fun a ha => by
    have := hl a ha
    simp
    omega

theorem atomsBelow_all {as : List AtomOp} (hl : ∀ a ∈ as, a.lane < 64) : atomsBelow 64 as = as :=
  List.filter_eq_self.mpr fun a ha => by simpa using hl a ha

/-! ## One update -/

/-- R294, R295: the word that an update leaves, given the old one; a `cas` that does not compare leaves the old. -/
def atomResult (a : AtomOp) (old : Dword) : Dword :=
  match a.op with
  | some op => atomNew a.t op old a.b
  | none => if low (tyBits a.t) old = low (tyBits a.t) a.b then a.c else old

/-- R294, R295: a byte of a table after one update. -/
theorem find_atomTable_one {m : AMap Byte} (hwf : wf 0 m = true) (a : AtomOp) (k : Nat) :
    find 0 k (atomTable [a] m) = if a.addr ≤ k ∧ k < a.addr + tyBytes a.t then
      BitVec.ofNat 8 ((atomResult a (atomStep a fun j => find 0 j m).1).toNat / 256 ^ (k - a.addr)) else find 0 k m := by
  have hwrites : ∀ v : Dword, find 0 k (((leBytes (tyBytes a.t) v.toNat).mapIdx fun j b => (a.addr + j, b)).foldl (fun m x => put 0 x.1 x.2 m) m) =
      if a.addr ≤ k ∧ k < a.addr + tyBytes a.t then BitVec.ofNat 8 (v.toNat / 256 ^ (k - a.addr)) else find 0 k m := fun v => by
    rw [leBytes_mapIdx, find_wordWrites hwf]
  have hold : ∀ j < tyBytes a.t, BitVec.ofNat 8 ((atomStep a fun j => find 0 j m).1.toNat / 256 ^ j) = find 0 (a.addr + j) m := fun j hj => by
    have hlen : ((List.range (tyBytes a.t)).map fun j => find 0 (a.addr + j) m).length = tyBytes a.t := by simp
    rw [atomStep, toNat_num64_leNat (hlen.le.trans (tyBytes_le a.t)), byte_leNat _ j (hj.trans_eq hlen.symm), List.getElem_map, List.getElem_range]
  unfold atomTable atomResult
  dsimp only [List.foldl_cons, List.foldl_nil]
  generalize hstep : atomStep a (fun j => find 0 j m) = r at hold
  unfold atomStep at hstep
  dsimp only at hstep
  cases hop : a.op with
  | some op =>
    rw [← hstep, hop]
    exact hwrites _
  | none =>
    rw [hop] at hstep
    by_cases heq : low (tyBits a.t) r.1 = low (tyBits a.t) a.b
    · rw [← hstep] at heq ⊢
      simp only [casNew, if_pos heq]
      exact hwrites _
    · have hkeep : find 0 k (r.2.foldl (fun m x => put 0 x.1 x.2 m) m) = find 0 k m := by
        rw [← hstep] at heq ⊢
        simp only [casNew, if_neg heq]
        rfl
      dsimp only
      rw [hkeep, if_neg heq]
      split
      · next hin =>
        rw [hold _ (by omega), Nat.add_sub_cancel' hin.1]
      · rfl

/-! ## The instruction -/

section
variable {h : Hd} {s : State} {g : Gang}

/-- The update of a lane. -/
def laneAtom (o : Atom) (isCas : Bool) (h : Hd) (s : State) (g : Gang) (l : Nat) (f : Fibre) : AtomOp :=
  ⟨l, scratchBase s g + (src h g .n64 f o.a).toNat, o.t, if isCas then none else some o.op, src h g o.t f o.b, src h g o.t f o.c⟩

/-- The updates of an instruction. -/
def atomsOf (o : Atom) (isCas : Bool) (x : Iss) (ps : List Part) : List AtomOp :=
  ps.map fun p => atomFor o isCas x p.lane (p.keys.headD 0)

theorem atomFor_lane (o : Atom) (isCas : Bool) (x : Iss) (l addr : Nat) : (atomFor o isCas x l addr).lane = l := by
  unfold atomFor
  split <;> rfl

theorem lanes_atomsOf (o : Atom) (isCas : Bool) (x : Iss) (ps : List Part) : (atomsOf o isCas x ps).map (·.lane) = ps.map (·.lane) := by
  rw [atomsOf, List.map_map]
  exact List.map_congr_left fun p _ => atomFor_lane ..

theorem laneAtom_mem {o : Atom} {isCas : Bool} {i : Instr} (hp : AllPass s g .scratch needRW (atomAccs o (theIss h s g))) {l : Nat} {f : Fibre}
    (ha : laneIn (acting h s g) l = true) (hf : fibreAt g l = some f) :
    laneAtom o isCas h s g l f ∈ atomsOf o isCas (bodyIss i h s g) (partsOf s g .scratch needRW (atomAccs o (theIss h s g))) := by
  refine List.mem_map.mpr ⟨_, mem_parts.mpr ⟨l, f, ha, hf, rfl⟩, ?_⟩
  have hkeys := keys_scratch hp ha hf
  dsimp only
  rw [hkeys, headD_keys (tyBytes_pos o.t), atomFor]
  dsimp only
  rw [fibreAt_issued_acting ha hf]
  dsimp only
  rw [rd_past i s g _ h.ext (rdTy o.t) f o.b (issued_s i h s g), rd_past i s g _ h.ext (rdTy o.t) f o.c (issued_s i h s g)]
  rfl

/-- R294, R295: the operation of an atomic of the scratchpad. -/
def scratchAtomOp (o : Atom) (x : Iss) (ps : List Part) (olds : List (Nat × Dword)) (id : Nat) : MemOp :=
  let none' := match o.d with | .p _ => true | _ => false
  { newOp x id (if none' then .st else .ld) (if none' then none else some (o.d, rawFmt (tyBits o.t))) ps with
    acq := if ps = [] then none else acqOf o.str o.scope, unit := 8, logv := !none', vals := olds }

theorem doAtomic_scratch {o : Atom} {isCas : Bool} {i : Instr} (hs : o.space = .scratch) (code : Nat)
    (hp : AllPass s g .scratch needRW (atomAccs o (theIss h s g))) :
    let ps := partsOf s g .scratch needRW (atomAccs o (theIss h s g))
    let r := atomScratch g.core (atomsOf o isCas (bodyIss i h s g) ps) (opState i h s g)
    let op := scratchAtomOp o (bodyIss i h s g) ps r.1 (bodyState i h s g).nextId
    doAtomic (bodyIss i h s g) code o isCas (atomAccs o (bodyIss i h s g)) (bodyState i h s g) =
      startSampled (bodyIss i h s g) code 0 0 op op.acq.isSome r.2 := by
  have hcore : (bodyIss i h s g).g.core = g.core := issued_core ..
  rw [← hcore]
  unfold doAtomic
  rw [hs, atomAccs_issued]
  dsimp only
  rw [split_issued _ hp, faultsOf_issued _ hp, raiseFaults_nil]
  rfl

theorem rawFmt_tyReg (t : Ty) : rawFmt (tyReg t) = rawFmt (tyBits t) := by cases t <;> rfl

theorem tyReg_cases (t : Ty) : tyReg t = 64 ∨ tyReg t = 32 := by cases t <;> decide

/-- R294, R295: what an atomic found lands in the registers of its lanes, or of its gang; with a predicate for D, nowhere. -/
theorem lands_atom {o : Atom} {i : Instr} {ps : List Part} {olds : List (Nat × Dword)} {old : Nat → Dword} {id : Nat}
    (hlanes : ps.map (·.lane) = lanesOf (acting h s g)) (hready : GroupReady s g)
    (hvals : ∀ p ∈ ps, ((olds.find? fun v => v.1 = p.lane).map (·.2)).getD 0 = old p.lane) :
    Lands (scratchAtomOp o (bodyIss i h s g) ps olds id) (issued i h s g)
      (fibresAfter i h s g fun l f => bringReg (tyReg o.t) o.d (old l) f) (bringScalar (tyReg o.t) o.d (fun l _ => old l) h s g) := by
  by_cases hd : ∃ k, o.d = .p k
  · obtain ⟨k, hk⟩ := hd
    have hdst : (scratchAtomOp o (bodyIss i h s g) ps olds id).dst = none := by
      unfold scratchAtomOp
      rw [hk]
      rfl
    rw [hk]
    exact lands_none hdst
  · have hop : (scratchAtomOp o (bodyIss i h s g) ps olds id).dst = some (o.d, rawFmt (tyReg o.t)) ∧
        (scratchAtomOp o (bodyIss i h s g) ps olds id).regs = dstRegs o.d (dstWords (rawFmt (tyReg o.t))) (ps.map (·.lane)) := by
      unfold scratchAtomOp
      rw [rawFmt_tyReg]
      cases hod : o.d with
      | p k => exact absurd ⟨k, hod⟩ hd
      | _ => exact ⟨rfl, rfl⟩
    exact lands_raw (tyReg_cases o.t) hop.1 hop.2 hlanes hready (fun p hp _ _ => hvals p hp) fun _ _ => rfl

/-- What the lanes below `l` have left at an address. -/
def memAfter (as : List AtomOp) (m : AMap Byte) (l a : Nat) : Byte := find 0 a (atomTable (atomsBelow l as) m)

/-- What a lane finds. -/
def oldOf (as : List AtomOp) (m : AMap Byte) (l : Nat) : Dword := (((atomOlds as m).find? fun v => v.1 = l).map (·.2)).getD 0

/-- R294, R295: each lane works on what the lower lanes left. -/
theorem memAfter_step {as : List AtomOp} {a : AtomOp} {m : AMap Byte} (hwf : wf 0 m = true) (hsorted : (as.map (·.lane)).Pairwise (· < ·))
    (ha : a ∈ as) :
    oldOf as m a.lane = num64 (leNat ((List.range (tyBytes a.t)).map fun j => memAfter as m a.lane (a.addr + j))) ∧
      ∀ k, memAfter as m (a.lane + 1) k = if a.addr ≤ k ∧ k < a.addr + tyBytes a.t then
        BitVec.ofNat 8 ((atomResult a (oldOf as m a.lane)).toNat / 256 ^ (k - a.addr)) else memAfter as m a.lane k := by
  obtain ⟨pre, post, rfl⟩ := List.append_of_mem ha
  obtain ⟨hbelow, hwith⟩ := atomsBelow_split hsorted
  have hpre : ∀ b ∈ pre, b.lane ≠ a.lane := fun b hb => by
    rw [List.map_append, List.map_cons, List.pairwise_append] at hsorted
    exact (hsorted.2.2 _ (List.mem_map_of_mem hb) _ List.mem_cons_self).ne
  have hold : oldOf (pre ++ a :: post) m a.lane = (atomStep a fun k => find 0 k (atomTable pre m)).1 := by
    rw [oldOf, find_atomOlds hpre]
    rfl
  refine ⟨?_, fun k => ?_⟩
  · rw [hold]
    simp only [memAfter, hbelow]
    rfl
  · rw [hold]
    simp only [memAfter, hbelow, hwith]
    rw [atomTable_append]
    exact find_atomTable_one (wf_atomTable pre hwf) a k

/-- R291 to R296. -/
theorem atomics_scratch {o : Atom} {isCas : Bool} {i : Instr} (hi : i = .atom h o ∧ isCas = false ∨ i = .cas h o ∧ isCas = true)
    (hs : o.space = .scratch) (hc : CanIssue i (atomCtr o) s g) (hready : GroupReady s g) (hn : NoReplay s g)
    (hwf : wf 0 (coreOf s g.core).spad = true) (hrel : o.str = .sync → Released h s g o.scope)
    (hp : AllPass s g .scratch needRW (atomAccs o (theIss h s g))) :
    ∃ (mem : Nat → Nat → Byte) (old : Nat → Dword),
      (∀ a, mem 0 a = find 0 a (coreOf s g.core).spad) ∧
      (∀ l a, laneIn (acting h s g) l = false → mem (l + 1) a = mem l a) ∧
      (∀ l f, laneIn (acting h s g) l = true → fibreAt g l = some f →
        let at' := scratchBase s g + (src h g .n64 f o.a).toNat
        let b := src h g o.t f o.b
        let new := if isCas then (if low (tyBits o.t) (old l) = low (tyBits o.t) b then src h g o.t f o.c else old l)
          else atomNew o.t o.op (old l) b
        old l = num64 (leNat ((List.range (tyBytes o.t)).map fun j => mem l (at' + j))) ∧
        ∀ a, mem (l + 1) a = if at' ≤ a ∧ a < at' + tyBytes o.t then BitVec.ofNat 8 (new.toNat / 256 ^ (a - at')) else mem l a) ∧
      DidWith i h s g (fun l f => bringReg (tyReg o.t) o.d (old l) f)
        { g with s := bringScalar (tyReg o.t) o.d (fun l _ => old l) h s g }
        fun t => MemFrame s.cur.gang g.core s t ∧ ∀ a, find 0 a (coreOf t g.core).spad = mem 64 a := by
  obtain ⟨code, hx, hh⟩ : ∃ code, exec i s = issue i h (atomCtr o) (bothGates (walkGate o.space needRW (atomAccs o))
      (relOf o.str o.scope o.space needRW (atomAccs o))) (fun x => doAtomic x code o isCas (atomAccs o x)) s ∧ hdOf i = some h := by
    rcases hi with ⟨rfl, rfl⟩ | ⟨rfl, rfl⟩
    · exact ⟨0x62, rfl, rfl⟩
    · exact ⟨0x63, rfl, rfl⟩
  rw [hs] at hx
  generalize hps : partsOf s g .scratch needRW (atomAccs o (theIss h s g)) = ps
  have hlanes : ps.map (·.lane) = lanesOf (acting h s g) := hps ▸ lanes_parts ..
  have hbody := doAtomic_scratch (i := i) (isCas := isCas) hs code hp
  dsimp only at hbody
  rw [hps] at hbody
  generalize has : atomsOf o isCas (bodyIss i h s g) ps = as at hbody
  have haslanes : as.map (·.lane) = lanesOf (acting h s g) := has ▸ (lanes_atomsOf ..).trans hlanes
  have hsorted : (as.map (·.lane)).Pairwise (· < ·) := haslanes ▸ sorted_lanesOf _
  have hquiet := opState_memQuiet i h s g
  obtain ⟨holds, hspad, hgangs, hstep⟩ := atomScratch_spec s.cur.gang g.core as (opState i h s g)
  rw [hquiet.spad.1] at holds hspad
  generalize atomScratch g.core as (opState i h s g) = r at hbody holds hspad hgangs hstep
  have hacts : ∀ a ∈ as, laneIn (acting h s g) a.lane = true := fun a ha => mem_lanesOf.mp (haslanes ▸ List.mem_map_of_mem ha)
  refine ⟨memAfter as (coreOf s g.core).spad, oldOf as (coreOf s g.core).spad, fun a => ?_, fun l a hl => ?_, fun l f ha hf => ?_, ?_⟩
  · rw [memAfter, atomsBelow, List.filter_eq_nil_iff.mpr fun b _ => by simp]
    rfl
  · rw [memAfter, atomsBelow_succ fun b hb e => by rw [← e, hacts b hb] at hl; cases hl]
    rfl
  · have hmem : laneAtom o isCas h s g l f ∈ as := has ▸ hps ▸ laneAtom_mem hp ha hf
    obtain ⟨hold, hafter⟩ := memAfter_step hwf hsorted hmem
    refine ⟨hold, fun a => (hafter a).trans ?_⟩
    cases isCas <;> rfl
  · refine didWith_of_started hc hh hx (bothGates_none (walkGate_none hp) (relOf_none nofun hp (lanes_laneAccs ..) hrel)) hbody
      (hquiet.toMemStep.trans hstep) (by rw [hgangs]; exact look_opState hc) rfl (issued_core ..) rfl rfl rfl (.inr hn)
      (lands_atom hlanes hready fun p _ => by rw [holds]; rfl) fun u hu _ a => ?_
    rw [hu.spad.1, hspad, memAfter, atomsBelow_all fun b hb => acting_lt (hacts b hb)]

end

/-- Settles O16: in each clause the accesses pass their checks, so the body starts an operation that awaits nothing; it ends at once, and
its results land where the operation's destination says. -/
theorem scratchpadAccesses : Obligations.ScratchpadAccesses := by
  unfold Obligations.ScratchpadAccesses
  refine ⟨fun h o s g => ld_scratch, fun h o s g hs hc _ => st_scratch hs hc, fun h o s g => wld_scratch, fun h o s g hs hc _ => wst_scratch hs hc,
    fun h o s g hs hc hready _ => ldesc_scratch hs hc hready, fun h o s g hs hc _ => sdesc_scratch hs hc,
    fun h o s g isCas i => atomics_scratch⟩

end Sys2Proof.Machine
end

section
/-! Proof of O17, first part: the lines of a load or a store, on their way to their homes. -/

namespace Sys2Proof.Machine

/-! ## One line -/

theorem look_isSome_filter {β : Type} {p : Nat × β → Bool} {k : Nat} : ∀ {m : AMap β}, (look k (m.filter p)).isSome = true →
    (look k m).isSome = true
  | (j, y) :: m, h => by
    by_cases hj : j = k
    · simp [look, hj]
    · rw [look, if_neg hj]
      rw [List.filter_cons] at h
      split at h
      · rw [look, if_neg hj] at h
        exact look_isSome_filter h
      · exact look_isSome_filter h

theorem L1Only.gangs {s t : State} (h : L1Only s t) : t.gangs = s.gangs := by rw [h]

/-- What serving one line does: requests of other lines stay as they are, L1 gains no sector, and nothing but caches, requests and
counters moves. -/
structure LineStep (k core line : Nat) (s t : State) : Prop where
  quiet : MemQuiet k core s t
  l1Only : L1Only s t
  keeps : ∀ q ∈ s.reqs, q.line ≠ line → q ∈ t.reqs
  l1 : ∀ sec, inL1 (coreOf t core) sec = true → inL1 (coreOf s core) sec = true

section
variable {k core line : Nat} {s t u : State}

theorem LineStep.trans (h : LineStep k core line s t) (h' : LineStep k core line t u) : LineStep k core line s u :=
  ⟨h.quiet.trans h'.quiet, h.l1Only.trans h'.l1Only, fun q hq hl => h'.keeps q (h.keeps q hq hl) hl, fun sec hs => h.l1 sec (h'.l1 sec hs)⟩

theorem perfCount_l1 (core ctx code n c : Nat) (s : State) : (coreOf (perfCount core ctx code n s) c).l1 = (coreOf s c).l1 := by
  unfold perfCount
  split
  · rfl
  · by_cases hc : c = core
    · subst hc
      rw [coreOf_updCore_same]
    · rw [coreOf_updCore_other hc]

theorem perfCount_reqs (core ctx code n : Nat) (s : State) : (perfCount core ctx code n s).reqs = s.reqs := by
  unfold perfCount
  split <;> rfl

theorem perfCount_lineStep (k core line ctx code n : Nat) (s : State) : LineStep k core line s (perfCount core ctx code n s) :=
  ⟨perfCount_memQuiet .., perfCount_l1Only .., fun _ hq _ => by rw [perfCount_reqs]; exact hq,
    fun sec hs => by rw [inL1, perfCount_l1] at hs; exact hs⟩

theorem pushReq_l1 (op core ctx line : Nat) (act : ReqAct) (c : Nat) (s : State) :
    (coreOf (pushReq op core ctx line act s) c).l1 = (coreOf s c).l1 := (perfCount_l1 core ctx 6 1 c _).trans rfl

theorem pushReq_lineStep (k op core ctx line : Nat) (act : ReqAct) (l : Nat) (s : State) :
    LineStep k core line s (pushReq op core ctx l act s) :=
  ⟨pushReq_memQuiet .., pushReq_l1Only .., fun _ hq _ => mem_reqs_pushReq hq, fun sec hs => by rw [inL1, pushReq_l1] at hs; exact hs⟩

theorem l1_discardL1 {hit : Nat → Bool} {sec : Nat} (hs : inL1 (coreOf (discardL1 core hit s) core) sec = true) :
    inL1 (coreOf s core) sec = true := by
  rw [inL1, coreOf_discardL1] at hs
  exact look_isSome_filter hs

theorem l1_mergeOne {x : UoLine} {sec : Nat} (hs : inL1 (coreOf (mergeOne core s x) core) sec = true) : inL1 (coreOf s core) sec = true := by
  rw [mergeOne, inL1, pushReq_l1] at hs
  exact l1_discardL1 hs

theorem l1_mergeOnes {sec : Nat} : ∀ {us : List UoLine} {s : State}, inL1 (coreOf (us.foldl (mergeOne core) s) core) sec = true →
    inL1 (coreOf s core) sec = true
  | [], _, hs => hs
  | _ :: _, _, hs => l1_mergeOne (l1_mergeOnes hs)

theorem mergeUo_lineStep (k core line : Nat) (s : State) : LineStep k core line s (mergeUo core (· = line) s) := by
  refine ⟨mergeUo_memQuiet .., mergeUo_l1Only .., fun _ hq hl => mem_reqs_mergeUo hq (decide_eq_false hl), fun sec hs => ?_⟩
  rw [mergeUo_eq] at hs
  split at hs
  · exact hs
  · rw [inL1, coreOf_updCore_same] at hs
    exact l1_mergeOnes hs

theorem asked_pushReq (op core ctx line : Nat) (act : ReqAct) (s : State) : Asked (pushReq op core ctx line act s) op core line act :=
  ⟨_, by rw [reqs_pushReq]; exact List.mem_append_right _ (List.mem_singleton.mpr rfl), rfl, rfl, rfl, rfl, rfl⟩

/-- R252, R253, R262: sectors that are to be had no nearer than their home are asked for there. -/
theorem serveLine_cold (k op ctx : Nat) {bypass : Bool} {secs : List Nat} {a : Served × State} (hne : secs ≠ [])
    (hcold : bypass = true ∨ ∀ x ∈ secs, inL1 (coreOf a.2 core) x = false ∧ (isRemote core line = true → inRdc a.2 (dieOf core) x = false)) :
    let r := serveLine op core ctx bypass line secs a
    r.1.reqs = a.1.reqs + 1 ∧ LineStep k core line a.2 r.2 ∧
      Asked r.2 op core line (.read (!bypass) (!bypass && isRemote core line) secs) := by
  have hmerge := mergeUo_lineStep k core line a.2
  have hhit : (if bypass then [] else secs.filter (inL1 (coreOf (mergeUo core (· = line) a.2) core))) = [] := by
    rcases hcold with hb | hcold
    · rw [if_pos hb]
    · split
      · rfl
      · exact List.filter_eq_nil_iff.mpr fun x hx hin => by
          have := hmerge.l1 x hin
          rw [(hcold x hx).1] at this
          cases this
  have hmiss : (secs.filter fun x => !(if bypass then [] else secs.filter (inL1 (coreOf (mergeUo core (· = line) a.2) core))).contains x) = secs := by
    rw [hhit]
    exact List.filter_eq_self.mpr fun _ _ => rfl
  unfold serveLine
  dsimp only
  rw [hmiss, hhit, if_neg hne]
  generalize hu : (if bypass = true then mergeUo core (· = line) a.2 else
    perfCount core ctx 5 secs.length (perfCount core ctx 4 ([] : List Nat).length (mergeUo core (· = line) a.2))) = u
  have hstep : LineStep k core line a.2 u := by
    rw [← hu]
    split
    · exact hmerge
    · exact hmerge.trans ((perfCount_lineStep ..).trans (perfCount_lineStep ..))
  have hfar : (!bypass && isRemote core line && secs.all (inRdc u (dieOf core)) && !unacked u core line) = false := by
    rcases hcold with hb | hcold
    · rw [hb]
      rfl
    · cases hr : isRemote core line with
      | false => simp
      | true =>
        obtain ⟨x, hx⟩ := List.exists_mem_of_ne_nil secs hne
        have hrdc : inRdc u (dieOf core) x = false := by
          rw [hstep.l1Only]
          exact (hcold x hx).2 hr
        have hall : secs.all (inRdc u (dieOf core)) = false := List.all_eq_false.mpr ⟨x, hx, by simp [hrdc]⟩
        simp [hall]
  rw [if_neg (by simp [hfar])]
  exact ⟨rfl, hstep.trans (pushReq_lineStep ..), asked_pushReq ..⟩

end

/-! ## The lines of an instruction -/

/-- The same of several lines. -/
structure LinesStep (k core : Nat) (lines : List Nat) (s t : State) : Prop where
  quiet : MemQuiet k core s t
  l1Only : L1Only s t
  keeps : ∀ q ∈ s.reqs, q.line ∉ lines → q ∈ t.reqs

section
variable {k core line : Nat} {lines : List Nat} {s t u : State}

theorem LinesStep.nil (k core : Nat) (s : State) : LinesStep k core [] s s := ⟨.refl k core s, .refl s, fun _ hq _ => hq⟩

theorem LinesStep.cons (h : LineStep k core line s t) (h' : LinesStep k core lines t u) : LinesStep k core (line :: lines) s u :=
  ⟨h.quiet.trans h'.quiet, h.l1Only.trans h'.l1Only, fun q hq hl => by
    rw [List.mem_cons, not_or] at hl
    exact h'.keeps q (h.keeps q hq hl.1) hl.2⟩

theorem LinesStep.asked {op l : Nat} {act : ReqAct} (h : LinesStep k core lines s t) (hl : l ∉ lines) (ha : Asked s op core l act) :
    Asked t op core l act := by
  obtain ⟨r, hr, hop, hcore, hline, hact, hst⟩ := ha
  exact ⟨r, h.keeps r hr (hline ▸ hl), hop, hcore, hline, hact, hst⟩

/-- R252, R262: no sector of a line is to be had nearer than its home. -/
def FarLine (s : State) (core line : Nat) (secs : List Nat) : Prop :=
  ∀ x ∈ secs, inL1 (coreOf s core) x = false ∧ (isRemote core line = true → inRdc s (dieOf core) x = false)

theorem LineStep.far {l : Nat} {secs : List Nat} (h : LineStep k core line s t) (hfar : FarLine s core l secs) : FarLine t core l secs :=
  fun x hx => by
    refine ⟨Bool.eq_false_iff.mpr fun hin => ?_, fun hr => ?_⟩
    · have hs := h.l1 x hin
      rw [(hfar x hx).1] at hs
      cases hs
    · rw [h.l1Only]
      exact (hfar x hx).2 hr

/-- R251: one request for each line. -/
theorem serveLines_cold (k op ctx : Nat) {bypass : Bool} {secsOf : Nat → List Nat} : ∀ {ls : List Nat} {a : Served × State}, ls.Nodup →
    (∀ l ∈ ls, secsOf l ≠ []) → (bypass = true ∨ ∀ l ∈ ls, FarLine a.2 core l (secsOf l)) →
    let r := ls.foldl (fun a l => serveLine op core ctx bypass l (secsOf l) a) a
    r.1.reqs = a.1.reqs + ls.length ∧ LinesStep k core ls a.2 r.2 ∧
      ∀ l ∈ ls, Asked r.2 op core l (.read (!bypass) (!bypass && isRemote core l) (secsOf l))
  | [], _, _, _, _ => ⟨rfl, .nil .., nofun⟩
  | l :: ls, a, hn, hne, hfar => by
    obtain ⟨hl, hn⟩ := List.nodup_cons.mp hn
    obtain ⟨hreqs, hstep, hask⟩ := serveLine_cold k op ctx (hne l List.mem_cons_self) (hfar.imp_right fun h => h l List.mem_cons_self)
    obtain ⟨hreqs', hsteps, hasks⟩ := serveLines_cold k op ctx (secsOf := secsOf) (a := serveLine op core ctx bypass l (secsOf l) a) hn
      (fun j hj => hne j (List.mem_cons_of_mem _ hj)) (hfar.imp_right fun h j hj => hstep.far (h j (List.mem_cons_of_mem _ hj)))
    refine ⟨?_, .cons hstep hsteps, fun j hj => ?_⟩
    · rw [List.foldl_cons, hreqs', hreqs, List.length_cons]
      omega
    · rcases List.mem_cons.mp hj with rfl | hj
      · exact hsteps.asked hl hask
      · exact hasks j hj

/-- R251 to R253, R262: a load whose bytes are to be had no nearer than their homes, or that leaves L1 out, asks there for the sectors
that it touches. -/
theorem serveLoad_cold (k op ctx : Nat) {bypass : Bool} {ps : List Part} (hcold : bypass = true ∨ Cold t core ps) :
    let r := serveLoad op core ctx bypass (ps.flatMap (·.keys)) t
    r.1.reqs = (linesTouched ps).length ∧ MemQuiet k core t r.2 ∧ r.2.gangs = t.gangs ∧
      ∀ l ∈ linesTouched ps, Asked r.2 op core l (.read (!bypass) (!bypass && isRemote core l) (sectorsTouched ps l)) := by
  have hne : ∀ l ∈ linesTouched ps, sectorsTouched ps l ≠ [] := fun l hl he => by
    obtain ⟨b, hb, rfl⟩ := List.mem_map.mp (mem_distinct.mp hl)
    have hmem : sectorOf b ∈ sectorsTouched ps (lineOf b) :=
      mem_distinct.mpr (List.mem_map.mpr ⟨b, List.mem_filter.mpr ⟨hb, decide_eq_true rfl⟩, rfl⟩)
    rw [he] at hmem
    cases hmem
  have hfar : bypass = true ∨ ∀ l ∈ linesTouched ps, FarLine t core l (sectorsTouched ps l) := hcold.imp_right fun hcold l _ x hx => by
    obtain ⟨b, hb, rfl⟩ := List.mem_map.mp (mem_distinct.mp hx)
    obtain ⟨hb, hline⟩ := List.mem_filter.mp hb
    obtain ⟨p, hp, hbk⟩ := List.mem_flatMap.mp hb
    rw [← of_decide_eq_true hline]
    exact hcold p hp b hbk
  obtain ⟨hreqs, hstep, hask⟩ := serveLines_cold k op ctx (a := ((⟨[], 0, 0⟩ : Served), t)) (nodup_distinct _) hne hfar
  exact ⟨hreqs.trans (Nat.zero_add _), hstep.quiet, hstep.l1Only.gangs, hask⟩

/-! ## Stores -/

theorem isSome_look_adj {m : AMap Byte} {a : Nat} {b : Byte} {x : Nat} : (look x (adj a (fun _ => b) m)).isSome = (look x m).isSome := by
  by_cases hx : x = a
  · rw [hx, look_adj_same, Option.isSome_map]
  · rw [look_adj_other hx]

/-- R252: a store brings no byte into L1. -/
theorem isSome_updPresent (x : Nat) : ∀ (bs : List (Nat × Byte)) (m : AMap Byte), (look x (updPresent bs m)).isSome = (look x m).isSome
  | [], _ => rfl
  | _ :: bs, _ => (isSome_updPresent x bs _).trans isSome_look_adj

theorem l1_poisonL1 (core : Nat) (hit : Nat → Bool) (c : Nat) (s : State) : coreOf (poisonL1 core hit s) c = coreOf s c := rfl

/-- R252, R451: what a store does to its core's L1, and to fills under way. -/
theorem updL1_lineStep (k core line : Nat) (bs : List (Nat × Byte)) (s : State) :
    LineStep k core line s (poisonL1 core (· = line) (updCore core (fun c => { c with l1 := updPresent bs c.l1 }) s)) := by
  have hkeep : ∀ q ∈ s.reqs, q.line ≠ line → q ∈ (discardL1 core (· = line) s).reqs := fun q hq hl =>
    mem_reqs_discardL1 hq (decide_eq_false hl)
  refine ⟨(updCore_memQuiet k core s rfl rfl rfl).trans (poisonL1_memQuiet ..), rfl, hkeep, fun sec hs => ?_⟩
  rw [l1_poisonL1, inL1, coreOf_updCore_same] at hs
  exact (isSome_updPresent ..).symm.trans hs

theorem storeLine_step (k op ctx : Nat) (bs : List (Nat × Byte)) (line : Nat) (s : State) :
    LineStep k core line s (storeLine op core ctx bs line s) ∧
      Asked (storeLine op core ctx bs line s) op core line (.write (bs.filter fun x => lineOf x.1 = line)) :=
  ⟨((mergeUo_lineStep ..).trans (updL1_lineStep ..)).trans (pushReq_lineStep ..), asked_pushReq ..⟩

theorem storeLines_asks (k op ctx : Nat) (bs : List (Nat × Byte)) : ∀ {ls : List Nat} {s : State}, ls.Nodup →
    LinesStep k core ls s (ls.foldl (fun s l => storeLine op core ctx bs l s) s) ∧
      ∀ l ∈ ls, Asked (ls.foldl (fun s l => storeLine op core ctx bs l s) s) op core l (.write (bs.filter fun x => lineOf x.1 = l))
  | [], _, _ => ⟨.nil .., nofun⟩
  | l :: ls, s, hn => by
    obtain ⟨hl, hn⟩ := List.nodup_cons.mp hn
    obtain ⟨hstep, hask⟩ := storeLine_step (core := core) k op ctx bs l s
    obtain ⟨hsteps, hasks⟩ := storeLines_asks k op ctx bs (s := storeLine op core ctx bs l s) hn
    refine ⟨.cons hstep hsteps, fun j hj => ?_⟩
    rcases List.mem_cons.mp hj with rfl | hj
    · exact hsteps.asked hl hask
    · exact hasks j hj

/-- R251, R252: one request for each line. -/
theorem storeBytes_asks (k op core ctx : Nat) (bs : List (Nat × Byte)) (s : State) :
    let lines := distinct (bs.map fun x => lineOf x.1)
    let r := storeBytes op core ctx bs s
    r.1 = lines.length ∧ MemQuiet k core s r.2 ∧ r.2.gangs = s.gangs ∧
      ∀ l ∈ lines, Asked r.2 op core l (.write (bs.filter fun x => lineOf x.1 = l)) := by
  obtain ⟨hstep, hask⟩ := storeLines_asks (core := core) k op ctx bs (s := s) (nodup_distinct (bs.map fun x => lineOf x.1))
  exact ⟨rfl, hstep.quiet, hstep.l1Only.gangs, hask⟩

end

end Sys2Proof.Machine
end

section
/-! Proof of O17, second part: loads that wait for their homes. -/

namespace Sys2Proof.Machine

/-! ## Instructions that stay outstanding -/

section
variable {i : Instr} {h : Hd} {c : CtrKind} {s t : State} {g : Gang} {gate : Iss → State → Option State} {body : Iss → State → State}
  {o : MemOp} {hold : Bool} {code sect hit : Nat} {reqs : List (Nat × ReqAct)}

/-- R111: a gang with an operation outstanding. -/
def counted (o : MemOp) (g : Gang) : Gang :=
  { g with ldcnt := g.ldcnt + (if o.ctr = .ld then 1 else 0), stcnt := g.stcnt + (if o.ctr = .st then 1 else 0)
           holdOps := if o.acq.isSome then [o.id] else [] }

theorem opStarted_issued (hc : CanIssue i c s g) : opStarted o o.acq.isSome (issued i h s g) = withAccounts i h s g (counted o g) := by
  have hfree : (issued i h s g).holdOps = [] := by
    rw [issued_eq]
    exact hc.free
  unfold opStarted
  rw [hfree, issued_eq_withAccounts]
  cases hctr : o.ctr <;> rw [counted, hctr] <;> rfl

/-- R111: an operation that awaits its homes stays outstanding, with its gang's count and its requests. -/
theorem startSampled_outstanding (hc : CanIssue i c s g) (hquiet : MemQuiet s.cur.gang g.core s t)
    (hgang : look s.cur.gang t.gangs = some (issued i h s g)) (hk : o.gang = s.cur.gang) (hcore : o.core = g.core) (hleft : o.left ≠ 0) :
    ∃ u, startSampled (bodyIss i h s g) code sect hit o o.acq.isSome t = u ∧
      look s.cur.gang u.gangs = some (withAccounts i h s g (counted o g)) ∧ MemQuiet s.cur.gang g.core s u ∧ u.reqs = t.reqs ∧
      ∃ p, look o.id u.ops = some { o with smp := p } := by
  obtain ⟨hg2, hop, hreqs, hstart⟩ := startSampled_waits (x := bodyIss i h s g) (code := code) (sect := sect) (hit := hit)
    (hold := o.acq.isSome) (hk ▸ hgang) ((issued_core i h s g).trans hcore.symm) hleft
  rw [hk] at hg2 hstart
  rw [hcore] at hstart
  rw [opStarted_issued hc] at hg2
  exact ⟨_, rfl, hg2, hquiet.trans hstart, hreqs, hop⟩

theorem outstanding_of_started (hc : CanIssue i c s g) (hh : hdOf i = some h) (hx : exec i s = issue i h c gate body s)
    (hgate : gate (theIss h s g) s = none)
    (hbody : body (bodyIss i h s g) (bodyState i h s g) = startSampled (bodyIss i h s g) code sect hit o o.acq.isSome t)
    (hquiet : MemQuiet s.cur.gang g.core s t) (hgang : look s.cur.gang t.gangs = some (issued i h s g)) (hid : o.id = s.nextId)
    (hk : o.gang = s.cur.gang) (hcore : o.core = g.core) (hleft : o.left = reqs.length) (hne : reqs ≠ [])
    (hask : ∀ q ∈ reqs, Asked t s.nextId g.core q.1 q.2) : Outstanding i h s g keep o.ctr o.acq o.dst o.parts reqs := by
  have hpos : o.left ≠ 0 := by rw [hleft]; exact fun e => hne (List.length_eq_zero_iff.mp e)
  obtain ⟨u, hu, hg2, hq, hreqs, p, hop⟩ := startSampled_outstanding (code := code) (sect := sect) (hit := hit) hc hquiet hgang hk hcore hpos
  have hfib : withAccounts i h s g (counted o g) =
      { withAccounts i h s g (counted o g) with fibres := fibresAfter i h s g keep } := by
    rw [← fibres_issued]
    rfl
  rw [hfib] at hg2
  have hlook : look s.nextId u.ops = some { o with smp := p } := by
    rw [← hid]
    exact hop
  have hcounted : counted o g = { g with
      ldcnt := g.ldcnt + (if o.ctr = .ld then 1 else 0), stcnt := g.stcnt + (if o.ctr = .st then 1 else 0)
      holdOps := if o.acq.isSome then [s.nextId] else [] } := by
    rw [counted, hid]
  unfold Outstanding
  rw [← hcounted]
  refine didWith_of_body hc hh hx hgate (hbody.trans hu) hg2 rfl hc.noFault (by rw [hq.frame.rest]) fun fn => ?_
  have hend := hq.trans (updGang_memQuiet s.cur.gang g.core fn u)
  refine ⟨hend.frame, hend.spad, fun q hqm => ?_, { o with smp := p }, hlook, hk, hcore, rfl, rfl, rfl, rfl, hleft⟩
  obtain ⟨r, hr, hrest⟩ := hask q hqm
  exact ⟨r, by rw [updGang_reqs, hreqs]; exact hr, hrest⟩

end

/-! ## The bytes of memory that an access reaches -/

section
variable {h : Hd} {s t : State} {g : Gang} {space : Space} {need : Need}

theorem length_chkPieces : ∀ {ps : List (Nat × Nat)} {ks : List Nat}, chkPieces s g need ps = .ok ks → ks.length = (ps.map (·.2)).sum
  | [], ks, hk => by
    cases hk
    rfl
  | (va, n) :: ps, ks, hk => by
    unfold chkPieces at hk
    split at hk
    · cases hk
    · split at hk <;> cases hk
    · split at hk
      · next ks' hrest =>
        cases hk
        rw [List.length_append, List.length_map, List.length_range, length_chkPieces hrest]
        rfl
      · next hrest => exact absurd hk (hrest ks)

/-- R106, R270: an access of memory reaches as many bytes as it has. -/
theorem length_keysOf {a : Acc} (hs : space = .glob ∨ space = .priv) (hw : a.n ≤ 4 ∨ 4 ∣ a.n) (hp : ∃ ks, check s g space need a = .ok ks) :
    (keysOf s g space need a).length = a.n := by
  obtain ⟨ks, hks⟩ := hp
  rw [keysOf, hks]
  unfold check at hks
  dsimp only
  rcases hs with rfl | rfl
  all_goals
    dsimp only at hks
    rw [ite_eq_iff, ite_eq_iff] at hks
    simp only [reduceCtorEq, and_false, false_or] at hks
    rw [length_chkPieces hks.2.2]
  · simp
  · rw [privPieces]
    split
    · simp
    · simp only [List.map_map, Function.comp_def, List.map_const', List.length_range, List.sum_replicate, smul_eq_mul]
      omega

/-! ## Loads -/

/-- The operation of a load of memory. -/
def memLoad (x : Iss) (id unit : Nat) (bypass : Bool) (acq : Option Scope) (dst : Opnd × DstFmt) (parts : List Part)
    (lines : List (Nat × Nat)) (r : Served) : MemOp :=
  { newOp x id .ld (some dst) parts with
    acq := if parts = [] then none else acq, unit := unit, bypass := bypass, got := r.got, left := r.reqs, lines := lines }

/-- R106, R251: a load of memory has its lines served, and starts an operation that awaits what was asked for. -/
theorem doLoad_mem {i : Instr} {accs : List Acc} (hs : space = .glob ∨ space = .priv) (hp : AllPass s g space needR accs) (code unit : Nat)
    (bypass : Bool) (acq : Option Scope) (dst : Opnd × DstFmt) :
    let ps := partsOf s g space needR accs
    let r := serveLoad (bodyState i h s g).nextId g.core (issued i h s g).ctx bypass (ps.flatMap (·.keys)) (opState i h s g)
    let op := memLoad (bodyIss i h s g) (bodyState i h s g).nextId unit bypass acq dst ps
      (linesOf (bodyState i h s g) (issued i h s g) space needR accs) r.1
    doLoad (bodyIss i h s g) code space bypass unit acq dst accs (bodyState i h s g) =
      startSampled (bodyIss i h s g) code (sectorsOf ps) r.1.hits op op.acq.isSome r.2 := by
  have hcore : (bodyIss i h s g).g.core = g.core := issued_core ..
  rw [← hcore]
  rcases hs with rfl | rfl
  all_goals
    unfold doLoad
    rw [split_issued _ hp, faultsOf_issued _ hp, raiseFaults_nil]
    rfl

theorem acting_parts_ne_nil {ps : List Part} (hact : acting h s g ≠ 0) (hlanes : ps.map (·.lane) = lanesOf (acting h s g)) : ps ≠ [] := by
  rintro rfl
  exact lanesOf_ne_nil hact hlanes.symm

/-- An access of some bytes touches a line. -/
theorem linesTouched_ne_nil {ea : Fibre → Dword} {n al : Nat} (hs : space = .glob ∨ space = .priv) (hact : acting h s g ≠ 0)
    (hpos : 0 < n) (hw : n ≤ 4 ∨ 4 ∣ n) (hp : AllPass s g space need (laneAccs (theIss h s g) ea n al)) :
    linesTouched (partsOf s g space need (laneAccs (theIss h s g) ea n al)) ≠ [] := by
  obtain ⟨p, hm⟩ := List.exists_mem_of_ne_nil _ (acting_parts_ne_nil hact (lanes_parts space need ea n al))
  obtain ⟨l, f, ha, hf, rfl⟩ := mem_parts.mp hm
  have hlen := length_keysOf hs (a := ⟨l, ea f, n, al⟩) hw (hp _ (mem_laneAccs.mpr ⟨l, f, ha, hf, rfl⟩))
  obtain ⟨b, hb⟩ := List.exists_mem_of_ne_nil (keysOf s g space need ⟨l, ea f, n, al⟩) fun he => by
    rw [he] at hlen
    exact hpos.ne hlen
  intro he
  have hline : lineOf b ∈ linesTouched (partsOf s g space need (laneAccs (theIss h s g) ea n al)) :=
    mem_distinct.mpr (List.mem_map_of_mem (List.mem_flatMap.mpr ⟨_, hm, hb⟩))
  rw [he] at hline
  cases hline

theorem Cold.of_l1 {core : Nat} {ps : List Part} (hl1 : (coreOf t core).l1 = (coreOf s core).l1) (hrdc : t.rdc = s.rdc) (hcold : Cold s core ps) :
    Cold t core ps := fun p hp b hb => by
  obtain ⟨h1, h2⟩ := hcold p hp b hb
  refine ⟨by rw [inL1, hl1]; exact h1, fun hr => ?_⟩
  rw [inRdc, rdcOf, hrdc]
  exact h2 hr

theorem opState_l1 (i : Instr) (h : Hd) (s : State) (g : Gang) : (coreOf (opState i h s g) g.core).l1 = (coreOf s g.core).l1 := by
  have hcore : coreOf (opState i h s g) g.core = coreOf (bodyState i h s g) g.core := rfl
  rw [hcore, (bodyState_sameBut i h s g).cores]

theorem opState_rdc (i : Instr) (h : Hd) (s : State) (g : Gang) : (opState i h s g).rdc = s.rdc := by
  rw [opState, (bodyState_sameBut i h s g).rest]

/-- R106, R111, R251 to R253: a load of memory whose bytes are not at hand, or that leaves L1 out. -/
theorem memLoad_issues {i : Instr} {c : CtrKind} {accs : Iss → List Acc} {dst : Iss → Opnd × DstFmt} {ea : Fibre → Dword} {n code unit : Nat}
    {bypass : Bool} {acq : Option Scope} (hs : space = .glob ∨ space = .priv) (hc : CanIssue i c s g) (hh : hdOf i = some h)
    (hx : exec i s = issue i h c (walkGate space needR accs) (fun x => doLoad x code space bypass unit acq (dst x) (accs x)) s)
    (haccs : accs (theIss h s g) = laneAccs (theIss h s g) ea n n) (hbody : accs (bodyIss i h s g) = accs (theIss h s g))
    (hact : acting h s g ≠ 0) (hpos : 0 < n) (hw : n ≤ 4 ∨ 4 ∣ n) (hp : AllPass s g space needR (accs (theIss h s g)))
    (hcold : bypass = true ∨ Cold s g.core (partsOf s g space needR (accs (theIss h s g)))) :
    let ps := partsOf s g space needR (accs (theIss h s g))
    Outstanding i h s g keep .ld acq (some (dst (bodyIss i h s g))) ps
      ((linesTouched ps).map fun l => (l, .read (!bypass) (!bypass && isRemote g.core l) (sectorsTouched ps l))) := by
  intro ps
  have hps : partsOf s g space needR (accs (theIss h s g)) = ps := rfl
  clear_value ps
  have hlanes : ps.map (·.lane) = lanesOf (acting h s g) := by rw [← hps, haccs, lanes_parts]
  have hlines : linesTouched ps ≠ [] := by
    rw [← hps, haccs]
    exact linesTouched_ne_nil hs hact hpos hw (haccs ▸ hp)
  have hdo := doLoad_mem (i := i) (h := h) hs hp code unit bypass acq (dst (bodyIss i h s g))
  dsimp only at hdo
  rw [hps] at hdo hcold
  obtain ⟨hreqs, hserve, hgangs, hask⟩ := serveLoad_cold (t := opState i h s g) s.cur.gang (bodyState i h s g).nextId (issued i h s g).ctx
    (hcold.imp_right (Cold.of_l1 (opState_l1 i h s g) (opState_rdc i h s g)))
  generalize serveLoad (bodyState i h s g).nextId g.core (issued i h s g).ctx bypass (ps.flatMap (·.keys)) (opState i h s g) = r at *
  generalize linesOf (bodyState i h s g) (issued i h s g) space needR (accs (theIss h s g)) = lines at hdo
  have hacq : (memLoad (bodyIss i h s g) (bodyState i h s g).nextId unit bypass acq (dst (bodyIss i h s g)) ps lines r.1).acq = acq :=
    if_neg (acting_parts_ne_nil hact hlanes)
  have hout := outstanding_of_started (reqs := (linesTouched ps).map fun l =>
      (l, .read (!bypass) (!bypass && isRemote g.core l) (sectorsTouched ps l))) hc hh hx (walkGate_none hp)
    ((congrArg (fun as => doLoad (bodyIss i h s g) code space bypass unit acq (dst (bodyIss i h s g)) as (bodyState i h s g)) hbody).trans hdo)
    ((opState_memQuiet i h s g).trans hserve) (by rw [hgangs]; exact look_opState hc) (bodyState_nextId i h s g) rfl (issued_core i h s g)
    (hreqs.trans (List.length_map _).symm) (fun e => hlines (List.map_eq_nil_iff.mp e)) fun q hq => by
      obtain ⟨l, hl, rfl⟩ := List.mem_map.mp hq
      have hasked := hask l hl
      rwa [bodyState_nextId] at hasked
  rw [hacq] at hout
  exact hout

theorem memBytes_pos (o : Mem) : 0 < memBytes o := Nat.mul_pos (tyBytes_pos o.t) (by split <;> decide)

theorem memBytes_words (o : Mem) : memBytes o ≤ 4 ∨ 4 ∣ memBytes o := by
  unfold memBytes
  cases o.two <;> cases o.t <;> decide

/-- R106, R111, R251 to R253, R293. -/
theorem ld_issues {o : Mem} (hs : o.space = .glob ∨ o.space = .priv) (hc : CanIssue (.ld h o) .ld s g) (hact : acting h s g ≠ 0)
    (hp : AllPass s g o.space needR (memAccs o (theIss h s g))) :
    let ps := partsOf s g o.space needR (memAccs o (theIss h s g))
    let bypass := atHome o.str o.scope
    bypass = true ∨ Cold s g.core ps →
    Outstanding (.ld h o) h s g keep .ld (acqOf o.str o.scope) (some (o.d, if o.two then .dbl else .ty o.t)) ps
      ((linesTouched ps).map fun l => (l, .read (!bypass) (!bypass && isRemote g.core l) (sectorsTouched ps l))) :=
  memLoad_issues (accs := memAccs o) (dst := fun _ => (o.d, loadFmt o)) hs hc rfl rfl rfl (memAccs_issued o) hact (memBytes_pos o)
    (memBytes_words o) hp

/-- R146, R147. -/
theorem wld_issues {o : WMem} (hs : o.space = .glob ∨ o.space = .priv) (hc : CanIssue (.wld h o) .ld s g) (hact : acting h s g ≠ 0)
    (hp : AllPass s g o.space needR (wideAccs o (theIss h s g))) :
    let ps := partsOf s g o.space needR (wideAccs o (theIss h s g))
    Cold s g.core ps →
    Outstanding (.wld h o) h s g keep .ld none (some (.w o.w, .wide (wideIn o (theIss h s g)))) ps
      ((linesTouched ps).map fun l => (l, .read true (isRemote g.core l) (sectorsTouched ps l))) := by
  intro ps hcold
  have hout := memLoad_issues (accs := wideAccs o) (dst := fun x => (.w o.w, .wide (wideIn o x))) (code := 0x58) (unit := 4) (bypass := false)
    (acq := none) hs hc rfl rfl rfl (wideAccs_issued o) hact (by decide) (.inr (by decide)) hp (.inr hcold)
  rw [wideIn_issued] at hout
  exact hout

end

end Sys2Proof.Machine
end

section
/-! Proof of O17, third part: stores that wait for their homes. -/

namespace Sys2Proof.Machine

section
variable {h : Hd} {s : State} {g : Gang} {space : Space}

/-! ## The bytes that a store sends -/

theorem map_fst_storedBytes {ps : List Part} {data : Nat → List Byte} (hlen : ∀ p ∈ ps, p.keys.length ≤ (data p.lane).length) :
    (storedBytes ps data).map (·.1) = ps.flatMap (·.keys) := by
  rw [storedBytes, List.map_flatMap]
  exact List.flatMap_congr fun p hp => List.map_fst_zip (hlen p hp)

/-- R251: the lines of the bytes that are sent are those that the access touches. -/
theorem lines_storedBytes {ps : List Part} {data : Nat → List Byte} (hlen : ∀ p ∈ ps, p.keys.length ≤ (data p.lane).length) :
    distinct ((storedBytes ps data).map fun x => lineOf x.1) = linesTouched ps := by
  rw [linesTouched, ← map_fst_storedBytes hlen, List.map_map]
  rfl

theorem length_leBytes (n x : Nat) : (leBytes n x).length = n := by rw [leBytes, List.length_map, List.length_range]

/-- R104: a store of two words names registers of 64 bits. -/
theorem two_of_legal {o : Mem} (hl : legal (.st h o) = true) (htwo : o.two = true) :
    tyBits o.t = 64 ∧ ((∃ n, o.d = .v n) ∨ ∃ n, o.d = .s n) := by
  have hentry := Laws.entryOk_of_legal hl
  have huses := Laws.usesOk_of_legal hl
  simp only [entryOk, htwo, Bool.not_true, Bool.false_or, Bool.and_eq_true, decide_eq_true_eq] at hentry
  simp only [uses, htwo, if_true, List.all_cons, Bool.and_eq_true] at huses
  refine ⟨hentry.2, ?_⟩
  have hkind := huses.1
  simp only [Use.ok, dblUse, kReg, Bool.and_eq_true] at hkind
  cases hd : o.d with
  | v n => exact .inl ⟨n, rfl⟩
  | s n => exact .inr ⟨n, rfl⟩
  | _ =>
    rw [hd] at hkind
    exact absurd hkind.1 Bool.false_ne_true

/-- R103, R104: a lane stores as many bytes as the access has. -/
theorem length_storeData {o : Mem} (hl : legal (.st h o) = true) {l : Nat} {f : Fibre} (hf : fibreAt g l = some f) :
    (storeData o (theIss h s g) l).length = memBytes o := by
  have hf' : fibreAt (theIss h s g).g l = some f := hf
  unfold storeData memBytes
  rw [hf']
  dsimp only
  cases htwo : o.two with
  | false =>
    simp only [length_leBytes, Bool.false_eq_true, if_false, Nat.mul_one]
  | true =>
    obtain ⟨hbits, hd⟩ := two_of_legal hl htwo
    have hbytes : tyBytes o.t = 8 := by rw [tyBytes, hbits]
    rcases hd with ⟨n, hn⟩ | ⟨n, hn⟩ <;> simp [hn, length_leBytes, hbytes]

/-! ## The operation -/

theorem doStore_mem {i : Instr} {accs : List Acc} (hs : space = .glob ∨ space = .priv) (hp : AllPass s g space needW accs) (code unit : Nat)
    (back : Option (Opnd × (Nat → Dword))) (data : Nat → List Byte) :
    let ps := partsOf s g space needW accs
    let r := storeBytes (bodyState i h s g).nextId g.core (issued i h s g).ctx (storedBytes ps data) (opState i h s g)
    let op := storeOp (bodyIss i h s g) (bodyState i h s g).nextId unit r.1 ps
    doStore (bodyIss i h s g) code space unit back accs data (bodyState i h s g) =
      startSampled (bodyIss i h s g) code (sectorsOf ps) 0 op op.acq.isSome r.2 := by
  have hcore : (bodyIss i h s g).g.core = g.core := issued_core ..
  rw [← hcore]
  rcases hs with rfl | rfl
  all_goals
    unfold doStore
    rw [split_issued _ hp, faultsOf_issued _ hp, raiseFaults_nil]
    rfl

/-- R111, R251: the operation of a store of some bytes, and the state in which it starts: it awaits one answer for each line. -/
structure StoreStarts (i : Instr) (h : Hd) (s : State) (g : Gang) (ps : List Part) (bs : List (Nat × Byte)) (lines : List Nat) (o : MemOp)
    (t : State) : Prop where
  quiet : MemQuiet s.cur.gang g.core s t
  gang : look s.cur.gang t.gangs = some (issued i h s g)
  op : ∃ unit, o = storeOp (bodyIss i h s g) s.nextId unit lines.length ps
  asked : ∀ l ∈ lines, Asked t s.nextId g.core l (.write (bs.filter fun x => lineOf x.1 = l))

theorem storeStarts_issued {i : Instr} {c : CtrKind} (hc : CanIssue i c s g) (unit : Nat) (ps : List Part) (bs : List (Nat × Byte)) :
    let r := storeBytes (bodyState i h s g).nextId g.core (issued i h s g).ctx bs (opState i h s g)
    StoreStarts i h s g ps bs (distinct (bs.map fun x => lineOf x.1)) (storeOp (bodyIss i h s g) (bodyState i h s g).nextId unit r.1 ps) r.2 := by
  obtain ⟨hreqs, hstore, hgangs, hask⟩ := storeBytes_asks s.cur.gang (bodyState i h s g).nextId g.core (issued i h s g).ctx bs (opState i h s g)
  refine ⟨(opState_memQuiet i h s g).trans hstore, ?_, ⟨unit, by rw [hreqs, bodyState_nextId]⟩, fun l hl => ?_⟩
  · rw [hgangs]
    exact look_opState hc
  · have hasked := hask l hl
    rwa [bodyState_nextId] at hasked ⊢

/-- R106, R251, R252: a store to memory sends its bytes, and starts an operation that awaits the answers. -/
theorem memStore_starts {i : Instr} {c : CtrKind} {accs : Iss → List Acc} {data : Iss → Nat → List Byte} {ea : Fibre → Dword} {n : Nat}
    (code unit : Nat) (back : Option (Opnd × (Nat → Dword))) (hs : space = .glob ∨ space = .priv) (hc : CanIssue i c s g)
    (haccs : accs (theIss h s g) = laneAccs (theIss h s g) ea n n) (hbody : accs (bodyIss i h s g) = accs (theIss h s g))
    (hw : n ≤ 4 ∨ 4 ∣ n) (hp : AllPass s g space needW (accs (theIss h s g)))
    (hdata : ∀ ps : List Part, ps.map (·.lane) = lanesOf (acting h s g) →
      storedBytes ps (data (bodyIss i h s g)) = storedBytes ps (data (theIss h s g)))
    (hlen : ∀ l f, fibreAt g l = some f → (data (theIss h s g) l).length = n) :
    let ps := partsOf s g space needW (accs (theIss h s g))
    ∃ o t, doStore (bodyIss i h s g) code space unit back (accs (bodyIss i h s g)) (data (bodyIss i h s g)) (bodyState i h s g) =
        startSampled (bodyIss i h s g) code (sectorsOf ps) 0 o o.acq.isSome t ∧
      StoreStarts i h s g ps (storedBytes ps (data (theIss h s g))) (linesTouched ps) o t := by
  intro ps
  have hdo := doStore_mem (i := i) (h := h) hs hp code unit back (data (bodyIss i h s g))
  rw [hbody]
  rw [haccs] at hp
  have hlanes : ps.map (·.lane) = lanesOf (acting h s g) := by
    simp only [ps, haccs, lanes_parts]
  have hsame : ∀ p ∈ ps, p.keys.length ≤ (data (theIss h s g) p.lane).length := fun p hm => by
    simp only [ps, haccs] at hm
    obtain ⟨l, f, ha, hf, rfl⟩ := mem_parts.mp hm
    rw [hlen l f hf, length_keysOf hs hw (hp _ (mem_laneAccs.mpr ⟨l, f, ha, hf, rfl⟩))]
  have hps : partsOf s g space needW (accs (theIss h s g)) = ps := rfl
  clear_value ps
  dsimp only at hdo
  rw [hps, hdata ps hlanes] at hdo
  have hstarts := storeStarts_issued (h := h) hc unit ps (storedBytes ps (data (theIss h s g)))
  rw [lines_storedBytes hsame] at hstarts
  exact ⟨_, _, hdo, hstarts⟩

/-- R111: a store of some bytes, sent line by line, is outstanding. -/
theorem outstanding_of_storeStarts {i : Instr} {c : CtrKind} {gate : Iss → State → Option State} {body : Iss → State → State} {code sect : Nat}
    {ps : List Part} {bs : List (Nat × Byte)} {lines : List Nat} {o : MemOp} {t : State} (hc : CanIssue i c s g) (hh : hdOf i = some h)
    (hx : exec i s = issue i h c gate body s) (hgate : gate (theIss h s g) s = none)
    (hbody : body (bodyIss i h s g) (bodyState i h s g) = startSampled (bodyIss i h s g) code sect 0 o o.acq.isSome t)
    (hst : StoreStarts i h s g ps bs lines o t) (hne : lines ≠ []) :
    Outstanding i h s g keep .st none none ps (lines.map fun l => (l, .write (bs.filter fun x => lineOf x.1 = l))) := by
  obtain ⟨hquiet, hgang, ⟨unit, rfl⟩, hask⟩ := hst
  exact outstanding_of_started hc hh hx hgate hbody hquiet hgang rfl rfl (issued_core ..) (List.length_map _).symm
    (fun e => hne (List.map_eq_nil_iff.mp e)) fun q hq => by
      obtain ⟨l, hl, rfl⟩ := List.mem_map.mp hq
      exact hask l hl

/-- R106, R111, R251, R252, R293. -/
theorem st_issues {o : Mem} (hs : o.space = .glob ∨ o.space = .priv) (hc : CanIssue (.st h o) .st s g) (hact : acting h s g ≠ 0)
    (hrel : o.str = .sync → Released h s g o.scope) (hp : AllPass s g o.space needW (memAccs o (theIss h s g))) :
    let ps := partsOf s g o.space needW (memAccs o (theIss h s g))
    Outstanding (.st h o) h s g keep .st none none ps
      ((linesTouched ps).map fun l => (l, .write ((storedBytes ps (storeData o (theIss h s g))).filter fun x => lineOf x.1 = l))) := by
  have hpeer : o.space ≠ .peer := by rcases hs with hs | hs <;> rw [hs] <;> nofun
  obtain ⟨op, t, hdo, hst⟩ := memStore_starts (data := storeData o) 0x61 (unitOf o.str o.space (tyBytes o.t)) none hs hc rfl (memAccs_issued o)
    (memBytes_words o) hp (fun _ => storedBytes_issued) fun _ _ => length_storeData hc.word
  exact outstanding_of_storeStarts hc rfl (exec_st h o s) (bothGates_none (walkGate_none hp) (relOf_none hpeer hp (lanes_laneAccs ..) hrel)) hdo hst
    (linesTouched_ne_nil hs hact (memBytes_pos o) (memBytes_words o) hp)

/-- R146 to R148: a wide store, of which C takes the status at once. -/
theorem wst_issues {o : WMem} (hs : o.space = .glob ∨ o.space = .priv) (hc : CanIssue (.wst h o) .st s g) (hact : acting h s g ≠ 0)
    (hp : AllPass s g o.space needW (wideAccs o (theIss h s g))) :
    let ps := partsOf s g o.space needW (wideAccs o (theIss h s g))
    let st := fun f => wideStatus (getWide f o.w)
    let data := fun l => leBytes 128 (wideOut o (theIss h s g) l).w.toNat
    DidWith (.wst h o) h s g (fun _ f => writeReg 32 o.c (st f) f)
      { g with stcnt := g.stcnt + 1, s := writeScalar 32 o.c (fun _ f => st f) h s g g.s } fun t =>
        MemFrame s.cur.gang g.core s t ∧ SpadSame g.core s t ∧
        (∀ l ∈ linesTouched ps, Asked t s.nextId g.core l (.write ((storedBytes ps data).filter fun x => lineOf x.1 = l))) ∧
        ∃ o', look s.nextId t.ops = some o' ∧ o'.gang = s.cur.gang ∧ o'.ctr = .st ∧ o'.parts = ps ∧ o'.left = (linesTouched ps).length := by
  intro ps st data
  have hpeer : o.space ≠ .peer := by rcases hs with hs | hs <;> rw [hs] <;> nofun
  obtain ⟨op, t, hdo, hquiet, hgang, ⟨unit, rfl⟩, hask⟩ := memStore_starts (data := fun x l => leBytes 128 (wideOut o x l).w.toNat) 0x59 4
    (some (o.c, fun l => wideStatus (wideOut o (bodyIss (.wst h o) h s g) l))) hs hc rfl (wideAccs_issued o) (.inr (by decide)) hp
    (fun _ => storedBytes_wide_issued) fun _ _ _ => length_leBytes ..
  have hlines : linesTouched ps ≠ [] := linesTouched_ne_nil hs hact (by decide) (.inr (by decide)) hp
  obtain ⟨u, hu, hg2, hq, hreqs, p, hop⟩ := startSampled_outstanding (code := 0x59) (sect := sectorsOf ps) (hit := 0)
    (o := storeOp (bodyIss (.wst h o) h s g) s.nextId unit (linesTouched ps).length ps) hc hquiet hgang rfl
    (issued_core ..) fun e => hlines (List.length_eq_zero_iff.mp e)
  have hcounted : counted (storeOp (bodyIss (.wst h o) h s g) s.nextId unit (linesTouched ps).length ps) g = { g with stcnt := g.stcnt + 1 } := by
    rw [counted, ← hc.free]
    rfl
  rw [hcounted] at hg2
  refine didWith_of_results (G := { g with stcnt := g.stcnt + 1 }) hc rfl (exec_wst h o s) (walkGate_none hp)
    ((if_neg hpeer).trans ((wst_body hp _).trans (congrArg _ (hdo.trans hu)))) hg2 rfl hc.noFault (fun _ _ => rfl) hq.toMemStep
    fun v hv hops hvreqs => ⟨(hq.trans hv).frame, (hq.trans hv).spad, fun l hl => ?_, _, hops ▸ hop, rfl, rfl, rfl, rfl⟩
  obtain ⟨r, hr, hrest⟩ := hask l hl
  exact ⟨r, by rw [hvreqs, hreqs]; exact hr, hrest⟩

end

end Sys2Proof.Machine
end

section
/-! Proof of O17, fourth part: image stores. -/

namespace Sys2Proof.Machine

section
variable {i : Instr} {h : Hd} {s : State} {g : Gang} {t : Ty} {map : Fin 4} {d a b : Opnd}

theorem symOf_bodyState (i : Instr) (h : Hd) (s : State) (g : Gang) : symOf (bodyState i h s g) (issued i h s g) = symOf s g := by
  rw [symOf, gangLaunch_alike (checksAlike_bodyState i h s g), symOf]

theorem imageBad_past (y : Option (Sym × Extents)) (f : Fibre) : imageBad y map t (past i s g f) = imageBad y map t f := rfl

/-- R230: a lane's list is the same before and after the accounts of the issue. -/
theorem imageOf_issued (f : Fibre) :
    imageOf (bodyState i h s g) (bodyIss i h s g) t map d a b (past i s g f) = imageOf s (theIss h s g) t map d a b f := by
  unfold imageOf
  dsimp only
  rw [symOf_bodyState, imageBad_past, rdAddr_issued, rd_past i s g _ h.ext (rdTy t) f d (issued_s i h s g)]
  rfl

theorem imageFault_issued (f : Fibre) :
    imageFault (bodyState i h s g) (bodyIss i h s g) t map d a b (past i s g f) = imageFault s (theIss h s g) t map d a b f := by
  unfold imageFault
  rw [imageOf_issued]
  dsimp only
  rw [symOf_bodyState, imageBad_past]
  simp only [check_alike (checksAlike_bodyState i h s g)]
  rfl

theorem imageBytes_issued (f : Fibre) :
    imageBytes (bodyState i h s g) (bodyIss i h s g) t map d a b (past i s g f) = imageBytes s (theIss h s g) t map d a b f := by
  unfold imageBytes
  rw [imageOf_issued]
  dsimp only
  simp only [check_alike (checksAlike_bodyState i h s g)]
  rfl

/-- R232: each acting lane with the bytes of its list. -/
def imageLanes (t : Ty) (map : Fin 4) (d a b : Opnd) (s : State) (x : Iss) : List (Nat × List (Nat × Byte)) :=
  (lanesOf x.act).filterMap fun l => (fibreAt x.g l).map fun f => (l, imageBytes s x t map d a b f)

/-- The acting lanes with their fibres, as the body of an issue finds them. -/
def actingFibres (x : Iss) : List (Nat × Fibre) := (lanesOf x.act).filterMap fun l => (fibreAt x.g l).map fun f => (l, f)

theorem imageLanes_issued : (actingFibres (bodyIss i h s g)).map (fun l =>
    (l.1, imageBytes (bodyState i h s g) (bodyIss i h s g) t map d a b l.2)) = imageLanes t map d a b s (theIss h s g) := by
  rw [actingFibres, List.map_filterMap]
  simp only [Option.map_map]
  exact filterMap_issued fun l f => congrArg (Prod.mk l) (imageBytes_issued f)

theorem mem_actingFibres {x : Nat × Fibre} (hx : x ∈ actingFibres (bodyIss i h s g)) :
    ∃ f, laneIn (acting h s g) x.1 = true ∧ fibreAt g x.1 = some f ∧ x.2 = past i s g f := by
  obtain ⟨l, hl, hx⟩ := List.mem_filterMap.mp hx
  obtain ⟨f', hf', rfl⟩ := Option.map_eq_some_iff.mp hx
  obtain ⟨f, hf, rfl⟩ := acting_issued (mem_lanesOf.mp hl) hf'
  exact ⟨f, mem_lanesOf.mp hl, hf, rfl⟩

/-- R229 to R232: with no fault, an image store sends the bytes of its lanes' lists. -/
theorem imageStore_body
    (hok : ∀ l f, laneIn (acting h s g) l = true → fibreAt g l = some f → imageFault s (theIss h s g) t map d a b f = none) :
    let i := Instr.imageStore h t map d a b
    let lanes := imageLanes t map d a b s (theIss h s g)
    let r := storeBytes (bodyState i h s g).nextId g.core (issued i h s g).ctx (lanes.flatMap (·.2)) (opState i h s g)
    let ps : List Part := lanes.map fun l => ⟨l.1, l.2.map (·.1)⟩
    let op := storeOp (bodyIss i h s g) (bodyState i h s g).nextId 4 r.1 ps
    ∃ body, exec i s = issue i h .st (fun x s => walkGate .glob needW (imageAccs s t map d a b) x s) body s ∧
      body (bodyIss i h s g) (bodyState i h s g) = startSampled (bodyIss i h s g) 0x61 (sectorsOf ps) 0 op op.acq.isSome r.2 := by
  intro i lanes r ps op
  have hnone : ∀ x ∈ actingFibres (bodyIss i h s g), imageFault (bodyState i h s g) (bodyIss i h s g) t map d a b x.2 = none := fun x hx => by
    obtain ⟨f, ha, hf, hpast⟩ := mem_actingFibres hx
    rw [hpast, imageFault_issued, hok x.1 f ha hf]
  have hbad : (actingFibres (bodyIss i h s g)).filterMap (fun l =>
      (imageFault (bodyState i h s g) (bodyIss i h s g) t map d a b l.2).map fun c => (⟨l.1, c.1, c.2, s.cur.pc⟩ : TrapRec)) = [] :=
    List.filterMap_eq_nil_iff.mpr fun x hx => by rw [hnone x hx]; rfl
  have hgood : (actingFibres (bodyIss i h s g)).filter (fun l => (imageFault (bodyState i h s g) (bodyIss i h s g) t map d a b l.2).isNone) =
      actingFibres (bodyIss i h s g) := List.filter_eq_self.mpr fun x hx => by rw [hnone x hx]; rfl
  have hbytes : ((actingFibres (bodyIss i h s g)).flatMap fun l => imageBytes (bodyState i h s g) (bodyIss i h s g) t map d a b l.2) =
      lanes.flatMap (·.2) := by
    simp only [lanes]
    rw [← imageLanes_issued (i := i), List.flatMap_map]
  have hparts : ((actingFibres (bodyIss i h s g)).map fun l =>
      (⟨l.1, (imageBytes (bodyState i h s g) (bodyIss i h s g) t map d a b l.2).map (·.1)⟩ : Part)) = ps := by
    simp only [ps, lanes]
    rw [← imageLanes_issued (i := i), List.map_map]
    rfl
  have hx : exec i s = execImageStore h t map d a b s := rfl
  rw [hx]
  unfold execImageStore
  refine ⟨_, rfl, ?_⟩
  unfold actingFibres at hbad hgood hbytes hparts
  dsimp only at hbad hgood hbytes hparts ⊢
  rw [hbad, hgood, raiseFaults_nil, hbytes, hparts, issued_core]
  rfl

/-- R229 to R232, R251, R252. -/
theorem imageStore_issues (hc : CanIssue (.imageStore h t map d a b) .st s g)
    (hok : ∀ l f, laneIn (acting h s g) l = true → fibreAt g l = some f → imageFault s (theIss h s g) t map d a b f = none)
    (hp : AllPass s g .glob needW (imageAccs s t map d a b (theIss h s g))) :
    let lanes := (lanesOf (acting h s g)).filterMap fun l => (fibreAt g l).map fun f => (l, imageBytes s (theIss h s g) t map d a b f)
    let bytes := lanes.flatMap (·.2)
    bytes ≠ [] →
    Outstanding (.imageStore h t map d a b) h s g keep .st none none (lanes.map fun l => ⟨l.1, l.2.map (·.1)⟩)
      ((distinct (bytes.map fun y => lineOf y.1)).map fun l => (l, .write (bytes.filter fun y => lineOf y.1 = l))) := by
  intro lanes bytes hne
  obtain ⟨body, hx, hbody⟩ := imageStore_body hok
  obtain ⟨y, hy⟩ := List.exists_mem_of_ne_nil bytes hne
  have hlines : distinct (bytes.map fun y => lineOf y.1) ≠ [] := fun he => by
    have hmem : lineOf y.1 ∈ distinct (bytes.map fun y => lineOf y.1) := mem_distinct.mpr (List.mem_map.mpr ⟨y, hy, rfl⟩)
    rw [he] at hmem
    cases hmem
  exact outstanding_of_storeStarts hc rfl hx (walkGate_none hp) hbody (storeStarts_issued hc 4 _ bytes) hlines

end

end Sys2Proof.Machine
end

section
/-! Proof of O17, fifth part: loads that find their bytes in L1. -/

namespace Sys2Proof.Machine

/-- Event counters alone have moved: no request is made, and the core's L1 holds what it held. -/
structure CountStep (k core : Nat) (s t : State) : Prop where
  quiet : MemQuiet k core s t
  gangs : t.gangs = s.gangs
  reqs : t.reqs = s.reqs
  l1 : (coreOf t core).l1 = (coreOf s core).l1
  uo : (coreOf t core).uo = (coreOf s core).uo

section
variable {k core line : Nat} {s t u : State}

theorem CountStep.refl (k core : Nat) (s : State) : CountStep k core s s := ⟨.refl k core s, rfl, rfl, rfl, rfl⟩

theorem CountStep.trans (h : CountStep k core s t) (h' : CountStep k core t u) : CountStep k core s u :=
  ⟨h.quiet.trans h'.quiet, h'.gangs.trans h.gangs, h'.reqs.trans h.reqs, h'.l1.trans h.l1, h'.uo.trans h.uo⟩

theorem perfCount_uo (core ctx code n : Nat) (s : State) : (coreOf (perfCount core ctx code n s) core).uo = (coreOf s core).uo := by
  unfold perfCount
  split
  · rfl
  · rw [coreOf_updCore_same]

theorem perfCount_countStep (k core ctx code n : Nat) (s : State) : CountStep k core s (perfCount core ctx code n s) :=
  ⟨perfCount_memQuiet .., perfCount_gangs .., perfCount_reqs .., perfCount_l1 .., perfCount_uo ..⟩

/-- R252: sectors in L1 give their bytes at once. -/
theorem serveLine_near (k op ctx : Nat) {secs : List Nat} {a : Served × State} (huo : (coreOf a.2 core).uo = [])
    (hin : ∀ x ∈ secs, inL1 (coreOf a.2 core) x = true) :
    let r := serveLine op core ctx false line secs a
    r.1.got = a.1.got ++ secs.flatMap (copyBytes (coreOf a.2 core).l1) ∧ r.1.reqs = a.1.reqs ∧ CountStep k core a.2 r.2 := by
  have hmerge : mergeUo core (· = line) a.2 = a.2 := by
    rw [mergeUo_eq, huo]
    rfl
  have hhit : secs.filter (inL1 (coreOf a.2 core)) = secs := List.filter_eq_self.mpr hin
  have hmiss : (secs.filter fun x => !secs.contains x) = [] := List.filter_eq_nil_iff.mpr fun x hx => by simp [hx]
  unfold serveLine
  dsimp only
  rw [hmerge, if_neg Bool.false_ne_true, if_neg Bool.false_ne_true, hhit, hmiss, if_pos rfl]
  exact ⟨rfl, rfl, (perfCount_countStep ..).trans (perfCount_countStep ..)⟩

theorem serveLines_near (k op ctx : Nat) {secsOf : Nat → List Nat} : ∀ {ls : List Nat} {a : Served × State}, (coreOf a.2 core).uo = [] →
    (∀ l ∈ ls, ∀ x ∈ secsOf l, inL1 (coreOf a.2 core) x = true) →
    let r := ls.foldl (fun a l => serveLine op core ctx false l (secsOf l) a) a
    r.1.got = a.1.got ++ (ls.flatMap secsOf).flatMap (copyBytes (coreOf a.2 core).l1) ∧ r.1.reqs = a.1.reqs ∧
      CountStep k core a.2 r.2
  | [], a, _, _ => ⟨(List.append_nil _).symm, rfl, .refl ..⟩
  | l :: ls, a, huo, hin => by
    obtain ⟨hgot, hreqs, hstep⟩ := serveLine_near (line := l) k op ctx huo (hin l List.mem_cons_self)
    obtain ⟨hgot', hreqs', hsteps⟩ := serveLines_near k op ctx (secsOf := secsOf) (ls := ls) (a := serveLine op core ctx false l (secsOf l) a)
      (hstep.uo.trans huo) fun j hj x hx => by
        rw [inL1, hstep.l1]
        exact hin j (List.mem_cons_of_mem _ hj) x hx
    refine ⟨?_, hreqs'.trans hreqs, hstep.trans hsteps⟩
    rw [List.foldl_cons, hgot', hgot, hstep.l1, List.flatMap_cons, List.flatMap_append, List.append_assoc]

/-- A byte of a table that holds `v` of each of its keys. -/
theorem byteAt_of_mem {v : Nat → Byte} {key : Nat} : ∀ {got : List (Nat × Byte)}, (∀ x ∈ got, x.2 = v x.1) → (∃ x ∈ got, x.1 = key) →
    byteAt got key = v key
  | [], _, ⟨_, hx, _⟩ => absurd hx List.not_mem_nil
  | y :: got, hv, ⟨x, hx, hk⟩ => by
    by_cases hy : y.1 = key
    · rw [byteAt, List.find?_cons_of_pos (by simpa using hy), Option.map_some, Option.getD_some, hv y List.mem_cons_self, hy]
    · have hx' : x ∈ got := (List.mem_cons.mp hx).resolve_left fun e => hy (e ▸ hk)
      have ih := byteAt_of_mem (fun z hz => hv z (List.mem_cons_of_mem _ hz)) ⟨x, hx', hk⟩
      rw [byteAt, List.find?_cons_of_neg (by simpa using hy)]
      exact ih

/-- R252: a load whose sectors are all in L1 has its bytes from there, and asks for nothing. -/
theorem serveLoad_near (k op ctx : Nat) {ps : List Part} (huo : (coreOf t core).uo = [])
    (hin : ∀ p ∈ ps, ∀ b ∈ p.keys, inL1 (coreOf t core) (sectorOf b) = true) :
    let r := serveLoad op core ctx false (ps.flatMap (·.keys)) t
    r.1.reqs = 0 ∧ CountStep k core t r.2 ∧
      ∀ p ∈ ps, ∀ b ∈ p.keys, byteAt r.1.got b = (look b (coreOf t core).l1).getD 0 := by
  have hin' : ∀ l ∈ linesTouched ps, ∀ x ∈ sectorsTouched ps l, inL1 (coreOf t core) x = true := fun l _ x hx => by
    obtain ⟨b, hb, rfl⟩ := List.mem_map.mp (mem_distinct.mp hx)
    obtain ⟨p, hp, hbk⟩ := List.mem_flatMap.mp (List.mem_filter.mp hb).1
    exact hin p hp b hbk
  obtain ⟨hgot, hreqs, hstep⟩ := serveLines_near k op ctx (a := ((⟨[], 0, 0⟩ : Served), t)) huo hin'
  refine ⟨hreqs, hstep, fun p hp b hb => ?_⟩
  have hkey : b ∈ ps.flatMap (·.keys) := List.mem_flatMap.mpr ⟨p, hp, hb⟩
  have hsec : sectorOf b ∈ (linesTouched ps).flatMap (sectorsTouched ps) :=
    List.mem_flatMap.mpr ⟨lineOf b, mem_distinct.mpr (List.mem_map_of_mem hkey),
      mem_distinct.mpr (List.mem_map.mpr ⟨b, List.mem_filter.mpr ⟨hkey, decide_eq_true rfl⟩, rfl⟩)⟩
  refine (congrArg (byteAt · b) (hgot.trans (List.nil_append _))).trans (byteAt_of_mem (v := fun j => (look j (coreOf t core).l1).getD 0) ?_ ?_)
  · intro x hx
    obtain ⟨sec, -, hx⟩ := List.mem_flatMap.mp hx
    obtain ⟨j, -, rfl⟩ := List.mem_map.mp hx
    rfl
  · have hb64 : 64 * sectorOf b + b % 64 = b := Nat.div_add_mod b 64
    exact ⟨_, List.mem_flatMap.mpr ⟨sectorOf b, hsec, List.mem_map.mpr ⟨b % 64, List.mem_range.mpr (Nat.mod_lt _ (by decide)), rfl⟩⟩, hb64⟩

end

section
variable {h : Hd} {s : State} {g : Gang}

/-- R447: a launch without a replay log takes note of no line. -/
theorem linesOf_of_noReplay {t : State} {g' : Gang} (hn : NoReplay t g') (space : Space) (need : Need) (as : List Acc) :
    linesOf t g' space need as = [] := by
  have hno : ((gangLaunch t g').map (·.pkt.replay)).getD false = false := by
    cases hl : gangLaunch t g' with
    | none => rfl
    | some l => exact hn l hl
  rw [linesOf, hno]
  rfl

/-- R102 to R104, R252: a weak load whose bytes are all in L1 completes where it issues. -/
theorem ld_near {o : Mem} (hs : o.space = .glob ∨ o.space = .priv) (hweak : o.str = .weak) (hc : CanIssue (.ld h o) .ld s g)
    (hready : GroupReady s g) (hn : NoReplay s g) (hp : AllPass s g o.space needR (memAccs o (theIss h s g)))
    (huo : (coreOf s g.core).uo = [])
    (hin : ∀ p ∈ partsOf s g o.space needR (memAccs o (theIss h s g)), ∀ k ∈ p.keys, inL1 (coreOf s g.core) (sectorOf k) = true) :
    let bytes := fun l f => (keysOf s g o.space needR ⟨l, rdAddr g h.ext f o.a o.b, memBytes o, memBytes o⟩).map
      fun k => (look k (coreOf s g.core).l1).getD 0
    DidWith (.ld h o) h s g (fun l f => loadReg o (bytes l f) f) { g with s := loadScalar o h s g bytes }
      fun t => MemFrame s.cur.gang g.core s t ∧ SpadSame g.core s t ∧ t.reqs = s.reqs := by
  intro bytes
  have hby : atHome o.str o.scope = false := by
    rw [hweak]
    rfl
  have hacq : acqOf o.str o.scope = none := by
    rw [hweak]
    rfl
  have hx := exec_ld h o s
  rw [hby, hacq] at hx
  have hdo := doLoad_mem (i := .ld h o) (h := h) hs hp 0x60 (unitOf o.str o.space (tyBytes o.t)) false none (o.d, loadFmt o)
  rw [linesOf_of_noReplay (noReplay_issued hn)] at hdo
  have hcore : coreOf (opState (.ld h o) h s g) g.core = coreOf (bodyState (.ld h o) h s g) g.core := rfl
  have huo' : (coreOf (opState (.ld h o) h s g) g.core).uo = [] := by
    rw [hcore, (bodyState_sameBut (.ld h o) h s g).cores]
    exact huo
  have hl1 := opState_l1 (.ld h o) h s g
  obtain ⟨hreqs, hstep, hbytes⟩ := serveLoad_near s.cur.gang (bodyState (.ld h o) h s g).nextId (issued (.ld h o) h s g).ctx
    (ps := partsOf s g o.space needR (memAccs o (theIss h s g))) huo' fun p hp b hb => by
      rw [inL1, hl1]
      exact hin p hp b hb
  rw [hl1] at hbytes
  dsimp only at hdo
  generalize serveLoad (bodyState (.ld h o) h s g).nextId g.core (issued (.ld h o) h s g).ctx false
    ((partsOf s g o.space needR (memAccs o (theIss h s g))).flatMap (·.keys)) (opState (.ld h o) h s g) = r at *
  have hbody := (congrArg (fun as => doLoad (bodyIss (.ld h o) h s g) 0x60 o.space false (unitOf o.str o.space (tyBytes o.t)) none
    (o.d, loadFmt o) as (bodyState (.ld h o) h s g)) (memAccs_issued (i := .ld h o) o)).trans hdo
  have hquiet := (opState_memQuiet (.ld h o) h s g).trans hstep.quiet
  refine didWith_of_started hc rfl hx (walkGate_none hp) hbody hquiet.toMemStep (by rw [hstep.gangs]; exact look_opState hc) rfl
    (issued_core ..) hreqs rfl rfl (.inl rfl) ?_ fun u hu hureqs => ⟨(hquiet.trans hu).spad, ?_⟩
  · refine lands_load rfl rfl (lanes_parts ..) hready (fun p hm f hf => ?_) fun l f => by simp only [bytes, rdAddr_past]
    obtain ⟨l, f', ha, hf', rfl⟩ := mem_parts.mp hm
    obtain rfl := Option.some.inj (hf'.symm.trans hf)
    exact List.map_congr_left fun b hb => hbytes _ hm b hb
  · rw [hureqs (ite_self _), hstep.reqs, opState, (bodyState_sameBut (.ld h o) h s g).rest]

end

/-- Settles O17: where bytes are to be had no nearer than their homes, the body of the issue makes one request for each line touched, and
its operation awaits them; where L1 has every sector, the operation ends at once. -/
theorem memoryAccessesIssue : Obligations.MemoryAccessesIssue := by
  unfold Obligations.MemoryAccessesIssue
  exact ⟨fun h o s g hs hc _ => ld_issues hs hc, fun h o s g hs hc _ => st_issues hs hc, fun h o s g hs hc _ => wld_issues hs hc,
    fun h o s g hs hc _ => wst_issues hs hc, fun h t map d a b s g hc _ => imageStore_issues hc, fun h o s g => ld_near⟩

end Sys2Proof.Machine
end
